-- ==== Sys2Proof/Word.lean ====
section
/-! DEFINITION. The words of the KV8 (spec/00_scope.md R1): 64-bit registers, 32-bit parcels, bytes, and the names of
sizes and fields that every later file uses. -/

namespace Sys2Proof

/-- A 64-bit register, pointer or doubleword. -/
abbrev Word := BitVec 64
/-- A 32-bit parcel (R164). -/
abbrev Parcel := BitVec 32
abbrev Byte := BitVec 8

/-- A scalar register number, s0 to s63 (R48, R49). -/
abbrev SReg := BitVec 6
/-- A vector register number as a 7-bit field (R50). -/
abbrev VReg := BitVec 7
/-- A mask register number, k0 to k7 (R52). -/
abbrev KReg := BitVec 3
/-- One bit per lane of the largest team (R22); lanes at or above LANES are held 0 (R23). -/
abbrev Mask := BitVec 1024

/-- Sign extension of a field to 64 bits: `sext(x, n)` of R184's chapter. -/
def sext64 {n : Nat} (x : BitVec n) : Word := x.signExtend 64

/-- Zero extension of a field to 64 bits. -/
def zext64 {n : Nat} (x : BitVec n) : Word := x.setWidth 64

end Sys2Proof
end

