-- ==== Sys2Proof/Syntax.lean ====
section
/-! DEFINITION. The instructions of the KV8 as syntax: one constructor of `Instr` per row of spec/opcode_table.json.
The first 204 rows are instructions of a team (spec/08 R172-R182 gives their formats); the rest are the package's
commands (spec/14 R311), register writes (spec/23) and events (spec/95), which reach the machine through its inbox or
its command queues. Operand types carry every field a row's encoding has. -/

namespace Sys2Proof

/-! ### Operands of a team's instructions -/

/-- Sub-element width of es (R51). -/
inductive Width where
  | b | h | w | d
  deriving DecidableEq, Repr

/-- A scalar source field and its wait bit (R56). -/
structure SSrc where
  r : SReg
  w : Bool
  deriving DecidableEq, Repr

/-- A vector source field and its wait bit. -/
structure VSrc where
  r : VReg
  w : Bool
  deriving DecidableEq, Repr

/-- Operand a of a vector instruction: a vector register, or a scalar broadcast (mods bit 2, R175). -/
inductive VA where
  | vec (s : VSrc)
  | scal (s : SSrc)
  deriving DecidableEq, Repr

/-- Operand b of a vector instruction: also a literal (mods bit 3, R175). -/
inductive VB where
  | vec (s : VSrc)
  | scal (s : SSrc)
  | lit (v : BitVec 32)
  deriving DecidableEq, Repr

/-- Saturation of VALU ADD, SUB and PACK (R116, R218): none, .S or .SN. -/
inductive Sat where
  | wrap | s | sn
  deriving DecidableEq, Repr

/-- Floating formats of arithmetic (R217). -/
inductive FFmt where
  | f16 | bf16 | f32 | f64
  deriving DecidableEq, Repr

/-- The format codes of R227. -/
inductive Fmt where
  | i8 | n8 | i16 | n16 | i32 | n32 | i64 | n64
  | dm8 | e4m3 | e5m2 | e8m0 | fp16 | bf16 | fp32 | fp64
  deriving DecidableEq, Repr

/-- Functions of SALU and SALUL (R187). -/
inductive SaluFn where
  | add | sub | and | or | xor | andn | shl | shrl | shra | mul | mulh | mulhn | min | max | minn | maxn
  deriving DecidableEq, Repr

/-- Branch conditions (R177). -/
inductive Cond where
  | al | eq | ne | lt | ge | gt | le | lo | hs | hi | ls | vs | last | adpt | full | nfull
  deriving DecidableEq, Repr

/-- Integer comparisons of VCMP (R221). -/
inductive CmpFn where
  | eq | ne | lt | le | gt | ge | ltn | len | gtn | gen
  deriving DecidableEq, Repr

/-- Floating comparisons of FCMP (R225). -/
inductive FCmpFn where
  | eq | ne | lt | le | gt | ge | un
  deriving DecidableEq, Repr

/-- The combination of VRED and SCAN with its element type (R233): integer functions at a width, floating at a format. -/
inductive RedFn where
  | add (es : Width) (sat : Bool)
  | min (es : Width) | max (es : Width) | minn (es : Width) | maxn (es : Width)
  | and (es : Width) | or (es : Width) | xor (es : Width)
  | fadd (f : FFmt) | fmin (f : FFmt) | fmax (f : FFmt)
  deriving DecidableEq, Repr

/-- Scopes of accesses and fences (R89, R240). -/
inductive Scope where
  | team | block | core | die | dev | sys
  deriving DecidableEq, Repr

/-- Order of an access (R240). -/
inductive MOrder where
  | plain
  | acq (s : Scope)
  | rel (s : Scope)
  | ar (s : Scope)
  deriving DecidableEq, Repr

/-- Access sizes of LD, ST and LDFE (R244): .p is a 16-byte pair. -/
inductive MSize where
  | b | h | w | d | p
  deriving DecidableEq, Repr

/-- Atomic operations (R249). -/
inductive AtomOp where
  | add | and | or | xor | min | max | minn | maxn | swap | cas | fadd
  deriving DecidableEq, Repr

/-- Engine classes of WAITC (R253). -/
inductive EClass where
  | cpy | mxa | gth | col
  deriving DecidableEq, Repr

/-- A vector instruction with operands a and b. -/
structure VBin where
  d : VReg
  k : KReg
  es : Width
  a : VA
  b : VB
  deriving DecidableEq, Repr

/-- A vector instruction with operand a only. -/
structure VUn where
  d : VReg
  k : KReg
  es : Width
  a : VA
  deriving DecidableEq, Repr

/-- A vector instruction with operands a, b and the vector c. -/
structure VTri where
  d : VReg
  k : KReg
  es : Width
  a : VA
  b : VB
  c : VSrc
  deriving DecidableEq, Repr

structure FBin where
  d : VReg
  k : KReg
  f : FFmt
  a : VA
  b : VB
  deriving DecidableEq, Repr

structure FUn where
  d : VReg
  k : KReg
  f : FFmt
  a : VA
  deriving DecidableEq, Repr

structure FTri where
  d : VReg
  k : KReg
  f : FFmt
  a : VA
  b : VB
  c : VSrc
  deriving DecidableEq, Repr

/-- SHFLI's amount: a scalar register (F2) or a literal (F3) (R232). -/
inductive ShAmt where
  | scal (s : SSrc)
  | lit (v : BitVec 32)
  deriving DecidableEq, Repr

structure ShfliOps where
  d : VReg
  k : KReg
  a : VSrc
  b : ShAmt
  g : BitVec 4
  deriving DecidableEq, Repr

/-- A lane's sub-element of a vector register, as BALLOT, VANY, VALL and MATCH name it. -/
structure ElemOps where
  k : KReg
  es : Width
  a : VSrc
  idx : BitVec 3
  deriving DecidableEq, Repr

/-- LD, ST: the register d, the address s[a] + off (F3) or s[a] (F2, `off = none`), size, .SX and order (R244). -/
structure MemOps where
  d : SReg
  a : SSrc
  off : Option (BitVec 32)
  size : MSize
  sx : Bool
  ord : MOrder
  deriving DecidableEq, Repr

/-- VLD.STR, VST.STR (R245). -/
structure StrOps where
  d : VReg
  k : KReg
  es : Width
  a : SSrc
  off : Option (BitVec 32)
  b : SSrc
  sx : Bool
  ord : MOrder
  deriving DecidableEq, Repr

/-- VLD.IX, VST.IX (R245). -/
structure IxOps where
  d : VReg
  k : KReg
  es : Width
  a : SSrc
  off : Option (BitVec 32)
  c : VSrc
  sx : Bool
  ord : MOrder
  deriving DecidableEq, Repr

/-- VLD.PRV, VST.PRV; `c = some` is mods[0] = 1, per-lane word indices (R245). -/
structure PrvOps where
  d : VReg
  k : KReg
  es : Width
  a : SSrc
  off : Option (BitVec 32)
  c : Option VSrc
  sx : Bool
  deriving DecidableEq, Repr

structure LdfeOps where
  d : SReg
  a : SSrc
  size : MSize
  sx : Bool
  deriving DecidableEq, Repr

/-- ATOM (R249); `dw` is size .d. -/
structure AtomOps where
  d : SReg
  a : SSrc
  off : Option (BitVec 32)
  dw : Bool
  sx : Bool
  b : SSrc
  ord : MOrder
  deriving DecidableEq, Repr

/-- VATOM (R251). -/
structure VatomOps where
  op : AtomOp
  d : VReg
  k : KReg
  dw : Bool
  sx : Bool
  a : SSrc
  c : VSrc
  b : VSrc
  nr : Bool
  ord : MOrder
  deriving DecidableEq, Repr

/-- The phase operand of BAR.WAIT (R256). -/
inductive BarPhase where
  | reg (b : SSrc)
  | imm (p : BitVec 8)
  deriving DecidableEq, Repr

structure MxloopOps where
  tile : Bool
  a : SSrc
  b : SSrc
  c : SSrc
  ks : BitVec 16
  m1 : BitVec 8
  l1 : BitVec 3
  z : Bool
  keep : Bool
  deriving DecidableEq, Repr

structure MxgOps where
  tile : Bool
  a : SSrc
  c : SSrc
  g : BitVec 16
  z : Bool
  deriving DecidableEq, Repr

structure MxeOps where
  tile : Bool
  b : SSrc
  c : SSrc
  ks : BitVec 16
  m1 : BitVec 8
  p : BitVec 3
  z : Bool
  keep : Bool
  deriving DecidableEq, Repr

structure MxaccOps where
  tile : Bool
  a : SSrc
  b : SSrc
  c : SSrc
  fmt : Fmt
  clr : Bool
  deriving DecidableEq, Repr

/-- MMA (R276); `c = none` is .Z. -/
structure MmaOps where
  d : VReg
  k : KReg
  a : VSrc
  b : VSrc
  c : Option VSrc
  fa : Fmt
  fb : Fmt
  deriving DecidableEq, Repr

/-! ### Operands of commands and events -/

/-- The place of a team context: a target word's three fields (R289). -/
structure Place where
  die : BitVec 4
  core : BitVec 6
  ctx : BitVec 5
  deriving DecidableEq, Repr

/-- The header of a command record and the queue it was taken from (R309, R310). -/
structure Cmd where
  part : BitVec 4
  queue : BitVec 6
  head : Word
  asid : BitVec 16
  tag : BitVec 32
  compl : Word
  after : Option Word
  deriving DecidableEq, Repr

/-- The bytes after the header of a LAUNCH, CTRL.RUN or graph node record (R315). -/
structure LaunchRec where
  kdesc : Word
  blocks : BitVec 32
  priv : Word
  args : List Word
  tqhdr : List Word
  wbase : List Word
  deriving DecidableEq, Repr

/-- A subscription's threshold (R349). -/
structure SubRec where
  kind : BitVec 8
  dir : BitVec 8
  die : BitVec 8
  id : BitVec 8
  value : BitVec 32
  note : Word
  deriving DecidableEq, Repr

/-- A link of the package (R11, R357): the hall port of a compute or memory die, a twin bridge, or a Folros Link. -/
inductive Link where
  | compute (d : BitVec 3)
  | memory (m : BitVec 2)
  | twin (i : BitVec 2)
  | folros (j : BitVec 4)
  deriving DecidableEq, Repr

/-- Where a soft error lies (R444). -/
inductive SoftErr where
  | corrected (die : BitVec 4) (part : BitVec 4)
  | cleanLine (die : BitVec 4) (part : BitVec 4) (line : Nat)
  | line (die : BitVec 4) (part : BitVec 4) (line : Nat)
  | granule (die : BitVec 4) (part : BitVec 4) (gran : Nat)
  | team (p : Place) (code : BitVec 11)
  | record (die : BitVec 4) (part : BitVec 4) (line : Nat)
  deriving DecidableEq, Repr

/-- A request that arrives from a peer over a Folros Link (R390): a read, a write or an atomic at an offset. -/
inductive PeerReq where
  | read (off : Nat) (n : Nat)
  | write (off : Nat) (data : List Byte)
  | atom (op : AtomOp) (dw : Bool) (off : Nat) (x cmp : Word)
  deriving DecidableEq, Repr

/-- The host port's training (R382). -/
structure PortMode where
  cxl : Bool
  width : BitVec 5
  atomics : Bool
  deriving DecidableEq, Repr

/-- One constructor per row of spec/opcode_table.json. -/
inductive Instr where
  -- scalar arithmetic and logic (spec/09 R187-R195)
  | saluAdd (d : SReg) (a b : SSrc)
  | saluSub (d : SReg) (a b : SSrc)
  | saluAnd (d : SReg) (a b : SSrc)
  | saluOr (d : SReg) (a b : SSrc)
  | saluXor (d : SReg) (a b : SSrc)
  | saluAndn (d : SReg) (a b : SSrc)
  | saluShl (d : SReg) (a b : SSrc)
  | saluShrl (d : SReg) (a b : SSrc)
  | saluShra (d : SReg) (a b : SSrc)
  | saluMul (d : SReg) (a b : SSrc)
  | saluMulh (d : SReg) (a b : SSrc)
  | saluMulhn (d : SReg) (a b : SSrc)
  | saluMin (d : SReg) (a b : SSrc)
  | saluMax (d : SReg) (a b : SSrc)
  | saluMinn (d : SReg) (a b : SSrc)
  | saluMaxn (d : SReg) (a b : SSrc)
  | salul (fn : SaluFn) (d : SReg) (a : SSrc) (lit : BitVec 32)
  | addi (d : SReg) (a : SSrc) (imm : BitVec 11)
  | andi (d : SReg) (a : SSrc) (imm : BitVec 11)
  | ori (d : SReg) (a : SSrc) (imm : BitVec 11)
  | xori (d : SReg) (a : SSrc) (imm : BitVec 11)
  | shiShl (d : SReg) (a : SSrc) (n : BitVec 6)
  | shiShrl (d : SReg) (a : SSrc) (n : BitVec 6)
  | shiShra (d : SReg) (a : SSrc) (n : BitVec 6)
  | cmp (a b : SSrc)
  | cmpi (a : SSrc) (imm : BitVec 11)
  | sbitPopc (d : SReg) (a : SSrc)
  | sbitClz (d : SReg) (a : SSrc)
  | sbitCtz (d : SReg) (a : SSrc)
  | sbitBrev (d : SReg) (a : SSrc)
  | sbitSextb (d : SReg) (a : SSrc)
  | sbitSexth (d : SReg) (a : SSrc)
  | sbitSextw (d : SReg) (a : SSrc)
  | sbitZextb (d : SReg) (a : SSrc)
  | sbitZexth (d : SReg) (a : SSrc)
  | sbitZextw (d : SReg) (a : SSrc)
  /-- BFX: bits [lo + n − 1 : lo] with n = nm1 + 1 (R193). -/
  | bfx (sx : Bool) (d : SReg) (a : SSrc) (lo nm1 : BitVec 6)
  | bfi (d : SReg) (a b : SSrc) (lo nm1 : BitVec 6)
  | lea (d : SReg) (a b : SSrc)
  | lit (sx : Bool) (d : SReg) (v : BitVec 32)
  | lith (d : SReg) (v : BitVec 32)
  -- control (R196-R213)
  | bc (c : Cond) (disp : BitVec 20)
  | bmz (k : KReg) (disp : BitVec 20)
  | bmnz (k : KReg) (disp : BitVec 20)
  | call (disp : BitVec 20)
  | jr (a : SSrc)
  | callr (a : SSrc)
  | loop (a : SSrc) (e : BitVec 15)
  | loopi (count : BitVec 32) (e : BitVec 15)
  | mark (k : KReg) (disp : BitVec 20)
  | divElse (disp : BitVec 20)
  | spawn (d : SReg) (a : SSrc) (disp : BitVec 32)
  -- vector element-wise (spec/10 R218-R230)
  | valuAdd (o : VBin) (sat : Sat)
  | valuSub (o : VBin) (sat : Sat)
  | valuAnd (o : VBin)
  | valuOr (o : VBin)
  | valuXor (o : VBin)
  | valuAndn (o : VBin)
  | valuShl (o : VBin) (s : Bool)
  | valuShrl (o : VBin)
  | valuShra (o : VBin)
  | valuMin (o : VBin)
  | valuMax (o : VBin)
  | valuMinn (o : VBin)
  | valuMaxn (o : VBin)
  | valuAbs (o : VUn) (s : Bool)
  | valuNeg (o : VUn) (s : Bool)
  | valuMov (d : VReg) (k : KReg) (es : Width) (b : VB)
  | vmulMul (o : VBin) (s : Bool)
  | vmulMulh (o : VBin)
  | vmulMulhn (o : VBin)
  | vmulMad (o : VTri) (s : Bool)
  | vcmp (fn : CmpFn) (o : VBin)
  | vsel (o : VTri)
  | vbcast (o : VUn) (idx : BitVec 3)
  | vlid (d : VReg) (k : KReg) (es : Width)
  | fadd (o : FBin)
  | fsub (o : FBin)
  | fmul (o : FBin)
  | fmin (o : FBin)
  | fmax (o : FBin)
  | fabs (o : FUn)
  | fneg (o : FUn)
  | fcsgn (o : FBin)
  | ffma (o : FTri)
  | ffms (o : FTri)
  | fnma (o : FTri)
  | fcmp (fn : FCmpFn) (o : FBin)
  | frcp (o : FUn)
  | frsq (o : FUn)
  | fsqrt (o : FUn)
  | fexp2 (o : FUn)
  | flog2 (o : FUn)
  | fsin (o : FUn)
  | fcos (o : FUn)
  | ftanh (o : FUn)
  | cvt (d : VReg) (k : KReg) (a : VSrc) (dst src : Fmt) (part : BitVec 3)
  | pack (o : VBin) (sat : Sat)
  | unpack (o : VUn) (sx : Bool) (half : Bool)
  | perm (o : VTri)
  -- cross-lane and masks (R231-R238)
  | shfl (d : VReg) (k : KReg) (es : Width) (a : VSrc) (b : VA)
  | shfliUp (o : ShfliOps)
  | shfliDown (o : ShfliOps)
  | shfliXor (o : ShfliOps)
  | shfliBcast (o : ShfliOps)
  /-- VRED: `scal` is aux[0], the scalar destination numbered by the low six bits of d (R233). -/
  | vred (fn : RedFn) (d : VReg) (k : KReg) (a : VA) (scal : Bool)
  | scan (fn : RedFn) (d : VReg) (k : KReg) (a : VA) (excl : Bool)
  | mtch (d : VReg) (o : ElemOps)
  | ballot (d : KReg) (o : ElemOps)
  | vany (d : SReg) (o : ElemOps)
  | vall (d : SReg) (o : ElemOps)
  | kmov (d a : KReg)
  | kmovToScalar (d : SReg) (a : KReg) (q : BitVec 5)
  | kmovSum (d : SReg) (a : KReg)
  | kmovFromScalar (d : KReg) (a : SSrc) (q : BitVec 5)
  | kand (d a b : KReg)
  | kor (d a b : KReg)
  | kxor (d a b : KReg)
  | kandn (d a b : KReg)
  | knot (d a : KReg)
  | kset (d : KReg) (a : SSrc)
  | kpop (d : SReg) (a : KReg)
  -- memory and synchronisation (spec/11)
  | ld (o : MemOps)
  | st (o : MemOps)
  | vldStr (o : StrOps)
  | vldIx (o : IxOps)
  | vldPrv (o : PrvOps)
  | vstStr (o : StrOps)
  | vstIx (o : IxOps)
  | vstPrv (o : PrvOps)
  | ldfeK (o : LdfeOps)
  | ldfeC (o : LdfeOps)
  | atomAdd (o : AtomOps)
  | atomAnd (o : AtomOps)
  | atomOr (o : AtomOps)
  | atomXor (o : AtomOps)
  | atomMin (o : AtomOps)
  | atomMax (o : AtomOps)
  | atomMinn (o : AtomOps)
  | atomMaxn (o : AtomOps)
  | atomSwap (o : AtomOps)
  | atomCas (o : AtomOps) (c : SSrc)
  | atomFadd (o : AtomOps)
  | vatom (o : VatomOps)
  | fenceAcq (s : Scope)
  | fenceRel (s : Scope)
  | fenceAr (s : Scope)
  | waitc (c : EClass) (n : BitVec 6)
  | barInit (x : Bool) (a b c : SSrc)
  | barArr (d : SReg) (a : SSrc)
  | barArrx (d : SReg) (a : SSrc)
  | barWait (a : SSrc) (p : BarPhase)
  | barExpb (a b : SSrc)
  /-- CAP.ENTER: size = 256 × (sz + 1), continuation at e parcels from here (R258). -/
  | capEnter (a : SSrc) (sz : BitVec 4) (e : BitVec 11)
  | qpush (a b : SSrc)
  | qpop (d : SReg) (a : SSrc)
  | tqget (d : SReg) (q : BitVec 3)
  | tqadd (q : BitVec 3) (a b : SSrc)
  | tqfill (d : SReg) (q : BitVec 3) (a b c : SSrc)
  | pfL1 (a : SSrc) (off : Option (BitVec 32))
  | pfL2 (a : SSrc) (off : Option (BitVec 32))
  | cwb (a : SSrc) (off : Option (BitVec 32))
  | cinv (a : SSrc) (off : Option (BitVec 32))
  -- matrix, engines, rate, system (spec/12)
  | mxls (a c : SSrc)
  | mxloop (o : MxloopOps)
  | mxloopG (o : MxgOps)
  | mxloopE (o : MxeOps)
  | mxacc (o : MxaccOps)
  | mmaAny (o : MmaOps)
  | mmaArray (o : MmaOps)
  | mmaLanes (o : MmaOps)
  | engCpy (a b : SSrc)
  | engGath (a b : SSrc)
  | engSortc (a b : SSrc)
  | engColl (a b : SSrc)
  | annexHintClr (a b : SSrc)
  | annexHintPin (a b : SSrc) (deg : BitVec 3)
  | annexHintFloor (a b : SSrc) (deg : BitVec 3)
  | annexHintCeil (a b : SSrc) (deg : BitVec 3)
  | rateGetB (d : SReg)
  | rateGetE (d : SReg)
  | rateSet (a : SSrc)
  | gets (d : SReg) (sel : BitVec 6)
  | sets (sel : BitVec 6) (a : SSrc)
  | trap (code : BitVec 11)
  | sysc (code : BitVec 11)
  | bkpt (code : BitVec 11)
  | rft (a : SSrc)
  | resume (a : SSrc)
  | tlbinv (a b c : SSrc)
  | tlbinvAll (a : SSrc)
  | ctxsv (a b : SSrc)
  | ctxld (a b : SSrc)
  | park (a : SSrc)
  | unpark (a : SSrc)
  -- commands (spec/14 R311)
  | nop (c : Cmd)
  | launch (c : Cmd) (r : LaunchRec)
  | graphRun (c : Cmd) (store : BitVec 8)
  | graphEditLoad (c : Cmd) (store : BitVec 8) (addr : Word)
  | graphEditSetnode (c : Cmd) (store : BitVec 8) (node : BitVec 16) (addr : Word)
  | graphEditDrop (c : Cmd) (store : BitVec 8)
  | copy (c : Cmd) (desc : Word)
  | signal (c : Cmd) (addr v : Word)
  | wait (c : Cmd) (addr v : Word)
  | phaseBegin (c : Cmd)
  | phaseEnd (c : Cmd) (handle : Word)
  | jobBegin (c : Cmd)
  | jobEnd (c : Cmd) (handle : Word)
  | cancel (c : Cmd) (handle : Word) (level : BitVec 8)
  | subscribe (c : Cmd) (r : SubRec)
  | subscribeRemove (c : Cmd) (id : BitVec 8)
  | rateWrite (c : Cmd) (v : BitVec 32)
  | resync (c : Cmd) (addr : Word)
  | syscReply (c : Cmd) (token : Word) (vals : List Word)
  | ctrlRun (c : Cmd) (r : LaunchRec)
  | tlbinvCommand (c : Cmd) (asid : BitVec 16) (all : Bool) (start len : Word)
  -- events that the machine itself brings about
  | registerFill (t : Place)
  | serviceTeamRequest (cluster : BitVec 6)
  | capsuleParkedWrite (t : Place)
  | capsuleRunWrite (t : Place)
  | engineByteCount (op : Nat)
  | crossNotice (obj : Nat)
  | engineRetire (op : Nat)
  | leaveGrant (die : BitVec 3)
  | teamEnd (t : Place)
  | preemption (part : BitVec 4)
  | preemptionRestore (die : BitVec 4) (core : BitVec 6)
  | quantumEnd (launch : Nat)
  | orderedLaunchStalled (launch : Nat)
  | islandWakeRound (die : BitVec 3)
  | attestationReportDone (part : BitVec 4)
  | clusterPowerStateReached (cl : BitVec 6)
  | dieHalted (die : BitVec 3)
  | commandAfterRelease (part : BitVec 4) (q : BitVec 6)
  | unassignedEncoding (first : Parcel)
  | engineWriteLanded (op : Nat)
  | storePerformed (die : BitVec 4) (core : BitVec 6) (line : Nat)
  | waitConditionMet (part : BitVec 4) (q : BitVec 6)
  | functionLevelResetDone (part : BitVec 4)
  -- events from outside and register writes
  | enginePause (op : Nat)
  | teamBoost (t : Place)
  | granuleWaitTimeout (t : Place)
  | waitWatchdog (t : Place)
  | reportSpanEnd (n : Nat)
  | backgroundWriteBack (die : BitVec 4) (core : BitVec 6) (line : Nat)
  | softError (e : SoftErr)
  | scrub (die : BitVec 4)
  | surchargeUpdate (die : BitVec 3) (iavg : BitVec 16)
  | parkingRotation (die : BitVec 3)
  | islandPowerDown (die : BitVec 3) (core : BitVec 6) (island : BitVec 3)
  | operatingPointChange (die : BitVec 3) (core : BitVec 6) (island : BitVec 3) (point : BitVec 3)
  /-- ANNEX_WINDOW_END: the windows from `first` to `last`, counted from 0, have ended. -/
  | annexWindowEnd (first last : Nat)
  | subscriptionEvaluation (part : BitVec 4) (id : BitVec 8) (die : BitVec 8) (value : BitVec 32)
  | linkStepUp (l : Link)
  | linkStepDown (l : Link)
  | retrainingWindowEnd (l : Link) (locked : Bool)
  | peerRequest (link : BitVec 4) (tag : BitVec 4) (r : PeerReq)
  | responseWatchdog (memory : Bool) (die : BitVec 3)
  | hardBreach (die : BitVec 3)
  | regulatorTrip (die : BitVec 3)
  | thermalWarn (die : BitVec 3) (temp : BitVec 16)
  | thermalTrip (die : BitVec 3) (temp : BitVec 16)
  | thermalTripClear (die : BitVec 3) (temp : BitVec 16)
  /-- POWER_ON_RESET: the cores that pass self-test, and the firmware image that the flash holds, if it holds one. -/
  | powerOnReset (live : List (BitVec 48)) (flash : Option (List Byte))
  /-- RECOVERY_DONE: of the image at an address of host memory, in units of 4 KiB. -/
  | recoveryDone (addr : BitVec 40)
  | hostLinkUp (m : PortMode)
  | functionLevelReset (part : BitVec 4)
  | qtailWrite (part : BitVec 4) (q : BitVec 6) (v : Word)
  | qcfgWrite (part : BitVec 4) (q : BitVec 6) (v : Word)
  | sccfgWrite (part : BitVec 4) (v : Word)
  | scheadWrite (part : BitVec 4) (v : Word)
  | attctlGo (part : BitVec 4) (v : Word)
  | cpwrQuiesce (part : BitVec 4) (cl : BitVec 6)
  | cpwrSave (part : BitVec 4) (cl : BitVec 6)
  | cpwrGate (part : BitVec 4) (cl : BitVec 6)
  | cpwrRun (part : BitVec 4) (cl : BitVec 6)
  | rcvrGo (v : Word)
  | flrtrTrain (links : BitVec 12)
  | diehaltSet (die : BitVec 3)
  | diehaltClear (die : BitVec 3)
  | dbgHaltWrite (part : BitVec 4) (on : Bool)
  | dbgAttachWrite (part : BitVec 4) (on : Bool)
  | partitionEnable (part : BitVec 4) (en : Bool)
  /-- REGISTER_WRITE: the function (0 to 15, 16 the administrative one), the offset and the value. An offset below 2^20 lies in
  BAR0, and one from there on in the configuration space. -/
  | registerWrite (fn : BitVec 5) (off : BitVec 21) (v : Word)
  | cxlCacheSnoop (line : Nat)
  -- instructions and events without operands
  | ret
  | join
  | exit
  | yield
  | capCommit
  | capExit
  | capAbort
  | mxswap
  | rateClr
  | lineFetch
  | rateBroadcast
  | thermalShutdown
  deriving DecidableEq, Repr

end Sys2Proof
end

