-- ==== Sys2Proof/WellFormed.lean ====
section
/-! DEFINITION. Which terms of `Instr` stand for something the manual defines: for a team's instruction, that its
fields are ones an assigned encoding can carry (spec/25 R413, R414 and the rules they name); for an event or a
command, that the places, links and windows it names exist (spec/01 R3-R11, spec/12 R289). -/

namespace Sys2Proof

/-- Sub-elements of a 64-bit lane-register at a width (R51). -/
def Width.nsub : Width → Nat
  | .b => 8 | .h => 4 | .w => 2 | .d => 1

/-- Bits of a sub-element. -/
def Width.bits : Width → Nat
  | .b => 8 | .h => 16 | .w => 32 | .d => 64

/-- Width in bits of a format of R227. -/
def Fmt.bits : Fmt → Nat
  | .i8 | .n8 | .dm8 | .e4m3 | .e5m2 | .e8m0 => 8
  | .i16 | .n16 | .fp16 | .bf16 => 16
  | .i32 | .n32 | .fp32 => 32
  | .i64 | .n64 | .fp64 => 64

def MOrder.isPlain : MOrder → Bool
  | .plain => true
  | _ => false

/-- The orders of R243 for a load form. -/
def MOrder.loadOk : MOrder → Bool
  | .plain | .acq _ => true
  | _ => false

/-- The orders of R243 for a store form. -/
def MOrder.storeOk : MOrder → Bool
  | .plain | .rel _ => true
  | _ => false

/-- .SX is unassigned at .d and with .p (R240). -/
def MSize.sxOk : MSize → Bool
  | .b | .h | .w => true
  | .d | .p => false

def Width.sxOk : Width → Bool
  | .d => false
  | _ => true

/-- With .p, d is even (R244, R248). -/
def pairOk (size : MSize) (d : SReg) : Bool := size != .p || d.toNat % 2 == 0

def ElemOps.wf (o : ElemOps) : Bool := o.idx.toNat < o.es.nsub

def MemOps.wfLoad (o : MemOps) : Bool :=
  pairOk o.size o.d && (!o.sx || o.size.sxOk) && o.ord.loadOk

def MemOps.wfStore (o : MemOps) : Bool := pairOk o.size o.d && !o.sx && o.ord.storeOk

def StrOps.wfLoad (o : StrOps) : Bool := (!o.sx || o.es.sxOk) && o.ord.loadOk
def StrOps.wfStore (o : StrOps) : Bool := !o.sx && o.ord.storeOk
def IxOps.wfLoad (o : IxOps) : Bool := (!o.sx || o.es.sxOk) && o.ord.loadOk
def IxOps.wfStore (o : IxOps) : Bool := !o.sx && o.ord.storeOk

/-- A PRV form accepts only .w and .d (R245). -/
def PrvOps.wfLoad (o : PrvOps) : Bool := (o.es == .w || o.es == .d) && (!o.sx || o.es.sxOk)
def PrvOps.wfStore (o : PrvOps) : Bool := (o.es == .w || o.es == .d) && !o.sx

def LdfeOps.wf (o : LdfeOps) : Bool := pairOk o.size o.d && (!o.sx || o.size.sxOk)
def AtomOps.wf (o : AtomOps) : Bool := !o.sx || !o.dw
def VatomOps.wf (o : VatomOps) : Bool := (!o.sx || !o.dw) && (!o.nr || (o.d == 0 && o.op != .cas))

/-- SHFLI's segment of 2^g lanes, g from 1 to 10 (R232). -/
def ShfliOps.wf (o : ShfliOps) : Bool := 1 ≤ o.g.toNat && o.g.toNat ≤ 10

/-- Formats a matrix fragment may have (R276), with the sub-element width of es. -/
def Fmt.mmaWidth : Fmt → Option Width
  | .i8 | .dm8 | .e4m3 | .e5m2 => some .b
  | .fp16 | .bf16 => some .h
  | _ => none

/-- d to d + 3 and a fragment's two registers share a register. -/
def fragOverlap (d a : VReg) : Bool :=
  let lo := d.toNat
  (lo ≤ a.toNat && a.toNat < lo + 4) || (lo ≤ a.toNat + 1 && a.toNat + 1 < lo + 4)

/-- The constraints of R276, which depend on the encoding alone. -/
def MmaOps.wf (o : MmaOps) : Bool :=
  o.d.toNat % 4 == 0 && o.a.r.toNat % 2 == 0 && o.b.r.toNat % 2 == 0 &&
  (match o.c with
    | some c => c.r.toNat % 4 == 0
    | none => true) &&
  o.fa.mmaWidth.isSome && o.fa.mmaWidth == o.fb.mmaWidth && ((o.fa == .i8) == (o.fb == .i8)) &&
  !fragOverlap o.d o.a.r && !fragOverlap o.d o.b.r

/-- The output formats of MXACC (R275). -/
def Fmt.mxaccOk : Fmt → Bool
  | .i8 | .i16 | .i32 | .dm8 | .e4m3 | .e5m2 | .fp16 | .bf16 | .fp32 => true
  | _ => false

/-- VBCAST's sub-element: below nsub for a vector, 0 for a scalar broadcast (R218, R222). -/
def vbcastOk (o : VUn) (idx : BitVec 3) : Bool :=
  match o.a with
  | .vec _ => idx.toNat < o.es.nsub
  | .scal _ => idx == 0

/-- A context that exists: compute dies 0 to 7 have cores 0 to 47, the hall die (8) has control cores 0 to 7 (R289). -/
def Place.wf (p : Place) : Bool :=
  (p.die.toNat < 8 && p.core.toNat < 48) || (p.die.toNat == 8 && p.core.toNat < 8)

/-- A link that exists (R11): Folros Links are 0 to 11, and memory dies 0 to 3. -/
def Link.wf : Link → Bool
  | .folros j => j.toNat < 12
  | _ => true

/-- Narrowing or widening ratio of a CVT (R228). -/
def cvtRatio (dst src : Fmt) : Nat := max dst.bits src.bits / min dst.bits src.bits

/-- Which instructions, commands and events are defined ones. -/
def Instr.wf : Instr → Bool
  | .bfx _ _ _ lo nm1 | .bfi _ _ _ lo nm1 => lo.toNat + nm1.toNat + 1 ≤ 64
  | .loop _ e => 2 ≤ e.toNat
  | .loopi _ e => 3 ≤ e.toNat
  | .spawn _ a _ => a.r.toNat ≤ 56
  | .vbcast o idx => vbcastOk o idx
  | .cvt _ _ _ dst src part => part.toNat < cvtRatio dst src
  | .pack o _ => o.es != .b
  | .unpack o _ _ => o.es != .b
  | .shfliUp o | .shfliDown o | .shfliXor o | .shfliBcast o => o.wf
  | .vred _ d _ _ scal => !scal || d.toNat < 64
  | .mtch _ o | .ballot _ o | .vany _ o | .vall _ o => o.wf
  | .ld o => o.wfLoad
  | .st o => o.wfStore
  | .vldStr o => o.wfLoad
  | .vldIx o => o.wfLoad
  | .vldPrv o => o.wfLoad
  | .vstStr o => o.wfStore
  | .vstIx o => o.wfStore
  | .vstPrv o => o.wfStore
  | .ldfeK o | .ldfeC o => o.wf
  | .atomAdd o | .atomAnd o | .atomOr o | .atomXor o | .atomMin o | .atomMax o | .atomMinn o | .atomMaxn o
  | .atomSwap o | .atomFadd o => o.wf
  | .atomCas o _ => o.wf
  | .vatom o => o.wf
  | .capEnter _ _ e => 1 ≤ e.toNat
  | .tqget d _ => d.toNat % 2 == 0 && d != 0
  | .mxloopE o => 1 ≤ o.p.toNat
  | .mxacc o => o.fmt.mxaccOk
  | .mmaAny o | .mmaArray o | .mmaLanes o => o.wf
  | .gets _ sel => sel.toNat ≤ 21
  | .sets sel _ => sel.toNat ≤ 21
  | .registerFill t | .capsuleParkedWrite t | .capsuleRunWrite t | .teamEnd t | .teamBoost t | .granuleWaitTimeout t
  | .waitWatchdog t => t.wf
  | .linkStepUp l | .linkStepDown l => l.wf
  | .retrainingWindowEnd l _ => l.wf
  | .peerRequest link _ _ => link.toNat < 12
  | .serviceTeamRequest cl => cl.toNat < 48
  | .registerWrite fn _ _ => fn.toNat ≤ 16
  | _ => true

end Sys2Proof
end

