-- ==== Sys2Proof/Decode.lean ====
section
/-! DEFINITION. Decoding of instruction words (spec/08 R164-R183 and the entries' tables of spec/09 to spec/12), and the
encoder written from the same tables. A word list is first unpacked into the fields of its format (`Enc`), and the fields
are then read as an instruction; every field value the entries do not define is an unassigned encoding (R173, R183,
R408, R413, R414). -/

namespace Sys2Proof

/-! ### The formats of R172 -/

/-- F1: one parcel with three 6-bit register fields. -/
structure F1 where
  opc : BitVec 6
  d : BitVec 6
  a : BitVec 6
  b : BitVec 6
  wa : Bool
  wb : Bool
  fn : BitVec 4
  deriving DecidableEq, Repr

/-- F1i: one parcel with an 11-bit immediate. -/
structure F1i where
  opc : BitVec 6
  d : BitVec 6
  a : BitVec 6
  wa : Bool
  imm : BitVec 11
  deriving DecidableEq, Repr

/-- F1b: one parcel with a 20-bit displacement. -/
structure F1b where
  opc : BitVec 6
  cond : BitVec 4
  disp : BitVec 20
  deriving DecidableEq, Repr

/-- F2 (`lit = none`) and F3 (`lit` is the third parcel); `m3` to `m0` are the bits of mods. -/
structure F2 where
  opc : BitVec 6
  d : BitVec 7 := 0
  a : BitVec 7 := 0
  b : BitVec 7 := 0
  wa : Bool := false
  wb : Bool := false
  wc : Bool := false
  c : BitVec 7 := 0
  k : BitVec 3 := 0
  es : BitVec 2 := 0
  fn : BitVec 8 := 0
  m3 : Bool := false
  m2 : Bool := false
  m1 : Bool := false
  m0 : Bool := false
  aux : BitVec 8 := 0
  lit : Option (BitVec 32) := none
  deriving DecidableEq, Repr

/-- The fields of one instruction in its format. -/
inductive Enc where
  | f1 (x : F1)
  | f1i (x : F1i)
  | f1b (x : F1b)
  | f2 (x : F2)
  deriving DecidableEq, Repr

def bit (b : Bool) : BitVec 1 := BitVec.ofBool b

/-! ### Packing and unpacking -/

def F1.pack (x : F1) : Parcel :=
  0#2 ++ x.opc ++ x.d ++ x.a ++ x.b ++ bit x.wa ++ bit x.wb ++ x.fn

def F1.unpack (p : Parcel) : F1 :=
  {
      opc := p.extractLsb' 24 6, d := p.extractLsb' 18 6, a := p.extractLsb' 12 6, b := p.extractLsb' 6 6,
      wa := p.getLsbD 5, wb := p.getLsbD 4, fn := p.extractLsb' 0 4 }

def F1i.pack (x : F1i) : Parcel := 0#2 ++ x.opc ++ x.d ++ x.a ++ bit x.wa ++ x.imm

def F1i.unpack (p : Parcel) : F1i :=
  {
      opc := p.extractLsb' 24 6, d := p.extractLsb' 18 6, a := p.extractLsb' 12 6, wa := p.getLsbD 11,
      imm := p.extractLsb' 0 11 }

def F1b.pack (x : F1b) : Parcel := 0#2 ++ x.opc ++ x.cond ++ x.disp

def F1b.unpack (p : Parcel) : F1b :=
  { opc := p.extractLsb' 24 6, cond := p.extractLsb' 20 4, disp := p.extractLsb' 0 20 }

/-- Parcel 0 of F2 and F3. -/
def F2.pack0 (x : F2) : Parcel :=
  (if x.lit.isSome then 2#2 else 1#2) ++ x.opc ++ x.d ++ x.a ++ x.b ++ bit x.wa ++ bit x.wb ++ bit x.wc

/-- Parcel 1 of F2 and F3. -/
def F2.pack1 (x : F2) : Parcel :=
  x.c ++ x.k ++ x.es ++ x.fn ++ bit x.m3 ++ bit x.m2 ++ bit x.m1 ++ bit x.m0 ++ x.aux

def F2.unpack (p q : Parcel) (lit : Option (BitVec 32)) : F2 :=
  {
      opc := p.extractLsb' 24 6, d := p.extractLsb' 17 7, a := p.extractLsb' 10 7, b := p.extractLsb' 3 7,
      wa := p.getLsbD 2, wb := p.getLsbD 1, wc := p.getLsbD 0,
      c := q.extractLsb' 25 7, k := q.extractLsb' 22 3, es := q.extractLsb' 20 2, fn := q.extractLsb' 12 8,
      m3 := q.getLsbD 11, m2 := q.getLsbD 10, m1 := q.getLsbD 9, m0 := q.getLsbD 8, aux := q.extractLsb' 0 8,
      lit := lit }

/-- The 32-bit format a major opcode has (R182). -/
inductive ShortFmt where
  | f1 | f1i | f1b
  deriving DecidableEq, Repr

def shortFmt (opc : BitVec 6) : ShortFmt :=
  match opc.toNat with
  | 0x01 | 0x02 | 0x03 | 0x04 | 0x05 | 0x07 | 0x3A => .f1i
  | 0x0D | 0x0E | 0x0F | 0x12 => .f1b
  | _ => .f1

/-- The parcels of an instruction, first parcel first. -/
def Enc.words : Enc → List Parcel
  | .f1 x => [x.pack]
  | .f1i x => [x.pack]
  | .f1b x => [x.pack]
  | .f2 x =>
    match x.lit with
    | none => [x.pack0, x.pack1]
    | some v => [x.pack0, x.pack1, v]

/-- Why a word list is no instruction. -/
inductive Reject where
  /-- Bits 31:30 of the first parcel are 0b11 (R166). -/
  | notAnInstruction
  /-- The words end before the instruction does (R170 case 2). -/
  | beyondEnd
  /-- An unassigned encoding (R183, R408). -/
  | unassigned
  deriving DecidableEq, Repr

/-- Length in parcels by bits 31:30 of the first parcel; 0 where they are 0b11 (R166). -/
def lengthOf (p : Parcel) : Nat :=
  match (p.extractLsb' 30 2).toNat with
  | 0 => 1
  | 1 => 2
  | 2 => 3
  | _ => 0

/-- The fields of the instruction at the head of a word list. -/
def Enc.ofWords : List Parcel → Except Reject Enc
  | [] => .error .beyondEnd
  | p :: rest =>
    match (p.extractLsb' 30 2).toNat with
    | 0 =>
      match shortFmt (p.extractLsb' 24 6) with
      | .f1 => .ok (.f1 (F1.unpack p))
      | .f1i => .ok (.f1i (F1i.unpack p))
      | .f1b => .ok (.f1b (F1b.unpack p))
    | 1 =>
      match rest with
      | q :: _ => .ok (.f2 (F2.unpack p q none))
      | _ => .error .beyondEnd
    | 2 =>
      match rest with
      | q :: v :: _ => .ok (.f2 (F2.unpack p q (some v)))
      | _ => .error .beyondEnd
    | _ => .error .notAnInstruction

/-! ### Enumerations by number -/

def SaluFn.num : SaluFn → Nat
  | .add => 0 | .sub => 1 | .and => 2 | .or => 3 | .xor => 4 | .andn => 5 | .shl => 6 | .shrl => 7
  | .shra => 8 | .mul => 9 | .mulh => 10 | .mulhn => 11 | .min => 12 | .max => 13 | .minn => 14 | .maxn => 15

def SaluFn.ofNum : Nat → Option SaluFn
  | 0 => some .add | 1 => some .sub | 2 => some .and | 3 => some .or | 4 => some .xor | 5 => some .andn
  | 6 => some .shl | 7 => some .shrl | 8 => some .shra | 9 => some .mul | 10 => some .mulh | 11 => some .mulhn
  | 12 => some .min | 13 => some .max | 14 => some .minn | 15 => some .maxn
  | _ => none

def Cond.num : Cond → Nat
  | .al => 0 | .eq => 1 | .ne => 2 | .lt => 3 | .ge => 4 | .gt => 5 | .le => 6 | .lo => 7
  | .hs => 8 | .hi => 9 | .ls => 10 | .vs => 11 | .last => 12 | .adpt => 13 | .full => 14 | .nfull => 15

def Cond.ofNum : Nat → Cond
  | 0 => .al | 1 => .eq | 2 => .ne | 3 => .lt | 4 => .ge | 5 => .gt | 6 => .le | 7 => .lo
  | 8 => .hs | 9 => .hi | 10 => .ls | 11 => .vs | 12 => .last | 13 => .adpt | 14 => .full | _ => .nfull

def Width.num : Width → BitVec 2
  | .b => 0 | .h => 1 | .w => 2 | .d => 3

def Width.ofNum (e : BitVec 2) : Width :=
  match e.toNat with
  | 0 => .b | 1 => .h | 2 => .w | _ => .d

/-- es of a floating format (R217). -/
def FFmt.es : FFmt → BitVec 2
  | .f16 | .bf16 => 1 | .f32 => 2 | .f64 => 3

/-- mods bit 0 of a floating format (R217). -/
def FFmt.m0 : FFmt → Bool
  | .bf16 => true
  | _ => false

def FFmt.ofEs (es : BitVec 2) (m0 : Bool) : Option FFmt :=
  match es.toNat, m0 with
  | 1, false => some .f16
  | 1, true => some .bf16
  | 2, false => some .f32
  | 3, false => some .f64
  | _, _ => none

def Fmt.num : Fmt → BitVec 4
  | .i8 => 0 | .n8 => 1 | .i16 => 2 | .n16 => 3 | .i32 => 4 | .n32 => 5 | .i64 => 6 | .n64 => 7
  | .dm8 => 8 | .e4m3 => 9 | .e5m2 => 10 | .e8m0 => 11 | .fp16 => 12 | .bf16 => 13 | .fp32 => 14 | .fp64 => 15

def Fmt.ofNum (c : BitVec 4) : Fmt :=
  match c.toNat with
  | 0 => .i8 | 1 => .n8 | 2 => .i16 | 3 => .n16 | 4 => .i32 | 5 => .n32 | 6 => .i64 | 7 => .n64
  | 8 => .dm8 | 9 => .e4m3 | 10 => .e5m2 | 11 => .e8m0 | 12 => .fp16 | 13 => .bf16 | 14 => .fp32 | _ => .fp64

def CmpFn.num : CmpFn → BitVec 8
  | .eq => 0 | .ne => 1 | .lt => 2 | .le => 3 | .gt => 4 | .ge => 5 | .ltn => 6 | .len => 7 | .gtn => 8 | .gen => 9

def CmpFn.ofNum : Nat → Option CmpFn
  | 0 => some .eq | 1 => some .ne | 2 => some .lt | 3 => some .le | 4 => some .gt | 5 => some .ge
  | 6 => some .ltn | 7 => some .len | 8 => some .gtn | 9 => some .gen
  | _ => none

def FCmpFn.num : FCmpFn → BitVec 8
  | .eq => 0 | .ne => 1 | .lt => 2 | .le => 3 | .gt => 4 | .ge => 5 | .un => 6

def FCmpFn.ofNum : Nat → Option FCmpFn
  | 0 => some .eq | 1 => some .ne | 2 => some .lt | 3 => some .le | 4 => some .gt | 5 => some .ge | 6 => some .un
  | _ => none

def AtomOp.num : AtomOp → BitVec 8
  | .add => 0 | .and => 1 | .or => 2 | .xor => 3 | .min => 4 | .max => 5 | .minn => 6 | .maxn => 7
  | .swap => 8 | .cas => 9 | .fadd => 10

def AtomOp.ofNum : Nat → Option AtomOp
  | 0 => some .add | 1 => some .and | 2 => some .or | 3 => some .xor | 4 => some .min | 5 => some .max
  | 6 => some .minn | 7 => some .maxn | 8 => some .swap | 9 => some .cas | 10 => some .fadd
  | _ => none

def Scope.num : Scope → BitVec 3
  | .team => 1 | .block => 2 | .core => 3 | .die => 4 | .dev => 5 | .sys => 6

def Scope.ofNum (c : BitVec 3) : Option Scope :=
  match c.toNat with
  | 1 => some .team | 2 => some .block | 3 => some .core | 4 => some .die | 5 => some .dev | 6 => some .sys
  | _ => none

/-- Scope and order bits of aux (R240). -/
def MOrder.aux : MOrder → BitVec 5
  | .plain => 0
  | .acq s => 1#2 ++ s.num
  | .rel s => 2#2 ++ s.num
  | .ar s => 3#2 ++ s.num

/-- The order that aux[4:0] names: a plain access has scope 0, an ordered one scope 1 to 6 (R240). -/
def MOrder.ofAux (x : BitVec 8) : Option MOrder :=
  match (x.extractLsb' 3 2).toNat with
  | 0 => if x.extractLsb' 0 3 == 0 then some .plain else none
  | 1 => (Scope.ofNum (x.extractLsb' 0 3)).map .acq
  | 2 => (Scope.ofNum (x.extractLsb' 0 3)).map .rel
  | _ => (Scope.ofNum (x.extractLsb' 0 3)).map .ar

def EClass.num : EClass → BitVec 2
  | .cpy => 0 | .mxa => 1 | .gth => 2 | .col => 3

def EClass.ofNum (c : BitVec 2) : EClass :=
  match c.toNat with
  | 0 => .cpy | 1 => .mxa | 2 => .gth | _ => .col

/-- fn, es and mods bit 0 of VRED and SCAN (R233). -/
def RedFn.fn : RedFn → BitVec 8
  | .add _ _ => 0 | .min _ => 1 | .max _ => 2 | .minn _ => 3 | .maxn _ => 4 | .and _ => 5 | .or _ => 6 | .xor _ => 7
  | .fadd _ => 8 | .fmin _ => 9 | .fmax _ => 10

def RedFn.es : RedFn → BitVec 2
  | .add e _ | .min e | .max e | .minn e | .maxn e | .and e | .or e | .xor e => e.num
  | .fadd f | .fmin f | .fmax f => f.es

def RedFn.m0 : RedFn → Bool
  | .add _ s => s
  | .fadd f | .fmin f | .fmax f => f.m0
  | _ => false

def RedFn.ofFields (fn : BitVec 8) (es : BitVec 2) (m0 : Bool) : Option RedFn :=
  match fn.toNat with
  | 0 => some (.add (Width.ofNum es) m0)
  | 1 => if m0 then none else some (.min (Width.ofNum es))
  | 2 => if m0 then none else some (.max (Width.ofNum es))
  | 3 => if m0 then none else some (.minn (Width.ofNum es))
  | 4 => if m0 then none else some (.maxn (Width.ofNum es))
  | 5 => if m0 then none else some (.and (Width.ofNum es))
  | 6 => if m0 then none else some (.or (Width.ofNum es))
  | 7 => if m0 then none else some (.xor (Width.ofNum es))
  | 8 => (FFmt.ofEs es m0).map .fadd
  | 9 => (FFmt.ofEs es m0).map .fmin
  | 10 => (FFmt.ofEs es m0).map .fmax
  | _ => none

/-! ### Register fields -/

/-- A 7-bit field of a scalar operand: 64 to 127 are unassigned (R49, R413). -/
def sreg? (r : BitVec 7) : Option SReg := if r.toNat < 64 then some (r.setWidth 6) else none

def ssrc? (r : BitVec 7) (w : Bool) : Option SSrc := (sreg? r).map fun q => ⟨q, w⟩

/-- A mask named by a 7-bit field: bits 6:3 must be 0 (R413). -/
def kreg? (r : BitVec 7) : Option KReg := if r.toNat < 8 then some (r.setWidth 3) else none

def s7 (r : SReg) : BitVec 7 := r.setWidth 7
def k7 (r : KReg) : BitVec 7 := r.setWidth 7

/-- Operand a of a vector instruction (R175). -/
def F2.va? (x : F2) : Option VA :=
  if x.m2 then (ssrc? x.a x.wa).map .scal else some (.vec ⟨x.a, x.wa⟩)

/-- Operand b of a vector instruction that takes a literal: F3 only with mods bit 3 (R175, R214). -/
def F2.vb? (x : F2) : Option VB :=
  match x.lit with
  | some v => if x.m3 && !x.m1 && x.b == 0 then some (.lit v) else none
  | none =>
    if x.m3 then none
    else if x.m1 then (ssrc? x.b x.wb).map .scal
    else some (.vec ⟨x.b, x.wb⟩)

/-- The fields of operand a. -/
def F2.withA (x : F2) : VA → F2
  | .vec s => { x with a := s.r, wa := s.w }
  | .scal s => { x with a := s7 s.r, wa := s.w, m2 := true }

/-- The fields of operand b. -/
def F2.withB (x : F2) : VB → F2
  | .vec s => { x with b := s.r, wb := s.w }
  | .scal s => { x with b := s7 s.r, wb := s.w, m1 := true }
  | .lit v => { x with m3 := true, lit := some v }

/-- No operand b at all: field, mods bits 3 and 1, and the literal are absent. -/
def F2.noB (x : F2) : Bool := x.b == 0 && !x.m3 && !x.m1 && x.lit.isNone

/-- Every mods bit is 0 and there is no literal. -/
def F2.noMods (x : F2) : Bool := !x.m3 && !x.m2 && !x.m1 && !x.m0 && x.lit.isNone

/-- k, es and mods are 0. -/
def F2.noKEM (x : F2) : Bool := x.k == 0 && x.es == 0 && x.noMods

/-! ### Instructions from fields -/

def decSalu (d : SReg) (a b : SSrc) : SaluFn → Instr
  | .add => .saluAdd d a b
  | .sub => .saluSub d a b
  | .and => .saluAnd d a b
  | .or => .saluOr d a b
  | .xor => .saluXor d a b
  | .andn => .saluAndn d a b
  | .shl => .saluShl d a b
  | .shrl => .saluShrl d a b
  | .shra => .saluShra d a b
  | .mul => .saluMul d a b
  | .mulh => .saluMulh d a b
  | .mulhn => .saluMulhn d a b
  | .min => .saluMin d a b
  | .max => .saluMax d a b
  | .minn => .saluMinn d a b
  | .maxn => .saluMaxn d a b

def decSbit (d : SReg) (a : SSrc) : Nat → Option Instr
  | 0 => some (.sbitPopc d a)
  | 1 => some (.sbitClz d a)
  | 2 => some (.sbitCtz d a)
  | 3 => some (.sbitBrev d a)
  | 4 => some (.sbitSextb d a)
  | 5 => some (.sbitSexth d a)
  | 6 => some (.sbitSextw d a)
  | 7 => some (.sbitZextb d a)
  | 8 => some (.sbitZexth d a)
  | 9 => some (.sbitZextw d a)
  | _ => none

/-- Instructions of format F1 (R182). The wait bit of a field that is not read as a register is ignored (R173), the selector
of GETS and SETS among them. DEDUCED, log 21. -/
def decF1 (x : F1) : Option Instr :=
  match x.opc.toNat with
  | 0x00 => (SaluFn.ofNum x.fn.toNat).map (decSalu x.d ⟨x.a, x.wa⟩ ⟨x.b, x.wb⟩)
  | 0x06 => if x.d == 0 && x.fn == 0 then some (.cmp ⟨x.a, x.wa⟩ ⟨x.b, x.wb⟩) else none
  | 0x08 => if x.b == 0 then decSbit x.d ⟨x.a, x.wa⟩ x.fn.toNat else none
  | 0x0A => if x.fn == 0 then some (.lea x.d ⟨x.a, x.wa⟩ ⟨x.b, x.wb⟩) else none
  | 0x10 =>
    if x.d == 0 && x.b == 0 then
      match x.fn.toNat with
      | 0 => some (.jr ⟨x.a, x.wa⟩)
      | 1 => some (.callr ⟨x.a, x.wa⟩)
      | 2 => if x.a == 0 then some .ret else none
      | _ => none
    else none
  | 0x13 =>
    if x.d == 0 && x.a == 0 && x.b == 0 then
      match x.fn.toNat with
      | 1 => some .exit
      | 2 => some .yield
      | _ => none
    else none
  | 0x38 =>
    if x.b.toNat ≤ 21 then
      match x.fn.toNat with
      | 0 => if x.a == 0 then some (.gets x.d x.b) else none
      | 1 => if x.d == 0 then some (.sets x.b ⟨x.a, x.wa⟩) else none
      | _ => none
    else none
  | 0x39 =>
    match x.fn.toNat with
    | 0 =>
      if x.a == 0 then
        if x.b == 0 then some (.rateGetB x.d) else if x.b == 1 then some (.rateGetE x.d) else none
      else none
    | 1 => if x.d == 0 && x.b == 0 then some (.rateSet ⟨x.a, x.wa⟩) else none
    | 2 => if x.d == 0 && x.a == 0 && x.b == 0 then some .rateClr else none
    | _ => none
  | 0x3B =>
    if x.d == 0 && x.b == 0 then
      match x.fn.toNat with
      | 0 => some (.rft ⟨x.a, x.wa⟩)
      | 1 => some (.resume ⟨x.a, x.wa⟩)
      | _ => none
    else none
  | _ => none

/-- Instructions of format F1i. -/
def decF1i (x : F1i) : Option Instr :=
  match x.opc.toNat with
  | 0x01 => some (.addi x.d ⟨x.a, x.wa⟩ x.imm)
  | 0x02 => some (.andi x.d ⟨x.a, x.wa⟩ x.imm)
  | 0x03 => some (.ori x.d ⟨x.a, x.wa⟩ x.imm)
  | 0x04 => some (.xori x.d ⟨x.a, x.wa⟩ x.imm)
  | 0x05 =>
    if x.imm.extractLsb' 6 3 == 0 then
      match (x.imm.extractLsb' 9 2).toNat with
      | 0 => some (.shiShl x.d ⟨x.a, x.wa⟩ (x.imm.extractLsb' 0 6))
      | 1 => some (.shiShrl x.d ⟨x.a, x.wa⟩ (x.imm.extractLsb' 0 6))
      | 2 => some (.shiShra x.d ⟨x.a, x.wa⟩ (x.imm.extractLsb' 0 6))
      | _ => none
    else none
  | 0x07 => if x.d == 0 then some (.cmpi ⟨x.a, x.wa⟩ x.imm) else none
  | 0x3A =>
    if x.a == 0 then
      match x.d.toNat with
      | 0 => some (.trap x.imm)
      | 1 => some (.sysc x.imm)
      | 2 => some (.bkpt x.imm)
      | _ => none
    else none
  | _ => none

/-- Instructions of format F1b. -/
def decF1b (x : F1b) : Option Instr :=
  match x.opc.toNat with
  | 0x0D => some (.bc (Cond.ofNum x.cond.toNat) x.disp)
  | 0x0E =>
    if x.cond.getLsbD 0 then some (.bmnz (x.cond.extractLsb' 1 3) x.disp)
    else some (.bmz (x.cond.extractLsb' 1 3) x.disp)
  | 0x0F => if x.cond == 0 then some (.call x.disp) else none
  | 0x12 =>
    if x.cond.getLsbD 3 then
      match (x.cond.extractLsb' 0 3).toNat with
      | 0 => some (.divElse x.disp)
      | 1 => if x.disp == 0 then some .join else none
      | _ => none
    else some (.mark (x.cond.extractLsb' 0 3) x.disp)
  | _ => none

/-- OPC 0x09, 0x0B, 0x0C, 0x11, 0x13 (R188, R193, R195, R201, R208). -/
def decScalar2 (x : F2) : Option Instr :=
  match x.opc.toNat with
  | 0x09 =>
    if x.lit.isNone && x.k == 0 && x.es == 0 && !x.m3 && !x.m2 && !x.m1 && x.c.toNat < 64 && x.aux.toNat < 64
      && x.aux.toNat + x.c.toNat + 1 ≤ 64 then
      match x.fn.toNat with
      | 0 =>
        if x.b == 0 then
          (sreg? x.d).bind fun d => (ssrc? x.a x.wa).map fun a => .bfx x.m0 d a (x.aux.setWidth 6) (x.c.setWidth 6)
        else none
      | 1 =>
        if x.m0 then none
        else (sreg? x.d).bind fun d => (ssrc? x.a x.wa).bind fun a => (ssrc? x.b x.wb).map fun b =>
          .bfi d a b (x.aux.setWidth 6) (x.c.setWidth 6)
      | _ => none
    else none
  | 0x0B =>
    match x.lit with
    | some v =>
      if x.b == 0 && x.c == 0 && x.k == 0 && x.es == 0 && x.m3 && !x.m2 && !x.m1 && !x.m0 && x.aux == 0 then
        (SaluFn.ofNum x.fn.toNat).bind fun f => (sreg? x.d).bind fun d => (ssrc? x.a x.wa).map fun a => .salul f d a v
      else none
    | none => none
  | 0x0C =>
    match x.lit with
    | some v =>
      if x.a == 0 && x.b == 0 && x.c == 0 && x.k == 0 && x.es == 0 && !x.m3 && !x.m2 && !x.m1 && x.aux == 0 then
        match x.fn.toNat with
        | 0 => (sreg? x.d).map fun d => .lit x.m0 d v
        | 1 => if x.m0 then none else (sreg? x.d).map fun d => .lith d v
        | _ => none
      else none
    | none => none
  | 0x11 =>
    let e : BitVec 15 := x.c ++ x.aux
    if x.d == 0 && x.b == 0 && x.k == 0 && x.es == 0 && !x.m3 && !x.m2 && !x.m1 && !x.m0 then
      match x.fn.toNat, x.lit with
      | 0, none => if 2 ≤ e.toNat then (ssrc? x.a x.wa).map fun a => .loop a e else none
      | 1, some n => if x.a == 0 && 3 ≤ e.toNat then some (.loopi n e) else none
      | _, _ => none
    else none
  | 0x13 =>
    match x.lit with
    | some v =>
      if x.fn == 0 && x.b == 0 && x.c == 0 && x.k == 0 && x.es == 0 && !x.m3 && !x.m2 && !x.m1 && !x.m0 && x.aux == 0
        && x.a.toNat ≤ 56 then
        (sreg? x.d).bind fun d => (ssrc? x.a x.wa).map fun a => .spawn d a v
      else none
    | none => none
  | _ => none

/-- The operands of a vector instruction with a and b only (c = 0). -/
def F2.vbin? (x : F2) : Option VBin :=
  if x.c == 0 then
    x.va?.bind fun a => x.vb?.map fun b => ⟨x.d, x.k, Width.ofNum x.es, a, b⟩
  else none

def F2.vun? (x : F2) : Option VUn :=
  if x.c == 0 && x.noB then x.va?.map fun a => ⟨x.d, x.k, Width.ofNum x.es, a⟩ else none

def F2.vtri? (x : F2) : Option VTri :=
  x.va?.bind fun a => x.vb?.map fun b => ⟨x.d, x.k, Width.ofNum x.es, a, b, ⟨x.c, x.wc⟩⟩

def F2.fTwo? (x : F2) : Option FBin :=
  if x.c == 0 && x.aux == 0 then
    (FFmt.ofEs x.es x.m0).bind fun f => x.va?.bind fun a => x.vb?.map fun b => ⟨x.d, x.k, f, a, b⟩
  else none

def F2.fOne? (x : F2) : Option FUn :=
  if x.c == 0 && x.aux == 0 && x.noB then
    (FFmt.ofEs x.es x.m0).bind fun f => x.va?.map fun a => ⟨x.d, x.k, f, a⟩
  else none

def F2.fThree? (x : F2) : Option FTri :=
  if x.aux == 0 then
    (FFmt.ofEs x.es x.m0).bind fun f => x.va?.bind fun a => x.vb?.map fun b => ⟨x.d, x.k, f, a, b, ⟨x.c, x.wc⟩⟩
  else none

/-- Saturation: mods bit 0 is .S, aux[0] makes it natural (R218). -/
def Sat.ofFields (m0 : Bool) (aux : BitVec 8) : Option Sat :=
  match m0, aux.toNat with
  | false, 0 => some .wrap
  | true, 0 => some .s
  | true, 1 => some .sn
  | _, _ => none

def Sat.m0 : Sat → Bool
  | .wrap => false
  | .s | .sn => true

def Sat.aux : Sat → BitVec 8
  | .sn => 1
  | _ => 0

/-- OPC 0x14: VALU (R218). -/
def decValu (x : F2) : Option Instr :=
  match x.fn.toNat with
  | 0 => (Sat.ofFields x.m0 x.aux).bind fun st => x.vbin?.map fun o => .valuAdd o st
  | 1 => (Sat.ofFields x.m0 x.aux).bind fun st => x.vbin?.map fun o => .valuSub o st
  | 6 => if x.aux == 0 then x.vbin?.map fun o => .valuShl o x.m0 else none
  | 13 => if x.aux == 0 then x.vun?.map fun o => .valuAbs o x.m0 else none
  | 14 => if x.aux == 0 then x.vun?.map fun o => .valuNeg o x.m0 else none
  | 15 =>
    if x.aux == 0 && !x.m0 && !x.m2 && x.a == 0 && x.c == 0 then
      x.vb?.map fun b => .valuMov x.d x.k (Width.ofNum x.es) b
    else none
  | n =>
    if x.aux == 0 && !x.m0 then
      match n with
      | 2 => x.vbin?.map .valuAnd
      | 3 => x.vbin?.map .valuOr
      | 4 => x.vbin?.map .valuXor
      | 5 => x.vbin?.map .valuAndn
      | 7 => x.vbin?.map .valuShrl
      | 8 => x.vbin?.map .valuShra
      | 9 => x.vbin?.map .valuMin
      | 10 => x.vbin?.map .valuMax
      | 11 => x.vbin?.map .valuMinn
      | 12 => x.vbin?.map .valuMaxn
      | _ => none
    else none

/-- OPC 0x15 to 0x17 (R218). -/
def decVmul (x : F2) : Option Instr :=
  if x.aux == 0 then
    match x.fn.toNat with
    | 0 => x.vbin?.map fun o => .vmulMul o x.m0
    | 1 => if x.m0 then none else x.vbin?.map .vmulMulh
    | 2 => if x.m0 then none else x.vbin?.map .vmulMulhn
    | 3 => x.vtri?.map fun o => .vmulMad o x.m0
    | _ => none
  else none

def decVcmp (x : F2) : Option Instr :=
  if x.aux == 0 && !x.m0 then (CmpFn.ofNum x.fn.toNat).bind fun f => x.vbin?.map fun o => .vcmp f o else none

def decVsel (x : F2) : Option Instr :=
  if x.m0 then none
  else
    match x.fn.toNat with
    | 0 => if x.aux == 0 then x.vtri?.map .vsel else none
    | 1 =>
      if x.aux.toNat < 8 then
        x.vun?.bind fun o => if vbcastOk o (x.aux.setWidth 3) then some (.vbcast o (x.aux.setWidth 3)) else none
      else none
    | 2 =>
      if x.aux == 0 && x.a == 0 && x.c == 0 && !x.m2 && x.noB then some (.vlid x.d x.k (Width.ofNum x.es)) else none
    | _ => none

/-- OPC 0x18 to 0x1B (R218, R226). -/
def decFalu (x : F2) : Option Instr :=
  match x.fn.toNat with
  | 0 => x.fTwo?.map .fadd
  | 1 => x.fTwo?.map .fsub
  | 2 => x.fTwo?.map .fmul
  | 3 => x.fTwo?.map .fmin
  | 4 => x.fTwo?.map .fmax
  | 5 => x.fOne?.map .fabs
  | 6 => x.fOne?.map .fneg
  | 7 => x.fTwo?.map .fcsgn
  | _ => none

def decFfma (x : F2) : Option Instr :=
  match x.fn.toNat with
  | 0 => x.fThree?.map .ffma
  | 1 => x.fThree?.map .ffms
  | 2 => x.fThree?.map .fnma
  | _ => none

def decFcmp (x : F2) : Option Instr :=
  (FCmpFn.ofNum x.fn.toNat).bind fun f => x.fTwo?.map fun o => .fcmp f o

def decSfu (x : F2) : Option Instr :=
  match x.fn.toNat with
  | 0 => x.fOne?.map .frcp
  | 1 => x.fOne?.map .frsq
  | 2 => x.fOne?.map .fsqrt
  | 3 => x.fOne?.map .fexp2
  | 4 => x.fOne?.map .flog2
  | 5 => x.fOne?.map .fsin
  | 6 => x.fOne?.map .fcos
  | 7 => x.fOne?.map .ftanh
  | _ => none

/-- OPC 0x1C: CVT (R227, R228). -/
def decCvt (x : F2) : Option Instr :=
  let dst := Fmt.ofNum (x.aux.extractLsb' 4 4)
  let src := Fmt.ofNum (x.aux.extractLsb' 0 4)
  if x.b == 0 && x.es == 0 && x.fn == 0 && x.noMods && x.c.toNat < 8 && x.c.toNat < cvtRatio dst src then
    some (.cvt x.d x.k ⟨x.a, x.wa⟩ dst src (x.c.setWidth 3))
  else none

/-- OPC 0x1D: PACK, UNPACK, PERM (R218, R230). -/
def decPack (x : F2) : Option Instr :=
  match x.fn.toNat with
  | 0 => if x.es == 0 then none else (Sat.ofFields x.m0 x.aux).bind fun st => x.vbin?.map fun o => .pack o st
  | 1 => if x.es == 0 || 2 ≤ x.aux.toNat then none else x.vun?.map fun o => .unpack o x.m0 (x.aux.getLsbD 0)
  | 2 => if x.aux == 0 && !x.m0 then x.vtri?.map .perm else none
  | _ => none

/-- OPC 0x1E, 0x1F: SHFL and SHFLI (R231, R232). -/
def decShfl (x : F2) : Option Instr :=
  if x.fn == 0 && x.c == 0 && x.aux == 0 && !x.m3 && !x.m2 && !x.m0 && x.lit.isNone then
    (if x.m1 then (ssrc? x.b x.wb).map VA.scal else some (VA.vec ⟨x.b, x.wb⟩)).map fun b =>
      .shfl x.d x.k (Width.ofNum x.es) ⟨x.a, x.wa⟩ b
  else none

def F2.shamt? (x : F2) : Option ShAmt :=
  match x.lit with
  | some v => if x.m3 && !x.m1 && x.b == 0 then some (.lit v) else none
  | none => if x.m1 && !x.m3 then (ssrc? x.b x.wb).map .scal else none

def F2.withShamt (x : F2) : ShAmt → F2
  | .scal s => { x with b := s7 s.r, wb := s.w, m1 := true }
  | .lit v => { x with m3 := true, lit := some v }

def decShfli (x : F2) : Option Instr :=
  if x.es == 3 && x.c == 0 && !x.m2 && !x.m0 && 1 ≤ x.aux.toNat && x.aux.toNat ≤ 10 then
    x.shamt?.bind fun b =>
      let o : ShfliOps := ⟨x.d, x.k, ⟨x.a, x.wa⟩, b, x.aux.setWidth 4⟩
      match x.fn.toNat with
      | 0 => some (.shfliUp o)
      | 1 => some (.shfliDown o)
      | 2 => some (.shfliXor o)
      | 3 => some (.shfliBcast o)
      | _ => none
  else none

/-- OPC 0x20, 0x21: VRED and SCAN (R233). -/
def decVred (x : F2) : Option Instr :=
  if x.c == 0 && x.noB && x.aux.toNat < 2 && !(x.aux.getLsbD 0 && 64 ≤ x.d.toNat) then
    (RedFn.ofFields x.fn x.es x.m0).bind fun f => x.va?.map fun a => .vred f x.d x.k a (x.aux.getLsbD 0)
  else none

def decScan (x : F2) : Option Instr :=
  if x.c == 0 && x.noB && x.aux.toNat < 2 then
    (RedFn.ofFields x.fn x.es x.m0).bind fun f => x.va?.map fun a => .scan f x.d x.k a (x.aux.getLsbD 0)
  else none

/-- The operands of MATCH, BALLOT, VANY and VALL (R235, R236). -/
def F2.elem? (x : F2) : Option ElemOps :=
  if x.b == 0 && x.c == 0 && x.noMods && x.aux.toNat < (Width.ofNum x.es).nsub then
    some ⟨x.k, Width.ofNum x.es, ⟨x.a, x.wa⟩, x.aux.setWidth 3⟩
  else none

def decMatch (x : F2) : Option Instr := if x.fn == 0 then x.elem?.map fun o => .mtch x.d o else none

/-- KMOV (R237). -/
def decKmov (x : F2) : Option Instr :=
  if x.noKEM && x.b == 0 then
    match x.aux.toNat with
    | 0 => if x.c == 0 then (kreg? x.d).bind fun d => (kreg? x.a).map fun a => .kmov d a else none
    | 1 =>
      if x.c.toNat < 32 then
        (sreg? x.d).bind fun d => (kreg? x.a).map fun a => .kmovToScalar d a (x.c.setWidth 5)
      else none
    | 2 => if x.c == 0 then (sreg? x.d).bind fun d => (kreg? x.a).map fun a => .kmovSum d a else none
    | 3 =>
      if x.c.toNat < 32 then
        (kreg? x.d).bind fun d => (ssrc? x.a x.wa).map fun a => .kmovFromScalar d a (x.c.setWidth 5)
      else none
    | _ => none
  else none

/-- OPC 0x23 (R236, R237). -/
def decBallot (x : F2) : Option Instr :=
  match x.fn.toNat with
  | 0 => x.elem?.bind fun o => (kreg? x.d).map fun d => .ballot d o
  | 1 => decKmov x
  | 2 => x.elem?.bind fun o => (sreg? x.d).map fun d => .vany d o
  | 3 => x.elem?.bind fun o => (sreg? x.d).map fun d => .vall d o
  | _ => none

/-- OPC 0x24 (R238). -/
def decMask (x : F2) : Option Instr :=
  if x.c == 0 && x.noKEM && x.aux == 0 then
    match x.fn.toNat with
    | 0 => (kreg? x.d).bind fun d => (kreg? x.a).bind fun a => (kreg? x.b).map fun b => .kand d a b
    | 1 => (kreg? x.d).bind fun d => (kreg? x.a).bind fun a => (kreg? x.b).map fun b => .kor d a b
    | 2 => (kreg? x.d).bind fun d => (kreg? x.a).bind fun a => (kreg? x.b).map fun b => .kxor d a b
    | 3 => (kreg? x.d).bind fun d => (kreg? x.a).bind fun a => (kreg? x.b).map fun b => .kandn d a b
    | 4 => if x.b == 0 then (kreg? x.d).bind fun d => (kreg? x.a).map fun a => .knot d a else none
    | 5 => if x.b == 0 then (kreg? x.d).bind fun d => (ssrc? x.a x.wa).map fun a => .kset d a else none
    | 6 => if x.b == 0 then (sreg? x.d).bind fun d => (kreg? x.a).map fun a => .kpop d a else none
    | _ => none
  else none

/-! ### Memory, synchronisation (R240-R265) -/

/-- The offset: mods bit 3 is 1 exactly in F3 (R240); the value inside is none for F2. -/
def F2.off? (x : F2) : Option (Option (BitVec 32)) :=
  if x.m3 == x.lit.isSome then some x.lit else none

def F2.withOff (x : F2) (off : Option (BitVec 32)) : F2 := { x with m3 := off.isSome, lit := off }

/-- aux of an access: order, scope and .SX, with aux[7:6] = 0 (R240). -/
def memAux (o : MOrder) (sx : Bool) : BitVec 8 := 0#2 ++ bit sx ++ o.aux

def memOrd? (aux : BitVec 8) : Option MOrder := if aux.extractLsb' 6 2 == 0 then MOrder.ofAux aux else none

/-- Access size of LD, ST and LDFE: es, with mods bit 1 for .p (R240). -/
def MSize.ofFields (es : BitVec 2) (m1 : Bool) : Option MSize :=
  match es.toNat, m1 with
  | 0, false => some .b
  | 1, false => some .h
  | 2, false => some .w
  | 3, false => some .d
  | 3, true => some .p
  | _, _ => none

def MSize.es : MSize → BitVec 2
  | .b => 0 | .h => 1 | .w => 2 | .d => 3 | .p => 3

def MSize.m1 : MSize → Bool
  | .p => true
  | _ => false

/-- LD and ST (R244). -/
def F2.memOps? (x : F2) : Option MemOps :=
  if x.fn == 0 && x.b == 0 && x.c == 0 && x.k == 0 && !x.m2 && !x.m0 then
    x.off?.bind fun off => (MSize.ofFields x.es x.m1).bind fun size => (memOrd? x.aux).bind fun ord =>
      (sreg? x.d).bind fun d => (ssrc? x.a x.wa).map fun a => ⟨d, a, off, size, x.aux.getLsbD 5, ord⟩
  else none

def decLd (x : F2) : Option Instr := x.memOps?.bind fun o => if o.wfLoad then some (.ld o) else none
def decSt (x : F2) : Option Instr := x.memOps?.bind fun o => if o.wfStore then some (.st o) else none

/-- The three forms of VLD and VST (R245). -/
def F2.strOps? (x : F2) : Option StrOps :=
  if x.c == 0 && !x.m2 && !x.m1 && !x.m0 then
    x.off?.bind fun off => (memOrd? x.aux).bind fun ord => (ssrc? x.a x.wa).bind fun a => (ssrc? x.b x.wb).map fun b =>
      ⟨x.d, x.k, Width.ofNum x.es, a, off, b, x.aux.getLsbD 5, ord⟩
  else none

def F2.ixOps? (x : F2) : Option IxOps :=
  if x.b == 0 && !x.m2 && !x.m1 && !x.m0 then
    x.off?.bind fun off => (memOrd? x.aux).bind fun ord => (ssrc? x.a x.wa).map fun a =>
      ⟨x.d, x.k, Width.ofNum x.es, a, off, ⟨x.c, x.wc⟩, x.aux.getLsbD 5, ord⟩
  else none

def F2.prvOps? (x : F2) : Option PrvOps :=
  if x.b == 0 && !x.m2 && !x.m1 && (x.m0 || x.c == 0) && memOrd? x.aux == some .plain then
    x.off?.bind fun off => (ssrc? x.a x.wa).map fun a =>
      ⟨x.d, x.k, Width.ofNum x.es, a, off, if x.m0 then some ⟨x.c, x.wc⟩ else none, x.aux.getLsbD 5⟩
  else none

def decVld (x : F2) : Option Instr :=
  match x.fn.toNat with
  | 0 => x.strOps?.bind fun o => if o.wfLoad then some (.vldStr o) else none
  | 1 => x.ixOps?.bind fun o => if o.wfLoad then some (.vldIx o) else none
  | 2 => x.prvOps?.bind fun o => if o.wfLoad then some (.vldPrv o) else none
  | _ => none

def decVst (x : F2) : Option Instr :=
  match x.fn.toNat with
  | 0 => x.strOps?.bind fun o => if o.wfStore then some (.vstStr o) else none
  | 1 => x.ixOps?.bind fun o => if o.wfStore then some (.vstIx o) else none
  | 2 => x.prvOps?.bind fun o => if o.wfStore then some (.vstPrv o) else none
  | _ => none

/-- LDFE (R248). -/
def decLdfe (x : F2) : Option Instr :=
  if x.b == 0 && x.c == 0 && x.k == 0 && !x.m3 && !x.m2 && !x.m0 && x.lit.isNone && memOrd? x.aux == some .plain then
    (MSize.ofFields x.es x.m1).bind fun size => (sreg? x.d).bind fun d => (ssrc? x.a x.wa).bind fun a =>
      let o : LdfeOps := ⟨d, a, size, x.aux.getLsbD 5⟩
      if o.wf then
        match x.fn.toNat with
        | 0 => some (.ldfeK o)
        | 1 => some (.ldfeC o)
        | _ => none
      else none
  else none

/-- Sizes .w and .d of an atomic (R249): true is .d. -/
def atomDw? (es : BitVec 2) : Option Bool :=
  match es.toNat with
  | 2 => some false
  | 3 => some true
  | _ => none

def atomEs (dw : Bool) : BitVec 2 := if dw then 3 else 2

/-- ATOM (R249). -/
def decAtom (x : F2) : Option Instr :=
  if x.k == 0 && !x.m2 && !x.m1 && !x.m0 then
    x.off?.bind fun off => (atomDw? x.es).bind fun dw => (memOrd? x.aux).bind fun ord => (sreg? x.d).bind fun d =>
      (ssrc? x.a x.wa).bind fun a => (ssrc? x.b x.wb).bind fun b =>
        let o : AtomOps := ⟨d, a, off, dw, x.aux.getLsbD 5, b, ord⟩
        if o.wf then
          match AtomOp.ofNum x.fn.toNat with
          | some .cas => (ssrc? x.c x.wc).map fun c => .atomCas o c
          | some op =>
            if x.c == 0 then
              match op with
              | .add => some (.atomAdd o)
              | .and => some (.atomAnd o)
              | .or => some (.atomOr o)
              | .xor => some (.atomXor o)
              | .min => some (.atomMin o)
              | .max => some (.atomMax o)
              | .minn => some (.atomMinn o)
              | .maxn => some (.atomMaxn o)
              | .swap => some (.atomSwap o)
              | .fadd => some (.atomFadd o)
              | .cas => none
            else none
          | none => none
        else none
  else none

/-- VATOM (R251). -/
def decVatom (x : F2) : Option Instr :=
  if !x.m3 && !x.m2 && !x.m1 && x.lit.isNone then
    (atomDw? x.es).bind fun dw => (memOrd? x.aux).bind fun ord => (AtomOp.ofNum x.fn.toNat).bind fun op =>
      (ssrc? x.a x.wa).bind fun a =>
        let o : VatomOps := ⟨op, x.d, x.k, dw, x.aux.getLsbD 5, a, ⟨x.c, x.wc⟩, ⟨x.b, x.wb⟩, x.m0, ord⟩
        if o.wf then some (.vatom o) else none
  else none

/-- FENCE (R252). -/
def decFence (x : F2) : Option Instr :=
  if x.d == 0 && x.a == 0 && x.b == 0 && x.c == 0 && x.fn == 0 && x.noKEM && x.aux.extractLsb' 5 3 == 0 then
    match MOrder.ofAux x.aux with
    | some (.acq s) => some (.fenceAcq s)
    | some (.rel s) => some (.fenceRel s)
    | some (.ar s) => some (.fenceAr s)
    | _ => none
  else none

/-- BAR (R256). -/
def decBar (x : F2) : Option Instr :=
  if x.k == 0 && x.es == 0 && !x.m3 && !x.m2 && !x.m0 && x.lit.isNone then
    (ssrc? x.a x.wa).bind fun a =>
      match x.fn.toNat with
      | 0 =>
        if x.d == 0 && !x.m1 && x.aux.toNat < 2 then
          (ssrc? x.b x.wb).bind fun b => (ssrc? x.c x.wc).map fun c => .barInit (x.aux.getLsbD 0) a b c
        else none
      | 1 =>
        if x.b == 0 && x.c == 0 && !x.m1 && x.aux == 0 then (sreg? x.d).map fun d => .barArr d a else none
      | 2 =>
        if x.b == 0 && x.c == 0 && !x.m1 && x.aux == 0 then (sreg? x.d).map fun d => .barArrx d a else none
      | 3 =>
        if x.d == 0 && x.c == 0 then
          if x.m1 then
            if x.aux == 0 then (ssrc? x.b x.wb).map fun b => .barWait a (.reg b) else none
          else if x.b == 0 then some (.barWait a (.imm x.aux)) else none
        else none
      | 4 =>
        if x.d == 0 && x.c == 0 && !x.m1 && x.aux == 0 then (ssrc? x.b x.wb).map fun b => .barExpb a b else none
      | _ => none
  else none

/-- WAITC (R253). -/
def decWaitc (x : F2) : Option Instr :=
  if x.d == 0 && x.a == 0 && x.b == 0 && x.c == 0 && x.fn == 0 && x.noKEM then
    some (.waitc (EClass.ofNum (x.aux.extractLsb' 0 2)) (x.aux.extractLsb' 2 6))
  else none

/-- The capsule instructions (R258): the wait bits of fields that name no register are ignored (R173). DEDUCED, log 21. -/
def decCap (x : F2) : Option Instr :=
  if x.noKEM && x.d == 0 && x.b == 0 then
    match x.fn.toNat with
    | 0 =>
      let e : BitVec 11 := x.c ++ x.aux.extractLsb' 4 4
      if 1 ≤ e.toNat then (ssrc? x.a x.wa).map fun a => .capEnter a (x.aux.extractLsb' 0 4) e else none
    | n =>
      if x.a == 0 && x.c == 0 && x.aux == 0 then
        match n with
        | 1 => some .capCommit
        | 2 => some .capExit
        | 3 => some .capAbort
        | _ => none
      else none
  else none

/-- Queues and dispensers (R261, R263). -/
def decQueue (x : F2) : Option Instr :=
  if x.noKEM then
    match x.fn.toNat with
    | 0 =>
      if x.d == 0 && x.c == 0 && x.aux == 0 then
        (ssrc? x.a x.wa).bind fun a => (ssrc? x.b x.wb).map fun b => .qpush a b
      else none
    | 1 =>
      if x.b == 0 && x.c == 0 && x.aux == 0 then (sreg? x.d).bind fun d => (ssrc? x.a x.wa).map fun a => .qpop d a
      else none
    | 2 =>
      if x.a == 0 && x.b == 0 && x.c == 0 && x.aux.toNat < 8 && x.d.toNat % 2 == 0 && x.d != 0 then
        (sreg? x.d).map fun d => .tqget d (x.aux.setWidth 3)
      else none
    | 3 =>
      if x.d == 0 && x.c == 0 && x.aux.toNat < 8 then
        (ssrc? x.a x.wa).bind fun a => (ssrc? x.b x.wb).map fun b => .tqadd (x.aux.setWidth 3) a b
      else none
    | 4 =>
      if x.aux.toNat < 8 then
        (sreg? x.d).bind fun d => (ssrc? x.a x.wa).bind fun a => (ssrc? x.b x.wb).bind fun b =>
          (ssrc? x.c x.wc).map fun c => .tqfill d (x.aux.setWidth 3) a b c
      else none
    | _ => none
  else none

/-- Cache hints (R265). -/
def decHint (x : F2) : Option Instr :=
  if x.d == 0 && x.b == 0 && x.c == 0 && x.k == 0 && x.es == 0 && !x.m2 && !x.m1 && !x.m0 then
    x.off?.bind fun off => (ssrc? x.a x.wa).bind fun a =>
      match x.fn.toNat, x.aux.toNat with
      | 0, 0 => some (.pfL1 a off)
      | 0, 1 => some (.pfL2 a off)
      | 1, 0 => some (.cwb a off)
      | 2, 0 => some (.cinv a off)
      | _, _ => none
  else none

/-! ### Matrix, engines, system (R270-R289) -/

def decMxls (x : F2) : Option Instr :=
  if x.d == 0 && x.b == 0 && x.fn == 0 && x.noKEM && x.aux == 0 then
    (ssrc? x.a x.wa).bind fun a => (ssrc? x.c x.wc).map fun c => .mxls a c
  else none

/-- MXLOOP (R271, R414). -/
def decMxloop (x : F2) : Option Instr :=
  match x.lit with
  | some v =>
    if x.k == 0 && x.es == 0 && !x.m3 && !x.m2 && !x.m1 && !x.m0 && x.aux == 0 && x.d.toNat < 2
      && v.extractLsb' 30 2 == 0 && !v.getLsbD 24 then
      (ssrc? x.c x.wc).bind fun c =>
        match x.fn.toNat with
        | 0 =>
          (ssrc? x.a x.wa).bind fun a => (ssrc? x.b x.wb).map fun b =>
            .mxloop ⟨x.d.getLsbD 0, a, b, c, v.extractLsb' 0 16, v.extractLsb' 16 8, v.extractLsb' 25 3,
              v.getLsbD 28, v.getLsbD 29⟩
        | 1 =>
          if x.b == 0 && v.extractLsb' 16 8 == 0 && v.extractLsb' 25 3 == 0 && !v.getLsbD 29 then
            (ssrc? x.a x.wa).map fun a => .mxloopG ⟨x.d.getLsbD 0, a, c, v.extractLsb' 0 16, v.getLsbD 28⟩
          else none
        | 2 =>
          if x.a == 0 && v.extractLsb' 25 3 != 0 then
            (ssrc? x.b x.wb).map fun b =>
              .mxloopE ⟨x.d.getLsbD 0, b, c, v.extractLsb' 0 16, v.extractLsb' 16 8, v.extractLsb' 25 3,
                v.getLsbD 28, v.getLsbD 29⟩
          else none
        | _ => none
    else none
  | none => none

/-- MXACC and MXSWAP (R270, R275). -/
def decMxacc (x : F2) : Option Instr :=
  match x.fn.toNat with
  | 0 =>
    let f := Fmt.ofNum (x.aux.extractLsb' 0 4)
    if x.k == 0 && x.es == 0 && !x.m3 && !x.m2 && !x.m1 && x.lit.isNone && x.d.toNat < 2 && x.aux.extractLsb' 4 4 == 0
      && f.mxaccOk then
      (ssrc? x.a x.wa).bind fun a => (ssrc? x.b x.wb).bind fun b => (ssrc? x.c x.wc).map fun c =>
        .mxacc ⟨x.d.getLsbD 0, a, b, c, f, x.m0⟩
    else none
  | 1 =>
    if x.d == 0 && x.a == 0 && x.b == 0 && x.c == 0 && x.noKEM && x.aux == 0 then some .mxswap else none
  | _ => none

/-- MMA (R276): with .Z the wait bit of c is a constraint of its table. -/
def decMma (x : F2) : Option Instr :=
  let o : MmaOps := ⟨x.d, x.k, ⟨x.a, x.wa⟩, ⟨x.b, x.wb⟩, if x.m0 then none else some ⟨x.c, x.wc⟩,
    Fmt.ofNum (x.aux.extractLsb' 0 4), Fmt.ofNum (x.aux.extractLsb' 4 4)⟩
  if !x.m3 && !x.m2 && !x.m1 && x.lit.isNone && (!x.m0 || (x.c == 0 && !x.wc)) && o.wf
    && o.fa.mmaWidth == some (Width.ofNum x.es) then
    match x.fn.toNat with
    | 0 => some (.mmaAny o)
    | 1 => some (.mmaArray o)
    | 2 => some (.mmaLanes o)
    | _ => none
  else none

/-- ENG (R279). -/
def decEng (x : F2) : Option Instr :=
  if x.d == 0 && x.c == 0 && x.noKEM && x.aux == 0 then
    (ssrc? x.a x.wa).bind fun a => (ssrc? x.b x.wb).bind fun b =>
      match x.fn.toNat with
      | 0 => some (.engCpy a b)
      | 1 => some (.engGath a b)
      | 2 => some (.engSortc a b)
      | 3 => some (.engColl a b)
      | _ => none
  else none

/-- ANNEX.HINT (R284). -/
def decAnnex (x : F2) : Option Instr :=
  if x.d == 0 && x.c == 0 && x.fn == 0 && x.noKEM && x.aux.extractLsb' 5 3 == 0 then
    (ssrc? x.a x.wa).bind fun a => (ssrc? x.b x.wb).bind fun b =>
      let deg : BitVec 3 := x.aux.extractLsb' 2 3
      match (x.aux.extractLsb' 0 2).toNat with
      | 0 => if deg == 0 then some (.annexHintClr a b) else none
      | 1 => some (.annexHintPin a b deg)
      | 2 => some (.annexHintFloor a b deg)
      | _ => some (.annexHintCeil a b deg)
  else none

/-- The system-mode instructions (R289). -/
def decSystem (x : F2) : Option Instr :=
  if x.d == 0 && x.noKEM then
    (ssrc? x.a x.wa).bind fun a =>
      match x.fn.toNat with
      | 0 =>
        if x.aux == 0 then
          (ssrc? x.b x.wb).bind fun b => (ssrc? x.c x.wc).map fun c => .tlbinv a b c
        else if x.aux == 1 && x.b == 0 && x.c == 0 then some (.tlbinvAll a) else none
      | 1 => if x.c == 0 && x.aux == 0 then (ssrc? x.b x.wb).map fun b => .ctxsv a b else none
      | 2 => if x.c == 0 && x.aux == 0 then (ssrc? x.b x.wb).map fun b => .ctxld a b else none
      | 3 =>
        if x.b == 0 && x.c == 0 then
          if x.aux == 0 then some (.park a) else if x.aux == 1 then some (.unpark a) else none
        else none
      | _ => none
  else none

/-- Instructions of formats F2 and F3, by the opcode map (R182). -/
def decF2 (x : F2) : Option Instr :=
  match x.opc.toNat with
  | 0x09 | 0x0B | 0x0C | 0x11 | 0x13 => decScalar2 x
  | 0x14 => decValu x
  | 0x15 => decVmul x
  | 0x16 => decVcmp x
  | 0x17 => decVsel x
  | 0x18 => decFalu x
  | 0x19 => decFfma x
  | 0x1A => decFcmp x
  | 0x1B => decSfu x
  | 0x1C => decCvt x
  | 0x1D => decPack x
  | 0x1E => decShfl x
  | 0x1F => decShfli x
  | 0x20 => if x.fn.toNat ≤ 10 then decVred x else none
  | 0x21 => if x.fn.toNat ≤ 10 then decScan x else none
  | 0x22 => decMatch x
  | 0x23 => decBallot x
  | 0x24 => decMask x
  | 0x25 => decLd x
  | 0x26 => decSt x
  | 0x27 => decVld x
  | 0x28 => decVst x
  | 0x29 => decLdfe x
  | 0x2A => decAtom x
  | 0x2B => decVatom x
  | 0x2C => decFence x
  | 0x2D => decBar x
  | 0x2E => decWaitc x
  | 0x2F => decCap x
  | 0x30 => decQueue x
  | 0x31 => decHint x
  | 0x32 => decMxls x
  | 0x33 => decMxloop x
  | 0x34 => decMxacc x
  | 0x35 => decMma x
  | 0x36 => decEng x
  | 0x37 => decAnnex x
  | 0x3C => decSystem x
  | _ => none

/-- The instruction that the fields stand for; none is an unassigned encoding. -/
def Enc.instr : Enc → Option Instr
  | .f1 x => decF1 x
  | .f1i x => decF1i x
  | .f1b x => decF1b x
  | .f2 x => decF2 x

/-- The decoder: the instruction at the head of a word list, and its length in parcels. -/
def decode (ws : List Parcel) : Except Reject (Instr × Nat) :=
  match Enc.ofWords ws with
  | .error e => .error e
  | .ok x =>
    match x.instr with
    | some i => .ok (i, x.words.length)
    | none => .error .unassigned

/-- Parcels from bytes, little-endian (R164); a rest of fewer than four bytes is no parcel. -/
def parcelsOfBytes : List Byte → List Parcel
  | b0 :: b1 :: b2 :: b3 :: rest => (b3 ++ b2 ++ b1 ++ b0) :: parcelsOfBytes rest
  | _ => []

/-- Decoding of any bytes. -/
def decodeBytes (bs : List Byte) : Except Reject (Instr × Nat) := decode (parcelsOfBytes bs)

/-! ### The encoder -/

/-- A vector instruction of operands a and b. -/
def encVBin (opc : BitVec 6) (fn : BitVec 8) (m0 : Bool) (aux : BitVec 8) (o : VBin) : Enc :=
  .f2 (({ opc := opc, d := o.d, k := o.k, es := o.es.num, fn := fn, m0 := m0, aux := aux : F2 }.withA o.a).withB o.b)

def encVUn (opc : BitVec 6) (fn : BitVec 8) (m0 : Bool) (aux : BitVec 8) (o : VUn) : Enc :=
  .f2 ({ opc := opc, d := o.d, k := o.k, es := o.es.num, fn := fn, m0 := m0, aux := aux : F2 }.withA o.a)

def encVTri (opc : BitVec 6) (fn : BitVec 8) (m0 : Bool) (o : VTri) : Enc :=
  .f2 (({ opc := opc, d := o.d, k := o.k, es := o.es.num, fn := fn, m0 := m0, c := o.c.r, wc := o.c.w : F2 }.withA
    o.a).withB o.b)

def encFBin (opc : BitVec 6) (fn : BitVec 8) (o : FBin) : Enc :=
  .f2 (({ opc := opc, d := o.d, k := o.k, es := o.f.es, fn := fn, m0 := o.f.m0 : F2 }.withA o.a).withB o.b)

def encFUn (opc : BitVec 6) (fn : BitVec 8) (o : FUn) : Enc :=
  .f2 ({ opc := opc, d := o.d, k := o.k, es := o.f.es, fn := fn, m0 := o.f.m0 : F2 }.withA o.a)

def encFTri (opc : BitVec 6) (fn : BitVec 8) (o : FTri) : Enc :=
  .f2 (({ opc := opc, d := o.d, k := o.k, es := o.f.es, fn := fn, m0 := o.f.m0, c := o.c.r, wc := o.c.w : F2 }.withA
    o.a).withB o.b)

def encShfli (fn : BitVec 8) (o : ShfliOps) : Enc :=
  .f2 ({ opc := 0x1F, d := o.d, k := o.k, es := 3, fn := fn, a := o.a.r, wa := o.a.w, aux := o.g.setWidth 8
    : F2 }.withShamt o.b)

def encRed (opc : BitVec 6) (f : RedFn) (d : VReg) (k : KReg) (a : VA) (x : Bool) : Enc :=
  .f2 ({ opc := opc, d := d, k := k, es := f.es, fn := f.fn, m0 := f.m0, aux := 0#7 ++ bit x : F2 }.withA a)

def encElem (opc : BitVec 6) (fn : BitVec 8) (d : BitVec 7) (o : ElemOps) : Enc :=
  .f2 { opc := opc, fn := fn, d := d, k := o.k, es := o.es.num, a := o.a.r, wa := o.a.w, aux := o.idx.setWidth 8 }

def encMask (fn : BitVec 8) (d a b : BitVec 7) (wa : Bool) : Enc :=
  .f2 { opc := 0x24, fn := fn, d := d, a := a, b := b, wa := wa }

def encMem (opc : BitVec 6) (o : MemOps) : Enc :=
  .f2 ({
      opc := opc, d := s7 o.d, a := s7 o.a.r, wa := o.a.w, es := o.size.es, m1 := o.size.m1,
      aux := memAux o.ord o.sx : F2 }.withOff o.off)

def encStr (opc : BitVec 6) (o : StrOps) : Enc :=
  .f2 ({
      opc := opc, fn := 0, d := o.d, k := o.k, es := o.es.num, a := s7 o.a.r, wa := o.a.w, b := s7 o.b.r, wb := o.b.w,
      aux := memAux o.ord o.sx : F2 }.withOff o.off)

def encIx (opc : BitVec 6) (o : IxOps) : Enc :=
  .f2 ({
      opc := opc, fn := 1, d := o.d, k := o.k, es := o.es.num, a := s7 o.a.r, wa := o.a.w, c := o.c.r, wc := o.c.w,
      aux := memAux o.ord o.sx : F2 }.withOff o.off)

def encPrv (opc : BitVec 6) (o : PrvOps) : Enc :=
  .f2 ((match o.c with
    | some c => { opc := opc, fn := 2, d := o.d, k := o.k, es := o.es.num, a := s7 o.a.r, wa := o.a.w, c := c.r,
                  wc := c.w, m0 := true, aux := memAux .plain o.sx : F2 }
    | none => {
      opc := opc, fn := 2, d := o.d, k := o.k, es := o.es.num, a := s7 o.a.r, wa := o.a.w,
      aux := memAux .plain o.sx : F2 }).withOff o.off)

def encLdfe (fn : BitVec 8) (o : LdfeOps) : Enc :=
  .f2 {
      opc := 0x29, fn := fn, d := s7 o.d, a := s7 o.a.r, wa := o.a.w, es := o.size.es, m1 := o.size.m1,
      aux := memAux .plain o.sx }

def encAtom (op : AtomOp) (o : AtomOps) : Enc :=
  .f2 ({
      opc := 0x2A, fn := op.num, d := s7 o.d, a := s7 o.a.r, wa := o.a.w, b := s7 o.b.r, wb := o.b.w,
      es := atomEs o.dw, aux := memAux o.ord o.sx : F2 }.withOff o.off)

def encHint (fn aux : BitVec 8) (a : SSrc) (off : Option (BitVec 32)) : Enc :=
  .f2 ({ opc := 0x31, fn := fn, a := s7 a.r, wa := a.w, aux := aux : F2 }.withOff off)

def encFence (o : MOrder) : Enc := .f2 { opc := 0x2C, aux := 0#3 ++ o.aux }

def encMma (fn : BitVec 8) (o : MmaOps) : Enc :=
  let es := (o.fa.mmaWidth.getD .b).num
  .f2 (match o.c with
    | some c => { opc := 0x35, fn := fn, d := o.d, k := o.k, a := o.a.r, wa := o.a.w, b := o.b.r, wb := o.b.w, c := c.r,
                  wc := c.w, es := es, aux := o.fb.num ++ o.fa.num }
    | none => {
      opc := 0x35, fn := fn, d := o.d, k := o.k, a := o.a.r, wa := o.a.w, b := o.b.r, wb := o.b.w, m0 := true,
      es := es, aux := o.fb.num ++ o.fa.num })

def encEng (fn : BitVec 8) (a b : SSrc) : Enc :=
  .f2 { opc := 0x36, fn := fn, a := s7 a.r, wa := a.w, b := s7 b.r, wb := b.w }

def encAnnex (kind : BitVec 2) (deg : BitVec 3) (a b : SSrc) : Enc :=
  .f2 { opc := 0x37, a := s7 a.r, wa := a.w, b := s7 b.r, wb := b.w, aux := 0#3 ++ deg ++ kind }

def encF1 (opc : BitVec 6) (fn : BitVec 4) (d : SReg) (a b : SSrc) : Enc := .f1 ⟨opc, d, a.r, b.r, a.w, b.w, fn⟩

/-- s0 in a field that is not read, with its wait bit written 0 (R173). -/
def noSrc : SSrc := ⟨0, false⟩

/-- The fields of a team's instruction; none for a command or an event, which has no encoding. -/
def Instr.enc : Instr → Option Enc
  | .saluAdd d a b => some (encF1 0x00 0 d a b)
  | .saluSub d a b => some (encF1 0x00 1 d a b)
  | .saluAnd d a b => some (encF1 0x00 2 d a b)
  | .saluOr d a b => some (encF1 0x00 3 d a b)
  | .saluXor d a b => some (encF1 0x00 4 d a b)
  | .saluAndn d a b => some (encF1 0x00 5 d a b)
  | .saluShl d a b => some (encF1 0x00 6 d a b)
  | .saluShrl d a b => some (encF1 0x00 7 d a b)
  | .saluShra d a b => some (encF1 0x00 8 d a b)
  | .saluMul d a b => some (encF1 0x00 9 d a b)
  | .saluMulh d a b => some (encF1 0x00 10 d a b)
  | .saluMulhn d a b => some (encF1 0x00 11 d a b)
  | .saluMin d a b => some (encF1 0x00 12 d a b)
  | .saluMax d a b => some (encF1 0x00 13 d a b)
  | .saluMinn d a b => some (encF1 0x00 14 d a b)
  | .saluMaxn d a b => some (encF1 0x00 15 d a b)
  | .salul f d a v =>
    some (.f2 { opc := 0x0B, fn := BitVec.ofNat 8 f.num, d := s7 d, a := s7 a.r, wa := a.w, m3 := true, lit := some v })
  | .addi d a v => some (.f1i ⟨1, d, a.r, a.w, v⟩)
  | .andi d a v => some (.f1i ⟨2, d, a.r, a.w, v⟩)
  | .ori d a v => some (.f1i ⟨3, d, a.r, a.w, v⟩)
  | .xori d a v => some (.f1i ⟨4, d, a.r, a.w, v⟩)
  | .shiShl d a n => some (.f1i ⟨0x05, d, a.r, a.w, 0#2 ++ 0#3 ++ n⟩)
  | .shiShrl d a n => some (.f1i ⟨0x05, d, a.r, a.w, 1#2 ++ 0#3 ++ n⟩)
  | .shiShra d a n => some (.f1i ⟨0x05, d, a.r, a.w, 2#2 ++ 0#3 ++ n⟩)
  | .cmp a b => some (encF1 0x06 0 0 a b)
  | .cmpi a v => some (.f1i ⟨0x07, 0, a.r, a.w, v⟩)
  | .sbitPopc d a => some (encF1 0x08 0 d a noSrc)
  | .sbitClz d a => some (encF1 0x08 1 d a noSrc)
  | .sbitCtz d a => some (encF1 0x08 2 d a noSrc)
  | .sbitBrev d a => some (encF1 0x08 3 d a noSrc)
  | .sbitSextb d a => some (encF1 0x08 4 d a noSrc)
  | .sbitSexth d a => some (encF1 0x08 5 d a noSrc)
  | .sbitSextw d a => some (encF1 0x08 6 d a noSrc)
  | .sbitZextb d a => some (encF1 0x08 7 d a noSrc)
  | .sbitZexth d a => some (encF1 0x08 8 d a noSrc)
  | .sbitZextw d a => some (encF1 0x08 9 d a noSrc)
  | .bfx sx d a lo n =>
    some (.f2 { opc := 0x09, fn := 0, d := s7 d, a := s7 a.r, wa := a.w, c := n.setWidth 7, m0 := sx, aux := lo.setWidth 8 })
  | .bfi d a b lo n =>
    some (.f2 { opc := 0x09, fn := 1, d := s7 d, a := s7 a.r, wa := a.w, b := s7 b.r, wb := b.w, c := n.setWidth 7, aux := lo.setWidth 8 })
  | .lea d a b => some (encF1 0x0A 0 d a b)
  | .lit sx d v => some (.f2 { opc := 0x0C, fn := 0, d := s7 d, m0 := sx, lit := some v })
  | .lith d v => some (.f2 { opc := 0x0C, fn := 1, d := s7 d, lit := some v })
  | .bc c disp => some (.f1b ⟨0x0D, BitVec.ofNat 4 c.num, disp⟩)
  | .bmz k disp => some (.f1b ⟨0x0E, k ++ 0#1, disp⟩)
  | .bmnz k disp => some (.f1b ⟨0x0E, k ++ 1#1, disp⟩)
  | .call disp => some (.f1b ⟨0x0F, 0, disp⟩)
  | .jr a => some (encF1 0x10 0 0 a noSrc)
  | .callr a => some (encF1 0x10 1 0 a noSrc)
  | .ret => some (encF1 0x10 2 0 noSrc noSrc)
  | .loop a e =>
    some (.f2 { opc := 0x11, fn := 0, a := s7 a.r, wa := a.w, c := e.extractLsb' 8 7, aux := e.extractLsb' 0 8 })
  | .loopi n e => some (.f2 { opc := 0x11, fn := 1, c := e.extractLsb' 8 7, aux := e.extractLsb' 0 8, lit := some n })
  | .mark k disp => some (.f1b ⟨0x12, 0#1 ++ k, disp⟩)
  | .divElse disp => some (.f1b ⟨0x12, 8, disp⟩)
  | .join => some (.f1b ⟨0x12, 9, 0⟩)
  | .spawn d a disp => some (.f2 { opc := 0x13, fn := 0, d := s7 d, a := s7 a.r, wa := a.w, lit := some disp })
  | .exit => some (encF1 0x13 1 0 noSrc noSrc)
  | .yield => some (encF1 0x13 2 0 noSrc noSrc)
  | .valuAdd o sat => some (encVBin 0x14 0 sat.m0 sat.aux o)
  | .valuSub o sat => some (encVBin 0x14 1 sat.m0 sat.aux o)
  | .valuAnd o => some (encVBin 0x14 2 false 0 o)
  | .valuOr o => some (encVBin 0x14 3 false 0 o)
  | .valuXor o => some (encVBin 0x14 4 false 0 o)
  | .valuAndn o => some (encVBin 0x14 5 false 0 o)
  | .valuShl o s => some (encVBin 0x14 6 s 0 o)
  | .valuShrl o => some (encVBin 0x14 7 false 0 o)
  | .valuShra o => some (encVBin 0x14 8 false 0 o)
  | .valuMin o => some (encVBin 0x14 9 false 0 o)
  | .valuMax o => some (encVBin 0x14 10 false 0 o)
  | .valuMinn o => some (encVBin 0x14 11 false 0 o)
  | .valuMaxn o => some (encVBin 0x14 12 false 0 o)
  | .valuAbs o s => some (encVUn 0x14 13 s 0 o)
  | .valuNeg o s => some (encVUn 0x14 14 s 0 o)
  | .valuMov d k es b => some (.f2 ({ opc := 0x14, fn := 15, d := d, k := k, es := es.num : F2 }.withB b))
  | .vmulMul o s => some (encVBin 0x15 0 s 0 o)
  | .vmulMulh o => some (encVBin 0x15 1 false 0 o)
  | .vmulMulhn o => some (encVBin 0x15 2 false 0 o)
  | .vmulMad o s => some (encVTri 0x15 3 s o)
  | .vcmp f o => some (encVBin 0x16 f.num false 0 o)
  | .vsel o => some (encVTri 0x17 0 false o)
  | .vbcast o idx => some (encVUn 0x17 1 false (idx.setWidth 8) o)
  | .vlid d k es => some (.f2 { opc := 0x17, fn := 2, d := d, k := k, es := es.num })
  | .fadd o => some (encFBin 0x18 0 o)
  | .fsub o => some (encFBin 0x18 1 o)
  | .fmul o => some (encFBin 0x18 2 o)
  | .fmin o => some (encFBin 0x18 3 o)
  | .fmax o => some (encFBin 0x18 4 o)
  | .fabs o => some (encFUn 0x18 5 o)
  | .fneg o => some (encFUn 0x18 6 o)
  | .fcsgn o => some (encFBin 0x18 7 o)
  | .ffma o => some (encFTri 0x19 0 o)
  | .ffms o => some (encFTri 0x19 1 o)
  | .fnma o => some (encFTri 0x19 2 o)
  | .fcmp f o => some (encFBin 0x1A f.num o)
  | .frcp o => some (encFUn 0x1B 0 o)
  | .frsq o => some (encFUn 0x1B 1 o)
  | .fsqrt o => some (encFUn 0x1B 2 o)
  | .fexp2 o => some (encFUn 0x1B 3 o)
  | .flog2 o => some (encFUn 0x1B 4 o)
  | .fsin o => some (encFUn 0x1B 5 o)
  | .fcos o => some (encFUn 0x1B 6 o)
  | .ftanh o => some (encFUn 0x1B 7 o)
  | .cvt d k a dst src part =>
    some (.f2 { opc := 0x1C, d := d, k := k, a := a.r, wa := a.w, c := part.setWidth 7, aux := dst.num ++ src.num })
  | .pack o sat => some (encVBin 0x1D 0 sat.m0 sat.aux o)
  | .unpack o sx h => some (encVUn 0x1D 1 sx (0#7 ++ bit h) o)
  | .perm o => some (encVTri 0x1D 2 false o)
  | .shfl d k es a b => some (.f2 (match b with
      | .vec s => { opc := 0x1E, d := d, k := k, es := es.num, a := a.r, wa := a.w, b := s.r, wb := s.w }
      | .scal s => { opc := 0x1E, d := d, k := k, es := es.num, a := a.r, wa := a.w, b := s7 s.r, wb := s.w, m1 := true }))
  | .shfliUp o => some (encShfli 0 o)
  | .shfliDown o => some (encShfli 1 o)
  | .shfliXor o => some (encShfli 2 o)
  | .shfliBcast o => some (encShfli 3 o)
  | .vred f d k a x => some (encRed 0x20 f d k a x)
  | .scan f d k a x => some (encRed 0x21 f d k a x)
  | .mtch d o => some (encElem 0x22 0 d o)
  | .ballot d o => some (encElem 0x23 0 (k7 d) o)
  | .vany d o => some (encElem 0x23 2 (s7 d) o)
  | .vall d o => some (encElem 0x23 3 (s7 d) o)
  | .kmov d a => some (.f2 { opc := 0x23, fn := 1, d := k7 d, a := k7 a })
  | .kmovToScalar d a q => some (.f2 { opc := 0x23, fn := 1, d := s7 d, a := k7 a, c := q.setWidth 7, aux := 1 })
  | .kmovSum d a => some (.f2 { opc := 0x23, fn := 1, d := s7 d, a := k7 a, aux := 2 })
  | .kmovFromScalar d a q =>
    some (.f2 { opc := 0x23, fn := 1, d := k7 d, a := s7 a.r, wa := a.w, c := q.setWidth 7, aux := 3 })
  | .kand d a b => some (encMask 0 (k7 d) (k7 a) (k7 b) false)
  | .kor d a b => some (encMask 1 (k7 d) (k7 a) (k7 b) false)
  | .kxor d a b => some (encMask 2 (k7 d) (k7 a) (k7 b) false)
  | .kandn d a b => some (encMask 3 (k7 d) (k7 a) (k7 b) false)
  | .knot d a => some (encMask 4 (k7 d) (k7 a) 0 false)
  | .kset d a => some (encMask 5 (k7 d) (s7 a.r) 0 a.w)
  | .kpop d a => some (encMask 6 (s7 d) (k7 a) 0 false)
  | .ld o => some (encMem 0x25 o)
  | .st o => some (encMem 0x26 o)
  | .vldStr o => some (encStr 0x27 o)
  | .vldIx o => some (encIx 0x27 o)
  | .vldPrv o => some (encPrv 0x27 o)
  | .vstStr o => some (encStr 0x28 o)
  | .vstIx o => some (encIx 0x28 o)
  | .vstPrv o => some (encPrv 0x28 o)
  | .ldfeK o => some (encLdfe 0 o)
  | .ldfeC o => some (encLdfe 1 o)
  | .atomAdd o => some (encAtom .add o)
  | .atomAnd o => some (encAtom .and o)
  | .atomOr o => some (encAtom .or o)
  | .atomXor o => some (encAtom .xor o)
  | .atomMin o => some (encAtom .min o)
  | .atomMax o => some (encAtom .max o)
  | .atomMinn o => some (encAtom .minn o)
  | .atomMaxn o => some (encAtom .maxn o)
  | .atomSwap o => some (encAtom .swap o)
  | .atomCas o c => some (.f2 ({
      opc := 0x2A, fn := 9, d := s7 o.d, a := s7 o.a.r, wa := o.a.w, b := s7 o.b.r, wb := o.b.w,
      c := s7 c.r, wc := c.w, es := atomEs o.dw, aux := memAux o.ord o.sx : F2 }.withOff o.off))
  | .atomFadd o => some (encAtom .fadd o)
  | .vatom o => some (.f2 {
      opc := 0x2B, fn := o.op.num, d := o.d, k := o.k, a := s7 o.a.r, wa := o.a.w, b := o.b.r, wb := o.b.w,
      c := o.c.r, wc := o.c.w, es := atomEs o.dw, m0 := o.nr, aux := memAux o.ord o.sx })
  | .fenceAcq s => some (encFence (.acq s))
  | .fenceRel s => some (encFence (.rel s))
  | .fenceAr s => some (encFence (.ar s))
  | .waitc c n => some (.f2 { opc := 0x2E, aux := n ++ c.num })
  | .barInit x a b c =>
    some (.f2 { opc := 0x2D, fn := 0, a := s7 a.r, wa := a.w, b := s7 b.r, wb := b.w, c := s7 c.r, wc := c.w, aux := 0#7 ++ bit x })
  | .barArr d a => some (.f2 { opc := 0x2D, fn := 1, d := s7 d, a := s7 a.r, wa := a.w })
  | .barArrx d a => some (.f2 { opc := 0x2D, fn := 2, d := s7 d, a := s7 a.r, wa := a.w })
  | .barWait a p => some (.f2 (match p with
      | .reg b => { opc := 0x2D, fn := 3, a := s7 a.r, wa := a.w, b := s7 b.r, wb := b.w, m1 := true }
      | .imm v => { opc := 0x2D, fn := 3, a := s7 a.r, wa := a.w, aux := v }))
  | .barExpb a b => some (.f2 { opc := 0x2D, fn := 4, a := s7 a.r, wa := a.w, b := s7 b.r, wb := b.w })
  | .capEnter a sz e =>
    some (.f2 { opc := 0x2F, fn := 0, a := s7 a.r, wa := a.w, c := e.extractLsb' 4 7, aux := e.extractLsb' 0 4 ++ sz })
  | .capCommit => some (.f2 { opc := 0x2F, fn := 1 })
  | .capExit => some (.f2 { opc := 0x2F, fn := 2 })
  | .capAbort => some (.f2 { opc := 0x2F, fn := 3 })
  | .qpush a b => some (.f2 { opc := 0x30, fn := 0, a := s7 a.r, wa := a.w, b := s7 b.r, wb := b.w })
  | .qpop d a => some (.f2 { opc := 0x30, fn := 1, d := s7 d, a := s7 a.r, wa := a.w })
  | .tqget d q => some (.f2 { opc := 0x30, fn := 2, d := s7 d, aux := q.setWidth 8 })
  | .tqadd q a b =>
    some (.f2 { opc := 0x30, fn := 3, a := s7 a.r, wa := a.w, b := s7 b.r, wb := b.w, aux := q.setWidth 8 })
  | .tqfill d q a b c =>
    some (.f2 { opc := 0x30, fn := 4, d := s7 d, a := s7 a.r, wa := a.w, b := s7 b.r, wb := b.w, c := s7 c.r, wc := c.w, aux := q.setWidth 8 })
  | .pfL1 a off => some (encHint 0 0 a off)
  | .pfL2 a off => some (encHint 0 1 a off)
  | .cwb a off => some (encHint 1 0 a off)
  | .cinv a off => some (encHint 2 0 a off)
  | .mxls a c => some (.f2 { opc := 0x32, a := s7 a.r, wa := a.w, c := s7 c.r, wc := c.w })
  | .mxswap => some (.f2 { opc := 0x34, fn := 1 })
  | .mxloop o => some (.f2 {
      opc := 0x33, fn := 0, d := 0#6 ++ bit o.tile, a := s7 o.a.r, wa := o.a.w, b := s7 o.b.r, wb := o.b.w,
      c := s7 o.c.r, wc := o.c.w, lit := some (0#2 ++ bit o.keep ++ bit o.z ++ o.l1 ++ 0#1 ++ o.m1 ++ o.ks) })
  | .mxloopG o => some (.f2 {
      opc := 0x33, fn := 1, d := 0#6 ++ bit o.tile, a := s7 o.a.r, wa := o.a.w, c := s7 o.c.r, wc := o.c.w,
      lit := some (0#3 ++ bit o.z ++ 0#12 ++ o.g) })
  | .mxloopE o => some (.f2 {
      opc := 0x33, fn := 2, d := 0#6 ++ bit o.tile, b := s7 o.b.r, wb := o.b.w, c := s7 o.c.r, wc := o.c.w,
      lit := some (0#2 ++ bit o.keep ++ bit o.z ++ o.p ++ 0#1 ++ o.m1 ++ o.ks) })
  | .mxacc o => some (.f2 {
      opc := 0x34, fn := 0, d := 0#6 ++ bit o.tile, a := s7 o.a.r, wa := o.a.w, b := s7 o.b.r, wb := o.b.w,
      c := s7 o.c.r, wc := o.c.w, m0 := o.clr, aux := 0#4 ++ o.fmt.num })
  | .mmaAny o => some (encMma 0 o)
  | .mmaArray o => some (encMma 1 o)
  | .mmaLanes o => some (encMma 2 o)
  | .engCpy a b => some (encEng 0 a b)
  | .engGath a b => some (encEng 1 a b)
  | .engSortc a b => some (encEng 2 a b)
  | .engColl a b => some (encEng 3 a b)
  | .annexHintClr a b => some (encAnnex 0 0 a b)
  | .annexHintPin a b deg => some (encAnnex 1 deg a b)
  | .annexHintFloor a b deg => some (encAnnex 2 deg a b)
  | .annexHintCeil a b deg => some (encAnnex 3 deg a b)
  | .rateGetB d => some (.f1 ⟨0x39, d, 0, 0, false, false, 0⟩)
  | .rateGetE d => some (.f1 ⟨0x39, d, 0, 1, false, false, 0⟩)
  | .rateSet a => some (encF1 0x39 1 0 a noSrc)
  | .rateClr => some (encF1 0x39 2 0 noSrc noSrc)
  | .gets d sel => some (.f1 ⟨0x38, d, 0, sel, false, false, 0⟩)
  | .sets sel a => some (.f1 ⟨0x38, 0, a.r, sel, a.w, false, 1⟩)
  | .trap c => some (.f1i ⟨0x3A, 0, 0, false, c⟩)
  | .sysc c => some (.f1i ⟨0x3A, 1, 0, false, c⟩)
  | .bkpt c => some (.f1i ⟨0x3A, 2, 0, false, c⟩)
  | .rft a => some (encF1 0x3B 0 0 a noSrc)
  | .resume a => some (encF1 0x3B 1 0 a noSrc)
  | .tlbinv a b c =>
    some (.f2 { opc := 0x3C, fn := 0, a := s7 a.r, wa := a.w, b := s7 b.r, wb := b.w, c := s7 c.r, wc := c.w })
  | .tlbinvAll a => some (.f2 { opc := 0x3C, fn := 0, a := s7 a.r, wa := a.w, aux := 1 })
  | .ctxsv a b => some (.f2 { opc := 0x3C, fn := 1, a := s7 a.r, wa := a.w, b := s7 b.r, wb := b.w })
  | .ctxld a b => some (.f2 { opc := 0x3C, fn := 2, a := s7 a.r, wa := a.w, b := s7 b.r, wb := b.w })
  | .park a => some (.f2 { opc := 0x3C, fn := 3, a := s7 a.r, wa := a.w })
  | .unpark a => some (.f2 { opc := 0x3C, fn := 3, a := s7 a.r, wa := a.w, aux := 1 })
  | _ => none

/-- The words of a team's instruction; the empty list for a command or an event. -/
def encode (i : Instr) : List Parcel :=
  match i.enc with
  | some x => x.words
  | none => []

/-- Whether the row is an instruction that a team executes (it has an encoding). -/
def Instr.isTeam (i : Instr) : Bool := i.enc.isSome

/-- The instruction read from bits numbered as the opcode table numbers them: the first parcel is bits 31:0, and the
bits above `nbits` are 0. -/
def decodeTableWord (nbits w : Nat) : Option Instr :=
  let v := w % 2 ^ nbits
  match decode [BitVec.ofNat 32 v, BitVec.ofNat 32 (v / 2 ^ 32), BitVec.ofNat 32 (v / 2 ^ 64)] with
  | .ok (i, _) => some i
  | .error _ => none

end Sys2Proof
end

