-- ==== Sys2Proof/Config.lean ====
section
/-! DEFINITION. What the manual leaves to the part or leaves open: constants without a body, so that nothing can be
proved about their values. Each is named in a log entry of notes/assumptions. -/

namespace Sys2Proof

/-- The home die of a 4 KiB granule of translated memory (spec/04 R77: a hash that is not architectural), 0 to 7 by
reduction where it is used. The argument is the granule's number in the model's location space.
DESIGN CHOICE, log 6. -/
opaque Config.homeDie : Nat → Nat

/-- The memory die behind a 4 KiB granule of device memory (spec/00 R9: the manual does not say which), reduced modulo 4
where it is used.
DESIGN CHOICE, log 80. -/
opaque Config.memoryDie : Nat → Nat

/-- The cluster whose service team owns a 4 KiB granule of translated memory (spec/04 R85), reduced modulo 48 where it
is used.
DESIGN CHOICE, log 6. -/
opaque Config.serviceCluster : Nat → Nat

/-- Nanoseconds that have passed at the n-th reading of TIME (spec/03 R64).
DESIGN CHOICE, log 7. -/
opaque Config.elapsed : Nat → Nat

/-- The lane-word at which a stop finds an instruction of the vector datapath (spec/03 R66, spec/10 R216): the n-th such stop,
reduced modulo the team's lane-words where it is used.
DESIGN CHOICE, log 83. -/
opaque Config.stopWord : Nat → Nat

/-- An element of a matrix plane whose contents the manual leaves unspecified (spec/12 R272): the n-th such plane, its
element index.
DESIGN CHOICE, log 15. -/
opaque Config.planeCode : Nat → Nat → Nat

/-- A byte of a save area, whose layout is not architectural (spec/24 R405): the n-th saving, the byte's offset.
DESIGN CHOICE, log 16. -/
opaque Config.saveByte : Nat → Nat → BitVec 8

/-- The part's identity key and its certificates (spec/23 R395): a byte of item `k` under the firmware image with a digest.
Items: 0 the identity public key, 1 the certificate chain.
DESIGN CHOICE, log 14. -/
opaque Config.identityByte : BitVec 512 → Nat → Nat → BitVec 8

/-- A Falcon-1024 signature of an image digest that the vendor made, 1,280 bytes long, and whether another one verifies with the
vendor public key in the hall ROM (spec/23 R394). DESIGN CHOICE, log 14. -/
opaque Config.vendorSignature : BitVec 512 → BitVec 10240
opaque Config.otherVerifies : BitVec 512 → List Byte → Bool

/-- The fused rollback floor (spec/23 R394).
DESIGN CHOICE, log 14. -/
opaque Config.rollbackFloor : BitVec 64

/-- Whether the flash takes an accepted image that recovery writes to it, so that it is read back and verified (spec/27 R456): at
a reading's number.
DESIGN CHOICE, log 14. -/
opaque Config.flashTakes : Nat → Bool

/-- Length in bytes of item `k` of the identity block (R385 KLEN and CLEN).
DESIGN CHOICE, log 14. -/
opaque Config.identityLen : Nat → Nat

/-- A byte of the signature of the n-th attestation report (R395).
DESIGN CHOICE, log 14. -/
opaque Config.signatureByte : Nat → Nat → BitVec 8

/-- Length of the signature of the n-th attestation report.
DESIGN CHOICE, log 14. -/
opaque Config.signatureLen : Nat → Nat

/-- The first die that a launch's blocks go to (spec/14 R320: not promised).
DESIGN CHOICE, log 18. -/
opaque Config.firstDie : Nat → Nat

/-- Whether the host's root port performs AtomicOps for a request (spec/11 R250, spec/26 R433): the n-th request.
DESIGN CHOICE, log 12. -/
opaque Config.hostAtomicOk : Nat → Bool

/-- The partition number that the peer's export window for a link names (spec/23 R390).
DESIGN CHOICE, log 13. -/
opaque Config.peerPart : Nat → Nat

/-- Whether an address lies in the peer's export window for a link (spec/23 R390).
DESIGN CHOICE, log 13. -/
opaque Config.peerExports : Nat → Nat → Bool

/-- MODE of a peer's collective over a link: it is participant 0 of the peer set where it has the lower index (spec/12 R283).
DESIGN CHOICE, log 13. -/
opaque Config.peerMode : Nat → Nat → BitVec 6

/-- Whether a peer's descriptor agrees with this part's on OP, DTYPE, ROP, COUNT and ROOT (spec/12 R283).
DESIGN CHOICE, log 13. -/
opaque Config.peerAgrees : Nat → Nat → Bool

/-- The element that a peer contributes to a collective of a peer set (spec/12 R283): its link, the operation's number, the
element's number.
DESIGN CHOICE, log 13. -/
opaque Config.peerElem : Nat → Nat → Nat → Nat

/-- The busy part of the last 4 μs of an island of a core at a TIME, in units of 2^-16 (spec/17 R347).
DESIGN CHOICE, log 73. -/
opaque Config.usage : Nat → Nat → Nat → Nat

/-- The mean rail current of a die over the microsecond before a TIME, in units of 10^-4 A (spec/17 R344).
DESIGN CHOICE, log 35. -/
opaque Config.railMean : Nat → Nat → BitVec 24

end Sys2Proof
end

