-- ==== Sys2Proof/Machine/Bits.lean ====
section
/-! DEFINITION. Bit fields, byte order, sub-elements and the integer conversions of spec/06 R116: every later file reads
and builds words through these. -/

namespace Sys2Proof.Machine

/-- Bits [hi:lo] of a natural number. -/
def bitsNat (x hi lo : Nat) : Nat := (x >>> lo) % 2 ^ (hi + 1 - lo)

/-- Bits [hi:lo] of a word. -/
def fld (x : Word) (hi lo : Nat) : Nat := bitsNat x.toNat hi lo

/-- The word whose bits [hi:lo] are replaced by `v`. -/
def setFld (x : Word) (hi lo v : Nat) : Word :=
  let m := 2 ^ (hi + 1 - lo)
  BitVec.ofNat 64 (x.toNat % 2 ^ lo + (v % m) * 2 ^ lo + (x.toNat >>> (hi + 1)) * 2 ^ (hi + 1))

/-- The natural value of bytes, least significant first (R1). -/
def natOfBytes : List Byte → Nat
  | [] => 0
  | b :: rest => b.toNat + 256 * natOfBytes rest

/-- The low `n` bytes of a natural number, least significant first (R1). -/
def bytesOfNat : Nat → Nat → List Byte
  | 0, _ => []
  | n + 1, v => BitVec.ofNat 8 v :: bytesOfNat n (v / 256)

def wordOfBytes (bs : List Byte) : Word := BitVec.ofNat 64 (natOfBytes bs)

/-- `n` bytes from offset `off` of a byte list, missing bytes read as 0. -/
def sliceBytes (bs : List Byte) (off n : Nat) : List Byte := (bs.drop off).take n

/-- The natural field of `n` bytes at offset `off`. -/
def natAt (bs : List Byte) (off n : Nat) : Nat := natOfBytes (sliceBytes bs off n)

/-- The signed 64-bit field at offset `off`. -/
def intAt (bs : List Byte) (off : Nat) : Int := (BitVec.ofNat 64 (natAt bs off 8)).toInt

/-- Every byte in [lo, hi) is 0. -/
def zeroBytes (bs : List Byte) (lo hi : Nat) : Bool := natAt bs lo (hi - lo) == 0

/-- The signed reading of a w-bit pattern. -/
def toSigned (w n : Nat) : Int := if 2 * n < 2 ^ w then (n : Int) else (n : Int) - (2 ^ w : Nat)

/-- wrap(x, w) of R116. -/
def wrapInt (w : Nat) (x : Int) : Nat := (x % (2 ^ w : Nat)).toNat

/-- sat_s(x, w) of R116, as a pattern. -/
def satS (w : Nat) (x : Int) : Nat :=
  let hi : Int := (2 ^ (w - 1) : Nat) - 1
  let lo : Int := -((2 ^ (w - 1) : Nat) : Int)
  wrapInt w (if x < lo then lo else if hi < x then hi else x)

/-- sat_n(x, w) of R116. -/
def satN (w : Nat) (x : Int) : Nat :=
  let hi : Int := (2 ^ w : Nat) - 1
  wrapInt w (if x < 0 then 0 else if hi < x then hi else x)

/-- Sub-element i of width w of a lane-register (R51). -/
def elem (w : Nat) (x : Word) (i : Nat) : Nat := (x.toNat >>> (w * i)) % 2 ^ w

/-- A lane-register from its sub-elements, element 0 first. -/
def packNat (w : Nat) : List Nat → Nat
  | [] => 0
  | e :: rest => e % 2 ^ w + 2 ^ w * packNat w rest

def packElems (w : Nat) (es : List Nat) : Word := BitVec.ofNat 64 (packNat w es)

/-- A lane-register with sub-element i replaced. -/
def setElem (w : Nat) (x : Word) (i v : Nat) : Word := setFld x (w * i + w - 1) (w * i) v

/-- The extension of a value of n bytes to 64 bits: zero, or sign with .SX (R241). -/
def extBytes (n : Nat) (sx : Bool) (v : Nat) : Word :=
  if sx then BitVec.ofInt 64 (toSigned (8 * n) (v % 2 ^ (8 * n))) else BitVec.ofNat 64 (v % 2 ^ (8 * n))

def msizeBytes : MSize → Nat
  | .b => 1 | .h => 2 | .w => 4 | .d => 8 | .p => 16

def widthBytes (e : Width) : Nat := e.bits / 8

/-- Number of set bits among the low `n`. -/
def popNat : Nat → Nat → Nat
  | 0, _ => 0
  | n + 1, x => x % 2 + popNat n (x / 2)

/-- Parity of a parcel: the XOR of its bits (R168). -/
def parity32 (p : Parcel) : Bool := popNat 32 p.toNat % 2 == 1

/-- Position of the lowest set bit among the low `n`, from `i`. -/
def lowBit : Nat → Nat → Nat → Option Nat
  | 0, _, _ => none
  | n + 1, i, x => if x % 2 == 1 then some i else lowBit n (i + 1) (x / 2)

/-- Rounding up to a multiple. -/
def roundUp (x m : Nat) : Nat := (x + m - 1) / m * m

end Sys2Proof.Machine
end

