-- ==== Sys2Proof/Machine/Map.lean ====
section
/-! DEFINITION. Sparse maps: a list of key and value pairs in ONE canonical form, keys strictly rising and no value equal
to the default `d` that an unlisted key reads as. Memory, register files, tiles and tables of the machine are held so. -/

namespace Sys2Proof.Machine

/-- The value at key `k`; an unlisted key reads as the default. -/
def mapGet {β : Type} (d : β) : List (Nat × β) → Nat → β
  | [], _ => d
  | (k, v) :: rest, j => if j = k then v else if j < k then d else mapGet d rest j

/-- Insert or drop one key: the default removes the entry. -/
def mapPut {β : Type} [DecidableEq β] (d v : β) (k : Nat) (rest : List (Nat × β)) : List (Nat × β) :=
  if v = d then rest else (k, v) :: rest

/-- What follows key `k` in a map. -/
def mapAfter {β : Type} (k : Nat) : List (Nat × β) → List (Nat × β)
  | [] => []
  | (j, v) :: rest => if j ≤ k then mapAfter k rest else (j, v) :: rest

/-- The map with `v` at key `j`. -/
def mapSet {β : Type} [DecidableEq β] (d : β) (m : List (Nat × β)) (j : Nat) (v : β) : List (Nat × β) :=
  match m with
  | [] => mapPut d v j []
  | (k, w) :: rest =>
    if j = k then mapPut d v j (mapAfter j rest)
    else if j < k then mapPut d v j ((k, w) :: rest)
    else (k, w) :: mapSet d rest j v

/-- Every key of the map is above `lo`, keys rise strictly, and no value is the default. -/
def mapAbove {β : Type} [DecidableEq β] (d : β) (lo : Nat) : List (Nat × β) → Bool
  | [] => true
  | (k, v) :: rest => decide (lo ≤ k) && decide (v ≠ d) && mapAbove d (k + 1) rest

/-- The canonical form. -/
def mapWf {β : Type} [DecidableEq β] (d : β) (m : List (Nat × β)) : Bool := mapAbove d 0 m

end Sys2Proof.Machine
end

