-- ==== Sys2Proof/Machine/State.lean ====
section
/-! DEFINITION. The state of a KV8 package: every piece of state the manual names (INVENTORY.md lists them with their
rules), as plain data, and the state after reset. -/

namespace Sys2Proof.Machine

/-- Why the machine stops. -/
inductive Fault where
  /-- Raised by `step` alone: every die is powered off (spec/27 R455) and no power-on reset is pending, so nothing in the
  package can act. Safe: the machine stops where the hardware does nothing. -/
  | poweredOff
  deriving DecidableEq, Repr

/-- Why an instruction has no meaning. -/
inductive Refusal where
  /-- Raised only by an arm of `exec` whose meaning is not written. Safe: the machine stops. -/
  | notModelled (mnemonic : String)
  deriving DecidableEq, Repr

/-- Why a team is parked (R405, R318, R345, R407, R452, R351). -/
inductive ParkReason where
  | sys | preempt | cap | debug | dieHalt | quiesce
  deriving DecidableEq, Repr

/-- What a team waits for inside its instruction. -/
inductive WaitOn where
  /-- LDFE at its bank (R248). -/
  | granule
  /-- BAR.WAIT (R256). -/
  | barrier
  /-- An arrival held at the bank (R256), or held until the object is initialised (R255). -/
  | arrival
  /-- WAITC (R253). -/
  | counter
  /-- CAP.ENTER at the service team, or the displaced case of a capsule instruction (R259, R302). -/
  | capsule
  /-- SYSC whose entry waits for the ring (R312). -/
  | ring
  /-- RESUME (R288). -/
  | done
  /-- A blocking instruction of R369 in an ordered launch. -/
  | quantum
  /-- A read of a byte in a lower block's write range, which the completion of that block lets go on (R374). -/
  | lower (blk : BitVec 32)
  /-- A spent quota of request entries (R325), an engine class at 63 (R65), or leave for MMA.ARRAY (R278). -/
  | resource
  deriving DecidableEq, Repr

/-- What a team context is doing. -/
inductive Status where
  | vacant
  | ready
  | waiting (w : WaitOn)
  /-- SYSC posted: the reply with this token continues the team (R312). -/
  | sysc (token : Word)
  /-- EXIT has issued; the team ends once its outstanding work is complete (R36). -/
  | exiting
  /-- Halted with its cause (R403). -/
  | halted (cause : Byte)
  deriving DecidableEq, Repr

/-- An entry of the divergence stack (R206). -/
structure DivEntry where
  r : Word
  s : Mask
  p : Mask
  deriving DecidableEq, Repr

/-- An entry of the loop stack (R202). -/
structure LoopEntry where
  start : Word
  stop : Word
  count : Nat
  deriving DecidableEq, Repr

/-- EM and the stacks set aside by a redirection (R400). -/
structure SetAside where
  em : Mask
  dstk : List DivEntry
  lstk : List LoopEntry
  /-- The frame written at the redirection and the PC recorded in it (R171: a return to it unchanged is not checked). -/
  frame : Word
  pc : Word
  cause : Byte
  deriving DecidableEq, Repr

/-- The destination of a result on its way. -/
inductive Dest where
  | scal (r : SReg)
  | vec (r : VReg)
  deriving DecidableEq, Repr

/-- Where the value of an outstanding producer comes from. -/
inductive FillSrc where
  /-- The values are known: (lane, value) for a vector, lane 0 for a scalar. -/
  | values (vs : List (Nat × Word))
  /-- The next rate broadcast, as RATE.GET.B (false) or RATE.GET.E (true) returns it (R285). -/
  | broadcast (eff : Bool)
  /-- Requests at service teams that have not been performed (R86); the replies so far. -/
  | requests (left : Nat) (vs : List (Nat × Word))
  /-- A product of the matrix array whose leave has not been given (R344): the first register of the product, which names its
  request, and the values. -/
  | array (lead : Dest) (vs : List (Nat × Word))
  deriving DecidableEq, Repr

/-- An outstanding long-latency producer (R54). -/
structure Inflight where
  dest : Dest
  src : FillSrc
  poison : Bool
  deriving DecidableEq, Repr

/-- A capsule-holding entry (R305): the record and the instance the team entered, the continuation of its own CAP.ENTER, and
the continuation of the CAP.ENTER that began the instance, which ends the body (R294). -/
structure CapHold where
  rcd : Nat
  size : Nat
  inst : BitVec 32
  cont : Word
  bodyEnd : Word
  deriving DecidableEq, Repr

/-- A store or request that an ordered team has buffered in its quantum (R370, R371), or a capsule's buffered store. -/
structure BufStore where
  loc : Nat
  data : List Byte
  deriving DecidableEq, Repr

/-- The element type a priced choice of a team distinguishes (R341). -/
structure Decider where
  /-- The option held: true is the second option of the table. -/
  second : Bool
  /-- TIME of the last evaluation. -/
  since : Nat
  deriving DecidableEq, Repr

/-- A request to a service team: one lane of an atomic (R85, R250). -/
structure AtomReq where
  op : AtomOp
  loc : Nat
  dw : Bool
  sx : Bool
  x : Word
  cmp : Word
  lane : Nat
  dest : Option Dest
  deriving DecidableEq, Repr

/-- A request that holds its team until the reply (R426): to a scratchpad bank (LDFE) or to the owning service team. -/
inductive SvcReq where
  | ldfe (loc n : Nat) (clear : Bool)
  | qpush (hdr : Nat) (v : Word)
  | qpop (hdr : Nat)
  | tqget (hdr : Nat)
  | tqadd (hdr : Nat) (a b : Word)
  | tqfill (hdr : Nat) (counts : Word) (nb t : Nat)
  | capEnter (rcd size : Nat) (next cont : Word)
  | capCommit (next : Word)
  | capExit (next : Word)
  | capAbort
  deriving DecidableEq, Repr

/-- A reply: the cause, code, access kind and address of a failure found there (R426; no address: the object's), or CC.F
and the values returned. -/
structure SvcReply where
  err : Option (Byte × Nat × Nat × Option Word) := none
  full : Bool := false
  vals : List Word := []
  poison : Bool := false
  /-- No reply: the service team's own access is held on its way (R357, R452). -/
  held : Bool := false
  deriving DecidableEq, Repr

/-- What an ordered team has asked for in its quantum, in program order (R370). -/
inductive OrdReq where
  | store (b : BufStore)
  | atom (r : AtomReq)
  | eng (op : Nat)
  | barInit (obj expa defb : Nat) (x : Bool)
  | barExpb (obj n : Nat)
  deriving DecidableEq, Repr

/-- An ordered team's arrival at a barrier object (R376): whether it is a BAR.ARRX, and the phase it was counted into. -/
structure OrdArrival where
  obj : Nat
  cross : Bool
  phase : Option (BitVec 32)
  deriving DecidableEq, Repr

/-- What the second instruction of a pair sees as it stood before the first issued (R179, R180): MODE, RATEO, FCONT, FFRAME,
CNT and QNT. -/
structure Shadow where
  mode : BitVec 6
  rateo : BitVec 32
  fcont : Word
  fframe : Word
  cnt : Word
  qnt : Nat
  deriving DecidableEq, Repr

/-- A team: its registers, masks, stacks, flags and special registers (spec/03), and where it stands. -/
structure Team where
  place : Place := ⟨0, 0, 0⟩
  status : Status := .vacant
  parks : List ParkReason := []
  -- from the launch and the placement
  part : BitVec 4 := 0
  asid : BitVec 13 := 0
  launch : BitVec 32 := 0
  blk : BitVec 32 := 0
  teamId : BitVec 6 := 0
  lanes : Nat := 32
  vregCount : Nat := 16
  prio : BitVec 2 := 0
  stklim : Nat := 0
  prvbase : Word := 0
  ctl : Bool := false
  -- architectural registers
  pc : Word := 0
  sregs : List (Nat × Word) := []
  vregs : List (Nat × Word) := []
  masks : List (Nat × Mask) := []
  em : Mask := 0
  cc : BitVec 7 := 0
  mode : BitVec 6 := 0
  cmode : BitVec 6 := 0
  useCmode : Bool := false
  rateo : BitVec 32 := 0x00010000
  pix : Word := 0
  cntCpy : BitVec 6 := 0
  cntMxa : BitVec 6 := 0
  cntGth : BitVec 6 := 0
  cntCol : BitVec 6 := 0
  fcont : Word := 0
  fframe : Word := 0
  dstk : List DivEntry := []
  lstk : List LoopEntry := []
  qnt : Nat := 0
  -- full/empty and poison bits: a listed register is empty (poisoned)
  sEmpty : BitVec 64 := 0
  vEmpty : BitVec 128 := 0
  sPoison : BitVec 64 := 0
  vPoison : BitVec 128 := 0
  inflight : List Inflight := []
  -- stops
  setAsides : List SetAside := []
  bkpt : Bool := false
  /-- The number of its last stop: RESYNC lists stopped teams, the oldest first (R458). -/
  stopNo : Nat := 0
  /-- An uncorrectable error found in its registers or context: it halts at its next instruction with this CODE (R444). -/
  softErr : Option (BitVec 11) := none
  -- capsules
  held : Option CapHold := none
  displaced : Option CapHold := none
  mystep : Nat := 0
  capBuf : List BufStore := []
  capCount : Nat := 0
  pairShadow : Option Shadow := none
  inPair : Bool := false
  -- scheduling
  boosted : Bool := false
  /-- The turns for which it has been ready without issuing (R45). -/
  readyTurns : Nat := 0
  /-- YIELD ranks it last until this turn of the machine (R212). -/
  yieldUntil : Nat := 0
  runSince : Nat := 0
  -- deciders (R341)
  mma8 : Option Decider := none
  mma16 : Option Decider := none
  cpyPath : Option Decider := none
  /-- The engine that an MMA.ANY which waits has chosen at its issue: true is the lanes (R354). -/
  chosen : Option Bool := none
  -- ordered mode
  obuf : List OrdReq := []
  closed : Bool := false
  /-- The request of a blocked instruction, performed at the quantum end (R370), and its reply. -/
  request : Option SvcReq := none
  reply : Option SvcReply := none
  /-- Its instruction has passed its checks and waits for the reply of a bank, a service team or a quantum end. -/
  asked : Bool := false
  /-- The instruction that has asked, which is not fetched again before its reply. -/
  op : Option Instr := none
  /-- The tables of R325 whose spent quota this instruction has already waited for (R326). -/
  spent : List Nat := []
  /-- A cancel awaits the reply of its capsule request (R299). -/
  cancelling : Bool := false
  /-- A quantum end has let a blocked instruction look at its condition again. -/
  granted : Bool := false
  arrival : Option OrdArrival := none
  -- waits
  waitReported : Bool := false
  deriving DecidableEq, Repr

/-- A matrix plane: zero, or what was expanded into it (R136) as element and scale codes, or unspecified (R272).
`mark` numbers the elements that the manual leaves unspecified. -/
structure Plane where
  zero : Bool := true
  fmt : Fmt := .fp16
  daz : Bool := false
  sbl : Nat := 16
  bf16Scale : Bool := false
  codes : List (Nat × Nat) := []
  scales : List (Nat × Nat) := []
  openPlane : Bool := false
  mark : Nat := 0
  deriving DecidableEq, Repr

/-- The state of one core outside its teams. -/
structure CoreState where
  acc0 : List (Nat × BitVec 32) := []
  acc1 : List (Nat × BitVec 32) := []
  int0 : Bool := false
  int1 : Bool := false
  live : Plane := {}
  shadow : Plane := {}
  section64 : Nat := 0
  points : List (Nat × Nat) := []
  powered : BitVec 5 := 31
  waking : BitVec 5 := 0
  /-- TIME of the last work of each island (R346). -/
  lastUse : List (Nat × Nat) := []
  lastIssuer : Nat := 0
  deriving DecidableEq, Repr

/-- A block whose scratchpad allocation is resident (R70); `half` is the half of a straddling block (R30). -/
structure Block where
  part : BitVec 4
  launch : BitVec 32
  blk : BitVec 32
  die : BitVec 4
  core : BitVec 6
  straddle : Bool
  half : Bool
  off : Nat
  size : Nat
  deriving DecidableEq, Repr

/-- A kernel descriptor as read (R316). -/
structure KDesc where
  entry : Word := 0
  lanes : Nat := 32
  teams : Nat := 1
  vregs : Nat := 16
  spad : Nat := 0
  straddle : Bool := false
  ordered : Bool := false
  stklim : Nat := 0
  quant : Nat := 0
  /-- Write ranges: register number a, stride and size in bytes. -/
  wr : List (Nat × Nat × Nat) := []
  deriving DecidableEq, Repr

/-- A buffered floating addition of an ordered launch (R377). -/
structure OrdFadd where
  blk : Nat
  team : Nat
  place : Place
  req : AtomReq
  deriving DecidableEq, Repr

/-- The kind of a level of R38. -/
inductive LevelKind where
  | launch | graph | phase | job
  deriving DecidableEq, Repr

/-- A launch, graph instance, phase or job that is not complete (R38, R39). -/
structure Level where
  kind : LevelKind
  part : BitVec 4
  handle : Word
  /-- Serial number of the level, in the order of submission. -/
  serial : Nat
  parent : Option Nat := none
  children : Nat := 0
  ended : Bool := false
  cancelled : Bool := false
  cancelPending : Bool := false
  err : Byte := 0
  /-- Cause of the halt of one of its teams that the hall recorded first (R403). -/
  haltCause : Byte := 0
  tag : BitVec 32 := 0
  compl : Word := 0
  casid : BitVec 13 := 0
  -- a launch
  launch : BitVec 32 := 0
  asid : BitVec 13 := 0
  queue : BitVec 6 := 0
  prio : BitVec 2 := 0
  kd : KDesc := {}
  blocks : Nat := 0
  next : Nat := 0
  dieTurn : Nat := 0
  priv : Word := 0
  args : List Word := []
  tqhdr : List Word := []
  wbase : List Word := []
  ctl : Bool := false
  fadds : List OrdFadd := []
  /-- Memory as the launch's last quantum end left it, or as the launch found it: what its loads return (R371). -/
  view : List Host.Cell := []
  doneBlks : List (BitVec 32) := []
  /-- An ordered launch's stall has been reported since a quantum end last unblocked a team (R443). -/
  stallReported : Bool := false
  -- a graph instance
  store : BitVec 8 := 0
  node : Nat := 0
  nodeDone : List Nat := []
  nodeLive : List Nat := []
  /-- Nodes that have waited for a spent quota of dispenser rings (R325, R326). -/
  nodeSpent : List Nat := []
  edgeSlots : List (Nat × Nat) := []
  edgeTokens : List (Nat × List (BitVec 32)) := []
  image : List LaunchRec := []
  imageAsid : List (BitVec 16) := []
  edges : List (Nat × Nat × Bool × Nat) := []
  deriving DecidableEq, Repr

/-- A graph store's contents (R322, R323): node records with their ASIDs, and edges (from, to, token, cap). -/
structure GraphImage where
  nodes : List LaunchRec := []
  asids : List (BitVec 16) := []
  edges : List (Nat × Nat × Bool × Nat) := []
  deriving DecidableEq, Repr

/-- A command that has been taken and has not begun: it holds its queue (R311). What was fixed as it was taken stands with
it: the kernel descriptor read (R315), the level it is a child of (R311), its launch number (R464), and the graph store's
contents (R322). -/
structure HeldCmd where
  cmd : Instr
  kd : KDesc := {}
  parent : Option Nat := none
  number : BitVec 32 := 0
  image : GraphImage := {}
  /-- The tables of R325 whose spent quota it has already waited for (R326). -/
  spent : List Nat := []
  /-- The number of its taking, which orders RATE.WRITEs (R335). -/
  order : Nat := 0
  deriving DecidableEq, Repr

/-- What completing a command needs: its handle, TAG and completion word (R309, R310). -/
structure CmdRef where
  part : BitVec 4
  handle : Word
  tag : BitVec 32
  compl : Word
  asid : BitVec 13
  deriving DecidableEq, Repr

/-- A command queue (R308). -/
structure Queue where
  base : BitVec 44 := 0
  asid : BitVec 13 := 0
  en : Bool := false
  prio : BitVec 2 := 0
  qerr : Bool := false
  logn : BitVec 5 := 0
  head : Word := 0
  tail : Word := 0
  held : Option HeldCmd := none
  deriving DecidableEq, Repr

/-- A subscription (R349). -/
structure Sub where
  id : BitVec 8
  kind : BitVec 8
  dir : BitVec 8
  die : BitVec 8
  value : BitVec 32
  note : Word
  asid : BitVec 13
  /-- The last value seen of each die (0xFF for a package value). -/
  last : List (Nat × Nat)
  deriving DecidableEq, Repr

/-- A partition: its administrative registers, its function's registers and its tables. -/
structure Part where
  pclus : BitVec 48 := 0
  pmem : BitVec 48 := 0
  asidBase : BitVec 13 := 0
  asidCount : BitVec 14 := 0
  en : Bool := false
  prmul : BitVec 32 := 0x00010000
  ovlo : BitVec 32 := 0x00004000
  ovhi : BitVec 32 := 0x00040000
  mulForce : BitVec 32 := 0x00010000
  loForce : BitVec 32 := 0x00004000
  hiForce : BitVec 32 := 0x00040000
  quotas : List (BitVec 32) := [0, 0, 0, 0, 0, 0, 0]
  hpasidEn : Bool := false
  hpasid : BitVec 20 := 0
  dbgAttach : Bool := false
  dbgHalt : Bool := false
  dbgLast : BitVec 32 := 0
  queues : List (Nat × Queue) := []
  scBase : BitVec 45 := 0
  scAsid : BitVec 13 := 0
  scEn : Bool := false
  scIe : Bool := false
  scOvf : Bool := false
  scLogn : BitVec 5 := 4
  scHead : Word := 0
  scTail : Word := 0
  scLost : Word := 0
  msix : Nat := 0
  spBase : BitVec 36 := 0
  spSize : BitVec 32 := 0
  rdq : BitVec 36 := 0
  attAddr : BitVec 40 := 0
  /-- The address of the report under way. -/
  attRun : BitVec 40 := 0
  attErr : Bool := false
  attBusy : Bool := false
  thr : List (Nat × Word) := []
  sec : List (Nat × Word) := []
  seu : List (Nat × Word) := []
  launchNo : BitVec 32 := 0
  graphs : List (Nat × Option GraphImage) := []
  pendCancels : List (Word × Nat) := []
  openPhase : Option Nat := none
  openJob : Option Nat := none
  /-- Handles of commands taken and not yet complete (R309). -/
  pending : List Word := []
  /-- Handles of commands that completed with the cancelled flag (R327). -/
  cancelled : List Word := []
  subs : List Sub := []
  notifySeq : BitVec 16 := 0
  /-- AtomicOp Requester Enable of the function's Device Control 2 (R433). PRESUMED, log 74. -/
  atomicEn : Bool := false
  resetting : Bool := false
  deriving DecidableEq, Repr

/-- An engine operation's work, as its descriptor and the instruction give it (R268-R283). -/
inductive EngWork where
  | cpy (run src dst : Nat) (path : Nat) (dims : List (Nat × Int × Int))
  | gath (scatter : Bool) (nrows rowb src dst idx : Nat) (spitch dpitch : Int)
  | sortc (kw : Nat) (splitters : Bool) (n nb keys split counts offs perm : Nat)
  | coll (op : Nat) (dtype : Fmt) (rop : Nat) (peer : Bool) (me np root set tag count src dst : Nat)
  | mxls (base : Nat) (fb : List Byte)
  | mxswap
  | mxloop (tile : Bool) (chain : Nat) (pos : Nat) (z keep : Bool) (groups : List (List Nat)) (fb : List Byte)
  | mxacc (tile : Bool) (dst : Nat) (pitch : Int) (rows : Nat) (fmt : Fmt) (clr : Bool)
  deriving DecidableEq, Repr

/-- Where an engine operation stands. -/
inductive EngState where
  /-- Waiting for leave (R344). -/
  | leave
  | running
  /-- Paused on a fault (R434): the cause, the address, whether it was a write, and whether a WAITC has reported it. -/
  | paused (cause : Byte) (addr : Word) (write : Bool) (reported : Bool)
  /-- A descriptor error (R279), reported at WAITC. -/
  | badDesc
  /-- Abandoned at a read or a write of poison, reported at WAITC (R445). -/
  | poisoned (write : Bool)
  /-- An engine write outside the block's ranges (R437). -/
  | rangeFault (addr : Word)
  /-- Every unit performed; it retires in its class's order. -/
  | finished
  deriving DecidableEq, Repr

/-- An engine operation outstanding (R98, R279, R434). -/
structure EngOp where
  id : Nat
  cls : EClass
  counted : Bool := true
  work : EngWork
  place : Place
  launch : BitVec 32
  blk : BitVec 32
  part : BitVec 4
  asid : BitVec 13
  mode : BitVec 6
  desc : Word := 0
  bar : Option Nat := none
  state : EngState := .running
  /-- Units performed. -/
  unit : Nat := 0
  /-- Bytes landed and not yet counted into the barrier object. -/
  uncounted : Nat := 0
  /-- Granules that the operation's writes have touched. -/
  touched : List Nat := []
  /-- Results held between units: a SORTC's buckets, a COLL's own contribution. -/
  buckets : List Nat := []
  /-- Ordered launches: the quantum end that starts it has been taken (R375), and the writes that the next one applies. -/
  started : Bool := true
  pending : List BufStore := []
  /-- PROGRESS has been written into the descriptor (R434, R435). -/
  wroteProgress : Bool := false
  begun : Bool := false
  /-- A matrix loop's first K-step has begun: it holds the array (R278). -/
  atArray : Bool := false
  /-- The command that a COPY completes. -/
  command : Option CmdRef := none
  deriving DecidableEq, Repr

/-- A request held at a scratchpad bank, in arrival order (R82, R255): a byte count, a cross notice, a BAR.EXPB, the LDFE,
arrival or BAR.WAIT of a team that waits for the reply, or the arrival that a quantum end counts for a team (R376). -/
inductive BankReq where
  | bytes (obj : Nat) (n : Nat) (part : BitVec 4) (t : Place)
  | notice (obj : Nat)
  | expb (obj : Nat) (n : Nat)
  | ldfe (loc n : Nat) (clear : Bool) (t : Place)
  | arrive (obj : Nat) (cross : Bool) (t : Place)
  | await (obj phase : Nat) (t : Place)
  | count (obj : Nat) (cross : Bool) (t : Place)
  deriving DecidableEq, Repr

/-- What a bank keeps of a cross object beside its words (R257): the current phase is complete locally, and the notices
received ahead. -/
structure CrossObj where
  obj : Nat
  localDone : Bool
  noticed : Nat
  deriving DecidableEq, Repr

/-- A write of STATE asked of a service team by a descheduling or a resume (R300). -/
structure CapWrite where
  place : Place
  run : Bool
  rcd : Nat
  owner : Word
  deriving DecidableEq, Repr

/-- A saved context (R405): the number of its saving, which fixes the bytes of its area, its size and the team. -/
structure Saved where
  serial : Nat
  size : Nat
  team : Team
  deriving DecidableEq, Repr

/-- A byte that an L1 holds dirty, with the team that stored it last. `whole`: its line was taken by a store of all its bytes,
and nothing in it comes from the home (R445, R460). -/
structure DirtyByte where
  b : Byte
  part : BitVec 4
  place : Place
  whole : Bool := false
  deriving DecidableEq, Repr

/-- What a pre-emption saved of one victim core (R318), with what its parked allocations' barrier objects held (R439). -/
structure Preempted where
  part : BitVec 4
  die : BitVec 4
  core : BitVec 6
  prio : BitVec 2
  teams : List Team
  blocks : List Block
  /-- The core's matrix operations outstanding, and its matrix state. -/
  ops : List EngOp
  matrix : CoreState
  spad : List (Nat × Byte)
  full : List Nat
  tags : List Nat
  bank : List BankReq
  cross : List CrossObj
  /-- Bytes that its save areas take from the pool (R319). -/
  need : Nat
  deriving DecidableEq, Repr

/-- What a gated cluster saved (R351). -/
structure Gate where
  st : BitVec 3 := 0
  req : BitVec 3 := 0
  err : Bool := false
  save : BitVec 36 := 0
  deriving DecidableEq, Repr

/-- A line that a cache holds, with the ASID whose access allocated it (R80). -/
structure CacheLine where
  line : Nat
  asid : BitVec 13
  deriving DecidableEq, Repr

/-- A victim core of a pre-emption whose teams have not all stopped: some await the reply of a capsule request (R299). Its save
areas are taken from the pool already (R319). -/
structure Preempting where
  part : BitVec 4
  core : Nat
  prio : BitVec 2
  need : Nat
  deriving DecidableEq, Repr

/-- The decider of an island's operating point (R341, R342, R347): point 0 is NT, 1 to 6 are VF0 to VF5. -/
structure PointSel where
  core : Nat
  island : Nat
  point : Nat
  since : Nat
  deriving DecidableEq, Repr

/-- A region of the annex directory (R78, R465), with what the current window has counted of it (R360). -/
structure Region where
  reg : Nat
  deg : Nat := 0
  hint : Nat := 0
  hintDeg : Nat := 0
  holders : List Nat := []
  /-- Annexes: (die, line number). -/
  lines : List (Nat × Nat) := []
  /-- A and W of R360. -/
  accesses : Nat := 0
  writes : Nat := 0
  /-- The dies that have read at all. -/
  readers : List Nat := []
  /-- Rj: reads of lines homed elsewhere, by die; and the distinct lines among them: (die, line number), which Lj counts. -/
  reads : List (Nat × Nat) := []
  readLines : List (Nat × Nat) := []
  /-- Annex hits by die in this window and in the last one (R362). -/
  hits : List (Nat × Nat) := []
  lastHits : List (Nat × Nat) := []
  deriving DecidableEq, Repr

/-- An open span of a report (R429). -/
structure Span where
  part : BitVec 4
  rep : Byte
  target : Word
  addr : Word
  time : Nat
  count : Nat
  deriving DecidableEq, Repr

/-- A request for leave at a die's arbiter (R344). -/
inductive LeaveReq where
  | op (id : Nat)
  | wake (core : BitVec 6) (island : BitVec 3)
  | mma (t : Place) (d : Dest)
  deriving DecidableEq, Repr

/-- The power and thermal state of a compute die. -/
structure DieState where
  slew : BitVec 16 := 40
  cap : BitVec 16 := 450
  surcharge : BitVec 8 := 0
  iavg : BitVec 16 := 0
  /-- The TIME and the current of each grant of the last microsecond (R344). -/
  grants : List (Nat × Nat) := []
  /-- Requests waiting at the arbiter, in arrival order, each with the TIME when it was made. -/
  leave : List (LeaveReq × Nat) := []
  wakes : List (BitVec 6 × BitVec 3) := []
  ttrip : Byte := 110
  twarn : Byte := 95
  temp : BitVec 16 := 0
  brch : Byte := 0
  halved : Bool := false
  /-- TIME when the cap last bound (R345). -/
  lastBound : Option Nat := none
  deriving DecidableEq, Repr

/-- A link's step (1 to 4 quarters) and its retraining (R357, R447). -/
structure LinkState where
  step : Nat := 4
  prev : Nat := 4
  tries : Nat := 0
  retraining : Bool := false
  down : Bool := false
  /-- TIME of its last step. -/
  stepped : Option Nat := none
  deriving DecidableEq, Repr

/-- A peer's request that has arrived over a Folros Link (R390): its link, the partition number it carries, and what it asks. -/
structure HeldPeer where
  link : BitVec 4
  tag : BitVec 4
  req : PeerReq
  deriving DecidableEq, Repr

/-- A write of the hall's that is held on its way, in the order of the writes (R357, R452). -/
structure HallOut where
  part : BitVec 4
  loc : Nat
  data : List Byte
  deriving DecidableEq, Repr

/-- RCVR (R456). -/
structure Rcvr where
  addr : BitVec 40 := 0
  /-- The address at which the recovery under way reads its image. -/
  run : BitVec 40 := 0
  status : BitVec 4 := 0
  commit : Bool := false
  busy : Bool := false
  deriving DecidableEq, Repr

/-- PKSTAT (R446). -/
structure Pkstat where
  seq : BitVec 16 := 0
  lost : BitVec 8 := 0
  mlost : BitVec 4 := 0
  bdown : BitVec 4 := 0
  fdown : BitVec 12 := 0
  trip : BitVec 8 := 0
  halted : BitVec 8 := 0
  rcv : Bool := false
  deriving DecidableEq, Repr

/-- A request held for a halted die or a lost one, and requests that arrive from a peer. -/
structure SvcEntry where
  cluster : Nat
  part : BitVec 4
  place : Place
  launch : BitVec 32
  req : AtomReq
  deriving DecidableEq, Repr

/-- The package. -/
structure State where
  /-- The team whose instruction executes next or last. -/
  team : Team := {}
  /-- Every other resident team. -/
  others : List Team := []
  /-- Device, CXL, host and peer memory and the scratchpads, by location (Machine/Locate.lean numbers them;
  log 60). A location that is not listed reads 0: DESIGN CHOICE, log 5. -/
  mem : List Host.Cell := []
  /-- Bytes that a core's L1 holds dirty: (core and location, byte). -/
  dirty : List (Nat × Option DirtyByte) := []
  /-- The lines of each core's L1 and of each die's L2, the most recently used first (R12, R13, R80). -/
  l1 : List (Nat × List CacheLine) := []
  l2 : List (Nat × List CacheLine) := []
  /-- Full granules of the scratchpads, by location / 16 (R81). -/
  full : List Nat := []
  /-- Initialised barrier objects, by location (R439). -/
  tags : List Nat := []
  /-- Lock records that an instance holds (HELD = 1), by location (R292). -/
  locks : List Nat := []
  /-- The continuation of the CAP.ENTER that began each held record's instance: the end of its body (R294). -/
  bodies : List (Nat × Word) := []
  /-- Poisoned lines (location / 128) and granules (location / 16) (R444). -/
  poisonLines : List Nat := []
  poisonGranules : List Nat := []
  bank : List BankReq := []
  cross : List CrossObj := []
  notices : List Nat := []
  cores : List (Nat × CoreState) := []
  blocks : List Block := []
  engines : List EngOp := []
  service : List SvcEntry := []
  /-- CAP.ENTERs waiting at a service team, in arrival order: record and team (R302). -/
  capWait : List (Nat × Place) := []
  capWrites : List CapWrite := []
  saved : List Saved := []
  preempted : List Preempted := []
  preempting : List Preempting := []
  levels : List Level := []
  /-- CANCELs whose counters have not all fallen (R327): the command and the level's serial. -/
  cancels : List (CmdRef × Nat) := []
  parts : List (Nat × Part) := []
  /-- ASID table: words 0 and 1 of each entry (R74). -/
  asid0 : List (Nat × Word) := []
  asid1 : List (Nat × Word) := []
  gates : List (Nat × Gate) := []
  annex : List Region := []
  /-- The annex directory's windows that have ended (R360). -/
  window : Nat := 0
  /-- HITS, FILLS and COLLS of each partition and die (R363): key part × 32 + die × 4 + word. -/
  annexCnt : List (Nat × Word) := []
  spans : List Span := []
  dies : List (Nat × DieState) := []
  points : List PointSel := []
  links : List (Nat × LinkState) := []
  /-- Requests of peers held on their way, in arrival order (R357, R452). -/
  peerHeld : List HeldPeer := []
  /-- Writes of the hall held on their way (R357, R452). -/
  hallOut : List HallOut := []
  -- the hall
  time : Nat := 0
  target : BitVec 32 := 0x00010000
  /-- The model's own: the taking of the RATE.WRITE that set it (R335). -/
  targetOrder : Nat := 0
  /-- The last broadcast and its number, as every core's RATE register holds them (R63). -/
  rate : BitVec 32 := 0x00010000
  seq : BitVec 16 := 0
  dlive : List (BitVec 48) := []
  pkstat : Pkstat := {}
  diehalt : BitVec 8 := 0
  rcvr : Rcvr := {}
  cxlBase : List (Nat × Word) := []
  cxlDpa : List (Nat × Word) := []
  cxlCfg : List (Nat × Word) := []
  fxBase : List (Nat × Word) := []
  fxCfg : List (Nat × Word) := []
  port : Option PortMode := none
  powered : Bool := true
  booted : Bool := true
  imageVersion : Word := 0
  /-- The digest of the image that runs (R394). -/
  imageDigest : BitVec 512 := 0
  /-- SYSCs posted by each context, which make their tokens (R312): key the target word. -/
  syscSeq : List (Nat × Nat) := []
  /-- What comes to the package from outside, oldest first (host writes, events): spec/95's events and register writes. -/
  inbox : List Instr := []
  -- counters at which values the manual leaves open are taken
  fresh : Nat := 0
  serial : Nat := 0
  ctlTurn : Nat := 0
  /-- The model's own: the last dirty byte of the line written back last, after which the next is taken. -/
  wbTurn : Nat := 0
  partTurn : Nat := 0
  /-- The next queue in the turn of each partition and PRIO (R317): key partition × 4 + PRIO. -/
  queueTurn : List (Nat × Nat) := []
  ctlCore : Nat := 0
  deriving DecidableEq, Repr

/-- The canonical form of memory: addresses strictly rising, and no entry equal to what an unlisted address reads as. -/
def Memory.wf (m : List Host.Cell) : Bool := mapWf 0 m

/-- Partition 0 after power-on: every live cluster, every slice, every ASID, the package totals (R385, R392). -/
def Part.zeroAtReset : Part :=
  { pclus := BitVec.allOnes 48, pmem := BitVec.allOnes 48, asidCount := 8192, en := true,
    quotas := [1024, 8192, 24576, 1024, 12288, 512, 256] }

/-- The package at the end of power-on reset (R393, R335, R64): every core live, partition 0 configured, no team. The values
that the manual does not give are named in log 3: DESIGN CHOICE. -/
def State.reset : State :=
  { parts := [(0, Part.zeroAtReset)],
    dlive := [BitVec.allOnes 48, BitVec.allOnes 48, BitVec.allOnes 48, BitVec.allOnes 48, BitVec.allOnes 48,
              BitVec.allOnes 48, BitVec.allOnes 48, BitVec.allOnes 48] }

end Sys2Proof.Machine
end

