-- ==== Sys2Proof/Machine/Locate.lean ====
section
/-! DEFINITION. Where things are: the accessors of partitions, dies, cores and teams, the numbering of every byte the
package reaches as a location, address decoding (spec/04 R67-R70) and the page walk (R72, R73, spec/23 R386). -/

namespace Sys2Proof.Machine

/-! ### Accessors -/

def partOf (s : State) (p : BitVec 4) : Part := mapGet {} s.parts p.toNat
def setPart (s : State) (p : BitVec 4) (x : Part) : State := { s with parts := mapSet {} s.parts p.toNat x }
def dieOf (s : State) (d : Nat) : DieState := mapGet {} s.dies d
def setDie (s : State) (d : Nat) (x : DieState) : State := { s with dies := mapSet {} s.dies d x }
def gateOf (s : State) (c : Nat) : Gate := mapGet {} s.gates c
def setGate (s : State) (c : Nat) (x : Gate) : State := { s with gates := mapSet {} s.gates c x }

/-- A core's key: die × 64 + core. -/
def coreKey (die : BitVec 4) (core : BitVec 6) : Nat := die.toNat * 64 + core.toNat
def placeKey (p : Place) : Nat := coreKey p.die p.core
def coreAt (s : State) (k : Nat) : CoreState := mapGet {} s.cores k
def setCore (s : State) (k : Nat) (x : CoreState) : State := { s with cores := mapSet {} s.cores k x }

/-- A core that passed self-test and whose die is not lost (R18, R20). -/
def coreLive (s : State) (die : Nat) (core : Nat) : Bool :=
  die < 8 && core < 48 && (s.dlive.getD die 0).getLsbD core

/-- The cluster of a core: die × 6 + core / 8. -/
def clusterOf (die core : Nat) : Nat := die * 6 + core / 8

/-- The partition that a cluster belongs to, if any (R16, R392). -/
def partOfCluster (s : State) (c : Nat) : Option (BitVec 4) :=
  (s.parts.find? fun x => x.2.pclus.getLsbD c).map fun x => BitVec.ofNat 4 x.1

/-- The partition that a slice of device memory belongs to (R392). -/
def partOfSlice (s : State) (i : Nat) : Option (BitVec 4) :=
  (s.parts.find? fun x => x.2.pmem.getLsbD i).map fun x => BitVec.ofNat 4 x.1

/-- The team in a context: the current team or another resident one. -/
def teamAt (s : State) (p : Place) : Option Team :=
  if s.team.place = p && s.team.status != .vacant then some s.team
  else s.others.find? fun t => t.place = p

/-- Apply a change to the team of a context. -/
def mapTeam (s : State) (p : Place) (f : Team → Team) : State :=
  if s.team.place = p && s.team.status != .vacant then { s with team := f s.team }
  else { s with others := s.others.map fun t => if t.place = p then f t else t }

/-- Apply a change to every team. -/
def mapTeams (s : State) (f : Team → Team) : State := { s with team := f s.team, others := s.others.map f }

/-- A change to the teams that a pre-emption has saved. -/
def mapSaved (s : State) (f : Team → Team) : State :=
  { s with preempted := s.preempted.map fun x => { x with teams := x.teams.map f } }

/-- Every resident team. -/
def teamsOf (s : State) : List Team := (if s.team.status = .vacant then [] else [s.team]) ++ s.others

/-- The current team changed. -/
def State.upd (s : State) (f : Team → Team) : State := { s with team := f s.team }

/-- The target word that names a context (R289). -/
def targetWord (p : Place) : Word :=
  BitVec.ofNat 64 (p.ctx.toNat + p.core.toNat * 2 ^ 8 + p.die.toNat * 2 ^ 16)

/-- The context that a target word names, by its three fields; its other bits, which R289 gives as 0, are not looked at.
DESIGN CHOICE, log 70. -/
def placeOfTarget (w : Word) : Place :=
  ⟨BitVec.ofNat 4 (fld w 19 16), BitVec.ofNat 6 (fld w 13 8), BitVec.ofNat 5 (fld w 4 0)⟩

/-- The live launch of a partition with a launch number. -/
def levelOfLaunch (s : State) (p : BitVec 4) (n : BitVec 32) : Option Level :=
  s.levels.find? fun l => l.kind = .launch && l.part = p && l.launch = n

def mapLevel (s : State) (serial : Nat) (f : Level → Level) : State :=
  { s with levels := s.levels.map fun l => if l.serial = serial then f l else l }

/-- The number of a link in the link table: the hall ports of compute and memory dies, twin bridges, Folros Links. -/
def linkKey : Link → Nat
  | .compute d => d.toNat
  | .memory m => 8 + m.toNat
  | .twin i => 12 + i.toNat
  | .folros j => 16 + j.toNat

def linkOf (s : State) (k : Nat) : LinkState := mapGet {} s.links k
def setLink (s : State) (k : Nat) (x : LinkState) : State := { s with links := mapSet {} s.links k x }

/-- The links with a retraining window open, which hold their traffic (R357, R447). -/
def heldLinks (s : State) : List Nat := (s.links.filter fun x => x.2.retraining).map (·.1)

/-- The next serial number. -/
def bumpSerial (s : State) : State := { s with serial := s.serial + 1 }

/-! ### Locations

Every byte the package reaches has one number: device memory at its physical address, then host memory, the peers'
windows, the scratchpad sections, the device pages, and the memory behind each CXL port at its device address, each from a
multiple of 2^52. -/

def locBase (k : Nat) : Nat := k * 2 ^ 52
def locDevice (pa : Nat) : Nat := pa
def locHost (pa : Nat) : Nat := locBase 2 + pa
def locPeer (link pa : Nat) : Nat := locBase 3 + link * 2 ^ 41 + pa
def locScratch (die core off : Nat) : Nat := locBase 4 + die * 2 ^ 26 + core * 2 ^ 20 + off
def locPage (off : Nat) : Nat := locBase 5 + off
def locCxl (port dpa : Nat) : Nat := locBase 8 + port * 2 ^ 53 + dpa

/-- Which memory a location lies in (R67-R73). -/
inductive Target where
  | device | cxl | host | peer | scratch | page
  deriving DecidableEq, Repr

def targetOf (loc : Nat) : Target :=
  match loc / 2 ^ 52 with
  | 0 => .device
  | 2 => .host
  | 3 => .peer
  | 4 => .scratch
  | 5 => .page
  | _ => .cxl

/-- Core key of the scratchpad that a scratchpad location lies in. -/
def scratchCore (loc : Nat) : Nat :=
  let o := loc - locBase 4
  (o / 2 ^ 26) * 64 + o / 2 ^ 20 % 64

/-- Lines of the location are held in L1 and written back (R76). -/
def cachedLoc (s : State) (loc : Nat) : Bool :=
  match targetOf loc with
  | .device | .cxl => true
  | .host => (s.port.map fun m => m.cxl).getD false
  | _ => false

/-- The home die of a location's line (R77). -/
def homeDie (loc : Nat) : Nat :=
  match targetOf loc with
  | .scratch => (loc - locBase 4) / 2 ^ 26
  | _ => Config.homeDie (loc / 4096) % 8

/-- The cluster whose service team owns a location (R85). -/
def ownerCluster (loc : Nat) : Nat :=
  match targetOf loc with
  | .scratch => clusterOf (scratchCore loc / 64) (scratchCore loc % 64)
  | _ => Config.serviceCluster (loc / 4096) % 48

/-! ### Address decoding -/

/-- What an access needs of its leaf (R73). -/
inductive Access where
  | rd | wr | atomic | fetch | none
  deriving DecidableEq, Repr

def Access.kind : Access → Nat
  | .rd => 0 | .wr => 1 | .atomic => 2 | .fetch => 3 | .none => 5

def localBase : Nat := 0x7F0000000000
def apertureBase : Nat := 0x7E0000000000
def pageBase : Nat := 0x7F8000000000

/-- Who makes an access: the partition, the ASID, and for a team its context, launch and block. -/
structure Who where
  part : BitVec 4
  asid : BitVec 13
  place : Place
  launch : BitVec 32
  blk : BitVec 32
  deriving DecidableEq, Repr

def Team.who (t : Team) : Who := ⟨t.part, t.asid, t.place, t.launch, t.blk⟩
def EngOp.who (o : EngOp) : Who := ⟨o.part, o.asid, o.place, o.launch, o.blk⟩

/-- The allocation of the accessor's block that a local-window offset reaches, with the offset inside it (R69). -/
def localBlock (s : State) (w : Who) (off : Nat) : Option (Block × Nat) :=
  let mine := fun b : Block => b.part = w.part && b.launch = w.launch && b.blk = w.blk
  match s.blocks.find? fun b => mine b && (b.straddle || (b.die = w.place.die && b.core = w.place.core)) with
  | none => none
  | some b =>
    if b.straddle then
      let h := off / 2 ^ 20 % 2 == 1
      (s.blocks.find? fun c => mine c && c.half == h).map fun c => (c, off % 2 ^ 20)
    else some (b, off)

/-- Scratchpad section of a core in bytes (R33). -/
def sectionBytes (s : State) (k : Nat) : Nat := (coreAt s k).section64 * 65536

/-- Decoding of the three windows (R68-R70): none for a translated address. -/
def decodeWindow (s : State) (w : Who) (va n : Nat) (acc : Access) : Option (Except Byte Nat) :=
  if localBase ≤ va && va < localBase + 2 ^ 21 then
    if w.place.die = 8 then some (.error 0x12)
    else
      match localBlock s w (va - localBase) with
      | some (b, off) =>
        if off + n ≤ b.size then some (.ok (locScratch b.die.toNat b.core.toNat (b.off + off))) else some (.error 0x12)
      | none => some (.error 0x12)
  else if apertureBase ≤ va && va < apertureBase + 2 ^ 29 then
    let a := va - apertureBase
    let die := a / 2 ^ 26
    let core := a / 2 ^ 20 % 64
    let off := a % 2 ^ 20
    if coreLive s die core && partOfCluster s (clusterOf die core) = some w.part
      && off + n ≤ sectionBytes s (die * 64 + core) then
      some (.ok (locScratch die core off))
    else some (.error 0x12)
  else if pageBase ≤ va && va < pageBase + 0x2000 then
    if acc = .rd && va + n ≤ pageBase + 0x2000 then some (.ok (locPage (va - pageBase))) else some (.error 0x12)
  else none

/-- A byte at its point of coherence, as a walker, a service team or an engine reads it. -/
def memByte (s : State) (loc : Nat) : Byte := mapGet 0 s.mem loc

def memNat (s : State) (loc : Nat) : Nat → Nat
  | 0 => 0
  | n + 1 => (memByte s loc).toNat + 256 * memNat s (loc + 1) n

/-- A location's line is poisoned, or its granule (R444). -/
def poisoned (s : State) (loc : Nat) : Bool :=
  s.poisonLines.contains (loc / 128) || s.poisonGranules.contains (loc / 16)

/-- An address lies in a memory slice of the partition (R392). -/
def ownSlice (s : State) (p : BitVec 4) (pa : Nat) : Bool := pa / 2 ^ 35 < 48 && (partOf s p).pmem.getLsbD (pa / 2 ^ 35)

/-! ### CXL memory (R385, R389) -/

/-- A decoder range: whether it decodes, its partition, its ports, its first port, and its BASE, DPA and size in bytes. -/
structure CxlRange where
  en : Bool
  part : Nat
  ways : Nat
  port : Nat
  base : Nat
  dpa : Nat
  size : Nat
  deriving DecidableEq, Repr

def cxlRange (s : State) (r : Nat) : CxlRange :=
  let cfg := mapGet 0 s.cxlCfg r
  { en := cfg.getLsbD 63, part := fld cfg 39 36, ways := 2 ^ fld cfg 35 34, port := fld cfg 33 32,
    base := fld (mapGet 0 s.cxlBase r) 51 30 * 2 ^ 30, dpa := fld (mapGet 0 s.cxlDpa r) 51 30 * 2 ^ 30,
    size := (fld cfg 13 0 + 1) * 2 ^ 30 }

/-- The enabled ranges. -/
def cxlRanges (s : State) : List CxlRange := ((List.range 16).map (cxlRange s)).filter (·.en)

/-- The location behind a port that a physical address of a range reaches: granule g goes to port PORT + g mod ways. -/
def CxlRange.loc (r : CxlRange) (pa : Nat) : Nat :=
  let g := (pa - r.base) / 4096
  locCxl (r.port + g % r.ways) (r.dpa + g / r.ways * 4096 + pa % 4096)

def cxlLoc (s : State) (p : BitVec 4) (pa : Nat) : Option Nat :=
  ((cxlRanges s).find? fun r => r.part == p.toNat && decide (r.base ≤ pa) && decide (pa < r.base + r.size)).map fun r => r.loc pa

/-- The CXL physical address of a location, by the first range that reaches it. -/
def cxlAddr (s : State) (loc : Nat) : Nat :=
  let port := (loc - locBase 8) / 2 ^ 53
  let dpa := (loc - locBase 8) % 2 ^ 53
  let at' := fun r : CxlRange => r.base + (((dpa - r.dpa) / 4096) * r.ways + (port - r.port)) * 4096 + dpa % 4096
  match (cxlRanges s).find? fun r =>
      decide (r.port ≤ port) && decide (port < r.port + r.ways) && decide (r.dpa ≤ dpa) && decide (at' r < r.base + r.size) with
  | some r => at' r
  | none => dpa

/-- Physical address of a leaf to a location (R386). A peer admits the partition that its export window for the link names
(R390). -/
def physLoc (s : State) (p : BitVec 4) (tgt peer pa : Nat) : Except Byte Nat :=
  match tgt with
  | 0 => if ownSlice s p pa then .ok (locDevice pa) else .error 0x12
  | 1 =>
    match cxlLoc s p pa with
    | some loc => .ok loc
    | none => .error 0x12
  | 2 => .ok (locHost pa)
  | _ =>
    if pa < 2 ^ 41 && peer < 12 && !s.pkstat.fdown.getLsbD peer && Config.peerPart peer == p.toNat &&
        Config.peerExports peer pa then
      .ok (locPeer peer pa)
    else .error 0x12

/-- Permission of a leaf entry for an access (R73). -/
def leafAllows (e : Word) : Access → Bool
  | .rd => e.getLsbD 2
  | .wr => e.getLsbD 3
  | .atomic => e.getLsbD 2 && e.getLsbD 3
  | .fetch => e.getLsbD 4
  | .none => true

/-- The walk from a table at `base` for the levels left (R72, R73): (shift, index bits) of each level, top first. The tables
lie in the partition's own slices (R391): an entry elsewhere cannot be read, which the model takes as a translation fault.
DEDUCED, log 69. A translation stands for one that is cached: the reads of the tables leave no line in a cache, are not counted by
the directory, and are not held on their way: DESIGN CHOICE, log 86. -/
def walk (s : State) (p : BitVec 4) (va : Nat) (acc : Access) (base : Nat) :
    List (Nat × Nat) → Bool → Except Byte Nat
  | [], _ => .error 0x10
  | (shift, width) :: rest, leafOk =>
    let ea := base + (va / 2 ^ shift % 2 ^ width) * 8
    let e : Word := BitVec.ofNat 64 (memNat s (locDevice ea) 8)
    let addr := fld e 51 8 * 256
    let tgt := fld e 63 62
    let peer := fld e 61 58
    if !ownSlice s p ea || poisoned s ea || !e.getLsbD 0 || fld e 57 52 != 0 || fld e 7 5 != 0 || (tgt != 3 && peer != 0) then .error 0x10
    else if e.getLsbD 1 then
      match rest with
      | [] => .error 0x10
      | (_, w2) :: _ => if tgt != 0 || addr % (2 ^ w2 * 8) != 0 then .error 0x10 else walk s p va acc addr rest true
    else if !leafOk || addr % 2 ^ shift != 0 then .error 0x10
    else
      match physLoc s p tgt peer (addr + va % 2 ^ shift) with
      | .ok loc => if leafAllows e acc then .ok loc else .error 0x10
      | .error c => .error c

/-- The levels of R72. -/
def walkLevels : List (Nat × Nat) := [(39, 13), (30, 9), (21, 9), (16, 5)]

/-- Translation of a virtual address in an ASID (R72-R74). Where V of its entry is 0, also while a launch of it runs, the access
meets a translation fault: DESIGN CHOICE, log 88. -/
def translate (s : State) (p : BitVec 4) (asid : BitVec 13) (va : Nat) (acc : Access) : Except Byte Nat :=
  let root := mapGet 0 s.asid0 asid.toNat
  if root.getLsbD 0 then walk s p va acc (fld root 51 16 * 65536) walkLevels false else .error 0x10

/-- The location of an access of n bytes, or its cause: address fault, unmapped access, misalignment, translation and
permission, in the order of R410 step 5. `align` is the alignment the access needs (1: none). -/
def locate (s : State) (w : Who) (va : Word) (n align : Nat) (acc : Access) : Except Byte Nat :=
  if va.toNat / 2 ^ 52 != 0 then .error 0x11
  else
    match decodeWindow s w va.toNat n acc with
    | some (.error c) => .error c
    | some (.ok loc) => if va.toNat % align != 0 then .error 0x15 else .ok loc
    | none =>
      match translate s w.part w.asid va.toNat acc with
      | .error c => if c != 0x12 && va.toNat % align != 0 then .error 0x15 else .error c
      | .ok loc => if va.toNat % align != 0 then .error 0x15 else .ok loc

/-- The pieces of [va, va + n): cut at 64 KiB boundaries where it is translated, at each 4 KiB granule of CXL memory (R389), and
whole where it starts in a window (R68, R69); or the first address that fails and its cause. -/
def locatePieces (s : State) (w : Who) (acc : Access) : Nat → Word → Nat → Except (Byte × Word) (List (Nat × Nat))
  | 0, _, _ => .ok []
  | fuel + 1, va, n =>
    if n = 0 then .ok []
    else if va.toNat / 2 ^ 52 != 0 then .error (0x11, va)
    else
      match decodeWindow s w va.toNat n acc with
      | some (.error c) => .error (c, va)
      | some (.ok loc) => .ok [(loc, n)]
      | none =>
        match translate s w.part w.asid va.toNat acc with
        | .error c => .error (c, va)
        | .ok loc =>
          let unit := if targetOf loc = .cxl then 4096 else 65536
          let m := min n (unit - va.toNat % unit)
          match locatePieces s w acc fuel (va + BitVec.ofNat 64 m) (n - m) with
          | .error e => .error e
          | .ok rest => .ok ((loc, m) :: rest)

def locateSpan (s : State) (w : Who) (acc : Access) (va : Word) (n : Nat) : Except (Byte × Word) (List (Nat × Nat)) :=
  locatePieces s w acc (n / 4096 + 2) va n

end Sys2Proof.Machine
end

