-- ==== Sys2Proof/Machine/Numbers.lean ====
section
/-! DEFINITION. Numbers to the last bit (spec/06): exact values as fractions, the formats of R118, DM8, E8M0 and XE,
rounding (R126), the NaN rules (R133, R134), conversions (R129-R132, R229), the special functions (R226) and the matrix
sums (R136-R138). -/

namespace Sys2Proof.Machine

/-- A value a format can denote: a NaN with its sign, an infinity, or sign and magnitude num / den. -/
inductive FVal where
  | nan (neg : Bool)
  | inf (neg : Bool)
  | fin (neg : Bool) (num den : Nat)
  deriving DecidableEq, Repr

/-- The binary formats of R118. -/
inductive FpFmt where
  | f64 | f32 | f16 | bf16 | e5m2 | e4m3
  deriving DecidableEq, Repr

def FpFmt.ebits : FpFmt → Nat
  | .f64 => 11 | .f32 => 8 | .f16 => 5 | .bf16 => 8 | .e5m2 => 5 | .e4m3 => 4

def FpFmt.tbits : FpFmt → Nat
  | .f64 => 52 | .f32 => 23 | .f16 => 10 | .bf16 => 7 | .e5m2 => 2 | .e4m3 => 3

def FpFmt.width (f : FpFmt) : Nat := 1 + f.ebits + f.tbits
def FpFmt.bias (f : FpFmt) : Nat := 2 ^ (f.ebits - 1) - 1
def FpFmt.hasInf : FpFmt → Bool
  | .e4m3 => false
  | _ => true

/-- The magnitude pattern of the largest finite value. -/
def FpFmt.maxPat (f : FpFmt) : Nat :=
  match f with
  | .e4m3 => 0x7E
  | _ => (2 ^ f.ebits - 1) * 2 ^ f.tbits - 1

/-- The pattern of +infinity; for E4M3 that of its positive NaN. -/
def FpFmt.infPat (f : FpFmt) : Nat :=
  match f with
  | .e4m3 => 0x7F
  | _ => (2 ^ f.ebits - 1) * 2 ^ f.tbits

/-- The default NaN (R118). -/
def FpFmt.defaultNan (f : FpFmt) : Nat :=
  match f with
  | .e4m3 => 0x7F
  | _ => (2 ^ f.ebits - 1) * 2 ^ f.tbits + 2 ^ (f.tbits - 1)

def signBit (f : FpFmt) (neg : Bool) : Nat := if neg then 2 ^ (f.ebits + f.tbits) else 0

def fpNeg (f : FpFmt) (x : Nat) : Bool := x / 2 ^ (f.ebits + f.tbits) % 2 == 1
def fpMag (f : FpFmt) (x : Nat) : Nat := x % 2 ^ (f.ebits + f.tbits)

def isNan (f : FpFmt) (x : Nat) : Bool :=
  match f with
  | .e4m3 => fpMag f x == 0x7F
  | _ => fpMag f x > f.infPat

/-- Quieting (R120). -/
def quiet (f : FpFmt) (x : Nat) : Nat :=
  match f with
  | .e4m3 => x
  | _ => if x / 2 ^ (f.tbits - 1) % 2 == 1 then x else x + 2 ^ (f.tbits - 1)

/-- The controls of MODE as captured (R129). -/
structure FMode where
  rnd : Nat
  ftz : Bool
  daz : Bool
  satc : Bool
  deriving DecidableEq, Repr

def fmodeOf (m : BitVec 6) : FMode :=
  ⟨m.toNat % 4, m.getLsbD 2, m.getLsbD 3, m.getLsbD 4⟩

/-- The value of a pattern after DAZ (R119, R129). -/
def fpValue (f : FpFmt) (daz : Bool) (x : Nat) : FVal :=
  let neg := fpNeg f x
  let m := fpMag f x
  let e := m / 2 ^ f.tbits
  let t := m % 2 ^ f.tbits
  if isNan f x then .nan neg
  else if f.hasInf && m == f.infPat then .inf neg
  else if e == 0 then
    if daz then .fin neg 0 1 else .fin neg t (2 ^ (f.bias + f.tbits - 1))
  else
    let sig := 2 ^ f.tbits + t
    if f.bias + f.tbits ≤ e then .fin neg (sig * 2 ^ (e - f.bias - f.tbits)) 1
    else .fin neg sig (2 ^ (f.bias + f.tbits - e))

/-- A pattern with DAZ applied: a subnormal becomes the zero of its sign. -/
def dazPat (f : FpFmt) (daz : Bool) (x : Nat) : Nat :=
  if daz && fpMag f x / 2 ^ f.tbits == 0 then signBit f (fpNeg f x) else x

/-- FTZ on a rounded pattern (R129). -/
def ftzPat (f : FpFmt) (ftz : Bool) (x : Nat) : Nat :=
  if ftz && fpMag f x / 2 ^ f.tbits == 0 then signBit f (fpNeg f x) else x

/-- floor(log2 (num / den)) for num > 0. -/
def floorLog2 (num den : Nat) : Int :=
  let e : Int := (Nat.log2 num : Int) - (Nat.log2 den : Int)
  let ge := if 0 ≤ e then den * 2 ^ e.toNat ≤ num else den ≤ num * 2 ^ (-e).toNat
  if ge then e else e - 1

/-- Whether a quotient with remainder r / d above an integer m rounds up, in mode rnd (R126). -/
def roundsUp (rnd : Nat) (neg : Bool) (m r d : Nat) : Bool :=
  match rnd with
  | 0 => 2 * r > d || (2 * r == d && m % 2 == 1)
  | 1 => false
  | 2 => !neg && r != 0
  | _ => neg && r != 0

/-- num / den divided by 2^q, as numerator and denominator. -/
def scaleBy (num den : Nat) (q : Int) : Nat × Nat :=
  if 0 ≤ q then (num, den * 2 ^ q.toNat) else (num * 2 ^ (-q).toNat, den)

/-- round_fp of R126 on the magnitude num / den with its sign: a pattern. `sat` makes an overflow ±max (R129). -/
def roundFp (f : FpFmt) (rnd : Nat) (sat neg : Bool) (num den : Nat) : Nat :=
  if num = 0 then signBit f neg
  else
    let emin : Int := 1 - (f.bias : Int)
    let e0 := floorLog2 num den
    let e := if e0 < emin then emin else e0
    let q := e - (f.tbits : Int)
    let (a, b) := scaleBy num den q
    let m := a / b
    let m' := if roundsUp rnd neg m (a % b) b then m + 1 else m
    -- E and T of m' × 2^q; a carry out of the significand raises E
    let pat := if m' < 2 ^ f.tbits then m' else ((e - emin).toNat) * 2 ^ f.tbits + m'
    let maxSig := if f.hasInf then 2 ^ (f.tbits + 1) - 1 else 2 ^ (f.tbits + 1) - 2
    let maxQ : Int := (f.bias : Int) - (f.tbits : Int) + (if f.hasInf then 0 else 1)
    let (x, y) := scaleBy num den maxQ
    if x > maxSig * y then
      let past :=
        match rnd with
        | 0 => 2 * x ≥ (2 * maxSig + 1) * y
        | 1 => false
        | 2 => !neg
        | _ => neg
      signBit f neg + (if past && !sat then f.infPat else f.maxPat)
    else signBit f neg + pat

/-- A signed fraction as sign and magnitude. -/
def signed (neg : Bool) (num : Nat) : Int := if neg then -(num : Int) else num

/-- The sum of two finite values with the zero sign of R130: sign, num, den. -/
def addFin (rnd : Nat) (n1 : Bool) (a1 d1 : Nat) (n2 : Bool) (a2 d2 : Nat) : Bool × Nat × Nat :=
  let s := signed n1 (a1 * d2) + signed n2 (a2 * d1)
  if s = 0 then (if a1 = 0 && a2 = 0 && n1 == n2 then n1 else rnd == 3, 0, 1)
  else (decide (s < 0), s.natAbs, d1 * d2)

/-- The first NaN among operand patterns, quieted (R133). -/
def firstNan (f : FpFmt) : List Nat → Option Nat
  | [] => none
  | x :: rest => if isNan f x then some (quiet f x) else firstNan f rest

/-- A rounded value with FTZ. -/
def finish (f : FpFmt) (m : FMode) (neg : Bool) (num den : Nat) : Nat :=
  ftzPat f m.ftz (roundFp f m.rnd false neg num den)

def infOf (f : FpFmt) (neg : Bool) : Nat := signBit f neg + f.infPat

/-- Addition of two values: the default NaN of an earlier step stays (R134 rule 3). -/
def addVal (f : FpFmt) (m : FMode) : FVal → FVal → Nat
  | .nan _, _ | _, .nan _ => f.defaultNan
  | .inf a, .inf b => if a == b then infOf f a else f.defaultNan
  | .inf a, _ => infOf f a
  | _, .inf b => infOf f b
  | .fin n1 a1 d1, .fin n2 a2 d2 =>
    let (n, a, d) := addFin m.rnd n1 a1 d1 n2 a2 d2
    finish f m n a d

def negVal : FVal → FVal
  | .nan s => .nan (!s)
  | .inf s => .inf (!s)
  | .fin s a d => .fin (!s) a d

/-- FADD and FSUB (R223). -/
def fpAdd (f : FpFmt) (m : FMode) (x y : Nat) : Nat :=
  match firstNan f [x, y] with
  | some n => n
  | none => addVal f m (fpValue f m.daz x) (fpValue f m.daz y)

def fpSub (f : FpFmt) (m : FMode) (x y : Nat) : Nat :=
  match firstNan f [x, y] with
  | some n => n
  | none => addVal f m (fpValue f m.daz x) (negVal (fpValue f m.daz y))

/-- The exact product of two values; none is the invalid 0 × infinity. -/
def mulVal : FVal → FVal → Option FVal
  | .nan s, _ => some (.nan s)
  | _, .nan s => some (.nan s)
  | .inf a, .inf b => some (.inf (a != b))
  | .inf a, .fin b n _ => if n = 0 then none else some (.inf (a != b))
  | .fin a n _, .inf b => if n = 0 then none else some (.inf (a != b))
  | .fin a n1 d1, .fin b n2 d2 => some (.fin (a != b) (n1 * n2) (d1 * d2))

/-- FMUL (R223). -/
def fpMul (f : FpFmt) (m : FMode) (x y : Nat) : Nat :=
  match firstNan f [x, y] with
  | some n => n
  | none =>
    match mulVal (fpValue f m.daz x) (fpValue f m.daz y) with
    | none => f.defaultNan
    | some (.fin s a d) => finish f m s a d
    | some (.inf s) => infOf f s
    | some (.nan _) => f.defaultNan

/-- ±(x × y) ± z rounded once (R224). -/
def fpFma (f : FpFmt) (m : FMode) (negP negZ : Bool) (x y z : Nat) : Nat :=
  match firstNan f [x, y, z] with
  | some n => n
  | none =>
    match mulVal (fpValue f m.daz x) (fpValue f m.daz y) with
    | none => f.defaultNan
    | some p =>
      let zv := fpValue f m.daz z
      addVal f m (if negP then negVal p else p) (if negZ then negVal zv else zv)

/-- x < y, with -0 < +0 when `strictZero`. -/
def valLt (strictZero : Bool) : FVal → FVal → Bool
  | .nan _, _ => false
  | _, .nan _ => false
  | .inf a, .inf b => a && !b
  | .inf a, .fin _ _ _ => a
  | .fin _ _ _, .inf b => !b
  | .fin n1 a1 d1, .fin n2 a2 d2 =>
    let l := signed n1 (a1 * d2)
    let r := signed n2 (a2 * d1)
    decide (l < r) || (strictZero && l == r && l == 0 && n1 && !n2)

def valIsNan : FVal → Bool
  | .nan _ => true
  | _ => false

def valEq (x y : FVal) : Bool := !valIsNan x && !valIsNan y && !valLt false x y && !valLt false y x

/-- FMIN and FMAX (R223). -/
def fpMinMax (f : FpFmt) (m : FMode) (max : Bool) (x y : Nat) : Nat :=
  match firstNan f [x, y] with
  | some n => n
  | none =>
    let a := dazPat f m.daz x
    let b := dazPat f m.daz y
    let lt := valLt true (fpValue f false b) (fpValue f false a)
    ftzPat f m.ftz (if lt != max then b else a)

/-- FCMP (R225). -/
def fpCmp (f : FpFmt) (daz : Bool) (fn : FCmpFn) (x y : Nat) : Bool :=
  let a := fpValue f daz x
  let b := fpValue f daz y
  match fn with
  | .eq => valEq a b
  | .ne => !valEq a b
  | .lt => valLt false a b
  | .le => valLt false a b || valEq a b
  | .gt => valLt false b a
  | .ge => valLt false b a || valEq a b
  | .un => valIsNan a || valIsNan b

/-! ### DM8 and E8M0 (R122-R128) -/

/-- Leading zeros of a payload within its seven bits. -/
def dm8Z (p : Nat) : Nat :=
  if p ≥ 64 then 0 else if p ≥ 32 then 1 else if p ≥ 16 then 2 else if p ≥ 8 then 3 else if p ≥ 4 then 4
  else if p ≥ 2 then 5 else 6

/-- The magnitude of a payload as a fraction (R122); 0 for payload 0. -/
def dm8Mag (p : Nat) : Nat × Nat :=
  if p = 0 then (0, 1)
  else
    let z := dm8Z p
    let w := 6 - z
    (2 ^ w + 9 * (p % 2 ^ w), 2 ^ w * 10 ^ z)

def dm8Value (b : Nat) : FVal :=
  if b == 0x80 then .nan false
  else
    let (n, d) := dm8Mag (b % 128)
    .fin (b / 128 % 2 == 1) n d

/-- The largest code whose magnitude is at most num / den, decade by decade from the top. -/
def dm8Floor (num den : Nat) : Nat → Nat
  | 0 => 0
  | k + 1 =>
    let z := 6 - k
    if den ≤ num * 10 ^ z then 2 ^ k + (num * 10 ^ z - den) * 2 ^ k / (9 * den)
    else dm8Floor num den k

/-- to_dm8 (R124). -/
def toDm8 : FVal → Nat
  | .nan _ => 0x80
  | .inf s => if s then 0xFF else 0x7F
  | .fin s num den =>
    let (mn, md) := dm8Mag 127
    let code :=
      if num * md > mn * den then 127
      else
        let c := dm8Floor num den 7
        let (n1, d1) := dm8Mag c
        let (n2, d2) := dm8Mag (c + 1)
        let l := 2 * num * (d1 * d2)
        let r := (n1 * d2 + n2 * d1) * den
        if c ≥ 127 || l < r || (l == r && c % 2 == 0) then c else c + 1
    if code = 0 then 0 else code + (if s then 128 else 0)

/-- Conversion to E8M0 (R128). -/
def toE8m0 : FVal → Nat
  | .fin _ num den =>
    if num = 0 then 0xFF
    else
      let e := floorLog2 num den + 127
      if e < 0 then 0 else if 254 < e then 254 else e.toNat
  | _ => 0xFF

/-- 2^(e − 127) for a code below 0xFF. -/
def e8m0Value (e : Nat) : FVal :=
  if e == 0xFF then .nan false
  else if 127 ≤ e then .fin false (2 ^ (e - 127)) 1 else .fin false 1 (2 ^ (127 - e))

/-! ### Conversions (R117, R129-R132, R229) -/

/-- The binary format of a code of R227, if it is one. -/
def fpOfFmt : Fmt → Option FpFmt
  | .fp64 => some .f64 | .fp32 => some .f32 | .fp16 => some .f16 | .bf16 => some .bf16
  | .e5m2 => some .e5m2 | .e4m3 => some .e4m3
  | _ => none

/-- The signedness of an integer code: true is signed. -/
def intOfFmt : Fmt → Option Bool
  | .i8 | .i16 | .i32 | .i64 => some true
  | .n8 | .n16 | .n32 | .n64 => some false
  | _ => none

/-- num / den rounded to an integer magnitude by rnd. -/
def roundInt (rnd : Nat) (neg : Bool) (num den : Nat) : Nat :=
  let m := num / den
  if roundsUp rnd neg m (num % den) den then m + 1 else m

/-- A value to an integer of w bits, clamped (R132). -/
def valToInt (rnd w : Nat) (sgn : Bool) (v : FVal) : Nat :=
  let clamp := fun x : Int => if sgn then satS w x else satN w x
  match v with
  | .nan _ => 0
  | .inf s => clamp (signed s (2 ^ (w + 1)))
  | .fin s num den => clamp (signed s (roundInt rnd s num den))

/-- A value to a binary format, as a conversion does it (R129, R131): NaNs by their pattern `nanPat`. -/
def valToFp (f : FpFmt) (m : FMode) (ftz : Bool) (nanPat : Nat) : FVal → Nat
  | .nan _ => nanPat
  | .inf s => signBit f s + (if m.satc then f.maxPat else f.infPat)
  | .fin s num den => ftzPat f ftz (roundFp f m.rnd m.satc s num den)

/-- A NaN carried to another format: its sign, the top bits of its fraction, quieted (R131). -/
def carryNan (src dst : FpFmt) (x : Nat) : Nat :=
  let s := signBit dst (fpNeg src x)
  match dst with
  | .e4m3 => s + 0x7F
  | _ =>
    let t := x % 2 ^ src.tbits
    let t' := if src.tbits ≤ dst.tbits then t * 2 ^ (dst.tbits - src.tbits) else t / 2 ^ (src.tbits - dst.tbits)
    quiet dst (s + dst.infPat + t' % 2 ^ dst.tbits)

/-- The exact value of an element of any format after DAZ. -/
def fmtValue (f : Fmt) (daz : Bool) (x : Nat) : FVal :=
  match fpOfFmt f, intOfFmt f with
  | some g, _ => fpValue g daz x
  | none, some sgn =>
    let v : Int := if sgn then toSigned f.bits x else (x : Int)
    .fin (decide (v < 0)) v.natAbs 1
  | none, none => if f = .dm8 then dm8Value x else e8m0Value x

/-- One element converted (R229). -/
def cvtElem (dst src : Fmt) (m : FMode) (x : Nat) : Nat :=
  let v := fmtValue src m.daz x
  match intOfFmt src, intOfFmt dst with
  | some ss, some ds =>
    let e : Int := if ss then toSigned src.bits x else (x : Int)
    if dst.bits < src.bits && m.satc then (if ds then satS dst.bits e else satN dst.bits e) else wrapInt dst.bits e
  | _, some ds => valToInt m.rnd dst.bits ds v
  | si, none =>
    match dst with
    | .dm8 => toDm8 v
    | .e8m0 => toE8m0 v
    | _ =>
      match fpOfFmt dst with
      | none => 0
      | some g =>
        let nanPat := match fpOfFmt src with
          | some h => carryNan h g x
          | none => g.defaultNan
        valToFp g m (m.ftz && si.isNone) nanPat v

/-! ### Special functions (R226)

Irrational results are formed in integers with 512 fraction bits and half a unit added, so that one rounding of the
fraction is the rounding of the exact value. -/

def fixBits : Nat := 512

/-- floor(π × 2^512). -/
def piFix : Nat := 0x3243f6a8885a308d313198a2e03707344a4093822299f31d0082efa98ec4e6c89452821e638d01377be5466cf34e90c6cc0ac29b7c97c50dd3f84d5b5b5470917

/-- floor(ln 2 × 2^512). -/
def ln2Fix : Nat := 0xb17217f7d1cf79abc9e3b39803f2f6af40f343267298b62d8a0d175b8baafa2be7b876206debac98559552fb4afa1b10ed2eae35c138214427573b291169b825

/-- Newton's iteration for the integer square root. -/
def isqrtLoop : Nat → Nat → Nat → Nat
  | 0, _, x => x
  | k + 1, n, x =>
    let y := (x + n / x) / 2
    if y < x then isqrtLoop k n y else x

def isqrt (n : Nat) : Nat := if n = 0 then 0 else isqrtLoop 64 n (2 ^ (Nat.log2 n / 2 + 1))

/-- √(num / den) as a fraction on the grid of 2^-k, with half a unit added when it is not exact. -/
def sqrtFrac (k num den : Nat) : Nat × Nat :=
  let n := num * den * 4 ^ k
  let r := isqrt n
  if r * r == n then (r, den * 2 ^ k) else (2 * r + 1, 2 * den * 2 ^ k)

/-- Terms of Σ x^n / n! in fixed point, term by term. -/
def expLoop : Nat → Nat → Nat → Nat → Nat → Nat
  | 0, _, _, _, acc => acc
  | k + 1, x, n, term, acc =>
    let t := term * x / 2 ^ fixBits / n
    expLoop k x (n + 1) t (acc + t)

/-- e^(x / 2^512) × 2^512 for x below 2^512. -/
def expFix (x : Nat) : Nat := expLoop 130 x 1 (2 ^ fixBits) (2 ^ fixBits)

/-- Σ of the alternating series of sine (n = 1, x) or cosine (n = 0, 1): subtract and add in turn. -/
def sinLoop : Nat → Nat → Nat → Nat → Bool → Nat → Nat
  | 0, _, _, _, _, acc => acc
  | k + 1, x2, n, term, sub, acc =>
    let t := term * x2 / 2 ^ fixBits / ((n + 1) * (n + 2))
    sinLoop k x2 (n + 2) t (!sub) (if sub then acc - t else acc + t)

/-- sin and cos of θ / 2^512 for θ up to π / 4. -/
def sinFix (th : Nat) : Nat := sinLoop 60 (th * th / 2 ^ fixBits) 1 th true th
def cosFix (th : Nat) : Nat := sinLoop 60 (th * th / 2 ^ fixBits) 0 (2 ^ fixBits) true (2 ^ fixBits)

/-- Σ z^(2k+1) / (2k+1), the series of artanh, in fixed point. -/
def artanhLoop : Nat → Nat → Nat → Nat → Nat → Nat
  | 0, _, _, _, acc => acc
  | k + 1, z2, n, p, acc =>
    let p' := p * z2 / 2 ^ fixBits
    artanhLoop k z2 (n + 2) p' (acc + p' / (n + 2))

def artanhFix (z : Nat) : Nat := artanhLoop 180 (z * z / 2 ^ fixBits) 1 z z

/-- A fixed-point value with half a unit added, as a fraction. -/
def halfUnit (v : Nat) : Nat × Nat := (2 * v + 1, 2 * 2 ^ fixBits)

/-- 2^(±num / den) as a fraction (R226). -/
def exp2Frac (neg : Bool) (num den : Nat) : Nat × Nat :=
  if num = 0 then (1, 1)
  else if num * 2 ^ 128 < den then
    if neg then (2 ^ 200 - 1, 2 ^ 200) else (2 ^ 200 + 1, 2 ^ 200)
  else if num > 4096 * den then (if neg then (1, 2 ^ 4096) else (2 ^ 4096, 1))
  else
    -- the exponent is n + r / den with 0 ≤ r < den
    let e : Int := signed neg num
    let n : Int := e / (den : Int)
    let r := (e - n * (den : Int)).toNat
    let m := if r = 0 then (1, 1) else halfUnit (expFix (r * ln2Fix / den))
    if 0 ≤ n then (m.1 * 2 ^ n.toNat, m.2) else (m.1, m.2 * 2 ^ (-n).toNat)

/-- log2 (num / den) for num > 0: sign and fraction. -/
def log2Frac (num den : Nat) : Bool × Nat × Nat :=
  let e := floorLog2 num den
  let (a, b) := scaleBy num den e
  if a == b then (decide (e < 0), e.natAbs, 1)
  else
    let z := (a - b) * 2 ^ fixBits / (a + b)
    let l := 2 * artanhFix z * 2 ^ fixBits / ln2Fix
    let v : Int := 2 * (e * ((2 ^ fixBits : Nat) : Int) + (l : Int)) + 1
    (decide (v < 0), v.natAbs, 2 * 2 ^ fixBits)

/-- sin(π f) for f = num / den in [0, 1/2]. -/
def sinHalf (num den : Nat) : Nat × Nat :=
  if num = 0 then (0, 1)
  else if 2 * num == den then (1, 1)
  else if num * 2 ^ 64 < den then
    -- πf (1 − (πf)²/6)
    let a := piFix * num
    let b := 2 ^ fixBits * den
    (a * (6 * b * b - a * a), b * (6 * b * b))
  else if 4 * num ≤ den then halfUnit (sinFix (piFix * num / den))
  else halfUnit (cosFix (piFix * (den - 2 * num) / (2 * den)))

/-- sin(π x): sign and fraction for a finite x. -/
def sinPi (neg : Bool) (num den : Nat) : Bool × Nat × Nat :=
  let k := num / den
  let r := num % den
  let flip := k % 2 == 1
  let (n, d) := sinHalf (if 2 * r ≤ den then r else den - r) den
  if n = 0 then (neg, 0, 1) else (neg != flip, n, d)

/-- cos(π x) = sin(π (1/2 − x)). -/
def cosPi (num den : Nat) : Bool × Nat × Nat :=
  if num * 2 ^ 64 < den && num != 0 then (false, 2 ^ 120 - 1, 2 ^ 120)
  else
    let v : Int := (den : Int) - 2 * (num : Int)
    let (s, n, d) := sinPi (decide (v < 0)) v.natAbs (2 * den)
    if n = 0 then (false, 0, 1) else (s, n, d)

/-- tanh of a magnitude. -/
def tanhFrac (num den : Nat) : Nat × Nat :=
  if num = 0 then (0, 1)
  else if num * 2 ^ 64 < den then (num * (3 * den * den - num * num), den * (3 * den * den))
  else if num ≥ 64 * den then (2 ^ 120 - 1, 2 ^ 120)
  else
    -- q = e^(−2x) = 2^(−n) e^(−f), with 2x = n ln 2 + f
    let y := 2 * num * 2 ^ fixBits / den
    let n := y / ln2Fix
    let f := y % ln2Fix
    let one := 2 ^ fixBits
    let q := one * one / expFix f / 2 ^ n
    halfUnit ((one - q) * one / (one + q))

/-- The special functions of R226. -/
inductive SfuFn where
  | rcp | rsq | sqrt | exp2 | log2 | sin | cos | tanh
  deriving DecidableEq, Repr

/-- A grid fine enough for every rounding boundary of a square root in any format. -/
def sqrtGrid : Nat := 1200

/-- One special function of a pattern. UNVERIFIED, log 58. -/
def fpSfu (f : FpFmt) (m : FMode) (fn : SfuFn) (x : Nat) : Nat :=
  if isNan f x then quiet f x
  else
    let dn := f.defaultNan
    match fn, fpValue f m.daz x with
    | _, .nan _ => dn
    | .rcp, .inf s => signBit f s
    | .rcp, .fin s n d => if n = 0 then infOf f s else finish f m s d n
    | .rsq, .inf s => if s then dn else 0
    | .rsq, .fin s n d =>
      if n = 0 then infOf f s
      else if s then dn
      else
        let (a, b) := sqrtFrac sqrtGrid d n
        finish f m false a b
    | .sqrt, .inf s => if s then dn else infOf f false
    | .sqrt, .fin s n d =>
      if n = 0 then signBit f s
      else if s then dn
      else
        let (a, b) := sqrtFrac sqrtGrid n d
        finish f m false a b
    | .exp2, .inf s => if s then 0 else infOf f false
    | .exp2, .fin s n d =>
      let (a, b) := exp2Frac s n d
      finish f m false a b
    | .log2, .inf s => if s then dn else infOf f false
    | .log2, .fin s n d =>
      if n = 0 then infOf f true
      else if s then dn
      else
        let (neg, a, b) := log2Frac n d
        finish f m neg a b
    | .sin, .inf _ => dn
    | .sin, .fin s n d =>
      let (neg, a, b) := sinPi s n d
      finish f m neg a b
    | .cos, .inf _ => dn
    | .cos, .fin _ n d =>
      let (neg, a, b) := cosPi n d
      finish f m neg a b
    | .tanh, .inf s => finish f m s 1 1
    | .tanh, .fin s n d =>
      let (a, b) := tanhFrac n d
      finish f m s a b

/-! ### Matrix sums (R136-R138) -/

/-- num / den rounded to 11 significant bits, ties to even: XE of R135. -/
def roundXe (num den : Nat) : Nat × Nat :=
  if num = 0 then (0, 1)
  else
    let q := floorLog2 num den - 10
    let (a, b) := scaleBy num den q
    let m := a / b
    let m' := if roundsUp 0 false m (a % b) b then m + 1 else m
    if 0 ≤ q then (m' * 2 ^ q.toNat, 1) else (m', 2 ^ (-q).toNat)

/-- expand_xe (R136). -/
def expandXe (e sc : FVal) : FVal :=
  match mulVal e sc with
  | none => .nan false
  | some (.nan _) => .nan false
  | some (.inf s) => .inf s
  | some (.fin s n d) =>
    let (a, b) := roundXe n d
    .fin s a b

/-- What the products of one group sum to so far: `negZ` and `posZ` say that every product is −0, or +0 (R130). -/
inductive GroupSum where
  | nan
  | inf (neg : Bool)
  | fin (negZ posZ : Bool) (num : Int) (den : Nat)
  deriving DecidableEq, Repr

def groupAdd (g : GroupSum) (p : Option FVal) : GroupSum :=
  match g, p with
  | .nan, _ => .nan
  | _, none => .nan
  | _, some (.nan _) => .nan
  | .inf a, some (.inf b) => if a == b then .inf a else .nan
  | .inf a, _ => .inf a
  | .fin _ _ _ _, some (.inf b) => .inf b
  | .fin z y n d, some (.fin s a b) =>
    if d == b then .fin (z && s && a == 0) (y && !s && a == 0) (n + signed s a) d
    else .fin (z && s && a == 0) (y && !s && a == 0) (n * (b : Int) + signed s a * (d : Int)) (d * b)

/-- The group's sum rounded once to FP32; none is a NaN (R137). -/
def groupRound (m : FMode) : GroupSum → Option Nat
  | .nan => none
  | .inf s => some (infOf .f32 s)
  | .fin z y n d =>
    if n = 0 then some (signBit .f32 (z || (!y && m.rnd == 3)))
    else some (finish .f32 m (decide (n < 0)) n.natAbs d)

/-- One group of products added to an FP32 accumulator (R137). -/
def accAdd (m : FMode) (acc : Nat) (ps : List (Option FVal)) : Nat :=
  match groupRound m (ps.foldl groupAdd (.fin true true 0 1)) with
  | none => 0x7FC00000
  | some gp =>
    if isNan .f32 acc then 0x7FC00000
    else addVal .f32 m (fpValue .f32 false acc) (fpValue .f32 false gp)

/-- Pairs of elements grouped by 32 (R137). -/
def groupsOf32 (fuel : Nat) (ps : List (Option FVal)) : List (List (Option FVal)) :=
  match fuel, ps with
  | 0, _ => []
  | _, [] => []
  | k + 1, p :: rest => (p :: rest).take 32 :: groupsOf32 k ((p :: rest).drop 32)

/-- A floating matrix output (R137): the accumulator after all products in increasing k. -/
def matFloat (m : FMode) (acc : Nat) (as bs : List FVal) : Nat :=
  let ps := List.zipWith mulVal as bs
  (groupsOf32 (ps.length + 1) ps).foldl (accAdd m) (dazPat .f32 m.daz acc)

/-- An INT8 matrix output (R138). -/
def matInt (acc : Nat) (as bs : List Nat) : Nat :=
  let s := (List.zipWith (fun a b => toSigned 8 a * toSigned 8 b) as bs).foldl (· + ·) 0
  wrapInt 32 (toSigned 32 acc + s)

end Sys2Proof.Machine
end

