-- ==== Sys2Proof/Machine/Operands.lean ====
section
/-! DEFINITION. What each instruction of a team reads and writes by name: its source registers with their wait bits, the
registers it reads without one, its destinations, masks, flags and issue unit (spec/08 R174-R182, spec/03 R54-R56). The
checks at issue (spec/25 R410), the waits and the legality of a pair (R179) all come from this one table. -/

namespace Sys2Proof

open Sys2Proof.Machine

/-- Issue units (R178). -/
inductive IUnit where
  | s | v | m | x | b | alone
  deriving DecidableEq, Repr

/-- A source register and its wait bit. -/
structure Src where
  reg : Dest
  w : Bool
  deriving DecidableEq, Repr

/-- What one instruction names. -/
structure Uses where
  unit : IUnit
  /-- Sources with a wait bit, in the order a, b, c (R412). -/
  srcs : List Src := []
  /-- Registers read as if W = 1 (R56). -/
  impl : List Dest := []
  dsts : List Dest := []
  masks : List KReg := []
  maskDst : Option KReg := none
  /-- Flags read and written, as bits of CC (R58). -/
  flagsRead : Nat := 0
  flagsWritten : Nat := 0
  deriving DecidableEq, Repr

def ccZ : Nat := 1
def ccN : Nat := 2
def ccC : Nat := 4
def ccV : Nat := 8
def ccL : Nat := 16
def ccA : Nat := 32
def ccF : Nat := 64

def SSrc.src (a : SSrc) : Src := ⟨.scal a.r, a.w⟩
def VSrc.src (a : VSrc) : Src := ⟨.vec a.r, a.w⟩
def VA.src : VA → Src
  | .vec s => s.src
  | .scal s => s.src
def VB.srcs : VB → List Src
  | .vec s => [s.src]
  | .scal s => [s.src]
  | .lit _ => []

/-- The register after a vector register, for fragments and pairs of registers. -/
def VReg.plus (r : VReg) (n : Nat) : Dest := .vec (BitVec.ofNat 7 (r.toNat + n))
def SReg.plus (r : SReg) (n : Nat) : Dest := .scal (BitVec.ofNat 6 (r.toNat + n))

/-- Flags that a branch condition reads (R177). -/
def Cond.flags : Cond → Nat
  | .al => 0
  | .eq | .ne => ccZ
  | .lt | .ge => ccN + ccV
  | .gt | .le => ccZ + ccN + ccV
  | .lo | .hs => ccC
  | .hi | .ls => ccC + ccZ
  | .vs => ccV
  | .last => ccL
  | .adpt => ccA
  | .full | .nfull => ccF

/-- The registers of a load or store of a size: a pair takes two (R244). -/
def sizeRegs (size : MSize) (d : SReg) : List Dest :=
  match size with
  | .p => [.scal d, SReg.plus d 1]
  | _ => [.scal d]

def usesScalar2 (d : SReg) (a b : SSrc) : Uses := { unit := .s, srcs := [SSrc.src a, SSrc.src b], dsts := [.scal d] }
def usesScalar1 (d : SReg) (a : SSrc) : Uses := { unit := .s, srcs := [SSrc.src a], dsts := [.scal d] }
def usesVBin (o : VBin) : Uses :=
  { unit := .v, srcs := VA.src o.a :: VB.srcs o.b, dsts := [.vec o.d], masks := [o.k] }
def usesVUn (o : VUn) : Uses := { unit := .v, srcs := [VA.src o.a], dsts := [.vec o.d], masks := [o.k] }
def usesVTri (o : VTri) : Uses :=
  { unit := .v, srcs := VA.src o.a :: VB.srcs o.b ++ [VSrc.src o.c], dsts := [.vec o.d], masks := [o.k] }
def usesFBin (o : FBin) : Uses :=
  { unit := .v, srcs := VA.src o.a :: VB.srcs o.b, dsts := [.vec o.d], masks := [o.k] }
def usesFUn (o : FUn) : Uses := { unit := .v, srcs := [VA.src o.a], dsts := [.vec o.d], masks := [o.k] }
def usesFTri (o : FTri) : Uses :=
  { unit := .v, srcs := VA.src o.a :: VB.srcs o.b ++ [VSrc.src o.c], dsts := [.vec o.d], masks := [o.k] }
def usesShfli (o : ShfliOps) : Uses :=
  { unit := .v,
    srcs := VSrc.src o.a :: (match o.b with
      | .scal s => [SSrc.src s]
      | .lit _ => []),
    dsts := [.vec o.d], masks := [o.k] }
def usesElem (o : ElemOps) : Uses := { unit := .v, srcs := [VSrc.src o.a], masks := [o.k] }
def usesMask2 (d a b : KReg) : Uses := { unit := .v, masks := [a, b], maskDst := some d }
def usesAtom (o : AtomOps) (c : List SSrc) : Uses :=
  { unit := .m, srcs := [SSrc.src o.a, SSrc.src o.b] ++ c.map SSrc.src, dsts := [.scal o.d] }
def usesMma (o : MmaOps) : Uses :=
  { unit := .x,
    srcs := [⟨.vec o.a.r, o.a.w⟩, ⟨VReg.plus o.a.r 1, o.a.w⟩, ⟨.vec o.b.r, o.b.w⟩, ⟨VReg.plus o.b.r 1, o.b.w⟩] ++
      (match o.c with
        | some c => (List.range 4).map fun j => ⟨VReg.plus c.r j, c.w⟩
        | none => []),
    dsts := (List.range 4).map fun j => VReg.plus o.d j, masks := [o.k] }
def usesNone (u : IUnit) : Uses := { unit := u }
def usesA (u : IUnit) (a : SSrc) : Uses := { unit := u, srcs := [SSrc.src a] }
def usesAB (u : IUnit) (a b : SSrc) : Uses := { unit := u, srcs := [SSrc.src a, SSrc.src b] }
def usesABC (u : IUnit) (a b c : SSrc) : Uses := { unit := u, srcs := [SSrc.src a, SSrc.src b, SSrc.src c] }

/-- s1 to s_n, which a capsule instruction checkpoints or writes (R259). -/
def capsuleRegs (n : Nat) : List Dest := (List.range n).map fun j => SReg.plus 1 j

/-- What an instruction of a team names; an event or a command names no register of the current team. VLD.PRV.w is the
narrowing private load of R242: DEDUCED, log 84. -/
def Instr.uses : Instr → Uses
  | .saluAdd d a b | .saluSub d a b | .saluAnd d a b | .saluOr d a b | .saluXor d a b | .saluAndn d a b
  | .saluShl d a b | .saluShrl d a b | .saluShra d a b | .saluMul d a b | .saluMulh d a b | .saluMulhn d a b
  | .saluMin d a b | .saluMax d a b | .saluMinn d a b | .saluMaxn d a b | .bfi d a b _ _ | .lea d a b => usesScalar2 d a b
  | .salul _ d a _ | .addi d a _ | .andi d a _ | .ori d a _ | .xori d a _ | .shiShl d a _ | .shiShrl d a _
  | .shiShra d a _ | .sbitPopc d a | .sbitClz d a | .sbitCtz d a | .sbitBrev d a | .sbitSextb d a | .sbitSexth d a
  | .sbitSextw d a | .sbitZextb d a | .sbitZexth d a | .sbitZextw d a | .bfx _ d a _ _ => usesScalar1 d a
  | .cmp a b => { unit := .s, srcs := [SSrc.src a, SSrc.src b], flagsWritten := ccZ + ccN + ccC + ccV }
  | .cmpi a _ => { unit := .s, srcs := [SSrc.src a], flagsWritten := ccZ + ccN + ccC + ccV }
  | .lit _ d _ => { unit := .s, dsts := [.scal d] }
  | .lith d _ => { unit := .s, impl := [.scal d], dsts := [.scal d] }
  | .bc c _ => { unit := .b, flagsRead := Cond.flags c }
  | .bmz k _ | .bmnz k _ => { unit := .b, masks := [k] }
  | .call _ => { unit := .b, dsts := [.scal 62] }
  | .jr a => usesA .b a
  | .callr a => { unit := .b, srcs := [SSrc.src a], dsts := [.scal 62] }
  | .ret => { unit := .b, impl := [.scal 62] }
  | .loop a _ => usesA .b a
  | .loopi _ _ => usesNone .b
  | .mark k _ => { unit := .b, masks := [k] }
  | .divElse _ | .join => usesNone .b
  | .spawn d a _ =>
    { unit := .alone, srcs := [SSrc.src a], impl := (List.range 7).map fun j => SReg.plus a.r (j + 1), dsts := [.scal d],
      flagsWritten := ccZ + ccF }
  | .exit | .yield => usesNone .alone
  | .valuAdd o _ | .valuSub o _ | .valuShl o _ | .vmulMul o _ => usesVBin o
  | .valuAnd o | .valuOr o | .valuXor o | .valuAndn o | .valuShrl o | .valuShra o | .valuMin o | .valuMax o | .valuMinn o
  | .valuMaxn o | .vmulMulh o | .vmulMulhn o => usesVBin o
  | .vcmp _ o => usesVBin o
  | .pack o _ => usesVBin o
  | .valuAbs o _ | .valuNeg o _ => usesVUn o
  | .vbcast o _ => usesVUn o
  | .unpack o _ _ => usesVUn o
  | .valuMov d k _ b => { unit := .v, srcs := VB.srcs b, dsts := [.vec d], masks := [k] }
  | .vmulMad o _ => usesVTri o
  | .vsel o | .perm o => usesVTri o
  | .vlid d k _ => { unit := .v, dsts := [.vec d], masks := [k] }
  | .fadd o | .fsub o | .fmul o | .fmin o | .fmax o | .fcsgn o => usesFBin o
  | .fcmp _ o => usesFBin o
  | .fabs o | .fneg o | .frcp o | .frsq o | .fsqrt o | .fexp2 o | .flog2 o | .fsin o | .fcos o | .ftanh o => usesFUn o
  | .ffma o | .ffms o | .fnma o => usesFTri o
  | .cvt d k a dst src _ =>
    { unit := .v, srcs := [VSrc.src a], impl := if dst.bits < src.bits then [.vec d] else [], dsts := [.vec d],
      masks := [k] }
  | .shfl d k _ a b => { unit := .v, srcs := [VSrc.src a, VA.src b], dsts := [.vec d], masks := [k] }
  | .shfliUp o | .shfliDown o | .shfliXor o | .shfliBcast o => usesShfli o
  | .vred _ d k a scal =>
    { unit := .v, srcs := [VA.src a], dsts := [if scal then .scal (d.setWidth 6) else .vec d], masks := [k] }
  | .scan _ d k a _ => { unit := .v, srcs := [VA.src a], dsts := [.vec d], masks := [k] }
  | .mtch d o => { usesElem o with dsts := [.vec d] }
  | .ballot d o => { usesElem o with maskDst := some d }
  | .vany d o | .vall d o => { usesElem o with dsts := [.scal d], flagsWritten := ccZ }
  | .kmov d a | .knot d a => { unit := .v, masks := [a], maskDst := some d }
  | .kmovToScalar d a _ | .kmovSum d a | .kpop d a => { unit := .v, masks := [a], dsts := [.scal d] }
  | .kmovFromScalar d a _ => { unit := .v, srcs := [SSrc.src a], masks := [d], maskDst := some d }
  | .kset d a => { unit := .v, srcs := [SSrc.src a], maskDst := some d }
  | .kand d a b | .kor d a b | .kxor d a b | .kandn d a b => usesMask2 d a b
  | .ld o => { unit := .m, srcs := [SSrc.src o.a], dsts := sizeRegs o.size o.d }
  | .st o => { unit := .m, srcs := [SSrc.src o.a], impl := sizeRegs o.size o.d }
  | .vldStr o => { unit := .m, srcs := [SSrc.src o.a, SSrc.src o.b], dsts := [.vec o.d], masks := [o.k] }
  | .vldIx o => { unit := .m, srcs := [SSrc.src o.a, VSrc.src o.c], dsts := [.vec o.d], masks := [o.k] }
  | .vldPrv o =>
    { unit := .m, srcs := SSrc.src o.a :: (o.c.map VSrc.src).toList, impl := if o.es = .w then [.vec o.d] else [],
      dsts := [.vec o.d], masks := [o.k] }
  | .vstStr o => { unit := .m, srcs := [SSrc.src o.a, SSrc.src o.b], impl := [.vec o.d], masks := [o.k] }
  | .vstIx o => { unit := .m, srcs := [SSrc.src o.a, VSrc.src o.c], impl := [.vec o.d], masks := [o.k] }
  | .vstPrv o =>
    { unit := .m, srcs := SSrc.src o.a :: (o.c.map VSrc.src).toList, impl := [.vec o.d], masks := [o.k] }
  | .ldfeK o | .ldfeC o => { unit := .m, srcs := [SSrc.src o.a], dsts := sizeRegs o.size o.d }
  | .atomAdd o | .atomAnd o | .atomOr o | .atomXor o | .atomMin o | .atomMax o | .atomMinn o | .atomMaxn o
  | .atomSwap o | .atomFadd o => usesAtom o []
  | .atomCas o c => usesAtom o [c]
  | .vatom o =>
    { unit := .m, srcs := [SSrc.src o.a, VSrc.src o.b, VSrc.src o.c], impl := if o.op = .cas then [.vec o.d] else [],
      dsts := if o.nr then [] else [.vec o.d], masks := [o.k] }
  | .fenceAcq _ | .fenceRel _ | .fenceAr _ | .waitc _ _ => usesNone .alone
  | .barInit _ a b c => usesABC .alone a b c
  | .barArr d a | .barArrx d a => { unit := .alone, srcs := [SSrc.src a], dsts := [.scal d], flagsWritten := ccL }
  | .barWait a p =>
    { unit := .alone, srcs := SSrc.src a :: (match p with
        | .reg b => [SSrc.src b]
        | .imm _ => []) }
  | .barExpb a b => usesAB .alone a b
  | .capEnter a _ _ =>
    { unit := .alone, srcs := [SSrc.src a], impl := capsuleRegs 15, dsts := capsuleRegs 15, flagsWritten := ccA }
  | .capCommit | .capExit | .capAbort =>
    { unit := .alone, impl := capsuleRegs 15, dsts := capsuleRegs 4, flagsWritten := ccZ + ccA }
  | .qpush a b => { unit := .m, srcs := [SSrc.src a, SSrc.src b], flagsWritten := ccF }
  | .qpop d a => { unit := .m, srcs := [SSrc.src a], dsts := [.scal d], flagsWritten := ccF }
  | .tqget d _ => { unit := .m, dsts := [.scal d, SReg.plus d 1], flagsWritten := ccF }
  | .tqadd _ a b => { unit := .m, srcs := [SSrc.src a, SSrc.src b], flagsWritten := ccF }
  | .tqfill d _ a b c =>
    { unit := .m, srcs := [SSrc.src a, SSrc.src b, SSrc.src c], dsts := [.scal d], flagsWritten := ccF }
  | .pfL1 a _ | .pfL2 a _ | .cwb a _ | .cinv a _ => usesA .m a
  | .mxls a c => usesAB .x a c
  | .mxswap => usesNone .x
  | .mxloop o => usesABC .x o.a o.b o.c
  | .mxloopG o => usesAB .x o.a o.c
  | .mxloopE o => usesAB .x o.b o.c
  | .mxacc o => usesABC .x o.a o.b o.c
  | .mmaAny o | .mmaArray o | .mmaLanes o => usesMma o
  | .engCpy a b | .engGath a b | .engSortc a b | .engColl a b => usesAB .m a b
  | .annexHintClr a b => usesAB .m a b
  | .annexHintPin a b _ | .annexHintFloor a b _ | .annexHintCeil a b _ => usesAB .m a b
  | .rateGetB d | .rateGetE d => { unit := .s, dsts := [.scal d] }
  | .rateSet a => usesA .s a
  | .rateClr => usesNone .s
  | .gets d sel => { unit := .s, dsts := [.scal d], flagsRead := if sel = 1 then 127 else 0 }
  | .sets sel a => { unit := .s, srcs := [SSrc.src a], flagsWritten := if sel = 1 then 127 else 0 }
  | .trap _ | .bkpt _ => usesNone .alone
  | .sysc _ =>
    { unit := .alone, impl := (List.range 8).map fun j => SReg.plus 1 j,
      dsts := (List.range 4).map fun j => SReg.plus 1 j }
  | .rft a | .resume a => usesA .alone a
  | .tlbinv a b c => usesABC .alone a b c
  | .ctxsv a b => usesAB .alone a b
  | .ctxld a b => { unit := .alone, srcs := [SSrc.src a, SSrc.src b], flagsWritten := ccZ }
  | .tlbinvAll a | .park a | .unpark a => usesA .alone a
  | _ => usesNone .alone

/-- Registers read, writes to s0 and reads of it apart. -/
def Uses.reads (u : Uses) : List Dest := u.srcs.map (·.reg) ++ u.impl

/-- R179: the second instruction touches nothing that the first writes. s0 and k0 are constants and no such register. -/
def pairTouches (a b : Uses) : Bool :=
  (a.dsts.any fun d => d != .scal 0 && (b.reads.contains d || b.dsts.contains d)) ||
  (match a.maskDst with
    | some k => b.masks.contains k || b.maskDst == some k
    | none => false) ||
  a.flagsWritten &&& (b.flagsRead ||| b.flagsWritten) != 0

/-- A legal pairing (R179, R182). -/
def pairLegal (a b : Uses) : Bool :=
  a.unit != b.unit && a.unit != .alone && b.unit != .alone && a.unit != .b && !pairTouches a b

/-- Whether the instruction may end a loop (R204). -/
def Instr.endsLoop : Instr → Bool
  | .call _ | .callr _ | .jr _ | .ret | .loop _ _ | .loopi _ _ | .mark _ _ | .divElse _ | .trap _ | .rft _ | .resume _ => false
  | _ => true

/-- The instructions a stop may leave part-way, with PIX naming a lane-word (R397). -/
def Instr.stoppable : Instr → Bool
  | .valuAdd _ _ | .valuSub _ _ | .valuAnd _ | .valuOr _ | .valuXor _ | .valuAndn _ | .valuShl _ _ | .valuShrl _
  | .valuShra _ | .valuMin _ | .valuMax _ | .valuMinn _ | .valuMaxn _ | .valuAbs _ _ | .valuNeg _ _ | .valuMov _ _ _ _
  | .vmulMul _ _ | .vmulMulh _ | .vmulMulhn _ | .vmulMad _ _ | .vcmp _ _ | .vsel _ | .vbcast _ _ | .vlid _ _ _
  | .fadd _ | .fsub _ | .fmul _ | .fmin _ | .fmax _ | .fabs _ | .fneg _ | .fcsgn _ | .ffma _ | .ffms _ | .fnma _
  | .fcmp _ _ | .cvt _ _ _ _ _ _ | .pack _ _ | .unpack _ _ _ | .perm _ => true
  | .vldStr _ | .vldIx _ | .vldPrv _ | .vstStr _ | .vstIx _ | .vstPrv _ | .vatom _ | .mmaAny _ | .mmaArray _
  | .mmaLanes _ => true
  | _ => false

/-- The instructions a capsule body may hold (R294). -/
def Instr.inBody : Instr → Bool
  | .saluAdd _ _ _ | .saluSub _ _ _ | .saluAnd _ _ _ | .saluOr _ _ _ | .saluXor _ _ _ | .saluAndn _ _ _
  | .saluShl _ _ _ | .saluShrl _ _ _ | .saluShra _ _ _ | .saluMul _ _ _ | .saluMulh _ _ _ | .saluMulhn _ _ _
  | .saluMin _ _ _ | .saluMax _ _ _ | .saluMinn _ _ _ | .saluMaxn _ _ _ | .salul _ _ _ _ | .addi _ _ _ | .andi _ _ _
  | .ori _ _ _ | .xori _ _ _ | .shiShl _ _ _ | .shiShrl _ _ _ | .shiShra _ _ _ | .cmp _ _ | .cmpi _ _
  | .sbitPopc _ _ | .sbitClz _ _ | .sbitCtz _ _ | .sbitBrev _ _ | .sbitSextb _ _ | .sbitSexth _ _ | .sbitSextw _ _
  | .sbitZextb _ _ | .sbitZexth _ _ | .sbitZextw _ _ | .bfx _ _ _ _ _ | .bfi _ _ _ _ _ | .lea _ _ _ | .lit _ _ _
  | .lith _ _ | .bc _ _ | .capCommit | .capExit | .capAbort => true
  | .ld o | .st o => o.ord.isPlain
  | _ => false

/-- The branches of R203. -/
def Instr.isBranch : Instr → Bool
  | .bc _ _ | .bmz _ _ | .bmnz _ _ => true
  | _ => false

end Sys2Proof
end

