-- ==== Sys2Proof/Machine/Ops.lean ====
section
/-! DEFINITION. The named operations over registers and memory: register and mask access (spec/03), the annex counters
(spec/19), performing a store at its point of coherence, the L1's dirty lines, reads by a team (spec/04, spec/05),
releases, TIME (R64), and the results on their way to registers (R54-R57). -/

namespace Sys2Proof.Machine

/-! ### Registers and masks -/

/-- All lanes of a team of n lanes (R22, R23). -/
def laneMask (n : Nat) : Mask := BitVec.ofNat 1024 (2 ^ n - 1)

/-- Reading a scalar register: s0 reads as zero (R48). -/
def sget (t : Team) (r : SReg) : Word := if r = 0 then 0 else mapGet 0 t.sregs r.toNat

/-- Writing a scalar register: writes to s0 are discarded (R48). -/
def sset (t : Team) (r : SReg) (v : Word) : Team :=
  if r = 0 then t else { t with sregs := mapSet 0 t.sregs r.toNat v }

def vkey (lane : Nat) (r : VReg) : Nat := lane * 128 + r.toNat
def vget (t : Team) (lane : Nat) (r : VReg) : Word := mapGet 0 t.vregs (vkey lane r)
def vset (t : Team) (lane : Nat) (r : VReg) (v : Word) : Team := { t with vregs := mapSet 0 t.vregs (vkey lane r) v }

/-- Writing a vector register in some lanes. -/
def vsetLanes (t : Team) (r : VReg) (lanes : List Nat) (f : Nat → Word) : Team :=
  lanes.foldl (fun t l => vset t l r (f l)) t

/-- Reading a mask register: k0 is all lanes of the team (R52). -/
def kget (t : Team) (k : KReg) : Mask := if k = 0 then laneMask t.lanes else mapGet 0 t.masks k.toNat

/-- Writing k1 to k7; bits of lanes the team does not have are discarded (R23). -/
def kset (t : Team) (k : KReg) (m : Mask) : Team :=
  if k = 0 then t else { t with masks := mapSet 0 t.masks k.toNat (m &&& laneMask t.lanes) }

/-- The active lanes under a mask register, in increasing order (R24). -/
def activeMask (t : Team) (k : KReg) : Mask := t.em &&& kget t k
def lanesOf (t : Team) (m : Mask) : List Nat := (List.range t.lanes).filter fun l => m.getLsbD l
def activeLanes (t : Team) (k : KReg) : List Nat := lanesOf t (activeMask t k)

/-- MODE and the other special registers as the instruction sees them: the second instruction of a pair sees them as
they stood before the first (R179). -/
def modeSeen (t : Team) : BitVec 6 :=
  if t.useCmode then t.cmode
  else match t.pairShadow with
    | some x => x.mode
    | none => t.mode

/-- CNT (R65). -/
def cntWord (t : Team) : Word :=
  BitVec.ofNat 64 (t.cntCpy.toNat + t.cntMxa.toNat * 2 ^ 8 + t.cntGth.toNat * 2 ^ 16 + t.cntCol.toNat * 2 ^ 24)

/-- The special registers as the instruction sees them (R179, R180). -/
def shadowOf (t : Team) : Shadow :=
  t.pairShadow.getD ⟨t.mode, t.rateo, t.fcont, t.fframe, cntWord t, t.qnt⟩
def rateoSeen (t : Team) : BitVec 32 := (shadowOf t).rateo

/-- The controls of MODE captured by the instruction (R61, R129). -/
def fmode (t : Team) : FMode := fmodeOf (modeSeen t)

def ordered (t : Team) : Bool := t.mode.getLsbD 5

/-- The lane-word at which the instruction begins (R66). -/
def startWord (t : Team) : Nat := if t.pix.getLsbD 63 then fld t.pix 31 0 else 0
def pixAt (q : Nat) : Word := BitVec.ofNat 64 (2 ^ 63 + q)

/-- A team holds a capsule, or has been displaced from its own and not yet collected the outcome (R294, R304). -/
def inBody (t : Team) : Bool := t.held.isSome || t.displaced.isSome

/-- The flags written: those of `which` take the bits of `v` (R58). -/
def setCC (t : Team) (which v : Nat) : Team :=
  { t with cc := (t.cc &&& ~~~(BitVec.ofNat 7 which)) ||| (BitVec.ofNat 7 v &&& BitVec.ofNat 7 which) }

def flag (t : Team) (bit : Nat) : Bool := (t.cc &&& BitVec.ofNat 7 bit) != 0

/-! ### Rates and the cost page (R338, R340) -/

/-- The effective rate of a team as a fraction of 2^51: B × MULT × (8 + S) × RATEO (R338). -/
def effRate (s : State) (t : Team) (b : Nat) (ovr : BitVec 32) : Nat :=
  b * (partOf s t.part).mulForce.toNat * (8 + (dieOf s t.place.die.toNat).surcharge.toNat) * ovr.toNat

/-- Entries 0 to 25 of the cost page: TIME, ENERGY and CURRENT in units of 10^-4 (R340, R347). -/
def costTable : List (Nat × Nat × Nat) :=
  [(400000, 60000, 40000), (1200000, 15000, 0), (400000, 64000, 40000), (1600000, 20000, 0), (330000, 420000, 15000),
   (250000, 840000, 15000), (1800000, 24000, 0), (600000, 6000, 0), (900000, 18000, 0), (25000, 39, 0), (11110, 58, 0),
   (8330, 73, 0), (6670, 93, 0), (5260, 122, 0), (4880, 138, 0), (4550, 154, 0), (11110, 6190, 0), (8330, 7870, 0),
   (6670, 10030, 0), (5260, 13110, 0), (4880, 14800, 0), (4550, 16590, 0), (0, 0, 20000), (0, 0, 10000), (0, 0, 8000),
   (0, 0, 12000)]

def costEntry (i : Nat) : Nat × Nat × Nat := costTable.getD i (0, 0, 0)

/-- The FP32 nearest to n × 10^-4. -/
def costFp (n : Nat) : Nat := roundFp .f32 0 false false n 10000

/-- TIME and ENERGY of an entry as exact fractions of their FP32 values. -/
def costOf (n : Nat) : Nat × Nat :=
  match fpValue .f32 false (costFp n) with
  | .fin _ a d => (a, d)
  | _ => (0, 1)

/-- cost = u × TIME + E × ENERGY for u = un / ud and E = e / 2^51, as a fraction (R341). -/
def priced (i un ud e : Nat) : Nat × Nat :=
  let (tn, td) := costOf (costEntry i).1
  let (en, ed) := costOf (costEntry i).2.1
  (un * tn * (ed * 2 ^ 51) + ud * td * (en * e), ud * td * ed * 2 ^ 51)

def fracLt (a b : Nat × Nat) : Bool := a.1 * b.2 < b.1 * a.2

/-- One evaluation of a two-way decider at a time (R342): the option taken and the decider afterwards. -/
def decideTwo (d : Option Decider) (now : Nat) (c0 c1 : Nat × Nat) : Bool × Decider :=
  match d with
  | none => let o := fracLt c1 c0; (o, ⟨o, now⟩)
  | some d =>
    if now < d.since + 8000 then (d.second, d)
    else
      let (cur, other) := if d.second then (c1, c0) else (c0, c1)
      let o := if fracLt other (7 * cur.1, 8 * cur.2) then !d.second else d.second
      (o, ⟨o, now⟩)

/-- PIX as GETS reads it: 0 while V = 0, when the instruction that reads it has issued (R60, R66). -/
def pixSeen (t : Team) : Word := if t.pix.getLsbD 63 then t.pix else 0

/-- A byte of the device-page window: COSTPAGE, then ANXPAGE of the reader's partition (R340, R363). -/
def pageByte (s : State) (p : BitVec 4) (off : Nat) : Byte :=
  if off < 0x1000 then
    let (t, e, c) := costEntry (off / 16)
    let w := match off % 16 / 4 with
      | 0 => costFp t
      | 1 => costFp e
      | 2 => costFp c
      | _ => 0
    BitVec.ofNat 8 (w / 2 ^ (8 * (off % 4)))
  else
    let a := off - 0x1000
    if a / 32 < 8 && a % 32 / 8 < 3 then
      BitVec.ofNat 8 ((mapGet 0 s.annexCnt (p.toNat * 32 + a / 32 * 4 + a % 32 / 8)).toNat / 2 ^ (8 * (off % 8)))
    else 0

/-! ### Caches (R12, R13, R76, R80)

An L1 and a die's L2 are each modelled as one set, and a store takes its line without counting as a read of it: the manual
gives neither the sets nor the fill of a partly written line. DESIGN CHOICE, log 68. -/

/-- Lines of an L1: the rest of the SRAM array (R12, R33). -/
def l1Room (s : State) (k : Nat) : Nat := 12288 - sectionBytes s k / 128
/-- Lines of a die's L2 (R13). -/
def l2Room : Nat := 786432

/-- Soft limits of an ASID in lines; 0 means none (R74). -/
def l1Soft (s : State) (a : BitVec 13) : Nat := fld (mapGet 0 s.asid1 a.toNat) 31 16 * 8
def l2Soft (s : State) (a : BitVec 13) : Nat := fld (mapGet 0 s.asid1 a.toNat) 47 32 * 512

/-- Lines that an ASID's accesses allocated and that are held (R80). -/
def occupancy (ls : List CacheLine) (a : BitVec 13) : Nat := (ls.filter fun c => c.asid == a).length

/-- The ASID is over its limit. -/
def overLimit (soft : BitVec 13 → Nat) (ls : List CacheLine) (a : BitVec 13) : Bool :=
  soft a != 0 && decide (soft a < occupancy ls a)

/-- The victim: the least recently used line of an ASID over its limit, else the least recently used line. -/
def victimOf (soft : BitVec 13 → Nat) (ls : List CacheLine) : Option CacheLine :=
  (ls.reverse.find? fun c => overLimit soft ls c.asid) <|> ls.getLast?

/-- A cache after an access to a line, the line first, and the lines it no longer holds. -/
def touchCache (soft : BitVec 13 → Nat) (room : Nat) (ls : List CacheLine) (line : Nat) (a : BitVec 13) :
    List CacheLine × Option CacheLine :=
  match ls.find? fun c => c.line == line with
  | some c => (c :: ls.filter fun x => x.line != line, none)
  | none =>
    if ls.length < room then (⟨line, a⟩ :: ls, none)
    else
      match victimOf soft ls with
      | some v => (⟨line, a⟩ :: ls.filter fun x => x.line != v.line, some v)
      | none => ([⟨line, a⟩], none)

def l1Of (s : State) (k : Nat) : List CacheLine := mapGet [] s.l1 k
def l1Has (s : State) (k line : Nat) : Bool := (l1Of s k).any fun c => c.line == line

/-- An access of a core to a line: its L1 holds the line. The dirty bytes of a line that has left it are on their way out
(R91). -/
def touchL1 (s : State) (k : Nat) (a : BitVec 13) (line : Nat) : State :=
  { s with l1 := mapSet [] s.l1 k (touchCache (l1Soft s) (l1Room s k) (l1Of s k) line a).1 }

/-- The L2 of a die takes a line, and what it then drops: an annex goes with its line (R77). -/
def touchL2 (s : State) (d : Nat) (a : BitVec 13) (line : Nat) : State :=
  let r := touchCache (l2Soft s) l2Room (mapGet [] s.l2 d) line a
  { s with l2 := mapSet [] s.l2 d r.1,
           annex := s.annex.map fun x => { x with lines := x.lines.filter fun y => !(r.2.any fun v => y == (d, v.line)) } }

/-- The lines of [loc, loc + n). -/
def linesOf (loc n : Nat) : List Nat :=
  if n = 0 then [] else (List.range ((loc + n - 1) / 128 + 1 - loc / 128)).map fun i => loc / 128 + i

/-- Every L1 but the writer's own drops the lines of [loc, loc + n) (R76). -/
def dropL1 (s : State) (own : Option Nat) (loc n : Nat) : State :=
  { s with l1 := s.l1.filterMap fun x =>
      if own = some x.1 then some x
      else
        match x.2.filter fun c => !(loc / 128 ≤ c.line && c.line ≤ (loc + n - 1) / 128) with
        | [] => none
        | ls => some (x.1, ls) }

/-! ### Annexes (R78, R79, R360-R363) -/

def regionOf (rs : List Region) (n : Nat) : Region := (rs.find? fun r => r.reg = n).getD { reg := n }
def putRegion (rs : List Region) (r : Region) : List Region := r :: rs.filter fun x => x.reg != r.reg

/-- Add one to a counter of ANXPAGE: word 0 HITS, 1 FILLS, 2 COLLS. -/
def bumpAnnex (s : State) (loc die word : Nat) (cnt : List (Nat × Word)) : List (Nat × Word) :=
  match partOfSlice s (loc / 2 ^ 35) with
  | some p => let k := p.toNat * 32 + die * 4 + word; mapSet 0 cnt k (mapGet 0 cnt k + 1)
  | none => cnt

/-- A counter of a region by die, one higher. -/
def bumpDie (m : List (Nat × Nat)) (die : Nat) : List (Nat × Nat) := mapSet 0 m die (mapGet 0 m die + 1)

/-- The ways in which a read by a die other than the line's home is served (R362). -/
inductive AnnexRead where
  | hit | fill | home
  deriving DecidableEq, Repr

def annexServes (r : Region) (die line : Nat) : AnnexRead :=
  if r.lines.contains (die, line) then .hit
  else if r.holders.contains die || r.holders.length < r.deg then .fill
  else .home

/-- The region after a read by a die: a hit is counted, and a fill makes the die a holder. -/
def serveAnnex (r : Region) (die line : Nat) : Region :=
  match annexServes r die line with
  | .hit => { r with hits := bumpDie r.hits die }
  | .fill => { r with lines := (die, line) :: r.lines,
                      holders := if r.holders.contains die then r.holders else die :: r.holders }
  | .home => r

/-- What the directory counts of a read by a die (R360), and how it is served. -/
def readRegion (r : Region) (die loc : Nat) : Region :=
  let line := loc / 128
  let r1 : Region :=
    { r with accesses := r.accesses + 1, readers := if r.readers.contains die then r.readers else die :: r.readers,
             reads := if homeDie loc = die then r.reads else bumpDie r.reads die,
             readLines := if homeDie loc = die || r.readLines.contains (die, line) then r.readLines else (die, line) :: r.readLines }
  match annexServes r die line with
  | .home => r1
  | _ => if homeDie loc = die then r1 else serveAnnex r1 die line

/-- A read of a line of device memory that no L1 serves, by a die or by the hall, at the annex directory. -/
def dirRead (s : State) (die loc : Nat) : State :=
  let r := regionOf s.annex (loc / 65536)
  if 8 ≤ die then { s with annex := putRegion s.annex { r with accesses := r.accesses + 1 } }
  else
    { s with annex := putRegion s.annex (readRegion r die loc),
             annexCnt := if homeDie loc = die then s.annexCnt
               else match annexServes r die (loc / 128) with
                 | .hit => bumpAnnex s loc die 0 s.annexCnt
                 | .fill => bumpAnnex s loc die 1 s.annexCnt
                 | .home => s.annexCnt }

/-- The L2 that a read leaves the line in: the reader's own die's where it holds an annex, else the home's. An annex fill leaves
none at the home, and a write that is performed takes no line: DESIGN CHOICE, log 68. -/
def fillL2 (s : State) (a : BitVec 13) (die loc : Nat) : State :=
  let own := (regionOf s.annex (loc / 65536)).lines.contains (die, loc / 128)
  touchL2 s (if own then die else homeDie loc) a (loc / 128)

/-- A read of a line reaches L2 (R360, R362): of an engine or a service team, or of a core whose L1 does not hold it. -/
def readL2 (s : State) (die : Nat) (a : BitVec 13) (loc : Nat) : State :=
  if !cachedLoc s loc then s
  else fillL2 (if targetOf loc = .device then dirRead s die loc else s) a die loc

/-- A read of a line by a party of a core: its L1 serves it, or takes it. -/
def noteRead (s : State) (w : Who) (loc : Nat) : State :=
  if !cachedLoc s loc then s
  else
    let k := placeKey w.place
    touchL1 (if l1Has s k (loc / 128) then s else readL2 s w.place.die.toNat w.asid loc) k w.asid (loc / 128)

/-- Reads of every line of pieces, past the L1s. -/
def readPiecesL2 (s : State) (die : Nat) (a : BitVec 13) (ps : List (Nat × Nat)) : State :=
  ps.foldl (fun s x => (linesOf x.1 x.2).foldl (fun s l => readL2 s die a (l * 128)) s) s

/-- The L2s without annexes that are gone: (die, line number). -/
def dropCopies (l2 : List (Nat × List CacheLine)) (gone : List (Nat × Nat)) : List (Nat × List CacheLine) :=
  gone.foldl (fun m x => mapSet [] m x.1 ((mapGet [] m x.1).filter fun c => c.line != x.2)) l2

/-- The annexes of the lines of [loc, loc + n). -/
def annexesOf (s : State) (loc n : Nat) : List (Nat × Nat) :=
  s.annex.flatMap fun r => r.lines.filter fun x => loc / 128 ≤ x.2 && x.2 ≤ (loc + n - 1) / 128

/-- A write of [loc, loc + n) invalidates every annex of its lines, one collapse each (R79, R362). -/
def collapse (s : State) (loc n : Nat) : State :=
  let gone := annexesOf s loc n
  if gone.isEmpty then s
  else
    { s with annex := s.annex.map fun r => { r with lines := r.lines.filter fun x => !gone.contains x },
             l2 := dropCopies s.l2 gone,
             annexCnt := gone.foldl (fun c x => bumpAnnex s loc x.1 2 c) s.annexCnt }

/-- The directory counts a write of each line of device memory (R360). -/
def countWrites (s : State) (loc n : Nat) : State :=
  if targetOf loc = .device then
    { s with annex := (linesOf loc n).foldl (fun rs l =>
        let r := regionOf rs (l / 512)
        putRegion rs { r with accesses := r.accesses + 1, writes := r.writes + 1 }) s.annex }
  else s

/-- Before a write takes effect: its annexes are invalidated and the copies in other L1s go. A write-back's stores were counted
as they were made. -/
def ownLines (s : State) (own : Option Nat) (loc n : Nat) : State :=
  let s1 := dropL1 (collapse s loc n) own loc n
  if own.isSome then s1 else countWrites s1 loc n

/-! ### Reports (R429) -/

/-- An occurrence of a report: it joins the open span of its kind and target, or opens one. -/
def report (s : State) (p : BitVec 4) (rep : Byte) (target addr : Word) : State :=
  let same := fun x : Span => x.part == p && x.rep == rep && x.target == target
  if s.spans.any same then
    { s with spans := s.spans.map fun x => if same x then { x with count := x.count + 1 } else x }
  else { s with spans := s.spans ++ [⟨p, rep, target, addr, s.time, 1⟩] }

/-- The address a report names for a location: its scratch-aperture address, or its physical address. -/
def addrOfLoc (s : State) (loc : Nat) : Word :=
  match targetOf loc with
  | .scratch => BitVec.ofNat 64 (apertureBase + (loc - locBase 4))
  | .cxl => BitVec.ofNat 64 (cxlAddr s loc)
  | _ => BitVec.ofNat 64 (loc % 2 ^ 52)

/-! ### Performing a write at the point of coherence (R91) -/

def writeCells (m : List Host.Cell) (loc : Nat) : List Byte → List Host.Cell
  | [] => m
  | b :: bs => mapSet 0 (writeCells m (loc + 1) bs) loc b

/-- The bytes put in memory, with nothing else changed. -/
def rawWrite (s : State) (loc : Nat) (bs : List Byte) : State := { s with mem := writeCells s.mem loc bs }

/-- The service team's own writes (R292), which invalidate the annexes of their lines first (R79, R85). -/
def ownWrite (s : State) (loc : Nat) (bs : List Byte) : State := rawWrite (ownLines s none loc bs.length) loc bs

def overlaps (loc n base size : Nat) : Bool := base < loc + n && loc < base + size

/-- The barrier object (R439) that [loc, loc + n) lands on, and the held lock record (R292). -/
def tagHit (s : State) (loc n : Nat) : Option Nat := s.tags.find? fun t => overlaps loc n t 32
def lockHit (s : State) (loc n : Nat) : Option Nat := s.locks.find? fun l => overlaps loc n l 256

/-- The line lies behind a memory die that is lost, and the L2 of its home does not hold it. DESIGN CHOICE, log 50. -/
def memoryLost (s : State) (loc : Nat) : Bool :=
  s.pkstat.mlost != 0 && s.pkstat.mlost.getLsbD (Config.memoryDie (loc / 4096) % 4) &&
    !((mapGet [] s.l2 (homeDie loc)).any fun c => c.line == loc / 128)

/-- A request for the location reaches a lost die: the home of its line, or the memory die behind it (R449). -/
def homeLost (s : State) (loc : Nat) : Bool :=
  (s.pkstat.lost != 0 && s.pkstat.lost.getLsbD (homeDie loc) &&
    (targetOf loc = .device || targetOf loc = .cxl || targetOf loc = .scratch)) || (targetOf loc = .device && memoryLost s loc)

/-- A write of the byte is discarded: it is part of a barrier object or of a held record, or its die is lost. -/
def blockedByte (s : State) (loc : Nat) : Bool := (tagHit s loc 1).isSome || (lockHit s loc 1).isSome || homeLost s loc

/-- The bytes that are not discarded. -/
def writeFree (s : State) (loc : Nat) : List Byte → List Host.Cell
  | [] => s.mem
  | b :: bs =>
    let m := writeFree s (loc + 1) bs
    if blockedByte s loc then m else mapSet 0 m loc b

/-- Writes that cover a whole line or granule, no byte of them discarded, clear its poison (R445). -/
def clearPoison (s : State) (ps : List (Nat × Nat)) : State :=
  let whole := fun base size : Nat => (List.range size).all fun i =>
    (ps.any fun x => x.1 ≤ base + i && base + i < x.1 + x.2) && !blockedByte s (base + i)
  { s with poisonLines := s.poisonLines.filter fun l => !whole (l * 128) 128,
           poisonGranules := s.poisonGranules.filter fun g => !whole (g * 16) 16 }

/-- A store, atomic or engine write is performed: annexes are invalidated first (R79); bytes on a tagged granule or a
held lock record are discarded and reported (R292, R439, R442), and bytes for a lost die are discarded (R449). `own` is the
core whose L1 writes the line back and keeps it; such a write is partial. -/
def performBy (own : Option Nat) (s : State) (p : BitVec 4) (pl : Place) (loc : Nat) (bs : List Byte) : State :=
  let n := bs.length
  let s0 := ownLines s own loc n
  let s1 := if own.isSome then s0 else clearPoison s0 [(loc, n)]
  match tagHit s loc n, lockHit s loc n with
  | none, none => if s.pkstat.lost = 0 && s.pkstat.mlost = 0 then rawWrite s1 loc bs else { s1 with mem := writeFree s loc bs }
  | tg, lk =>
    let s2 := { s1 with mem := writeFree s loc bs }
    let s3 := if tg.isSome then report s2 p 2 (targetWord pl) (addrOfLoc s loc) else s2
    match lk with
    | some l => report s3 p 1 (targetWord pl) (addrOfLoc s l)
    | none => s3

def performStore (s : State) (p : BitVec 4) (pl : Place) (loc : Nat) (bs : List Byte) : State := performBy none s p pl loc bs

/-! ### Dirty bytes of the L1s (R76, R91) -/

def dirtyKey (k loc : Nat) : Nat := k * 2 ^ 56 + loc

/-- The byte lies in a line that the L1 took whole. -/
def takenWhole (m : List (Nat × Option DirtyByte)) (key : Nat) : Bool := (mapGet none m key).any (·.whole)

def writeDirty (m : List (Nat × Option DirtyByte)) (k : Nat) (p : BitVec 4) (pl : Place) (loc : Nat) :
    List Byte → List (Nat × Option DirtyByte)
  | [] => m
  | b :: bs =>
    mapSet none (writeDirty m k p pl (loc + 1) bs) (dirtyKey k loc) (some ⟨b, p, pl, takenWhole m (dirtyKey k loc)⟩)

/-- Whether the dirty bytes of some lines of a core's L1 stand for whole lines. -/
def markWhole (s : State) (k : Nat) (lines : List Nat) (w : Bool) : State :=
  if lines.isEmpty then s
  else
    { s with dirty := s.dirty.map fun x =>
        if x.1 / 2 ^ 56 == k && lines.contains (x.1 % 2 ^ 56 / 128) then (x.1, x.2.map fun d => { d with whole := w }) else x }

/-- A contiguous run of dirty bytes of one writer. -/
structure Run where
  key : Nat
  part : BitVec 4
  place : Place
  bytes : List Byte
  deriving DecidableEq, Repr

/-- Runs of dirty bytes, in increasing address. -/
def runsOf : List (Nat × Option DirtyByte) → List Run
  | [] => []
  | (_, none) :: rest => runsOf rest
  | (k, some d) :: rest =>
    match runsOf rest with
    | r :: more =>
      if r.key = k + 1 && r.place = d.place && r.part = d.part then ⟨k, r.part, r.place, d.b :: r.bytes⟩ :: more
      else ⟨k, d.part, d.place, [d.b]⟩ :: r :: more
    | [] => [⟨k, d.part, d.place, [d.b]⟩]

/-- The lines among dirty bytes that an L1 took whole. -/
def wholeDirty (xs : List (Nat × Option DirtyByte)) : List (Nat × Nat) :=
  (xs.filter fun x => x.1 % 128 == 0 && x.2.any (·.whole)).map fun x => (x.1 % 2 ^ 56, 128)

/-- Dirty bytes that a test on core and location picks are performed; a line that its L1 took whole is free of poison (R445). -/
def flushWhere (s : State) (p : Nat → Nat → Bool) : State :=
  let hit := fun x : Nat × Option DirtyByte => p (x.1 / 2 ^ 56) (x.1 % 2 ^ 56)
  let xs := s.dirty.filter hit
  let s1 := clearPoison { s with dirty := s.dirty.filter fun x => !hit x } (wholeDirty xs)
  (runsOf xs).foldl (fun s r => performBy (some (r.key / 2 ^ 56)) s r.part r.place (r.key % 2 ^ 56) r.bytes) s1

/-- Every dirty byte of a core is performed. -/
def flushCore (s : State) (k : Nat) : State := flushWhere s fun c _ => c == k

/-- The dirty lines of [loc, loc + n) are performed, whichever L1 holds them. -/
def flushLines (s : State) (loc n : Nat) : State :=
  flushWhere s fun _ l => loc / 128 ≤ l / 128 && l / 128 ≤ (loc + n - 1) / 128

/-- One core's line. -/
def flushLine (s : State) (k line : Nat) : State := flushWhere s fun c l => c == k && l / 128 == line

/-- A plain store of a party on core k: visible to its own core, performed later where an L1 caches the target (R91). The
directory counts it as it is made: DESIGN CHOICE, log 68. -/
def storeOut (s : State) (w : Who) (loc : Nat) (bs : List Byte) : State :=
  if cachedLoc s loc then
    touchL1 (countWrites { s with dirty := writeDirty s.dirty (placeKey w.place) w.part w.place loc bs } loc bs.length)
      (placeKey w.place) w.asid (loc / 128)
  else performStore s w.part w.place loc bs

/-- The lines that pieces reach. -/
def linesOfAll (ps : List (Nat × Nat)) : List Nat := (ps.flatMap fun x => linesOf x.1 x.2).eraseDups

/-- The lines that pieces cover from end to end. -/
def wholeLines (ps : List (Nat × Nat)) : List Nat :=
  (linesOfAll ps).filter fun l => (List.range 128).all fun i => ps.any fun x => x.1 ≤ l * 128 + i && l * 128 + i < x.1 + x.2

/-- The plain stores of one instruction of a party. A line that they write in part is first filled; one that they cover is taken
without a read of its home (R460). -/
def storesOut (s : State) (w : Who) (xs : List BufStore) : State :=
  let ps := xs.map fun b => (b.loc, b.data.length)
  let whole := wholeLines ps
  let s1 := (linesOfAll ps).foldl (fun s l => if whole.contains l then s else noteRead s w (l * 128)) s
  markWhole (xs.foldl (fun s b => storeOut s w b.loc b.data) s1) (placeKey w.place) whole true

/-! ### Reads -/

/-- The latest byte that a list of buffered stores, in program order, gives a location. -/
def bufByte : List BufStore → Nat → Option Byte
  | [], _ => none
  | b :: rest, loc =>
    match bufByte rest loc with
    | some x => some x
    | none => if b.loc ≤ loc && loc < b.loc + b.data.length then b.data[loc - b.loc]? else none

def ordStores (rs : List OrdReq) : List BufStore :=
  rs.filterMap fun r => match r with
    | .store b => some b
    | _ => none

/-- A byte that no L1 serves: of the page window, or at the point of coherence. -/
def farByte (s : State) (p : BitVec 4) (loc : Nat) : Byte :=
  if targetOf loc = .page then pageByte s p (loc - locBase 5) else memByte s loc

/-- A byte as a party on core k reads it: its L1, then the point of coherence. -/
def coreByte (s : State) (p : BitVec 4) (k loc : Nat) : Byte :=
  if targetOf loc = .page then pageByte s p (loc - locBase 5)
  else match mapGet none s.dirty (dirtyKey k loc) with
    | some d => d.b
    | none => memByte s loc

/-- A byte as an ordered launch's last quantum end left it (R371). -/
def viewByte (s : State) (p : BitVec 4) (launch : BitVec 32) (loc : Nat) : Byte :=
  if targetOf loc = .page then pageByte s p (loc - locBase 5)
  else
    match levelOfLaunch s p launch with
    | some l => mapGet 0 l.view loc
    | none => memByte s loc

/-- A byte as a team reads it: its own capsule's buffered stores (R297), its quantum's, then memory as the last quantum end
left it in an ordered launch (R371), else its core's view; a body reads the point of coherence. -/
def teamByte (s : State) (t : Team) (loc : Nat) : Byte :=
  match bufByte t.capBuf loc with
  | some b => b
  | none =>
    match bufByte (ordStores t.obuf) loc with
    | some b => b
    | none =>
      if inBody t then memByte s loc
      else if ordered t then viewByte s t.part t.launch loc
      else coreByte s t.part (placeKey t.place) loc

def bytesBy (f : Nat → Byte) (loc : Nat) : Nat → List Byte
  | 0 => []
  | n + 1 => f loc :: bytesBy f (loc + 1) n

def teamBytes (s : State) (t : Team) (loc n : Nat) : List Byte := bytesBy (teamByte s t) loc n
def coreBytes (s : State) (p : BitVec 4) (k loc n : Nat) : List Byte := bytesBy (coreByte s p k) loc n
def farBytes (s : State) (p : BitVec 4) (loc n : Nat) : List Byte := bytesBy (farByte s p) loc n
def memBytes (s : State) (loc n : Nat) : List Byte := bytesBy (memByte s) loc n

/-- Some byte of [loc, loc + n) lies in a poisoned line or granule (R444). -/
def poisonedIn (s : State) (loc n : Nat) : Bool :=
  decide (0 < n) && (s.poisonLines.any (fun l => overlaps loc n (l * 128) 128) ||
    s.poisonGranules.any fun g => overlaps loc n (g * 16) 16)

/-- The core's own L1 took the line whole: what it holds of it is not what its home does (R460). -/
def ownWhole (s : State) (k loc : Nat) : Bool := takenWhole s.dirty (dirtyKey k (loc / 128 * 128))

/-- Poison that a core's read of [loc, loc + n) meets. -/
def poisonSeen (s : State) (k loc n : Nat) : Bool :=
  poisonedIn s loc n && (linesOf loc n).any fun l => !ownWhole s k (l * 128) &&
    poisonedIn s (max loc (l * 128)) (min (loc + n) (l * 128 + 128) - max loc (l * 128))

/-! ### Requests that a halted die or a link holds (R357, R358, R447, R452) -/

/-- A request routed to a halted die is held (R452). DESIGN CHOICE, log 52. -/
def heldByHalt (s : State) (loc : Nat) : Bool :=
  s.pkstat.halted != 0 && s.pkstat.halted.getLsbD (homeDie loc)

/-- A write is held: at its home, or because an annex of its line on a halted die cannot be invalidated (R452, R453). -/
def writeHalted (s : State) (loc : Nat) : Bool :=
  s.pkstat.halted != 0 && (heldByHalt s loc || (annexesOf s loc 1).any fun x => s.pkstat.halted.getLsbD x.1)

/-- A request to a service team is held: on the service team's die, or as the write it makes. -/
def serviceHalted (s : State) (loc : Nat) : Bool :=
  s.pkstat.halted != 0 && (writeHalted s loc || s.pkstat.halted.getLsbD (ownerCluster loc / 6))

/-- The halts that hold an access of this kind. -/
def accessHalted (s : State) (acc : Access) (loc : Nat) : Bool :=
  match acc with
  | .wr => if cachedLoc s loc then false else writeHalted s loc
  | .atomic => serviceHalted s loc
  | _ => heldByHalt s loc

/-- The hall port of a die that a request passes; the hall die has none. -/
def hallPort (d : Nat) : List Nat := if d < 8 then [d] else []

/-- The hall ports between two dies. -/
def hallPath (d h : Nat) : List Nat := if d = h then [] else hallPort d ++ hallPort h

/-- The path between the dies of a straddling block: the twin bridge, or the hall once it is down (R358, R447). -/
def twinPath (s : State) (d h : Nat) : List Nat :=
  if d = h then []
  else if s.pkstat.bdown.getLsbD (d / 2) then hallPath d h
  else [linkKey (.twin (BitVec.ofNat 2 (d / 2)))]

/-- The links that a request passes from a die to a location's memory; `bridge`: between twins by the bridge, as requests of a
straddling block's team to its own block's scratchpad and a CPY of path 1 go. -/
def pathLinks (s : State) (d : Nat) (bridge : Bool) (loc : Nat) : List Nat :=
  let h := homeDie loc
  let leg := if bridge && d / 2 == h / 2 then twinPath s d h else hallPath d h
  match targetOf loc with
  | .page => []
  | .host => hallPort d
  | .peer => hallPort d ++ [linkKey (.folros (BitVec.ofNat 4 ((loc - locBase 3) / 2 ^ 41)))]
  | .scratch => leg
  | .device => leg ++ beyond s h (linkKey (.memory (BitVec.ofNat 2 (Config.memoryDie (loc / 4096)))))
  | .cxl => leg ++ beyond s h h
where
  /-- Beyond an L2 that does not hold the line. -/
  beyond (s : State) (h port : Nat) : List Nat :=
    if (mapGet [] s.l2 h).any fun c => c.line == loc / 128 then [] else hallPort h ++ [port]

/-- A link on the way holds its traffic. -/
def heldOnWay (s : State) (d : Nat) (bridge : Bool) (loc : Nat) : Bool :=
  let held := heldLinks s
  !held.isEmpty && (pathLinks s d bridge loc).any held.contains

/-- A straddling block has the location in its allocations. -/
def straddleOwn (s : State) (w : Who) (loc : Nat) : Bool :=
  s.blocks.any fun b => b.straddle && b.part == w.part && b.launch == w.launch && b.blk == w.blk &&
    decide (locScratch b.die.toNat b.core.toNat b.off ≤ loc) && decide (loc < locScratch b.die.toNat b.core.toNat b.off + b.size)

/-- An access that the core's L1 or an annex of its die serves, or that its L1 takes. -/
def servedNear (s : State) (w : Who) (acc : Access) (loc : Nat) : Bool :=
  cachedLoc s loc && match acc with
    | .wr => true
    | .rd => l1Has s (placeKey w.place) (loc / 128) ||
        (regionOf s.annex (loc / 65536)).lines.contains (w.place.die.toNat, loc / 128)
    | _ => false

/-- An access of a party is held on its way. An atomic passes the die of its service team, which for a scratchpad is the
scratchpad's own. -/
def heldAccess (s : State) (w : Who) (acc : Access) (loc : Nat) : Bool :=
  let d := w.place.die.toNat
  (accessHalted s acc loc && !servedNear s w acc loc) ||
    (heldOnWay s d (straddleOwn s w loc) loc && !servedNear s w acc loc) ||
    (acc == .atomic && targetOf loc != .scratch && (let v := ownerCluster loc / 6
      heldOnWay s v false loc || (hallPath d v).any (heldLinks s).contains))

/-- The write-back of a dirty line of a core is held. -/
def writeBackHeld (s : State) (k loc : Nat) : Bool := writeHalted s loc || heldOnWay s (k / 64) false loc

/-! ### TIME (R64, R336) -/

/-- A reading of TIME: it runs on by what has passed, up to the next broadcast. DESIGN CHOICE, log 7. -/
def readTime (s : State) : State :=
  let next := (s.time / 1000 + 1) * 1000
  { s with fresh := s.fresh + 1, time := min (s.time + Config.elapsed s.fresh) (next - 1) }

/-! ### Results on their way (R54-R57) -/

def destEmpty (t : Team) : Dest → Bool
  | .scal r => t.sEmpty.getLsbD r.toNat
  | .vec r => t.vEmpty.getLsbD r.toNat

def setBit64 (x : BitVec 64) (i : Nat) (b : Bool) : BitVec 64 :=
  if b then x ||| BitVec.ofNat 64 (2 ^ i) else x &&& ~~~(BitVec.ofNat 64 (2 ^ i))
def setBit128 (x : BitVec 128) (i : Nat) (b : Bool) : BitVec 128 :=
  if b then x ||| BitVec.ofNat 128 (2 ^ i) else x &&& ~~~(BitVec.ofNat 128 (2 ^ i))

/-- Mark a register empty or full; s0 is never marked (R54). -/
def markEmpty (t : Team) (d : Dest) (e : Bool) : Team :=
  match d with
  | .scal r => if r = 0 then t else { t with sEmpty := setBit64 t.sEmpty r.toNat e }
  | .vec r => { t with vEmpty := setBit128 t.vEmpty r.toNat e }

/-- The poison bit of a register (R445). -/
def markPoison (t : Team) (d : Dest) (b : Bool) : Team :=
  match d with
  | .scal r => if r = 0 then t else { t with sPoison := setBit64 t.sPoison r.toNat b }
  | .vec r => { t with vPoison := setBit128 t.vPoison r.toNat b }

def destPoisoned (t : Team) : Dest → Bool
  | .scal r => t.sPoison.getLsbD r.toNat
  | .vec r => t.vPoison.getLsbD r.toNat

/-- A producer that has issued: its destination is empty until the result arrives (R54). DEDUCED, log 9. -/
def produce (t : Team) (d : Dest) (src : FillSrc) (poison : Bool) : Team :=
  if d = .scal 0 then t else { markEmpty t d true with inflight := t.inflight ++ [⟨d, src, poison⟩] }

/-- The values of a result written to its destination. -/
def writeDest (t : Team) (d : Dest) (vs : List (Nat × Word)) : Team :=
  match d with
  | .scal r => vs.foldl (fun t x => sset t r x.2) t
  | .vec r => vs.foldl (fun t x => vset t x.1 r x.2) t

/-- Deliver the result for a destination whose values are known: none when it must wait for a broadcast or for requests
that have not been performed. -/
def deliver (t : Team) (d : Dest) : Option Team :=
  match t.inflight.find? fun f => f.dest = d with
  | none => some (markEmpty t d false)
  | some f =>
    let done := fun vs => some { markPoison (markEmpty (writeDest t d vs) d false) d f.poison with
                                 inflight := t.inflight.filter fun g => g.dest != d }
    match f.src with
    | .values vs => done vs
    | .requests 0 vs => done vs
    | _ => none

/-- A reply of a service team: the lane's value joins the results of its register (R86). -/
def reply (t : Team) (d : Dest) (lane : Nat) (v : Word) : Team :=
  { t with inflight := t.inflight.map fun f =>
      if f.dest = d then
        match f.src with
        | .requests n vs => { f with src := .requests (n - 1) (vs ++ [(lane, v)]) }
        | _ => f
      else f }

/-! ### Accesses of a team (R410 step 5, R373, R374) -/

/-- What the checks on one access find. -/
inductive Acc where
  | ok (loc : Nat)
  | fault (cause : Byte)
  /-- The access is held: by a lower block's range (R374), or at a halted die (R452). -/
  | hold (w : WaitOn)
  deriving DecidableEq, Repr

/-- The block whose write range holds a byte of an ordered launch (R373); the only block of a launch owns all of its own. -/
def rangeOwner (l : Level) (va : Nat) : Option Nat :=
  l.kd.wr.findSome? fun x =>
    let w := (l.wbase.getD (x.1 - 1) 0).toNat
    if va < w then none
    else
      let j := if x.2.1 = 0 || l.blocks = 1 then 0 else (va - w) / x.2.1
      if va - w - j * x.2.1 < x.2.2 && j < l.blocks then some j else none

/-- Bytes of the team's private region (R83). -/
def privateBytes (t : Team) : Nat := t.lanes / 32 * t.stklim * 128
def inPrivate (t : Team) (va n : Nat) : Bool := t.prvbase.toNat ≤ va && va + n ≤ t.prvbase.toNat + privateBytes t

/-- A location lies in an allocation of the team's own block. -/
def inOwnBlock (s : State) (t : Team) (loc : Nat) : Bool :=
  targetOf loc = .scratch && s.blocks.any fun b =>
    b.part = t.part && b.launch = t.launch && b.blk = t.blk &&
    locScratch b.die.toNat b.core.toNat b.off ≤ loc && loc < locScratch b.die.toNat b.core.toNat b.off + b.size

/-- The targets that an ordered launch's block may write (R373). -/
def mayWrite (s : State) (t : Team) (l : Level) (va loc n : Nat) : Bool :=
  ((List.range n).all fun i => rangeOwner l (va + i) = some t.blk.toNat) || inOwnBlock s t loc || inPrivate t va n

/-- R373 and R374 on an access that every earlier check allows. -/
def ordAccess (s : State) (t : Team) (va : Word) (n : Nat) (acc : Access) (loc : Nat) : Acc :=
  match levelOfLaunch s t.part t.launch with
  | none => .ok loc
  | some l =>
    match acc with
    | .wr => if mayWrite s t l va.toNat loc n then .ok loc else .fault 0x41
    | .rd =>
      let owners := (List.range n).filterMap fun i => rangeOwner l (va.toNat + i)
      if owners.any fun j => t.blk.toNat < j then .fault 0x41
      else
        match owners.find? fun j => j < t.blk.toNat && !l.doneBlks.contains (BitVec.ofNat 32 j) with
        | some j => .hold (.lower (BitVec.ofNat 32 j))
        | none => .ok loc
    | _ => .ok loc

/-- The checks of step 5 on one access of the current team. -/
def access (s : State) (va : Word) (n align : Nat) (acc : Access) : Acc :=
  match locate s s.team.who va n align acc with
  | .error c => .fault c
  | .ok loc => reach s va n acc loc
where
  /-- What a location that every earlier check allows meets: a capsule's steps are not bound by write ranges (R373). -/
  reach (s : State) (va : Word) (n : Nat) (acc : Access) (loc : Nat) : Acc :=
    if heldAccess s s.team.who acc loc then .hold .resource
    else if ordered s.team && !inBody s.team then ordAccess s s.team va n acc loc
    else .ok loc

/-- The plain stores of an instruction of the current team, one write of a line or a granule together (R445): buffered in a
capsule body (R297) or an ordered quantum (R371). -/
def storeAll (s : State) (xs : List BufStore) : State :=
  if inBody s.team then { s with team := { s.team with capBuf := s.team.capBuf ++ xs } }
  else if ordered s.team then { s with team := { s.team with obuf := s.team.obuf ++ xs.map OrdReq.store } }
  else clearPoison (storesOut s s.team.who xs)
    ((xs.filter fun b => !cachedLoc s b.loc).map fun b => (b.loc, b.data.length))

def storeTeam (s : State) (loc : Nat) (bs : List Byte) : State := storeAll s [⟨loc, bs⟩]

/-! ### The system-call ring (R312) -/

/-- The hall, as the writer of ring entries and completion words. -/
def hallPlace : Place := ⟨8, 0, 0⟩

def ringOpen (p : Part) : Bool := p.scEn && p.scTail.toNat - p.scHead.toNat != 2 ^ p.scLogn.toNat
def ringSlot (p : Part) : Word := BitVec.ofNat 64 (p.scBase.toNat * 128 + p.scTail.toNat % 2 ^ p.scLogn.toNat * 128)

/-- The 128 bytes of an entry. -/
def entryBytes (kind code : Nat) (target frame token : Word) (data : List Byte) : List Byte :=
  bytesOfNat 4 kind ++ bytesOfNat 4 code ++ bytesOfNat 8 target.toNat ++ bytesOfNat 8 frame.toNat ++
    bytesOfNat 8 token.toNat ++ sliceBytes (data ++ bytesOfNat 64 0) 0 64 ++ bytesOfNat 32 0

/-- Where n bytes at a virtual address of an ASID lie for the command processor (R463): none where some byte cannot be
reached. -/
def hallSpan (s : State) (p : BitVec 4) (asid : BitVec 13) (acc : Access) (va : Word) (n : Nat) : Option (List (Nat × Nat)) :=
  match locateSpan s ⟨p, asid, hallPlace, 0, 0⟩ acc va n with
  | .ok ps => some ps
  | .error _ => none

/-- A piece that the hall reads or writes is held on its way. -/
def hallHeld (s : State) (acc : Access) (x : Nat × Nat) : Bool :=
  (s.pkstat.halted != 0 || !(heldLinks s).isEmpty) && (linesOf x.1 x.2).any fun l =>
    (if acc = .wr then writeHalted s (l * 128) else heldByHalt s (l * 128)) || heldOnWay s 8 false (l * 128)


/-- Bytes performed by the hall. -/
def hallPerform (s : State) (x : HallOut) : State :=
  performStore (flushLines s x.loc x.data.length) x.part hallPlace x.loc x.data

/-- Bytes at pieces, written by the hall; a piece that is held waits, and so does every write of the hall after it. -/
def hallStore (s : State) (p : BitVec 4) : List (Nat × Nat) → List Byte → State
  | [], _ => s
  | (loc, n) :: rest, bs =>
    let x : HallOut := ⟨p, loc, bs.take n⟩
    let s1 := if s.hallOut.isEmpty && !hallHeld s .wr (loc, n) then hallPerform s x else { s with hallOut := s.hallOut ++ [x] }
    hallStore s1 p rest (bs.drop n)

/-- The first held write of the hall goes on. -/
def hallGo (s : State) : Option State :=
  match s.hallOut with
  | [] => none
  | x :: rest => if hallHeld s .wr (x.loc, x.data.length) then none else some (hallPerform { s with hallOut := rest } x)

/-- Some byte of the pieces is homed on a lost die: a request for it is never answered (R449). -/
def piecesLost (s : State) (ps : List (Nat × Nat)) : Bool :=
  (s.pkstat.lost != 0 || s.pkstat.mlost != 0) && ps.any fun x => (linesOf x.1 x.2).any fun l => homeLost s (l * 128)

/-- An access of the hall is held on its way, behind a write that is, or goes unanswered (R449): the command that makes it
waits. -/
def hallWayHeld (s : State) (p : BitVec 4) (asid : BitVec 13) (acc : Access) (va : Word) (n : Nat) : Bool :=
  (s.pkstat.halted != 0 || !(heldLinks s).isEmpty || !s.hallOut.isEmpty || s.pkstat.lost != 0 || s.pkstat.mlost != 0) &&
    (hallSpan s p asid acc va n).any fun ps =>
      ps.any (hallHeld s acc) || !s.hallOut.isEmpty || (acc == .rd && piecesLost s ps)

/-- The hall writes bytes at a translated address of an ASID (R463): none when it cannot. -/
def hallWrite (s : State) (p : BitVec 4) (asid : BitVec 13) (va : Word) (bs : List Byte) : Option State :=
  (hallSpan s p asid .wr va bs.length).map fun ps => hallStore s p ps bs

/-- The hall reads bytes at a translated address of an ASID. -/
def hallRead (s : State) (p : BitVec 4) (asid : BitVec 13) (va : Word) (n : Nat) : Option (List Byte × State) :=
  match hallSpan s p asid .rd va n with
  | none => none
  | some ps =>
    if piecesLost s ps || ps.any fun x => poisonedIn s x.1 x.2 then none
    else
      let s1 := ps.foldl (fun s x => flushLines s x.1 x.2) s
      some (ps.flatMap fun x => farBytes s1 p x.1 x.2, readPiecesL2 s1 8 asid ps)

/-- Post one entry and advance TAIL: none when the entry's address cannot be accessed. -/
def postEntry (s : State) (p : BitVec 4) (bs : List Byte) : Option State :=
  (hallWrite s p (partOf s p).scAsid (ringSlot (partOf s p)) bs).map fun s1 =>
    let q := partOf s1 p
    setPart s1 p { q with scTail := q.scTail + 1, msix := if q.scIe then q.msix + 1 else q.msix }

/-- A notice dropped and counted. -/
def dropNotice (s : State) (p : BitVec 4) : State :=
  let q := partOf s p
  setPart s p { q with scOvf := true, scLost := q.scLost + 1 }

/-- A fault, halt or report notice never waits (R312). -/
def postNotice (s : State) (p : BitVec 4) (bs : List Byte) : State :=
  if ringOpen (partOf s p) then (postEntry s p bs).getD (dropNotice s p) else dropNotice s p

/-! ### Stops (spec/24, spec/25) -/

/-- A stop raised by an instruction: the fields that the frame takes from it (R401, R411). -/
structure Stop where
  cause : Byte
  pc : Word
  kind : Nat := 5
  flane : Nat := 0
  code : Nat := 0
  faddr : Word := 0
  pix : Word := 0
  deriving DecidableEq, Repr

/-- Causes that FCONT takes (R399). -/
def redirected (c : Byte) : Bool := !([0x02, 0x40, 0x41, 0x50] : List Byte).contains c

/-- The hall notes the first halt of a launch's teams (R403). -/
def noteHalt (s : State) (t : Team) (cause : Byte) : State :=
  { s with levels := s.levels.map fun l =>
      if l.kind = .launch && l.part = t.part && l.launch = t.launch && l.haltCause = 0 then { l with haltCause := cause }
      else l }

/-- Word 8 of a lock record: its owner fields (R291). -/
def ownerWord (t : Team) : Word :=
  BitVec.ofNat 64 (t.launch.toNat + t.place.ctx.toNat * 2 ^ 45 + t.place.core.toNat * 2 ^ 50 + t.place.die.toNat * 2 ^ 56 +
    t.part.toNat * 2 ^ 60)

/-- A holder asks its service team to write STATE (R300, R42). -/
def askState (s : State) (t : Team) (run : Bool) : State :=
  match t.held with
  | some h => { s with capWrites := s.capWrites ++ [⟨t.place, run, h.rcd, ownerWord t⟩] }
  | none => s

/-- A descheduled holder asks for it, or one that resumes; not in an ordered launch that runs (R307). -/
def descheduleCap (s : State) (t : Team) (run : Bool) : State := if ordered t then s else askState s t run

/-- The write of STATE := PARKED asked for a team has not been performed (R300). -/
def parkPending (s : State) (p : Place) : Bool := s.capWrites.any fun w => w.place == p && !w.run

/-- The team that a request held at a bank answers. -/
def BankReq.team : BankReq → Option Place
  | .ldfe _ _ _ t | .arrive _ _ t | .await _ _ t | .count _ _ t => some t
  | .bytes _ _ _ _ | .notice _ | .expb _ _ => none

/-- The registers that results are on their way to, as empty bits. -/
def dueBits (fs : List Inflight) : BitVec 64 × BitVec 128 :=
  fs.foldl (fun x f => match f.dest with
    | .scal r => (setBit64 x.1 r.toNat true, x.2)
    | .vec r => (x.1, setBit128 x.2 r.toNat true)) (0, 0)

/-- An instruction that waits for a reply is given up: its destinations are full again with their old values (R398). -/
def giveUp (t : Team) : Team :=
  let due := dueBits t.inflight
  { t with request := none, reply := none, asked := false, op := none, spent := [], chosen := none, granted := false,
           arrival := none,
           sEmpty := if t.asked then due.1 else t.sEmpty, vEmpty := if t.asked then due.2 else t.vEmpty }

/-- What a team waits for at a bank, or at a service team for a record, is withdrawn. -/
def withdraw (s : State) (p : Place) : State :=
  { s with bank := s.bank.filter fun r => r.team != some p, capWait := s.capWait.filter fun x => x.2 != p }

/-- The halt of a team (R403): it is not ready, keeps its context at the reported PC, its capsule record stands PARKED,
and a halt notice of KIND 3 is posted. -/
def haltTeam (s : State) (p : Place) (x : Stop) : State :=
  match teamAt s p with
  | none => s
  | some t =>
    let s1 := mapTeam s p fun t =>
      { giveUp t with
               status := .halted x.cause, pc := x.pc, pix := x.pix, stopNo := s.serial,
               cmode := modeSeen t, useCmode := true, pairShadow := none, inPair := false, waitReported := false,
               bkpt := x.cause == 2 }
    let s2 := flushCore (descheduleCap (noteHalt (bumpSerial (withdraw s1 p)) t x.cause) t false) (placeKey p)
    postNotice s2 t.part (entryBytes 3 x.cause.toNat (targetWord p) 0 0 [])

/-- The 1,024 bytes of the fault frame (R401). -/
def frameBytes (t : Team) (x : Stop) : List Byte :=
  bytesOfNat 8 0 ++ bytesOfNat 8 x.pc.toNat ++ bytesOfNat 8 x.pix.toNat ++
  bytesOfNat 8 (x.cause.toNat + x.code % 2048 * 2 ^ 8 + x.flane % 1024 * 2 ^ 32 + x.kind % 8 * 2 ^ 48) ++
  bytesOfNat 8 x.faddr.toNat ++ bytesOfNat 8 t.cc.toNat ++ bytesOfNat 8 t.mode.toNat ++
  bytesOfNat 8 (modeSeen t).toNat ++ bytesOfNat 8 t.fcont.toNat ++
  ((List.range 63).flatMap fun i => bytesOfNat 8 (sget t (BitVec.ofNat 6 (i + 1))).toNat) ++ bytesOfNat 448 0

/-- What becomes of the team's own stores of a frame. -/
inductive Framed where
  | ok (s : State)
  /-- A store faults (R400). -/
  | fault
  /-- A store is held (R374, R452). -/
  | hold (w : WaitOn)
  deriving DecidableEq, Repr

/-- The team's own stores of bytes in 256-byte pieces. -/
def storePieces (s : State) (va : Word) : Nat → List Byte → Framed
  | 0, _ => .ok s
  | n + 1, bs =>
    match access s va 256 1 .wr with
    | .ok loc => storePieces (storeTeam s loc (bs.take 256)) (va + 256) n (bs.drop 256)
    | .fault _ => .fault
    | .hold w => .hold w

/-! ### Lines (spec/08 R164-R171, spec/25 R415-R417) -/

/-- A fetched line: its parcels and its line word. -/
structure Line where
  parcels : List Parcel
  word : Parcel
  deriving DecidableEq, Repr

def Line.p (l : Line) (k : Nat) : Parcel := l.parcels.getD k 0
def Line.tgt (l : Line) (k : Nat) : Bool := k < 15 && l.word.getLsbD k
def Line.pair (l : Line) (k : Nat) : Bool := k < 14 && l.word.getLsbD (15 + k)

def lineOfBytes (bs : List Byte) : Line :=
  let p := fun k => BitVec.ofNat 32 (natAt bs (4 * k) 4)
  ⟨(List.range 15).map p, p 15⟩

/-- The three parity bits (R168). -/
def Line.parityOk (l : Line) : Bool :=
  let px := fun a b => ((l.parcels.drop a).take (b - a)).foldl (fun acc p => acc != parity32 p) false
  px 0 5 == l.word.getLsbD 29 && px 5 10 == l.word.getLsbD 30 &&
    (px 10 15 != parity32 (l.word &&& 0x1FFFFFFF)) == l.word.getLsbD 31

/-- Parcel k and all after it are zero. -/
def Line.zerosFrom (l : Line) (k : Nat) : Bool := (l.parcels.drop k).all fun p => p == 0

/-- The parcel at which fill begins, decoding from k: the first instruction start from which all is zero (R167). -/
def Line.fillFrom (l : Line) : Nat → Nat → Nat
  | 0, k => k
  | fuel + 1, k =>
    if 15 ≤ k || l.zerosFrom k then k else if lengthOf (l.p k) = 0 then 15 else l.fillFrom fuel (k + lengthOf (l.p k))

/-- Parcel k is fill (R167). -/
def Line.fillAt (l : Line) (k : Nat) : Bool := l.fillFrom 16 0 ≤ k

/-- The instruction starts of a line, or the case of R170 that decoding meets: 1 a length of 0b11, 2 past parcel 14. -/
def Line.starts (l : Line) : Nat → Nat → Except Nat (List Nat)
  | 0, _ => .ok []
  | fuel + 1, k =>
    if 15 ≤ k || l.zerosFrom k then .ok []
    else
      let n := lengthOf (l.p k)
      if n = 0 then .error 1
      else if 15 < k + n then .error 2
      else
        match l.starts fuel (k + n) with
        | .ok rest => .ok (k :: rest)
        | .error c => .error c

/-- The instruction that begins at parcel k, if its encoding is assigned. -/
def Line.instr (l : Line) (k : Nat) : Option (Instr × Nat) :=
  match decode (l.parcels.drop k) with
  | .ok x => some x
  | .error _ => none

/-- Whether the instruction at parcel k and the next form a legal pair (R170 case 7). -/
def Line.pairOk (l : Line) (k next : Nat) : Bool :=
  match l.instr k, l.instr next with
  | some (a, _), some (b, _) => pairLegal a.uses b.uses
  | _, _ => false

/-- The start after each start of a list. -/
def nextStart (ks : List Nat) (k : Nat) : Option Nat := (ks.dropWhile fun x => x != k).drop 1 |>.head?

/-- Legality (R170): the lowest case that applies, or 0. -/
def Line.illegal (l : Line) : Nat :=
  match l.starts 16 0 with
  | .error c => c
  | .ok ks =>
    let pairs := (List.range 14).filter l.pair
    if (List.range 15).any fun k => l.tgt k && !ks.contains k then 3
    else if pairs.any fun k => !ks.contains k || (nextStart ks k).isNone then 4
    else if pairs.any fun k => (nextStart ks k).any l.pair then 5
    else if pairs.any fun k => (nextStart ks k).any l.tgt then 6
    else if pairs.any fun k => !((nextStart ks k).any fun n => l.pairOk k n) then 7
    else 0

def lineBase (a : Word) : Word := BitVec.ofNat 64 (a.toNat / 64 * 64)
def parcelOf (a : Word) : Nat := a.toNat % 64 / 4

/-- The location of the line that holds an address, or the underlying failure of the fetch (R165). -/
def fetchLoc (s : State) (w : Who) (a : Word) : Except Nat Nat :=
  let b := (lineBase a).toNat
  match decodeWindow s w b 64 .fetch with
  | some _ => .error 0x13
  | none =>
    match translate s w.part w.asid b .fetch with
    | .ok loc => .ok loc
    | .error c => .error c.toNat

/-- A byte as a team fetches it: what it has buffered in its quantum, then its core's view. A fetch sees every store of its
own core at once, which R165 allows: DESIGN CHOICE, log 71. -/
def fetchByte (s : State) (t : Team) (loc : Nat) : Byte :=
  match bufByte (ordStores t.obuf) loc with
  | some b => b
  | none => coreByte s t.part (placeKey t.place) loc

/-- The line that holds an address as the team fetches it, or its failure by R415 steps 1 to 3: the cause and CODE. A
line that fails parity is fetched again from L2 (R445). A fetch from a poisoned line fails as one that fails parity again,
since poison is never returned as a value: DESIGN CHOICE, log 71. -/
def fetchLine (s : State) (t : Team) (a : Word) : Except (Byte × Nat) Line :=
  if a.toNat / 2 ^ 52 != 0 then .error (0x11, 0)
  else
    match fetchLoc s t.who a with
    | .error c => .error (0x13, c)
    | .ok loc =>
      let l1 := lineOfBytes (bytesBy (fetchByte s t) loc 64)
      let l := if l1.parityOk then l1 else lineOfBytes (memBytes s loc 64)
      if !l.parityOk || poisoned s loc then .error (0x51, 0)
      else if l.illegal != 0 then .error (0x20, l.illegal)
      else .ok l

/-- The TGT bit that a transfer to an address is checked against (R167): none while its line fails an earlier check. -/
def tgtBit (s : State) (t : Team) (a : Word) : Option Bool :=
  match fetchLine s t a with
  | .error _ => none
  | .ok l =>
    if l.fillAt (parcelOf a) then
      match fetchLine s t (lineBase a + 64) with
      | .error _ => none
      | .ok l2 => some (l2.tgt 0)
    else some (l.tgt (parcelOf a))

/-- A checked transfer's target (R415 check 4, R416): the cause it raises, if any. -/
def badTarget (s : State) (t : Team) (a : Word) : Option Byte :=
  if a.toNat / 2 ^ 52 != 0 then some 0x11
  else if a.toNat % 4 != 0 || a.toNat % 64 = 60 then some 0x21
  else if tgtBit s t a = some false then some 0x21
  else none

/-- Whether the line at FCONT passes every step of R415 (R417). -/
def contOk (s : State) (t : Team) (a : Word) : Bool :=
  a.toNat / 2 ^ 52 == 0 && a.toNat % 64 != 60 && tgtBit s t a == some true

/-! ### Taking a stop: redirection, halt and capsule fault (R295, R400, R403) -/

/-- Redirection, after the frame has been written (R400 steps 2 to 5). -/
def redirect (s : State) (x : Stop) : State :=
  let t := s.team
  let s1 : State := { withdraw s t.place with team :=
    { giveUp t with
             setAsides := ⟨t.em, t.dstk, t.lstk, t.fframe, x.pc, x.cause⟩ :: t.setAsides, em := laneMask t.lanes, dstk := [], lstk := [],
             fcont := 0, pix := 0, pc := t.fcont, status := .ready, pairShadow := none, inPair := false,
             useCmode := false, stopNo := s.serial, waitReported := false } }
  let s2 := flushCore (bumpSerial s1) (placeKey t.place)
  postNotice s2 t.part (entryBytes 2 x.cause.toNat (targetWord t.place) t.fframe 0 [])

def recWord (s : State) (rcd off : Nat) : Word := BitVec.ofNat 64 (memNat s (rcd + off) 8)
def recSet (s : State) (rcd off : Nat) (v : Word) : State := ownWrite s (rcd + off) (bytesOfNat 8 v.toNat)

/-- The owner fields of a held record name the team. -/
def owns (s : State) (t : Team) (rcd : Nat) : Bool :=
  (recWord s rcd 0).getLsbD 0 && recWord s rcd 8 == ownerWord t

/-- The end of an instance: OUT and SINST, HELD := 0 (R259, R295). -/
def endInstance (s : State) (rcd out : Nat) : State :=
  let w0 := recWord s rcd 0
  let s1 := recSet s rcd 192 (BitVec.ofNat 64 (out + fld w0 63 32 * 2 ^ 32))
  let s2 := recSet s1 rcd 0 (setFld w0 0 0 0)
  { s2 with locks := s2.locks.filter fun l => l != rcd, bodies := s2.bodies.filter fun b => b.1 != rcd }

/-- A record marked broken: OUT, SINST, HELD and STATE as one act (R295, R450). -/
def breakRecord (s : State) (rcd : Nat) : State := recSet (endInstance s rcd 3) rcd 16 0

/-- A capsule fault (R295): the step's stores are discarded, the record is broken if the team still owns it, and the team
halts with cause 0x40. -/
def capsuleFault (s : State) (pc : Word) : State :=
  let t := s.team
  let s1 := match t.held with
    | some h => if owns s t h.rcd then breakRecord s h.rcd else s
    | none => s
  let s2 : State := { s1 with team := { t with capBuf := [], held := none, displaced := none, capCount := 0 } }
  haltTeam s2 t.place { cause := 0x40, pc := pc }

/-! ### Return (R404) -/

/-- The fields that RFT and RESUME restore from a frame of 1,024 bytes, and the set-aside brought back. The captured MODE applies
to the resumed instruction, whether or not it stopped part-way. -/
def restoreFrame (t : Team) (bs : List Byte) : Team :=
  let w := fun o => BitVec.ofNat 64 (natAt bs o 8)
  let t1 := (List.range 63).foldl (fun t i => sset t (BitVec.ofNat 6 (i + 1)) (w (72 + 8 * i))) t
  let t2 := { t1 with
    pc := w 8, pix := setFld (w 16) 62 32 0, cc := (w 40).setWidth 7,
    mode := ((w 48).setWidth 6 &&& 0x1F) ||| (t.mode &&& 0x20), cmode := (w 56).setWidth 6,
    useCmode := true, fcont := setFld (w 64) 1 0 0 }
  match t.setAsides with
  | [] => t2
  | a :: rest => { t2 with em := a.em, dstk := a.dstk, lstk := a.lstk, setAsides := rest }

/-! ### Service teams (R85, R250) -/

/-- The new value of an atomic from the old value and the operands at w bits; none: no write (R249). -/
def atomNew (op : AtomOp) (dw : Bool) (o x c : Nat) : Option Nat :=
  let w := if dw then 64 else 32
  let si := fun v => toSigned w (v % 2 ^ w)
  match op with
  | .add => some ((o + x) % 2 ^ w)
  | .and => some (o &&& x)
  | .or => some (o ||| x)
  | .xor => some (o ^^^ x)
  | .min => some (if si x < si o then x else o)
  | .max => some (if si o < si x then x else o)
  | .minn => some (min o x)
  | .maxn => some (max o x)
  | .swap => some x
  | .cas => if o = c then some x else none
  | .fadd => some (fpAdd (if dw then .f64 else .f32) ⟨0, false, false, false⟩ o x)

def atomBytes (dw : Bool) : Nat := if dw then 8 else 4

/-- One request performed as one act, and its reply (R250, R86). A service team on a lost die answers none (R449); poison that a
request meets halts its team (R445). DEDUCED, log 51. -/
def serveAtom (s : State) (e : SvcEntry) : State :=
  let r := e.req
  let n := atomBytes r.dw
  let s1 := flushLines s r.loc n
  if s.pkstat.lost != 0 && s.pkstat.lost.getLsbD (e.cluster / 6) then s
  else if poisonedIn s1 r.loc n then mapTeam s1 e.place fun t => { t with softErr := some 4 }
  else
    let o := memNat s1 r.loc n
    let s2 := match atomNew r.op r.dw o (r.x.toNat % 2 ^ (8 * n)) (r.cmp.toNat % 2 ^ (8 * n)) with
      | some v => performStore s1 e.part e.place r.loc (bytesOfNat n v)
      | none => countWrites s1 r.loc n
    match r.dest with
    | some d => mapTeam s2 e.place fun t => reply t d r.lane (extBytes n r.sx o)
    | none => s2

/-- Every request at the service teams that no halted die holds is performed, in arrival order. DESIGN CHOICE, log 11. -/
def drain (s : State) : State :=
  (s.service.filter fun e => !serviceHalted s e.req.loc).foldl serveAtom
    { s with service := s.service.filter fun e => serviceHalted s e.req.loc }

/-- TAKING A STOP: an instruction of the current team raises `x`; none while a store of the frame is held (R374, R452). The
team's own requests are performed before the frame, and the notice is a release at .sys (R102, R401). -/
def tryRaise (s : State) (x : Stop) : Option State :=
  if inBody s.team then some (capsuleFault s x.pc)
  else if redirected x.cause && s.team.fcont != 0 && s.team.setAsides.length < 2 then
    let s1 := drain s
    match storePieces s1 s1.team.fframe 4 (frameBytes s1.team x) with
    | .hold _ => none
    | .fault => some (haltTeam s1 s1.team.place x)
    | .ok s2 => some (if contOk s2 s1.team s1.team.fcont then redirect s2 x else haltTeam s2 s1.team.place x)
  else some (haltTeam s s.team.place x)

/-- The current team's block straddles (R30). -/
def straddleBlock (s : State) : Bool :=
  s.blocks.any fun b => b.straddle && b.part == s.team.part && b.launch == s.team.launch && b.blk == s.team.blk

/-- A release of the current team (R93): nothing at .team; beyond it its requests are performed, and beyond the core its
core's dirty lines. -/
def release (s : State) (sc : Scope) : State :=
  match sc with
  | .team => s
  | .core => drain s
  | .block => if straddleBlock s then flushCore (drain s) (placeKey s.team.place) else drain s
  | .die | .dev | .sys => flushCore (drain s) (placeKey s.team.place)

/-- A release of the current team must wait: the write-back of a dirty line, or a request of the team, is held. -/
def releaseWaits (s : State) (sc : Scope) : Bool :=
  let k := placeKey s.team.place
  match sc with
  | .team => false
  | .core => sent s
  | .block => sent s || (straddleBlock s && waits s k)
  | .die | .dev | .sys => sent s || waits s k
where
  sent (s : State) : Bool := s.service.any fun e => e.place == s.team.place && serviceHalted s e.req.loc
  waits (s : State) (k : Nat) : Bool := s.dirty.any fun x => x.1 / 2 ^ 56 == k && writeBackHeld s k (x.1 % 2 ^ 56)

/-- Wait for one register of the current team: its result is delivered, after the service teams have performed what it
needs. None while it must wait for a broadcast, or for a quantum end (R369). -/
def awaitDest (s : State) (d : Dest) : Option State :=
  if destEmpty s.team d then
    match deliver s.team d with
    | some t => some { s with team := t }
    | none => let s1 := drain s; (deliver s1.team d).map fun t => { s1 with team := t }
  else some s

/-- Wait for registers in turn. -/
def awaitAll (s : State) : List Dest → Option State
  | [] => some s
  | d :: rest => (awaitDest s d).bind fun s1 => awaitAll s1 rest

/-- Every scalar result on its way is delivered: a frame holds no stale register (R57). -/
def awaitScalars (s : State) : Option State :=
  awaitAll s (s.team.inflight.filterMap fun f => match f.dest with
    | .scal r => some (.scal r)
    | .vec _ => none)

end Sys2Proof.Machine
end

