-- ==== Sys2Proof/Machine/Flags.lean ====
section
/-! DEFINITION. Every flag computation of the manual: CMP (spec/09 R191), SPAWN (R209), VANY and VALL (spec/10 R236),
barrier arrivals (spec/11 R256), capsules (R259), queues and dispensers (R261-R264), CTXLD (spec/24 R405). -/

namespace Sys2Proof.Machine

def bitIf (b : Bool) (f : Nat) : Nat := if b then f else 0

/-- Z, N, C and V of x − y (R191). -/
def cmpFlags (x y : Word) : Nat :=
  let diff := x - y
  let d := x.toInt - y.toInt
  bitIf (diff == 0) ccZ + bitIf diff.msb ccN + bitIf (decide (y.toNat ≤ x.toNat)) ccC +
    bitIf (decide (d < -(2 ^ 63)) || decide (2 ^ 63 - 1 < d)) ccV

/-- CMP and CMPI: L, A and F are unchanged. -/
def setCmp (t : Team) (x y : Word) : Team := setCC t (ccZ + ccN + ccC + ccV) (cmpFlags x y)

/-- SPAWN: Z = F = 1 when nothing is created. -/
def setSpawn (t : Team) (failed : Bool) : Team := setCC t (ccZ + ccF) (bitIf failed (ccZ + ccF))

/-- VANY, VALL and CTXLD: Z alone. -/
def setZ (t : Team) (z : Bool) : Team := setCC t ccZ (bitIf z ccZ)

/-- A barrier arrival: L alone. -/
def setL (t : Team) (l : Bool) : Team := setCC t ccL (bitIf l ccL)

/-- Queue and dispenser instructions: F alone. -/
def setF (t : Team) (f : Bool) : Team := setCC t ccF (bitIf f ccF)

/-- CAP.ENTER: A alone; the other capsule instructions: Z and A as given. -/
def setA (t : Team) (a : Bool) : Team := setCC t ccA (bitIf a ccA)
def setZA (t : Team) (z a : Bool) : Team := setCC t (ccZ + ccA) (bitIf z ccZ + bitIf a ccA)

/-- The condition of a branch on CC (R177). -/
def condHolds (c : Cond) (t : Team) : Bool :=
  let z := flag t ccZ
  let n := flag t ccN
  let cc := flag t ccC
  let v := flag t ccV
  match c with
  | .al => true
  | .eq => z
  | .ne => !z
  | .lt => n != v
  | .ge => n == v
  | .gt => !z && n == v
  | .le => z || n != v
  | .lo => !cc
  | .hs => cc
  | .hi => cc && !z
  | .ls => !cc || z
  | .vs => v
  | .last => flag t ccL
  | .adpt => flag t ccA
  | .full => flag t ccF
  | .nfull => !flag t ccF

end Sys2Proof.Machine
end

