-- ==== Sys2Proof/Machine/Bank.lean ====
section
/-! DEFINITION. Scratchpad banks: granules (spec/04 R81, R82), barrier objects with their completion step and cross
notices (spec/11 R254-R257, spec/19 R359), and the landing of engine bytes (spec/26 R439). -/

namespace Sys2Proof.Machine

/-! ### Granules -/

def granuleFull (s : State) (loc : Nat) : Bool := s.full.contains (loc / 16)
def setFull (s : State) (loc : Nat) : State :=
  if granuleFull s loc then s else { s with full := s.full ++ [loc / 16] }
def setEmpty (s : State) (loc : Nat) : State := { s with full := s.full.filter fun g => g != loc / 16 }

/-- The granule belongs to an initialised barrier object (R439). -/
def taggedGranule (s : State) (loc : Nat) : Bool := s.tags.any fun t => t / 16 == loc / 16 || t / 16 + 1 == loc / 16

/-- LDFE at its bank (R248): none while the granule is empty. -/
def bankLdfe (s : State) (loc n : Nat) (clear : Bool) : Option (State × SvcReply) :=
  if granuleFull s loc then
    let bs := memBytes s loc n
    some (if clear && !taggedGranule s loc then setEmpty s loc else s,
      { vals := [natWord bs 0, natWord bs 8], poison := poisonedIn s loc n })
  else none
where
  natWord (bs : List Byte) (off : Nat) : Word := BitVec.ofNat 64 (natAt bs off 8)

/-! ### Barrier objects (R254) -/

/-- The words of an object. -/
structure BarObj where
  phase : Nat
  x : Bool
  expa : Nat
  defb : Nat
  expb : Nat
  arrived : Nat
  landed : Nat
  deriving DecidableEq, Repr

def readObj (s : State) (obj : Nat) : BarObj :=
  let w := fun i => memNat s (obj + 8 * i) 8
  { phase := w 0 / 2 ^ 32, x := w 0 / 2 ^ 16 % 2 == 1, expa := w 0 % 2 ^ 16, defb := w 1 / 2 ^ 32,
    expb := w 1 % 2 ^ 32, arrived := w 2 % 2 ^ 16, landed := w 3 }

def writeObj (s : State) (obj : Nat) (b : BarObj) : State :=
  rawWrite s obj (bytesOfNat 8 (b.expa + (if b.x then 2 ^ 16 else 0) + b.phase % 2 ^ 32 * 2 ^ 32) ++
    bytesOfNat 8 (b.expb % 2 ^ 32 + b.defb % 2 ^ 32 * 2 ^ 32) ++ bytesOfNat 8 (b.arrived % 2 ^ 16) ++
    bytesOfNat 8 (b.landed % 2 ^ 64))

/-- Both granules of the object are full: the bank performs requests on it (R255). -/
def objReady (s : State) (obj : Nat) : Bool := granuleFull s obj && granuleFull s (obj + 16)

/-! ### Cross objects (R257) -/

def crossOf (s : State) (obj : Nat) : CrossObj := (s.cross.find? fun c => c.obj = obj).getD ⟨obj, false, 0⟩
def putCross (s : State) (c : CrossObj) : State := { s with cross := c :: s.cross.filter fun d => d.obj != c.obj }

/-- The allocation that a scratchpad location lies in. -/
def blockOfLoc (s : State) (loc : Nat) : Option Block :=
  s.blocks.find? fun b =>
    locScratch b.die.toNat b.core.toNat b.off ≤ loc && loc < locScratch b.die.toNat b.core.toNat b.off + b.size

/-- The twin of a cross object: the same offset in the other half. -/
def twinObj (s : State) (obj : Nat) : Option Nat :=
  match blockOfLoc s obj with
  | none => none
  | some b =>
    (s.blocks.find? fun c => c.straddle && c.part == b.part && c.launch == b.launch && c.blk == b.blk && c.half != b.half).map
      fun c => locScratch c.die.toNat c.core.toNat c.off + (obj - locScratch b.die.toNat b.core.toNat b.off)

/-- The completion step (R255). A second turn of its loop would need EXPA = 0, which BAR.INIT refuses. -/
def completeObj (s : State) (obj : Nat) : State :=
  let b := readObj s obj
  if b.arrived == b.expa && decide (b.expb ≤ b.landed) then
    let next := { b with landed := b.landed - b.expb, arrived := 0, expb := b.defb, phase := (b.phase + 1) % 2 ^ 32 }
    if !b.x then writeObj s obj next
    else
      let c := crossOf s obj
      let s1 := if c.localDone then s else { s with notices := s.notices ++ (twinObj s obj).toList }
      if 0 < c.noticed then putCross (writeObj s1 obj next) { c with localDone := false, noticed := c.noticed - 1 }
      else putCross s1 { c with localDone := true }
  else s

/-! ### Requests at the bank (R82, R255)

A bank performs the requests that it can, in their order of arrival, and keeps the others in that order. -/

/-- The bytes of an engine are counted (R99). -/
def landBytes (s : State) (obj n : Nat) : State :=
  let b := readObj s obj
  completeObj (writeObj s obj { b with landed := b.landed + n }) obj

/-- BAR.EXPB (R256). -/
def expectBytes (s : State) (obj n : Nat) : State :=
  let b := readObj s obj
  completeObj (writeObj s obj { b with expb := min (b.expb + n) (2 ^ 32 - 1) }) obj

/-- A cross notice is received (R257, R359): notices are applied in phase order. -/
def takeNotice (s : State) (obj : Nat) : State :=
  let c := crossOf s obj
  completeObj (putCross s { c with noticed := c.noticed + 1 }) obj

/-- What an arrival finds (R256). -/
inductive Arrival where
  | wait
  | wrongKind
  | counted (s : State) (phase : Nat) (last : Bool)
  deriving DecidableEq, Repr

/-- BAR.ARR and BAR.ARRX at the bank. DESIGN CHOICE, log 26. -/
def arrive (s : State) (obj : Nat) (cross : Bool) : Arrival :=
  if !objReady s obj then .wait
  else
    let b := readObj s obj
    if b.x != cross then .wrongKind
    else if b.arrived == b.expa then .wait
    else
      let s1 := writeObj s obj { b with arrived := b.arrived + 1 }
      .counted (completeObj s1 obj) b.phase (b.arrived + 1 == b.expa)

/-- Phase p of an object is complete: (PHASE − p) mod 2^32 lies in 1 to 2^31 (R256). -/
def phaseDone (s : State) (obj p : Nat) : Bool :=
  objReady s obj &&
    (let d := ((readObj s obj).phase + 2 ^ 32 - p % 2 ^ 32) % 2 ^ 32
     decide (1 ≤ d) && decide (d ≤ 2 ^ 31))

/-- The granule or the object that a request names. -/
def BankReq.obj : BankReq → Nat
  | .bytes o _ _ _ => o
  | .notice o => o
  | .expb o _ => o
  | .ldfe l _ _ _ => l
  | .arrive o _ _ => o
  | .await o _ _ => o
  | .count o _ _ => o

/-- A failure found at a bank or a service team: the cause, CODE, access kind and address (none: the object's). -/
def svcFault (c : Byte) (code kind : Nat) (a : Option Word) : SvcReply := { err := some (c, code, kind, a) }

/-- The reply of a bank or a service team reaches its team. -/
def answer (s : State) (p : Place) (r : SvcReply) : State := mapTeam s p fun t => { t with reply := some r }

/-- An ordered team's arrival is counted at its bank; its phase completes later in the quantum end (R370, R376). -/
def countArrival (s : State) (obj : Nat) (cross : Bool) (p : Place) : Option State :=
  if !objReady s obj then none
  else
    let b := readObj s obj
    if b.x != cross then some (mapTeam s p fun t => { t with reply := some (svcFault 0x23 0x23 5 none), arrival := none })
    else if b.arrived == b.expa then none
    else
      some (mapTeam (writeObj s obj { b with arrived := b.arrived + 1 }) p fun t =>
        { t with arrival := some ⟨obj, cross, some (BitVec.ofNat 32 b.phase)⟩ })

/-- One request performed at its bank: none while it must wait. -/
def bankTry (s : State) (r : BankReq) : Option State :=
  match r with
  | .bytes o n _ _ => if objReady s o then some (landBytes s o n) else none
  | .notice o => if objReady s o then some (takeNotice s o) else none
  | .expb o n => if objReady s o then some (expectBytes s o n) else none
  | .ldfe loc n clear t => (bankLdfe s loc n clear).map fun (s1, rep) => answer s1 t rep
  | .arrive o cross t =>
    match arrive s o cross with
    | .wait => none
    | .wrongKind => some (answer s t (svcFault 0x23 0x23 5 none))
    | .counted s1 phase last => some (answer s1 t { full := last, vals := [BitVec.ofNat 64 phase] })
  | .await o p t => if phaseDone s o p then some (answer s t {}) else none
  | .count o cross t => countArrival s o cross t

/-- The first of the requests held that can be performed. -/
def firstHeld (s : State) : List BankReq → Option State
  | [] => none
  | r :: rest =>
    match bankTry { s with bank := s.bank.erase r } r with
    | some s1 => some s1
    | none => firstHeld s rest

def bankLoop : Nat → State → State
  | 0, s => s
  | n + 1, s =>
    match firstHeld s s.bank with
    | some s1 => bankLoop n s1
    | none => s

/-- What a bank holds is performed, as far as it can be. -/
def settleBank (s : State) : State := bankLoop s.bank.length s

/-- A request reaches the bank. Bytes counted at a place in no resident allocation are discarded and reported (R439). -/
def atBank (s : State) (r : BankReq) : State :=
  match r with
  | .bytes o _ p t =>
    if (blockOfLoc s o).isNone then report s p 2 (targetWord t) (addrOfLoc s o) else reach s r
  | _ => reach s r
where
  reach (s : State) (r : BankReq) : State :=
    match bankTry s r with
    | some s1 => settleBank s1
    | none => { s with bank := s.bank ++ [r] }

/-- BAR.INIT (R256): the object is set up, its granules are full and tagged, written whole (R445), and what was held there is
performed in arrival order. -/
def initObj (s : State) (obj expa defb : Nat) (x : Bool) : State :=
  let s1 := writeObj s obj { phase := 0, x := x, expa := expa, defb := defb, expb := defb, arrived := 0, landed := 0 }
  let s2 := setFull (setFull s1 obj) (obj + 16)
  settleBank { s2 with poisonGranules := s2.poisonGranules.filter fun g => g != obj / 16 && g != obj / 16 + 1,
                       tags := if s2.tags.contains obj then s2.tags else s2.tags ++ [obj],
                       cross := s2.cross.filter fun c => c.obj != obj }

/-! ### Engine counters (R65) -/

def cntOf (t : Team) : EClass → Nat
  | .cpy => t.cntCpy.toNat
  | .mxa => t.cntMxa.toNat
  | .gth => t.cntGth.toNat
  | .col => t.cntCol.toNat

def setCnt (t : Team) (c : EClass) (v : Nat) : Team :=
  let x := BitVec.ofNat 6 v
  match c with
  | .cpy => { t with cntCpy := x }
  | .mxa => { t with cntMxa := x }
  | .gth => { t with cntGth := x }
  | .col => { t with cntCol := x }

/-- An operation leaves its class's count (R98). -/
def retireOp (s : State) (o : EngOp) : State :=
  let s1 : State := { s with engines := s.engines.filter fun e => e.id != o.id }
  let f := fun t : Team =>
    if t.place = o.place && t.launch = o.launch && t.part = o.part then setCnt t o.cls (cntOf t o.cls - 1) else t
  if o.counted then mapSaved (mapTeam s1 o.place f) f else s1

end Sys2Proof.Machine
end

