-- ==== Sys2Proof/Machine/Leave.lean ====
section
/-! DEFINITION. Requests for leave at the dies' arbiters (spec/17 R344), the loop that holds a core's array (spec/12 R278), and when
the cap binds (R345). -/

namespace Sys2Proof.Machine

/-- An operation is a matrix loop that has begun its K-steps. -/
def loopHolds (e : EngOp) : Bool :=
  e.atArray && match e.work with
    | .mxloop _ _ _ _ _ _ _ => true
    | _ => false

/-- A matrix loop holds the array of core k, one that stands saved with the core's matrix state too (R278). DEDUCED, log 62. -/
def arrayHeld (s : State) (k : Nat) : Bool :=
  (s.engines.any fun e => placeKey e.place == k && loopHolds e) ||
    s.preempted.any fun x => coreKey x.die x.core == k && x.ops.any loopHolds

/-- A product whose array a loop holds: it is not the arbiter that it waits for (R278). -/
def waitsLoop (s : State) : LeaveReq → Bool
  | .mma p _ => arrayHeld s (placeKey p)
  | .op _ | .wake _ _ => false

/-- A leave request has waited 20 μs, or IAVG exceeds CAP. -/
def capBinds (s : State) (d : DieState) : Bool :=
  d.cap.toNat < d.iavg.toNat || d.leave.any fun x => decide (x.2 + 20000 ≤ s.time) && !waitsLoop s x.1

/-- TIME when the cap last bound. -/
def noteBound (s : State) (d : DieState) : DieState := if capBinds s d then { d with lastBound := some s.time } else d

/-- A request joins a die's queue, once. The hall die has no arbiter. -/
def askLeave (s : State) (die : Nat) (r : LeaveReq) : State :=
  let d := dieOf s die
  if d.leave.any fun x => x.1 == r then s else setDie s die { d with leave := d.leave ++ [(r, s.time)] }

def dropLeave (s : State) (die : Nat) (r : LeaveReq) : State :=
  let d := dieOf s die
  if d.leave.any fun x => x.1 == r then setDie s die { noteBound s d with leave := d.leave.filter fun x => x.1 != r } else s

/-- A request for leave is that of a product of the team in a context. -/
def isProduct (p : Place) : LeaveReq → Bool
  | .mma q _ => q == p
  | _ => false

/-- The products of a team that wait for leave ask for it no more (R344). -/
def dropProducts (s : State) (p : Place) : State :=
  if s.dies.any fun x => x.2.leave.any fun r => isProduct p r.1 then
    { s with dies := s.dies.map fun x => (x.1, { noteBound s x.2 with leave := x.2.leave.filter fun r => !isProduct p r.1 }) }
  else s

end Sys2Proof.Machine
end

