-- ==== Sys2Proof/Machine/Placing.lean ====
section
/-! DEFINITION. A team at its start (spec/03 R47-R66), and the placing of one instruction where the machine fetches its
next: a team on core 0.0, a page table that maps its code, and a line with correct parity. -/

namespace Sys2Proof.Machine

/-- k1 to k7 hold all lanes at team start (R52). -/
def startMasks (lanes : Nat) : List (Nat × Mask) := (List.range 7).map fun i => (i + 1, laneMask lanes)

/-- RATEO clamped to a quarter to 4 and to the partition's bounds in force (R62, R337). -/
def clampRate (p : Part) (v : BitVec 32) : BitVec 32 :=
  let lo := max 0x4000 p.loForce.toNat
  let hi := min 0x40000 p.hiForce.toNat
  BitVec.ofNat 32 (min hi (max lo v.toNat))

/-- A team at its start: everything the launch and the placement do not give stands at the Reset column of spec/03. -/
def startTeam (s : State) (place : Place) (part : BitVec 4) (asid : BitVec 13) (launch blk : BitVec 32)
    (teamId : BitVec 6) (kd : KDesc) (prio : BitVec 2) (prvbase : Word) (entry : Word) (args : List Word) : Team :=
  let t : Team :=
    { place := place, status := .ready, part := part, asid := asid, launch := launch, blk := blk, teamId := teamId,
      lanes := kd.lanes, vregCount := kd.vregs, prio := prio, stklim := kd.stklim, prvbase := prvbase, pc := entry,
      masks := startMasks kd.lanes, em := laneMask kd.lanes, mode := if kd.ordered then 0x20 else 0,
      rateo := clampRate (partOf s part) 0x10000, runSince := s.time }
  (List.range 8).foldl (fun t i => sset t (BitVec.ofNat 6 (i + 1)) (args.getD i 0)) t

/-- PRVBASE of a context (R83). -/
def privateBase (p : Word) (lanes stklim : Nat) (pl : Place) : Word :=
  p + BitVec.ofNat 64 (((pl.die.toNat * 48 + pl.core.toNat) * 32 + pl.ctx.toNat) * (lanes / 32 * stklim * 128))

/-! ### Contexts of a core (R19, R32, R43) -/

/-- Live cores of a die as keys. -/
def liveCores (s : State) (die : Nat) : List Nat :=
  ((List.range 48).filter fun c => coreLive s die c).map fun c => die * 64 + c

/-- Cores on which cluster n's service team may sit, in R19's order. -/
def serviceList (s : State) (n : Nat) : List Nat :=
  let die := n / 6
  let twin := if die % 2 = 0 then die + 1 else die - 1
  let own := liveCores s die
  (own.filter fun k => k % 64 / 8 == n % 6) ++ own ++ liveCores s twin ++
    ((List.range 8).filter fun d => d != die && d != twin).flatMap (liveCores s)

/-- The service-team core of each cluster, in cluster order: none where no core has room (R19). -/
def serviceCores (s : State) : List (Option Nat) :=
  (List.range 48).foldl (fun acc n =>
    acc ++ [(serviceList s n).find? fun k => decide (acc.count (some k) < 16)]) []

/-- Service teams that a core hosts. -/
def serviceCount (s : State) (k : Nat) : Nat := (serviceCores s).count (some k)

/-- Resident teams of a core. -/
def teamsOn (s : State) (k : Nat) : List Team := (teamsOf s).filter fun t => placeKey t.place == k

/-- Rows of a core claimed by pre-empted teams, with the claimant's priority (R43). -/
def claimsOn (s : State) (k : Nat) : List (Nat × Nat) :=
  s.preempted.flatMap fun p =>
    if coreKey p.die p.core = k then p.teams.map fun t => (t.place.ctx.toNat, t.prio.toNat) else []

/-- A launch of this priority may take rows of the core (R43). -/
def rowsOpen (s : State) (k prio : Nat) : Bool := (claimsOn s k).all fun c => c.2 < prio

/-- The free contexts of a compute core that a launch of this priority may take, lowest first: service teams hold the
highest-numbered ones. DESIGN CHOICE, log 29. -/
def freeContexts (s : State) (k prio : Nat) : List Nat :=
  if rowsOpen s k prio then
    (List.range (32 - serviceCount s k)).filter fun c => (teamsOn s k).all fun t => t.place.ctx.toNat != c
  else []

/-- Lane-registers in use on a core (R32). -/
def lanesUsed (s : State) (k : Nat) : Nat :=
  4096 * serviceCount s k + ((teamsOn s k).map fun t => t.lanes * t.vregCount).foldl (· + ·) 0

/-- Spawned teams of a partition alive, saved ones included (R325). -/
def spawnedAlive (s : State) (p : BitVec 4) : Nat :=
  ((teamsOf s ++ s.preempted.flatMap (·.teams)).filter fun t => t.part == p && decide (32 ≤ t.teamId.toNat)).length

/-- A partition's quota for a table of R325. -/
def quota (s : State) (p : BitVec 4) (table : Nat) : Nat := ((partOf s p).quotas.getD table 0).toNat

/-- One more throttled wait of a table (R326). DEDUCED, log 28. -/
def throttle (s : State) (p : BitVec 4) (table : Nat) : State :=
  let q := partOf s p
  setPart s p { q with thr := mapSet 0 q.thr table (mapGet 0 q.thr table + 1) }

/-- One more throttled wait of the team in a context, counted once for each wait. -/
def throttleTeam (s : State) (t : Team) (table : Nat) : State :=
  if t.spent.contains table then s
  else mapTeam (throttle s t.part table) t.place fun t => { t with spent := t.spent ++ [table] }

/-- The words of the line that holds one instruction at parcel 0: TGT bit 0 set, parity even (R168). -/
def lineWords (ps : List Parcel) : List Parcel :=
  let l := ps ++ (List.range (15 - ps.length)).map fun _ => (0 : Parcel)
  let px := fun a b => ((l.drop a).take (b - a)).foldl (fun acc p => acc != parity32 p) false
  let bit := fun (b : Bool) (n : Nat) => if b then 2 ^ n else 0
  l ++ [BitVec.ofNat 32 (1 + bit (px 0 5) 29 + bit (px 5 10) 30 + bit (px 10 15 != true) 31)]

/-- The parcels of bits numbered as the opcode table numbers them. -/
def tableParcels (nbits w : Nat) : List Parcel :=
  let v := w % 2 ^ nbits
  [BitVec.ofNat 32 v, BitVec.ofNat 32 (v / 2 ^ 32), BitVec.ofNat 32 (v / 2 ^ 64)]

/-- Physical addresses of the four tables and of the page, which the placed team's ASID 0 maps at address 0. -/
def placeRoot : Nat := 0x10000

/-- The table entries: one of each level, and a leaf that allows everything (R72, R73). -/
def placeTables : List (Nat × Nat) :=
  [(0x10000, 0x20003), (0x20000, 0x21003), (0x21000, 0x22003), (0x22000, 0x3001D)]

/-- The placed instruction's parcels. A line of zeros alone would be fill (R167), so an all-zero instruction is followed by
an EXIT, before which it is the NOP of R167. -/
def placedParcels (nbits w : Nat) : List Parcel :=
  let ps := tableParcels nbits w
  if ps.all fun p => p == 0 then ps ++ [0x13000001] else ps

/-- The bytes of words, least significant first. -/
def parcelBytes (ps : List Parcel) : List Byte := ps.flatMap fun p => bytesOfNat 4 p.toNat

/-- The placed team: 32 lanes, 128 vector registers, its PC at the line. -/
def placedTeam (s : State) : Team :=
  startTeam s ⟨0, 0, 0⟩ 0 0 0 0 0 { lanes := 32, vregs := 128 } 0 0 0 []

/-- The state with the team, its ASID, its page tables and the line. -/
def placeWord (s : State) (nbits w : Nat) : State :=
  let m1 := placeTables.foldl (fun m x => writeCells m x.1 (bytesOfNat 8 x.2)) s.mem
  let m2 := writeCells m1 0x30000 (parcelBytes (lineWords (placedParcels nbits w)))
  { s with team := placedTeam s, others := [], mem := m2, dirty := [], inbox := [], ctlTurn := 0,
           asid0 := mapSet 0 s.asid0 0 (BitVec.ofNat 64 (placeRoot + 1)) }

end Sys2Proof.Machine
end

