-- ==== Sys2Proof/Machine/Levels.lean ====
section
/-! DEFINITION. Completion of commands and of the levels above the block (spec/02 R36-R41, spec/14 R309, R310), the end of
a block and of a team, and what a graph instance does as its nodes' blocks complete (R324). -/

namespace Sys2Proof.Machine

/-! ### Completion words (R310) -/

def completionWord (tag : BitVec 32) (err : Byte) (rejected cancelled : Bool) : Nat :=
  tag.toNat * 2 ^ 32 + err.toNat * 2 ^ 8 + (if rejected then 4 else 0) + (if cancelled then 2 else 0) + 1

/-- A command completes: its word is written if it can be, and its handle is complete. -/
def completeCmd (s : State) (c : CmdRef) (err : Byte) (rejected cancelled : Bool) : State :=
  let s1 := if c.compl = 0 then s
    else (hallWrite s c.part c.asid c.compl (bytesOfNat 8 (completionWord c.tag err rejected cancelled))).getD s
  let p := partOf s1 c.part
  setPart s1 c.part { p with pending := p.pending.filter fun h => h != c.handle,
                             cancelled := if cancelled then p.cancelled ++ [c.handle] else p.cancelled }

/-! ### Levels (R38, R39) -/

def levelAt (s : State) (serial : Nat) : Option Level := s.levels.find? fun l => l.serial == serial

/-- A node's launch of a graph instance: its record's COMPL is ignored (R323). -/
def isNode (s : State) (l : Level) : Bool :=
  l.parent.any fun p => (levelAt s p).any fun g => decide (g.kind = .graph)

def Level.cmd (l : Level) : CmdRef := ⟨l.part, l.handle, l.tag, l.compl, l.casid⟩

/-- a goes before b among buffered additions (R377). -/
def faddBefore (a b : OrdFadd) : Bool := a.blk < b.blk || (a.blk == b.blk && a.team ≤ b.team)

def insertFadd (x : OrdFadd) : List OrdFadd → List OrdFadd
  | [] => [x]
  | y :: rest => if faddBefore x y then x :: y :: rest else y :: insertFadd x rest

/-- Buffered additions in the order of R377: BLKID, then TEAMID, then the order in which they were buffered. -/
def sortFadds : List OrdFadd → List OrdFadd
  | [] => []
  | x :: rest => insertFadd x (sortFadds rest)

/-- The additions of an ordered launch are applied before its counter falls (R377, R39). DEDUCED, log 42. -/
def applyFadds (s : State) (l : Level) : State :=
  (sortFadds l.fadds).foldl (fun s f => serveAtom s ⟨ownerCluster f.req.loc, l.part, f.place, l.launch, f.req⟩) s

/-- A complete level leaves the tables; its command completes. -/
def closeLevel (s : State) (l : Level) : State :=
  let s1 := applyFadds s l
  let s2 : State := { s1 with levels := s1.levels.filter fun x => x.serial != l.serial }
  if isNode s l then s2 else completeCmd s2 l.cmd l.err false l.cancelled

/-- A child's completion falls on its parent's counter. -/
def childDone (s : State) (parent : Nat) (child : Level) : State :=
  mapLevel s parent fun p =>
    { p with children := p.children - 1, cancelled := p.cancelled || child.cancelled,
             err := if p.kind = .graph && p.err = 0 then child.err else p.err,
             nodeLive := p.nodeLive.filter fun n => n != child.node,
             nodeDone := if p.kind = .graph then p.nodeDone ++ [child.node] else p.nodeDone }

/-- A level whose counter is zero, and whose END has been processed, completes, and so on upward. -/
def settleLevel : Nat → State → Nat → State
  | 0, s, _ => s
  | n + 1, s, k =>
    match levelAt s k with
    | none => s
    | some l =>
      if l.children = 0 && l.ended then
        let s1 := closeLevel s l
        match l.parent with
        | none => s1
        | some p => settleLevel n (childDone s1 p l) p
      else s

/-- Depth of the levels: launch, graph instance, phase, job. -/
def settle4 (s : State) (k : Nat) : State := settleLevel 4 s k

/-! ### Blocks (R28, R36, R439) -/

/-- Every team of a partition, those that a pre-emption saved among them. -/
def everyTeam (s : State) : List Team := teamsOf s ++ s.preempted.flatMap (·.teams)

def sameBlock (p : BitVec 4) (launch blk : BitVec 32) (t : Team) : Bool :=
  t.part == p && t.launch == launch && t.blk == blk

/-- A location lies in the scratchpad allocation of a block's half. -/
def inAlloc (b : Block) (loc : Nat) : Bool :=
  let base := locScratch b.die.toNat b.core.toNat b.off
  base ≤ loc && loc < base + b.size

/-- A block is unloaded: its allocations are free; the objects there, and what is held at them, are gone (R439). -/
def unloadBlock (s : State) (p : BitVec 4) (launch blk : BitVec 32) : State :=
  let mine := fun b : Block => b.part == p && b.launch == launch && b.blk == blk
  let gone := s.blocks.filter mine
  let dead := fun loc => gone.any fun b => inAlloc b loc
  { s with blocks := s.blocks.filter fun b => !mine b, full := s.full.filter fun g => !dead (g * 16), tags := s.tags.filter fun t => !dead t,
           bank := s.bank.filter fun r => !dead r.obj, cross := s.cross.filter fun c => !dead c.obj,
           notices := s.notices.filter fun o => !dead o }

/-! ### Graph edges (R324) -/

/-- The edges of a graph instance with their numbers. -/
def edgesOf (g : Level) : List (Nat × (Nat × Nat × Bool × Nat)) := (List.range g.edges.length).zip g.edges

/-- A block of a node is complete: its BLKID enters the FIFO of each token edge out of the node, and one slot is freed on
each token edge into it. -/
def edgeBlockDone (node : Nat) (blk : BitVec 32) (g : Level) : Level :=
  (edgesOf g).foldl (fun g x =>
    let (i, (from', to', token, _)) := x
    if !token then g
    else
      let g1 := if from' = node then { g with edgeTokens := mapSet [] g.edgeTokens i (mapGet [] g.edgeTokens i ++ [blk]) }
        else g
      if to' = node then { g1 with edgeSlots := mapSet 0 g1.edgeSlots i (mapGet 0 g1.edgeSlots i + 1) } else g1) g

/-- A block of a launch is complete, or cancelled: the launch's counter falls. -/
def blockDone (s : State) (l : Level) (blk : BitVec 32) (cancelled : Bool) : State :=
  let s1 := unloadBlock s l.part l.launch blk
  let s2 := mapLevel s1 l.serial fun l =>
    { l with children := l.children - 1, cancelled := l.cancelled || cancelled,
             doneBlks := if l.kd.ordered then l.doneBlks ++ [blk] else l.doneBlks }
  let s3 := match l.parent with
    | some p => if isNode s l && !cancelled then mapLevel s2 p (edgeBlockDone l.node blk) else s2
    | none => s2
  settle4 s3 l.serial

/-! ### Teams -/

/-- A context is freed. -/
def removeTeam (s : State) (p : Place) : State :=
  let s1 := dropProducts s p
  if s.team.place = p && s.team.status != .vacant then { s1 with team := {} }
  else { s1 with others := s1.others.filter fun t => t.place != p }

/-- The team of a context has ended: what it stored is performed, its context is freed, and its block may be complete. -/
def endTeam (s : State) (t : Team) : State :=
  let s1 := flushCore (drain s) (placeKey t.place)
  let s2 := removeTeam s1 t.place
  if (everyTeam s2).any (sameBlock t.part t.launch t.blk) then s2
  else
    match levelOfLaunch s2 t.part t.launch with
    | some l => blockDone s2 l t.blk false
    | none => unloadBlock s2 t.part t.launch t.blk

/-- Every result of the team has come, and every engine operation of it has retired (R36). -/
def workDone (s : State) (t : Team) : Bool :=
  (t.inflight.all fun f => match f.src with
    | .values _ => true
    | .requests n _ => n == 0
    | .broadcast _ | .array _ _ => false) &&
  !(s.service.any fun e => e.place == t.place && e.launch == t.launch) &&
  !(s.engines.any fun o => o.counted && o.place == t.place && o.launch == t.launch)

end Sys2Proof.Machine
end

