-- ==== Sys2Proof/Machine/Service.lean ====
section
/-! DEFINITION. Requests that a bank or the owning service team performs as one act while their team is held until the
reply: LDFE (spec/11 R248), queues (R260, R261), dispensers (R262-R264) and the capsule steps (R259, spec/13). -/

namespace Sys2Proof.Machine

/-! ### Accesses of any length -/

/-- The bytes of pieces at their points of coherence, and whether any is poisoned. -/
def readPieces (s : State) (p : BitVec 4) (ps : List (Nat × Nat)) : List Byte := ps.flatMap fun x => farBytes s p x.1 x.2
def piecesPoisoned (s : State) (ps : List (Nat × Nat)) : Bool := ps.any fun x => poisonedIn s x.1 x.2
def flushPieces (s : State) (ps : List (Nat × Nat)) : State := ps.foldl (fun s x => flushLines s x.1 x.2) s

def writePieces (s : State) (p : BitVec 4) (pl : Place) : List (Nat × Nat) → List Byte → State
  | [], _ => s
  | (loc, n) :: rest, bs => writePieces (performStore s p pl loc (bs.take n)) p pl rest (bs.drop n)

/-- What a service team's own read or write of its requester's memory gives. -/
abbrev SvcM (α : Type) := Except SvcReply α

/-- An access of the service team of a cluster to pieces is held on its way (R357, R452). -/
def svcHeld (s : State) (cl : Nat) (acc : Access) (ps : List (Nat × Nat)) : Bool :=
  (s.pkstat.halted != 0 || !(heldLinks s).isEmpty) && ps.any fun x => (linesOf x.1 x.2).any fun l =>
    (if acc = .wr then writeHalted s (l * 128) else heldByHalt s (l * 128)) || heldOnWay s (cl / 6) false (l * 128)

/-- The service team of a cluster has read [loc, loc + n) (R360). -/
def svcNoted (s : State) (cl : Nat) (a : BitVec 13) (loc n : Nat) : State := readPiecesL2 s (cl / 6) a [(loc, n)]

/-- Read n bytes at an address of the team, through its translation. -/
def svcRead (s : State) (cl : Nat) (t : Team) (va : Word) (n : Nat) : SvcM (List Byte × State) :=
  match locateSpan s t.who .rd va n with
  | .error (c, a) => .error (svcFault c 0 0 (some a))
  | .ok ps =>
    let s1 := flushPieces s ps
    if svcHeld s cl .rd ps then .error { held := true }
    else if piecesPoisoned s1 ps then .error (svcFault 0x50 4 0 (some va))
    else .ok (readPieces s1 t.part ps, readPiecesL2 s1 (cl / 6) t.asid ps)

/-- Write bytes at an address of the team. -/
def svcWrite (s : State) (cl : Nat) (t : Team) (va : Word) (bs : List Byte) : SvcM State :=
  match locateSpan s t.who .wr va bs.length with
  | .error (c, a) => .error (svcFault c 0 1 (some a))
  | .ok ps => if svcHeld s cl .wr ps then .error { held := true } else .ok (writePieces (flushPieces s ps) t.part t.place ps bs)

/-! ### Headers (R260, R262) -/

/-- A header: the slot array, the capacity, HEAD and TAIL. -/
structure Header where
  base : Word
  cap : Nat
  head : Nat
  tail : Nat
  deriving DecidableEq, Repr

def Header.used (h : Header) : Nat := (h.tail + 2 ^ 64 - h.head) % 2 ^ 64

/-- The header at a location; `tq` is a dispenser's. Its bytes stand in memory when the owning service team reads it. -/
def readHeader (s : State) (t : Team) (hdr : Nat) (tq : Bool) : SvcM (Header × State) :=
  let s1 := svcNoted (flushLines s hdr 32) (ownerCluster hdr) t.asid hdr 32
  if poisonedIn s1 hdr 32 then .error (svcFault 0x50 4 2 none)
  else
    let w := fun i => memNat s1 (hdr + 8 * i) 8
    let cap := if tq then w 1 else 2 ^ (w 1 % 32)
    let bad := w 0 / 2 ^ 52 != 0 ||
      if tq then w 0 % 16 != 0 || decide (65536 < w 1) || w 1 == 0
      else w 0 % 8 != 0 || w 1 / 32 != 0 || decide (20 < w 1)
    if bad then .error (svcFault 0x23 0x28 5 none)
    else .ok (⟨BitVec.ofNat 64 (w 0), cap, w 2, w 3⟩, s1)

def setHeadTail (s : State) (t : Team) (hdr word v : Nat) : State :=
  performStore s t.part t.place (hdr + 8 * word) (bytesOfNat 8 (v % 2 ^ 64))

def slotAddr (h : Header) (size count : Nat) : Word := h.base + BitVec.ofNat 64 (count % h.cap * size)

/-! ### Queues and dispensers -/

def wordAt (bs : List Byte) (off : Nat) : Word := BitVec.ofNat 64 (natAt bs off 8)

/-- Append one entry, or answer that the array is full. -/
def appendOne (s : State) (t : Team) (hdr : Nat) (h : Header) (bs : List Byte) : SvcM (State × SvcReply) :=
  if h.used = h.cap then .ok (s, { full := true })
  else do
    let s1 ← svcWrite s (ownerCluster hdr) t (slotAddr h bs.length h.tail) bs
    .ok (setHeadTail s1 t hdr 3 (h.tail + 1), {})

/-- Take one entry of `size` bytes, or answer that the array is empty. -/
def takeOne (s : State) (t : Team) (hdr : Nat) (h : Header) (size : Nat) : SvcM (State × SvcReply) :=
  if h.head = h.tail then .ok (s, { full := true, vals := [0, 0] })
  else do
    let (bs, s1) ← svcRead s (ownerCluster hdr) t (slotAddr h size h.head) size
    .ok (setHeadTail s1 t hdr 2 (h.head + 1), { vals := [wordAt bs 0, wordAt bs 8] })

/-- A tile of R264: expert, first row, rows. -/
structure Tile where
  expert : Nat
  row0 : Nat
  rows : Nat
  deriving DecidableEq, Repr

/-- Tiles of the counts, in order of expert and row. -/
def tilesOf (t : Nat) (e off : Nat) : List Nat → List Tile
  | [] => []
  | n :: rest =>
    ((List.range ((n + t - 1) / t)).map fun j => ⟨e, off + j * t, min t (n - j * t)⟩) ++ tilesOf t (e + 1) (off + n) rest

/-- a goes before b: more rows, then a lower expert, then a lower row. -/
def tileBefore (a b : Tile) : Bool :=
  b.rows < a.rows || (a.rows == b.rows && (a.expert < b.expert || (a.expert == b.expert && a.row0 ≤ b.row0)))

def insertTile (x : Tile) : List Tile → List Tile
  | [] => [x]
  | y :: rest => if tileBefore x y then x :: y :: rest else y :: insertTile x rest

def sortTiles : List Tile → List Tile
  | [] => []
  | x :: rest => insertTile x (sortTiles rest)

def tileBytes (x : Tile) : List Byte :=
  bytesOfNat 4 x.expert ++ bytesOfNat 4 x.row0 ++ bytesOfNat 4 x.rows ++ bytesOfNat 4 0

/-- Records appended in order at TAIL. -/
def appendTiles (s : State) (cl : Nat) (t : Team) (h : Header) : Nat → List Tile → SvcM State
  | _, [] => .ok s
  | i, x :: rest => do
    let s1 ← svcWrite s cl t (slotAddr h 16 (h.tail + i)) (tileBytes x)
    appendTiles s1 cl t h (i + 1) rest

/-- TQFILL (R264). -/
def fillTiles (s : State) (t : Team) (hdr : Nat) (h : Header) (counts : Word) (nb tl : Nat) :
    SvcM (State × SvcReply) :=
  if 1024 < nb || tl = 0 || 65535 < tl then .error (svcFault 0x23 0x2A 5 (some 0))
  else do
    let (bs, s1) ← svcRead s (ownerCluster hdr) t counts (4 * nb)
    let ns := (List.range nb).map fun e => natAt bs (4 * e) 4
    let total := (ns.map fun n => (n + tl - 1) / tl).foldl (· + ·) 0
    if h.cap < h.used + total then .ok (s1, { full := true, vals := [0] })
    else
      let s2 ← appendTiles s1 (ownerCluster hdr) t h 0 (sortTiles (tilesOf tl 0 0 ns))
      .ok (setHeadTail s2 t hdr 3 (h.tail + total), { vals := [BitVec.ofNat 64 total] })

/-! ### Capsules (R259, R290-R305) -/

/-- Capsule-holding entries of a partition in use (R305). -/
def capEntries (s : State) (p : BitVec 4) : Nat :=
  ((teamsOf s ++ s.preempted.flatMap (·.teams)).map fun t =>
    if t.part = p then (if t.held.isSome then 1 else 0) + (if t.displaced.isSome then 1 else 0) else 0).foldl (· + ·) 0

/-- s1 to s15 of a team, as the bytes of a checkpoint. -/
def checkpoint (t : Team) : List Byte :=
  (List.range 15).flatMap fun i => bytesOfNat 8 (sget t (BitVec.ofNat 6 (i + 1))).toNat

/-- s1 to s_n taken from words of a record. -/
def loadRegs (s : State) (t : Team) (rcd n : Nat) : Team :=
  (List.range n).foldl (fun t i => sset t (BitVec.ofNat 6 (i + 1)) (recWord s (rcd + 8 * i) 0)) t

/-- The continuation of the CAP.ENTER that began a record's instance (R294). -/
def bodyEnd (s : State) (rcd : Nat) (cont : Word) : Word := ((s.bodies.find? fun b => b.1 == rcd).map (·.2)).getD cont

/-- The lock is taken (R259 free). -/
def takeLock (s : State) (t : Team) (rcd : Nat) (next cont : Word) : State :=
  let inst := (fld (recWord s rcd 0) 63 32 + 1) % 2 ^ 32
  let s1 := ownWrite s rcd (bytesOfNat 8 (inst * 2 ^ 32 + 1) ++ bytesOfNat 8 (ownerWord t).toNat ++ bytesOfNat 8 1 ++
    bytesOfNat 8 0 ++ bytesOfNat 8 next.toNat ++ checkpoint t)
  let w24 := (recWord s rcd 192).toNat
  let s2 := ownWrite s1 (rcd + 192) (bytesOfNat 8 (w24 / 2 ^ 32 * 2 ^ 32 + w24 % 4) ++ bytesOfNat 56 0)
  { s2 with locks := if s2.locks.contains rcd then s2.locks else s2.locks ++ [rcd],
            bodies := (rcd, cont) :: s2.bodies.filter fun b => b.1 != rcd }

/-- What a CAP.ENTER finds. -/
def waitCap (s : State) (p : Place) (rcd : Nat) : State :=
  if s.capWait.contains (rcd, p) then s else { s with capWait := s.capWait ++ [(rcd, p)] }

/-- The first waiting CAP.ENTER on a record that a test picks is this team's, or none waits. -/
def capFirst (s : State) (p : Place) (rcd : Nat) (ok : Team → Bool) : Bool :=
  match s.capWait.find? fun x => x.1 == rcd && (x.2 == p || (teamAt s x.2).any ok) with
  | some x => x.2 == p
  | none => true

/-- CAP.ENTER at the service team: none when it waits, with the state in which it does. -/
def capEnterReq (s : State) (t : Team) (rcd size : Nat) (next cont : Word) : Except State (SvcM (State × SvcReply)) :=
  let s0 := flushLines s rcd size
  if poisonedIn s0 rcd 256 then .ok (.error (svcFault 0x50 4 2 none))
  else
    let held := (recWord s0 rcd 0).getLsbD 0
    let st := fld (recWord s0 rcd 16) 1 0
    if st = 3 || (held && st = 0) then .ok (.error (svcFault 0x23 0x27 5 none))
    else if quota s0 t.part 2 ≤ capEntries s0 t.part then .error (throttleTeam s0 t 2)
    else
      let done := fun (s1 : State) (f : Team → Team) (pc : Word) =>
        Except.ok (.ok ({ mapTeam s1 t.place f with capWait := s1.capWait.filter fun x => x.2 != t.place },
          { vals := [pc] : SvcReply }))
      if !held then
        if capFirst s0 t.place rcd (fun _ => true) then
          let s1 := takeLock s0 t rcd next cont
          done s1 (fun t => setA { t with held := some ⟨rcd, size, BitVec.ofNat 32 (fld (recWord s1 rcd 0) 63 32), cont, cont⟩,
                                          mystep := 0, capBuf := [], capCount := 0 } false) next
        else .error (waitCap s0 t.place rcd)
      else if st = 2 && fld (recWord s0 rcd 8) 63 60 = t.part.toNat then
        if capFirst s0 t.place rcd (fun u => u.part == t.part) then
          let s1 := recSet (recSet s0 rcd 8 (ownerWord t)) rcd 16 1
          done s1 (fun t => setA { loadRegs s1 t (rcd + 40) 15 with
                                   held := some ⟨rcd, size, BitVec.ofNat 32 (fld (recWord s1 rcd 0) 63 32), cont,
                                                 bodyEnd s1 rcd cont⟩,
                                   mystep := fld (recWord s1 rcd 24) 4 0, capBuf := [], capCount := 0 } true)
            (recWord s1 rcd 32)
        else .error (waitCap s0 t.place rcd)
      else .error (waitCap s0 t.place rcd)

/-- A CAP.ENTER that waits on a record is served again (R300, R302); one of an ordered team waits for its quantum end. -/
def serveWaiter (rcd : Nat) (s : State) (p : Place) : State :=
  match teamAt s p with
  | none => s
  | some t =>
    match t.request with
    | some (.capEnter r size next cont) =>
      if r != rcd || ordered t || t.reply.isSome then s
      else
        match capEnterReq s t r size next cont with
        | .ok (.ok (s1, rep)) => mapTeam s1 p fun t => { t with request := none, reply := some rep }
        | .ok (.error rep) => mapTeam s p fun t => { t with request := none, reply := some rep }
        | .error s1 => s1
    | _ => s

/-- A write of STATE asked of a service team is performed (R300), in the order of the requests; after PARKED, the CAP.ENTERs that
wait on the record are served again. -/
def performCapWrite (s : State) (w : CapWrite) : State :=
  if (recWord s w.rcd 0).getLsbD 0 && recWord s w.rcd 8 == w.owner then
    let s1 := recSet s w.rcd 16 (if w.run then 1 else 2)
    if w.run then s1 else ((s1.capWait.filter fun x => x.1 == w.rcd).map (·.2)).foldl (serveWaiter w.rcd) s1
  else s

/-- STATE writes asked of the service teams before this request are performed (R300). -/
def settleCaps (s : State) : State := s.capWrites.foldl performCapWrite { s with capWrites := [] }

/-- The displaced case (R259, R304): none until the outcome of the instance stands in the record. DEDUCED, log 25. -/
def capDisplaced (s : State) (t : Team) (h : CapHold) : Option (State × SvcReply) :=
  let w := recWord s h.rcd 192
  if fld w 1 0 != 0 && fld w 63 32 = h.inst.toNat then
    let published := fld w 1 0 = 1
    some (mapTeam s t.place fun t =>
      setZA { (if published then loadRegs s t (h.rcd + 160) 4 else t) with
              held := none, displaced := none, capBuf := [] } published true, { vals := [h.cont] })
  else none

/-- The step's stores, checkpoint, entry PC and step number, as one act, with every annex of the granule's lines invalidated
first (R298). -/
def commitStep (s : State) (t : Team) (rcd : Nat) (next : Word) : State :=
  let s0 := collapse s (rcd / 4096 * 4096) 4096
  let s1 := clearPoison (t.capBuf.foldl (fun s b => performStore s t.part t.place b.loc b.data) s0)
    (t.capBuf.map fun b => (b.loc, b.data.length))
  ownWrite s1 (rcd + 24) (bytesOfNat 8 (fld (recWord s rcd 24) 4 0 + 1) ++ bytesOfNat 8 next.toNat ++ checkpoint t)

/-- CAP.COMMIT, CAP.EXIT or CAP.ABORT at the service team (R259): none while a displaced team waits. -/
def capStepReq (s : State) (t : Team) (r : SvcReq) : Option (SvcM (State × SvcReply)) :=
  match t.held, t.displaced with
  | none, none => some (.error (svcFault 0x23 0x26 5 (some 0)))
  | none, some h => (capDisplaced s t h).map .ok
  | some h, _ =>
    let s0 := flushLines s h.rcd h.size
    let step := fld (recWord s0 h.rcd 24) 4 0
    if poisonedIn s0 h.rcd 256 then some (.error (svcFault 0x50 4 2 none))
    else if !owns s0 t h.rcd then (capDisplaced s0 t h).map .ok
    else
      match r with
      | .capAbort =>
        if step != 0 then some (.error (svcFault 0x40 0 5 (some 0)))
        else
          some (.ok (mapTeam (endInstance s0 h.rcd 2) t.place fun t =>
            setCC { t with held := none, capBuf := [] } ccZ 0, { vals := [h.cont] }))
      | .capExit next =>
        if step != t.mystep then (capDisplaced s0 t h).map .ok
        else
          let s1 := commitStep s0 t h.rcd next
          let s2 := ownWrite s1 (h.rcd + 160) ((checkpoint t).take 32)
          some (.ok (mapTeam (endInstance s2 h.rcd 1) t.place fun t =>
            setZ { t with held := none, capBuf := [] } (!flag t ccA), { vals := [h.cont] }))
      | .capCommit next =>
        if step != t.mystep then (capDisplaced s0 t h).map .ok
        else if 16 ≤ step then some (.error (svcFault 0x40 0 5 (some 0)))
        else
          some (.ok (mapTeam (commitStep s0 t h.rcd next) t.place fun t =>
            { t with mystep := t.mystep + 1, capBuf := [] }, { vals := [next] }))
      | _ => none

/-- A team displaced from its capsule notes it when it meets the displaced case and must wait (R304, R305). -/
def noteDisplaced (s : State) (t : Team) : State :=
  match t.held with
  | some h =>
    if owns s t h.rcd then s
    else mapTeam s t.place fun t => { t with held := none, displaced := some h, capBuf := [] }
  | none => s

/-! ### One request -/

/-- What becomes of a request. -/
inductive Served where
  | wait (s : State)
  | reply (s : State) (r : SvcReply)
  deriving DecidableEq, Repr

/-- A failure performs no part of the request (R426), nor does a request whose own access is held. -/
def servedOf (s : State) : SvcM (State × SvcReply) → Served
  | .ok (s1, r) => .reply s1 r
  | .error r => if r.held then .wait s else .reply s r

/-- A capsule request has been served: its record was read. -/
def Served.noted (t : Team) (rcd : Nat) : Served → Served
  | .reply s r => .reply (svcNoted s (ownerCluster rcd) t.asid rcd 256) r
  | x => x

/-- The header or the record that a team's request names. -/
def reqLoc (t : Team) : SvcReq → Option Nat
  | .qpush h _ | .qpop h | .tqget h | .tqadd h _ _ | .tqfill h _ _ _ => some h
  | .capEnter rcd _ _ _ => some rcd
  | .capCommit _ | .capExit _ | .capAbort => t.held.map (·.rcd)
  | .ldfe _ _ _ => none

/-- The request is held on its way to the service team, or the service team's on its way to its header or record. -/
def requestHeld (s : State) (t : Team) (r : SvcReq) : Bool :=
  (reqLoc t r).any fun loc =>
    serviceHalted s loc || (let v := ownerCluster loc / 6
      heldOnWay s v false loc || (targetOf loc != .scratch && (hallPath t.place.die.toNat v).any (heldLinks s).contains))

/-- The request of the team in a context is performed at its bank or its service team. -/
def performRequest (s : State) (t : Team) (r : SvcReq) : Served :=
  if requestHeld s t r then .wait s
  else
  match r with
  | .ldfe loc n clear =>
    match bankLdfe s loc n clear with
    | some (s1, rep) => .reply (settleBank s1) rep
    | none => .wait s
  | .qpush hdr v => servedOf s do
    let (h, s1) ← readHeader s t hdr false
    appendOne s1 t hdr h (bytesOfNat 8 v.toNat)
  | .qpop hdr => servedOf s do
    let (h, s1) ← readHeader s t hdr false
    takeOne s1 t hdr h 8
  | .tqget hdr => servedOf s do
    let (h, s1) ← readHeader s t hdr true
    takeOne s1 t hdr h 16
  | .tqadd hdr a b => servedOf s do
    let (h, s1) ← readHeader s t hdr true
    appendOne s1 t hdr h (bytesOfNat 8 a.toNat ++ bytesOfNat 8 b.toNat)
  | .tqfill hdr counts nb tl => servedOf s do
    let (h, s1) ← readHeader s t hdr true
    fillTiles s1 t hdr h counts nb tl
  | .capEnter rcd size next cont =>
    let s0 := settleCaps s
    match (teamAt s0 t.place).bind (·.reply) with
    | some rep => .reply s0 rep
    | none =>
      match capEnterReq s0 t rcd size next cont with
      | .error s1 => .wait s1
      | .ok r => (servedOf s0 r).noted t rcd
  | r =>
    let s0 := settleCaps s
    match capStepReq s0 t r with
    | some x => (servedOf s0 x).noted t (((reqLoc t r).orElse fun _ => t.displaced.map (·.rcd)).getD 0)
    | none => .wait (noteDisplaced s0 t)

end Sys2Proof.Machine
end

