-- ==== Sys2Proof/Machine/Loader.lean ====
section
/-! DEFINITION. Launch records and kernel descriptors (spec/14 R315, R316, spec/21 R373), and the placing of blocks on
cores (spec/02 R28-R34, R43, R44; spec/14 R320, R324). -/

namespace Sys2Proof.Machine

/-! ### Records and descriptors -/

/-- Bytes 24 to 239 of a launch record (R315). -/
def parseLaunch (bs : List Byte) : LaunchRec :=
  { kdesc := wordAt bs 24, blocks := BitVec.ofNat 32 (natAt bs 32 4), priv := wordAt bs 40,
    args := (List.range 8).map fun i => wordAt bs (48 + 8 * i),
    tqhdr := (List.range 8).map fun i => wordAt bs (112 + 8 * i),
    wbase := (List.range 8).map fun i => wordAt bs (176 + 8 * i) }

/-- The reserved bytes of a launch record are 0. -/
def launchZeros (bs : List Byte) : Bool := zeroBytes bs 36 40 && zeroBytes bs 240 256

/-- The fields of a record are in range: BLOCKS, and the alignments of PRIV, KDESC and the headers. -/
def launchFields (r : LaunchRec) : Bool :=
  r.blocks != 0 && r.priv.toNat % 128 == 0 && r.kdesc.toNat % 64 == 0 && r.tqhdr.all fun h => h.toNat % 32 == 0

/-- A write range of a descriptor: its register a, stride and size in bytes. -/
def parseRange (bs : List Byte) (i : Nat) : Nat × Nat × Nat :=
  let o := 24 + 16 * i
  (natAt bs o 1, natAt bs (o + 8) 4 * 128, natAt bs (o + 12) 4 * 128)

/-- A kernel descriptor (R316), or none where a field is out of its range. -/
def parseKDesc (bs : List Byte) : Option KDesc :=
  let lanes := natAt bs 8 2
  let teams := natAt bs 10 1
  let vregs := natAt bs 11 1
  let spad := natAt bs 12 1
  let flags := natAt bs 13 1
  let nwr := natAt bs 14 1
  let stklim := natAt bs 16 4
  let quant := natAt bs 20 4
  let straddle := flags % 2 == 1
  let ordered := flags / 2 % 2 == 1
  let wr := (List.range nwr).map (parseRange bs)
  if 32 ≤ lanes && lanes ≤ 1024 && lanes % 32 == 0 && 1 ≤ teams && teams ≤ 16 && (!straddle || teams % 2 == 0) &&
      16 ≤ vregs && vregs ≤ 128 && vregs % 16 == 0 && spad ≤ 16 && flags < 4 && nwr ≤ 4 && (!ordered || 1 ≤ nwr) &&
      zeroBytes bs 15 16 && stklim < 2 ^ 24 &&
      (if ordered then 64 ≤ quant && quant ≤ 65536 && quant % 64 == 0 else quant == 0) &&
      ((List.range nwr).all fun i => zeroBytes bs (25 + 16 * i) (32 + 16 * i) && 1 ≤ natAt bs (24 + 16 * i) 1 &&
        natAt bs (24 + 16 * i) 1 ≤ 8) && zeroBytes bs 88 128 then
    some { entry := wordAt bs 0, lanes := lanes, teams := teams, vregs := vregs, spad := spad, straddle := straddle,
           ordered := ordered, stklim := stklim, quant := quant, wr := wr }
  else none

/-- The descriptor that a record names, or the error code of R431. -/
def readKDesc (s : State) (p : BitVec 4) (asid : BitVec 13) (va : Word) : Except Byte (KDesc × State) :=
  match hallRead s p asid va 128 with
  | none => .error 0x86
  | some (bs, s1) =>
    match parseKDesc bs with
    | none => .error 0x83
    | some kd => .ok (kd, s1)

/-- An ASID of the partition's range whose context entry has V = 1 (R74). -/
def asidUsable (s : State) (p : BitVec 4) (a : Nat) : Bool :=
  let q := partOf s p
  q.asidBase.toNat ≤ a && a < q.asidBase.toNat + q.asidCount.toNat && (mapGet 0 s.asid0 a).getLsbD 0

/-! ### Write ranges (R373) -/

/-- Some block's range (w, stride, size) over n blocks meets [lo, hi). -/
def rangeMeets (w stride size n lo hi : Nat) : Bool :=
  if size = 0 || n = 0 then false
  else if stride = 0 then decide (w < hi) && decide (lo < w + size)
  else
    let b := if lo < w + size then 0 else (lo - w - size) / stride + 1
    decide (b < n) && decide (w + b * stride < hi) && decide (lo < w + b * stride + size)

/-- A range's own blocks meet one another. -/
def rangeSelf (stride size n : Nat) : Bool := decide (1 < n) && decide (0 < size) && decide (stride < size)

/-- Two ranges of the kernel meet for some blocks. -/
def rangesMeet (n : Nat) (a b : Nat × Nat × Nat) : Bool :=
  a.2.2 != 0 && (List.range n).any fun j => rangeMeets b.1 b.2.1 b.2.2 n (a.1 + j * a.2.1) (a.1 + j * a.2.1 + a.2.2)

/-- The ranges (base, stride, size) of a launch, and whether any two of them meet. -/
def launchRanges (kd : KDesc) (wbase : List Word) : List (Nat × Nat × Nat) :=
  kd.wr.map fun x => ((wbase.getD (x.1 - 1) 0).toNat, x.2.1, x.2.2)

def anyMeet (n : Nat) : List (Nat × Nat × Nat) → Bool
  | [] => false
  | a :: rest => rangeSelf a.2.1 a.2.2 n || rest.any (rangesMeet n a) || anyMeet n rest

/-! ### What fits (R32-R34) -/

/-- Teams of a block on one core. -/
def KDesc.perCore (kd : KDesc) : Nat := if kd.straddle then kd.teams / 2 else kd.teams

/-- Blocks of a kernel that an empty core holds (R32). -/
def coreHolds (s : State) (kd : KDesc) (k : Nat) : Nat :=
  let n := kd.perCore
  let sc := serviceCount s k
  let byCtx := (32 - sc) / n
  let byLanes := (131072 - 4096 * sc) / (n * kd.lanes * kd.vregs)
  let b := min byCtx byLanes
  if kd.spad = 0 then b else min b (16 / kd.spad)

/-- The partition's live cores of a die. -/
def partCores (s : State) (p : BitVec 4) (die : Nat) : List Nat :=
  (liveCores s die).filter fun k => partOfCluster s (clusterOf (k / 64) (k % 64)) = some p

/-- A block fits on some core, or pair of twin cores, of the partition, were it empty (R34). -/
def fitsSomewhere (s : State) (p : BitVec 4) (kd : KDesc) : Bool :=
  let good := fun k => decide (0 < coreHolds s kd k)
  if kd.straddle then
    ([0, 2, 4, 6] : List Nat).any fun d =>
      (partCores s p d).any fun k => good k && (partCores s p (d + 1)).contains (k + 64) && good (k + 64)
  else (List.range 8).any fun d => (partCores s p d).any good

/-- No launched or spawned team is on the core. -/
def coreEmpty (s : State) (k : Nat) : Bool := (teamsOn s k).isEmpty

/-- The scratchpad section of the core as a block of the kernel finds it, in units of 64 KiB (R33). -/
def sectionFor (s : State) (kd : KDesc) (k : Nat) : Nat :=
  if coreEmpty s k then min 16 (kd.spad * coreHolds s kd k) else (coreAt s k).section64

/-- The allocations on a core. -/
def blocksOn (s : State) (k : Nat) : List Block := s.blocks.filter fun b => coreKey b.die b.core == k

/-- The lowest free place for a block's scratchpad in the section, in units of 64 KiB. -/
def freeOffset (s : State) (kd : KDesc) (k : Nat) : Option Nat :=
  let sec := sectionFor s kd k
  (List.range (sec + 1)).find? fun o =>
    decide (o + kd.spad ≤ sec) &&
      (blocksOn s k).all fun b => b.size == 0 || !overlaps (o * 65536) (kd.spad * 65536) b.off b.size

/-- A block fits on the core as things stand (R32, R33, R43). -/
def fitsNow (s : State) (kd : KDesc) (prio k : Nat) : Bool :=
  kd.perCore ≤ (freeContexts s k prio).length &&
    lanesUsed s k + kd.perCore * kd.lanes * kd.vregs ≤ 131072 && (freeOffset s kd k).isSome

/-- The distributor may place blocks of the partition on the core: its cluster is neither quiesced nor idle, its die is not
halted (R351, R452), and no pre-emption is under way there. -/
def placeable (s : State) (k : Nat) : Bool :=
  !(s.preempting.any fun x => x.core == k) &&
  (gateOf s (clusterOf (k / 64) (k % 64))).st == 0 && !s.diehalt.getLsbD (k / 64) && !s.pkstat.lost.getLsbD (k / 64)

/-! ### Choosing a core (R320) -/

/-- The least loaded core of a list, ties to the first. -/
def leastLoaded (load : Nat → Nat) : List Nat → Option Nat
  | [] => none
  | k :: rest =>
    match leastLoaded load rest with
    | none => some k
    | some j => if load k ≤ load j then some k else some j

/-- The cores that take the next block of a launch on a die: one, or the two of a straddling block, whose load is that of the
even die's core alone: DESIGN CHOICE, log 18. -/
def coresOnDie (s : State) (l : Level) (die : Nat) : Option (List Nat) :=
  let ok := fun k => placeable s k && fitsNow s l.kd l.prio.toNat k
  let load := fun k => (teamsOn s k).length
  if l.kd.straddle then
    if die % 2 = 0 then
      (leastLoaded load ((partCores s l.part die).filter fun k =>
        ok k && (partCores s l.part (die + 1)).contains (k + 64) && ok (k + 64))).map fun k => [k, k + 64]
    else none
  else (leastLoaded load ((partCores s l.part die).filter ok)).map fun k => [k]

/-- Dies from the launch's turn on. DESIGN CHOICE, log 18. -/
def dieOrder (turn : Nat) : List Nat := (List.range 8).map fun i => (turn + i) % 8

/-- The die and the cores of the next block. -/
def chooseCores (s : State) (l : Level) : Option (Nat × List Nat) :=
  (dieOrder l.dieTurn).findSome? fun d => (coresOnDie s l d).map fun ks => (d, ks)

/-! ### Making a block resident (R28, R44) -/

/-- The lines of a core's L1 go. Dirty bytes are on their way out (R91). -/
def emptyL1 (s : State) (k : Nat) : State := { s with l1 := mapSet [] s.l1 k [] }

/-- A core's scratchpad section, in units of 64 KiB. Where its size changes the L1 is another array, and every line of it goes,
also where the section shrinks: DESIGN CHOICE, log 68 (R33). -/
def setSection (s : State) (k n : Nat) : State :=
  if n = (coreAt s k).section64 then s
  else setCore (emptyL1 s k) k { coreAt s k with section64 := n }

/-- A core takes its first block: the section is set, and the matrix state is cleared (R33, R266). -/
def freshCore (s : State) (kd : KDesc) (k : Nat) : State :=
  if coreEmpty s k then
    let s1 := setSection s k (sectionFor s kd k)
    setCore s1 k { coreAt s1 k with acc0 := [], acc1 := [], int0 := false, int1 := false, live := {}, shadow := {} }
  else s

def placeOfKey (k ctx : Nat) : Place := ⟨BitVec.ofNat 4 (k / 64), BitVec.ofNat 6 (k % 64), BitVec.ofNat 5 ctx⟩

/-- Why a team that comes to stand on a core is parked at once: the debugger's HALT (R407). -/
def haltParks (s : State) (p : BitVec 4) : List ParkReason := if (partOf s p).dbgHalt then [.debug] else []

/-- The half of a block on one core: its allocation, its granules empty (R81), and its teams from TEAMID `first`, in the
lowest free contexts in the order of their TEAMIDs: DESIGN CHOICE, log 75. They stand parked while their partition's HALT is 1
(R407). -/
def placeHalf (s : State) (l : Level) (args : List Word) (half : Bool) (k first : Nat) : State :=
  let kd := l.kd
  let blk := BitVec.ofNat 32 l.next
  let off := ((freeOffset s kd k).getD 0) * 65536
  let ctxs := (freeContexts s k l.prio.toNat).take kd.perCore
  let s1 := freshCore s kd k
  let b : Block := ⟨l.part, l.launch, blk, BitVec.ofNat 4 (k / 64), BitVec.ofNat 6 (k % 64), kd.straddle, half, off,
    kd.spad * 65536⟩
  let mk := fun (i : Nat) =>
    let pl := placeOfKey k (ctxs.getD i 0)
    let t := startTeam s pl l.part l.asid l.launch blk (BitVec.ofNat 6 (first + i)) kd l.prio
      (privateBase l.priv kd.lanes kd.stklim pl) kd.entry args
    { t with parks := haltParks s l.part }
  { s1 with blocks := s1.blocks ++ [b], full := s1.full.filter fun g => !inAlloc b (g * 16),
            others := s1.others ++ (List.range kd.perCore).map mk }

/-! ### Graph nodes (R324) -/

/-- Every token edge lets the next block of the node go: a free slot on each edge out of it, a token on each into it. -/
def tokensReady (g : Level) (node : Nat) : Bool :=
  (edgesOf g).all fun (i, (from', to', token, _)) =>
    !token || ((from' != node || decide (0 < mapGet 0 g.edgeSlots i)) && (to' != node || !(mapGet [] g.edgeTokens i).isEmpty))

/-- The token that s8 receives: of the first-listed incoming token edge. -/
def firstToken (g : Level) (node : Nat) : Option (BitVec 32) :=
  (edgesOf g).findSome? fun (i, (_, to', token, _)) =>
    if token && to' = node then (mapGet [] g.edgeTokens i).head? else none

/-- Slots and tokens taken by the dispatch of one block. -/
def takeTokens (node : Nat) (g : Level) : Level :=
  (edgesOf g).foldl (fun g x =>
    let (i, (from', to', token, _)) := x
    if !token then g
    else
      let g1 := if from' = node then { g with edgeSlots := mapSet 0 g.edgeSlots i (mapGet 0 g.edgeSlots i - 1) } else g
      if to' = node then { g1 with edgeTokens := mapSet [] g1.edgeTokens i ((mapGet [] g1.edgeTokens i).drop 1) } else g1) g

/-- The graph instance that a launch is a node of. -/
def graphOf (s : State) (l : Level) : Option Level :=
  l.parent.bind fun p => (levelAt s p).bind fun g => if g.kind = .graph then some g else none

/-- The arguments of the next block: a token stands in place of s8 (R324). -/
def blockArgs (s : State) (l : Level) : List Word :=
  match (graphOf s l).bind fun g => firstToken g l.node with
  | some tok => l.args.take 7 ++ [tok.setWidth 64]
  | none => l.args

/-! ### Dispatch -/

/-- The next block of a launch may be dispatched, room apart. -/
def hasBlock (s : State) (l : Level) : Bool :=
  l.kind = .launch && !l.ctl && !l.cancelPending && decide (l.next < l.blocks) &&
    match graphOf s l with
    | some g => tokensReady g l.node
    | none => true

/-- The next block of a launch is made resident: none when it fits nowhere. -/
def dispatchBlock (s : State) (l : Level) : Option State :=
  (chooseCores s l).map fun (d, ks) =>
    let args := blockArgs s l
    let s1 := match ks with
      | [a, b] => placeHalf (placeHalf s l args false a 0) l args true b l.kd.perCore
      | _ => placeHalf s l args false (ks.headD 0) 0
    let s2 := match graphOf s l with
      | some g => mapLevel s1 g.serial (takeTokens l.node)
      | none => s1
    mapLevel s2 l.serial fun l => { l with next := l.next + 1, dieTurn := (d + 1) % 8 }

/-- The first block that goes, in the order of the levels given; behind a launch whose block waits for room, or for its quantum
end, no launch of the same queue goes (R44). -/
def dispatchFirst (ok : Level → Bool) (s : State) : List Level → List (Nat × Nat) → Option State
  | [], _ => none
  | l :: rest, waiting =>
    let q := (l.part.toNat, l.queue.toNat)
    if waiting.contains q then dispatchFirst ok s rest waiting
    else
      match if ok l then dispatchBlock s l else none with
      | some s1 => some s1
      | none => dispatchFirst ok s rest (q :: waiting)

/-- Launches with a block to dispatch: higher PRIO first, then the earlier, which R44 leaves open between queues: DESIGN
CHOICE, log 75. -/
def dispatchList (s : State) (of : Level → Bool) : List Level :=
  let ls := s.levels.filter fun l => hasBlock s l && of l
  ([3, 2, 1, 0] : List Nat).flatMap fun p => ls.filter fun l => l.prio.toNat == p

def fillLoop (ok : Level → Bool) : Nat → State → State
  | 0, s => s
  | n + 1, s =>
    match dispatchFirst ok s (dispatchList s fun _ => true) [] with
    | some s1 => fillLoop ok n s1
    | none => s

/-! ### Starting a graph's nodes -/

/-- The next launch number of a partition (R464). -/
def takeNumber (s : State) (p : BitVec 4) : BitVec 32 × State :=
  let q := partOf s p
  (q.launchNo, setPart s p { q with launchNo := q.launchNo + 1 })

/-- The launch of a record as a level: its number and its place are given. -/
def launchLevel (c : CmdRef) (asid : BitVec 13) (queue : BitVec 6) (prio : BitVec 2) (serial : Nat) (parent : Option Nat)
    (number : BitVec 32) (kd : KDesc) (r : LaunchRec) : Level :=
  { kind := .launch, part := c.part, handle := c.handle, serial := serial, parent := parent, children := r.blocks.toNat,
    ended := true, tag := c.tag, compl := c.compl, casid := c.asid, launch := number, asid := asid, queue := queue,
    prio := prio, kd := kd, blocks := r.blocks.toNat, dieTurn := Config.firstDie serial % 8, priv := r.priv, args := r.args,
    tqhdr := r.tqhdr, wbase := r.wbase }

/-- The error code that a record with its descriptor gives, if any (R431). -/
def launchError (s : State) (p : BitVec 4) (kd : KDesc) (r : LaunchRec) : Option Byte :=
  if kd.ordered && anyMeet r.blocks.toNat (launchRanges kd r.wbase) then some 0x82
  else if !fitsSomewhere s p kd then some 0x80
  else none

/-- Dispenser rings that a partition's launches hold (R325). -/
def ringsUsed (s : State) (p : BitVec 4) : Nat :=
  ((s.levels.filter fun l => decide (l.kind = .launch) && l.part == p).map fun l =>
    (l.tqhdr.filter fun h => h != 0).length).foldl (· + ·) 0

/-- Dispenser rings that a launch record names. -/
def ringsNamed (r : LaunchRec) : Nat := (r.tqhdr.filter fun h => h != 0).length

/-- The quota of dispenser rings has room for a launch (R325). -/
def ringsFree (s : State) (p : BitVec 4) (r : LaunchRec) : Bool :=
  ringsNamed r == 0 || decide (ringsUsed s p + ringsNamed r ≤ quota s p 5)

/-- Memory as an ordered launch finds it (R371). -/
def firstView (s : State) (kd : KDesc) : List Host.Cell := if kd.ordered then s.mem else []

/-- A node waits for dispenser rings, and the wait is counted once (R326). -/
def nodeWaits (s : State) (g : Level) (n : Nat) : State :=
  if g.nodeSpent.contains n then s
  else mapLevel (throttle s g.part 5) g.serial fun g => { g with nodeSpent := g.nodeSpent ++ [n] }

/-- A launch dispatches no more blocks, of which none is cancelled. -/
def dropBlocks (l : Level) : Level := { l with next := l.blocks, children := l.children - (l.blocks - l.next) }

/-- An instance whose record names an address that cannot be reached does nothing beyond what it has done (R463): no node of it
begins, its live launches dispatch no more blocks, and it completes with the code: DEDUCED, log 93. -/
def failInstance (s : State) (g : Level) (code : Byte) : State :=
  let left := (List.range g.image.length).filter fun n => !g.nodeDone.contains n && !g.nodeLive.contains n
  let s1 := mapLevel s g.serial fun g =>
    { g with children := g.children - left.length, err := if g.err = 0 then code else g.err, nodeDone := g.nodeDone ++ left }
  let kids := s1.levels.filter fun l => l.parent == some g.serial
  kids.foldl (fun s l => settle4 (mapLevel s l.serial dropBlocks) l.serial) s1

/-- A node whose full edges are complete begins: its launch is numbered and enters the levels. It waits while its dispenser rings
would exceed the quota, and while the read of its descriptor is held. -/
def startNode (s : State) (g : Level) (n : Nat) : State :=
  let r := g.image.getD n ⟨0, 0, 0, [], [], []⟩
  let asid : BitVec 13 := (g.imageAsid.getD n 0).setWidth 13
  if !ringsFree s g.part r then nodeWaits s g n
  else if hallWayHeld s g.part asid .rd r.kdesc 128 then s
  else
  match readKDesc s g.part asid r.kdesc with
  | .ok (kd, s1) =>
    let (num, s2) := takeNumber s1 g.part
    let l := { launchLevel g.cmd asid g.queue g.prio s2.serial (some g.serial) num kd r with
                      node := n, compl := 0, view := firstView s2 kd }
    mapLevel { bumpSerial s2 with levels := s2.levels ++ [l] } g.serial fun g => { g with nodeLive := g.nodeLive ++ [n] }
  | .error c => failInstance s g c

/-- Nodes of an instance that may begin. -/
def readyNodes (g : Level) : List Nat :=
  (List.range g.image.length).filter fun n =>
    !g.nodeDone.contains n && !g.nodeLive.contains n &&
      g.edges.all fun (from', to', token, _) => token || to' != n || g.nodeDone.contains from'

def startNodes (s : State) (g : Level) : State :=
  if g.cancelPending then s
  else
    let s1 := (readyNodes g).foldl (fun s n => match levelAt s g.serial with
      | some h => if h.nodeDone.contains n then s else startNode s h n
      | none => s) s
    settle4 s1 g.serial

/-- Every instance starts the nodes it can. -/
def advanceGraphs (s : State) : State :=
  (s.levels.filter fun l => decide (l.kind = .graph)).foldl startNodes s

/-! ### Filling -/

/-- The loader fills what it can (R44): launches in ordered mode only where `ok` says so. -/
def fillWith (ok : Level → Bool) (s : State) : State := fillLoop ok 12288 (advanceGraphs s)

/-- Bytes of a team's save area, in whole 4 KiB (R405), and what one victim core takes from the pool (R319). -/
def ceilTo (n m : Nat) : Nat := (n + m - 1) / m * m
def areaSize (t : Team) : Nat := ceilTo (16384 + t.lanes * t.vregCount * 8) 4096
def victimNeed (ts : List Team) (bs : List Block) : Nat :=
  (bs.map fun b => ceilTo b.size 65536).foldl (· + ·) ((ts.map areaSize).foldl (· + ·) (384 * 1024))

/-- Filling outside quantum ends. -/
def fillAll (s : State) : State := fillWith (fun l => !l.kd.ordered) s

end Sys2Proof.Machine
end

