-- ==== Sys2Proof/Machine/Issue.lean ====
section
/-! DEFINITION. How one instruction of the current team issues and retires: the checks of spec/25 R410 in their order,
the waits for registers (R55, R56), the capsule body's rules (R294), and what follows the instruction's own effect: the
PC, the loop stack (R203), PIX (R66), QNT (R368), or the stop it raises. -/

namespace Sys2Proof.Machine

/-- What the own effect of an instruction comes to. -/
inductive Eff where
  /-- Done: the team goes to the next instruction. -/
  | retire (s : State)
  /-- A checked transfer (R171). -/
  | goto (s : State) (target : Word)
  /-- A transfer to an address that is not checked: past a loop that does not run, a continuation, an entry PC. -/
  | land (s : State) (target : Word)
  /-- The team is not ready and will try again. -/
  | hold (s : State) (w : WaitOn)
  /-- The instruction raises a stop. -/
  | stop (s : State) (x : Stop)
  /-- The effect has itself set the PC and the status. -/
  | done (s : State)
  deriving DecidableEq, Repr

/-- Parcels of an instruction (R166). -/
def parcelCount (i : Instr) : Nat := (encode i).length

/-- The line word is no parcel (R164): after parcel 14 comes parcel 0 of the next line. -/
def skipWord (a : Word) : Word := if a.toNat % 64 = 60 then a + 4 else a

/-- `next`: the address of the parcel that follows the instruction's last parcel. -/
def nextPc (i : Instr) (s : State) : Word := skipWord (s.team.pc + BitVec.ofNat 64 (4 * parcelCount i))

/-- here + 4 × sext(disp) (R177). -/
def dispTarget {n : Nat} (s : State) (disp : BitVec n) : Word := s.team.pc + 4 * sext64 disp

/-! ### Illegal uses that are decidable at issue (R410 step 3, R423) -/

def destAbove (v : Nat) : Dest → Bool
  | .vec r => v ≤ r.toNat
  | .scal _ => false

/-- A dispenser's header address in the team's launch (R262). -/
def tqHeader (s : State) (q : BitVec 3) : Word :=
  match levelOfLaunch s s.team.part s.team.launch with
  | some l => l.tqhdr.getD q.toNat 0
  | none => 0

def Uses.aboveV (u : Uses) (v : Nat) : Bool := (u.reads ++ u.dsts).any (destAbove v)

/-- Sub-codes 0x004 to 0x008 (R420, R289). -/
def useStack (i : Instr) (t : Team) : Option Nat :=
  match i with
  | .mark _ _ => if 16 ≤ t.dstk.length then some 4 else none
  | .divElse _ | .join =>
    match t.dstk with
    | [] => some 5
    | e :: _ => if e.r = t.pc then none else some 6
  | .tlbinv _ _ _ | .tlbinvAll _ | .ctxsv _ _ | .ctxld _ _ | .park _ | .unpark _ =>
    if t.place.die = 8 then none else some 8
  | _ => none

/-- Sub-codes 0x026 to 0x032 that the encoding, the launch and the core decide. -/
def useLater (i : Instr) (s : State) : Option Nat :=
  let t := s.team
  let hall := t.place.die == 8
  match i with
  | .capCommit | .capExit | .capAbort => if inBody t then none else some 0x26
  | .tqget _ q => if tqHeader s q = 0 then some 0x29 else none
  | .atomFadd o => if ordered t && o.d != 0 then some 0x2B else none
  | .vatom o => if ordered t && o.op == .fadd && !o.nr then some 0x2B else none
  | .mxls _ _ | .mxswap | .mxloopG _ | .mxacc _ | .mmaArray _ => if hall then some 0x30 else none
  | .mxloop o =>
    if hall then some 0x30
    else if o.l1 != 0 && 8 < t.place.core.toNat % 8 + o.l1.toNat + 1 then some 0x31 else none
  | .mxloopE o =>
    if hall then some 0x30 else if t.place.core.toNat % 8 < o.p.toNat then some 0x32 else none
  | _ => none

/-- The first sub-code of R423's order that the instruction raises at issue. -/
def issueUse (i : Instr) (s : State) : Option Nat :=
  match useStack i s.team with
  | some c => some c
  | none =>
    if Uses.aboveV i.uses s.team.vregCount then some 0x10
    else if i.uses.maskDst = some 0 then some 0x11
    else useLater i s

/-- Checks 1 to 3 of LOOP and LOOPI (R419). -/
def loopCheck (i : Instr) (s : State) (e : BitVec 15) : Option Stop :=
  let t := s.team
  let start := nextPc i s
  let last := t.pc + BitVec.ofNat 64 (4 * e.toNat)
  if tgtBit s t start = some false then some { cause := 0x21, pc := t.pc, faddr := start }
  else
    match fetchLine s t last with
    | .error (c, code) => some { cause := c, pc := t.pc, kind := 3, code := code, faddr := last }
    | .ok l =>
      match l.starts 16 0 with
      | .error _ => none
      | .ok ks =>
        if last.toNat % 64 = 60 || !ks.contains (parcelOf last) then
          some { cause := 0x23, pc := t.pc, code := 2, faddr := last }
        else
          match l.instr (parcelOf last) with
          | some (j, _) => if j.endsLoop then none else some { cause := 0x23, pc := t.pc, code := 3, faddr := last }
          | none => none

/-- The object of a BAR instruction: in the issuing block's own scratchpad (R256). -/
def objectAt (s : State) (va : Word) : Option Nat :=
  match decodeWindow s s.team.who va.toNat 32 .wr with
  | some (.ok loc) => if inOwnBlock s s.team loc && inOwnBlock s s.team (loc + 31) then some loc else none
  | _ => none

/-- The address lies in the local window or the scratch aperture (R423 0x020). -/
def inScratchWindow (va : Nat) : Bool :=
  (localBase ≤ va && va < localBase + 2 ^ 21) || (apertureBase ≤ va && va < apertureBase + 2 ^ 29)

/-- A lock record that no service team can hold: its region crosses 4 KiB, or it lies in host or peer memory (R423 0x025). -/
def badRecord (s : State) (va : Word) (size : Nat) : Bool :=
  decide (4096 < va.toNat % 4096 + size) ||
    match locate s s.team.who va 256 1 .none with
    | .ok loc => targetOf loc = .host || targetOf loc = .peer
    | .error _ => false

/-- A target word names a context of a live compute-die core; from a control team, on a cluster of its partition (R289). -/
def nameOk (s : State) (w : Word) : Bool :=
  let p := placeOfTarget w
  coreLive s p.die.toNat p.core.toNat &&
    (!s.team.ctl || partOfCluster s (clusterOf p.die.toNat p.core.toNat) = some s.team.part)

/-- A capsule instruction. -/
def Instr.isCapsule : Instr → Bool
  | .capEnter _ _ _ | .capCommit | .capExit | .capAbort => true
  | _ => false

/-- A request of a capsule instruction. -/
def SvcReq.isCapsule : SvcReq → Bool
  | .capEnter _ _ _ _ | .capCommit _ | .capExit _ | .capAbort => true
  | .ldfe _ _ _ | .qpush _ _ | .qpop _ | .tqget _ | .tqadd _ _ _ | .tqfill _ _ _ _ => false

/-- The team awaits the reply of a capsule request, or has a failure to take: nothing stops it before that (R299, R427). -/
def capPending (t : Team) : Bool :=
  t.asked && (t.request.any SvcReq.isCapsule || t.op.any Instr.isCapsule || t.reply.any fun r => r.err.isSome)

/-- A halted team, or a parked one that has stopped. -/
def stopped (t : Team) : Bool :=
  (!t.parks.isEmpty && !capPending t) || match t.status with
    | .halted _ => true
    | _ => false

/-- The ASID lies in the range of a partition (R392). -/
def asidInRange (p : Part) (a : Nat) : Bool := p.asidBase.toNat ≤ a && a < p.asidBase.toNat + p.asidCount.toNat

/-- A TLBINV may name the ASID (R423 0x009). -/
def asidOk (s : State) (w : Word) : Bool := !s.team.ctl || asidInRange (partOf s s.team.part) (fld w 12 0)

/-- The target of CTXSV and CTXLD is a stopped team. -/
def savable (s : State) (w : Word) : Bool := nameOk s w && (teamAt s (placeOfTarget w)).any stopped

/-- The sub-code and address of an illegal use that the value of one source decides at issue (R410 step 3). -/
def useOf (i : Instr) (s : State) : Option (SSrc × (Word → Option (Nat × Word))) :=
  let when := fun (bad : Word → Bool) (code : Nat) (v : Word) => if bad v then some (code, v) else none
  let none0 := fun (ok : Word → Bool) (code : Nat) (v : Word) => if ok v then none else some (code, (0 : Word))
  let obj := when (fun v => (objectAt s v).isNone) 0x21
  match i with
  | .barInit x a _ _ =>
    some (a, fun v => (obj v).or (if x && !straddleBlock s then some (0x24, v) else none))
  | .barArr _ a | .barArrx _ a | .barWait a _ | .barExpb a _ => some (a, obj)
  | .ldfeK o | .ldfeC o => some (o.a, when (fun v => !inScratchWindow v.toNat) 0x20)
  | .capEnter a sz _ => some (a, when (fun v => badRecord s v (256 * (sz.toNat + 1))) 0x25)
  | .mxacc o => some (o.c, none0 (fun v => v.toNat ≤ 256) 0x33)
  | .tlbinv a _ _ | .tlbinvAll a => some (a, none0 (asidOk s) 9)
  | .park a | .unpark a => some (a, none0 (nameOk s) 9)
  | .ctxsv a _ | .ctxld a _ => some (a, none0 (savable s) 9)
  | _ => none

/-- That illegal use, where the source has its value. -/
def valueUse (i : Instr) (s : State) : Option (Nat × Word) :=
  match useOf i s with
  | some (a, f) => if destEmpty s.team (.scal a.r) then none else f (sget s.team a.r)
  | none => none

/-- Step 3 of R410. -/
def preUse (i : Instr) (s : State) : Option Stop :=
  match i with
  | .loop _ e => loopCheck i s e
  | .loopi _ e => loopCheck i s e
  | _ =>
    match issueUse i s with
    | some c => some { cause := 0x23, pc := s.team.pc, code := c }
    | none => (valueUse i s).map fun x => { cause := 0x23, pc := s.team.pc, code := x.1, faddr := x.2 }

/-- Step 4 of R410: the first empty source with W = 0 (R412). -/
def emptySource (u : Uses) (t : Team) : Option Stop :=
  (u.srcs.find? fun x => !x.w && destEmpty t x.reg).map fun x =>
    { cause := 0x24, pc := t.pc,
      code := match x.reg with
        | .scal r => r.toNat
        | .vec r => 128 + r.toNat }

/-! ### The capsule body's rules (R294) -/

def bodyReg (d : Dest) : Bool :=
  match d with
  | .scal r => r.toNat ≤ 15
  | .vec _ => false

/-- The instance the team is inside: the one it holds, or the one it was displaced from. -/
def bodyHold (t : Team) : Option CapHold := match t.held with
  | some h => some h
  | none => t.displaced

/-- A breach by the instruction's kind, its registers, its branch target, or the count of 64: `capCount` counts the
CAP.ENTER too. A pair in a body is a breach of its own (R158), met where the pair is found. -/
def bodyBreach (i : Instr) (s : State) : Bool :=
  inBody s.team &&
    (!i.inBody || 65 ≤ s.team.capCount || !((i.uses.reads ++ i.uses.dsts).all bodyReg) ||
      match i with
      | .bc _ disp =>
        let tgt := dispTarget s disp
        !(s.team.pc.toNat < tgt.toNat && ((bodyHold s.team).all fun h => tgt.toNat < h.bodyEnd.toNat))
      | _ => false)

/-! ### Waiting and poison -/

/-- The registers that the instruction waits for: sources with W = 1, registers read without a wait bit, destinations. -/
def waitsFor (u : Uses) : List Dest := ((u.srcs.filter (·.w)).map (·.reg)) ++ u.impl ++ u.dsts

/-- What an ordered team's wait is for (R369). -/
def waitKind (t : Team) (w : WaitOn) : WaitOn := if ordered t then .quantum else w

/-- What an instruction that needs empty registers waits for: a quantum end brings the replies of an ordered team's requests,
and a broadcast or leave for the array only stalls it (R369). -/
def stallKind (t : Team) (ds : List Dest) : WaitOn :=
  if t.inflight.any fun f => ds.contains f.dest && match f.src with
    | .broadcast _ | .array _ _ => true
    | _ => false
  then .resource else waitKind t .resource

/-- The scalar registers that results are on their way to. -/
def scalarsDue (t : Team) : List Dest :=
  t.inflight.filterMap fun f => match f.dest with
    | .scal r => some (.scal r)
    | .vec _ => none

/-- PIX of a stop before the instruction has begun again: the progress that a return restored stands (R397). -/
def pixKept (t : Team) : Word := pixSeen t

/-- The checks of an instruction at its issue, in the order of R410, then its own effect. -/
def checkedAt (i : Instr) (s : State) (body : State → Eff) : Eff :=
  if bodyBreach i s then .stop s { cause := 0x40, pc := s.team.pc }
  else
    match preUse i s with
    | some x => .stop s x
    | none =>
      match emptySource i.uses s.team with
      | some x => .stop s x
      | none =>
        if i.uses.reads.any (destPoisoned s.team) then
          .stop s { cause := 0x50, pc := s.team.pc, code := 4, pix := pixKept s.team }
        else body s

/-- An instruction issues once its registers with W = 1 and its destinations are full (R55, R56); one that has issued and
waits for a reply goes on with its effect. DEDUCED, log 23. -/
def checked (i : Instr) (s : State) (body : State → Eff) : Eff :=
  if s.team.asked then body s
  else
    match awaitAll s (waitsFor i.uses) with
    | none => .hold s (stallKind s.team (waitsFor i.uses))
    | some s1 => checkedAt i s1 body

/-! ### Retirement -/

/-- Loop entries left after a taken branch at `here` to `target` (R203). -/
def popTaken (here target : Word) : List LoopEntry → List LoopEntry
  | [] => []
  | e :: rest =>
    if e.stop = here || target.toNat < e.start.toNat || e.stop.toNat < target.toNat then popTaken here target rest
    else e :: rest

/-- Loop entries after any other instruction at `here`, and the start to go back to (R203). -/
def loopEnd (here : Word) : List LoopEntry → List LoopEntry × Option Word
  | [] => ([], none)
  | e :: rest =>
    if e.stop = here then
      if 1 < e.count then ({ e with count := e.count - 1 } :: rest, some e.start) else loopEnd here rest
    else (e :: rest, none)

/-- Quantum length of the team's launch (R368). -/
def quantumOf (s : State) (t : Team) : Nat :=
  match levelOfLaunch s t.part t.launch with
  | some l => l.kd.quant
  | none => 1024

/-- What every retirement does to the team beside its PC. -/
def retireTeam (s : State) (t : Team) : Team :=
  { t with pix := 0, useCmode := false, pairShadow := none, inPair := false, status := .ready, waitReported := false,
           request := none, reply := none, asked := false, op := none, spent := [], chosen := none, granted := false,
           arrival := none,
           capCount := if inBody t then t.capCount + 1 else t.capCount,
           qnt := if ordered t then t.qnt + 1 else t.qnt,
           closed := t.closed || (ordered t && quantumOf s t ≤ t.qnt + 1) }

/-- The current team retires the instruction at `here`, not a taken branch, and goes on at `to`. -/
def retireAt (s : State) (here tgt : Word) : State :=
  let (ls, back) := loopEnd here s.team.lstk
  { s with team := { retireTeam s s.team with lstk := ls, pc := back.getD tgt } }

/-- The current team takes a branch from `here` to `to`. -/
def branchAt (s : State) (here tgt : Word) : State :=
  { s with team := { retireTeam s s.team with lstk := popTaken here tgt s.team.lstk, pc := tgt } }

/-- What only a quantum end can change (R369). -/
def isBlocking : WaitOn → Bool
  | .quantum | .lower _ => true
  | _ => false

/-- The current team waits at its instruction; one that is blocked closes its quantum. -/
def holdAt (s : State) (w : WaitOn) : State :=
  { s with team := { s.team with status := .waiting w, closed := s.team.closed || isBlocking w, granted := false } }

/-- A stop: results on their way to scalar registers are awaited before a frame is written (R57), and a frame whose stores are
held holds its team. A team that a cancel awaits reports none (R427). -/
def stopAt (s0 s : State) (x : Stop) : State :=
  if s.team.cancelling then s.upd giveUp
  else if inBody s.team || !redirected x.cause || s.team.fcont = 0 then (tryRaise s x).getD s
  else
    match awaitScalars s with
    | some s1 =>
      (match tryRaise s1 x with
        | some s2 => s2
        | none => holdAt s0 .resource)
    | none => holdAt s0 (stallKind s0.team (scalarsDue s0.team))

/-- An instruction that writes the poison bit of its destinations itself. -/
def landsPoison : Instr → Bool
  | .ldfeK _ | .ldfeC _ => true
  | _ => false

/-- A register written whole is no longer poisoned; a result on its way brings its own poison bit with it (R445). -/
def unpoison (i : Instr) (s : State) : State :=
  let t := s.team
  if t.sPoison = 0 && t.vPoison = 0 || landsPoison i then s
  else
    let whole := i.uses.masks.all fun k => activeMask t k == laneMask t.lanes
    { s with team := i.uses.dsts.foldl (fun t d => match d with
        | .scal r => markPoison t (.scal r) false
        | .vec r => if whole && startWord t = 0 then markPoison t (.vec r) false else t) t }

/-- What an effect leaves, when the instruction is done. -/
def Eff.cleaned (i : Instr) : Eff → Eff
  | .retire s => .retire (unpoison i s)
  | .goto s a => .goto (unpoison i s) a
  | .land s a => .land (unpoison i s) a
  | e => e

/-- The current team retires the instruction at its PC and goes on at `tgt`, or back to a loop's start, which is a checked
transfer (R171, R202). -/
def retireChecked (s0 s : State) (tgt : Word) : State :=
  match (loopEnd s0.team.pc s.team.lstk).2 with
  | some back =>
    match badTarget s s.team back with
    | some c => stopAt s0 s0 { cause := c, pc := s0.team.pc, faddr := back, pix := pixKept s0.team }
    | none => retireAt s s0.team.pc tgt
  | none => retireAt s s0.team.pc tgt

/-- An instruction that has asked stays as it is until its reply. -/
def keepOp (i : Instr) (s : State) : State := if s.team.asked then s.upd fun t => { t with op := some i } else s

/-- The end of an instruction that issued in state `s0`. -/
def conclude (i : Instr) (s0 : State) : Eff → State
  | .retire s => retireChecked s0 s (nextPc i s0)
  | .land s tgt => retireChecked s0 s tgt
  | .goto s tgt =>
    match badTarget s0 s0.team tgt with
    | some c => stopAt s0 s0 { cause := c, pc := s0.team.pc, faddr := tgt, pix := pixKept s0.team }
    | none => if i.isBranch then branchAt s s0.team.pc tgt else retireAt s s0.team.pc tgt
  | .hold s w => holdAt (keepOp i s) w
  | .stop s x => stopAt s0 s x
  | .done s => s

/-- ISSUING one instruction of the current team: its checks, its effect, its retirement. -/
def issue (i : Instr) (s : State) (body : State → Eff) : Host.Outcome State Fault Refusal :=
  .next (conclude i s ((checked i s body).cleaned i))

/-- An effect after a release (R93), once nothing of it is held. -/
def relThen (s : State) (sc : Scope) (k : State → Eff) : Eff := if releaseWaits s sc then .hold s .resource else k (release s sc)

/-- The current team changed and the instruction done. -/
def retireWith (s : State) (f : Team → Team) : Eff := .retire { s with team := f s.team }

/-- A scalar result written. -/
def retireScalar (s : State) (d : SReg) (v : Word) : Eff := retireWith s fun t => sset t d v

end Sys2Proof.Machine
end

