-- ==== Sys2Proof/Machine/Parking.lean ====
section
/-! DEFINITION. Withdrawing what a parked team waits for, and releasing a team (spec/24 R405, R406, spec/13 R299, R300), shared
by PARK, UNPARK, pre-emption, the cap, the debugger and the halt of a die. -/

namespace Sys2Proof.Machine

/-- A team stopped at an instruction that waits for a bank or a service team: the request is withdrawn, and the instruction
begins again when the team goes on (R406). A reply that has come is kept, and an ordered team's request stands until a quantum
end. -/
def stopWait (s : State) (t : Team) : State :=
  if ordered t || !t.asked || t.reply.isSome then s else mapTeam (withdraw s t.place) t.place giveUp

/-- A team is halted (R403). -/
def isHalted (t : Team) : Bool :=
  match t.status with
  | .halted _ => true
  | _ => false

/-- A team loses a reason; with the last it may issue again, and its capsule record is to stand RUN, but not that of a team which
is still halted (R300, R403). -/
def releaseTeam (s : State) (p : Place) (r : ParkReason) : State :=
  match teamAt s p with
  | none => s
  | some t =>
    if t.parks.contains r then
      let left := t.parks.filter fun x => x != r
      let s1 := mapTeam s p fun t => { t with parks := left }
      if left.isEmpty && !isHalted t then descheduleCap s1 t true else s1
    else s

/-- A halted team starts again at the reported PC, and one that stopped at BKPT after it (R403, R407). Where the BKPT ends a loop
whose start is no target, the team raises that stop as it goes on (R202). -/
def restarted (s : State) (t : Team) : Team :=
  match t.status with
  | .halted _ =>
    let (ls, back) := loopEnd t.pc t.lstk
    if t.bkpt && (back.all fun b => (badTarget s t b).isNone) then
      { retireTeam s t with lstk := ls, pc := back.getD (skipWord (t.pc + 4)), bkpt := false }
    else { t with status := .ready }
  | _ => t

def restartTeam (s : State) (p : Place) : State := mapTeam s p (restarted s)

/-- UNPARK of the team in a context (R289, R403): a halted team's record is to stand RUN again with it. -/
def unparkTeam (s : State) (p : Place) : State :=
  match teamAt s p with
  | none => s
  | some t =>
    let s1 := restartTeam s p
    if isHalted t && t.parks.isEmpty then descheduleCap s1 t true else releaseTeam s1 p .sys

end Sys2Proof.Machine
end

