-- ==== Sys2Proof/Machine/Cancel.lean ====
section
/-! DEFINITION. Cancel (spec/02 R40-R42, spec/14 R327, spec/26 R436, spec/27 R449, R453). -/

namespace Sys2Proof.Machine

/-- The levels beneath a level, itself first; four levels deep. -/
def beneath (s : State) (k : Nat) : List Nat :=
  let kids := fun (ks : List Nat) => (s.levels.filter fun l => l.parent.any fun p => ks.contains p).map (·.serial)
  let a := kids [k]
  let b := kids a
  k :: a ++ b ++ kids b

/-- An engine operation that a cancel lets drain to its end (R40, R436). -/
def drains (o : EngOp) : Bool :=
  o.begun && match o.state with
    | .running | .finished => true
    | _ => false

/-- An operation is aborted: it takes no leave and counts no bytes. -/
def abortOp (s : State) (o : EngOp) : State :=
  let d := o.place.die.toNat
  let s1 : State := { s with engines := s.engines.filter fun e => e.id != o.id }
  if d < 8 then dropLeave s1 d (.op o.id) else s1

/-- A team is cancelled, once no capsule request of it is outstanding (R299): what it stored and asked for is performed (R39),
its record stands PARKED, in an ordered launch too (R42, R307), and its context is freed. -/
def cancelTeam (s : State) (t : Team) : State :=
  if capPending t then mapTeam s t.place fun t => { t with cancelling := true }
  else removeTeam (withdraw (settleCaps (askState (flushCore (drain s) (placeKey t.place)) t false)) t.place) t.place

/-- A cancelled block is done once no team and no engine operation of it is left. -/
def settleBlock (s : State) (b : Block) : State :=
  if (everyTeam s).any (sameBlock b.part b.launch b.blk) ||
      s.engines.any (fun o => o.part == b.part && o.launch == b.launch && o.blk == b.blk && o.command.isNone) then s
  else
    match levelOfLaunch s b.part b.launch with
    | some l => if s.blocks.any (fun c => c.part == b.part && c.launch == b.launch && c.blk == b.blk)
        then blockDone s l b.blk true else s
    | none => unloadBlock s b.part b.launch b.blk

/-- Blocks of a launch that have been dispatched and are not complete. -/
def liveBlocks (s : State) (p : BitVec 4) (launch : BitVec 32) : List Block :=
  (s.blocks ++ s.preempted.flatMap (·.blocks)).filter fun b => b.part == p && b.launch == launch

/-- A core's record without what it holds of a launch: its save areas there are free. -/
def Preempted.without (x : Preempted) (launch : BitVec 32) : Preempted :=
  let ts := x.teams.filter fun t => t.launch != launch
  let (gone, bs) := x.blocks.partition fun b => b.launch == launch
  let dead := fun loc => gone.any fun b => inAlloc b loc
  { x with teams := ts, blocks := bs, ops := x.ops.filter fun o => o.launch != launch, need := victimNeed ts bs,
           spad := x.spad.filter fun c => !dead c.1, full := x.full.filter fun g => !dead (g * 16), tags := x.tags.filter fun t => !dead t,
           bank := x.bank.filter fun r => !dead r.obj, cross := x.cross.filter fun c => !dead c.obj }

/-- What a pre-emption saved of a launch is discarded, and its areas are free; a core with no claim left is free of its record
(R319, R327). The records of the discarded teams' capsules stand PARKED, in an ordered launch too (R42). The discarded blocks hold
their launch's counter, and no scratchpad, until no engine operation of theirs is left. -/
def dropSaved (s : State) (p : BitVec 4) (launch : BitVec 32) : State :=
  let mine := s.preempted.filter fun x => x.part == p
  let s1 := (mine.flatMap fun x => x.teams.filter fun t => t.launch == launch).foldl (fun s t => askState s t false) s
  let bs := (mine.flatMap fun x => x.blocks.filter fun b => b.launch == launch).map fun b => { b with off := 0, size := 0 }
  let s2 : State :=
    { s1 with preempted := (s1.preempted.map fun x => if x.part = p then x.without launch else x).filter fun x => !x.teams.isEmpty,
              blocks := s1.blocks ++ bs }
  if s1.capWrites.isEmpty then s2 else settleCaps s2

/-- Undispatched blocks of a launch are cancelled: each falls on the counter. -/
def stopDispatch (l : Level) : Level :=
  let left := l.blocks - l.next
  { l with next := l.blocks, children := l.children - left, cancelled := l.cancelled || decide (0 < left),
           cancelPending := true }

/-- The teams that a cancel reaches: not those on a halted die (R453). -/
def reachable (s : State) (t : Team) : Bool := t.place.die == 8 || !s.diehalt.getLsbD t.place.die.toNat

/-- One launch is cancelled. A team cancelled after a halt gives its launch the cause recorded first (R403). -/
def cancelLaunch (s : State) (l : Level) : State :=
  let mine := fun t : Team => t.part == l.part && t.launch == l.launch
  let teams := (teamsOf s).filter fun t => mine t && reachable s t
  let saved := (s.preempted.flatMap (·.teams)).filter mine
  let halted := (teams ++ saved).any isHalted
  let blocks := liveBlocks s l.part l.launch
  let s1 := mapLevel s l.serial fun l => { stopDispatch l with err := if halted && l.err = 0 then l.haltCause else l.err }
  let s2 := dropSaved s1 l.part l.launch
  let s3 := teams.foldl cancelTeam s2
  let s4 := (s3.engines.filter fun o => o.part == l.part && o.launch == l.launch && o.command.isNone && !drains o &&
    (o.place.die == 8 || !s.diehalt.getLsbD o.place.die.toNat)).foldl abortOp s3
  settle4 (blocks.foldl settleBlock s4) l.serial

/-- Nodes of an instance that have not begun are cancelled. -/
def stopNodes (g : Level) : Level :=
  let left := (List.range g.image.length).filter fun n => !g.nodeDone.contains n && !g.nodeLive.contains n
  { g with children := g.children - left.length, cancelled := g.cancelled || !left.isEmpty, cancelPending := true,
           nodeDone := g.nodeDone ++ left, edgeTokens := [] }

def cancelOne (s : State) (k : Nat) : State :=
  match levelAt s k with
  | none => s
  | some l =>
    match l.kind with
    | .launch => cancelLaunch s l
    | .graph => settle4 (mapLevel s k stopNodes) k
    | .phase | .job => s

/-- Cancel of a level and of every level beneath it (R40): all are marked first, so that nothing below is dispatched. -/
def cancelLevel (s : State) (k : Nat) (code : Byte) : State :=
  let ks := beneath s k
  let s1 := ks.foldl (fun s k => mapLevel s k fun l =>
    { l with cancelPending := true, err := if l.err = 0 then code else l.err }) s
  fillAll (ks.reverse.foldl cancelOne s1)

/-- CANCELs whose level's counter has fallen complete (R327). -/
def settleCancels (s : State) : State :=
  let done := s.cancels.filter fun x => match levelAt s x.2 with
    | some l => l.children == 0
    | none => true
  let s1 : State := { s with cancels := s.cancels.filter fun x => !done.contains x }
  done.foldl (fun s x => completeCmd s x.1 0 false false) s1

/-- Cancels under way are carried on: a die released, or an operation drained (R40, R453). -/
def carryCancels (s : State) : State :=
  fillAll (settleCancels ((s.levels.filter fun l => l.cancelPending && decide (l.kind = .launch)).foldl cancelLaunch s))

/-- A block of a cancelled launch may now be done: the rows it leaves are filled (R44). -/
def settleCancelled (s : State) (p : BitVec 4) (launch blk : BitVec 32) : State :=
  fillAll (settleCancels (((liveBlocks s p launch).filter fun b => b.blk == blk).foldl settleBlock s))

/-- The context of a cancelled launch's last drained operation. -/
def afterDrain (s : State) (o : EngOp) : State :=
  match levelOfLaunch s o.part o.launch with
  | some l => if l.cancelPending then settleCancelled s o.part o.launch o.blk else s
  | none => s

/-- A team whose cancel awaited the reply of a capsule request goes. -/
def finishCancel (s : State) (t : Team) : State := settleCancelled (cancelTeam s t) t.part t.launch t.blk

end Sys2Proof.Machine
end

