-- ==== Sys2Proof/Machine/Vector.lean ====
section
/-! DEFINITION. Element-wise vector instructions on integers and bits, packing and conversion (spec/10 R214-R222,
R227-R230). -/

namespace Sys2Proof.Machine

/-! ### Operands (R175, R176) -/

def elems (w : Nat) (x : Word) : List Nat := (List.range (64 / w)).map (elem w x)

/-- The same w bits in every sub-element. -/
def splat (w v : Nat) : Word := packElems w ((List.range (64 / w)).map fun _ => v % 2 ^ w)

/-- Operand a of a lane at width w. -/
def aVal (t : Team) (w : Nat) (a : VA) (lane : Nat) : Word :=
  match a with
  | .vec s => vget t lane s.r
  | .scal s => splat w (sget t s.r).toNat

/-- Operand b of a lane at width w; `lit64` gives a literal at 64 bits. -/
def bVal (t : Team) (w : Nat) (lit64 : BitVec 32 → Word) (b : VB) (lane : Nat) : Word :=
  match b with
  | .vec s => vget t lane s.r
  | .scal s => splat w (sget t s.r).toNat
  | .lit v => if w = 64 then lit64 v else splat w v.toNat

/-- A literal of an integer instruction: sign-extended at 64 bits. -/
def intLit (v : BitVec 32) : Word := sext64 v

/-! ### Shapes -/

/-- The active lanes of the lane-words that are still to do (R25, R66). -/
def lanesToDo (t : Team) (k : KReg) : List Nat := (activeLanes t k).filter fun l => startWord t ≤ l / 32

/-- A datapath instruction: every active lane's register takes f of the lane (R215, R216). -/
def mapLanes (i : Instr) (d : VReg) (k : KReg) (f : Team → Nat → Word) (s : State) : Host.Outcome State Fault Refusal :=
  issue i s fun s => retireWith s fun t => vsetLanes t d (lanesToDo t k) (f t)

def map1 (w : Nat) (f : Nat → Nat) (x : Word) : Word := packElems w ((elems w x).map f)
def map2 (w : Nat) (f : Nat → Nat → Nat) (x y : Word) : Word := packElems w (List.zipWith f (elems w x) (elems w y))
def map3 (w : Nat) (f : Nat → Nat → Nat → Nat) (x y z : Word) : Word :=
  packElems w (List.zipWith (fun g c => g c) (List.zipWith f (elems w x) (elems w y)) (elems w z))

/-- Two operands, sub-element by sub-element. -/
def vecBin (i : Instr) (o : VBin) (f : Nat → Nat → Nat → Nat) (s : State) : Host.Outcome State Fault Refusal :=
  mapLanes i o.d o.k
    (fun t l => map2 o.es.bits (f o.es.bits) (aVal t o.es.bits o.a l) (bVal t o.es.bits intLit o.b l)) s

/-- One operand, sub-element by sub-element. -/
def vecUn (i : Instr) (o : VUn) (f : Nat → Nat → Nat) (s : State) : Host.Outcome State Fault Refusal :=
  mapLanes i o.d o.k (fun t l => map1 o.es.bits (f o.es.bits) (aVal t o.es.bits o.a l)) s

/-- Two operands and the vector c. -/
def vecTri (i : Instr) (o : VTri) (f : Nat → Nat → Nat → Nat → Nat) (s : State) : Host.Outcome State Fault Refusal :=
  mapLanes i o.d o.k
    (fun t l => map3 o.es.bits (f o.es.bits) (aVal t o.es.bits o.a l) (bVal t o.es.bits intLit o.b l)
      (vget t l o.c.r)) s

/-! ### Functions of one sub-element at width w (R219-R221) -/

def satOf (sat : Bool) (w : Nat) (r : Int) : Nat := if sat then satS w r else wrapInt w r

def addElem (sat : Sat) (w x y : Nat) : Nat :=
  match sat with
  | .wrap => wrapInt w (toSigned w x + toSigned w y)
  | .s => satS w (toSigned w x + toSigned w y)
  | .sn => satN w ((x : Int) + (y : Int))

def subElem (sat : Sat) (w x y : Nat) : Nat :=
  match sat with
  | .wrap => wrapInt w (toSigned w x - toSigned w y)
  | .s => satS w (toSigned w x - toSigned w y)
  | .sn => satN w ((x : Int) - (y : Int))

def andnElem (w x y : Nat) : Nat := x &&& (2 ^ w - 1 - y)
def shlElem (sat : Bool) (w x y : Nat) : Nat := satOf sat w (toSigned w x * ((2 ^ (y % w) : Nat) : Int))
def shrlElem (w x y : Nat) : Nat := x / 2 ^ (y % w)
def shraElem (w x y : Nat) : Nat := wrapInt w (toSigned w x / ((2 ^ (y % w) : Nat) : Int))
def minElem (w x y : Nat) : Nat := if toSigned w x ≤ toSigned w y then x else y
def maxElem (w x y : Nat) : Nat := if toSigned w x ≤ toSigned w y then y else x
def absElem (sat : Bool) (w x : Nat) : Nat := satOf sat w ((toSigned w x).natAbs : Int)
def negElem (sat : Bool) (w x : Nat) : Nat := satOf sat w (-toSigned w x)
def mulElem (sat : Bool) (w x y : Nat) : Nat := satOf sat w (toSigned w x * toSigned w y)
def mulhElem (w x y : Nat) : Nat := wrapInt w (toSigned w x * toSigned w y / ((2 ^ w : Nat) : Int))
def mulhnElem (w x y : Nat) : Nat := x * y / 2 ^ w
def madElem (sat : Bool) (w x y z : Nat) : Nat := satOf sat w (toSigned w x * toSigned w y + toSigned w z)

/-- The test of VCMP (R221). -/
def cmpElem (fn : CmpFn) (w x y : Nat) : Bool :=
  let a := toSigned w x
  let b := toSigned w y
  match fn with
  | .eq => x == y
  | .ne => x != y
  | .lt => decide (a < b)
  | .le => decide (a ≤ b)
  | .gt => decide (b < a)
  | .ge => decide (b ≤ a)
  | .ltn => decide (x < y)
  | .len => decide (x ≤ y)
  | .gtn => decide (y < x)
  | .gen => decide (y ≤ x)

/-- All ones or 0. -/
def ones (w : Nat) (b : Bool) : Nat := if b then 2 ^ w - 1 else 0

/-! ### VALU (R219) -/

def execValuAdd (o : VBin) (sat : Sat) (s : State) := vecBin (.valuAdd o sat) o (addElem sat) s
def execValuSub (o : VBin) (sat : Sat) (s : State) := vecBin (.valuSub o sat) o (subElem sat) s
def execValuAnd (o : VBin) (s : State) := vecBin (.valuAnd o) o (fun _ x y => x &&& y) s
def execValuOr (o : VBin) (s : State) := vecBin (.valuOr o) o (fun _ x y => x ||| y) s
def execValuXor (o : VBin) (s : State) := vecBin (.valuXor o) o (fun _ x y => x ^^^ y) s
def execValuAndn (o : VBin) (s : State) := vecBin (.valuAndn o) o andnElem s
def execValuShl (o : VBin) (sat : Bool) (s : State) := vecBin (.valuShl o sat) o (shlElem sat) s
def execValuShrl (o : VBin) (s : State) := vecBin (.valuShrl o) o shrlElem s
def execValuShra (o : VBin) (s : State) := vecBin (.valuShra o) o shraElem s
def execValuMin (o : VBin) (s : State) := vecBin (.valuMin o) o minElem s
def execValuMax (o : VBin) (s : State) := vecBin (.valuMax o) o maxElem s
def execValuMinn (o : VBin) (s : State) := vecBin (.valuMinn o) o (fun _ x y => min x y) s
def execValuMaxn (o : VBin) (s : State) := vecBin (.valuMaxn o) o (fun _ x y => max x y) s
def execValuAbs (o : VUn) (sat : Bool) (s : State) := vecUn (.valuAbs o sat) o (absElem sat) s
def execValuNeg (o : VUn) (sat : Bool) (s : State) := vecUn (.valuNeg o sat) o (negElem sat) s
def execValuMov (d : VReg) (k : KReg) (es : Width) (b : VB) (s : State) :=
  mapLanes (.valuMov d k es b) d k (fun t l => bVal t es.bits intLit b l) s

/-! ### VMUL, VCMP, VSEL, VBCAST, VLID (R220-R222) -/

def execVmulMul (o : VBin) (sat : Bool) (s : State) := vecBin (.vmulMul o sat) o (mulElem sat) s
def execVmulMulh (o : VBin) (s : State) := vecBin (.vmulMulh o) o mulhElem s
def execVmulMulhn (o : VBin) (s : State) := vecBin (.vmulMulhn o) o mulhnElem s
def execVmulMad (o : VTri) (sat : Bool) (s : State) := vecTri (.vmulMad o sat) o (madElem sat) s
def execVcmp (fn : CmpFn) (o : VBin) (s : State) :=
  vecBin (.vcmp fn o) o (fun w x y => ones w (cmpElem fn w x y)) s
def execVsel (o : VTri) (s : State) := vecTri (.vsel o) o (fun _ x y c => if c = 0 then y else x) s

/-- VBCAST: sub-element I of each lane, or the scalar's low bits. -/
def execVbcast (o : VUn) (idx : BitVec 3) (s : State) :=
  mapLanes (.vbcast o idx) o.d o.k
    (fun t l => match o.a with
      | .vec r => splat o.es.bits (elem o.es.bits (vget t l r.r) idx.toNat)
      | .scal r => splat o.es.bits (sget t r.r).toNat) s

/-- VLID. -/
def execVlid (d : VReg) (k : KReg) (es : Width) (s : State) :=
  mapLanes (.vlid d k es) d k
    (fun _ l => packElems es.bits ((List.range es.nsub).map fun i => l * es.nsub + i)) s

/-! ### CVT, PACK, UNPACK, PERM (R227-R230) -/

/-- One lane of a CVT: source register x, old destination y (R228). -/
def cvtLane (dst src : Fmt) (m : FMode) (part : Nat) (x y : Word) : Word :=
  let ws := src.bits
  let wd := dst.bits
  if ws ≤ wd then
    let n := 64 / wd
    packElems wd ((List.range n).map fun j => cvtElem dst src m (elem ws x (part * n + j)))
  else
    let n := 64 / ws
    (List.range n).foldl (fun r j => setElem wd r (part * n + j) (cvtElem dst src m (elem ws x j))) y

def execCvt (d : VReg) (k : KReg) (a : VSrc) (dst src : Fmt) (part : BitVec 3) (s : State) :=
  mapLanes (.cvt d k a dst src part) d k
    (fun t l => cvtLane dst src (fmode t) part.toNat (vget t l a.r) (vget t l d)) s

/-- narrow of R230: from width w to w / 2. -/
def narrowElem (sat : Sat) (w x : Nat) : Nat :=
  match sat with
  | .wrap => x % 2 ^ (w / 2)
  | .s => satS (w / 2) (toSigned w x)
  | .sn => satN (w / 2) (x : Int)

def execPack (o : VBin) (sat : Sat) (s : State) :=
  mapLanes (.pack o sat) o.d o.k
    (fun t l =>
      let w := o.es.bits
      packElems (w / 2) ((elems w (aVal t w o.a l) ++ elems w (bVal t w intLit o.b l)).map (narrowElem sat w))) s

def execUnpack (o : VUn) (sx half : Bool) (s : State) :=
  mapLanes (.unpack o sx half) o.d o.k
    (fun t l =>
      let w := o.es.bits
      let n := o.es.nsub
      let x := aVal t w o.a l
      packElems w ((List.range n).map fun j =>
        let e := elem (w / 2) x ((if half then n else 0) + j)
        if sx then wrapInt w (toSigned (w / 2) e) else e)) s

def execPerm (o : VTri) (s : State) :=
  mapLanes (.perm o) o.d o.k
    (fun t l =>
      let w := o.es.bits
      let tab := elems w (aVal t w o.a l) ++ elems w (bVal t w intLit o.b l)
      map1 w (fun x => if 2 ^ (w - 1) ≤ x then 0 else tab.getD (x % (2 * o.es.nsub)) 0) (vget t l o.c.r)) s

end Sys2Proof.Machine
end

