-- ==== Sys2Proof/Machine/Float.lean ====
section
/-! DEFINITION. Floating-point vector instructions and the special functions (spec/10 R217, R223-R226). -/

namespace Sys2Proof.Machine

/-- The binary format of a floating suffix (R217). -/
def fpOf : FFmt → FpFmt
  | .f16 => .f16
  | .bf16 => .bf16
  | .f32 => .f32
  | .f64 => .f64

def fWidth (f : FFmt) : Nat := (fpOf f).width

/-- A literal of an FP64 operation: an FP32 value widened exactly (R176), whatever MODE.DAZ: DESIGN CHOICE, log 77. -/
def fpLit (v : BitVec 32) : Word := BitVec.ofNat 64 (cvtElem .fp64 .fp32 ⟨0, false, false, false⟩ v.toNat)

/-! ### Shapes -/

def fpBin (i : Instr) (o : FBin) (f : FpFmt → FMode → Nat → Nat → Nat) (s : State) :
    Host.Outcome State Fault Refusal :=
  mapLanes i o.d o.k
    (fun t l => map2 (fWidth o.f) (f (fpOf o.f) (fmode t)) (aVal t (fWidth o.f) o.a l)
      (bVal t (fWidth o.f) fpLit o.b l)) s

def fpUn (i : Instr) (o : FUn) (f : FpFmt → FMode → Nat → Nat) (s : State) : Host.Outcome State Fault Refusal :=
  mapLanes i o.d o.k (fun t l => map1 (fWidth o.f) (f (fpOf o.f) (fmode t)) (aVal t (fWidth o.f) o.a l)) s

def fpTri (i : Instr) (o : FTri) (f : FpFmt → FMode → Nat → Nat → Nat → Nat) (s : State) :
    Host.Outcome State Fault Refusal :=
  mapLanes i o.d o.k
    (fun t l => map3 (fWidth o.f) (f (fpOf o.f) (fmode t)) (aVal t (fWidth o.f) o.a l)
      (bVal t (fWidth o.f) fpLit o.b l) (vget t l o.c.r)) s

/-- A long-latency producer of a vector register: the results of the active lanes are on their way, and the destination
is empty until they arrive; with no active lane it stays full and unchanged (R26, R54). -/
def produceLanes (s : State) (d : VReg) (lanes : List Nat) (f : Nat → Word) : Eff :=
  if lanes.isEmpty then .retire s
  else retireWith s fun t => produce t (.vec d) (.values (lanes.map fun l => (l, f l))) false

def sfuUn (i : Instr) (o : FUn) (fn : SfuFn) (s : State) : Host.Outcome State Fault Refusal :=
  issue i s fun s =>
    let t := s.team
    produceLanes s o.d (activeLanes t o.k) fun l =>
      map1 (fWidth o.f) (fpSfu (fpOf o.f) (fmode t) fn) (aVal t (fWidth o.f) o.a l)

/-! ### FALU (R223) -/

def absPat (f : FpFmt) (x : Nat) : Nat := fpMag f x
def negPat (f : FpFmt) (x : Nat) : Nat := signBit f (!fpNeg f x) + fpMag f x
def csgnPat (f : FpFmt) (x y : Nat) : Nat := signBit f (fpNeg f y) + fpMag f x

def execFadd (o : FBin) (s : State) := fpBin (.fadd o) o fpAdd s
def execFsub (o : FBin) (s : State) := fpBin (.fsub o) o fpSub s
def execFmul (o : FBin) (s : State) := fpBin (.fmul o) o fpMul s
def execFmin (o : FBin) (s : State) := fpBin (.fmin o) o (fun f m x y => fpMinMax f m false x y) s
def execFmax (o : FBin) (s : State) := fpBin (.fmax o) o (fun f m x y => fpMinMax f m true x y) s
def execFabs (o : FUn) (s : State) := fpUn (.fabs o) o (fun f _ x => absPat f x) s
def execFneg (o : FUn) (s : State) := fpUn (.fneg o) o (fun f _ x => negPat f x) s
def execFcsgn (o : FBin) (s : State) := fpBin (.fcsgn o) o (fun f _ x y => csgnPat f x y) s

/-! ### Fused operations and comparison (R224, R225) -/

def execFfma (o : FTri) (s : State) := fpTri (.ffma o) o (fun f m x y z => fpFma f m false false x y z) s
def execFfms (o : FTri) (s : State) := fpTri (.ffms o) o (fun f m x y z => fpFma f m false true x y z) s
def execFnma (o : FTri) (s : State) := fpTri (.fnma o) o (fun f m x y z => fpFma f m true false x y z) s
def execFcmp (fn : FCmpFn) (o : FBin) (s : State) :=
  fpBin (.fcmp fn o) o (fun f m x y => ones f.width (fpCmp f m.daz fn x y)) s

/-! ### Special functions (R226) -/

def execFrcp (o : FUn) (s : State) := sfuUn (.frcp o) o .rcp s
def execFrsq (o : FUn) (s : State) := sfuUn (.frsq o) o .rsq s
def execFsqrt (o : FUn) (s : State) := sfuUn (.fsqrt o) o .sqrt s
def execFexp2 (o : FUn) (s : State) := sfuUn (.fexp2 o) o .exp2 s
def execFlog2 (o : FUn) (s : State) := sfuUn (.flog2 o) o .log2 s
def execFsin (o : FUn) (s : State) := sfuUn (.fsin o) o .sin s
def execFcos (o : FUn) (s : State) := sfuUn (.fcos o) o .cos s
def execFtanh (o : FUn) (s : State) := sfuUn (.ftanh o) o .tanh s

end Sys2Proof.Machine
end

