-- ==== Sys2Proof/Machine/Cross.lean ====
section
/-! DEFINITION. Cross-lane and mask instructions (spec/10 R231-R238). -/

namespace Sys2Proof.Machine

/-! ### SHFL and SHFLI (R231, R232) -/

def execShfl (d : VReg) (k : KReg) (es : Width) (a : VSrc) (b : VA) (s : State) : Host.Outcome State Fault Refusal :=
  issue (.shfl d k es a b) s fun s =>
    let t := s.team
    let w := es.bits
    produceLanes s d (activeLanes t k) fun l =>
      map1 w (fun x =>
        let y := x % (t.lanes * es.nsub)
        elem w (vget t (y / es.nsub) a.r) (y % es.nsub)) (aVal t w b l)

/-- m of R232. -/
def shAmount (t : Team) : ShAmt → Nat
  | .scal s => (sget t s.r).toNat
  | .lit v => v.toNat

/-- SHFLI with the source lane that its function gives: (lane, offset in the segment, segment size, m). -/
def shfliWith (i : Instr) (o : ShfliOps) (f : Nat → Nat → Nat → Nat → Nat) (s : State) :
    Host.Outcome State Fault Refusal :=
  issue i s fun s =>
    let t := s.team
    let size := 2 ^ o.g.toNat
    produceLanes s o.d (activeLanes t o.k) fun l =>
      let src := f l (l % size) size (shAmount t o.b)
      vget t (if t.lanes ≤ src then l else src) o.a.r

def execShfliUp (o : ShfliOps) (s : State) :=
  shfliWith (.shfliUp o) o (fun l off _ m => if m ≤ off then l - m else l) s
def execShfliDown (o : ShfliOps) (s : State) :=
  shfliWith (.shfliDown o) o (fun l off size m => if off + m < size then l + m else l) s
def execShfliXor (o : ShfliOps) (s : State) :=
  shfliWith (.shfliXor o) o (fun l off size m => l - off + (off ^^^ (m % size))) s
def execShfliBcast (o : ShfliOps) (s : State) :=
  shfliWith (.shfliBcast o) o (fun l off size m => l - off + m % size) s

/-! ### Reductions (R233, R234) -/

/-- Width of a reduction's elements. -/
def redWidth : RedFn → Nat
  | .add es _ | .min es | .max es | .minn es | .maxn es | .and es | .or es | .xor es => es.bits
  | .fadd f | .fmin f | .fmax f => fWidth f

/-- p2, p3, … of R234 from p1. -/
def sumFrom (f : FpFmt) (m : FMode) (p : Nat) (xs : List Nat) : Nat :=
  xs.foldl (fun p x => addVal f m (fpValue f false p) (fpValue f m.daz x)) p

/-- A floating sum of at least one contribution (R134, R234). -/
def fpSum (f : FpFmt) (m : FMode) (xs : List Nat) : Nat :=
  match firstNan f xs with
  | some n => n
  | none =>
    if xs.any (fun x => fpMag f x == f.infPat && !fpNeg f x && f.hasInf) &&
        xs.any (fun x => fpMag f x == f.infPat && fpNeg f x && f.hasInf) then f.defaultNan
    else
      match xs with
      | [] => signBit f true
      | [x] => ftzPat f m.ftz (dazPat f m.daz x)
      | x :: rest => sumFrom f m (dazPat f m.daz x) rest

/-- A floating minimum or maximum of at least one contribution. -/
def fpExtreme (f : FpFmt) (m : FMode) (max : Bool) (xs : List Nat) : Nat :=
  match firstNan f xs with
  | some n => n
  | none =>
    match xs with
    | [] => 0
    | x :: rest =>
      let y := rest.foldl (fun a b =>
        let a' := dazPat f m.daz a
        let b' := dazPat f m.daz b
        if valLt true (fpValue f false b') (fpValue f false a') != max then b' else a') (dazPat f m.daz x)
      ftzPat f m.ftz y

/-- The combination over a list of contributions, and its identity for the empty list. -/
def reduce (m : FMode) (fn : RedFn) (xs : List Nat) : Nat :=
  match fn with
  | .add es sat => satOf sat es.bits ((xs.map (toSigned es.bits)).foldl (· + ·) 0)
  | .min es => match xs with
    | [] => 2 ^ (es.bits - 1) - 1
    | x :: rest => rest.foldl (minElem es.bits) x
  | .max es => match xs with
    | [] => 2 ^ (es.bits - 1)
    | x :: rest => rest.foldl (maxElem es.bits) x
  | .minn es => xs.foldl min (2 ^ es.bits - 1)
  | .maxn _ => xs.foldl max 0
  | .and es => xs.foldl (· &&& ·) (2 ^ es.bits - 1)
  | .or _ => xs.foldl (· ||| ·) 0
  | .xor _ => xs.foldl (· ^^^ ·) 0
  | .fadd f => if xs.isEmpty then signBit (fpOf f) true else fpSum (fpOf f) m xs
  | .fmin f => if xs.isEmpty then infOf (fpOf f) false else fpExtreme (fpOf f) m false xs
  | .fmax f => if xs.isEmpty then infOf (fpOf f) true else fpExtreme (fpOf f) m true xs

/-- The results for every position i over the lanes of a list. -/
def reduceLanes (t : Team) (fn : RedFn) (a : VA) (lanes : List Nat) : Word :=
  let w := redWidth fn
  let rows := lanes.map fun l => aVal t w a l
  packElems w ((List.range (64 / w)).map fun i => reduce (fmode t) fn (rows.map fun x => elem w x i))

def execVred (fn : RedFn) (d : VReg) (k : KReg) (a : VA) (scal : Bool) (s : State) : Host.Outcome State Fault Refusal :=
  issue (.vred fn d k a scal) s fun s =>
    let t := s.team
    let lanes := activeLanes t k
    let r := reduceLanes t fn a lanes
    if scal then
      retireWith s fun t => produce t (.scal (d.setWidth 6)) (.values [(0, if lanes.isEmpty then 0 else r)]) false
    else produceLanes s d lanes fun _ => r

def execScan (fn : RedFn) (d : VReg) (k : KReg) (a : VA) (excl : Bool) (s : State) : Host.Outcome State Fault Refusal :=
  issue (.scan fn d k a excl) s fun s =>
    let t := s.team
    let lanes := activeLanes t k
    produceLanes s d lanes fun l =>
      reduceLanes t fn a (lanes.filter fun j => if excl then decide (j < l) else decide (j ≤ l))

/-! ### MATCH, BALLOT, VANY, VALL (R235, R236) -/

/-- The named sub-element of a lane. -/
def elemKey (t : Team) (o : ElemOps) (l : Nat) : Nat := elem o.es.bits (vget t l o.a.r) o.idx.toNat

def execMtch (d : VReg) (o : ElemOps) (s : State) : Host.Outcome State Fault Refusal :=
  issue (.mtch d o) s fun s =>
    let t := s.team
    let lanes := activeLanes t o.k
    produceLanes s d lanes fun l =>
      let e := lanes.filter fun j => elemKey t o j == elemKey t o l
      BitVec.ofNat 64 (e.headD 0 + e.length * 2 ^ 16 + (e.filter fun j => decide (j < l)).length * 2 ^ 32)

/-- A mask from a list of lanes. -/
def maskOf (lanes : List Nat) : Mask := lanes.foldl (fun m l => m ||| BitVec.ofNat 1024 (2 ^ l)) 0

def execBallot (d : KReg) (o : ElemOps) (s : State) : Host.Outcome State Fault Refusal :=
  issue (.ballot d o) s fun s =>
    retireWith s fun t =>
      let lanes := activeLanes t o.k
      if lanes.isEmpty then t else kset t d (maskOf (lanes.filter fun l => elemKey t o l != 0))

/-- VANY and VALL write t and set Z from it. -/
def writeTest (s : State) (d : SReg) (b : Bool) : Eff :=
  retireWith s fun t => setZ (sset t d (if b then 1 else 0)) (!b)

def execVany (d : SReg) (o : ElemOps) (s : State) : Host.Outcome State Fault Refusal :=
  issue (.vany d o) s fun s =>
    writeTest s d ((activeLanes s.team o.k).any fun l => elemKey s.team o l != 0)
def execVall (d : SReg) (o : ElemOps) (s : State) : Host.Outcome State Fault Refusal :=
  issue (.vall d o) s fun s =>
    writeTest s d ((activeLanes s.team o.k).all fun l => elemKey s.team o l != 0)

/-! ### KMOV (R237) -/

/-- Lane word q of a mask; the summary word (R22, R23). -/
def laneWord (m : Mask) (q : Nat) : Nat := m.toNat / 2 ^ (32 * q) % 2 ^ 32
def summary (m : Mask) : Nat :=
  (List.range 32).foldl (fun acc q => if laneWord m q = 0 then acc else acc + 2 ^ q) 0

def setLaneWord (m : Mask) (q v : Nat) : Mask :=
  BitVec.ofNat 1024 (m.toNat - laneWord m q * 2 ^ (32 * q) + v % 2 ^ 32 * 2 ^ (32 * q))

def execKmov (d a : KReg) (s : State) : Host.Outcome State Fault Refusal :=
  issue (.kmov d a) s fun s => retireWith s fun t => kset t d (kget t a)
def execKmovToScalar (d : SReg) (a : KReg) (q : BitVec 5) (s : State) : Host.Outcome State Fault Refusal :=
  issue (.kmovToScalar d a q) s fun s =>
    retireScalar s d (BitVec.ofNat 64 (laneWord (kget s.team a) q.toNat))
def execKmovSum (d : SReg) (a : KReg) (s : State) : Host.Outcome State Fault Refusal :=
  issue (.kmovSum d a) s fun s => retireScalar s d (BitVec.ofNat 64 (summary (kget s.team a)))
def execKmovFromScalar (d : KReg) (a : SSrc) (q : BitVec 5) (s : State) : Host.Outcome State Fault Refusal :=
  issue (.kmovFromScalar d a q) s fun s =>
    retireWith s fun t => kset t d (setLaneWord (kget t d) q.toNat (sget t a.r).toNat)

/-! ### Mask operations (R238) -/

def maskBin (i : Instr) (d a b : KReg) (f : Mask → Mask → Mask) (s : State) : Host.Outcome State Fault Refusal :=
  issue i s fun s => retireWith s fun t => kset t d (f (kget t a) (kget t b))

def execKand (d a b : KReg) (s : State) := maskBin (.kand d a b) d a b (fun x y => x &&& y) s
def execKor (d a b : KReg) (s : State) := maskBin (.kor d a b) d a b (fun x y => x ||| y) s
def execKxor (d a b : KReg) (s : State) := maskBin (.kxor d a b) d a b (fun x y => x ^^^ y) s
def execKandn (d a b : KReg) (s : State) := maskBin (.kandn d a b) d a b (fun x y => x &&& ~~~y) s
def execKnot (d a : KReg) (s : State) : Host.Outcome State Fault Refusal :=
  issue (.knot d a) s fun s => retireWith s fun t => kset t d (~~~(kget t a))
def execKset (d : KReg) (a : SSrc) (s : State) : Host.Outcome State Fault Refusal :=
  issue (.kset d a) s fun s => retireWith s fun t => kset t d (laneMask (min (sget t a.r).toNat t.lanes))
def execKpop (d : SReg) (a : KReg) (s : State) : Host.Outcome State Fault Refusal :=
  issue (.kpop d a) s fun s =>
    retireScalar s d (BitVec.ofNat 64 (popNat s.team.lanes (kget s.team a).toNat))

end Sys2Proof.Machine
end

