-- ==== Sys2Proof/Machine/Planes.lean ====
section
/-! DEFINITION. The matrix array's arithmetic: format blocks (spec/12 R268), planes as expanded (R136, R269, R272), the
accumulator tiles (R266), and one K-step (R137, R138, R272). -/

namespace Sys2Proof.Machine

/-! ### Format blocks (R268) -/

structure FmtBlock where
  a : Fmt
  b : Fmt
  sblA : Nat
  sblB : Nat
  bfA : Bool
  bfB : Bool
  apitch : Int
  astep : Int
  bstep : Int
  ascale : Nat
  bscale : Nat
  asstep : Int
  bsstep : Int
  deriving DecidableEq, Repr

/-- The element formats a matrix loop takes. -/
def matFmt (c : Nat) : Option Fmt :=
  match c with
  | 0 => some .i8
  | 8 => some .dm8
  | 9 => some .e4m3
  | 10 => some .e5m2
  | 12 => some .fp16
  | 13 => some .bf16
  | _ => none

/-- A format block's fields, or none where it breaks a constraint. With INT8, SBL and SFMT are ignored. DEDUCED, log 34. -/
def parseFmtBlock (bs : List Byte) : Option FmtBlock :=
  match matFmt (natAt bs 0 1), matFmt (natAt bs 1 1) with
  | some a, some b =>
    let int := a == .i8
    let sbl := natAt bs 2 1
    let sf := natAt bs 3 1
    let scalesOk := int || (decide (sbl % 4 < 3) && decide (sbl / 4 % 4 < 3) && sbl / 16 == 0 && decide (sf < 4))
    if a.bits == b.bits && (b == .i8) == int && natAt bs 4 1 == (if int then 1 else 0) && zeroBytes bs 5 8 && scalesOk then
      some { a := a, b := b, sblA := 16 * 2 ^ (sbl % 4), sblB := 16 * 2 ^ (sbl / 4 % 4), bfA := sf % 2 == 1,
             bfB := sf / 2 % 2 == 1, apitch := intAt bs 8, astep := intAt bs 16, bstep := intAt bs 24,
             ascale := natAt bs 32 8, bscale := natAt bs 40 8, asstep := intAt bs 48, bsstep := intAt bs 56 }
    else none
  | _, _ => none

/-- Depth of a K-step (R269). -/
def FmtBlock.kp (f : FmtBlock) : Nat := if f.a.bits = 8 then 128 else 64
def FmtBlock.size (f : FmtBlock) : Nat := f.a.bits / 8
def scaleSize (bf : Bool) : Nat := if bf then 2 else 1
def scaleFmt (bf : Bool) : Fmt := if bf then .bf16 else .e8m0

/-! ### Planes -/

/-- Elements of n bytes as a list indexed from 0, zeros left out: a map in canonical form. -/
def elemMap (n : Nat) (bs : List Byte) : List (Nat × Nat) :=
  (List.range (bs.length / n)).filterMap fun i => let v := natAt bs (i * n) n; if v = 0 then none else some (i, v)

/-- A plane expanded from bytes: its elements and, but for INT8, its scales (R136). -/
def planeOf (f : FmtBlock) (daz : Bool) (mark : Nat) (elems scales : List Byte) : Plane :=
  { zero := false, fmt := f.b, daz := daz, sbl := f.sblB, bf16Scale := f.bfB, codes := elemMap f.size elems,
    scales := elemMap (scaleSize f.bfB) scales, mark := mark }

/-- An element that the manual leaves unspecified, of some XE value: its sign, its T and its E (R135). -/
def freeXe (mark i : Nat) : FVal :=
  let c := Config.planeCode mark i
  let neg := c % 2 == 1
  let t := c / 2 % 2 ^ 10
  let e := c / 2 ^ 11 % 2 ^ 10
  if e = 0 then .fin neg 0 1
  else if e = 1023 then if t = 0 then .inf neg else .nan neg
  else .fin neg ((2 ^ 10 + t) * 2 ^ (e - 521)) (2 ^ (521 - e))

/-- Element (k, n) of a plane as the multiplier reads it: rows that its format does not have are unspecified. -/
def planeXe (p : Plane) (k n : Nat) : FVal :=
  let i := k * 128 + n
  if p.zero then .fin false 0 1
  else if p.openPlane || p.fmt == .i8 || (p.fmt.bits == 16 && decide (64 ≤ k)) then freeXe p.mark i
  else
    expandXe (fmtValue p.fmt p.daz (mapGet 0 p.codes i))
      (fmtValue (scaleFmt p.bf16Scale) p.daz (mapGet 0 p.scales (k / p.sbl * 128 + n)))

/-- Element (k, n) of a plane as an 8-bit integer. -/
def planeInt (p : Plane) (k n : Nat) : Nat :=
  let i := k * 128 + n
  if p.zero then 0
  else if p.openPlane || p.fmt != .i8 then Config.planeCode p.mark i % 256
  else mapGet 0 p.codes i

/-! ### Tiles -/

def tileOf (c : CoreState) (tile : Bool) : List (Nat × BitVec 32) := if tile then c.acc1 else c.acc0
def tileInt (c : CoreState) (tile : Bool) : Bool := if tile then c.int1 else c.int0
def setTile (c : CoreState) (tile : Bool) (m : List (Nat × BitVec 32)) : CoreState :=
  if tile then { c with acc1 := m } else { c with acc0 := m }
def setTileInt (c : CoreState) (tile int : Bool) : CoreState :=
  if tile then { c with int1 := int } else { c with int0 := int }

/-- The 128 words of a tile row. -/
def tileRow (m : List (Nat × BitVec 32)) (row : Nat) : List Nat :=
  (List.range 128).map fun n => (mapGet 0 m (row * 128 + n)).toNat

/-- Rows [row0, row0 + rows.length) of a tile replaced. -/
def setRows (m : List (Nat × BitVec 32)) (row0 : Nat) (rows : List (List Nat)) : List (Nat × BitVec 32) :=
  let lo := row0 * 128
  let hi := (row0 + rows.length) * 128
  m.filter (fun x => x.1 < lo) ++
    ((List.range rows.length).flatMap fun r =>
      (List.range 128).filterMap fun n =>
        let v := BitVec.ofNat 32 ((rows.getD r []).getD n 0)
        if v = 0 then none else some ((row0 + r) * 128 + n, v)) ++
    m.filter fun x => hi ≤ x.1

/-- Rows set to zero: the word 0 is +0 and the integer 0. -/
def clearRows (m : List (Nat × BitVec 32)) (row0 n : Nat) : List (Nat × BitVec 32) :=
  m.filter fun x => x.1 < row0 * 128 || (row0 + n) * 128 ≤ x.1

/-! ### One K-step (R272) -/

/-- A row of A in one K-step: its element codes and its scale codes. -/
structure ARow where
  codes : List Nat
  scales : List Nat
  deriving DecidableEq, Repr

/-- The A elements of a row as XE values; `f` gives A's fields. -/
def aXe (f : FmtBlock) (daz : Bool) (r : ARow) : List FVal :=
  (List.range f.kp).map fun k =>
    expandXe (fmtValue f.a daz (r.codes.getD k 0)) (fmtValue (scaleFmt f.bfA) daz (r.scales.getD (k / f.sblA) 0))

/-- The 128 words of a row after the step. DAZ acts on the accumulator before the first group only (R137). -/
def stepRow (f : FmtBlock) (m : FMode) (first : Bool) (p : Plane) (old : List Nat) (r : ARow) : List Nat :=
  if f.a == .i8 then
    (List.range 128).map fun n => matInt (old.getD n 0) r.codes ((List.range f.kp).map fun k => planeInt p k n)
  else
    let as := aXe f m.daz r
    (List.range 128).map fun n =>
      matFloat { m with daz := m.daz && first } (old.getD n 0) as ((List.range f.kp).map fun k => planeXe p k n)

/-- The tile after the step over rows row0 upward. -/
def stepTile (f : FmtBlock) (m : FMode) (first : Bool) (p : Plane) (row0 : Nat) (rows : List ARow)
    (t : List (Nat × BitVec 32)) : List (Nat × BitVec 32) :=
  setRows t row0 ((List.range rows.length).map fun i =>
    stepRow f m first p (tileRow t (row0 + i)) (rows.getD i ⟨[], []⟩))

end Sys2Proof.Machine
end

