-- ==== Sys2Proof/Machine/Engine.lean ====
section
/-! DEFINITION. The units of an engine operation (spec/12 R270-R283, spec/26 R434): what each reads, writes and changes, and
how many there are. -/

namespace Sys2Proof.Machine

/-! ### Accesses of an engine -/

/-- Why a unit cannot be performed. -/
inductive UnitStop where
  /-- A fault on a data address (R434): the cause, the address, a write. -/
  | fault (cause : Byte) (va : Word) (wr : Bool)
  /-- An engine access outside the block's ranges in an ordered launch (R437). -/
  | range (va : Word)
  /-- The unit waits: for a halted die, a link, or another party. -/
  | hold
  /-- It reads a lower block's range before that block is complete (R374). -/
  | lower
  /-- A descriptor error found on the way: splitters out of order (R282), members that do not match (R283, R436). -/
  | bad
  deriving DecidableEq, Repr

abbrev EngM (α : Type) := Except UnitStop α

/-- The operation belongs to an ordered launch. -/
def engOrdered (s : State) (o : EngOp) : Bool :=
  o.command.isNone && (levelOfLaunch s o.part o.launch).any fun l => l.kd.ordered

/-- A location of each 4 KiB granule that [loc, loc + n) has bytes in. -/
def granuleStarts (loc n : Nat) : List Nat :=
  if n = 0 then [] else (List.range ((loc + n - 1) / 4096 + 1 - loc / 4096)).map fun i => max loc ((loc / 4096 + i) * 4096)

/-- A copy sends its traffic with the twin over the bridge (R280). -/
def overBridge (s : State) (o : EngOp) (loc : Nat) : Bool :=
  match o.work with
  | .cpy _ _ _ path _ => path == 1
  | _ => straddleOwn s o.who loc

/-- Some 4 KiB granule of a piece is held at a halted die or on its way (R357, R452). -/
def pieceHeld (s : State) (o : EngOp) (x : Nat × Nat) : Bool :=
  (s.pkstat.halted != 0 || !(heldLinks s).isEmpty) &&
    (granuleStarts x.1 x.2).any fun l => heldByHalt s l || heldOnWay s o.place.die.toNat (overBridge s o l) l

/-- Some granule of a party's pieces is held. -/
def spanHeld (s : State) (w : Who) (acc : Access) (ps : List (Nat × Nat)) : Bool :=
  ps.any fun x => (granuleStarts x.1 x.2).any (heldAccess s w acc)

/-- The team that issued an operation, resident or saved: its block and private region bound the operation. -/
def opTeam (s : State) (o : EngOp) : Team :=
  ((teamsOf s ++ s.preempted.flatMap (·.teams)).find? fun t =>
    t.place == o.place && t.launch == o.launch && t.part == o.part).getD
    { place := o.place, part := o.part, asid := o.asid, launch := o.launch, blk := o.blk }

/-- R373 and R374 on the pieces of an engine access. -/
def ordSpan (s : State) (t : Team) (acc : Access) : Word → List (Nat × Nat) → EngM Unit
  | _, [] => .ok ()
  | va, (loc, n) :: rest =>
    match ordAccess s t va n acc loc with
    | .fault _ => .error (.range va)
    | .hold _ => .error .lower
    | .ok _ => ordSpan s t acc (va + BitVec.ofNat 64 n) rest

/-- The pieces of an engine's access, checked. -/
def engLocate (s : State) (o : EngOp) (acc : Access) (va : Word) (n : Nat) : EngM (List (Nat × Nat)) :=
  match locateSpan s o.who acc va n with
  | .error (c, a) => .error (.fault c a (acc == .wr))
  | .ok ps =>
    if ps.any (pieceHeld s o) || (acc == .rd && piecesLost s ps) then .error .hold
    else if engOrdered s o then (ordSpan s (opTeam s o) acc va ps).map fun _ => ps
    else .ok ps

/-- The bytes at pieces: in the view of the issuing core (R98), or as the last quantum end left them (R375). -/
def engBytes (s : State) (o : EngOp) (ps : List (Nat × Nat)) : List Byte :=
  if engOrdered s o then ps.flatMap fun x => bytesBy (viewByte s o.part o.launch) x.1 x.2
  else ps.flatMap fun x => coreBytes s o.part (placeKey o.place) x.1 x.2

/-- An engine read: its bytes and pieces. Poison is a fault (R445). -/
def engRead (s : State) (o : EngOp) (va : Word) (n : Nat) : EngM (List Byte × List (Nat × Nat)) := do
  let ps ← engLocate s o .rd va n
  if ps.any fun x => poisonedIn s x.1 x.2 then .error (.fault 0x50 va false) else .ok (engBytes s o ps, ps)

/-- The bytes of a write, cut into its pieces. -/
def cutBytes : List (Nat × Nat) → List Byte → List (Nat × List Byte)
  | [], _ => []
  | (loc, n) :: rest, bs => (loc, bs.take n) :: cutBytes rest (bs.drop n)

/-- An engine write: locations and bytes. -/
def engWrite (s : State) (o : EngOp) (va : Word) (bs : List Byte) : EngM (List (Nat × List Byte)) := do
  let ps ← engLocate s o .wr va bs.length
  .ok (cutBytes ps bs)

/-! ### Units -/

/-- What a unit does. -/
structure UnitDone where
  writes : List (Nat × List Byte) := []
  reads : List (Nat × Nat) := []
  buckets : Option (List Nat) := none
  core : Option CoreState := none
  deriving DecidableEq, Repr

/-- A base plus a signed multiple, as an address. -/
def addrPlus (base : Nat) (d : Int) : Word := BitVec.ofInt 64 ((base : Int) + d)

/-- One contiguous copy. -/
def copyUnit (s : State) (o : EngOp) (src dst : Word) (n : Nat) : EngM UnitDone := do
  let (bs, ps) ← engRead s o src n
  let ws ← engWrite s o dst bs
  .ok { writes := ws, reads := ps }

/-- The two offsets of run u: dimension 0 is innermost (R280). -/
def runOffsets : List (Nat × Int × Int) → Nat → Int × Int
  | [], _ => (0, 0)
  | (c, ss, ds) :: rest, u =>
    let (a, b) := runOffsets rest (u / c)
    (((u % c : Nat) : Int) * ss + a, ((u % c : Nat) : Int) * ds + b)

def cpyRuns (dims : List (Nat × Int × Int)) : Nat := (dims.map (·.1)).foldl (· * ·) 1

/-- One row of a GATH (R281). -/
def gathUnit (s : State) (o : EngOp) (scatter : Bool) (rowb src dst idx : Nat) (sp dp : Int) (u : Nat) :
    EngM UnitDone := do
  let (ib, ips) ← engRead s o (BitVec.ofNat 64 (idx + 4 * u)) 4
  let i := natAt ib 0 4
  if i = 0xFFFFFFFF then .ok { reads := ips }
  else
    let (a, b) := if scatter then (u, i) else (i, u)
    let d ← copyUnit s o (addrPlus src ((a : Int) * sp)) (addrPlus dst ((b : Int) * dp)) rowb
    .ok { d with reads := ips ++ d.reads }

/-! ### SORTC (R282, R434) -/

/-- The bucket of a key: nb stands for out of range. -/
def bucketOf (splitters : Bool) (nb : Nat) (sp : List Nat) (x : Nat) : Nat :=
  if splitters then (sp.filter fun y => y ≤ x).length else min x nb

/-- Number of splitters. -/
def sortcSplits (splitters : Bool) (nb : Nat) : Nat := if splitters then nb - 1 else 0

/-- The output arrays given, in their order: (0 COUNTS, 1 OFFS, 2 PERM; base; words). -/
def sortcArrays (n nb counts offs perm : Nat) : List (Nat × Nat × Nat) :=
  [(0, counts, nb), (1, offs, nb), (2, perm, n)].filter fun x => x.2.1 != 0

/-- The array and the word of output unit u. -/
def sortcWord : List (Nat × Nat × Nat) → Nat → Option (Nat × Nat × Nat)
  | [], _ => none
  | (a, base, n) :: rest, u => if u < n then some (a, base, u) else sortcWord rest (u - n)

/-- Indices of the keys in order of bucket, then of index. -/
def permOf (nb : Nat) (bs : List Nat) : List Nat :=
  (List.range nb).flatMap fun e => (List.range bs.length).filter fun i => bs.getD i nb == e

/-- The word of an output array. -/
def sortcValue (nb : Nat) (bs : List Nat) (a i : Nat) : Nat :=
  match a with
  | 0 => bs.count i
  | 1 => (bs.filter fun b => b < i).length
  | _ => (permOf nb bs).getD i 0xFFFFFFFF

def sortcUnit (s : State) (o : EngOp) (kw : Nat) (splitters : Bool) (n nb keys split counts offs perm u : Nat) :
    EngM UnitDone :=
  let ns := sortcSplits splitters nb
  if u < ns then do
    let (bs, ps) ← engRead s o (BitVec.ofNat 64 (split + kw * u)) kw
    let v := natAt bs 0 kw
    if o.buckets.any fun x => v < x then .error .bad else .ok { reads := ps, buckets := some (o.buckets ++ [v]) }
  else if u < ns + n then do
    let (bs, ps) ← engRead s o (BitVec.ofNat 64 (keys + kw * (u - ns))) kw
    .ok { reads := ps, buckets := some (o.buckets ++ [bucketOf splitters nb (o.buckets.take ns) (natAt bs 0 kw)]) }
  else
    match sortcWord (sortcArrays n nb counts offs perm) (u - ns - n) with
    | none => .ok {}
    | some (a, base, i) => do
      let v := sortcValue nb (o.buckets.drop ns) a i
      let ws ← engWrite s o (BitVec.ofNat 64 (base + 4 * i)) (bytesOfNat 4 v)
      .ok { writes := ws }

/-! ### COLL (R283) -/

/-- The combination over participants. -/
def collFn (dtype : Fmt) (rop : Nat) : RedFn :=
  let int := fun e : Width => match rop with
    | 0 => RedFn.add e false
    | 1 => .min e
    | _ => .max e
  let fp := fun f : FFmt => match rop with
    | 0 => RedFn.fadd f
    | 1 => .fmin f
    | _ => .fmax f
  match dtype with
  | .i32 => int .w
  | .i64 => int .d
  | .bf16 => fp .bf16
  | .fp32 => fp .f32
  | _ => fp .f64

/-- Elements that one party goes through. -/
def collUnits (op np count : Nat) : Nat := if 2 ≤ op then np * count else count

/-- Participant j contributes to element e: the index in its SRC, if it does. -/
def collReads (op root np count j e : Nat) : Option Nat :=
  match op with
  | 0 => some e
  | 1 => if j = root then some e else none
  | 2 => if j = e / count then some (e % count) else none
  | _ => if j < np then some e else none

/-- The index in its DST that participant j receives at element e, if it does. -/
def collWrites (op root count j e : Nat) : Option Nat :=
  match op with
  | 0 => if j = root then some e else none
  | 1 | 2 => some e
  | _ => if j = e / count then some (e % count) else none

/-- The value of an element from the contributions in participant order. -/
def collValue (m : FMode) (op : Nat) (dtype : Fmt) (rop : Nat) (xs : List Nat) : Nat :=
  match op with
  | 1 | 2 => xs.headD 0
  | _ => reduce m (collFn dtype rop) xs

/-- The party of die set `set` on die d: its oldest operation with the tag that is not done with. -/
def collParty (s : State) (p : BitVec 4) (set tag d : Nat) : Option EngOp :=
  s.engines.find? fun e =>
    e.part == p && e.place.die.toNat == d &&
      (match e.work with
        | .coll _ _ _ false _ _ _ st tg _ _ _ => st == set && tg == tag
        | _ => false) &&
      match e.state with
      | .running | .leave | .paused _ _ _ _ => e.started
      | _ => false

/-- Ascending set bits below 16. -/
def bitsOf (set : Nat) : List Nat := (List.range 16).filter fun i => set / 2 ^ i % 2 == 1

/-- Every party of a die set, in participant order, once all have issued and none waits for leave, is paused, or stands on a halted
die (R453). -/
def collParties (s : State) (o : EngOp) (set tag : Nat) : Option (List EngOp) :=
  let ps := (bitsOf set).map fun d => collParty s o.part set tag d
  if ps.all fun x => x.any fun e => e.state == .running && !s.diehalt.getLsbD e.place.die.toNat then some (ps.filterMap id) else none

/-- What the parties must agree on. -/
def collKey (o : EngOp) : Option (Nat × Fmt × Nat × Nat × Nat) :=
  match o.work with
  | .coll op dt rop _ _ _ root _ _ count _ _ => some (op, dt, rop, count, root)
  | _ => none

/-- SRC and DST of a party. -/
def collBases (o : EngOp) : Nat × Nat :=
  match o.work with
  | .coll _ _ _ _ _ _ _ _ _ _ src dst => (src, dst)
  | _ => (0, 0)

/-- The contribution of participant j to element e, read by its operation. -/
def collRead (s : State) (o : EngOp) (op sz root np count j e : Nat) : EngM (List Nat × List (Nat × Nat)) :=
  match collReads op root np count j e with
  | none => .ok ([], [])
  | some i => do
    let (bs, ps) ← engRead s o (BitVec.ofNat 64 ((collBases o).1 + i * sz)) sz
    .ok ([natAt bs 0 sz], ps)

/-- What participant j writes of element e. -/
def collWrite (s : State) (o : EngOp) (op sz root count j e v : Nat) : EngM (List (Nat × List Byte)) :=
  match collWrites op root count j e with
  | none => .ok []
  | some i => engWrite s o (BitVec.ofNat 64 ((collBases o).2 + i * sz)) (bytesOfNat sz v)

/-- One element of a collective over a peer set: what a peer contributes comes from outside the package, and so does MODE,
since this part's index is the highest. DESIGN CHOICE, log 13. -/
def peerUnit (s : State) (o : EngOp) (op : Nat) (dt : Fmt) (rop me np root set count e : Nat) : EngM UnitDone :=
  let sz := dt.bits / 8
  let links := (bitsOf set).filter fun b => b < 12
  if links.any fun j => s.pkstat.fdown.getLsbD j then .error (.fault 0x12 o.desc false)
  else if links.any fun j => (heldLinks s).contains (linkKey (.folros (BitVec.ofNat 4 j))) then .error .hold
  else if links.any fun j => !Config.peerAgrees j o.id then .error .bad
  else if collUnits op np count ≤ e then .ok {}
  else do
    let (mine, ps) ← collRead s o op sz root np count me e
    let xs := (List.range np).flatMap fun j =>
      if j = me then mine
      else match collReads op root np count j e with
        | some i => [Config.peerElem (links.getD (if j < me then j else j - 1) 0) o.id i % 2 ^ dt.bits]
        | none => []
    let ws ← collWrite s o op sz root count me e (collValue (fmodeOf (Config.peerMode (links.headD 0) o.id)) op dt rop xs)
    .ok { writes := ws, reads := ps }

/-! ### The matrix sequencer's operations -/

/-- One row of A and its scales at a K-step (R269): `aoff` is the group's scale offset. -/
def readARow (s : State) (o : EngOp) (f : FmtBlock) (abase aoff t m : Nat) : EngM (ARow × List (Nat × Nat)) := do
  let (bs, ps) ← engRead s o (addrPlus abase ((t : Int) * f.astep + (m : Int) * f.apitch)) (f.kp * f.size)
  let codes := (List.range f.kp).map fun k => natAt bs (k * f.size) f.size
  if f.a == .i8 then .ok (⟨codes, []⟩, ps)
  else
    let ss := scaleSize f.bfA
    let n := f.kp / f.sblA
    let (sb, sps) ← engRead s o (addrPlus (f.ascale + aoff) ((t : Int) * f.asstep + ((m * n * ss : Nat) : Int))) (n * ss)
    .ok (⟨codes, (List.range n).map fun k => natAt sb (k * ss) ss⟩, ps ++ sps)

/-- The rows of A of a K-step. -/
def readARows (s : State) (o : EngOp) (f : FmtBlock) (abase aoff t : Nat) :
    List Nat → EngM (List ARow × List (Nat × Nat))
  | [] => .ok ([], [])
  | m :: rest => do
    let (r, ps) ← readARow s o f abase aoff t m
    let (rs, qs) ← readARows s o f abase aoff t rest
    .ok (r :: rs, ps ++ qs)

/-- The B plane of a K-step, fetched and expanded. -/
def readPlane (s : State) (o : EngOp) (f : FmtBlock) (bbase boff t : Nat) : EngM (Plane × List (Nat × Nat)) := do
  let (bs, ps) ← engRead s o (addrPlus bbase ((t : Int) * f.bstep)) (f.kp * 128 * f.size)
  if f.b == .i8 then .ok (planeOf f false (2 * s.fresh) bs [], ps)
  else
    let n := f.kp / f.sblB * 128 * scaleSize f.bfB
    let (sb, sps) ← engRead s o (addrPlus (f.bscale + boff) ((t : Int) * f.bsstep)) n
    .ok (planeOf f (fmodeOf o.mode).daz (2 * s.fresh) bs sb, ps ++ sps)

/-- A group of a matrix loop: M, ROW0, KS, A and B bases and scale offsets (R274). -/
structure Group where
  m : Nat
  row0 : Nat
  ks : Nat
  abase : Nat
  bbase : Nat
  aoff : Nat
  boff : Nat
  deriving DecidableEq, Repr

def groupOf (xs : List Nat) : Group :=
  let g := fun i => xs.getD i 0
  ⟨g 0, g 1, g 2, g 3, g 4, g 5, g 6⟩

/-- K-steps that a group takes; one with KS = 0 still applies .Z and the type, and one with M = 0 is skipped. -/
def groupSteps (g : Group) : Nat := if g.m = 0 then 0 else max 1 g.ks

/-- The group and the K-step of unit u. -/
def stepAt : List (List Nat) → Nat → Option (Group × Nat)
  | [], _ => none
  | x :: rest, u =>
    let g := groupOf x
    if u < groupSteps g then some (g, u) else stepAt rest (u - groupSteps g)

/-- One K-step of one member: `f` is its own format block, `fa` gives A's fields, `rows` A's rows (R272, R273). -/
def loopStep (s : State) (o : EngOp) (tile z keep : Bool) (fa f : FmtBlock) (g : Group) (t : Nat) (rows : List ARow) :
    EngM (CoreState × List (Nat × Nat)) := do
  let c := coreAt s (placeKey o.place)
  let c1 := if t = 0 then setTileInt (if z then setTile c tile (clearRows (tileOf c tile) g.row0 g.m) else c) tile
    (f.a == .i8) else c
  if g.ks = 0 then .ok (c1, [])
  else
    let (p, ps) ← if keep && t == 0 then .ok (c1.live, []) else readPlane s o f g.bbase g.boff t
    let m := fmodeOf o.mode
    let fs : FmtBlock := { f with a := fa.a, sblA := fa.sblA, bfA := fa.bfA }
    .ok ({ setTile c1 tile (stepTile fs m (t == 0) p g.row0 rows (tileOf c1 tile)) with
           live := p, shadow := { zero := false, openPlane := true, mark := 2 * s.fresh + 1 } }, ps)

/-- A matrix operation heads its core's sequencer (R266): nothing issued before it on the core is still to be performed. -/
def pendingMx (o : EngOp) : Bool :=
  o.cls == .mxa && o.started && match o.state with
    | .leave | .running | .paused _ _ _ _ => true
    | _ => false

def headMx (s : State) (k : Nat) : Option EngOp := s.engines.find? fun e => placeKey e.place == k && pendingMx e

/-- MXACC's row of one unit (R275). -/
def mxaccUnit (s : State) (o : EngOp) (tile : Bool) (dst : Nat) (pitch : Int) (rows : Nat) (fmt : Fmt) (clr : Bool)
    (u : Nat) : EngM UnitDone := do
  let c := coreAt s (placeKey o.place)
  let src : Fmt := if tileInt c tile then .i32 else .fp32
  let bs := (tileRow (tileOf c tile) u).flatMap fun w => bytesOfNat (fmt.bits / 8) (cvtElem fmt src (fmodeOf o.mode) w)
  let ws ← engWrite s o (addrPlus dst ((u : Int) * pitch)) bs
  .ok { writes := ws,
        core := if clr && u + 1 == rows then some (setTile c tile (clearRows (tileOf c tile) 0 rows)) else none }

/-! ### Unit counts -/

def unitCount (o : EngOp) : Nat :=
  match o.work with
  | .cpy _ _ _ _ dims => cpyRuns dims
  | .gath _ n _ _ _ _ _ _ => n
  | .sortc _ sp n nb _ _ counts offs perm =>
    sortcSplits sp nb + n + ((sortcArrays n nb counts offs perm).map (·.2.2)).foldl (· + ·) 0
  | .coll op _ _ _ _ np _ _ _ count _ _ => collUnits op np count
  | .mxls _ _ | .mxswap => 1
  | .mxloop _ _ _ _ _ gs _ => (gs.map fun x => groupSteps (groupOf x)).foldl (· + ·) 0
  | .mxacc _ _ _ rows _ _ => rows

/-- PROGRESS at the unit (R434). -/
def progressWord (o : EngOp) : Nat :=
  match o.work with
  | .sortc _ sp n nb _ _ counts offs perm =>
    let ns := sortcSplits sp nb
    if o.unit < ns then 2 ^ 62 + o.unit
    else if o.unit < ns + n then o.unit - ns
    else
      match sortcWord (sortcArrays n nb counts offs perm) (o.unit - ns - n) with
      | some (a, _, i) => 2 ^ 63 + a * 2 ^ 61 + i
      | none => 0
  | _ => o.unit

/-- Where the PROGRESS word lies in the descriptor; matrix operations have none. -/
def progressOff (o : EngOp) : Option Nat :=
  match o.work with
  | .cpy _ _ _ _ _ => some 32
  | .gath _ _ _ _ _ _ _ _ | .sortc _ _ _ _ _ _ _ _ _ => some 56
  | .coll _ _ _ _ _ _ _ _ _ _ _ _ => some 40
  | _ => none

end Sys2Proof.Machine
end

