-- ==== Sys2Proof/Machine/Points.lean ====
section
/-! DEFINITION. The deciders of the islands' operating points (spec/17 R338, R341, R342, R346, R347), and the times of the islands'
work. -/

namespace Sys2Proof.Machine

/-- Points of an island in their order: a lane group has NT and VF0 to VF5, the array VF0 to VF5; a die at TTRIP may choose only NT
or VF0 (R455). -/
def pointOptions (s : State) (k island : Nat) : List Nat :=
  let all := if island = 4 then [1, 2, 3, 4, 5, 6] else [0, 1, 2, 3, 4, 5, 6]
  if s.pkstat.trip.getLsbD (k / 64) then all.filter fun x => decide (x ≤ 1) else all

/-- The cost-page entry of a point (R347). -/
def pointEntry (island point : Nat) : Nat := if island = 4 then 15 + point else 9 + point

/-- u of a point choice, in units of 2^-16, never less than 1/16. -/
def usageOf (s : State) (k island : Nat) : Nat := max 4096 (Config.usage k (island / 4) s.time)

/-- The lowest effective rate among the teams resident on the core. -/
def lowestRate (s : State) (k : Nat) : Nat :=
  match (teamsOn s k).map fun t => effRate s t s.rate.toNat t.rateo with
  | [] => 0
  | e :: rest => rest.foldl min e

/-- The cost of a point now. -/
def pointCost (s : State) (k island point : Nat) : Nat × Nat :=
  priced (pointEntry island point) (usageOf s k island) 65536 (lowestRate s k)

/-- The cheapest of a list of points, ties to the one listed first. -/
def cheapest (cost : Nat → Nat × Nat) : List Nat → Option Nat
  | [] => none
  | x :: rest =>
    match cheapest cost rest with
    | none => some x
    | some y => if fracLt (cost y) (cost x) then some y else some x

/-- The point that a decider without a current one takes: NT only while u is below 1/8. -/
def bestPoint (s : State) (k island : Nat) : Nat :=
  let xs := pointOptions s k island
  (cheapest (pointCost s k island) (if usageOf s k island < 8192 then xs else xs.filter fun x => x != 0)).getD 1

/-- The point after an evaluation with a current one: NT is left once u reaches 1/4. -/
def nextPoint (s : State) (k island cur : Nat) : Nat :=
  let b := bestPoint s k island
  let c := pointCost s k island
  if !(pointOptions s k island).contains cur || (cur = 0 && 16384 ≤ usageOf s k island) then b
  else if fracLt (c b) (7 * (c cur).1, 8 * (c cur).2) then b else cur

def pointOf (s : State) (k island : Nat) : Option PointSel := s.points.find? fun x => x.core == k && x.island == island

def putPoint (s : State) (x : PointSel) : State :=
  { s with points := x :: s.points.filter fun y => !(y.core == x.core && y.island == x.island) }

/-- The decider makes a choice: it evaluates if it has no point, or 8 μs after its last evaluation. -/
def choosePoint (s : State) (k island : Nat) : State :=
  match pointOf s k island with
  | none => putPoint s ⟨k, island, bestPoint s k island, s.time⟩
  | some x => if s.time < x.since + 8000 then s else putPoint s ⟨k, island, nextPoint s k island x.point, s.time⟩

/-- Work on islands of a core. The hall die has none. -/
def noteUse (s : State) (k : Nat) (islands : List Nat) : State :=
  if 512 ≤ k || islands.isEmpty then s
  else
    let s1 := islands.foldl (fun s i => choosePoint s k i) s
    let c := coreAt s1 k
    setCore s1 k { c with lastUse := islands.foldl (fun m i => mapSet 0 m i s.time) c.lastUse }

/-- The point of an island that has not left it: NT for a lane group, VF0 for the array, which has no NT (R14). DESIGN CHOICE,
log 3. -/
def firstPoint (island : Nat) : Nat := if island = 4 then 1 else 0

/-- The point at which an island of a core runs. -/
def CoreState.pointAt (c : CoreState) (island : Nat) : Nat := mapGet (firstPoint island) c.points island

/-- The point that an island's decider has chosen and the island does not run at yet. -/
def pointDue (s : State) (x : PointSel) : Bool := (coreAt s x.core).pointAt x.island != x.point

end Sys2Proof.Machine
end

