-- ==== Sys2Proof/Machine/EngineRun.lean ====
section
/-! DEFINITION. How engine operations run: their leave (spec/17 R344), their units one after another, pausing (spec/26
R434-R437), the counting of landed bytes and retirement (spec/05 R98, R99; spec/04 R81). -/

namespace Sys2Proof.Machine

def opAt (s : State) (id : Nat) : Option EngOp := s.engines.find? fun e => e.id == id

/-- The operation replaced by another with its number. -/
def putOp (s : State) (o : EngOp) : State :=
  { s with engines := s.engines.map fun e => if e.id = o.id then o else e }

/-! ### Leave and islands (R344, R346) -/

/-- The cost-page entry of an operation (R340). -/
def workEntry : EngWork → Nat
  | .cpy _ _ _ path _ => if path = 1 then 4 else 5
  | .coll _ _ _ _ _ _ _ _ _ _ _ _ => 22
  | .sortc _ _ _ _ _ _ _ _ _ => 23
  | _ => 0

/-- The CURRENT, in units of 10^-4 A, of a request for leave (R340, R344). -/
def leaveCurrent (s : State) : LeaveReq → Nat
  | .wake _ i => (costEntry (if i = 4 then 25 else 24)).2.2
  | .mma _ _ => (costEntry 0).2.2
  | .op id =>
    match opAt s id with
    | some o => (costEntry (workEntry o.work)).2.2
    | none => 0

/-- The operation asks leave before it begins. -/
def needsLeave (w : EngWork) (die : Nat) : Bool :=
  decide (die < 8) &&
    match w with
    | .cpy run _ _ _ dims => decide (65536 < run * cpyRuns dims)
    | .sortc _ _ _ _ _ _ _ _ _ | .coll _ _ _ _ _ _ _ _ _ _ _ _ | .mxloop _ _ _ _ _ _ _ => true
    | _ => false

/-- An island that has run no work for 2 μs, and that nothing holds up: the loop that holds the array, or the restoring of its
cluster (R346, R351). -/
def islandIdle (s : State) (k island : Nat) : Bool :=
  decide (mapGet 0 (coreAt s k).lastUse island + 2000 ≤ s.time) && !(island == 4 && arrayHeld s k) &&
    (gateOf s (clusterOf (k / 64) (k % 64))).st != 5

/-- The island is powered: one that has been idle for 2 μs is down from that moment on. Island 4 is the matrix array. -/
def islandUp (s : State) (k island : Nat) : Bool := (coreAt s k).powered.getLsbD island && !islandIdle s k island

/-- A wake of an island is asked for, unless it is under way. -/
def wakeIsland (s : State) (k island : Nat) : State :=
  let c := coreAt s k
  let b := BitVec.ofNat 5 (2 ^ island)
  if islandUp s k island || c.waking.getLsbD island || 512 ≤ k then s
  else
    askLeave (setCore s k { c with powered := c.powered &&& ~~~b, waking := c.waking ||| b }) (k / 64)
      (.wake (BitVec.ofNat 6 (k % 64)) (BitVec.ofNat 3 island))

/-- The lane groups that hold lanes of a mask: eight lanes of each lane-word (R346). -/
def laneGroups (m : Mask) : List Nat :=
  if m = 0 then [] else (List.range 4).filter fun g => (List.range 32).any fun q => (List.range 8).any fun l => m.getLsbD (32 * q + 8 * g + l)

/-- Those of them that are powered down on the team's core. -/
def groupsDown (s : State) (t : Team) (m : Mask) : List Nat :=
  if t.place.die = 8 then [] else (laneGroups m).filter fun g => !islandUp s (placeKey t.place) g

def wakeGroups (s : State) (k : Nat) (gs : List Nat) : State := gs.foldl (fun s g => wakeIsland s k g) s

/-! ### What stands next -/

/-- A collective has nothing left only once all parties agree, also where it has no element (R283). -/
def isColl : EngWork → Bool
  | .coll _ _ _ _ _ _ _ _ _ _ _ _ => true
  | _ => false

/-- An operation that may run: running, or finished where it has no unit. -/
def runState (o : EngOp) : EngState := if unitCount o = 0 && !isColl o.work then .finished else .running

/-- The next unit of an operation that runs alone. -/
def unitAlone (s : State) (o : EngOp) : EngM UnitDone :=
  let k := placeKey o.place
  match o.work with
  | .cpy run src dst _ dims =>
    let (a, b) := runOffsets dims o.unit
    copyUnit s o (addrPlus src a) (addrPlus dst b) run
  | .gath scatter _ rowb src dst idx sp dp => gathUnit s o scatter rowb src dst idx sp dp o.unit
  | .sortc kw sp n nb keys split counts offs perm => sortcUnit s o kw sp n nb keys split counts offs perm o.unit
  | .coll op dt rop _ me np root set _ count _ _ => peerUnit s o op dt rop me np root set count o.unit
  | .mxls base fb =>
    match parseFmtBlock fb with
    | none => .error .bad
    | some f => do
      let (p, ps) ← readPlane s o f base 0 0
      .ok { reads := ps, core := some { coreAt s k with shadow := p } }
  | .mxswap => let c := coreAt s k; .ok { core := some { c with live := c.shadow, shadow := c.live } }
  | .mxloop tile _ _ z keep gs fb =>
    match parseFmtBlock fb, stepAt gs o.unit with
    | some f, some (g, t) => do
      let (rows, ps) ← if g.ks = 0 then .ok ([], []) else readARows s o f g.abase g.aoff t (List.range g.m)
      let (c, qs) ← loopStep s o tile z keep f f g t rows
      .ok { reads := ps ++ qs, core := some c }
    | _, _ => .error .bad
  | .mxacc tile dst pitch rows fmt clr => mxaccUnit s o tile dst pitch rows fmt clr o.unit

/-- The members of a plan that are in error, each with its own; the others neither advance nor fail. -/
abbrev Plan := List (EngOp × EngM UnitDone)

/-! ### Collectives of a die set (R283, R436) -/

/-- Contributions in participant order: a party whose access faults has its own error. -/
def collContribs (s : State) (op sz root np count e : Nat) (ps : List EngOp) :
    List (EngOp × EngM (List Nat × List (Nat × Nat))) :=
  ((List.range ps.length).zip ps).map fun (j, o) => (o, collRead s o op sz root np count j e)

/-- One element of a collective, at every party: all advance or none does. -/
def collPlan (s : State) (o : EngOp) : Plan :=
  match o.work with
  | .coll op dt rop false _ np root set tag count _ _ =>
    match collParties s o set tag with
    | none => []
    | some ps =>
      if ps.any fun x => collKey x != collKey o then ps.map fun x => (x, .error .bad)
      else if collUnits op np count ≤ o.unit then ps.map fun x => (x, .ok {})
      else
        let sz := dt.bits / 8
        let cs := collContribs s op sz root np count o.unit ps
        let xs := cs.flatMap fun x => match x.2 with
          | .ok (v, _) => v
          | .error _ => []
        let m := fmodeOf ((ps.head?.map (·.mode)).getD o.mode)
        let v := collValue m op dt rop xs
        ((List.range cs.length).zip cs).map fun (j, (x, r)) =>
          (x, do
            let (_, reads) ← r
            let ws ← collWrite s x op sz root count j o.unit v
            .ok { writes := ws, reads := reads })
  | _ => []

/-! ### Chains (R273, R436) -/

/-- What stands at the head of a core's sequencer, as a follower of a chain: (tile, Z, KEEP, groups, format block). -/
structure LoopOp where
  op : EngOp
  tile : Bool
  z : Bool
  keep : Bool
  groups : List (List Nat)
  fb : List Byte
  deriving DecidableEq, Repr

def loopOf (o : EngOp) : Option LoopOp :=
  match o.work with
  | .mxloop tile _ _ z keep gs fb => some ⟨o, tile, z, keep, gs, fb⟩
  | _ => none

/-- The follower in position p that has issued on core k. DEDUCED, log 36. -/
def follower (s : State) (o : EngOp) (k p : Nat) : Option LoopOp :=
  (headMx s (k + p)).bind fun e =>
    match e.work with
    | .mxloop _ _ pos _ _ _ _ => if pos = p && e.part = o.part then loopOf e else none
    | _ => none

/-- The chain may include core k + p: it is live, of the leader's partition. -/
def chainCore (s : State) (o : EngOp) (k p : Nat) : Bool :=
  coreLive s (k / 64) (k % 64 + p) && partOfCluster s (clusterOf (k / 64) (k % 64 + p)) = some o.part

/-- KS and M of a loop's only group. -/
def loopShape (x : LoopOp) : Nat × Nat := let g := groupOf (x.groups.headD []); (g.ks, g.m)

/-- The element widths and kinds that one A stream serves. -/
def loopWidth (x : LoopOp) : Option (Nat × Bool) := (parseFmtBlock x.fb).map fun f => (f.a.bits, f.a == .i8)

/-- The two loops of a chain that have issued fit. R273 says of the follower's A fields only that they are ignored; members whose
A elements differ in width or kind do not match: DESIGN CHOICE, log 36. -/
def chainMatches (o : EngOp) (lead x : LoopOp) : Bool :=
  loopShape lead == loopShape x && loopWidth lead == loopWidth x && x.op.launch == o.launch

/-- One K-step of a member, with the rows that the leader has read. -/
def memberStep (s : State) (fa : FmtBlock) (t i : Nat) (rows : List ARow) (ps : List (Nat × Nat)) (x : LoopOp) :
    EngM UnitDone :=
  match parseFmtBlock x.fb with
  | none => .error .bad
  | some f => do
    let (c, qs) ← loopStep { s with fresh := s.fresh + i } x.op x.tile x.z x.keep fa f (groupOf (x.groups.headD [])) t rows
    .ok { reads := ps ++ qs, core := some c }

/-- The leader's step, for every member. A mismatch shows, to each member, once all that can issue have (R436). -/
def chainPlan (s : State) (o : EngOp) (lead : LoopOp) (chain : Nat) : Plan :=
  let k := placeKey o.place
  let ps := (List.range (chain - 1)).map (· + 1)
  let issued := ps.filterMap fun p => follower s o k p
  let all := lead :: issued
  let cores := ps.filter (chainCore s o k)
  if issued.length != cores.length then []
  else if cores.length != ps.length || issued.any fun x => !chainMatches o lead x then all.map fun x => (x.op, .error .bad)
  else if all.any fun x => x.op.state != .running then []
  else
    match parseFmtBlock lead.fb with
    | none => []
    | some fa =>
      let g := groupOf (lead.groups.headD [])
      match (if g.ks = 0 then .ok ([], []) else readARows s o fa g.abase g.aoff o.unit (List.range g.m)) with
      | .error e => [(o, .error e)]
      | .ok (rows, rs) =>
        ((List.range all.length).zip all).map fun (i, x) =>
          (x.op, memberStep s fa o.unit i rows (if i = 0 then rs else []) x)

/-- What the next unit of an operation comes to, for every operation that takes part in it: nothing when it waits. DESIGN
CHOICE, log 33. -/
def unitPlan (s : State) (o : EngOp) : Plan :=
  match o.work with
  | .coll _ _ _ false _ _ _ _ _ _ _ _ => collPlan s o
  | .mxloop _ chain pos _ _ _ _ =>
    if (headMx s (placeKey o.place)).any fun e => e.id == o.id then
      if pos != 0 then []
      else if 2 ≤ chain then (match loopOf o with
        | some l => chainPlan s o l chain
        | none => [])
      else [(o, unitAlone s o)]
    else []
  | .mxls _ _ | .mxswap | .mxacc _ _ _ _ _ _ =>
    if (headMx s (placeKey o.place)).any fun e => e.id == o.id then [(o, unitAlone s o)] else []
  | _ => [(o, unitAlone s o)]

/-! ### Performing a unit -/

/-- Engine writes are performed at the point of coherence. -/
def performWrites (s : State) (o : EngOp) (ws : List (Nat × List Byte)) : State :=
  ws.foldl (fun s w => performStore (flushLines s w.1 w.2.length) o.part o.place w.1 w.2) s

/-- The scratchpad granules of writes. -/
def granulesOf (ws : List (Nat × List Byte)) : List Nat :=
  ws.flatMap fun w =>
    if targetOf w.1 = .scratch && !w.2.isEmpty then
      (List.range ((w.1 + w.2.length - 1) / 16 - w.1 / 16 + 1)).map fun i => w.1 / 16 + i
    else []

/-- Granules set full, for which an LDFE may have waited at its bank (R81, R82). -/
def fillGranules (s : State) (gs : List Nat) : State := settleBank (gs.foldl (fun s g => setFull s (g * 16)) s)

def needsArray (o : EngOp) : Bool :=
  match o.work with
  | .mxloop _ _ _ _ _ _ _ | .mxls _ _ => true
  | _ => false

/-- An operation whose unit has begun on the core: a matrix loop now holds the array. -/
def EngOp.onArray (o : EngOp) : EngOp := { o with atArray := o.atArray || match o.work with
  | .mxloop _ _ _ _ _ _ _ => true
  | _ => false }

/-- A core's matrix state, from another state of the core. -/
def setMatrix (s : State) (k : Nat) (c : CoreState) : State :=
  setCore s k { coreAt s k with acc0 := c.acc0, acc1 := c.acc1, int0 := c.int0, int1 := c.int1, live := c.live, shadow := c.shadow }

/-- One operation takes a finished unit: its writes, its core's matrix state, its own progress. -/
def applyUnit (s : State) (o : EngOp) (d : UnitDone) : State :=
  let k := placeKey o.place
  let ord := engOrdered s o
  let s0 := if needsArray o then noteUse s k [4] else s
  let s1 := readPiecesL2 s0 o.place.die.toNat o.asid d.reads
  let s2 := match d.core with
    | some c => setMatrix s1 k c
    | none => s1
  let s3 := if ord then s2 else performWrites s2 o d.writes
  let n := (d.writes.map fun w => w.2.length).foldl (· + ·) 0
  let last := decide (unitCount o ≤ o.unit + 1)
  let touched := o.touched ++ (granulesOf d.writes).filter fun g => !o.touched.contains g
  let o1 : EngOp :=
    { o.onArray with
      unit := o.unit + 1
      uncounted := if o.bar.isSome then o.uncounted + n else 0
      touched := touched
      pending := if ord then o.pending ++ d.writes.map fun w => ⟨w.1, w.2⟩ else []
      buckets := d.buckets.getD o.buckets
      begun := o.begun || (!d.writes.isEmpty && !ord) || d.core.isSome
      state := if last then .finished else .running }
  let s4 := putOp s3 o1
  let s5 := if last && !ord then fillGranules s4 touched else s4
  if last && o.work == .mxswap then { s5 with engines := s5.engines.filter fun e => e.id != o.id } else s5

/-! ### Pausing (R434) -/

/-- PROGRESS is written into the descriptor, if it can be. Where that lies in scratchpad, the full bit of its granule stays as it
is: DESIGN CHOICE, log 89. -/
def writeProgress (s : State) (o : EngOp) (v : Nat) : State :=
  match progressOff o with
  | none => s
  | some off =>
    match engWrite s o (o.desc + BitVec.ofNat 64 off) (bytesOfNat 8 v) with
    | .error _ => s
    | .ok ws =>
      let s1 := putOp s { o with wroteProgress := true }
      if engOrdered s o then putOp s1 { o with wroteProgress := true, pending := o.pending ++ ws.map fun w => ⟨w.1, w.2⟩ }
      else performWrites s1 o ws

/-- The operation belongs to a launch that has been cancelled. -/
def opCancelled (s : State) (o : EngOp) : Bool :=
  o.command.isNone && (levelOfLaunch s o.part o.launch).any (·.cancelPending)

/-- An operation stops: it pauses, is abandoned on poison (R445), is a descriptor error, or is abandoned. A COPY's completes with
error code 0x86; one of a cancelled launch is aborted (R436). -/
def stopOp (s : State) (o : EngOp) (x : UnitStop) : State :=
  match x with
  | .hold | .lower => s
  | .bad => if opCancelled s o then afterDrain (abortOp s o) o else putOp s { o with state := .badDesc }
  | .range a => if opCancelled s o then afterDrain (abortOp s o) o else putOp s { o with state := .rangeFault a }
  | .fault c a w =>
    match o.command with
    | some cmd => completeCmd { s with engines := s.engines.filter fun e => e.id != o.id } cmd 0x86 false false
    | none =>
      if opCancelled s o then afterDrain (abortOp s o) o
      else if c = 0x50 then putOp s { o with state := .poisoned w }
      else
        let p : EngOp := { o.onArray with state := .paused c a w false }
        writeProgress (putOp s p) p (progressWord o)

def isOk {α : Type} : EngM α → Bool
  | .ok _ => true
  | .error _ => false

/-- A plan is carried out: every unit, or the errors. -/
def carryOut (s : State) (p : Plan) : State :=
  if p.all fun x => isOk x.2 then
    p.foldl (fun s x => match x.2 with
      | .ok d => applyUnit s x.1 d
      | .error _ => s) { s with fresh := s.fresh + p.length }
  else
    p.foldl (fun s x => match x.2 with
      | .ok _ => s
      | .error e => stopOp s x.1 e) s

/-- The plan changes something. -/
def planActs (p : Plan) : Bool :=
  !p.isEmpty && ((p.all fun x => isOk x.2) || p.any fun x => match x.2 with
    | .error .hold | .error .lower => false
    | .error _ => true
    | .ok _ => false)

/-- The operation may run now: it has started, its die runs, and a matrix operation's array is powered. -/
def canRun (s : State) (o : EngOp) : Bool :=
  o.state == .running && o.started && !(decide (o.place.die.toNat < 8) && s.diehalt.getLsbD o.place.die.toNat)

/-- The operation waits for its core's array to be powered. -/
def waitsArray (s : State) (o : EngOp) : Bool := needsArray o && !islandUp s (placeKey o.place) 4

/-- ENGINE_WRITE_LANDED: the next unit of an operation, or the pause it meets. -/
def runUnit (s : State) (o : EngOp) : State :=
  if !canRun s o then s
  else if waitsArray s o then wakeIsland s (placeKey o.place) 4
  else carryOut s (unitPlan s o)

/-- Running the operation would change something. -/
def unitActs (s : State) (o : EngOp) : Bool :=
  canRun s o &&
    if waitsArray s o then !(coreAt s (placeKey o.place)).waking.getLsbD 4 else planActs (unitPlan s o)

def execEngineWriteLanded (op : Nat) (s : State) : Host.Outcome State Fault Refusal :=
  .next (match opAt s op with
    | some o => runUnit s o
    | none => s)

/-- ENGINE_PAUSE: an operation whose next unit meets a fault pauses. -/
def execEnginePause (op : Nat) (s : State) : Host.Outcome State Fault Refusal :=
  .next (match opAt s op with
    | some o => let p := unitPlan s o; if canRun s o && !(waitsArray s o) && !(p.all fun x => isOk x.2) then carryOut s p else s
    | none => s)

/-! ### Byte counts and retirement -/

/-- The count is held on its way to the object's bank: at a halted die, or on the path of its engine's die (R357, R358, R452). -/
def countHeld (s : State) (o : EngOp) (obj : Nat) : Bool := pieceHeld s o (obj, 32)

/-- ENGINE_BYTE_COUNT: the bytes of finished units reach the bank (R99, R255). -/
def execEngineByteCount (op : Nat) (s : State) : Host.Outcome State Fault Refusal :=
  .next (match opAt s op with
    | some o =>
      match o.bar with
      | some obj =>
        if o.uncounted = 0 || engOrdered s o || countHeld s o obj then s
        else atBank (putOp s { o with uncounted := 0 }) (.bytes obj o.uncounted o.part o.place)
      | none => s
    | none => s)

/-- The other die of a pair. -/
def twinDie (d : Nat) : Nat := if d % 2 = 0 then d + 1 else d - 1

/-- A notice is held: at a halted die, or on its bridge (R357, R358, R452). -/
def noticeHeld (s : State) (obj : Nat) : Bool :=
  heldByHalt s obj || heldOnWay s (twinDie (homeDie obj)) true obj

/-- A notice goes next in its direction of its bridge: those there arrive in the order sent (R356). -/
def noticeNext (s : State) (obj : Nat) : Bool :=
  !noticeHeld s obj && (s.notices.find? fun n => homeDie n == homeDie obj) == some obj

/-- CROSS_NOTICE: a notice under way reaches its object (R257, R359). -/
def execCrossNotice (obj : Nat) (s : State) : Host.Outcome State Fault Refusal :=
  .next (if noticeNext s obj then atBank { s with notices := s.notices.erase obj } (.notice obj) else s)

/-- The oldest operation of its class and team (R98). -/
def oldestOp (s : State) (o : EngOp) : Bool :=
  !o.counted || match s.engines.find? fun e =>
      e.counted && e.place == o.place && e.launch == o.launch && e.part == o.part && decide (e.cls = o.cls) with
    | some e => e.id == o.id
    | none => false

/-- The operation may retire, quantum ends apart. -/
def mayRetire (s : State) (o : EngOp) : Bool :=
  o.state == .finished && o.uncounted == 0 && oldestOp s o && !engOrdered s o

/-- The retirement itself: PROGRESS := 0 where it has been written, and the operation is gone. -/
def retireNow (s : State) (o : EngOp) : State :=
  let s1 := if o.wroteProgress then writeProgress s o 0 else s
  let s2 := retireOp s1 o
  afterDrain (match o.command with
    | some c => completeCmd s2 c 0 false false
    | none => s2) o

def execEngineRetire (op : Nat) (s : State) : Host.Outcome State Fault Refusal :=
  .next (match opAt s op with
    | some o => if mayRetire s o then retireNow s o else s
    | none => s)

end Sys2Proof.Machine
end

