-- ==== Sys2Proof/Machine/Schedule.lean ====
section
/-! DEFINITION. Which team issues next (spec/14 R321), and how its next instruction is fetched, decoded and run, alone or
as the first of a pair (spec/08 R164-R180). -/

namespace Sys2Proof.Machine

/-- A bank owes the team its reply: nothing that the team does brings it about. -/
def bankOwes (t : Team) : Bool := t.asked && t.request.isNone && t.reply.isNone

/-- The team may be asked to issue: nothing parks it (R405, R407) and no cancel awaits it, or its capsule request is outstanding
(R299); and it is ready, or waits on a condition that may now hold. -/
def runnable (s : State) (t : Team) : Bool :=
  ((t.parks.isEmpty && !t.cancelling && !(partOf s t.part).dbgHalt) || capPending t) && !bankOwes t &&
    match t.status with
    | .ready => !t.closed
    | .waiting .quantum | .waiting (.lower _) => t.granted
    | .waiting _ => !t.closed || t.granted
    | _ => false

/-- Every resident team, the current one last. -/
def allTeams (s : State) : List Team := s.others ++ (if s.team.status = .vacant then [] else [s.team])

/-- A team is boosted when it has been ready for 64 turns without issuing: a turn of the machine stands for a cycle (R45).
DESIGN CHOICE, log 8. -/
def isBoosted (t : Team) : Bool := t.boosted || decide (64 ≤ t.readyTurns)

/-- Rank of a team that is not boosted: those ranked last by YIELD last (R212), then queue PRIO, then the context after the last
issuer (R321). -/
def rank (turn last : Nat) (t : Team) : Nat :=
  ((if turn < t.yieldUntil then 1 else 0) * 4 + (3 - t.prio.toNat)) * 32 + (t.place.ctx.toNat + 31 - last) % 32

/-- t issues before u on their core: boosted teams first, the one ready longest first among them (R321). -/
def issuesBefore (turn last : Nat) (t u : Team) : Bool :=
  if isBoosted t != isBoosted u then isBoosted t
  else if isBoosted t then decide (u.readyTurns ≤ t.readyTurns)
  else decide (rank turn last t ≤ rank turn last u)

def insertRank (turn last : Nat) (t : Team) : List Team → List Team
  | [] => [t]
  | u :: rest => if issuesBefore turn last t u then t :: u :: rest else u :: insertRank turn last t rest

def sortRank (turn last : Nat) : List Team → List Team
  | [] => []
  | t :: rest => insertRank turn last t (sortRank turn last rest)

/-- Keys without repeats, in order of first appearance. -/
def firstKeys : List Nat → List Nat
  | [] => []
  | k :: rest => k :: (firstKeys rest).filter fun j => j != k

/-- The teams that may issue, cores in turn, each core's by R321. -/
def candidates (s : State) : List Place :=
  let ts := (allTeams s).filter (runnable s)
  (firstKeys (ts.map fun t => placeKey t.place)).flatMap fun k =>
    (sortRank s.ctlTurn (coreAt s k).lastIssuer (ts.filter fun t => placeKey t.place == k)).map (·.place)

/-- The team of a context becomes the current one; its core goes to the end of the turn. -/
def focus (s : State) (p : Place) : State :=
  match (allTeams s).find? fun t => t.place = p with
  | none => s
  | some t =>
    let rest := (allTeams s).filter fun u => !(u.place = p)
    let k := placeKey p
    let s1 : State := { s with team := { t with boosted := false, readyTurns := 0 },
                               others := (rest.filter fun u => placeKey u.place != k) ++
                                 (rest.filter fun u => placeKey u.place == k) }
    setCore s1 k { coreAt s1 k with lastIssuer := p.ctx.toNat }

/-- After the first instruction of a pair has retired, the second follows: none where the first has not. -/
def openPair (s s1 : State) (next : Word) : Option State :=
  if s1.team.place = s.team.place && s1.team.pc = next && s1.team.status = .ready then
    some (s1.upd fun t => { t with pairShadow := some (shadowOf s.team), inPair := true })
  else none

/-- A pair issues as two single instructions when only one is left in the quantum (R368). Whether 0x007 is then still raised R180
does not say; the first runs alone and raises nothing: DESIGN CHOICE, log 91. -/
def pairRoom (s : State) : Bool := !ordered s.team || s.team.qnt + 2 ≤ quantumOf s s.team

/-- The stop of a line that cannot be fetched, fails parity, or is illegal (R415 steps 1 to 3). -/
def fetchStop (t : Team) (c : Byte) (code : Nat) : Stop :=
  { cause := c, pc := t.pc, kind := if c = 0x13 || c = 0x11 then 3 else 5, code := code,
    faddr := if c = 0x13 || c = 0x11 then t.pc else lineBase t.pc, pix := pixKept t }

/-- The line at an address has been fetched: it is read as any line of the team's core is. -/
def fetched (s : State) (a : Word) : State :=
  match fetchLoc s s.team.who a with
  | .ok loc => noteRead s s.team.who loc
  | .error _ => s

/-- The instruction at the PC of a team. -/
def instrAt (s : State) (t : Team) : Option Instr :=
  match fetchLine s t t.pc with
  | .error _ => none
  | .ok l => (l.instr (parcelOf t.pc)).map (·.1)

/-- An instruction that has asked goes on as it is where a fetch at its PC now gives another. -/
def underWay (s : State) (t : Team) : Option Instr := if t.asked then t.op.filter fun i => instrAt s t != some i else none

/-- The fetch of a line is held on its way (R357, R452). -/
def fetchHeld (s : State) (t : Team) : Bool :=
  match fetchLoc s t.who t.pc with
  | .ok loc => (heldByHalt s loc || heldOnWay s t.place.die.toNat false loc) && !servedNear s t.who .rd loc
  | .error _ => false

/-- The lanes that an instruction's passes work on: of the vector datapath, or of a vector access. -/
def lanesUsedBy (i : Instr) (s : State) : Mask :=
  let u := i.uses
  let lanes := (u.unit == .v || u.unit == .m) && (u.reads ++ u.dsts).any fun d => match d with
    | .vec _ => true
    | .scal _ => false
  if lanes then u.masks.foldl (fun m k => m &&& kget s.team k) s.team.em else 0

/-- The instruction begins: it has not asked, its registers are full, and it passes its checks (R409, R410). -/
def begins (i : Instr) (s : State) : Bool :=
  !s.team.asked && match checked i s .done with
    | .done _ => true
    | _ => false

/-- The lanes that an instruction which begins works on. -/
def lanesBegun (i : Instr) (s : State) : Mask := let m := lanesUsedBy i s; if m != 0 && begins i s then m else 0

/-- The lane groups that an instruction needs and that are powered down (R346). -/
def needsGroups (i : Instr) (s : State) : List Nat := groupsDown s s.team (lanesBegun i s)

/-- After the instruction the team still waits at it. -/
def waitsThere (s s1 : State) : Bool :=
  decide (s1.team.place = s.team.place) && match s1.team.status with
    | .waiting _ => true
    | _ => false

/-- A decoded instruction runs. One that works on lanes needs their groups powered, and is work of theirs (R346); one that only
waits, or stops in its checks, asks no leave for them (R409). -/
def runDecoded (ex : Instr → State → Host.Outcome State Fault Refusal) (i : Instr) (s : State) :
    Host.Outcome State Fault Refusal :=
  let k := placeKey s.team.place
  match ex i s with
  | .next s1 =>
    if waitsThere s s1 then .next s1
    else
      match needsGroups i s with
      | [] => .next (noteUse s1 k (laneGroups (lanesBegun i s)))
      | gs => .next (holdAt (wakeGroups s k gs) .resource)
  | o => o

/-- A pair issues once both are ready, the second after the first in the same step (R180). -/
def runPair (ex : Instr → State → Host.Outcome State Fault Refusal) (i j : Instr) (next : Word) (s : State) :
    Host.Outcome State Fault Refusal :=
  match awaitAll s (waitsFor j.uses), needsGroups j s with
  | some s1, [] =>
    (match runDecoded ex i s1 with
      | .next s2 =>
        (match openPair s1 s2 next with
          | some s3 => runDecoded ex j s3
          | none => .next s2)
      | o => o)
  | none, _ => .next (holdAt s (stallKind s.team (waitsFor j.uses)))
  | some _, gs => .next (holdAt (wakeGroups s (placeKey s.team.place) gs) .resource)

/-- The current team's next instruction, fetched, decoded and run by `ex`. A soft error found in the team's state halts it
here (R444), not before the reply of a capsule request (R299). A team that stopped at BKPT and goes on ends that instruction. A
pair in a capsule body breaks its rules (R158): DEDUCED, log 72. -/
def runTeam (ex : Instr → State → Host.Outcome State Fault Refusal) (s : State) : Host.Outcome State Fault Refusal :=
  let t := s.team
  match if capPending t then none else t.softErr with
  | some code =>
    .next (haltTeam { s with team := { t with softErr := none } } t.place
      { cause := 0x50, pc := t.pc, code := code.toNat, pix := pixKept t })
  | none =>
  match underWay s t with
  | some i => ex i s
  | none =>
  if t.bkpt then let s1 := s.upd fun t => { t with bkpt := false }; .next (retireChecked s1 s1 (skipWord (t.pc + 4)))
  else if fetchHeld s t then .next (holdAt s .resource)
  else
  match fetchLine s t t.pc with
  | .error (c, code) => .next (stopAt s s (fetchStop t c code))
  | .ok l =>
    let k := parcelOf t.pc
    let s1 := fetched s t.pc
    if t.pc.toNat % 4 != 0 || k = 15 then .next (stopAt s s { cause := 0x21, pc := t.pc, faddr := t.pc, pix := pixKept t })
    else if l.fillAt k then .next { s1 with team := { s1.team with pc := lineBase t.pc + 64 } }
    else
      match decode (l.parcels.drop k) with
      | .error _ => ex (.unassignedEncoding (l.p k)) s1
      | .ok (i, n) =>
        if l.pair k && !t.inPair && !t.asked && inBody t then .next (stopAt s s { cause := 0x40, pc := t.pc })
        else
        match if l.pair k && !t.inPair && pairRoom s then l.instr (k + n) else none with
        | some (j, _) =>
          if t.lstk.any fun e => e.stop == t.pc then .next (stopAt s s { cause := 0x23, pc := t.pc, code := 7 })
          else runPair ex i j (t.pc + BitVec.ofNat 64 (4 * n)) s1
        | none => runDecoded ex i s1

/-- A waiting team that tries again and still waits has not issued, unless it has asked for something new: leave, a wake, a place
in a record's queue, or what its own fields say. -/
def stillWaits (s s1 : State) : Bool :=
  match s.team.status with
  | .waiting _ =>
    decide (teamAt s1 s.team.place = some s.team) && decide (s1.dies = s.dies) && decide (s1.cores = s.cores) &&
      decide (s1.capWait = s.capWait)
  | _ => false

/-- The first team of the list that issues. -/
def tryTeams (ex : Instr → State → Host.Outcome State Fault Refusal) (s : State) :
    List Place → Option (Host.Outcome State Fault Refusal)
  | [] => none
  | p :: rest =>
    match runTeam ex (focus s p) with
    | .next s1 => if stillWaits (focus s p) s1 then tryTeams ex s rest else some (.next s1)
    | o => some o

/-- A command record's instruction: it reaches the machine through a queue only. -/
def Instr.isCommand : Instr → Bool
  | .nop _ | .launch _ _ | .graphRun _ _ | .graphEditLoad _ _ _ | .graphEditSetnode _ _ _ _ | .graphEditDrop _ _
  | .copy _ _ | .signal _ _ _ | .wait _ _ _ | .phaseBegin _ | .phaseEnd _ _ | .jobBegin _ | .jobEnd _ _ | .cancel _ _ _
  | .subscribe _ _ | .subscribeRemove _ _ | .rateWrite _ _ | .resync _ _ | .syscReply _ _ _ | .ctrlRun _ _
  | .tlbinvCommand _ _ _ _ _ => true
  | _ => false

/-- What may stand in the inbox: events and register writes. -/
def external (i : Instr) : Bool := !i.isTeam && !Instr.isCommand i

end Sys2Proof.Machine
end

