-- ==== Sys2Proof/Machine/PartWay.lean ====
section
/-! DEFINITION. Parking a team (spec/24 R396-R398, R405): where it stops, and what an instruction of the vector datapath that is
stopped part-way has done (spec/03 R66, spec/10 R216). -/

namespace Sys2Proof.Machine

/-- The instructions of the vector datapath (R216), each with its meaning. -/
def datapath (i : Instr) : Option (State → Host.Outcome State Fault Refusal) :=
  match i with
  | .valuAdd o sat => some (execValuAdd o sat)
  | .valuSub o sat => some (execValuSub o sat)
  | .valuAnd o => some (execValuAnd o)
  | .valuOr o => some (execValuOr o)
  | .valuXor o => some (execValuXor o)
  | .valuAndn o => some (execValuAndn o)
  | .valuShl o sv => some (execValuShl o sv)
  | .valuShrl o => some (execValuShrl o)
  | .valuShra o => some (execValuShra o)
  | .valuMin o => some (execValuMin o)
  | .valuMax o => some (execValuMax o)
  | .valuMinn o => some (execValuMinn o)
  | .valuMaxn o => some (execValuMaxn o)
  | .valuAbs o sv => some (execValuAbs o sv)
  | .valuNeg o sv => some (execValuNeg o sv)
  | .valuMov d k es b => some (execValuMov d k es b)
  | .vmulMul o sv => some (execVmulMul o sv)
  | .vmulMulh o => some (execVmulMulh o)
  | .vmulMulhn o => some (execVmulMulhn o)
  | .vmulMad o sv => some (execVmulMad o sv)
  | .vcmp fn o => some (execVcmp fn o)
  | .vsel o => some (execVsel o)
  | .vbcast o idx => some (execVbcast o idx)
  | .vlid d k es => some (execVlid d k es)
  | .fadd o => some (execFadd o)
  | .fsub o => some (execFsub o)
  | .fmul o => some (execFmul o)
  | .fmin o => some (execFmin o)
  | .fmax o => some (execFmax o)
  | .fabs o => some (execFabs o)
  | .fneg o => some (execFneg o)
  | .fcsgn o => some (execFcsgn o)
  | .ffma o => some (execFfma o)
  | .ffms o => some (execFfms o)
  | .fnma o => some (execFnma o)
  | .fcmp fn o => some (execFcmp fn o)
  | .cvt d k a dst src part => some (execCvt d k a dst src part)
  | .pack o sat => some (execPack o sat)
  | .unpack o sx half => some (execUnpack o sx half)
  | .perm o => some (execPerm o)
  | _ => none

/-- The current team with the active lanes of the lane-words below q alone. -/
def belowWord (s : State) (q : Nat) : State := s.upd fun t => { t with em := t.em &&& laneMask (32 * q) }

/-- The vector registers once the instruction at hand has done the lane-words below q; none where it would not go on: it waits, it
stops, or it is no instruction of the datapath. -/
def sweptBelow (i : Instr) (q : Nat) (s : State) : Option (List (Nat × Word)) :=
  if begins i s && (waitsFor i.uses).all (fun d => !destEmpty s.team d) && (needsGroups i s).isEmpty then
    match datapath i with
    | none => none
    | some f =>
      match f (belowWord s q) with
      | .next s1 => if s1.team.status = .ready && s1.team.setAsides == s.team.setAsides then some s1.team.vregs else none
      | _ => none
  else none

/-- A stop that comes while a team issues an instruction of the datapath leaves the lane-words below some lane-word done, the
others untouched, and PIX names that lane-word (R66, R397); the instruction goes on from there under the MODE of its issue (R398).
Which lane-word, the manual leaves to the moment: DESIGN CHOICE, log 83. -/
def stopPartWay (s : State) (p : Place) : State :=
  match teamAt s p with
  | none => s
  | some t =>
    if t.status = .ready && !t.inPair && decide (32 < t.lanes) then
      match instrAt s t with
      | none => s
      | some i =>
        let q := Config.stopWord s.fresh % (t.lanes / 32)
        if startWord t < q then
          match sweptBelow i q { s with team := t } with
          | none => s
          | some vs =>
            mapTeam (noteUse { s with fresh := s.fresh + 1 } (placeKey p) (laneGroups (lanesUsedBy i { s with team := t }))) p
              fun t => { t with vregs := vs, pix := pixAt q, cmode := modeSeen t, useCmode := true }
        else s
    else s

/-- A team gets a reason to be parked. The first stops it, where it stands or part-way through an instruction: its capsule record
is to stand PARKED, unless a capsule request is outstanding, whose reply is awaited (R299). -/
def parkTeam (s : State) (p : Place) (r : ParkReason) : State :=
  match teamAt s p with
  | none => s
  | some t =>
    let s1 := if t.parks.isEmpty && !capPending t then stopPartWay (stopWait (descheduleCap s t false) t) p else s
    mapTeam s1 p fun t => { t with parks := if t.parks.contains r then t.parks else t.parks ++ [r] }

end Sys2Proof.Machine
end

