-- ==== Sys2Proof/Machine/Preempt.lean ====
section
/-! DEFINITION. Pre-emption by priority (spec/14 R318, R319; spec/02 R43; spec/24 R405). -/

namespace Sys2Proof.Machine

/-! ### The save pool (R319) -/

/-- Bytes of a partition's pool: none where it does not lie wholly in the partition's slices. -/
def poolBytes (s : State) (p : BitVec 4) : Nat :=
  let x := partOf s p
  let base := x.spBase.toNat * 65536
  let n := x.spSize.toNat * 65536
  if n != 0 && (List.range ((base + n - 1) / 2 ^ 35 - base / 2 ^ 35 + 1)).all
      (fun i => decide (base / 2 ^ 35 + i < 48) && x.pmem.getLsbD (base / 2 ^ 35 + i)) then n else 0

/-- Bytes of the pool that save areas hold, from the taking of a victim core on (R319). -/
def poolUsed (s : State) (p : BitVec 4) : Nat :=
  ((s.preempted.filter fun x => x.part == p).map (·.need) ++
    (s.preempting.filter fun x => x.part == p).map (·.need)).foldl (· + ·) 0

/-- Bytes put in device memory in place of a whole range, as its save areas are written. -/
def spliceBytes (m : List Host.Cell) (loc : Nat) (bs : List Byte) : List Host.Cell :=
  (m.filter fun c => c.1 < loc) ++ (((List.range bs.length).zip bs).map (fun x => (loc + x.1, x.2))).filter (fun c => c.2 != 0) ++
    m.filter fun c => loc + bs.length ≤ c.1

/-- The save areas of a saving: their layout is not architectural (R405). -/
def scribble (s : State) (loc n : Nat) : State :=
  let s1 := clearPoison (ownLines (flushLines s loc n) none loc n) [(loc, n)]
  { bumpSerial s1 with mem := spliceBytes s1.mem loc ((List.range n).map (Config.saveByte s1.serial)) }

/-! ### The victim (R318) -/

/-- The teams of a core that a launch of this priority may displace, and the allocations they hold. -/
def lowerTeams (s : State) (k prio : Nat) : List Team := (teamsOn s k).filter fun t => t.prio.toNat < prio

def lowerBlocks (s : State) (k prio : Nat) : List Block :=
  (blocksOn s k).filter fun b => (lowerTeams s k prio).any (sameBlock b.part b.launch b.blk)

/-- The core with its lower-priority teams taken away: its section is set afresh, around what is left (R33). -/
def cleared (s : State) (kd : KDesc) (k prio : Nat) : State :=
  let ts := lowerTeams s k prio
  let bs := lowerBlocks s k prio
  let s1 : State :=
    { s with others := (teamsOf s).filter fun t => !ts.contains t, team := {}, blocks := s.blocks.filter fun b => !bs.contains b }
  let top := ((blocksOn s1 k).map fun b => (b.off + b.size) / 65536).foldl max 0
  setSection s1 k (max top (min 16 (kd.spad * coreHolds s1 kd k)))

/-- The waiting block fits on the core so cleared, a straddling one with its twin as it stands. -/
def fitsCleared (s : State) (l : Level) (k : Nat) : Bool :=
  let prio := l.prio.toNat
  let s1 := cleared s l.kd k prio
  let twin := if k / 64 % 2 = 0 then k + 64 else k - 64
  fitsNow s1 l.kd prio k &&
    (!l.kd.straddle || ((partCores s l.part (twin / 64)).contains twin && placeable s twin && fitsNow s l.kd prio twin))

/-- A core that may be a victim for a waiting block: it holds no claim. -/
def mayBeVictim (s : State) (l : Level) (k : Nat) : Bool :=
  let ts := lowerTeams s k l.prio.toNat
  placeable s k && (claimsOn s k).isEmpty && !ts.isEmpty && fitsCleared s l k &&
    poolUsed s l.part + victimNeed ts (lowerBlocks s k l.prio.toNat) ≤ poolBytes s l.part

/-- The lowest PRIO on the core, then the number of its lower-priority teams: a core with the smaller pair goes first. -/
def victimRank (s : State) (l : Level) (k : Nat) : Nat :=
  let ts := lowerTeams s k l.prio.toNat
  (ts.map (·.prio.toNat)).foldl min 3 * 64 + ts.length

def victimCores (s : State) (l : Level) : List Nat :=
  ((List.range 8).flatMap (partCores s l.part)).filter (mayBeVictim s l)

def victimCore (s : State) (l : Level) : Option Nat := leastLoaded (victimRank s l) (victimCores s l)

/-- A launch whose next block waits for pre-emption: it fits on no core as things stand. DEDUCED, log 45. -/
def waitsPreempt (s : State) (l : Level) : Bool :=
  hasBlock s l && (chooseCores s l).isNone && (teamsOf s).any fun t => t.part == l.part && !t.ctl && decide (t.prio.toNat < l.prio.toNat)

/-- A partition's pre-emption that waits for its victim's teams to stop (R299). -/
def preemptingOf (s : State) (p : BitVec 4) : Option Preempting := s.preempting.find? fun x => x.part == p

/-- The waiting launch, of the highest PRIO and the earliest, that a victim core would serve; one victim at a time. -/
def preemptor (s : State) (p : BitVec 4) : Option (Level × Nat) :=
  if (preemptingOf s p).isSome then none
  else (dispatchList s fun l => l.part == p && waitsPreempt s l).findSome? fun l => (victimCore s l).map fun k => (l, k)

/-! ### Saving and restoring -/

/-- Matrix operations outstanding of the teams taken away. -/
def savedOps (s : State) (ts : List Team) : List EngOp :=
  s.engines.filter fun o => o.cls == .mxa && ts.any fun t => t.place == o.place && t.launch == o.launch && t.part == o.part

/-- The bytes of allocations that are not 0. -/
def allocBytes (s : State) (bs : List Block) : List (Nat × Byte) := s.mem.filter fun c => bs.any fun b => inAlloc b c.1

/-- The lower-priority teams of the victim core stop. -/
def stopVictim (s : State) (k prio : Nat) : State :=
  (lowerTeams s k prio).foldl (fun s t => parkTeam s t.place .preempt) s

/-- Every team of the victim core that is to be saved has stopped: none awaits the reply of a capsule request (R299). -/
def victimStopped (s : State) (k prio : Nat) : Bool := (lowerTeams s k prio).all fun t => !capPending t

/-- The victim core is emptied of its lower-priority teams, which have stopped: their capsule records are PARKED, and they, the
core's matrix state and their blocks' allocations are saved. -/
def saveVictim (s : State) (l : Level) (k : Nat) : State :=
  let prio := l.prio.toNat
  let ps := (lowerTeams s k prio).map (·.place)
  let s1 := ps.foldl dropProducts (settleCaps (flushCore (drain s) k))
  let ts := (teamsOf s1).filter fun t => ps.contains t.place
  let bs := (blocksOn s1 k).filter fun b => ts.any (sameBlock b.part b.launch b.blk)
  let ops := savedOps s1 ts
  let dead := fun loc => bs.any fun b => inAlloc b loc
  let x : Preempted :=
    { part := l.part, die := BitVec.ofNat 4 (k / 64), core := BitVec.ofNat 6 (k % 64), prio := l.prio, teams := ts, blocks := bs,
      ops := ops, matrix := coreAt s1 k, spad := allocBytes s1 bs, full := s1.full.filter fun g => dead (g * 16),
      tags := s1.tags.filter dead, bank := s1.bank.filter fun r => dead r.obj, cross := s1.cross.filter fun c => dead c.obj,
      need := victimNeed ts bs }
  let base := (partOf s1 l.part).spBase.toNat * 65536 + poolUsed s1 l.part
  let s2 := scribble (ops.foldl (fun s o => dropLeave s (k / 64) (.op o.id)) s1) base x.need
  let s3 := cleared s2 l.kd k prio
  { s3 with preempted := s3.preempted ++ [x], engines := s3.engines.filter fun o => !ops.contains o,
            full := s3.full.filter fun g => !dead (g * 16), tags := s3.tags.filter fun t => !dead t,
            bank := s3.bank.filter fun r => !dead r.obj, cross := s3.cross.filter fun c => !dead c.obj }

/-- The launch that a pre-emption under way serves: the first of its PRIO whose next block still waits. -/
def preemptFor (s : State) (x : Preempting) : Option Level :=
  (dispatchList s fun l => l.part == x.part && l.prio == x.prio && hasBlock s l).head?

/-- A pre-emption under way whose victim's teams have all stopped goes on, or is given up where no block waits for it. -/
def finishPreempt (s : State) (x : Preempting) : State :=
  let s1 : State := { s with preempting := s.preempting.filter fun y => y != x }
  match preemptFor s x with
  | some l => fillAll (saveVictim s1 l x.core)
  | none => (lowerTeams s1 x.core x.prio.toNat).foldl (fun s t => releaseTeam s t.place .preempt) s1

/-- A pre-emption under way may go on. -/
def preemptReady (s : State) (p : BitVec 4) : Bool := (preemptingOf s p).any fun x => victimStopped s x.core x.prio.toNat

/-- PREEMPTION in a partition: the victim's teams stop, and are saved once none awaits the reply of a capsule request. -/
def execPreemption (p : BitVec 4) (s : State) : Host.Outcome State Fault Refusal :=
  .next (match preemptingOf s p with
    | some x => if victimStopped s x.core x.prio.toNat then finishPreempt s x else s
    | none =>
      match preemptor s p with
      | some (l, k) =>
        let s1 := stopVictim s k l.prio.toNat
        if victimStopped s1 k l.prio.toNat then fillAll (saveVictim s1 l k)
        else
          let need := victimNeed (lowerTeams s k l.prio.toNat) (lowerBlocks s k l.prio.toNat)
          { s1 with preempting := s1.preempting ++ [⟨p, k, l.prio, need⟩] }
      | none => s)

/-- The record of a core's pre-emption. -/
def preemptedAt (s : State) (k : Nat) : Option Preempted := s.preempted.find? fun x => coreKey x.die x.core == k

/-- No team of a launch with a higher PRIO than the parked ones remains there, and no block of one is to be dispatched. -/
def mayRestore (s : State) (x : Preempted) : Bool :=
  let k := coreKey x.die x.core
  let m := (x.teams.map (·.prio.toNat)).foldl max 0
  placeable s k && !((teamsOn s k).any fun t => m < t.prio.toNat) &&
    !(s.levels.any fun l => l.part == x.part && decide (l.kind = .launch) && !l.ctl && !l.cancelPending && decide (m < l.prio.toNat) &&
      decide (l.next < l.blocks))

/-- The products of a restored team that still wait for leave ask for it again (R344). -/
def askProducts (s : State) (t : Team) : State :=
  t.inflight.foldl (fun s f => match f.src with
    | .array lead _ => askLeave s t.place.die.toNat (.mma t.place lead)
    | _ => s) s

/-- The allocations, the matrix state and the contexts come back to their places; the teams stay parked while their partition's
HALT is 1 (R407). -/
def restoreCore (s : State) (x : Preempted) : State :=
  let k := coreKey x.die x.core
  let c := coreAt s k
  let s1 : State :=
    { s with preempted := s.preempted.filter fun y => y != x, blocks := s.blocks ++ x.blocks,
             mem := x.spad.foldl (fun m b => mapSet 0 m b.1 b.2) (s.mem.filter fun b => !(x.blocks.any fun a => inAlloc a b.1)),
             full := s.full.filter (fun g => !(x.blocks.any fun b => inAlloc b (g * 16))) ++ x.full, tags := s.tags ++ x.tags,
             bank := s.bank ++ x.bank, cross := s.cross ++ x.cross, engines := s.engines ++ x.ops,
             others := s.others ++ x.teams.map fun t => { t with
               parks := t.parks ++ (haltParks s t.part).filter fun r => !t.parks.contains r } }
  let s2 := setCore (setSection s1 k x.matrix.section64) k { x.matrix with
    powered := c.powered, waking := c.waking, points := c.points, lastUse := c.lastUse, lastIssuer := c.lastIssuer }
  let s3 := x.ops.foldl (fun s o => if o.state == .leave then askLeave s (k / 64) (.op o.id) else s) s2
  x.teams.foldl (fun s t => releaseTeam (askProducts s t) t.place .preempt) s3

/-- PREEMPTION_RESTORE of a core. -/
def execPreemptionRestore (die : BitVec 4) (core : BitVec 6) (s : State) : Host.Outcome State Fault Refusal :=
  .next (match preemptedAt s (coreKey die core) with
    | some x => if mayRestore s x then fillAll (restoreCore s x) else s
    | none => s)

end Sys2Proof.Machine
end

