-- ==== Sys2Proof/Machine/Memory.lean ====
section
/-! DEFINITION. Loads, stores and cache hints (spec/11 R240-R247, R265). -/

namespace Sys2Proof.Machine

/-! ### Addresses -/

/-- EA (R241). -/
def effAddr (t : Team) (a : SSrc) (off : Option (BitVec 32)) : Word :=
  match off with
  | some l => sget t a.r + sext64 l
  | none => sget t a.r

/-- The stop of one lane's access: its cause, KIND and address, and PIX of a vector form. -/
def accStop (t : Team) (cause : Byte) (acc : Access) (va : Word) (lane : Nat) (pix : Word) : Stop :=
  { cause := cause, pc := t.pc, kind := acc.kind, flane := lane, faddr := va, pix := pix }

/-- In a capsule body, every byte lies within the guarded data (R294). -/
def bodyRange (t : Team) (loc n : Nat) : Bool :=
  (bodyHold t).all fun h => h.rcd + 256 ≤ loc && loc + n ≤ h.rcd + h.size

/-- The team's own atomics to the bytes of an access are performed before it (R102). DEDUCED, log 27. -/
def settle (s : State) (locs : List (Nat × Nat)) : State :=
  if s.service.any fun e => e.place == s.team.place &&
      locs.any fun x => overlaps e.req.loc (atomBytes e.req.dw) x.1 x.2 then drain s else s

/-- A breach of the range: one that writes to a held lock record is reported (R442). -/
def bodyStop (s : State) (acc : Access) (loc n : Nat) : Eff :=
  let s1 := match acc, lockHit s loc n with
    | .wr, some l => report s s.team.part 1 (targetWord s.team.place) (addrOfLoc s l)
    | _, _ => s
  .stop s1 { cause := 0x40, pc := s.team.pc }

/-- One scalar access and its effect. -/
def scalarAccess (s : State) (va : Word) (n : Nat) (acc : Access) (k : State → Nat → Eff) : Eff :=
  match access s va n n acc with
  | .fault c => .stop s (accStop s.team c acc va 0 0)
  | .hold w => .hold s w
  | .ok loc =>
    if bodyRange s.team loc n then k (settle s [(loc, n)]) loc else bodyStop s acc loc n

/-- The scope of a release that an order carries. -/
def MOrder.relScope : MOrder → Scope
  | .rel s | .ar s => s
  | .plain | .acq _ => .team

/-! ### LD and ST (R244) -/

/-- The results of a load of one location: (register, value) pairs. -/
def loadVals (s : State) (o : MemOps) (loc : Nat) : List (Dest × Word) :=
  match o.size with
  | .p => [(.scal o.d, BitVec.ofNat 64 (natOfBytes (teamBytes s s.team loc 8))),
           (SReg.plus o.d 1, BitVec.ofNat 64 (natOfBytes (teamBytes s s.team (loc + 8) 8)))]
  | z => [(.scal o.d, extBytes (msizeBytes z) o.sx (natOfBytes (teamBytes s s.team loc (msizeBytes z))))]

/-- A load of a team reaches its L1, and L2 where the L1 does not serve it; one in a capsule body goes past L1s and annexes to
the home (R297), an access of its region (R360). -/
def loadNoted (s : State) (loc : Nat) : State :=
  if inBody s.team then homeRead s loc else noteRead s s.team.who loc
where
  homeRead (s : State) (loc : Nat) : State := if targetOf loc = .device then dirRead s 8 loc else s

/-- Reads by the current team of every line of pieces, as loads of its own. -/
def notePieces (s : State) (ps : List (Nat × Nat)) : State :=
  (linesOfAll ps).foldl (fun s l => loadNoted s (l * 128)) s

/-- Poison that a load of the current team meets: a body reads past its L1. -/
def loadPoison (s : State) (loc n : Nat) : Bool :=
  if inBody s.team || ordered s.team then poisonedIn s loc n else poisonSeen s (placeKey s.team.place) loc n

/-- Results of a producer that has issued. -/
def produceAll (t : Team) (vs : List (Dest × Word)) (poison : Bool) : Team :=
  vs.foldl (fun t x => produce t x.1 (.values [(0, x.2)]) poison) t

def execLd (o : MemOps) (s : State) : Host.Outcome State Fault Refusal :=
  issue (.ld o) s fun s =>
    let n := msizeBytes o.size
    scalarAccess s (effAddr s.team o.a o.off) n .rd fun s loc =>
      retireWith (loadNoted s loc) fun t =>
        produceAll t (loadVals s o loc) (loadPoison s loc n)

/-- The bytes that a store sends: s[d], and s[d + 1] with .p. -/
def storeBytes (t : Team) (o : MemOps) : List Byte :=
  match o.size with
  | .p => bytesOfNat 8 (sget t o.d).toNat ++ bytesOfNat 8 (sget t (BitVec.ofNat 6 (o.d.toNat + 1))).toNat
  | z => bytesOfNat (msizeBytes z) (sget t o.d).toNat

def execSt (o : MemOps) (s : State) : Host.Outcome State Fault Refusal :=
  issue (.st o) s fun s =>
    scalarAccess s (effAddr s.team o.a o.off) (msizeBytes o.size) .wr fun s loc =>
      relThen s (MOrder.relScope o.ord) fun s1 => .retire (storeTeam s1 loc (storeBytes s.team o))

/-! ### Lane accesses (R245-R247, R397) -/

/-- What a lane asks for: its pieces (address, bytes), or its address when it breaks the stack limit (R83). -/
structure LanePlan where
  past : Bool := false
  pieces : List (Word × Nat)
  deriving DecidableEq, Repr

/-- What the checks of one lane find. -/
inductive LaneChk where
  | ok (locs : List (Nat × Nat))
  | fault (cause : Byte) (va : Word)
  | hold (w : WaitOn)
  deriving DecidableEq, Repr

def checkPieces (f : Word → Nat → Acc) : List (Word × Nat) → LaneChk
  | [] => .ok []
  | (va, n) :: rest =>
    match f va n with
    | .fault c => .fault c va
    | .hold w => .hold w
    | .ok loc =>
      match checkPieces f rest with
      | .ok ls => .ok ((loc, n) :: ls)
      | r => r

def checkLane (f : Word → Nat → Acc) (p : LanePlan) : LaneChk :=
  if p.past then .fault 0x14 ((p.pieces.map (·.1)).headD 0) else checkPieces f p.pieces

/-- What the checks of a vector access find: the lanes before the first lane-word that cannot go on, with their places,
and why that one cannot. -/
structure Scan where
  done : List (Nat × List (Nat × Nat)) := []
  /-- (lane-word, lane, cause, address). -/
  stop : Option (Nat × Nat × Byte × Word) := none
  hold : Option WaitOn := none
  deriving DecidableEq, Repr

/-- The lanes of one lane-word, lowest first. -/
def scanWord (f : Word → Nat → Acc) (plan : Nat → LanePlan) (q : Nat) : List Nat → Scan
  | [] => {}
  | l :: rest =>
    match checkLane f (plan l) with
    | .fault c va => { stop := some (q, l, c, va) }
    | .hold w => { hold := some w }
    | .ok locs => let r := scanWord f plan q rest; { r with done := (l, locs) :: r.done }

/-- Lane-words in increasing q. A lane-word that faults or waits performs none of its lanes. -/
def scanWords (f : Word → Nat → Acc) (plan : Nat → LanePlan) (lanes : List Nat) : List Nat → Scan
  | [] => {}
  | q :: qs =>
    let r := scanWord f plan q (lanes.filter fun l => l / 32 == q)
    if r.stop.isSome || r.hold.isSome then { r with done := [] }
    else
      let r2 := scanWords f plan lanes qs
      { r2 with done := r.done ++ r2.done }

def scanLanes (f : Word → Nat → Acc) (plan : Nat → LanePlan) (t : Team) (lanes : List Nat) : Scan :=
  scanWords f plan lanes (List.range (t.lanes / 32))

/-- The lanes that a vector access is still to do. -/
def lanesLeft (t : Team) (k : KReg) : List Nat := (activeLanes t k).filter fun l => startWord t ≤ l / 32

/-- The stop of a vector access. -/
def scanStop (t : Team) (acc : Access) (x : Nat × Nat × Byte × Word) : Stop :=
  accStop t x.2.2.1 acc x.2.2.2 x.2.1 (pixAt x.1)

/-- Checks of an address as such (STR, IX). -/
def plainAcc (s : State) (acc : Access) (va : Word) (n : Nat) : Acc := access s va n n acc

/-- A private address: always translated (R83, R422). -/
def privAcc (s : State) (acc : Access) (va : Word) (n : Nat) : Acc :=
  if va.toNat / 2 ^ 52 != 0 then .fault 0x11
  else
    match translate s s.team.part s.team.asid va.toNat acc with
    | .error c => .fault c
    | .ok loc => access.reach s va n acc loc

def planStr (t : Team) (o : StrOps) (l : Nat) : LanePlan :=
  { pieces := [(effAddr t o.a o.off + BitVec.ofInt 64 ((l : Int) * (sget t o.b.r).toInt), widthBytes o.es)] }

def planIx (t : Team) (o : IxOps) (l : Nat) : LanePlan :=
  { pieces := [(effAddr t o.a o.off + vget t l o.c.r, widthBytes o.es)] }

/-- The word index e of R246, exactly. -/
def privWord (t : Team) (o : PrvOps) (l : Nat) : Int :=
  ((sget t o.a.r).toNat : Int) + (match o.off with
    | some x => x.toInt
    | none => 0) + (match o.c with
    | some c => ((vget t l c.r).toNat % 2 ^ 32 : Nat)
    | none => 0)

/-- The address of word e of a lane (R83). -/
def privAddr (t : Team) (l : Nat) (e : Int) : Word :=
  BitVec.ofInt 64 ((t.prvbase.toNat : Int) + ((l / 32 : Nat) * (t.stklim : Int) + e) * 128 + (l % 32 : Nat) * 4)

def planPrv (t : Team) (o : PrvOps) (l : Nat) : LanePlan :=
  let e := privWord t o l
  let last := if o.es = .d then e + 1 else e
  { past := e < 0 || (t.stklim : Int) ≤ last,
    pieces := if o.es = .d then [(privAddr t l e, 4), (privAddr t l (e + 1), 4)] else [(privAddr t l e, 4)] }

/-! ### VLD -/

/-- The bytes of a lane's pieces. -/
def pieceBytes (s : State) (locs : List (Nat × Nat)) : List Byte :=
  locs.flatMap fun x => teamBytes s s.team x.1 x.2

/-- Every distinct line that a vector access reads is noted. -/
def noteLines (s : State) (done : List (Nat × List (Nat × Nat))) : State :=
  (firstKeys (done.flatMap fun x => x.2.map fun y => y.1 / 128)).foldl
    (fun s l => loadNoted s (l * 128)) s
where
  /-- Keys without repeats, in order of first appearance. -/
  firstKeys : List Nat → List Nat
    | [] => []
    | k :: rest => k :: (firstKeys rest).filter fun j => j != k

/-- A vector load of elements of n bytes with the lane plans given. -/
def vectorLoad (i : Instr) (d : VReg) (k : KReg) (n : Nat) (sx : Bool) (acc : State → Word → Nat → Acc)
    (plan : Team → Nat → LanePlan) (s : State) : Host.Outcome State Fault Refusal :=
  issue i s fun s =>
    let t := s.team
    let lanes := lanesLeft t k
    let r := scanLanes (acc s) (plan t) t lanes
    match r.hold with
    | some w => .hold s w
    | none =>
      let s := settle s (r.done.flatMap (·.2))
      let vs := r.done.map fun x => (x.1, extBytes n sx (natOfBytes (pieceBytes s x.2)))
      let poison := r.done.any fun x => x.2.any fun y => loadPoison s y.1 y.2
      let s1 := noteLines s r.done
      match r.stop with
      | some x =>
        let t1 := writeDest s1.team (.vec d) vs
        .stop { s1 with team := if poison then markPoison t1 (.vec d) true else t1 } (scanStop t .rd x)
      | none => if lanes.isEmpty then .retire s else retireWith s1 fun t => produce t (.vec d) (.values vs) poison

def execVldStr (o : StrOps) (s : State) :=
  vectorLoad (.vldStr o) o.d o.k (widthBytes o.es) o.sx (fun s => plainAcc s .rd) (fun t => planStr t o) s
def execVldIx (o : IxOps) (s : State) :=
  vectorLoad (.vldIx o) o.d o.k (widthBytes o.es) o.sx (fun s => plainAcc s .rd) (fun t => planIx t o) s
def execVldPrv (o : PrvOps) (s : State) :=
  vectorLoad (.vldPrv o) o.d o.k (widthBytes o.es) o.sx (fun s => privAcc s .rd) (fun t => planPrv t o) s

/-! ### VST -/

/-- One lane's bytes sent to its pieces. -/
def lanePieces : List (Nat × Nat) → List Byte → List BufStore
  | [], _ => []
  | (loc, n) :: rest, bs => ⟨loc, bs.take n⟩ :: lanePieces rest (bs.drop n)

/-- The lanes' stores, in increasing lane (R247). -/
def storeLanes (s : State) (d : VReg) (n : Nat) (done : List (Nat × List (Nat × Nat))) : State :=
  storeAll s (done.flatMap fun x => lanePieces x.2 (bytesOfNat n (vget s.team x.1 d).toNat))

/-- A vector store of elements of n bytes. -/
def vectorStore (i : Instr) (d : VReg) (k : KReg) (n : Nat) (ord : MOrder) (acc : State → Word → Nat → Acc)
    (plan : Team → Nat → LanePlan) (s : State) : Host.Outcome State Fault Refusal :=
  issue i s fun s =>
    let t := s.team
    let r := scanLanes (acc s) (plan t) t (lanesLeft t k)
    match r.hold with
    | some w => .hold s w
    | none =>
      relThen (settle s (r.done.flatMap (·.2))) (MOrder.relScope ord) fun s0 =>
        let s1 := storeLanes s0 d n r.done
        match r.stop with
        | some x => .stop s1 (scanStop t .wr x)
        | none => .retire s1

def execVstStr (o : StrOps) (s : State) :=
  vectorStore (.vstStr o) o.d o.k (widthBytes o.es) o.ord (fun s => plainAcc s .wr) (fun t => planStr t o) s
def execVstIx (o : IxOps) (s : State) :=
  vectorStore (.vstIx o) o.d o.k (widthBytes o.es) o.ord (fun s => plainAcc s .wr) (fun t => planIx t o) s
def execVstPrv (o : PrvOps) (s : State) :=
  vectorStore (.vstPrv o) o.d o.k (widthBytes o.es) .plain (fun s => privAcc s .wr) (fun t => planPrv t o) s

/-! ### Cache hints (R265) -/

/-- The location that a hint names: none where an access there would fault, when the hint does nothing. -/
def hintLoc (s : State) (a : SSrc) (off : Option (BitVec 32)) (acc : Access) : Option Nat :=
  match locate s s.team.who (effAddr s.team a off) 1 1 acc with
  | .ok loc => some loc
  | .error _ => none

/-- A hint at the location that it names. -/
def hintAt (i : Instr) (a : SSrc) (off : Option (BitVec 32)) (acc : Access) (f : State → Nat → State) (s : State) :
    Host.Outcome State Fault Refusal :=
  issue i s fun s =>
    match hintLoc s a off acc with
    | some loc => .retire (f s loc)
    | none => .retire s

/-- The core's dirty bytes of a line are performed, where nothing holds them. -/
def writeBack (s : State) (loc : Nat) : State :=
  if writeBackHeld s (placeKey s.team.place) loc then s else flushLine s (placeKey s.team.place) (loc / 128)

/-- A line leaves one L1; dirty bytes that are held stay in it. -/
def leaveL1 (s : State) (k line : Nat) : State :=
  if s.dirty.any fun x => x.1 / 2 ^ 56 == k && x.1 % 2 ^ 56 / 128 == line then s
  else { s with l1 := mapSet [] s.l1 k ((l1Of s k).filter fun c => c.line != line) }

/-- PF.L1: the line is fetched into L1. -/
def execPfL1 (a : SSrc) (off : Option (BitVec 32)) (s : State) :=
  hintAt (.pfL1 a off) a off .rd (fun s loc => noteRead s s.team.who loc) s
/-- PF.L2: the line is fetched into L2. -/
def execPfL2 (a : SSrc) (off : Option (BitVec 32)) (s : State) :=
  hintAt (.pfL2 a off) a off .rd (fun s loc => readL2 s s.team.place.die.toNat s.team.asid loc) s
/-- CWB: the line's dirty bytes are written back. -/
def execCwb (a : SSrc) (off : Option (BitVec 32)) (s : State) := hintAt (.cwb a off) a off .none writeBack s
/-- CINV: the line's dirty bytes are written back, and the L1 drops it. -/
def execCinv (a : SSrc) (off : Option (BitVec 32)) (s : State) :=
  hintAt (.cinv a off) a off .none (fun s loc => leaveL1 (writeBack s loc) (placeKey s.team.place) (loc / 128)) s

end Sys2Proof.Machine
end

