-- ==== Sys2Proof/Machine/Sync.lean ====
section
/-! DEFINITION. LDFE, WAITC, barriers, queues and dispensers (spec/11 R248, R253-R264; spec/26 R434-R437). -/

namespace Sys2Proof.Machine

/-! ### Requests that hold their team -/

/-- The scalar registers that a reply fills are empty until it comes (R54). -/
def markAll (t : Team) (ds : List SReg) (e : Bool) : Team := ds.foldl (fun t d => markEmpty t (.scal d) e) t

/-- The instruction has made its request: `r` where a service team or a quantum end is to perform it. -/
def asking (s : State) (ds : List SReg) (r : Option SvcReq) : State :=
  s.upd fun t => { markAll t ds true with asked := true, request := r }

/-- The reply to a request: the failure found there (R426), or what follows. -/
def answered (s : State) (hva : Word) (ds : List SReg) (rep : SvcReply) (k : State → SvcReply → Eff) : Eff :=
  let s1 := s.upd fun t => { markAll t ds false with asked := false, request := none, reply := none }
  match rep.err with
  | some (c, code, kind, a) =>
    .stop s1 { cause := c, pc := s.team.pc, kind := kind, code := code, faddr := a.getD hva }
  | none => k s1 rep

/-- A service team performs the request, or keeps its team waiting. -/
def perform (s : State) (w : WaitOn) (hva : Word) (ds : List SReg) (r : SvcReq) (k : State → SvcReply → Eff) : Eff :=
  let s1 := drain s
  match performRequest s1 s1.team r with
  | .wait s2 => .hold s2 w
  | .reply s2 rep => answered s2 hva ds rep k

/-- A request is made, which a quantum end performs in an ordered launch (R370). -/
def askFor (s : State) (w : WaitOn) (hva : Word) (ds : List SReg) (r : SvcReq) (k : State → SvcReply → Eff) : Eff :=
  let s1 := asking s ds (some r)
  if ordered s.team then .hold s1 .quantum else perform s1 w hva ds r k

/-- A request to a bank, which the team awaits in the bank's order of arrival (R82, R255). -/
def askBank (s : State) (w : WaitOn) (hva : Word) (ds : List SReg) (r : BankReq) (k : State → SvcReply → Eff) : Eff :=
  let s1 := atBank (asking s ds none) r
  match s1.team.reply with
  | some rep => answered s1 hva ds rep k
  | none => .hold s1 w

/-- The instruction goes on with its reply, waits for it, or begins. -/
def withReply (s : State) (w : WaitOn) (hva : Word) (ds : List SReg) (k : State → SvcReply → Eff) (first : State → Eff) : Eff :=
  match s.team.reply with
  | some rep => answered s hva ds rep k
  | none =>
    if !s.team.asked then first s
    else if ordered s.team then .hold s .quantum
    else
      match s.team.request with
      | some r => perform s w hva ds r k
      | none => .hold s w

/-- A request to the service team that owns a location takes an entry of the partition's quota (R85, R325, R326). A quantum end
performs an ordered launch's requests one after another, each with an entry of its own, so that only a quota of 0 holds them. -/
def askService (s : State) (w : WaitOn) (hva : Word) (ds : List SReg) (loc : Nat) (r : SvcReq) (k : State → SvcReply → Eff) : Eff :=
  let q := quota s s.team.part 3
  if q = 0 then .hold (throttleTeam s s.team 3) .resource
  else
    askFor (if !ordered s.team && q ≤ entriesAt s (ownerCluster loc) s.team.part then throttleTeam s s.team 3 else s) w hva ds r k
where
  entriesAt (s : State) (cl : Nat) (p : BitVec 4) : Nat :=
    (s.service.filter fun e => e.cluster == cl && e.part == p).length

/-! ### LDFE (R248) -/

def ldfeVals (o : LdfeOps) (rep : SvcReply) : List (SReg × Word) :=
  let v := fun i => rep.vals.getD i 0
  match o.size with
  | .p => [(o.d, v 0), (BitVec.ofNat 6 (o.d.toNat + 1), v 1)]
  | z => [(o.d, extBytes (msizeBytes z) o.sx (v 0).toNat)]

/-- Values written to scalar registers, with their poison (R445). -/
def landVals (t : Team) (vs : List (SReg × Word)) (poison : Bool) : Team :=
  vs.foldl (fun t x => markPoison (sset t x.1 x.2) (.scal x.1) poison) t

def ldfeWith (i : Instr) (o : LdfeOps) (clear : Bool) (s : State) : Host.Outcome State Fault Refusal :=
  issue i s fun s =>
    let va := sget s.team o.a.r
    let n := msizeBytes o.size
    let ds := (ldfeVals o {}).map (·.1)
    let finish := fun (s : State) (rep : SvcReply) => retireWith s fun t => landVals t (ldfeVals o rep) rep.poison
    withReply s .granule va ds finish fun s =>
      match access s va n n .rd with
      | .fault c => .stop s (accStop s.team c .rd va 0 0)
      | .hold w => .hold s w
      | .ok loc =>
        if ordered s.team then askFor s .quantum va ds (.ldfe loc n clear) finish
        else askBank (settle s [(loc, n)]) .granule va ds (.ldfe loc n clear s.team.place) finish

def execLdfeK (o : LdfeOps) (s : State) := ldfeWith (.ldfeK o) o false s
def execLdfeC (o : LdfeOps) (s : State) := ldfeWith (.ldfeC o) o true s

/-! ### WAITC (R253, R435) -/

/-- The operations of a class that a team has outstanding, oldest first. -/
def opsOf (s : State) (t : Team) (c : EClass) : List EngOp :=
  s.engines.filter fun e => e.counted && e.place == t.place && e.launch == t.launch && decide (e.cls = c)

/-- A paused operation that has been reported starts again (R435). -/
def restartOps (s : State) (c : EClass) : State :=
  { s with engines := s.engines.map fun e =>
      if e.counted && e.place == s.team.place && e.launch == s.team.launch && decide (e.cls = c) then
        match e.state with
        | .paused _ _ _ true => { e with state := .running }
        | _ => e
      else e }

def setOp (s : State) (id : Nat) (f : EngOp → EngOp) : State :=
  { s with engines := s.engines.map fun e => if e.id = id then f e else e }

/-- What the WAITC reports of the first operation of a list that is paused or wrong (R435, R437, R445). -/
def reportOp (s : State) : List EngOp → Option Eff
  | [] => none
  | o :: rest =>
    let st := fun (c : Byte) (code : Nat) (a : Word) =>
      ({ cause := c, pc := s.team.pc, kind := 4, code := code, faddr := a } : Stop)
    match o.state with
    | .poisoned wr => some (.done (haltTeam (retireNow s o) s.team.place (st 0x30 (0x50 + if wr then 256 else 0) o.desc)))
    | .paused c _ wr false =>
      let x := st 0x30 (c.toNat + if wr then 256 else 0) o.desc
      some (.stop (setOp s o.id fun e => { e with state := .paused c 0 wr true }) x)
    | .badDesc => some (.stop (retireNow s o) (st 0x31 0 o.desc))
    | .rangeFault a => some (.stop (retireNow s o) { st 0x41 0 a with kind := 1 })
    | _ => reportOp s rest

def execWaitc (c : EClass) (n : BitVec 6) (s : State) : Host.Outcome State Fault Refusal :=
  issue (.waitc c n) s fun s =>
    let s1 := restartOps s c
    match reportOp s1 (opsOf s1 s1.team c) with
    | some e => e
    | none => if cntOf s1.team c ≤ n.toNat then .retire s1 else .hold s1 (waitKind s.team .counter)

/-! ### Barriers (R254-R257) -/

/-- The object of a BAR instruction, 32-aligned (R256, R422, R423). DEDUCED, log 24. -/
def barObject (s : State) (va : Word) (acc : Access) (k : Nat → Eff) : Eff :=
  let t := s.team
  match objectAt s va with
  | some loc =>
    if va.toNat % 32 != 0 then .stop s { cause := 0x15, pc := t.pc, kind := acc.kind, faddr := va }
    else if heldAccess s t.who acc loc then .hold s .resource
    else k loc
  | none => .stop s { cause := 0x23, pc := t.pc, code := 0x21, faddr := va }

def execBarInit (x : Bool) (a b c : SSrc) (s : State) : Host.Outcome State Fault Refusal :=
  issue (.barInit x a b c) s fun s =>
    let va := sget s.team a.r
    barObject s va .wr fun obj =>
      let expa := fld (sget s.team b.r) 15 0
      let defb := fld (sget s.team c.r) 31 0
      if expa = 0 then .stop s { cause := 0x23, pc := s.team.pc, code := 0x22, faddr := va }
      else if ordered s.team then retireWith s fun t => { t with obuf := t.obuf ++ [.barInit obj expa defb x] }
      else relThen s .block fun s1 => .retire (initObj s1 obj expa defb x)

/-- An arrival: the phase arrived at and CC.L. -/
def arriveWith (i : Instr) (cross : Bool) (d : SReg) (a : SSrc) (s : State) : Host.Outcome State Fault Refusal :=
  issue i s fun s =>
    let va := sget s.team a.r
    let finish := fun (s : State) (rep : SvcReply) =>
      retireWith s fun t => setL (sset t d (rep.vals.getD 0 0)) rep.full
    withReply s .arrival va [] finish fun s =>
      barObject s va .wr fun obj =>
        if ordered s.team then
          .hold ((asking s [] none).upd fun t => { t with arrival := some ⟨obj, cross, none⟩ }) .quantum
        else relThen s .block fun s1 => askBank s1 .arrival va [] (.arrive obj cross s.team.place) finish

def execBarArr (d : SReg) (a : SSrc) (s : State) := arriveWith (.barArr d a) false d a s
def execBarArrx (d : SReg) (a : SSrc) (s : State) := arriveWith (.barArrx d a) true d a s

/-- The phase that a BAR.WAIT names. -/
def barPhase (t : Team) : BarPhase → Nat
  | .reg b => fld (sget t b.r) 31 0
  | .imm p => p.toNat

def execBarWait (a : SSrc) (p : BarPhase) (s : State) : Host.Outcome State Fault Refusal :=
  issue (.barWait a p) s fun s =>
    let va := sget s.team a.r
    let finish := fun (s : State) (_ : SvcReply) => Eff.retire s
    withReply s .barrier va [] finish fun s =>
      barObject s va .rd fun obj =>
        if ordered s.team then (if phaseDone s obj (barPhase s.team p) then .retire s else .hold s .quantum)
        else askBank s .barrier va [] (.await obj (barPhase s.team p) s.team.place) finish

def execBarExpb (a b : SSrc) (s : State) : Host.Outcome State Fault Refusal :=
  issue (.barExpb a b) s fun s =>
    barObject s (sget s.team a.r) .wr fun obj =>
      let n := fld (sget s.team b.r) 31 0
      if ordered s.team then retireWith s fun t => { t with obuf := t.obuf ++ [.barExpb obj n] }
      else .retire (atBank s (.expb obj n))

/-! ### Queues and dispensers (R261, R263) -/

/-- The header of a queue or dispenser: 32-aligned, its words read and written by the service team. One in CXL or peer
memory is served there as in device memory: DESIGN CHOICE, log 78; one in host memory is an unmapped access, log 24. -/
def headerAt (s : State) (va : Word) (k : Nat → Eff) : Eff :=
  match access s va 32 32 .atomic with
  | .fault c => .stop s (accStop s.team c .atomic va 0 0)
  | .hold w => .hold s w
  | .ok loc => if targetOf loc = .host then .stop s (accStop s.team 0x12 .atomic va 0 0) else k loc

/-- CC.F, and the registers that take the values returned. -/
def queueDone (ds : List SReg) (s : State) (rep : SvcReply) : Eff :=
  retireWith s fun t => setF ((ds.zip rep.vals).foldl (fun t x => sset t x.1 x.2) t) rep.full

def execQpush (a b : SSrc) (s : State) : Host.Outcome State Fault Refusal :=
  issue (.qpush a b) s fun s =>
    let va := sget s.team a.r
    withReply s .resource va [] (queueDone []) fun s =>
      headerAt s va fun hdr =>
        relThen s .dev fun s1 => askService s1 .resource va [] hdr (.qpush hdr (sget s.team b.r)) (queueDone [])

def execQpop (d : SReg) (a : SSrc) (s : State) : Host.Outcome State Fault Refusal :=
  issue (.qpop d a) s fun s =>
    let va := sget s.team a.r
    withReply s .resource va [d] (queueDone [d]) fun s =>
      headerAt s va fun hdr => askService s .resource va [d] hdr (.qpop hdr) (queueDone [d])

def execTqget (d : SReg) (q : BitVec 3) (s : State) : Host.Outcome State Fault Refusal :=
  issue (.tqget d q) s fun s =>
    let va := tqHeader s q
    let ds := [d, BitVec.ofNat 6 (d.toNat + 1)]
    withReply s .resource va ds (queueDone ds) fun s =>
      headerAt s va fun hdr => askService s .resource va ds hdr (.tqget hdr) (queueDone ds)

/-- A dispenser that the launch does not name (R423 0x029, R426). -/
def dispenser (s : State) (q : BitVec 3) (k : Word → Eff) : Eff :=
  if tqHeader s q = 0 then .stop s { cause := 0x23, pc := s.team.pc, code := 0x29 } else k (tqHeader s q)

def execTqadd (q : BitVec 3) (a b : SSrc) (s : State) : Host.Outcome State Fault Refusal :=
  issue (.tqadd q a b) s fun s =>
    dispenser s q fun va =>
      withReply s .resource va [] (queueDone []) fun s =>
        headerAt s va fun hdr =>
          relThen s .dev fun s1 =>
            askService s1 .resource va [] hdr (.tqadd hdr (sget s.team a.r) (sget s.team b.r)) (queueDone [])

def execTqfill (d : SReg) (q : BitVec 3) (a b c : SSrc) (s : State) : Host.Outcome State Fault Refusal :=
  issue (.tqfill d q a b c) s fun s =>
    dispenser s q fun va =>
      withReply s .resource va [] (queueDone [d]) fun s =>
        headerAt s va fun hdr =>
          let r := fun x : SSrc => sget s.team x.r
          relThen s .dev fun s1 =>
            askService s1 .resource va [] hdr (.tqfill hdr (r a) (r b).toNat (r c).toNat) (queueDone [d])

end Sys2Proof.Machine
end

