-- ==== Sys2Proof/Machine/EngineIssue.lean ====
section
/-! DEFINITION. ENG: the descriptors of spec/12 R279-R283 and the issue of an engine operation (spec/25 R422, spec/26 R440,
spec/03 R65). -/

namespace Sys2Proof.Machine

/-! ### Descriptors -/

/-- The dimensions of a CPY descriptor. -/
def parseDims (bs : List Byte) (n : Nat) : List (Nat × Int × Int) :=
  (List.range n).map fun j => (natAt bs (64 + 24 * j) 4, intAt bs (72 + 24 * j), intAt bs (80 + 24 * j))

/-- The die of a scratchpad address, through either window, as the issuing party sees it. -/
def scratchDie (s : State) (w : Who) (va : Nat) : Option Nat :=
  if localBase ≤ va && va < localBase + 2 ^ 21 then
    match decodeWindow s w va 1 .rd with
    | some (.ok loc) => some (scratchCore loc / 64)
    | _ => some w.place.die.toNat
  else if apertureBase ≤ va && va < apertureBase + 2 ^ 29 then some ((va - apertureBase) / 2 ^ 26)
  else none

/-- The twin bridge of a die's pair is down (R447). -/
def bridgeDown (s : State) (die : Nat) : Bool := s.pkstat.bdown.getLsbD (die / 2)

/-- PATH 1 is a descriptor error (R280, R447): DST names scratchpad of a die that is neither the issuing one nor its twin,
or of the twin with the bridge down. -/
def pathBad (s : State) (w : Who) (dst : Nat) : Bool :=
  let own := w.place.die.toNat
  match scratchDie s w dst with
  | none => false
  | some d => d != own && (decide (8 ≤ own) || d / 2 != own / 2 || bridgeDown s own)

/-- Number of bytes that a CPY descriptor has, from its NDIM. -/
def cpySize (ndim : Nat) : Nat := 64 + 24 * ndim

/-- CPY (R280): `path` as the descriptor gives it. -/
def parseCpy (s : State) (w : Who) (bs : List Byte) : Option EngWork :=
  let ndim := natAt bs 1 1
  let path := natAt bs 2 1
  let run := natAt bs 8 4
  let dst := natAt bs 24 8
  let dims := parseDims bs ndim
  if natAt bs 0 1 == 0 && decide (1 ≤ ndim) && decide (ndim ≤ 16) && decide (path ≤ 2) && zeroBytes bs 3 8 && run != 0 &&
      zeroBytes bs 12 16 && zeroBytes bs 32 64 && (dims.all fun d => d.1 != 0) &&
      ((List.range ndim).all fun j => zeroBytes bs (68 + 24 * j) (72 + 24 * j)) && !(path == 1 && pathBad s w dst) then
    some (.cpy run (natAt bs 16 8) dst path dims)
  else none

/-- GATH (R281). -/
def parseGath (bs : List Byte) : Option EngWork :=
  let dir := natAt bs 1 1
  let rowb := natAt bs 12 4
  if natAt bs 0 1 == 1 && decide (dir ≤ 1) && zeroBytes bs 2 8 && decide (1 ≤ rowb) && decide (rowb ≤ 65536) &&
      zeroBytes bs 56 64 then
    some (.gath (dir == 1) (natAt bs 8 4) rowb (natAt bs 16 8) (natAt bs 24 8) (natAt bs 32 8) (intAt bs 40) (intAt bs 48))
  else none

/-- SORTC (R282). -/
def parseSortc (bs : List Byte) : Option EngWork :=
  let kw := natAt bs 1 1
  let bm := natAt bs 2 1
  let nb := natAt bs 12 4
  if natAt bs 0 1 == 2 && (kw == 1 || kw == 2 || kw == 4 || kw == 8) && decide (bm ≤ 1) && zeroBytes bs 3 8 &&
      decide (1 ≤ nb) && decide (nb ≤ 1024) && zeroBytes bs 56 64 then
    some (.sortc kw (bm == 1) (natAt bs 8 4) nb (natAt bs 16 8) (natAt bs 24 8) (natAt bs 32 8) (natAt bs 40 8)
      (natAt bs 48 8))
  else none

/-- The element types of a collective. -/
def collType (c : Nat) : Option Fmt :=
  match c with
  | 4 => some .i32
  | 6 => some .i64
  | 13 => some .bf16
  | 14 => some .fp32
  | 15 => some .fp64
  | _ => none

/-- COLL (R283): ME and NP agree with SET, and the issuing party is a member of it. -/
def parseColl (die : Nat) (bs : List Byte) : Option EngWork :=
  let op := natAt bs 1 1
  let rop := natAt bs 3 1
  let setk := natAt bs 4 1
  let me := natAt bs 5 1
  let np := natAt bs 6 1
  let root := natAt bs 7 1
  let set := natAt bs 8 2
  let own := if setk = 1 then 12 else die
  let members := bitsOf set
  match collType (natAt bs 2 1) with
  | none => none
  | some dt =>
    if natAt bs 0 1 == 3 && decide (op ≤ 3) && decide (rop ≤ 2) && decide (setk ≤ 1) && zeroBytes bs 10 12 &&
        zeroBytes bs 40 64 && decide (2 ≤ np) && decide (np ≤ 13) && members.length == np &&
        (members.all fun b => decide (b < if setk = 1 then 13 else 8)) && members[me]? == some own &&
        (decide (2 ≤ op) || decide (root < np)) then
      some (.coll op dt rop (setk == 1) me np root set (natAt bs 12 4) (natAt bs 16 8) (natAt bs 24 8) (natAt bs 32 8))
    else none

/-! ### The CPY path (R280, R341) -/

/-- The die that holds the byte at an address, if it can be located. -/
def byteDie (s : State) (w : Who) (acc : Access) (va : Word) : Option Nat :=
  match locate s w va 1 1 acc with
  | .ok loc => some (homeDie loc)
  | .error _ => none

/-- Some byte of n from an address lies on a die; a granule lies on one die. -/
def spanOnDie (s : State) (w : Who) (acc : Access) (die : Nat) (va : Word) (n : Nat) : Bool :=
  (granuleStarts va.toNat n).any fun a => byteDie s w acc (BitVec.ofNat 64 a) == some die

/-- A CPY has traffic with a die: some byte that it reads or writes lies there. -/
def copyMeets (s : State) (w : Who) (die run src dst : Nat) (dims : List (Nat × Int × Int)) : Bool :=
  (List.range (cpyRuns dims)).any fun u =>
    let (a, b) := runOffsets dims u
    spanOnDie s w .rd die (addrPlus src a) run || spanOnDie s w .wr die (addrPlus dst b) run

/-- The path of a CPY: with PATH 0 and traffic with the twin the team's decider chooses; 1 the bridge, 2 the hall. -/
def choosePath (s : State) (work : EngWork) : EngWork × State :=
  match work with
  | .cpy run src dst 0 dims =>
    let t := s.team
    let own := t.place.die.toNat
    if 8 ≤ own || !copyMeets s t.who (twinDie own) run src dst dims then (.cpy run src dst 2 dims, s)
    else
      let e := effRate s t s.rate.toNat (rateoSeen t)
      let n := run * cpyRuns dims
      let cost := fun i => let (a, b) := priced i 1 1 e; (a * n, b * 65536)
      let (second, d) := decideTwo t.cpyPath s.time (cost 4) (cost 5)
      (.cpy run src dst (if second || bridgeDown s own then 2 else 1) dims, { s with team := { t with cpyPath := some d } })
  | w => (w, s)

/-! ### Issue -/

/-- What stands in for the work of a descriptor that breaks its table: no unit of it is ever run. -/
def noWork : EngWork := .gath false 0 1 0 0 0 0 0

/-- The operation as issued: none of work is a descriptor error. -/
def newOp (s : State) (cls : EClass) (counted : Bool) (desc : Word) (bar : Option Nat) (work : Option EngWork) : EngOp :=
  let t := s.team
  let o : EngOp :=
    { id := s.serial, cls := cls, counted := counted, work := work.getD noWork, place := t.place, launch := t.launch,
      blk := t.blk, part := t.part, asid := t.asid, mode := modeSeen t, desc := desc, bar := bar,
      started := !ordered t }
  match work with
  | none => { o with state := .badDesc }
  | some w => { o with state := if ordered t then .running else if needsLeave w t.place.die.toNat then .leave else runState o }

/-- An operation joins the engines, its class's count rises, and it asks leave where it must (R98, R279). In an ordered
launch it starts at the quantum end (R375). -/
def addOp (s : State) (o : EngOp) : State :=
  let s1 : State := { bumpSerial s with engines := s.engines ++ [o] }
  let s2 : State := { s1 with team :=
    let t := if o.counted then setCnt s1.team o.cls (cntOf s1.team o.cls + 1) else s1.team
    if !o.started && !(o.state == .badDesc) then { t with obuf := t.obuf ++ [.eng o.id] } else t }
  if o.state == .leave then askLeave s2 o.place.die.toNat (.op o.id) else s2

/-- The operation that a started ordered launch's quantum end starts: it asks leave or runs, and takes its place in the
order of issue (R375). -/
def startOp (s : State) (id : Nat) : State :=
  match opAt s id with
  | none => s
  | some o =>
    let d := o.place.die.toNat
    let lv := needsLeave o.work d
    let o1 : EngOp := { o with started := true, state := if lv then .leave else runState o }
    let s1 : State := { s with engines := (s.engines.filter fun e => e.id != id) ++ [o1] }
    if lv then askLeave s1 d (.op id) else s1

/-- A stop of an address that an engine instruction names (R422). -/
def engStop (s : State) (c : Byte) (va : Word) : Eff :=
  .stop s { cause := c, pc := s.team.pc, kind := 4, faddr := va }

/-- The pieces of a descriptor, the first of 64 bytes, read at issue. -/
def descPieces (s : State) (va : Word) (n : Nat) : LaneChk :=
  checkPieces (fun a m => access s a m (if m = 64 then 64 else 8) .rd)
    ((List.range ((n + 63) / 64)).map fun i => (va + BitVec.ofNat 64 (64 * i), min 64 (n - 64 * i)))

/-- n bytes of a descriptor, as the team's earlier accesses left them. -/
def withDesc (s : State) (va : Word) (n : Nat) (k : State → List Byte → Eff) : Eff :=
  match descPieces s va n with
  | .fault c a => engStop s c a
  | .hold w => .hold s w
  | .ok ps =>
    let s1 := settle s ps
    if ps.any fun x => poisonedIn s1 x.1 x.2 then .stop s { cause := 0x50, pc := s.team.pc, code := 4 }
    else k (notePieces s1 ps) (pieceBytes s1 ps)

/-- The barrier object of an ENG: none with s0 or an address of 0; else it lies in scratchpad, 32-aligned (R422, R440). -/
def withBar (s : State) (bva : Word) (k : Option Nat → Eff) : Eff :=
  if bva = 0 then k none
  else if bva.toNat / 2 ^ 52 != 0 then engStop s 0x11 bva
  else if !inScratchWindow bva.toNat then engStop s 0x12 bva
  else
    match decodeWindow s s.team.who bva.toNat 32 .wr with
    | some (.ok loc) =>
      if bva.toNat % 32 != 0 then engStop s 0x15 bva else if heldAccess s s.team.who .wr loc then .hold s .resource else k (some loc)
    | _ => engStop s 0x12 bva

/-- A class at 63 holds the instruction; in an ordered launch it is blocked, as R369's first sentence says: DEDUCED, log 85.
ENG: `size` gives the descriptor's length from its first 64 bytes. -/
def engWith (i : Instr) (cls : EClass) (a b : SSrc) (size : List Byte → Nat) (parse : State → List Byte → Option EngWork)
    (s : State) : Host.Outcome State Fault Refusal :=
  issue i s fun s =>
    let va := sget s.team a.r
    if 63 ≤ cntOf s.team cls then .hold s (waitKind s.team .resource)
    else
      withDesc s va 64 fun s1 hd =>
        withDesc s1 va (size hd) fun s2 bs =>
          withBar s2 (sget s.team b.r) fun bar =>
            let s3 := release s2 .core
            match parse s3 bs with
            | none => .retire (addOp s3 (newOp s3 cls true va bar none))
            | some w =>
              let (w1, s4) := choosePath s3 w
              .retire (addOp s4 (newOp s4 cls true va bar (some w1)))

def execEngCpy (a b : SSrc) (s : State) :=
  engWith (.engCpy a b) .cpy a b (fun hd => let n := natAt hd 1 1; if 1 ≤ n && n ≤ 16 then cpySize n else 64)
    (fun s bs => parseCpy s s.team.who bs) s
def execEngGath (a b : SSrc) (s : State) := engWith (.engGath a b) .gth a b (fun _ => 64) (fun _ bs => parseGath bs) s
def execEngSortc (a b : SSrc) (s : State) := engWith (.engSortc a b) .gth a b (fun _ => 64) (fun _ bs => parseSortc bs) s
def execEngColl (a b : SSrc) (s : State) :=
  engWith (.engColl a b) .col a b (fun _ => 64) (fun s bs => parseColl s.team.place.die.toNat bs) s

end Sys2Proof.Machine
end

