-- ==== Sys2Proof/Machine/System.lean ====
section
/-! DEFINITION. The rate instructions, special registers, traps and returns, and the system-mode instructions (spec/12
R285-R289, spec/03 R59-R66, spec/24 R400-R407). -/

namespace Sys2Proof.Machine

/-! ### RATE (R285) -/

/-- RATE.GET: the next broadcast fills the register. -/
def rateGet (i : Instr) (d : SReg) (eff : Bool) (s : State) : Host.Outcome State Fault Refusal :=
  issue i s fun s => retireWith s fun t => produce t (.scal d) (.broadcast eff) false

def execRateGetB (d : SReg) (s : State) := rateGet (.rateGetB d) d false s
def execRateGetE (d : SReg) (s : State) := rateGet (.rateGetE d) d true s

/-- RATEO written as R62 states. -/
def setRateo (s : State) (v : BitVec 32) (t : Team) : Team := { t with rateo := clampRate (partOf s t.part) v }

def execRateSet (a : SSrc) (s : State) : Host.Outcome State Fault Refusal :=
  issue (.rateSet a) s fun s => retireWith s fun t => setRateo s ((sget t a.r).setWidth 32) t
def execRateClr (s : State) : Host.Outcome State Fault Refusal :=
  issue .rateClr s fun s => retireWith s fun t => setRateo s 0x00010000 t

/-! ### Special registers (R59, R60, R286) -/

/-- RATE (R60, R63). -/
def rateWord (s : State) : Nat := s.rate.toNat + s.seq.toNat * 2 ^ 32

/-- The value of a special register (R60). -/
def specialReg (s : State) (sel : Nat) : Word :=
  let t := s.team
  let n := fun x : Nat => BitVec.ofNat 64 x
  match sel with
  | 0 => t.pc
  | 1 => t.cc.setWidth 64
  | 2 => (shadowOf t).mode.setWidth 64
  | 3 => n (rateWord s)
  | 4 => (shadowOf t).rateo.setWidth 64
  | 5 => pixSeen t
  | 6 => (shadowOf t).cnt
  | 7 => (shadowOf t).fcont
  | 8 => (shadowOf t).fframe
  | 9 => t.teamId.setWidth 64
  | 10 => t.blk.setWidth 64
  | 11 => t.launch.setWidth 64
  | 12 => n t.lanes
  | 13 => t.place.core.setWidth 64
  | 14 => t.place.die.setWidth 64
  | 15 => n t.stklim
  | 16 => t.prvbase
  | 17 => n t.dstk.length
  | 18 => n t.lstk.length
  | 19 => n (shadowOf t).qnt
  | 20 => n s.time
  | _ => t.part.setWidth 64

def execGets (d : SReg) (sel : BitVec 6) (s : State) : Host.Outcome State Fault Refusal :=
  issue (.gets d sel) s fun s =>
    let s1 := if sel = 20 then readTime s else s
    retireScalar s1 d (specialReg s1 sel.toNat)

/-- The writable fields of a special register take those of a word; every other field is unchanged (R59, R60). -/
def setSpecial (s : State) (sel : Nat) (v : Word) (t : Team) : Team :=
  match sel with
  | 1 => { t with cc := v.setWidth 7 }
  | 2 => { t with mode := (v.setWidth 6 &&& 0x1F) ||| (t.mode &&& 0x20) }
  | 4 => setRateo s (v.setWidth 32) t
  | 7 => { t with fcont := setFld v 1 0 0 }
  | 8 => { t with fframe := setFld v 7 0 0 }
  | _ => t

def execSets (sel : BitVec 6) (a : SSrc) (s : State) : Host.Outcome State Fault Refusal :=
  issue (.sets sel a) s fun s => retireWith s fun t => setSpecial s sel.toNat (sget t a.r) t

/-! ### TRAP, SYSC, BKPT (R287, R312, R407) -/

def execTrap (code : BitVec 11) (s : State) : Host.Outcome State Fault Refusal :=
  issue (.trap code) s fun s => .stop s { cause := 0x01, pc := nextPc (.trap code) s, code := code.toNat }

/-- The token of a context's n-th SYSC: it names the context and the count. DESIGN CHOICE, log 30. -/
def syscToken (p : Place) (n : Nat) : Word := BitVec.ofNat 64 ((targetWord p).toNat + n % 2 ^ 32 * 2 ^ 32)

/-- s1 to s8 as bytes. -/
def syscData (t : Team) : List Byte :=
  (List.range 8).flatMap fun i => bytesOfNat 8 (sget t (BitVec.ofNat 6 (i + 1))).toNat

/-- SYSC: posted as a release at .sys once the ring has room, then the team waits for the reply, which has written s1 to
s4 when the instruction is looked at again. -/
def execSysc (code : BitVec 11) (s : State) : Host.Outcome State Fault Refusal :=
  issue (.sysc code) s fun s =>
    withReply s .ring 0 [] (fun s _ => .retire s) fun s =>
      let t := s.team
      let p := partOf s t.part
      if !ringOpen p then .hold s (waitKind t .ring)
      else
        let key := (targetWord t.place).toNat
        let n := mapGet 0 s.syscSeq key
        let tok := syscToken t.place n
        relThen s .sys fun s0 =>
          match postEntry s0 t.part (entryBytes 1 code.toNat (targetWord t.place) 0 tok (syscData t)) with
          | none => .stop s { cause := 0x12, pc := t.pc, kind := 1, faddr := ringSlot p }
          | some s1 =>
            .done { s1 with syscSeq := mapSet 0 s1.syscSeq key (n + 1),
                            team := { s1.team with status := .sysc tok, closed := s1.team.closed || ordered s1.team } }

/-- BKPT: with a debugger attached the team halts and is the last that stopped; else a NOP. -/
def execBkpt (code : BitVec 11) (s : State) : Host.Outcome State Fault Refusal :=
  issue (.bkpt code) s fun s =>
    let p := partOf s s.team.part
    if p.dbgAttach then
      .stop (setPart s s.team.part { p with dbgLast := (targetWord s.team.place).setWidth 32 })
        { cause := 0x02, pc := s.team.pc, code := code.toNat }
    else .retire s

/-! ### RFT, RESUME (R288, R404) -/

/-- The locations of a frame's four 256-byte pieces, or the first that fails. -/
def framePieces (s : State) (va : Word) : LaneChk :=
  checkPieces (fun a n => access s a n 256 .rd) ((List.range 4).map fun i => (va + BitVec.ofNat 64 (256 * i), 256))

/-- The parcel at an address begins an instruction that a stop may leave part-way (R397). -/
def stoppableAt (s : State) (a : Word) : Bool :=
  match fetchLine s s.team a with
  | .error _ => false
  | .ok l =>
    match l.starts 16 0 with
    | .error _ => false
    | .ok ks =>
      a.toNat % 4 == 0 && ks.contains (parcelOf a) &&
        match l.instr (parcelOf a) with
        | some (i, _) => i.stoppable
        | none => false

/-- The PC of a frame is the one that the hardware recorded there (R171). -/
def pcUnchanged (t : Team) (frame pc : Word) : Bool :=
  match t.setAsides.find? fun a => a.frame == frame with
  | some a => a.pc == pc
  | none => false

/-- What a frame's PC and PIX raise at the return (R404, R416, R423 0x00A). -/
def frameUse (s : State) (va : Word) (bs : List Byte) : Option Stop :=
  let pc := wordAt bs 8
  let pix := wordAt bs 16
  let bad := if pcUnchanged s.team va pc then none else badTarget s s.team pc
  match bad with
  | some c => some { cause := c, pc := s.team.pc, faddr := pc }
  | none =>
    if pix.getLsbD 63 && !(stoppableAt s pc && decide (fld pix 31 0 < s.team.lanes / 32)) then
      some { cause := 0x23, pc := s.team.pc, code := 0x0A, faddr := va }
    else none

/-- The return from a frame whose bytes are `bs`. DEDUCED, log 31. -/
def returnFrom (s : State) (va : Word) (bs : List Byte) : Eff :=
  match frameUse s va bs with
  | some x => .stop s x
  | none =>
    match awaitScalars s with
    | none => .hold s (stallKind s.team (scalarsDue s.team))
    | some s1 => .done { s1 with team := restoreFrame { retireTeam s1 s1.team with sPoison := 0 } bs }

/-- The frame's bytes, once its pieces pass the checks, and the state in which they have been read (R102). -/
def withFrame (s : State) (a : SSrc) (k : State → Word → List Byte → Eff) : Eff :=
  let va := sget s.team a.r
  match framePieces s va with
  | .fault c x => .stop s (accStop s.team c .rd x 0 0)
  | .hold w => .hold s w
  | .ok ps =>
    let s1 := settle s ps
    if ps.any fun x => poisonedIn s1 x.1 x.2 then .stop s { cause := 0x50, pc := s.team.pc, code := 4 }
    else k (notePieces s1 ps) va (pieceBytes s1 ps)

def execRft (a : SSrc) (s : State) : Host.Outcome State Fault Refusal :=
  issue (.rft a) s fun s => withFrame s a fun s va bs => returnFrom s va bs

def execResume (a : SSrc) (s : State) : Host.Outcome State Fault Refusal :=
  issue (.resume a) s fun s =>
    withFrame s a fun s va bs => if wordAt bs 0 = 0 then .hold s (waitKind s.team .done) else returnFrom s va bs

/-! ### System mode (R289) -/

/-- Illegal use 0x009. -/
def badName (s : State) : Eff := .stop s { cause := 0x23, pc := s.team.pc, code := 9 }

/-- The context that a target word names (R289). -/
def withTarget (s : State) (w : Word) (k : Place → Eff) : Eff := if nameOk s w then k (placeOfTarget w) else badName s

/-- Every access that used a cached translation has been performed, dirty bytes included (R75, R289). The model caches no
translation. DESIGN CHOICE, log 20. -/
def settleTranslations (s : State) : State := flushWhere (drain s) fun _ _ => true

/-- What a team has translated and not yet performed: stores of a quantum or a capsule, atomics, and a request to a service team for
a header or a record. -/
def teamTranslated (t : Team) : Bool :=
  !t.capBuf.isEmpty || (t.obuf.any fun r => match r with
    | .store _ | .atom _ => true
    | .eng _ | .barInit _ _ _ _ | .barExpb _ _ => false) ||
  (t.request.bind (reqLoc t)).any fun loc => targetOf loc != .scratch

/-- An access made through a translation of the ASID stands in a team's, an engine's or a launch's buffer, a write of the hall or a
dirty byte is held: a TLBINV waits (R75, R289). -/
def translationsHeld (s : State) (asid : Nat) : Bool :=
  ((everyTeam s).any fun t => t.asid.toNat == asid && teamTranslated t) ||
  (s.service.any fun e => serviceHalted s e.req.loc) ||
  (s.engines.any fun o => o.asid.toNat == asid && !o.pending.isEmpty) ||
  (s.levels.any fun l => l.asid.toNat == asid && !l.fadds.isEmpty) || !s.hallOut.isEmpty ||
  s.dirty.any fun x => writeBackHeld s (x.1 / 2 ^ 56) (x.1 % 2 ^ 56)

def tlbinvWith (i : Instr) (a : SSrc) (s : State) : Host.Outcome State Fault Refusal :=
  issue i s fun s =>
    let v := sget s.team a.r
    if !asidOk s v then badName s
    else if translationsHeld s (fld v 12 0) then .hold s .resource
    else .retire (settleTranslations s)

def execTlbinv (a b c : SSrc) (s : State) := tlbinvWith (.tlbinv a b c) a s
def execTlbinvAll (a : SSrc) (s : State) := tlbinvWith (.tlbinvAll a) a s

/-- PARK: done when the target has stopped, which a capsule request under way holds up (R299), and the PARKED write asked for
it has been performed (R300). -/
def execPark (a : SSrc) (s : State) : Host.Outcome State Fault Refusal :=
  issue (.park a) s fun s =>
    withTarget s (sget s.team a.r) fun p =>
      let s1 := parkTeam s p .sys
      if (teamAt s1 p).any capPending || parkPending s1 p then .hold s1 .resource else .retire s1

def execUnpark (a : SSrc) (s : State) : Host.Outcome State Fault Refusal :=
  issue (.unpark a) s fun s => withTarget s (sget s.team a.r) fun p => .retire (unparkTeam s p)

/-- The team of a target context, which must be stopped (R423 0x009). -/
def withStopped (s : State) (w : Word) (k : Place → Team → Eff) : Eff :=
  withTarget s w fun p =>
    match teamAt s p with
    | some t => if stopped t then k p t else badName s
    | none => badName s

/-- Bytes of a team's save area (R405). -/
def saveSize (t : Team) : Nat := 16384 + t.lanes * t.vregCount * 8

/-- The bytes of a save area. -/
def saveBytes (serial size : Nat) : List Byte := (List.range size).map (Config.saveByte serial)

/-- A save area of the issuing team; one that is not 4 KiB-aligned is a misaligned access (0x15): DESIGN CHOICE, log 70. -/
def withArea (s : State) (va : Word) (n : Nat) (acc : Access) (k : List (Nat × Nat) → Eff) : Eff :=
  if va.toNat / 2 ^ 52 = 0 && va.toNat % 4096 != 0 then .stop s (accStop s.team 0x15 acc va 0 0)
  else
    match locateSpan s s.team.who acc va n with
    | .error (c, x) => .stop s (accStop s.team c acc x 0 0)
    | .ok ps => if spanHeld s s.team.who acc ps then .hold s .resource else k ps

def execCtxsv (a b : SSrc) (s : State) : Host.Outcome State Fault Refusal :=
  issue (.ctxsv a b) s fun s =>
    withStopped s (sget s.team a.r) fun p t =>
      if parkPending s p then .hold s .resource
      else withArea s (sget s.team b.r) (saveSize t) .wr fun ps =>
        let s1 := drain s
        let n := s1.serial
        let sv := Saved.mk n (saveSize t) ((teamAt s1 p).getD t)
        let s2 := writePieces (flushPieces (bumpSerial s1) ps) s.team.part s.team.place ps (saveBytes n (saveSize t))
        .retire { s2 with saved := s2.saved ++ [sv] }

/-- The saved context whose bytes stand in the area: the latest, if any (the check word's test). DESIGN CHOICE, log 16. -/
def savedIn (s : State) (va : Word) : Option Saved :=
  s.saved.reverse.find? fun v =>
    match locateSpan s s.team.who .rd va v.size with
    | .ok ps => !piecesPoisoned s ps && readPieces s s.team.part ps == saveBytes v.serial v.size
    | .error _ => false

/-- A product of the array that had no leave when its context was saved has come since (R57). -/
def landProducts (t : Team) : Team :=
  { t with inflight := t.inflight.map fun f => match f.src with
      | .array _ vs => { f with src := .values vs }
      | _ => f }

/-- The context loaded into a row: its engine operations follow it, and CNT counts those still outstanding. PRVBASE stays that of
the context from which it was saved: DESIGN CHOICE, log 90. -/
def loadContext (s0 : State) (p : Place) (t : Team) : State :=
  let s := dropProducts s0 p
  let mine := fun e : EngOp => e.counted && e.place == t.place && e.launch == t.launch
  let n := fun c => (s.engines.filter fun e => mine e && decide (e.cls = c)).length
  let t1 := ([EClass.cpy, .mxa, .gth, .col]).foldl (fun t c => setCnt t c (n c)) t
  { mapTeam s p fun _ => { landProducts t1 with place := p } with
    engines := s.engines.map fun e => if mine e then { e with place := p } else e }

/-- CTXLD: the team becomes ready, unless it was saved halted (R403) or the row is parked for another reason, which stands. -/
def execCtxld (a b : SSrc) (s : State) : Host.Outcome State Fault Refusal :=
  issue (.ctxld a b) s fun s =>
    withStopped s (sget s.team a.r) fun p row =>
      withArea s (sget s.team b.r) 4096 .rd fun ps =>
        let s1 := flushPieces (notePieces (settle s ps) ps) ps
        match savedIn s1 (sget s.team b.r) with
        | none => retireWith s1 fun t => setZ t false
        | some v =>
          let s2 := loadContext s1 p { v.team with parks := (row.parks.filter fun r => r != .sys) ++ [.sys] }
          retireWith (releaseTeam s2 p .sys) fun t => setZ t true

end Sys2Proof.Machine
end

