-- ==== Sys2Proof/Machine/Commands.lean ====
section
/-! DEFINITION. The command processor (spec/14 R308-R327): how a command begins, waits and completes, and the commands that
act on queues, memory, rates, translations and system calls. -/

namespace Sys2Proof.Machine

/-! ### Queues and handles (R308, R309) -/

def queueOf (s : State) (p : BitVec 4) (q : Nat) : Queue := mapGet {} (partOf s p).queues q
def setQueue (s : State) (p : BitVec 4) (q : Nat) (x : Queue) : State :=
  let y := partOf s p
  setPart s p { y with queues := mapSet {} y.queues q x }

/-- The handle of the command that a queue takes at a HEAD. -/
def handleAt (q head : Nat) : Word := BitVec.ofNat 64 (q * 2 ^ 58 + head % 2 ^ 58)
def handleQueue (h : Word) : Nat := fld h 63 58
def handleHead (h : Word) : Nat := fld h 57 0

def cmdHandle (c : Cmd) : Word := handleAt c.queue.toNat c.head.toNat

/-- What completing the command needs: its words are translated in its queue's ASID (R463). -/
def cmdRef (s : State) (c : Cmd) : CmdRef :=
  ⟨c.part, cmdHandle c, c.tag, c.compl, (queueOf s c.part c.queue.toNat).asid⟩

/-- A command with the handle has been taken. -/
def handleTaken (s : State) (p : BitVec 4) (h : Word) : Bool := handleHead h < (queueOf s p (handleQueue h)).head.toNat

/-- It has been taken and has completed. -/
def handleDone (s : State) (p : BitVec 4) (h : Word) : Bool := handleTaken s p h && !(partOf s p).pending.contains h

/-! ### Completing and beginning -/

/-- A rejected command (R310, R431). -/
def rejectCmd (s : State) (c : Cmd) (code : Byte) : State := completeCmd s (cmdRef s c) code true false

/-- A command that ends because an address cannot be accessed (R463). DEDUCED, log 39. -/
def failCmd (s : State) (c : Cmd) : State := completeCmd s (cmdRef s c) 0x86 false false
def finishCmd (s : State) (c : Cmd) : State := completeCmd s (cmdRef s c) 0 false false

/-- What a beginning command comes to: it has begun, or it waits on a table that is spent, or on something else. -/
inductive Begun where
  | done (s : State)
  | wait (table : Option Nat)
  deriving DecidableEq, Repr

/-- A command's AFTER (R309, R327). -/
inductive AfterState where
  | go | wait | cancelled
  deriving DecidableEq, Repr

def afterOf (s : State) (c : Cmd) : AfterState :=
  match c.after with
  | none => .go
  | some h =>
    if !handleDone s c.part h then .wait else if (partOf s c.part).cancelled.contains h then .cancelled else .go

/-- A child that never begins falls on the counter of its parent. -/
def dropChild (s : State) (parent : Option Nat) (cancelled : Bool) : State :=
  match parent with
  | none => s
  | some p => settle4 (mapLevel s p fun l => { l with children := l.children - 1, cancelled := l.cancelled || cancelled }) p

/-- A phase or job that is cancelled before it begins stands open all the same until its END: what is taken in between is its
child, and is cancelled (R41, R311): DEDUCED, log 92. Its own completion has been written. -/
def openCancelled (c : Cmd) (kind : LevelKind) (s : State) : State :=
  let p := partOf s c.part
  if (if kind = .phase then p.openPhase else p.openJob).isSome then s
  else
    let l : Level := { kind := kind, part := c.part, handle := cmdHandle c, serial := s.serial, cancelled := true, cancelPending := true }
    let s1 := setPart s c.part (if kind = .phase then { p with openPhase := some s.serial } else { p with openJob := some s.serial })
    { bumpSerial s1 with levels := s1.levels ++ [l] }

/-- What a cancelled command leaves open. -/
def leaveOpen (c : Cmd) (i : Instr) (s : State) : State :=
  match i with
  | .phaseBegin _ => openCancelled c .phase s
  | .jobBegin _ => openCancelled c .job s
  | _ => s

/-- A command that has not begun is cancelled: it completes with the cancelled flag, and CANCELs that waited for it alone
complete (R327). -/
def cancelHeld (s : State) (c : Cmd) (h : HeldCmd) : State :=
  leaveOpen c h.cmd (settleCancels (completeCmd (dropChild s h.parent true) (cmdRef s c) 0 false true))

def holdCmd (s : State) (c : Cmd) (h : HeldCmd) : State :=
  setQueue s c.part c.queue.toNat { queueOf s c.part c.queue.toNat with held := some h }

/-- A command holds its queue for a spent table: its wait for that table is counted, once (R326). -/
def holdSpent (s : State) (c : Cmd) (h : HeldCmd) (t : Nat) : State :=
  if h.spent.contains t then holdCmd s c h else holdCmd (throttle s c.part t) c { h with spent := h.spent ++ [t] }

/-- A command that reads or writes an address waits while that access is held on its way (R357, R452). -/
def whenFree (s : State) (c : Cmd) (acc : Access) (va : Word) (n : Nat) (k : Begun) : Begun :=
  if hallWayHeld s c.part (cmdRef s c).asid acc va n then .wait none else k

/-- A command that has passed its checks begins, or holds its queue (R311). A wait for a spent table is counted (R326). -/
def acceptCmd (s : State) (c : Cmd) (h : HeldCmd) (k : State → Begun) : State :=
  match afterOf s c with
  | .cancelled => cancelHeld s c h
  | .wait => holdCmd s c h
  | .go =>
    match k s with
    | .done s1 => s1
    | .wait (some t) => holdSpent s c h t
    | .wait none => holdCmd s c h

/-- The level that a LAUNCH or GRAPH.RUN taken now is a child of: its counter rises (R311). -/
def joinPhase (s : State) (parent : Option Nat) : State :=
  match parent with
  | none => s
  | some k => mapLevel s k fun l => { l with children := l.children + 1 }

/-- The parent is being cancelled: nothing new runs beneath it (R40, R41). -/
def parentCancelled (s : State) (parent : Option Nat) : Bool :=
  parent.any fun k => (levelAt s k).any fun l => l.cancelPending

/-- A child that is cancelled as it is taken: its parent will complete with the cancelled flag (R40). -/
def cancelTaken (s : State) (c : Cmd) (parent : Option Nat) : State :=
  let s1 := match parent with
    | some k => mapLevel s k fun l => { l with cancelled := true }
    | none => s
  completeCmd s1 (cmdRef s c) 0 false true

/-! ### NOP, SIGNAL, WAIT (R311) -/

def execNop (c : Cmd) (s : State) : Host.Outcome State Fault Refusal :=
  .next (acceptCmd s c { cmd := .nop c } fun s => .done (finishCmd s c))

def beginSignal (c : Cmd) (addr v : Word) (s : State) : Begun :=
  whenFree s c .wr addr 8 <|
  match hallWrite s c.part (cmdRef s c).asid addr (bytesOfNat 8 v.toNat) with
  | some s1 => .done (finishCmd s1 c)
  | none => .done (failCmd s c)

def execSignal (c : Cmd) (addr v : Word) (s : State) : Host.Outcome State Fault Refusal :=
  .next (acceptCmd s c { cmd := .signal c addr v } (beginSignal c addr v))

/-- A WAIT begins, and completes, once the word is at least the value. -/
def beginWait (c : Cmd) (addr v : Word) (s : State) : Begun :=
  whenFree s c .rd addr 8 <|
  match hallRead s c.part (cmdRef s c).asid addr 8 with
  | none => .done (failCmd s c)
  | some (bs, s1) => if v.toNat ≤ natAt bs 0 8 then .done (finishCmd s1 c) else .wait none

def execWait (c : Cmd) (addr v : Word) (s : State) : Host.Outcome State Fault Refusal :=
  .next (acceptCmd s c { cmd := .wait c addr v } (beginWait c addr v))

/-! ### LAUNCH (R315, R464, R325) -/

/-- The checks of a launch record as it is taken (R431): its descriptor, or the code and whether the record is rejected.
DEDUCED, log 37. -/
def launchChecks (s : State) (c : Cmd) (r : LaunchRec) : Except (Byte × Bool) (KDesc × State) :=
  if !launchFields r then .error (0x83, true)
  else if !asidUsable s c.part c.asid.toNat then .error (0x81, true)
  else
    match readKDesc s c.part (c.asid.setWidth 13) r.kdesc with
    | .error code => .error (code, code != 0x86)
    | .ok (kd, s1) =>
      match launchError s1 c.part kd r with
      | some code => .error (code, true)
      | none => .ok (kd, s1)

/-- The launch enters the levels, and its blocks are dispatched where they fit. -/
def beginLaunch (c : Cmd) (r : LaunchRec) (h : HeldCmd) (s : State) : Begun :=
  if !ringsFree s c.part r then .wait (some 5)
  else
    let q := queueOf s c.part c.queue.toNat
    let l := launchLevel (cmdRef s c) (c.asid.setWidth 13) c.queue q.prio s.serial h.parent h.number h.kd r
    .done (fillAll { bumpSerial s with levels := s.levels ++ [{ l with view := firstView s h.kd }] })

def execLaunch (c : Cmd) (r : LaunchRec) (s : State) : Host.Outcome State Fault Refusal :=
  .next <|
    match launchChecks s c r with
    | .error (code, rej) => completeCmd s (cmdRef s c) code rej false
    | .ok (kd, s1) =>
      let parent := (partOf s c.part).openPhase
      if parentCancelled s parent || afterOf s1 c == .cancelled then cancelTaken s1 c parent
      else
        let (n, s2) := takeNumber s1 c.part
        let h : HeldCmd := { cmd := .launch c r, kd := kd, parent := parent, number := n }
        acceptCmd (joinPhase s2 parent) c h (beginLaunch c r h)

/-! ### Graphs (R322-R324) -/

def graphStore (s : State) (p : BitVec 4) (n : Nat) : Option GraphImage := mapGet none (partOf s p).graphs n
def setStore (s : State) (p : BitVec 4) (n : Nat) (g : Option GraphImage) : State :=
  let q := partOf s p
  setPart s p { q with graphs := mapSet none q.graphs n g }

/-- A node record's fields, for LOAD and SETNODE: OP LAUNCH, reserved bytes 0, its own ranges. COMPL, AFTER and FLAGS are
ignored. -/
def nodeRecord (bs : List Byte) : Option (LaunchRec × BitVec 16) :=
  if natAt bs 0 1 == 1 && launchZeros bs && launchFields (parseLaunch bs) then
    some (parseLaunch bs, BitVec.ofNat 16 (natAt bs 2 2))
  else none

/-- An edge record: from, to, token, CAP. -/
def edgeRecord (nodes : Nat) (bs : List Byte) : Option (Nat × Nat × Bool × Nat) :=
  let f := natAt bs 0 2
  let t := natAt bs 2 2
  let k := natAt bs 4 1
  let cap := natAt bs 6 2
  if f < nodes && t < nodes && k ≤ 1 && natAt bs 5 1 == 0 && (cap != 0) == (k == 1) then some (f, t, k == 1, cap) else none

/-- Nodes that can be taken away one after another while none of their predecessors is left: all of them, in an image
without a cycle. -/
def peel (edges : List (Nat × Nat × Bool × Nat)) : Nat → List Nat → List Nat
  | 0, left => left
  | n + 1, left =>
    peel edges n (left.filter fun x => edges.any fun e => e.2.1 == x && left.contains e.1)

def acyclic (nodes : Nat) (edges : List (Nat × Nat × Bool × Nat)) : Bool := (peel edges nodes (List.range nodes)).isEmpty

/-- Pieces of n bytes of a list. -/
def chunks (n : Nat) (bs : List Byte) (count : Nat) : List (List Byte) :=
  (List.range count).map fun i => (bs.drop (i * n)).take n

/-- A graph image (R323), or none where it breaks a constraint. -/
def parseGraph (nodes edges : Nat) (body : List Byte) : Option GraphImage :=
  let ns := (chunks 256 body nodes).map nodeRecord
  let es := (chunks 8 (body.drop (256 * nodes)) edges).map (edgeRecord nodes)
  if ns.all Option.isSome && es.all Option.isSome then
    let g : GraphImage := { nodes := ns.filterMap fun x => x.map (·.1), asids := ns.filterMap fun x => x.map (·.2),
                            edges := es.filterMap id }
    let blocks := fun i => (g.nodes[i]?).map (·.blocks)
    if acyclic nodes g.edges && g.edges.all fun e => !e.2.2.1 || blocks e.1 == blocks e.2.1 then some g else none
  else none

/-- GRAPH.EDIT LOAD: the store := a copy of the image. -/
def beginLoad (c : Cmd) (store : BitVec 8) (addr : Word) (s : State) : Begun :=
  let a := (cmdRef s c).asid
  whenFree s c .rd addr 16 <|
  match hallRead s c.part a addr 16 with
  | none => .done (failCmd s c)
  | some (hd, s1) =>
    let nodes := natAt hd 0 2
    let edges := natAt hd 2 2
    if nodes = 0 || 256 < nodes || 1024 < edges || !zeroBytes hd 4 16 then .done (rejectCmd s1 c 0x83)
    else
      whenFree s1 c .rd (addr + 16) (256 * nodes + 8 * edges) <|
      match hallRead s1 c.part a (addr + 16) (256 * nodes + 8 * edges) with
      | none => .done (failCmd s1 c)
      | some (body, s2) =>
        match parseGraph nodes edges body with
        | none => .done (rejectCmd s2 c 0x83)
        | some g => .done (finishCmd (setStore s2 c.part store.toNat (some g)) c)

def execGraphEditLoad (c : Cmd) (store : BitVec 8) (addr : Word) (s : State) : Host.Outcome State Fault Refusal :=
  .next (if 16 ≤ store.toNat then rejectCmd s c 0x83
    else acceptCmd s c { cmd := .graphEditLoad c store addr } (beginLoad c store addr))

/-- GRAPH.EDIT SETNODE: node n := the record. An empty store, or a node that the image does not have, is a rejected record
(0x83): DESIGN CHOICE, log 79. -/
def beginSetnode (c : Cmd) (store : BitVec 8) (node : BitVec 16) (addr : Word) (s : State) : Begun :=
  match graphStore s c.part store.toNat with
  | none => .done (rejectCmd s c 0x83)
  | some g =>
    if g.nodes.length ≤ node.toNat then .done (rejectCmd s c 0x83)
    else
      whenFree s c .rd addr 256 <|
      match hallRead s c.part (cmdRef s c).asid addr 256 with
      | none => .done (failCmd s c)
      | some (bs, s1) =>
        match nodeRecord bs with
        | none => .done (rejectCmd s1 c 0x83)
        | some (r, a) =>
          .done (finishCmd (setStore s1 c.part store.toNat
            (some { g with nodes := g.nodes.set node.toNat r, asids := g.asids.set node.toNat a })) c)

def execGraphEditSetnode (c : Cmd) (store : BitVec 8) (node : BitVec 16) (addr : Word) (s : State) :
    Host.Outcome State Fault Refusal :=
  .next (if 16 ≤ store.toNat then rejectCmd s c 0x83
    else acceptCmd s c { cmd := .graphEditSetnode c store node addr } (beginSetnode c store node addr))

/-- GRAPH.EDIT DROP: the store := empty. -/
def beginDrop (c : Cmd) (store : BitVec 8) (s : State) : Begun := .done (finishCmd (setStore s c.part store.toNat none) c)

def execGraphEditDrop (c : Cmd) (store : BitVec 8) (s : State) : Host.Outcome State Fault Refusal :=
  .next (if 16 ≤ store.toNat then rejectCmd s c 0x83
    else acceptCmd s c { cmd := .graphEditDrop c store } (beginDrop c store))

/-- The first code that a node of a store gives, as its launch would be checked (R431), or the state in which every descriptor
has been read. -/
def nodeErrors (s : State) (c : Cmd) : List LaunchRec → List (BitVec 16) → Except (Byte × Bool) State
  | [], _ => .ok s
  | r :: rs, as =>
    match launchChecks s { c with asid := as.headD 0 } r with
    | .error e => .error e
    | .ok (_, s1) => nodeErrors s1 c rs (as.drop 1)

/-- Live instances of a partition. -/
def instances (s : State) (p : BitVec 4) : List Level := s.levels.filter fun l => decide (l.kind = .graph) && l.part == p

/-- The instance takes its slot and its edge queues, and starts the nodes that have no predecessor. -/
def beginGraph (c : Cmd) (store : BitVec 8) (h : HeldCmd) (s : State) : Begun :=
  let live := instances s c.part
  let g := h.image
  let used := (live.map fun l => l.edges.length).foldl (· + ·) 0
  if quota s c.part 0 ≤ live.length then .wait (some 0)
  else if quota s c.part 1 < used + g.edges.length then .wait (some 1)
  else
    let q := queueOf s c.part c.queue.toNat
    let slots := ((List.range g.edges.length).zip g.edges).foldl
      (fun m x => if x.2.2.2.1 then mapSet 0 m x.1 x.2.2.2.2 else m) []
    let l : Level :=
      { kind := .graph, part := c.part, handle := cmdHandle c, serial := s.serial, parent := h.parent,
        children := g.nodes.length, ended := true, tag := c.tag, compl := c.compl, casid := q.asid, queue := c.queue,
        prio := q.prio, store := store, edgeSlots := slots, image := g.nodes, imageAsid := g.asids, edges := g.edges }
    .done (fillAll { bumpSerial s with levels := s.levels ++ [l] })

def execGraphRun (c : Cmd) (store : BitVec 8) (s : State) : Host.Outcome State Fault Refusal :=
  .next <|
    match if 16 ≤ store.toNat then none else graphStore s c.part store.toNat with
    | none => rejectCmd s c 0x83
    | some g =>
      match nodeErrors s c g.nodes g.asids with
      | .error (code, rej) => completeCmd s (cmdRef s c) code rej false
      | .ok s1 =>
        let parent := (partOf s c.part).openPhase
        if parentCancelled s parent || afterOf s1 c == .cancelled then cancelTaken s1 c parent
        else
          let h : HeldCmd := { cmd := .graphRun c store, parent := parent, image := g }
          acceptCmd (joinPhase s1 parent) c h (beginGraph c store h)

/-! ### COPY (R311, R280) -/

/-- The hall, as the party that a COPY's engine acts for. -/
def hallWho (p : BitVec 4) (asid : BitVec 13) : Who := ⟨p, asid, hallPlace, 0, 0⟩

def beginCopy (c : Cmd) (desc : Word) (s : State) : Begun :=
  let ref := cmdRef s c
  whenFree s c .rd desc 64 <|
  match hallRead s c.part ref.asid desc 64 with
  | none => .done (failCmd s c)
  | some (hd, s1) =>
    let n := natAt hd 1 1
    let size := if 1 ≤ n && n ≤ 16 then cpySize n else 64
    whenFree s1 c .rd desc size <|
    match hallRead s1 c.part ref.asid desc size with
    | none => .done (failCmd s1 c)
    | some (bs, s2) =>
      match parseCpy s2 (hallWho c.part ref.asid) bs with
      | none => .done (rejectCmd s2 c 0x83)
      | some w =>
        let o : EngOp := { id := s2.serial, cls := .cpy, counted := false, work := w, place := hallPlace, launch := 0, blk := 0,
                           part := c.part, asid := ref.asid, mode := 0, desc := desc, command := some ref }
        .done { bumpSerial s2 with engines := s2.engines ++ [o] }

def execCopy (c : Cmd) (desc : Word) (s : State) : Host.Outcome State Fault Refusal :=
  .next (if desc.toNat % 64 != 0 then rejectCmd s c 0x83 else acceptCmd s c { cmd := .copy c desc } (beginCopy c desc))

/-! ### Phases and jobs (R38, R311) -/

/-- A phase or job opens: it completes once it has been ended and its counter is zero. -/
def openLevel (c : Cmd) (kind : LevelKind) (parent : Option Nat) (s : State) : State :=
  let l : Level := { kind := kind, part := c.part, handle := cmdHandle c, serial := s.serial, parent := parent, tag := c.tag,
                     compl := c.compl, casid := (cmdRef s c).asid }
  let p := partOf s c.part
  let s1 := setPart s c.part
    (if kind = .phase then { p with openPhase := some s.serial } else { p with openJob := some s.serial })
  { bumpSerial s1 with levels := s1.levels ++ [l] }

def beginPhase (c : Cmd) (h : HeldCmd) (s : State) : Begun :=
  if (partOf s c.part).openPhase.isSome then .done (rejectCmd (dropChild s h.parent false) c 0x83)
  else .done (openLevel c .phase h.parent s)

def execPhaseBegin (c : Cmd) (s : State) : Host.Outcome State Fault Refusal :=
  .next <|
    let parent := (partOf s c.part).openJob
    if parentCancelled s parent || afterOf s c == .cancelled then openCancelled c .phase (cancelTaken s c parent)
    else
      let h : HeldCmd := { cmd := .phaseBegin c, parent := parent }
      acceptCmd (joinPhase s parent) c h (beginPhase c h)

/-- The END of an open phase or job, which may complete it. -/
def endLevel (c : Cmd) (kind : LevelKind) (handle : Word) (s : State) : Begun :=
  let p := partOf s c.part
  match (if kind = .phase then p.openPhase else p.openJob).bind (levelAt s) with
  | none => .done (rejectCmd s c 0x83)
  | some l =>
    if l.handle != handle then .done (rejectCmd s c 0x83)
    else
      let s1 := setPart s c.part (if kind = .phase then { p with openPhase := none } else { p with openJob := none })
      .done (settle4 (mapLevel (finishCmd s1 c) l.serial fun l => { l with ended := true }) l.serial)

def execPhaseEnd (c : Cmd) (handle : Word) (s : State) : Host.Outcome State Fault Refusal :=
  .next (acceptCmd s c { cmd := .phaseEnd c handle } (endLevel c .phase handle))

def beginJob (c : Cmd) (s : State) : Begun :=
  if (partOf s c.part).openJob.isSome then .done (rejectCmd s c 0x83) else .done (openLevel c .job none s)

def execJobBegin (c : Cmd) (s : State) : Host.Outcome State Fault Refusal :=
  .next (acceptCmd s c { cmd := .jobBegin c } (beginJob c))

def execJobEnd (c : Cmd) (handle : Word) (s : State) : Host.Outcome State Fault Refusal :=
  .next (acceptCmd s c { cmd := .jobEnd c handle } (endLevel c .job handle))

/-! ### CANCEL (R327) -/

/-- The kind of level that a CANCEL names. -/
def cancelKind (level : BitVec 8) : LevelKind :=
  match level.toNat with
  | 0 => .launch
  | 1 => .graph
  | 2 => .phase
  | _ => .job

/-- A command is of the level that a pending cancel names. -/
def cancelFits (level : Nat) (i : Instr) : Bool :=
  match level, i with
  | 0, .launch _ _ | 0, .ctrlRun _ _ | 1, .graphRun _ _ | 2, .phaseBegin _ | 3, .jobBegin _ => true
  | _, _ => false

/-- The header of a command. -/
def commandOf : Instr → Option Cmd
  | .nop c | .launch c _ | .graphRun c _ | .graphEditLoad c _ _ | .graphEditSetnode c _ _ _ | .graphEditDrop c _
  | .copy c _ | .signal c _ _ | .wait c _ _ | .phaseBegin c | .phaseEnd c _ | .jobBegin c | .jobEnd c _ | .cancel c _ _
  | .subscribe c _ | .subscribeRemove c _ | .rateWrite c _ | .resync c _ | .syscReply c _ _ | .ctrlRun c _
  | .tlbinvCommand c _ _ _ _ => some c
  | _ => none

/-- The held command with a handle, if it is of the level named. -/
def heldWith (s : State) (p : BitVec 4) (h : Word) (level : Nat) : Option (Cmd × HeldCmd) :=
  match (queueOf s p (handleQueue h)).held with
  | none => none
  | some x =>
    match commandOf x.cmd with
    | none => none
    | some c => if cmdHandle c = h && cancelFits level x.cmd then some (c, x) else none

def freeQueue (s : State) (p : BitVec 4) (q : Nat) : State := setQueue s p q { queueOf s p q with held := none }

/-- The effect of a CANCEL as it is taken; none when it must wait for a pending cancel to go. -/
def beginCancel (c : Cmd) (handle : Word) (level : BitVec 8) (s : State) : Begun :=
  let named := fun l : Level => l.part == c.part && l.handle == handle && decide (l.kind = cancelKind level) && !isNode s l
  match s.levels.find? named with
  | some l => .done (settleCancels (cancelLevel { s with cancels := s.cancels ++ [(cmdRef s c, l.serial)] } l.serial 0))
  | none =>
    match heldWith s c.part handle level.toNat with
    | some (c1, h) => .done (finishCmd (cancelHeld (freeQueue s c.part (handleQueue handle)) c1 h) c)
    | none =>
      if handleTaken s c.part handle then .done (finishCmd s c)
      else
        let p := partOf s c.part
        if 64 ≤ p.pendCancels.length then .wait none
        else .done (finishCmd (setPart s c.part { p with pendCancels := p.pendCancels ++ [(handle, level.toNat)] }) c)

/-- CANCEL ignores its own AFTER. -/
def execCancel (c : Cmd) (handle : Word) (level : BitVec 8) (s : State) : Host.Outcome State Fault Refusal :=
  .next (if 3 < level.toNat then rejectCmd s c 0x83
    else
      match beginCancel c handle level s with
      | .done s1 => s1
      | .wait _ => holdCmd s c { cmd := .cancel c handle level })

/-! ### Subscriptions and the rate (R349, R335) -/

/-- The fields of a threshold are in range. -/
def subOk (r : SubRec) : Bool :=
  decide (r.kind.toNat ≤ 3) && decide (r.dir.toNat ≤ 2) && r.note.toNat % 8 == 0 &&
    if r.kind == 1 || r.kind == 3 then decide (r.die.toNat < 8) || r.die == 0xFF else r.die == 0xFF

def beginSubscribe (c : Cmd) (r : SubRec) (s : State) : Begun :=
  let p := partOf s c.part
  let others := p.subs.filter fun x => x.id != r.id
  if quota s c.part 6 ≤ others.length then .wait (some 6)
  else
    let x : Sub := { id := r.id, kind := r.kind, dir := r.dir, die := r.die, value := r.value, note := r.note,
                     asid := (cmdRef s c).asid, last := [] }
    .done (finishCmd (setPart s c.part { p with subs := others ++ [x] }) c)

def execSubscribe (c : Cmd) (r : SubRec) (s : State) : Host.Outcome State Fault Refusal :=
  .next (if !subOk r then rejectCmd s c 0x83 else acceptCmd s c { cmd := .subscribe c r } (beginSubscribe c r))

def beginRemove (c : Cmd) (id : BitVec 8) (s : State) : Begun :=
  let p := partOf s c.part
  .done (finishCmd (setPart s c.part { p with subs := p.subs.filter fun x => x.id != id }) c)

def execSubscribeRemove (c : Cmd) (id : BitVec 8) (s : State) : Host.Outcome State Fault Refusal :=
  .next (acceptCmd s c { cmd := .subscribeRemove c id } (beginRemove c id))

/-- The target is set, unless a RATE.WRITE that was taken later has set it (R335). -/
def beginRate (c : Cmd) (v : BitVec 32) (order : Nat) (s : State) : Begun :=
  .done (finishCmd (if s.targetOrder ≤ order then { s with target := v, targetOrder := order } else s) c)

/-- RATE.WRITE: partition 0 only (R335, R431). -/
def execRateWrite (c : Cmd) (v : BitVec 32) (s : State) : Host.Outcome State Fault Refusal :=
  .next (if c.part != 0 then rejectCmd s c 0x84
    else if v.toNat < 0x1000 || 0x10000000 < v.toNat then rejectCmd s c 0x83
    else acceptCmd (bumpSerial s) c { cmd := .rateWrite c v, order := s.serial + 1 } (beginRate c v (s.serial + 1)))

/-! ### SYSC.REPLY, TLBINV (R312, R314) -/

/-- The team that waits in the SYSC of a token. -/
def syscTeam (t : Team) (p : BitVec 4) (token : Word) : Bool := t.part == p && decide (t.status = .sysc token)

/-- s1 to s4 take the reply's values, and the team goes on at the instruction after its SYSC. -/
def replyTeam (vals : List Word) (t : Team) : Team :=
  { (List.range 4).foldl (fun t i => sset t (BitVec.ofNat 6 (i + 1)) (vals.getD i 0)) t with
    status := .ready, asked := true, reply := some {} }

def beginReply (c : Cmd) (token : Word) (vals : List Word) (s : State) : Begun :=
  let mine := fun t : Team => syscTeam t c.part token
  let f := fun t : Team => if mine t then replyTeam vals t else t
  if (everyTeam s).any mine then
    let s1 := mapTeams s f
    .done (finishCmd (mapSaved s1 f) c)
  else .done (rejectCmd s c 0x85)

def execSyscReply (c : Cmd) (token : Word) (vals : List Word) (s : State) : Host.Outcome State Fault Refusal :=
  .next (acceptCmd s c { cmd := .syscReply c token vals } (beginReply c token vals))

def beginTlbinv (c : Cmd) (asid : Nat) (s : State) : Begun :=
  if translationsHeld s asid then .wait none else .done (finishCmd (settleTranslations s) c)

def execTlbinvCommand (c : Cmd) (asid : BitVec 16) (all : Bool) (start len : Word) (s : State) :
    Host.Outcome State Fault Refusal :=
  .next (if all && len != 0 then rejectCmd s c 0x83
    else if !asidInRange (partOf s c.part) asid.toNat then rejectCmd s c 0x81
    else acceptCmd s c { cmd := .tlbinvCommand c asid all start len } (beginTlbinv c asid.toNat))

/-! ### CTRL.RUN (R313) -/

/-- The restrictions on a control team's record and descriptor. -/
def ctrlFields (r : LaunchRec) : Bool :=
  r.blocks == 1 && r.tqhdr.all (fun h => h == 0) && r.wbase.all (fun h => h == 0) && r.priv.toNat % 128 == 0 &&
    r.kdesc.toNat % 64 == 0
def ctrlDesc (kd : KDesc) : Bool :=
  kd.lanes == 32 && kd.teams == 1 && kd.spad == 0 && !kd.straddle && !kd.ordered && kd.wr.isEmpty

/-- The partition has a control team alive, or one is to begin. -/
def ctrlAlive (s : State) (p : BitVec 4) : Bool := s.levels.any fun l => l.ctl && l.part == p

/-- Control teams on a control core. -/
def ctrlOn (s : State) (core : Nat) : List Team := (teamsOf s).filter fun t => t.place.die == 8 && t.place.core.toNat == core

/-- The core that takes the next control team, round-robin: each holds at most two. -/
def ctrlCore (s : State) : Option Nat :=
  ((List.range 8).map fun i => (s.ctlCore + i) % 8).find? fun c => decide ((ctrlOn s c).length < 2)

/-- The lowest free context of a control core. -/
def ctrlContext (s : State) (core : Nat) : Nat :=
  ((List.range 32).find? fun x => (ctrlOn s core).all fun t => t.place.ctx.toNat != x).getD 0

/-- The control team takes its launch number as it begins, since a record that another control team then rejects takes none
(R464). -/
def beginCtrl (c : Cmd) (r : LaunchRec) (h : HeldCmd) (s : State) : Begun :=
  if ctrlAlive s c.part then .done (rejectCmd s c 0x83)
  else
  match ctrlCore s with
  | none => .wait none
  | some core =>
    let (number, s) := takeNumber s c.part
    let pl : Place := ⟨8, BitVec.ofNat 6 core, BitVec.ofNat 5 (ctrlContext s core)⟩
    let asid : BitVec 13 := c.asid.setWidth 13
    let q := queueOf s c.part c.queue.toNat
    let l := { launchLevel (cmdRef s c) asid c.queue q.prio s.serial none number h.kd r with ctl := true, next := 1 }
    let t := startTeam s pl c.part asid number 0 0 h.kd q.prio r.priv h.kd.entry r.args
    let b : Block := ⟨c.part, number, 0, 8, BitVec.ofNat 6 core, false, false, 0, 0⟩
    .done { bumpSerial s with levels := s.levels ++ [l], blocks := s.blocks ++ [b],
                              others := s.others ++ [{ t with ctl := true, parks := haltParks s c.part }],
                              ctlCore := (core + 1) % 8 }

/-- CTRL.RUN (R313). That no control team is alive is looked at as the record is taken, and again as the command begins: DESIGN
CHOICE, log 87. -/
def execCtrlRun (c : Cmd) (r : LaunchRec) (s : State) : Host.Outcome State Fault Refusal :=
  .next <|
    if !ctrlFields r then rejectCmd s c 0x83
    else if !asidUsable s c.part c.asid.toNat then rejectCmd s c 0x81
    else
      match readKDesc s c.part (c.asid.setWidth 13) r.kdesc with
      | .error code => completeCmd s (cmdRef s c) code (code != 0x86) false
      | .ok (kd, s1) =>
        if !ctrlDesc kd || ctrlAlive s c.part then rejectCmd s1 c 0x83
        else if afterOf s1 c == .cancelled then completeCmd s1 (cmdRef s c) 0 false true
        else
          let h : HeldCmd := { cmd := .ctrlRun c r, kd := kd }
          acceptCmd s1 c h (beginCtrl c r h)

end Sys2Proof.Machine
end

