-- ==== Sys2Proof/Machine/Peers.lean ====
section
/-! DEFINITION. What a peer's request does at this part (spec/23 R390), and how it is held on its way (spec/19 R357, spec/27 R448,
R452). -/

namespace Sys2Proof.Machine

/-- The bytes that a request names: their offset in the window and their number. -/
def peerSpan : PeerReq → Nat × Nat
  | .read off n => (off, n)
  | .write off bs => (off, bs.length)
  | .atom _ dw off _ _ => (off, atomBytes dw)

/-- The location of n bytes at an offset of link j's window, for the partition that a request carries. -/
def peerLoc (s : State) (j : Nat) (tag : BitVec 4) (off n : Nat) : Option Nat :=
  let cfg := mapGet 0 s.fxCfg j
  let base := fld (mapGet 0 s.fxBase j) 51 21 * 2 ^ 21
  let loc := base + off
  if cfg.getLsbD 63 && fld cfg 35 32 == tag.toNat && !s.pkstat.fdown.getLsbD j && n != 0 &&
      decide (off + n ≤ (fld cfg 19 0 + 1) * 2 ^ 21) && partOfSlice s (loc / 2 ^ 35) == some tag &&
      partOfSlice s ((loc + n - 1) / 2 ^ 35) == some tag then some loc
  else none

/-- A request that has reached its point of coherence; an atomic goes to its owning service team, and one that
meets poison changes nothing: DEDUCED, log 51. One that is not admitted is an unmapped access at this part, whose requester learns
it. -/
def performPeer (s : State) (x : HeldPeer) : State :=
  match peerLoc s x.link.toNat x.tag (peerSpan x.req).1 (peerSpan x.req).2 with
  | none => s
  | some loc =>
    match x.req with
    | .read _ n => (linesOf loc n).foldl (fun s l => dirRead s 8 (l * 128)) (flushLines s loc n)
    | .write _ bs => performStore (flushLines s loc bs.length) x.tag hallPlace loc bs
    | .atom op dw off v cmp =>
      if off % atomBytes dw != 0 || poisonedIn (flushLines s loc (atomBytes dw)) loc (atomBytes dw) then s
      else serveAtom s ⟨ownerCluster loc, x.tag, hallPlace, 0, ⟨op, loc, dw, false, v, cmp, 0, none⟩⟩

/-- A request for a location is held at a halted die or on a hall port: an atomic on its way to its service team too. -/
def peerWayHeld (s : State) (r : PeerReq) (loc : Nat) : Bool :=
  match r with
  | .read _ _ => heldByHalt s loc || heldOnWay s 8 false loc
  | .write _ _ => writeHalted s loc || heldOnWay s 8 false loc
  | .atom _ _ _ _ _ =>
    let held := heldLinks s
    let v := ownerCluster loc / 6
    serviceHalted s loc || (!held.isEmpty && (heldOnWay s v false loc || (hallPath 8 v).any held.contains))

/-- A request is held: on its link, or beyond it. -/
def peerHeldNow (s : State) (x : HeldPeer) : Bool :=
  (heldLinks s).contains (linkKey (.folros x.link)) ||
    (peerLoc s x.link.toNat x.tag (peerSpan x.req).1 (peerSpan x.req).2).any (peerWayHeld s x.req)

/-- A request arrives: those of one link are performed in their order (R356). -/
def takePeer (s : State) (x : HeldPeer) : State :=
  if peerHeldNow s x || s.peerHeld.any fun y => y.link == x.link then { s with peerHeld := s.peerHeld ++ [x] } else performPeer s x

/-- Requests that nothing holds any more are performed. -/
def releasePeers (s : State) : State := s.peerHeld.foldl takePeer { s with peerHeld := [] }

end Sys2Proof.Machine
end

