-- ==== Sys2Proof/Machine/Registers.lean ====
section
/-! DEFINITION. The registers of the host's functions (spec/23 R383-R385, R392): what each reads, what a write does to it
(spec/00 R4, R5), and which writes are ignored. -/

namespace Sys2Proof.Machine

/-! ### Presence -/

/-- Function p answers (R383, R16). -/
def funPresent (s : State) (p : BitVec 4) : Bool := s.booted && (partOf s p).en && !(partOf s p).resetting

/-- The partition has a queue with EN = 1. -/
def anyQueueOn (s : State) (p : BitVec 4) : Bool := (partOf s p).queues.any fun x => x.2.en

/-- Every partition's number. -/
def allParts : List (BitVec 4) := (List.range 16).map fun i => BitVec.ofNat 4 i

def natW (n : Nat) : Word := BitVec.ofNat 64 n

/-! ### Command queues (R308) -/

def writeQbase (s : State) (p : BitVec 4) (q : Nat) (v : Word) : State :=
  let x := queueOf s p q
  if x.en then s else setQueue s p q { x with base := BitVec.ofNat 44 (fld v 51 8) }

/-- EN cleared: the command that waits for its AFTER is dropped with no completion (R309); one whose AFTER has been met, such
as a WAIT under way, goes on. DEDUCED, log 40. -/
def dropHeld (s : State) (p : BitVec 4) (q : Nat) : State :=
  match (queueOf s p q).held with
  | none => s
  | some h =>
    if (commandOf h.cmd).any fun c => afterOf s c == .wait then dropChild (freeQueue s p q) h.parent true else s

/-- Handles of a queue are forgotten as its EN is set: HEAD and TAIL start again (R308, R327). -/
def forgetHandles (s : State) (p : BitVec 4) (q : Nat) : State :=
  let x := partOf s p
  setPart s p { x with pending := x.pending.filter fun h => handleQueue h != q,
                       cancelled := x.cancelled.filter fun h => handleQueue h != q,
                       pendCancels := x.pendCancels.filter fun h => handleQueue h.1 != q }

def writeQcfg (s : State) (p : BitVec 4) (q : Nat) (v : Word) : State :=
  let x := queueOf s p q
  let on := v.getLsbD 15
  let asid := fld v 28 16
  let refused := 16 < fld v 4 0 || (on && !x.en && !asidUsable s p asid)
  if refused then setQueue s p q { x with qerr := true }
  else
    let y : Queue := { x with en := on, prio := BitVec.ofNat 2 (fld v 11 10), qerr := x.qerr && !v.getLsbD 9 }
    let z : Queue := if x.en then y else { y with asid := BitVec.ofNat 13 asid, logn := BitVec.ofNat 5 (fld v 4 0) }
    if on && !x.en then forgetHandles (setQueue s p q { z with head := 0, tail := 0 }) p q
    else if x.en && !on then dropHeld (setQueue s p q z) p q
    else setQueue s p q z

/-- QTAIL: refused below TAIL or above HEAD + 2^LOGN. -/
def writeQtail (s : State) (p : BitVec 4) (q : Nat) (v : Word) : State :=
  let x := queueOf s p q
  if v.toNat < x.tail.toNat || x.head.toNat + 2 ^ x.logn.toNat < v.toNat then setQueue s p q { x with qerr := true }
  else setQueue s p q { x with tail := v }

def qcfgWord (x : Queue) : Word :=
  natW (x.logn.toNat + (if x.qerr then 2 ^ 9 else 0) + x.prio.toNat * 2 ^ 10 + (if x.en then 2 ^ 15 else 0) +
    x.asid.toNat * 2 ^ 16)

/-! ### The system-call ring (R312) and the save pool (R319) -/

def writeScbase (s : State) (p : BitVec 4) (v : Word) : State :=
  let x := partOf s p
  if x.scEn then s else setPart s p { x with scBase := BitVec.ofNat 45 (fld v 51 7) }

def writeSccfg (s : State) (p : BitVec 4) (v : Word) : State :=
  let x := partOf s p
  let on := v.getLsbD 15
  let asid := fld v 28 16
  let logn := fld v 4 0
  if on && !x.scEn && !asidUsable s p asid then s
  else
    let y : Part := { x with scEn := on, scIe := v.getLsbD 14, scOvf := x.scOvf && !v.getLsbD 13 }
    let z : Part :=
      if x.scEn then y
      else { y with scAsid := BitVec.ofNat 13 asid, scLogn := if 4 ≤ logn && logn ≤ 12 then BitVec.ofNat 5 logn else x.scLogn }
    setPart s p (if on && !x.scEn then { z with scHead := 0, scTail := 0 } else z)

def writeSchead (s : State) (p : BitVec 4) (v : Word) : State :=
  let x := partOf s p
  if v.toNat < x.scHead.toNat || x.scTail.toNat < v.toNat then s else setPart s p { x with scHead := v }

def sccfgWord (x : Part) : Word :=
  natW (x.scLogn.toNat + (if x.scOvf then 2 ^ 13 else 0) + (if x.scIe then 2 ^ 14 else 0) + (if x.scEn then 2 ^ 15 else 0) +
    x.scAsid.toNat * 2 ^ 16)

/-- A save area of the pool is in use. -/
def poolInUse (s : State) (p : BitVec 4) : Bool := s.preempted.any (fun x => x.part == p) || s.preempting.any fun x => x.part == p

def writeSavePool (s : State) (p : BitVec 4) (size : Bool) (v : Word) : State :=
  let x := partOf s p
  if poolInUse s p then s
  else setPart s p (if size then { x with spSize := v.setWidth 32 } else { x with spBase := BitVec.ofNat 36 (fld v 51 16) })

/-! ### Attestation (R395) -/

/-- ATTCTL: a GO while BUSY sets ERR and starts nothing. -/
def writeAttctl (s : State) (p : BitVec 4) (v : Word) : State :=
  let x := partOf s p
  let addr := BitVec.ofNat 40 (fld v 51 12)
  let err := x.attErr && !v.getLsbD 2
  setPart s p
    (if v.getLsbD 0 then
      (if x.attBusy then { x with attAddr := addr, attErr := true }
       else { x with attAddr := addr, attErr := err, attBusy := true, attRun := addr })
     else { x with attAddr := addr, attErr := err })

def attctlWord (x : Part) : Word :=
  natW (x.attAddr.toNat * 2 ^ 12 + (if x.attErr then 4 else 0) + (if x.attBusy then 2 else 0))

/-! ### ASID table (R74) -/

/-- Word i mod 2 of entry i / 2 of the partition's range. -/
def writeAsid (s : State) (p : BitVec 4) (i : Nat) (v : Word) : State :=
  let x := partOf s p
  let a := x.asidBase.toNat + i / 2
  if x.asidCount.toNat ≤ i / 2 then s
  else if i % 2 = 0 then { s with asid0 := mapSet 0 s.asid0 a (natW (fld v 51 16 * 2 ^ 16 + fld v 0 0)) }
  else { s with asid1 := mapSet 0 s.asid1 a (natW (fld v 47 16 * 2 ^ 16)) }

def asidWord (s : State) (p : BitVec 4) (i : Nat) : Word :=
  let x := partOf s p
  let a := x.asidBase.toNat + i / 2
  if x.asidCount.toNat ≤ i / 2 then 0 else if i % 2 = 0 then mapGet 0 s.asid0 a else mapGet 0 s.asid1 a

/-! ### Cluster power (R351) -/

/-- The live cores of a cluster. -/
def clusterCores (s : State) (cl : Nat) : List Nat :=
  ((List.range 8).map fun i => (cl % 6) * 8 + i).filterMap fun c => if coreLive s (cl / 6) c then some (cl / 6 * 64 + c) else none

/-- Teams resident in a cluster. -/
def clusterTeams (s : State) (cl : Nat) : List Team :=
  (teamsOf s).filter fun t => decide (t.place.die.toNat < 8) && clusterOf t.place.die.toNat t.place.core.toNat == cl

def gateErr (s : State) (cl : Nat) : State := setGate s cl { gateOf s cl with err := true }

/-- The transitions that are accepted: from a state, by a request. -/
def powerAccepts (st req : Nat) : Bool :=
  match req with
  | 0 => st = 2 || st = 3 || st = 4
  | 1 => st = 0
  | 2 => st = 2
  | 3 => st = 3
  | _ => false

/-- A request to a cluster of the partition: the transitions of R351, each under way until its state is reached. -/
def requestPower (s : State) (p : BitVec 4) (cl req : Nat) : State :=
  let g := gateOf s cl
  if 48 ≤ cl then s
  else if partOfCluster s cl != some p || !powerAccepts g.st.toNat req then gateErr s cl
  else
    match req with
    | 0 =>
      let s1 := setGate s cl { g with st := 5, req := 0 }
      (clusterCores s cl).foldl (fun s k => (List.range 5).foldl (fun s i => wakeIsland s k i) s) s1
    | 1 => (clusterTeams s cl).foldl (fun s t => parkTeam s t.place .quiesce) (setGate s cl { g with st := 1, req := 1 })
    | n => setGate s cl { g with req := BitVec.ofNat 3 n }

/-- A write of CPWRn: one that is refused changes nothing but ERR. DEDUCED, log 41. -/
def writeCpwr (s : State) (p : BitVec 4) (cl : Nat) (v : Word) : State :=
  let g := gateOf s cl
  let save := BitVec.ofNat 36 (fld v 51 16)
  let req := fld v 2 0
  if 48 ≤ cl then s
  else if partOfCluster s cl != some p || (save != g.save && g.st != 0) || (req != g.req.toNat && !powerAccepts g.st.toNat req) then
    gateErr s cl
  else
    let s1 := setGate s cl { g with save := save, err := g.err && !v.getLsbD 3 }
    if req = g.req.toNat then s1 else requestPower s1 p cl req

def cpwrWord (g : Gate) : Word :=
  natW (g.save.toNat * 2 ^ 16 + g.st.toNat * 16 + (if g.err then 8 else 0) + g.req.toNat)

/-! ### Administrative registers (R385, R392) -/

/-- Changes to a partition that are ignored while it has a queue on. -/
def whileOff (s : State) (p : BitVec 4) (f : Part → Part) : State :=
  if anyQueueOn s p then s else setPart s p (f (partOf s p))

def othersOf (p : BitVec 4) : List (BitVec 4) := allParts.filter fun q => q != p

def writePclus (s : State) (p : BitVec 4) (v : Word) : State :=
  let x : BitVec 48 := v.setWidth 48
  if (othersOf p).any fun q => (partOf s q).pclus &&& x != 0 then s else whileOff s p fun y => { y with pclus := x }

def writePmem (s : State) (p : BitVec 4) (v : Word) : State :=
  let x : BitVec 48 := v.setWidth 48
  if (othersOf p).any fun q => (partOf s q).pmem &&& x != 0 then s else whileOff s p fun y => { y with pmem := x }

def writePasid (s : State) (p : BitVec 4) (v : Word) : State :=
  let n := fld v 29 16
  let b := fld v 12 0
  if 8192 < b + n || (othersOf p).any fun q =>
      let y := partOf s q
      n != 0 && y.asidCount != 0 && decide (b < y.asidBase.toNat + y.asidCount.toNat) && decide (y.asidBase.toNat < b + n)
  then s
  else whileOff s p fun y => { y with asidBase := BitVec.ofNat 13 b, asidCount := BitVec.ofNat 14 n }

/-- PEN: partition 0 is always present. -/
def writePen (s : State) (p : BitVec 4) (on : Bool) : State :=
  if p = 0 then s else whileOff s p fun y => { y with en := on }

/-- The package totals of R325. -/
def quotaTotals : List Nat := [1024, 8192, 24576, 1024, 12288, 512, 256]

def writeQuota (s : State) (p : BitVec 4) (t : Nat) (v : Word) : State :=
  let sum := ((othersOf p).map fun q => quota s q t).foldl (· + ·) (fld v 31 0)
  if quotaTotals.getD t 0 < sum then s
  else whileOff s p fun y => { y with quotas := y.quotas.set t (v.setWidth 32) }

def writeHpasid (s : State) (p : BitVec 4) (v : Word) : State :=
  whileOff s p fun y => { y with hpasidEn := v.getLsbD 31, hpasid := v.setWidth 20 }

/-- PRMUL, PROV (R337): they take force at the next broadcast. -/
def writePrmul (s : State) (p : BitVec 4) (v : Word) : State :=
  let m := fld v 31 0
  if m < 0x1000 || 0x100000 < m then s else let y := partOf s p; setPart s p { y with prmul := v.setWidth 32 }
def writeProv (s : State) (p : BitVec 4) (v : Word) : State :=
  let lo := fld v 31 0
  let hi := fld v 63 32
  if hi < lo || lo < 0x4000 || 0x40000 < hi then s
  else let y := partOf s p; setPart s p { y with ovlo := BitVec.ofNat 32 lo, ovhi := BitVec.ofNat 32 hi }

/-! ### Debug (R407) -/

/-- HALT: every team of the partition is parked, or released. -/
def debugHalt (s : State) (p : BitVec 4) (on : Bool) : State :=
  let s1 := let y := partOf s p; setPart s p { y with dbgHalt := on }
  let s2 := if on then s1 else mapSaved s1 fun t =>
    if t.part = p then { t with parks := t.parks.filter fun r => r != .debug } else t
  ((teamsOf s).filter fun t => t.part == p).foldl
    (fun s t => if on then parkTeam s t.place .debug else releaseTeam s t.place .debug) s2

/-- ATTACH: clearing it releases every team stopped at BKPT. -/
def debugAttach (s : State) (p : BitVec 4) (on : Bool) : State :=
  let s1 := let y := partOf s p; setPart s p { y with dbgAttach := on }
  if on then s1
  else
    let s2 := mapSaved s1 fun t => if t.part == p && t.bkpt then restarted s t else t
    ((teamsOf s).filter fun t => t.part == p && t.bkpt).foldl (fun s t =>
      let s3 := restartTeam s t.place
      if t.parks.isEmpty then descheduleCap s3 t true else s3) s2

/-! ### Dies (R343, R452, R455) -/

/-- A write of DCAP. The cap may cease to bind with it (R345). -/
def writeDcap (s : State) (d : Nat) (v : Word) : State :=
  let x := noteBound s (dieOf s d)
  setDie s d { x with slew := BitVec.ofNat 16 (min 450 (max 1 (fld v 47 32))), cap := BitVec.ofNat 16 (min 450 (max 50 (fld v 15 0))) }

def writeDthm (s : State) (d : Nat) (v : Word) : State :=
  let trip := fld v 15 8
  let warn := fld v 7 0
  if trip < 80 || 115 < trip || warn < 70 || trip < warn + 5 then s
  else let x := dieOf s d; setDie s d { x with ttrip := BitVec.ofNat 8 trip, twarn := BitVec.ofNat 8 warn }

/-- PKSTAT with its SEQ raised when any other field has changed (R446). -/
def setPkstat (s : State) (f : Pkstat → Pkstat) : State :=
  let n := f s.pkstat
  if n = s.pkstat then s else { s with pkstat := { n with seq := s.pkstat.seq + 1 } }

def setBit8 (x : BitVec 8) (i : Nat) (b : Bool) : BitVec 8 :=
  if b then x ||| BitVec.ofNat 8 (2 ^ i) else x &&& ~~~(BitVec.ofNat 8 (2 ^ i))

/-- Teams on a compute die. -/
def dieTeams (s : State) (d : Nat) : List Team := (teamsOf s).filter fun t => t.place.die.toNat == d

/-- DIEHALT bit d set: the die's teams stop; its engines start no unit and its arbiter grants nothing while it stands. -/
def haltDie (s : State) (d : Nat) : State :=
  if 8 ≤ d || s.diehalt.getLsbD d then s
  else (dieTeams s d).foldl (fun s t => parkTeam s t.place .dieHalt) { s with diehalt := setBit8 s.diehalt d true }

/-- DIEHALT bit d cleared: what was held goes on, and cancels reach the die's teams (R453). -/
def releaseDie (s : State) (d : Nat) : State :=
  if 8 ≤ d || !s.diehalt.getLsbD d then s
  else
    let s1 := setPkstat { s with diehalt := setBit8 s.diehalt d false } fun p => { p with halted := setBit8 p.halted d false }
    carryCancels ((dieTeams s1 d).foldl (fun s t => releaseTeam s t.place .dieHalt) (releasePeers s1))

def writeDiehalt (s : State) (v : Word) : State :=
  (List.range 8).foldl (fun s d => if v.getLsbD d then haltDie s d else releaseDie s d) s

/-! ### Links, recovery, CXL and Folros windows -/

/-- A retraining window opens at a link (R357, R447, R448): what was on its way over it has arrived. -/
def openWindow (s : State) (k : Nat) (x : LinkState) : State := setLink (drain s) k { x with retraining := true }

/-- FLRTR: training of the Folros Links named starts (R448). -/
def trainLinks (s : State) (bits : BitVec 12) : State :=
  (List.range 12).foldl (fun s j =>
    if bits.getLsbD j then
      let x := linkOf s (16 + j)
      openWindow s (16 + j) { x with tries := 0, prev := x.step }
    else s) s

/-- RCVR (R456): a GO while BUSY does nothing. -/
def writeRcvr (s : State) (v : Word) : State :=
  let x := s.rcvr
  let y : Rcvr := { x with addr := BitVec.ofNat 40 (fld v 51 12), commit := v.getLsbD 2 }
  { s with rcvr := if v.getLsbD 0 && !s.booted then { y with busy := true, run := if x.busy then x.run else y.addr } else y }

def rcvrWord (x : Rcvr) : Word :=
  natW (x.addr.toNat * 2 ^ 12 + x.status.toNat * 2 ^ 8 + (if x.commit then 4 else 0) + (if x.busy then 2 else 0))

/-- The fields of CXLCFG and FXCFG. -/
def cxlMask (v : Word) : Word := v &&& 0x800000FF00003FFF
def fxMask (v : Word) : Word := v &&& 0x8000000F000FFFFF

/-- First GiB and number of GiB of a decoder range. -/
def cxlSpan (s : State) (r : Nat) : Nat × Nat := (fld (mapGet 0 s.cxlBase r) 51 30, fld (mapGet 0 s.cxlCfg r) 13 0 + 1)

/-- An enabling of range r with a configuration is allowed (R385, R389). -/
def cxlAllowed (s : State) (r : Nat) (cfg : Word) : Bool :=
  let ways := fld cfg 35 34
  let port := fld cfg 33 32
  let b := fld (mapGet 0 s.cxlBase r) 51 30
  let n := fld cfg 13 0 + 1
  let on := (List.range 16).filter fun q => q != r && (mapGet 0 s.cxlCfg q).getLsbD 63
  ways != 3 && port % 2 ^ ways == 0 && (on.all fun q => let (c, m) := cxlSpan s q; c + m ≤ b || b + n ≤ c) &&
    decide ((on.map fun q => (cxlSpan s q).2).foldl (· + ·) n ≤ 16384)

def writeCxl (s : State) (r word : Nat) (v : Word) : State :=
  let on := (mapGet 0 s.cxlCfg r).getLsbD 63
  match word with
  | 0 => if on then s else { s with cxlBase := mapSet 0 s.cxlBase r (natW (fld v 51 30 * 2 ^ 30)) }
  | 1 => if on then s else { s with cxlDpa := mapSet 0 s.cxlDpa r (natW (fld v 51 30 * 2 ^ 30)) }
  | _ =>
    let c := cxlMask v
    if on && c.getLsbD 63 then s
    else
      let c1 := if c.getLsbD 63 && !cxlAllowed s r c then setFld c 63 63 0 else c
      { s with cxlCfg := mapSet 0 s.cxlCfg r c1 }

/-- The whole window lies in memory slices of its partition (R385). -/
def fxAllowed (s : State) (j : Nat) (cfg : Word) : Bool :=
  let b := fld (mapGet 0 s.fxBase j) 51 21
  let n := fld cfg 19 0 + 1
  let p := partOf s (BitVec.ofNat 4 (fld cfg 35 32))
  (List.range ((b + n - 1) / 2 ^ 14 - b / 2 ^ 14 + 1)).all fun i =>
    decide (b / 2 ^ 14 + i < 48) && p.pmem.getLsbD (b / 2 ^ 14 + i)

def writeFx (s : State) (j : Nat) (cfg : Bool) (v : Word) : State :=
  if !cfg then { s with fxBase := mapSet 0 s.fxBase j (natW (fld v 51 21 * 2 ^ 21)) }
  else
    let c := fxMask v
    let c1 := if c.getLsbD 63 && !(mapGet 0 s.fxCfg j).getLsbD 63 && !fxAllowed s j c then setFld c 63 63 0 else c
    { s with fxCfg := mapSet 0 s.fxCfg j c1 }

/-! ### Words read -/

def pclusWord (x : Part) : Word := x.pclus.setWidth 64
def pmemWord (x : Part) : Word := x.pmem.setWidth 64
def pasidWord (x : Part) : Word := natW (x.asidBase.toNat + x.asidCount.toNat * 2 ^ 16)
def penWord (x : Part) : Word := if x.en then 1 else 0
def dliveWord (s : State) (d : Nat) : Word := natW (d * 2 ^ 56 + (s.dlive.getD d 0).toNat)

/-- PKSTAT (R446). -/
def pkstatWord (p : Pkstat) : Word :=
  natW ((if p.rcv then 1 else 0) + p.halted.toNat * 2 ^ 4 + p.trip.toNat * 2 ^ 12 + p.fdown.toNat * 2 ^ 20 +
    p.bdown.toNat * 2 ^ 32 + p.mlost.toNat * 2 ^ 36 + p.lost.toNat * 2 ^ 40 + p.seq.toNat * 2 ^ 48)

/-- Current granted in the microsecond before a TIME, in units of 10^-4 A (R343, R344). -/
def grantedAt (x : DieState) (time : Nat) : Nat :=
  ((x.grants.filter fun g => time < g.1 + 1000).map (·.2)).foldl (· + ·) 0

/-- DCAP, DPST and DTHM of a die (R343, R455): GRANT is rounded up to whole amperes. -/
def dcapWord (x : DieState) : Word := natW (x.cap.toNat + x.slew.toNat * 2 ^ 32)
def dpstWord (s : State) (x : DieState) : Word :=
  natW (x.leave.length + (grantedAt x s.time + 9999) / 10000 * 2 ^ 16 + x.iavg.toNat * 2 ^ 32 + x.surcharge.toNat * 2 ^ 56)
def dthmWord (x : DieState) : Word :=
  natW (x.twarn.toNat + x.ttrip.toNat * 2 ^ 8 + x.brch.toNat * 2 ^ 24 + x.temp.toNat * 2 ^ 32)

/-- RDSTAT (R364). -/
def rdstatWord (s : State) (p : BitVec 4) : Word :=
  let reg := (partOf s p).rdq.toNat
  if partOfSlice s (reg * 65536 / 2 ^ 35) = some p && reg * 65536 / 2 ^ 35 < 48 then
    let r := regionOf s.annex reg
    let hold := (List.range 8).foldl (fun a d => if r.holders.contains d then a + 2 ^ d else a) 0
    natW (2 ^ 63 + hold * 2 ^ 8 + r.hint % 4 * 2 ^ 4 + r.deg % 8)
  else 0

/-- Teams of a partition now stopped at BKPT (R407). -/
def dbgWord (s : State) (p : BitVec 4) : Word :=
  let x := partOf s p
  natW ((if x.dbgAttach then 1 else 0) + (if x.dbgHalt then 2 else 0) +
    ((everyTeam s).filter fun t => t.part == p && t.bkpt).length % 2 ^ 16 * 2 ^ 16 + x.dbgLast.toNat * 2 ^ 32)

/-- A partition function's register, by its offset (R383). -/
def partRegWord (s : State) (p : BitVec 4) (off : Nat) : Word :=
  let x := partOf s p
  if off % 8 != 0 then 0
  else if off < 0x800 then
    let q := queueOf s p (off / 32)
    match off % 32 / 8 with
    | 0 => natW (q.base.toNat * 2 ^ 8)
    | 1 => qcfgWord q
    | 2 => q.head
    | _ => q.tail
  else if off < 0x840 then dliveWord s ((off - 0x800) / 8)
  else if off = 0x840 then attctlWord x
  else if off = 0xC00 then natW (x.scBase.toNat * 2 ^ 7)
  else if off = 0xC08 then sccfgWord x
  else if off = 0xC10 then x.scHead
  else if off = 0xC18 then x.scTail
  else if off = 0xC20 then x.scLost
  else if off = 0xC40 then natW (x.spBase.toNat * 2 ^ 16)
  else if off = 0xC48 then x.spSize.setWidth 64
  else if 0x1000 ≤ off && off < 0x1180 then cpwrWord (gateOf s ((off - 0x1000) / 8))
  else if off = 0x2000 then natW (x.rdq.toNat * 2 ^ 16)
  else if off = 0x2008 then rdstatWord s p
  else if 0x2100 ≤ off && off < 0x2180 then
    let d := dieOf s ((off - 0x2100) / 16)
    if off % 16 = 0 then dcapWord d else dpstWord s d
  else if 0x3000 ≤ off && off < 0x3038 then mapGet 0 x.thr ((off - 0x3000) / 8)
  else if 0x3100 ≤ off && off < 0x31D0 then
    mapGet 0 (if off % 16 = 0 then x.sec else x.seu) ((off - 0x3100) / 16)
  else if off = 0x3200 then pkstatWord s.pkstat
  else if 0x10000 ≤ off then asidWord s p ((off - 0x10000) / 8)
  else 0

/-- What the host reads of a partition's function: an absent function decodes no address (R383). -/
def readPartReg (s : State) (p : BitVec 4) (off : Nat) : Option Word :=
  if funPresent s p then some (partRegWord s p off) else none

/-- Byte i of the identity key block, which the boot's last step writes (R385, R393). -/
def identityByte (s : State) (i : Nat) : Byte :=
  let v := s.imageDigest
  let kl := Config.identityLen 0
  let cl := Config.identityLen 1
  if !s.booted then 0
  else if i < 4 then BitVec.ofNat 8 (kl / 2 ^ (8 * i))
  else if i < 8 then BitVec.ofNat 8 (cl / 2 ^ (8 * (i - 4)))
  else if i < 8 + kl then Config.identityByte v 0 (i - 8)
  else if i < 8 + kl + cl then Config.identityByte v 1 (i - 8 - kl)
  else 0

/-- An administrative register, by its offset (R384). -/
def readAdminReg (s : State) (off : Nat) : Word :=
  if off % 8 != 0 then 0
  else if off < 0x400 then
    let p := BitVec.ofNat 4 (off / 64)
    let x := partOf s p
    match off % 64 / 8 with
    | 0 => pclusWord x
    | 1 => pmemWord x
    | 2 => pasidWord x
    | 3 => penWord x
    | 4 => x.prmul.setWidth 64
    | 5 => natW (x.ovlo.toNat + x.ovhi.toNat * 2 ^ 32)
    | 6 => dbgWord s p
    | _ => natW (x.hpasid.toNat + if x.hpasidEn then 2 ^ 31 else 0)
  else if off < 0x800 then
    let t := (off - 0x400) % 64 / 8
    if t < 7 then natW (quota s (BitVec.ofNat 4 ((off - 0x400) / 64)) t) else 0
  else if off < 0x840 then dliveWord s ((off - 0x800) / 8)
  else if 0x1000 ≤ off && off < 0x1100 then
    let d := dieOf s ((off - 0x1000) / 32)
    match off % 32 / 8 with
    | 0 => dcapWord d
    | 1 => dpstWord s d
    | 2 => dthmWord d
    | _ => 0
  else if off = 0x1100 then s.diehalt.setWidth 64
  else if off = 0x1110 then rcvrWord s.rcvr
  else if 0x1200 ≤ off && off < 0x1400 then
    let r := (off - 0x1200) / 32
    match off % 32 / 8 with
    | 0 => mapGet 0 s.cxlBase r
    | 1 => mapGet 0 s.cxlDpa r
    | 2 => mapGet 0 s.cxlCfg r
    | _ => 0
  else if 0x1400 ≤ off && off < 0x14C0 then
    let j := (off - 0x1400) / 16
    if off % 16 = 0 then mapGet 0 s.fxBase j else mapGet 0 s.fxCfg j
  else if off = 0x3200 then pkstatWord s.pkstat
  else if 0x80000 ≤ off && off < 0x90000 then
    natW (natOfBytes ((List.range 8).map fun i => identityByte s (off - 0x80000 + i)))
  else 0

/-! ### Writes by offset -/

/-- Device Control 2 of a function, where the model places it: at offset 0x28 of its configuration space, whose bit 6 is
AtomicOp Requester Enable (R433). PRESUMED, log 74. -/
def writeConfig (s : State) (p : BitVec 4) (off : Nat) (v : Word) : State :=
  if off = 0x28 then let x := partOf s p; setPart s p { x with atomicEn := v.getLsbD 6 } else s

/-- A write to a partition function: to its BAR0, or from offset 2^20 on to its configuration space. -/
def writePartReg (s : State) (p : BitVec 4) (off : Nat) (v : Word) : State :=
  if 2 ^ 20 ≤ off then writeConfig s p (off - 2 ^ 20) v
  else if off % 8 != 0 then s
  else if off < 0x800 then
    match off % 32 / 8 with
    | 0 => writeQbase s p (off / 32) v
    | 1 => writeQcfg s p (off / 32) v
    | 3 => writeQtail s p (off / 32) v
    | _ => s
  else if off = 0x840 then writeAttctl s p v
  else if off = 0xC00 then writeScbase s p v
  else if off = 0xC08 then writeSccfg s p v
  else if off = 0xC10 then writeSchead s p v
  else if off = 0xC40 then writeSavePool s p false v
  else if off = 0xC48 then writeSavePool s p true v
  else if 0x1000 ≤ off && off < 0x1180 then writeCpwr s p ((off - 0x1000) / 8) v
  else if off = 0x2000 then let x := partOf s p; setPart s p { x with rdq := BitVec.ofNat 36 (fld v 51 16) }
  else if 0x10000 ≤ off then writeAsid s p ((off - 0x10000) / 8) v
  else s

/-- A write to the block of partition p in the administrative BAR0. -/
def writeBlockReg (s : State) (p : BitVec 4) (word : Nat) (v : Word) : State :=
  match word with
  | 0 => writePclus s p v
  | 1 => writePmem s p v
  | 2 => writePasid s p v
  | 3 => writePen s p (v.getLsbD 0)
  | 4 => writePrmul s p v
  | 5 => writeProv s p v
  | 6 => debugHalt (debugAttach s p (v.getLsbD 0)) p (v.getLsbD 1)
  | 7 => writeHpasid s p v
  | _ => s

/-- A write to the administrative function's BAR0. -/
def writeAdminReg (s : State) (off : Nat) (v : Word) : State :=
  if off % 8 != 0 then s
  else if off < 0x400 then writeBlockReg s (BitVec.ofNat 4 (off / 64)) (off % 64 / 8) v
  else if off < 0x800 then
    let t := (off - 0x400) % 64 / 8
    if t < 7 then writeQuota s (BitVec.ofNat 4 ((off - 0x400) / 64)) t v else s
  else if 0x1000 ≤ off && off < 0x1100 then
    match off % 32 / 8 with
    | 0 => writeDcap s ((off - 0x1000) / 32) v
    | 2 => writeDthm s ((off - 0x1000) / 32) v
    | _ => s
  else if off = 0x1100 then writeDiehalt s v
  else if off = 0x1108 then trainLinks s (v.setWidth 12)
  else if off = 0x1110 then writeRcvr s v
  else if 0x1200 ≤ off && off < 0x1400 then
    if off % 32 / 8 < 3 then writeCxl s ((off - 0x1200) / 32) (off % 32 / 8) v else s
  else if 0x1400 ≤ off && off < 0x14C0 then writeFx s ((off - 0x1400) / 16) (off % 16 != 0) v
  else s

end Sys2Proof.Machine
end

