-- ==== Sys2Proof/Machine/RegWrites.lean ====
section
/-! DEFINITION. Writes to the functions' registers from outside (spec/23 R383-R385, R392; spec/00 R4, R5). A function that
is not present decodes no address, and no register of its partition changes. -/

namespace Sys2Proof.Machine

/-- A write to the function of a partition. -/
def toPart (p : BitVec 4) (s : State) (f : State → State) : Host.Outcome State Fault Refusal :=
  .next (if funPresent s p then f s else s)

/-- A write to the block of a partition in the administrative function, which answers in a stopped boot too (R16, R456). -/
def toBlock (s : State) (f : State → State) : Host.Outcome State Fault Refusal := .next (f s)

def execQtailWrite (p : BitVec 4) (q : BitVec 6) (v : Word) (s : State) := toPart p s fun s => writeQtail s p q.toNat v
def execQcfgWrite (p : BitVec 4) (q : BitVec 6) (v : Word) (s : State) := toPart p s fun s => writeQcfg s p q.toNat v
def execSccfgWrite (p : BitVec 4) (v : Word) (s : State) := toPart p s fun s => writeSccfg s p v
def execScheadWrite (p : BitVec 4) (v : Word) (s : State) := toPart p s fun s => writeSchead s p v

/-- ATTCTL with GO = 1 (R395). -/
def execAttctlGo (p : BitVec 4) (v : Word) (s : State) := toPart p s fun s => writeAttctl s p (v ||| 1)

/-- CPWR with a new REQ (R351). -/
def execCpwrQuiesce (p : BitVec 4) (cl : BitVec 6) (s : State) := toPart p s fun s => requestPower s p cl.toNat 1
def execCpwrSave (p : BitVec 4) (cl : BitVec 6) (s : State) := toPart p s fun s => requestPower s p cl.toNat 2
def execCpwrGate (p : BitVec 4) (cl : BitVec 6) (s : State) := toPart p s fun s => requestPower s p cl.toNat 3
def execCpwrRun (p : BitVec 4) (cl : BitVec 6) (s : State) := toPart p s fun s => requestPower s p cl.toNat 0

/-- RCVR with GO = 1 (R456). -/
def execRcvrGo (v : Word) (s : State) : Host.Outcome State Fault Refusal := .next (writeRcvr s (v ||| 1))

def execFlrtrTrain (links : BitVec 12) (s : State) : Host.Outcome State Fault Refusal := .next (trainLinks s links)
def execDiehaltSet (die : BitVec 3) (s : State) : Host.Outcome State Fault Refusal := .next (haltDie s die.toNat)
def execDiehaltClear (die : BitVec 3) (s : State) : Host.Outcome State Fault Refusal := .next (releaseDie s die.toNat)
def execDbgHaltWrite (p : BitVec 4) (on : Bool) (s : State) := toBlock s fun s => debugHalt s p on
def execDbgAttachWrite (p : BitVec 4) (on : Bool) (s : State) := toBlock s fun s => debugAttach s p on
def execPartitionEnable (p : BitVec 4) (en : Bool) (s : State) := toBlock s fun s => writePen s p en

/-- Function 16 is the administrative function; there are no further ones. -/
def execRegisterWrite (fn : BitVec 5) (off : BitVec 21) (v : Word) (s : State) : Host.Outcome State Fault Refusal :=
  if fn.toNat < 16 then toPart (fn.setWidth 4) s fun s => writePartReg s (fn.setWidth 4) off.toNat v
  else .next (if fn = 16 then writeAdminReg s off.toNat v else s)

end Sys2Proof.Machine
end

