-- ==== Sys2Proof/Machine/Shake.lean ====
section
/-! DEFINITION. SHAKE256 with 64 bytes of output, which checks and names a firmware image (spec/23 R394, R395). The manual names
the function and does not define it; it is that of FIPS 202: PRESUMED, log 82. -/

namespace Sys2Proof.Machine

/-- The 25 lanes of the permutation, lane (x, y) at x + 5 × y. -/
abbrev Lanes := List Word

def laneAt (a : Lanes) (x y : Nat) : Word := a.getD (x % 5 + 5 * (y % 5)) 0

/-- Lanes made from their coordinates. -/
def lanesOf25 (f : Nat → Nat → Word) : Lanes := (List.range 25).map fun i => f (i % 5) (i / 5)

/-- The rotations of the lanes, in their order. -/
def laneTurns : List Nat :=
  [0, 1, 62, 28, 27, 36, 44, 6, 55, 20, 3, 10, 43, 25, 39, 41, 45, 15, 21, 8, 18, 2, 61, 56, 14]

/-- The round constants. -/
def roundWords : List Word :=
  [0x0000000000000001, 0x0000000000008082, 0x800000000000808A, 0x8000000080008000, 0x000000000000808B, 0x0000000080000001,
   0x8000000080008081, 0x8000000000008009, 0x000000000000008A, 0x0000000000000088, 0x0000000080008009, 0x000000008000000A] ++
  [0x000000008000808B, 0x800000000000008B, 0x8000000000008089, 0x8000000000008003, 0x8000000000008002, 0x8000000000000080,
   0x000000000000800A, 0x800000008000000A, 0x8000000080008081, 0x8000000000008080, 0x0000000080000001, 0x8000000080008008]

/-- Each lane takes the parity of the column before it and of the turned column after it. -/
def mixColumns (a : Lanes) : Lanes :=
  let c := (List.range 5).map fun x => (List.range 5).foldl (fun w y => w ^^^ laneAt a x y) 0
  let d := (List.range 5).map fun x => c.getD ((x + 4) % 5) 0 ^^^ (c.getD ((x + 1) % 5) 0).rotateLeft 1
  lanesOf25 fun x y => laneAt a x y ^^^ d.getD x 0

/-- Lanes turned and moved: the lane that comes to (x, y) stood at (x + 3y, x). -/
def moveLanes (a : Lanes) : Lanes :=
  lanesOf25 fun x y => let u := (x + 3 * y) % 5; (laneAt a u x).rotateLeft (laneTurns.getD (u + 5 * x) 0)

/-- The rows' own step. -/
def mixRows (a : Lanes) : Lanes := lanesOf25 fun x y => laneAt a x y ^^^ (~~~(laneAt a (x + 1) y) &&& laneAt a (x + 2) y)

def keccakRound (a : Lanes) (w : Word) : Lanes :=
  match mixRows (moveLanes (mixColumns a)) with
  | b :: rest => (b ^^^ w) :: rest
  | [] => []

def keccak (a : Lanes) : Lanes := roundWords.foldl keccakRound a

/-- A block of 136 bytes joins the state. -/
def absorb (a : Lanes) (bs : List Byte) : Lanes :=
  keccak ((List.range 25).map fun i => a.getD i 0 ^^^ BitVec.ofNat 64 (if i < 17 then natAt bs (8 * i) 8 else 0))

/-- The last block: the bytes left, then 0x1F, and 0x80 in its last byte. -/
def lastBlock (bs : List Byte) : List Byte :=
  if bs.length = 135 then bs ++ [0x9F] else bs ++ [0x1F] ++ bytesOfNat (134 - bs.length) 0 ++ [0x80]

def absorbAll : Nat → Lanes → List Byte → Lanes
  | 0, a, bs => absorb a (lastBlock bs)
  | n + 1, a, bs => absorbAll n (absorb a (bs.take 136)) (bs.drop 136)

/-- SHAKE256 of a byte string: 64 bytes, the first the lowest. -/
def shake256 (bs : List Byte) : BitVec 512 :=
  BitVec.ofNat 512 (natOfBytes (((absorbAll (bs.length / 136) (List.replicate 25 0) bs).take 8).flatMap fun w => bytesOfNat 8 w.toNat))

end Sys2Proof.Machine
end

