-- ==== Sys2Proof/Machine/Boot.lean ====
section
/-! DEFINITION. Boot, recovery, function-level reset, attestation and the power states of clusters (spec/17 R351, spec/23
R393-R395, spec/27 R450, R456). -/

namespace Sys2Proof.Machine

/-! ### Boot (R393, R19, R20) -/

/-- Clusters with a live core. -/
def liveClusters (s : State) : BitVec 48 :=
  BitVec.ofNat 48 ((List.range 48).foldl (fun a n => if (clusterCores s n).isEmpty then a else a + 2 ^ n) 0)

/-- Every service team finds a core with room. -/
def serviceRoom (s : State) : Bool := (serviceCores s).all Option.isSome

/-- A firmware image as it is read: n bytes from an offset (R394). -/
abbrev Image := Nat → Nat → List Byte

/-- The header is as R394's table gives it. -/
def headerFits (img : Image) : Bool :=
  let hd := img 0 4096
  let blen := natAt hd 8 8
  let slen := natAt hd 3968 2
  natAt hd 0 8 == 1 && blen % 4096 == 0 && decide (blen ≤ 2 ^ 28) && zeroBytes hd 88 3968 && decide (1 ≤ slen) && decide (slen ≤ 1280) &&
    zeroBytes hd 3970 4096

def imageField (img : Image) (off n : Nat) : Nat := natAt (img off n) 0 n
def imageBody (img : Image) : List Byte := img 4096 (imageField img 8 8)

/-- SHAKE256 of header bytes 0 to 3,967 followed by the body. -/
def digestOf (img : Image) : BitVec 512 := shake256 (img 0 3968 ++ imageBody img)

/-- The signature that follows the body. -/
def imageSignature (img : Image) : List Byte := img (4096 + imageField img 8 8) (imageField img 3968 2)

/-- The signature verifies over the digest. DESIGN CHOICE, log 14. -/
def vendorSigned (digest : BitVec 512) (sig : List Byte) : Bool :=
  decide (sig = bytesOfNat 1280 (Config.vendorSignature digest).toNat) || Config.otherVerifies digest sig

/-- The four checks in their order: the STATUS of the first that fails, or 0. -/
def imageStatus (img : Image) : BitVec 4 :=
  if !headerFits img then 1
  else if shake256 (imageBody img) != BitVec.ofNat 512 (imageField img 24 64) then 2
  else if !vendorSigned (digestOf img) (imageSignature img) then 3
  else if imageField img 16 8 < Config.rollbackFloor.toNat then 4
  else 0

/-- The image that the flash holds: one that ends before its signature does cannot be read. DESIGN CHOICE, log 14. -/
def flashStatus (flash : Option (List Byte)) : BitVec 4 :=
  match flash with
  | none => 5
  | some bs =>
    if bs.length < 4096 || (headerFits (sliceBytes bs) && decide (bs.length < 4096 + natAt bs 8 8 + natAt bs 3968 2)) then 5
    else imageStatus (sliceBytes bs)

/-- The image that the host supplies at an address. -/
def hostImage (s : State) (addr : BitVec 40) : Image := fun off n => memBytes s (locHost (addr.toNat * 4096 + off)) n

/-- Partition 0 takes the live clusters, and the slices, that no partition holds. -/
def firstPart (s : State) : Part :=
  let taken := (othersOf 0).foldl (fun x p => (x.1 ||| (partOf s p).pclus, x.2 ||| (partOf s p).pmem)) (0#48, 0#48)
  { partOf s 0 with pclus := liveClusters s &&& ~~~taken.1, pmem := ~~~taken.2 }

/-- The last steps of a boot with an accepted image. What the administrator set while the boot was stopped stands: DESIGN CHOICE,
log 81. -/
def bootNow (s : State) (img : Image) : State :=
  { setPart s 0 (firstPart s) with
      booted := true, imageVersion := BitVec.ofNat 64 (imageField img 16 8), imageDigest := digestOf img, time := 0, seq := 0 }

/-- Memory outside the module, which its power does not touch. DESIGN CHOICE, log 65. -/
def outsideMem (s : State) : List Host.Cell :=
  s.mem.filter fun c => targetOf c.1 == .host || targetOf c.1 == .cxl || targetOf c.1 == .peer

/-- Cores that failed self-test stay in their retention state: no island of one is powered (R18). -/
def fencedCores (live : List (BitVec 48)) : List (Nat × CoreState) :=
  (List.range 512).filterMap fun k =>
    if k % 64 < 48 && !(live.getD (k / 64) 0).getLsbD (k % 64) then some (k, { powered := 0 }) else none

/-- The package before the last step of its boot: the registers of partition 0 stand at their Reset values (R6, R392). -/
def unbooted (live : List (BitVec 48)) (s : State) : State :=
  { State.reset with mem := outsideMem s, inbox := s.inbox, fresh := s.fresh, serial := s.serial, dlive := live,
                     cores := fencedCores live, parts := [(0, { Part.zeroAtReset with pclus := 0, pmem := 0 })], booted := false }

/-- POWER_ON_RESET: self-test gives the live cores, and the checks of the flash's image what becomes of the boot. -/
def execPowerOnReset (live : List (BitVec 48)) (flash : Option (List Byte)) (s : State) : Host.Outcome State Fault Refusal :=
  .next (
    let s1 := unbooted live s
    if !serviceRoom s1 then s1
    else if flashStatus flash != 0 then { s1 with rcvr := { status := flashStatus flash } }
    else bootNow s1 (sliceBytes (flash.getD [])))

/-- RECOVERY_DONE: the image supplied by the host is refused, or runs (R456). -/
def execRecoveryDone (addr : BitVec 40) (s : State) : Host.Outcome State Fault Refusal :=
  .next (
    let img := hostImage s addr
    let st := imageStatus img
    if !s.rcvr.busy || s.rcvr.run != addr then s
    else if st != 0 then { s with rcvr := { s.rcvr with busy := false, status := st } }
    else
      let s1 := setPkstat { s with rcvr := { s.rcvr with busy := false, status := 0 }, fresh := s.fresh + 1 } fun p =>
        { p with rcv := !(s.rcvr.commit && Config.flashTakes s.fresh) }
      if serviceRoom s1 then bootNow s1 img else s1)

/-! ### Function-level reset (R450) -/

/-- Records held by a partition's capsule-holding entries. -/
def heldRecords (s : State) (p : BitVec 4) : List Nat :=
  ((everyTeam s).filter fun t => t.part == p).flatMap fun t => (t.held.toList ++ t.displaced.toList).map (·.rcd)

/-- A record that is held by a team of the partition is broken. -/
def breakHeld (p : BitVec 4) (s : State) (rcd : Nat) : State :=
  if (recWord s rcd 0).getLsbD 0 && fld (recWord s rcd 8) 63 60 == p.toNat then breakRecord s rcd else s

/-- What belongs to a partition goes: teams, saved ones too, blocks, engine operations, levels, requests and reports. -/
def discardPart (s : State) (p : BitVec 4) : State :=
  let mine := fun t : Team => t.part == p
  let gone := s.blocks.filter fun b => b.part == p
  let places := ((teamsOf s).filter mine).map (·.place)
  let ids := (s.engines.filter fun o => o.part == p).map (·.id)
  let s1 := gone.foldl (fun s b => unloadBlock s b.part b.launch b.blk) s
  { s1 with
    team := if mine s1.team then {} else s1.team
    others := s1.others.filter fun t => !mine t
    preempted := s1.preempted.filter fun x => x.part != p
    preempting := s1.preempting.filter fun x => x.part != p
    engines := s1.engines.filter fun o => o.part != p
    service := s1.service.filter fun e => e.part != p
    capWait := s1.capWait.filter fun x => !places.contains x.2
    capWrites := s1.capWrites.filter fun w => fld w.owner 63 60 != p.toNat
    peerHeld := s1.peerHeld.filter fun x => x.tag != p
    hallOut := s1.hallOut.filter fun x => x.part != p
    levels := s1.levels.filter fun l => l.part != p
    cancels := s1.cancels.filter fun x => x.1.part != p
    spans := s1.spans.filter fun x => x.part != p
    dies := s1.dies.map fun x => (x.1, { x.2 with leave := x.2.leave.filter fun r => match r.1 with
      | .op id => !ids.contains id
      | .mma t _ => !places.contains t
      | .wake _ _ => true }) }

/-- The partition's entry with every register of its function at its Reset value; what the administrative function set
stays. DEDUCED, log 49. -/
def resetPart (x : Part) : Part :=
  { pclus := x.pclus, pmem := x.pmem, asidBase := x.asidBase, asidCount := x.asidCount, en := x.en, prmul := x.prmul,
    ovlo := x.ovlo, ovhi := x.ovhi, mulForce := x.mulForce, loForce := x.loForce, hiForce := x.hiForce, quotas := x.quotas,
    hpasidEn := x.hpasidEn, hpasid := x.hpasid, dbgAttach := x.dbgAttach, dbgHalt := x.dbgHalt, dbgLast := x.dbgLast,
    resetting := true }

/-- The islands of a reset cluster are powered again. -/
def ungate (s : State) (cl : Nat) : State :=
  let s1 := setGate s cl {}
  if (gateOf s cl).st = 4 || (gateOf s cl).st = 5 then
    (clusterCores s cl).foldl (fun s k => setCore s k { coreAt s k with powered := 31, waking := 0 }) s1
  else s1

def dropRange {β : Type} (m : List (Nat × β)) (lo n : Nat) : List (Nat × β) := m.filter fun x => x.1 < lo || lo + n ≤ x.1

/-- A dirty byte of a partition: on a core of its cluster, or stored by its control team. -/
def dirtyOf (s : State) (p : BitVec 4) (k loc : Nat) : Bool :=
  if k / 64 = 8 then (mapGet none s.dirty (dirtyKey k loc)).any fun d => d.part == p
  else partOfCluster s (clusterOf (k / 64) (k % 64)) == some p

/-- FUNCTION_LEVEL_RESET of a partition: dirty lines of its cores are written back, and in-flight writes are discarded. -/
def execFunctionLevelReset (p : BitVec 4) (s : State) : Host.Outcome State Fault Refusal :=
  .next (if !funPresent s p then s
    else
      let x := partOf s p
      let s1 := flushWhere s (dirtyOf s p)
      let s2 := discardPart ((heldRecords s1 p).foldl (breakHeld p) s1) p
      let s3 := ((List.range 48).filter fun c => x.pclus.getLsbD c).foldl ungate (setPart s2 p (resetPart x))
      { s3 with asid0 := dropRange s3.asid0 x.asidBase.toNat x.asidCount.toNat,
                asid1 := dropRange s3.asid1 x.asidBase.toNat x.asidCount.toNat,
                annexCnt := dropRange s3.annexCnt (p.toNat * 32) 32 })

/-- FUNCTION_LEVEL_RESET_DONE: the function answers again. -/
def execFunctionLevelResetDone (p : BitVec 4) (s : State) : Host.Outcome State Fault Refusal :=
  .next (let x := partOf s p; if x.resetting then setPart s p { x with resetting := false } else s)

/-! ### Attestation (R395) -/

/-- The identity public key, which depends on the running image's digest. -/
def identityKey (s : State) : List Byte := (List.range (Config.identityLen 0)).map (Config.identityByte s.imageDigest 0)

/-- The bytes that the report signs. -/
def reportBody (s : State) (p : BitVec 4) (nonce : List Byte) : List Byte :=
  let x := partOf s p
  bytesOfNat 8 1 ++ bytesOfNat 64 (shake256 (identityKey s)).toNat ++ bytesOfNat 64 s.imageDigest.toNat ++
    bytesOfNat 8 s.imageVersion.toNat ++
    ((List.range 8).flatMap fun d => bytesOfNat 8 (dliveWord s d).toNat) ++ bytesOfNat 8 (pclusWord x).toNat ++
    bytesOfNat 8 (pmemWord x).toNat ++ bytesOfNat 8 (pasidWord x).toNat ++ bytesOfNat 8 (penWord x).toNat ++ nonce

/-- The report of 3,584 bytes. -/
def reportBytes (s : State) (p : BitVec 4) (nonce : List Byte) : List Byte :=
  let n := min (Config.signatureLen s.fresh) 3310
  let bs := reportBody s p nonce ++ bytesOfNat 2 n ++ (List.range n).map (Config.signatureByte s.fresh)
  bs ++ bytesOfNat (3584 - bs.length) 0

/-- ATTESTATION_REPORT_DONE: the report is written, then BUSY clears. -/
def execAttestationReportDone (p : BitVec 4) (s : State) : Host.Outcome State Fault Refusal :=
  .next (
    let x := partOf s p
    if !x.attBusy then s
    else
      let loc := locHost (x.attRun.toNat * 4096)
      let s1 := flushLines s loc 4096
      let s2 := performStore s1 p hallPlace loc (reportBytes s1 p (memBytes s1 (loc + 3584) 32))
      setPart { s2 with fresh := s2.fresh + 1 } p { partOf s2 p with attBusy := false })

/-! ### Power states of a cluster (R351) -/

/-- Every team of a quiescing cluster is parked, its records are marked, and its engine operations have retired or paused. -/
def quiesced (s : State) (cl : Nat) : Bool :=
  let ts := clusterTeams s cl
  (ts.all fun t => !t.parks.isEmpty && !capPending t && !parkPending s t.place) &&
    !(s.engines.any fun o => decide (o.place.die.toNat < 8) && clusterOf o.place.die.toNat o.place.core.toNat == cl &&
      match o.state with
        | .running | .leave | .finished => o.started
        | _ => false)

/-- The save area's 20 MiB lie in the partition's device memory. -/
def saveFits (s : State) (p : BitVec 4) (base n : Nat) : Bool :=
  partOfSlice s (base / 2 ^ 35) == some p && partOfSlice s ((base + n - 1) / 2 ^ 35) == some p

/-- Dirty lines are written back, and the cluster's state goes to the save area, whose layout is not architectural. DESIGN
CHOICE, log 46. -/
def saveCluster (s : State) (cl : Nat) : State :=
  let s1 := (clusterCores s cl).foldl flushCore s
  let base := (gateOf s1 cl).save.toNat * 65536
  let n := 20 * 2 ^ 20
  match partOfCluster s1 cl with
  | some p => if saveFits s1 p base n then scribble s1 base n else s1
  | none => s1

/-- Every island of the cluster's live cores is powered. -/
def clusterUp (s : State) (cl : Nat) : Bool := (clusterCores s cl).all fun k => (coreAt s k).powered == 31

/-- The next power state that a cluster has reached, if any. -/
def nextPower (s : State) (cl : Nat) : Option (BitVec 3) :=
  let g := gateOf s cl
  match g.st.toNat with
  | 1 => if quiesced s cl then some 2 else none
  | 2 => if g.req = 2 then some 3 else none
  | 3 => if g.req = 3 then some 4 else none
  | 5 => if clusterUp s cl then some 0 else none
  | _ => none

/-- CLUSTER_POWER_STATE_REACHED. -/
def execClusterPowerStateReached (cl : BitVec 6) (s : State) : Host.Outcome State Fault Refusal :=
  .next (
    let c := cl.toNat
    match nextPower s c with
    | none => s
    | some st =>
      let s1 := if st = 3 then saveCluster s c else s
      let s2 := setGate s1 c { gateOf s1 c with st := st }
      if st = 4 then (clusterCores s2 c).foldl (fun s k => emptyL1 (setCore s k { coreAt s k with powered := 0, waking := 0 }) k) s2
      else if st = 0 then
        fillAll ((clusterTeams s2 c).foldl (fun s t => releaseTeam s t.place .quiesce) s2)
      else s2)

end Sys2Proof.Machine
end

