-- ==== Sys2Proof/Machine/LinkEvents.lean ====
section
/-! DEFINITION. Links, dies and peers (spec/19 R357, spec/23 R382, R390, spec/27 R446-R449, R452-R454). -/

namespace Sys2Proof.Machine

/-! ### Link steps (R357) -/

/-- Only hall ports and twin bridges have steps. -/
def hasSteps : Link → Bool
  | .folros _ => false
  | _ => true

/-- A step opens a retraining window; two steps of one link are at least 10 μs apart. -/
def stepLink (s : State) (l : Link) (up : Bool) : State :=
  let x := linkOf s (linkKey l)
  let ok := hasSteps l && !x.retraining && !x.down && (x.stepped.all fun t => t + 10000 ≤ s.time) &&
    if up then decide (x.step < 4) else decide (1 < x.step)
  if ok then
    openWindow s (linkKey l) { x with prev := x.step, step := if up then x.step + 1 else x.step - 1, tries := 0, stepped := some s.time }
  else s

def execLinkStepUp (l : Link) (s : State) : Host.Outcome State Fault Refusal := .next (stepLink s l true)
def execLinkStepDown (l : Link) (s : State) : Host.Outcome State Fault Refusal := .next (stepLink s l false)

/-! ### The loss of a die (R449) -/

/-- A command of a level that has not begun is cancelled with the code. -/
def dropHeldLevel (s : State) (p : BitVec 4) (q : Nat) : State :=
  match (queueOf s p q).held with
  | none => s
  | some h =>
    match commandOf h.cmd with
    | none => s
    | some c =>
      if (List.range 4).any fun n => cancelFits n h.cmd then
        completeCmd (dropChild (freeQueue s p q) h.parent true) (cmdRef s c) 0x90 false true
      else s

/-- Every level that is not complete is cancelled with error code 0x90, those that wait in a queue among them. -/
def cancelAll (s : State) : State :=
  let s1 : State :=
    { s with levels := s.levels.map fun l => { l with ended := true },
             parts := s.parts.map fun x => (x.1, { x.2 with openPhase := none, openJob := none }) }
  let s2 := allParts.foldl (fun s p => (List.range 64).foldl (fun s q => dropHeldLevel s p q) s) s1
  settleCancels (((s2.levels.filter fun l => l.parent.isNone).map (·.serial)).foldl (fun s k => settle4 (cancelLevel s k 0x90) k) s2)

/-- A die is lost: its engines are gone, and every queue stops while it is (R449). DESIGN CHOICE, log 50. -/
def loseDie (s : State) (memory : Bool) (die : Nat) : State :=
  if (if memory then s.pkstat.mlost.getLsbD die || decide (4 ≤ die) else s.pkstat.lost.getLsbD die) then s
  else
    let s1 := setPkstat s fun p =>
      if memory then { p with mlost := p.mlost ||| BitVec.ofNat 4 (2 ^ die) } else { p with lost := setBit8 p.lost die true }
    let s2 := if memory then s1 else
      (s1.engines.filter fun o => o.place.die.toNat == die).foldl abortOp s1
    cancelAll s2

/-- RESPONSE_WATCHDOG: it counts only while no die is halted and no retraining window is open (R357, R453). -/
def execResponseWatchdog (memory : Bool) (die : BitVec 3) (s : State) : Host.Outcome State Fault Refusal :=
  .next (if s.diehalt = 0 && (heldLinks s).isEmpty then loseDie s memory die.toNat else s)

/-- REGULATOR_TRIP (R454). -/
def execRegulatorTrip (die : BitVec 3) (s : State) : Host.Outcome State Fault Refusal := .next (loseDie s false die.toNat)

/-! ### Retraining (R447, R448) -/

/-- A link is down. -/
def linkDown (s : State) (l : Link) : State :=
  let s1 := setLink s (linkKey l) { linkOf s (linkKey l) with retraining := false, down := true }
  releasePeers (match l with
    | .compute d => loseDie s1 false d.toNat
    | .memory m => loseDie s1 true m.toNat
    | .twin i => setPkstat s1 fun p => { p with bdown := p.bdown ||| BitVec.ofNat 4 (2 ^ i.toNat) }
    | .folros j => setPkstat s1 fun p => { p with fdown := p.fdown ||| BitVec.ofNat 12 (2 ^ j.toNat) })

/-- A link has locked; a Folros Link that was down is up again. -/
def linkLocked (s : State) (l : Link) : State :=
  let s1 := setLink s (linkKey l) { linkOf s (linkKey l) with retraining := false, tries := 0, down := false }
  releasePeers (match l with
    | .folros j => setPkstat s1 fun p => { p with fdown := p.fdown &&& ~~~(BitVec.ofNat 12 (2 ^ j.toNat)) }
    | _ => s1)

/-- RETRAINING_WINDOW_END: three retries at the previous step, three at a quarter, then the link is down. -/
def execRetrainingWindowEnd (l : Link) (locked : Bool) (s : State) : Host.Outcome State Fault Refusal :=
  .next (
    let x := linkOf s (linkKey l)
    if !x.retraining then s
    else if locked then fillAll (linkLocked s l)
    else if 6 ≤ x.tries then fillAll (linkDown s l)
    else setLink s (linkKey l) { x with tries := x.tries + 1, step := if x.tries < 3 then x.prev else 1 })

/-! ### Die halt (R452) -/

/-- DIE_HALTED: every core of a halting die has stopped. What was on its way to the die has arrived. -/
def hasStopped (s : State) (d : Nat) : Bool :=
  s.diehalt.getLsbD d && !s.pkstat.halted.getLsbD d &&
    (dieTeams s d).all fun t => !t.parks.isEmpty && !capPending t && !parkPending s t.place

def execDieHalted (die : BitVec 3) (s : State) : Host.Outcome State Fault Refusal :=
  .next (if hasStopped s die.toNat then setPkstat (drain s) fun p => { p with halted := setBit8 p.halted die.toNat true } else s)

/-! ### The host port and the peers (R382, R390) -/

/-- HOST_LINK_UP: the port trains at ×16, ×8 or ×4. Lines of host memory that an L1 held in the earlier mode are performed. -/
def execHostLinkUp (m : PortMode) (s : State) : Host.Outcome State Fault Refusal :=
  .next (if m.width = 16 || m.width = 8 || m.width = 4 then
      { flushWhere s (fun _ l => targetOf l == .host) with port := some m }
    else s)

/-- PEER_REQUEST. -/
def execPeerRequest (link : BitVec 4) (tag : BitVec 4) (r : PeerReq) (s : State) : Host.Outcome State Fault Refusal :=
  .next (takePeer s ⟨link, tag, r⟩)

end Sys2Proof.Machine
end

