-- ==== Sys2Proof/Machine/Annex.lean ====
section
/-! DEFINITION. The annex directory's decisions: degrees and holders (spec/19 R360-R362), and ANNEX.HINT (spec/12
R284). -/

namespace Sys2Proof.Machine

/-- The holder that a drop takes (R362): the fewest hits, then the highest die. -/
def worstHolder (hits : Nat → Nat) : List Nat → Option Nat
  | [] => none
  | d :: rest =>
    match worstHolder hits rest with
    | none => some d
    | some e => if hits d < hits e || (hits d == hits e && decide (e < d)) then some d else some e

/-- Holders dropped until no more than the degree remain. -/
def dropHolders (hits : Nat → Nat) : Nat → Region → Region
  | 0, r => r
  | n + 1, r =>
    if r.holders.length ≤ r.deg then r
    else
      match worstHolder hits r.holders with
      | none => r
      | some d =>
        dropHolders hits n { r with holders := r.holders.filter fun e => e != d,
                                    lines := r.lines.filter fun x => x.1 != d }

/-- The region with a degree. -/
def setDegree (hits : Nat → Nat) (r : Region) (deg : Nat) : Region := dropHolders hits 8 { r with deg := deg }

/-- The regions of the directory set anew: an annex that goes leaves its die's L2 (R77, R80). -/
def setRegions (s : State) (rs : List Region) : State :=
  let gone := (s.annex.flatMap (·.lines)).filter fun x => !(rs.any fun r => r.lines.contains x)
  { s with annex := rs, l2 := dropCopies s.l2 gone }

/-- The hint codes of R284. -/
inductive Hint where
  | clr | pin | floor | ceil
  deriving DecidableEq, Repr

/-- One hint on one region: it stands, and a PIN, a FLOOR above the degree or a CEIL below it acts at once. -/
def hintRegion (h : Hint) (deg : Nat) (r : Region) : Region :=
  let hits := mapGet 0 r.lastHits
  match h with
  | .clr => { r with hint := 0, hintDeg := 0 }
  | .pin => setDegree hits { r with hint := 1, hintDeg := deg } deg
  | .floor => let r1 : Region := { r with hint := 2, hintDeg := deg }; if r.deg < deg then setDegree hits r1 deg else r1
  | .ceil => let r1 : Region := { r with hint := 3, hintDeg := deg }; if deg < r.deg then setDegree hits r1 deg else r1

/-- The region of device memory of the team's partition that an address translates to (R284). -/
def hintTarget (s : State) (va : Word) : Option Nat :=
  if va.toNat / 2 ^ 52 != 0 || (decodeWindow s s.team.who va.toNat 1 .none).isSome then none
  else
    match translate s s.team.part s.team.asid va.toNat .none with
    | .ok loc => if targetOf loc = .device then some (loc / 65536) else none
    | .error _ => none

/-- A hint on n regions from an address. -/
def hintRegions (h : Hint) (deg : Nat) (s : State) (va : Word) (n : Nat) : State :=
  (List.range n).foldl (fun s i =>
    match hintTarget s (va + BitVec.ofNat 64 (i * 65536)) with
    | some r => setRegions s (putRegion s.annex (hintRegion h deg (regionOf s.annex r)))
    | none => s) s

/-- ANNEX.HINT: a count above 65,536 applies to 65,536 regions (R421). -/
def annexHint (i : Instr) (h : Hint) (a b : SSrc) (deg : Nat) (s : State) : Host.Outcome State Fault Refusal :=
  issue i s fun s => .retire (hintRegions h deg s (sget s.team a.r) (min (sget s.team b.r).toNat 65536))

def execAnnexHintClr (a b : SSrc) (s : State) := annexHint (.annexHintClr a b) .clr a b 0 s
def execAnnexHintPin (a b : SSrc) (deg : BitVec 3) (s : State) := annexHint (.annexHintPin a b deg) .pin a b deg.toNat s
def execAnnexHintFloor (a b : SSrc) (deg : BitVec 3) (s : State) :=
  annexHint (.annexHintFloor a b deg) .floor a b deg.toNat s
def execAnnexHintCeil (a b : SSrc) (deg : BitVec 3) (s : State) :=
  annexHint (.annexHintCeil a b deg) .ceil a b deg.toNat s

end Sys2Proof.Machine
end

