-- ==== Sys2Proof/Machine/Matrix.lean ====
section
/-! DEFINITION. The matrix instructions: MXLS, MXSWAP, MXLOOP, MXACC (spec/12 R266-R275) and MMA (R276-R278). -/

namespace Sys2Proof.Machine

/-! ### Checks at issue (R422) -/

/-- Addresses as an engine would reach them: (address, bytes, alignment, access). -/
def mxChecks (s : State) : List (Word × Nat × Nat × Access) → LaneChk
  | [] => .ok []
  | (va, n, align, acc) :: rest =>
    match locate s s.team.who va n align acc with
    | .error c => .fault c va
    | .ok _ =>
      match locateSpan s s.team.who acc va n with
      | .error (c, a) => .fault c a
      | .ok ps =>
        if spanHeld s s.team.who acc ps then .hold .resource
        else
          match mxChecks s rest with
          | .ok qs => .ok (ps ++ qs)
          | r => r

/-- The checks, then the effect. -/
def withChecks (s : State) (xs : List (Word × Nat × Nat × Access)) (k : State → Eff) : Eff :=
  match mxChecks s xs with
  | .fault c a => engStop s c a
  | .hold w => .hold s w
  | .ok _ => k s

/-- The bytes read at issue: a format block or a group table. -/
def issueBytes (s : State) (va : Word) (n : Nat) (k : State → List Byte → Eff) : Eff :=
  match locateSpan s s.team.who .rd va n with
  | .error (c, a) => engStop s c a
  | .ok ps =>
    let s1 := settle s ps
    if ps.any fun x => poisonedIn s1 x.1 x.2 then .stop s { cause := 0x50, pc := s.team.pc, code := 4 }
    else k (notePieces s1 ps) (pieceBytes s1 ps)

/-- An MXA operation issues, unless its count is full (R65, R98). -/
def issueMx (s : State) (desc : Word) (work : Option EngWork) : Eff :=
  let s1 := release s .core
  .retire (addOp s1 (newOp s1 .mxa true desc none work))

def mxRoom (s : State) (k : Eff) : Eff := if 63 ≤ cntOf s.team .mxa then .hold s (waitKind s.team .resource) else k

/-- Bytes of a B plane (R269). -/
def planeBytes : Nat := 16384

/-! ### MXLS, MXSWAP (R270) -/

def execMxls (a c : SSrc) (s : State) : Host.Outcome State Fault Refusal :=
  issue (.mxls a c) s fun s =>
    mxRoom s <|
      let fb := sget s.team c.r
      let base := sget s.team a.r
      withChecks s [(fb, 64, 8, .rd), (base, planeBytes, 1, .rd)] fun s =>
        issueBytes s fb 64 fun s bs =>
          issueMx s fb ((parseFmtBlock bs).map fun _ => .mxls base.toNat bs)

/-- MXSWAP takes its place in the sequencer's order and is not counted (R267). -/
def execMxswap (s : State) : Host.Outcome State Fault Refusal :=
  issue .mxswap s fun s => .retire (addOp s (newOp s .mxa false 0 none (some .mxswap)))

/-! ### MXLOOP (R271-R274) -/

/-- M of a plain or chained loop. -/
def loopRows (m1 : BitVec 8) : Nat := m1.toNat + 1

/-- The plane that a loop's first step fetches is checked at issue. -/
def firstPlane (ks : BitVec 16) (keep : Bool) (base : Word) : List (Word × Nat × Nat × Access) :=
  if ks = 0 || keep then [] else [(base, planeBytes, 1, .rd)]

def execMxloop (o : MxloopOps) (s : State) : Host.Outcome State Fault Refusal :=
  issue (.mxloop o) s fun s =>
    mxRoom s <|
      let fb := sget s.team o.c.r
      let ab := sget s.team o.a.r
      let bb := sget s.team o.b.r
      withChecks s ((fb, 64, 8, .rd) :: firstPlane o.ks o.keep bb) fun s =>
        issueBytes s fb 64 fun s bs =>
          issueMx s fb ((parseFmtBlock bs).map fun _ =>
            .mxloop o.tile (o.l1.toNat + 1) 0 o.z o.keep [[loopRows o.m1, 0, o.ks.toNat, ab.toNat, bb.toNat, 0, 0]] bs)

/-- A follower of a chain: its A base is the leader's. -/
def execMxloopE (o : MxeOps) (s : State) : Host.Outcome State Fault Refusal :=
  issue (.mxloopE o) s fun s =>
    mxRoom s <|
      let fb := sget s.team o.c.r
      let bb := sget s.team o.b.r
      withChecks s ((fb, 64, 8, .rd) :: firstPlane o.ks o.keep bb) fun s =>
        issueBytes s fb 64 fun s bs =>
          issueMx s fb ((parseFmtBlock bs).map fun _ =>
            .mxloop o.tile 1 o.p.toNat o.z o.keep [[loopRows o.m1, 0, o.ks.toNat, 0, bb.toNat, 0, 0]] bs)

/-- A group entry (R274), or none where it breaks a constraint. -/
def parseGroup (bs : List Byte) (i : Nat) : Option (List Nat) :=
  let o := 32 * i
  let m := natAt bs o 2
  let row0 := natAt bs (o + 2) 2
  if m ≤ 256 && row0 + m ≤ 256 then
    some [m, row0, natAt bs (o + 4) 4, natAt bs (o + 8) 8, natAt bs (o + 16) 8, natAt bs (o + 24) 4, natAt bs (o + 28) 4]
  else none

def parseGroups (bs : List Byte) (n : Nat) : Option (List (List Nat)) :=
  let gs := (List.range n).map (parseGroup bs)
  if gs.all Option.isSome then some (gs.filterMap id) else none

/-- The first plane of each group that fetches one is checked at issue. -/
def groupPlanes (gs : List (List Nat)) : List (Word × Nat × Nat × Access) :=
  ((gs.map groupOf).filter fun g => g.m != 0 && g.ks != 0).map fun g => (BitVec.ofNat 64 g.bbase, planeBytes, 1, .rd)

def execMxloopG (o : MxgOps) (s : State) : Host.Outcome State Fault Refusal :=
  issue (.mxloopG o) s fun s =>
    mxRoom s <|
      let fb := sget s.team o.c.r
      let ta := sget s.team o.a.r
      let n := o.g.toNat
      withChecks s [(fb, 64, 8, .rd), (ta, 32 * n, 1, .rd)] fun s =>
        issueBytes s fb 64 fun s bs =>
          issueBytes s ta (32 * n) fun s tb =>
            match parseFmtBlock bs, parseGroups tb n with
            | some _, some gs =>
              withChecks s (groupPlanes gs) fun s => issueMx s fb (some (.mxloop o.tile 1 0 o.z false gs bs))
            | _, _ => issueMx s fb none

/-! ### MXACC (R275) -/

def execMxacc (o : MxaccOps) (s : State) : Host.Outcome State Fault Refusal :=
  issue (.mxacc o) s fun s =>
    let n := (sget s.team o.c.r).toNat
    if 256 < n then .stop s { cause := 0x23, pc := s.team.pc, code := 0x33 }
    else
      mxRoom s <|
        let dst := sget s.team o.a.r
        let pitch := (sget s.team o.b.r).toInt
        let row := 128 * (o.fmt.bits / 8)
        withChecks s ((List.range n).map fun (i : Nat) => (addrPlus dst.toNat ((i : Int) * pitch), row, 1, .wr)) fun s =>
          issueMx s dst (some (.mxacc o.tile dst.toNat pitch n o.fmt o.clr))

/-! ### MMA (R276-R278) -/

/-- K of one product. -/
def mmaK (f : Fmt) : Nat := if f.bits = 8 then 32 else 16

/-- Element (row or column i, k) of a fragment in lane-word q (R277). -/
def fragElem (t : Team) (q : Nat) (r : VReg) (f : Fmt) (i k : Nat) : Nat :=
  let w := f.bits
  let nsub := 64 / w
  let k2 := mmaK f / 2
  let lane := 32 * q + i + 16 * (k / k2)
  let j := k % k2
  elem w (vget t lane (if j < nsub then r else r + 1)) (j % nsub)

/-- Output (i, n) of the product of lane-word q. -/
def mmaOut (t : Team) (o : MmaOps) (m : FMode) (q i n : Nat) : Nat :=
  let ks := List.range (mmaK o.fa)
  let as := ks.map fun k => fragElem t q o.a.r o.fa i k
  let bs := ks.map fun k => fragElem t q o.b.r o.fb n k
  let old := match o.c with
    | none => 0
    | some c => elem 32 (vget t (32 * q + 2 * i + n / 8) (c.r + BitVec.ofNat 7 (n % 8 / 2))) (n % 2)
  if o.fa = .i8 then matInt old as bs
  else
    let xe := fun (f : Fmt) (x : Nat) => expandXe (fmtValue f m.daz x) (.fin false 1 1)
    matFloat m old (as.map (xe o.fa)) (bs.map (xe o.fb))

/-- Register d + r of lane p of lane-word q: columns 8 (p mod 2) + 2r and the next of row p / 2. -/
def mmaWord (t : Team) (o : MmaOps) (m : FMode) (q p r : Nat) : Word :=
  let n := 8 * (p % 2) + 2 * r
  packElems 32 [mmaOut t o m q (p / 2) n, mmaOut t o m q (p / 2) (n + 1)]

/-- Lane-words of which some lane is active, from PIX on. -/
def mmaWords (t : Team) (k : KReg) : List Nat :=
  (List.range (t.lanes / 32)).filter fun q =>
    decide (startWord t ≤ q) && (activeLanes t k).any fun l => l / 32 == q

/-- The four destination registers of an MMA on their way. -/
def mmaProduce (s : State) (o : MmaOps) (src : List (Nat × Word) → FillSrc) : Eff :=
  let t := s.team
  let m := fmode t
  let qs := mmaWords t o.k
  if qs.isEmpty then .retire s
  else
    retireWith s fun t1 => (List.range 4).foldl (fun t1 r =>
      produce t1 (.vec (o.d + BitVec.ofNat 7 r))
        (src (qs.flatMap fun q => (List.range 32).map fun p => (32 * q + p, mmaWord t o m q p r))) false) t1

/-- On the lanes: their groups are powered (R346). -/
def mmaOnLanes (s : State) (o : MmaOps) : Eff :=
  let t := s.team
  match groupsDown s t (activeMask t o.k) with
  | [] => mmaProduce (noteUse s (placeKey t.place) (laneGroups (activeMask t o.k))) o .values
  | gs => .hold (wakeGroups s (placeKey t.place) gs) .resource

/-- On the array, once its island is powered: the team runs on, and the product waits for leave and for the loop that holds the
array (R278, R344). -/
def mmaOnArray (s : State) (o : MmaOps) : Eff :=
  let t := s.team
  let k := placeKey t.place
  if (mmaWords t o.k).isEmpty then .retire s
  else if !islandUp s k 4 then .hold (wakeIsland s k 4) .resource
  else mmaProduce (askLeave (noteUse s k [4]) t.place.die.toNat (.mma t.place (.vec o.d))) o (.array (.vec o.d))

/-- The decider of MMA.ANY for the format's width: the lanes, or the array (R341, R342). -/
def decideMma (s : State) (o : MmaOps) : Bool × State :=
  let t := s.team
  let e := effRate s t s.rate.toNat (rateoSeen t)
  let i := if o.fa.bits = 8 then 2 else 0
  let (lanes, d) := decideTwo (if o.fa.bits = 8 then t.mma8 else t.mma16) s.time (priced i 1 1 e) (priced (i + 1) 1 1 e)
  (lanes, { s with team := if o.fa.bits = 8 then { t with mma8 := some d } else { t with mma16 := some d } })

/-- The engine that an MMA.ANY takes: the one it chose when it was first looked at, which it keeps while it waits (R354), or
the lanes while a loop holds the array. -/
def chooseMma (s : State) (o : MmaOps) : Bool × State :=
  let t := s.team
  if t.place.die = 8 || arrayHeld s (placeKey t.place) then (true, s)
  else
    match t.chosen with
    | some lanes => (lanes, s)
    | none => let (lanes, s1) := decideMma s o; (lanes, s1.upd fun t => { t with chosen := some lanes })

def execMmaAny (o : MmaOps) (s : State) : Host.Outcome State Fault Refusal :=
  issue (.mmaAny o) s fun s => let (lanes, s1) := chooseMma s o; if lanes then mmaOnLanes s1 o else mmaOnArray s1 o

def execMmaArray (o : MmaOps) (s : State) : Host.Outcome State Fault Refusal :=
  issue (.mmaArray o) s fun s => mmaOnArray s o

def execMmaLanes (o : MmaOps) (s : State) : Host.Outcome State Fault Refusal :=
  issue (.mmaLanes o) s fun s => mmaOnLanes s o

end Sys2Proof.Machine
end

