-- ==== Sys2Proof/Machine/PowerEvents.lean ====
section
/-! DEFINITION. The rate, leave, islands, parking, heat, subscriptions and the annex directory's windows (spec/17, spec/19
R360-R362, spec/27 R454, R455). -/

namespace Sys2Proof.Machine

/-! ### Subscriptions (R349, R350) -/

/-- The value that an evaluation compares: the machine's own for the rate and the surcharge. -/
def subValue (s : State) (x : Sub) (die : Nat) (v : BitVec 32) : Nat :=
  match x.kind.toNat with
  | 2 => s.rate.toNat
  | 3 => (dieOf s die).surcharge.toNat
  | _ => v.toNat

/-- The die that an evaluation concerns is one that the threshold names. -/
def subDie (x : Sub) (die : BitVec 8) : Bool :=
  if x.kind == 1 || x.kind == 3 then x.die == 0xFF || x.die == die else die == 0xFF

/-- The value passes VALUE in a direction that DIR names. DEDUCED, log 48. -/
def crosses (x : Sub) (last now : Nat) : Bool :=
  (x.dir != 1 && decide (last < x.value.toNat) && decide (x.value.toNat ≤ now)) ||
    (x.dir != 0 && decide (x.value.toNat < last) && decide (now ≤ x.value.toNat))

/-- The notify word. -/
def notifyWord (seq : BitVec 16) (x : Sub) (die : BitVec 8) (now : Nat) : Nat :=
  now % 2 ^ 32 + die.toNat * 2 ^ 32 + x.id.toNat * 2 ^ 40 + seq.toNat * 2 ^ 48

/-- A crossing is counted and notified; a NOTE that cannot be written is dropped (R463). -/
def notify (s : State) (p : BitVec 4) (x : Sub) (die : BitVec 8) (now : Nat) : State :=
  let q := partOf s p
  let s1 := setPart s p { q with notifySeq := q.notifySeq + 1 }
  (hallWrite s1 p x.asid x.note (bytesOfNat 8 (notifyWord (q.notifySeq + 1) x die now))).getD s1

/-- One evaluation of a threshold for a die, or for the package (0xFF). -/
def evalSub (p : BitVec 4) (id die : BitVec 8) (v : BitVec 32) (s : State) : State :=
  match (partOf s p).subs.find? fun x => x.id == id with
  | none => s
  | some x =>
    if !subDie x die then s
    else
      let now := subValue s x die.toNat v
      let q := partOf s p
      let y : Sub := { x with last := (die.toNat, now) :: x.last.filter fun l => l.1 != die.toNat }
      let s1 := setPart s p { q with subs := q.subs.map fun z => if z.id == id then y else z }
      match x.last.find? fun l => l.1 == die.toNat with
      | some l => if crosses x l.2 now then notify s1 p x die now else s1
      | none => s1

/-- SUBSCRIPTION_EVALUATION: of a threshold on what the power and the temperature sensors give, every 10 μs. -/
def execSubscriptionEvaluation (p : BitVec 4) (id : BitVec 8) (die : BitVec 8) (v : BitVec 32) (s : State) :
    Host.Outcome State Fault Refusal := .next (evalSub p id die v s)

/-- The dies, or the package, for which a threshold of kind 2 or 3 is evaluated. -/
def ownDies (x : Sub) : List (BitVec 8) :=
  if x.kind = 2 then [0xFF]
  else if x.kind = 3 then ((List.range 8).map fun d => BitVec.ofNat 8 d).filter (subDie x)
  else []

/-- Every threshold of kinds 2 and 3 is evaluated. -/
def evalOwn (s : State) : State :=
  s.parts.foldl (fun s y =>
    y.2.subs.foldl (fun s x => (ownDies x).foldl (fun s d => evalSub (BitVec.ofNat 4 y.1) x.id d 0 s) s) s) s

/-! ### The cap and the grants (R344, R345) -/

/-- Grants of more than a microsecond ago no longer count. -/
def dropGrants (time : Nat) (d : DieState) : DieState := { d with grants := d.grants.filter fun g => time < g.1 + 1000 }

/-! ### The broadcast (R336, R337) -/

/-- The new broadcast value. -/
def nextRate (b g : Nat) : Nat :=
  if b < g then min g (max (b + 1) (b * 145 / 144))
  else if g < b then max g (min (b - 1) ((b * 144 + 144) / 145))
  else b

/-- What a RATE.GET on its way receives (R285). -/
def rateFill (s : State) (t : Team) (f : Inflight) : Inflight :=
  match f.src with
  | .broadcast eff =>
    { f with src := .values [(0, natW (if eff then effRate s t s.rate.toNat t.rateo / 2 ^ 35 else rateWord s))] }
  | _ => f

/-- What a broadcast does to a team: RATEO is clamped to the bounds now in force, and RATE.GETs complete. -/
def rateTeam (s : State) (t : Team) : Team :=
  if t.status = .vacant then t
  else
    let t1 := { t with rateo := clampRate (partOf s t.part) t.rateo.toNat }
    { t1 with inflight := t1.inflight.map (rateFill s t1) }

/-- PRMUL and PROV take force. -/
def forcePart (p : Part) : Part := { p with mulForce := p.prmul, loForce := p.ovlo, hiForce := p.ovhi }

/-- RATE_BROADCAST: TIME is a multiple of 1,000. Thresholds on the rate and the surcharge are evaluated (R349). TIME has not been
started in a boot that is stopped (R393). -/
def execRateBroadcast (s : State) : Host.Outcome State Fault Refusal :=
  .next (
    if !s.booted then s
    else
    let s1 : State :=
      { s with time := (s.time / 1000 + 1) * 1000, seq := s.seq + 1, rate := BitVec.ofNat 32 (nextRate s.rate.toNat s.target.toNat),
               parts := s.parts.map fun x => (x.1, forcePart x.2) }
    let s2 : State := { s1 with dies := s1.dies.map fun x => (x.1, noteBound s1 (dropGrants s1.time x.2)) }
    evalOwn (mapSaved (mapTeams s2 (rateTeam s2)) (rateTeam s2)))

/-! ### Surcharge, breaches and heat (R339, R454, R455) -/

/-- SURCHARGE_UPDATE: S_d moves by the mean current of the last 10 μs, and thresholds are evaluated (R349). -/
def execSurchargeUpdate (die : BitVec 3) (iavg : BitVec 16) (s : State) : Host.Outcome State Fault Refusal :=
  .next (
    let d := noteBound s (dieOf s die.toNat)
    let i := iavg.toNat
    let c := d.cap.toNat
    let n := d.surcharge.toNat
    evalOwn (setDie s die.toNat (noteBound s
      { d with iavg := iavg
               surcharge := BitVec.ofNat 8 (if 9 * c < 10 * i then min 56 (n + 1) else if 10 * i < 8 * c then n - 1 else n)
               halved := d.halved && !decide (10 * i < 8 * c) })))

/-- HARD_BREACH: the die's islands run at half clock, and BRCH rises. -/
def execHardBreach (die : BitVec 3) (s : State) : Host.Outcome State Fault Refusal :=
  .next (let d := dieOf s die.toNat; setDie s die.toNat { d with halved := true, brch := d.brch + 1 })

/-- Points of a core limited to NT and VF0. -/
def limitPoints (c : CoreState) : CoreState := { c with points := c.points.map fun x => (x.1, min x.2 1) }

/-- The dies are powered off, and the host port goes down: no state survives but what lies outside the module. -/
def shutdown (s : State) : State :=
  { State.reset with
    parts := [], booted := false, powered := false, port := none, inbox := s.inbox, fresh := s.fresh, serial := s.serial,
    mem := s.mem.filter fun c => targetOf c.1 == .host || targetOf c.1 == .cxl || targetOf c.1 == .peer }

/-- A temperature of a die: the TRIP bit, the limit on its points, or the shutdown at 125 °C. DEDUCED, log 47. -/
def setTemp (s : State) (die : Nat) (temp : BitVec 16) : State :=
  let d := dieOf s die
  let s1 := setDie s die { d with temp := temp }
  if 1000 ≤ temp.toNat then shutdown s
  else if d.ttrip.toNat * 8 ≤ temp.toNat then
    let s2 := setPkstat s1 fun p => { p with trip := setBit8 p.trip die true }
    { s2 with cores := s2.cores.map fun x => if x.1 / 64 = die then (x.1, limitPoints x.2) else x,
              points := s2.points.map fun x => if x.core / 64 = die then { x with point := min x.point 1 } else x }
  else if temp.toNat + 40 ≤ d.ttrip.toNat * 8 then setPkstat s1 fun p => { p with trip := setBit8 p.trip die false }
  else s1

def execThermalWarn (die : BitVec 3) (temp : BitVec 16) (s : State) : Host.Outcome State Fault Refusal :=
  .next (setTemp s die.toNat temp)
def execThermalTrip (die : BitVec 3) (temp : BitVec 16) (s : State) : Host.Outcome State Fault Refusal :=
  .next (setTemp s die.toNat temp)
def execThermalTripClear (die : BitVec 3) (temp : BitVec 16) (s : State) : Host.Outcome State Fault Refusal :=
  .next (setTemp s die.toNat temp)
def execThermalShutdown (s : State) : Host.Outcome State Fault Refusal := .next (shutdown s)

/-! ### Leave (R344) -/

/-- The request that the arbiter serves next: island wakes go ahead of every other, and a product whose array a loop holds stands
aside until the array is free (R278). DEDUCED, log 62. -/
def nextLeave (s : State) (d : DieState) : Option LeaveReq :=
  let wake := d.leave.find? fun x => match x.1 with
    | .wake _ _ => true
    | _ => false
  (wake <|> d.leave.find? fun x => !waitsLoop s x.1).map (·.1)

/-- CAP as leave counts it, in units of 10^-4 A: three quarters of it at or above TWARN (R455). -/
def leaveCap (d : DieState) : Nat :=
  if d.twarn.toNat * 8 ≤ d.temp.toNat then d.cap.toNat * 7500 else d.cap.toNat * 10000

/-- The request may be granted now: the arbiter of a halted die grants nothing (R452). DESIGN CHOICE, log 35. -/
def mayGrant (s : State) (die : Nat) : Bool :=
  let d := dieOf s die
  match nextLeave s d with
  | none => false
  | some r =>
    let c := leaveCurrent s r
    let g := grantedAt d s.time
    !s.diehalt.getLsbD die && decide ((Config.railMean die s.time).toNat + g + c ≤ leaveCap d) && decide (g + c ≤ d.slew.toNat * 10000)

/-- A product whose leave has been given: its values are on their way. -/
def giveProduct (p : Place) (lead : Dest) (t : Team) : Team :=
  if t.place = p then
    { t with inflight := t.inflight.map fun f => match f.src with
        | .array l vs => if l = lead then { f with src := .values vs } else f
        | _ => f }
  else t

/-- What the grant brings about: the operation runs, the wake joins the rounds, or the team's product goes on. -/
def grantTo (s : State) (die : Nat) (r : LeaveReq) : State :=
  match r with
  | .op id =>
    match opAt s id with
    | some o => putOp s { o with state := runState o }
    | none => s
  | .wake core i => let d := dieOf s die; setDie s die { d with wakes := d.wakes ++ [(core, i)] }
  | .mma p lead => mapTeam s p (giveProduct p lead)

/-- LEAVE_GRANT. -/
def execLeaveGrant (die : BitVec 3) (s : State) : Host.Outcome State Fault Refusal :=
  .next (if mayGrant s die.toNat then
      match nextLeave s (dieOf s die.toNat) with
      | some r =>
        let s1 := dropLeave (setDie s die.toNat (noteBound s (dieOf s die.toNat))) die.toNat r
        let d := dieOf s1 die.toNat
        grantTo (setDie s1 die.toNat { d with grants := d.grants ++ [(s.time, leaveCurrent s r)] }) die.toNat r
      | none => s
    else s)

/-! ### Islands (R346-R348) -/

def powerIsland (s : State) (die : Nat) (x : BitVec 6 × BitVec 3) : State :=
  let k := die * 64 + x.1.toNat
  let c := coreAt s k
  let b := BitVec.ofNat 5 (2 ^ x.2.toNat)
  setCore s k { c with powered := c.powered ||| b, waking := c.waking &&& ~~~b, lastUse := mapSet 0 c.lastUse x.2.toNat s.time }

/-- ISLAND_WAKE_ROUND: up to 32 islands, in the order in which their wakes were granted leave. -/
def execIslandWakeRound (die : BitVec 3) (s : State) : Host.Outcome State Fault Refusal :=
  .next (
    let d := dieOf s die.toNat
    (d.wakes.take 32).foldl (fun s x => powerIsland s die.toNat x) (setDie s die.toNat { d with wakes := d.wakes.drop 32 }))

/-- The island has been powered, has run no work for 2 μs, and nothing holds it up. -/
def mayPowerDown (s : State) (k island : Nat) : Bool :=
  decide (island < 5) && coreLive s (k / 64) (k % 64) && (coreAt s k).powered.getLsbD island && islandIdle s k island

/-- ISLAND_POWER_DOWN. -/
def execIslandPowerDown (die : BitVec 3) (core : BitVec 6) (island : BitVec 3) (s : State) :
    Host.Outcome State Fault Refusal :=
  .next (
    let k := die.toNat * 64 + core.toNat
    let c := coreAt s k
    if mayPowerDown s k island.toNat then setCore s k { c with powered := c.powered &&& ~~~(BitVec.ofNat 5 (2 ^ island.toNat)) }
    else s)

/-- OPERATING_POINT_CHANGE: the island runs at the point that its decider has chosen: 0 NT, 1 to 6 VF0 to VF5. -/
def execOperatingPointChange (die : BitVec 3) (core : BitVec 6) (island point : BitVec 3) (s : State) :
    Host.Outcome State Fault Refusal :=
  .next (
    let k := die.toNat * 64 + core.toNat
    let c := coreAt s k
    match pointOf s k island.toNat with
    | some x =>
      if x.point = point.toNat && coreLive s die.toNat core.toNat then
        setCore s k { c with points := mapSet (firstPoint island.toNat) c.points island.toNat point.toNat }
      else s
    | none => s)

/-! ### Parking under the cap (R345, R301) -/

def capParked (t : Team) : Bool := t.parks.contains .cap

/-- A team that the cap may park: ready, and not parked for another reason. -/
def mayPark (t : Team) : Bool := t.status = .ready && t.parks.isEmpty

/-- a is parked before b: no capsule before a capsule, then the longer run. -/
def parkBefore (a b : Team) : Bool :=
  if a.held.isSome != b.held.isSome then b.held.isSome else decide (a.runSince ≤ b.runSince)

def insertPark (t : Team) : List Team → List Team
  | [] => [t]
  | u :: rest => if parkBefore t u then t :: u :: rest else u :: insertPark t rest

def sortPark : List Team → List Team
  | [] => []
  | t :: rest => insertPark t (sortPark rest)

/-- The boundary at one core: `delta` more or fewer teams are parked, others before those parked now, and at least one team of the
core, of those that nothing parks and that are not halted, is not parked. -/
def rotateCore (delta : Int) (s : State) (k : Nat) : State :=
  let ts := teamsOn s k
  let now := ts.filter capParked
  let ready := ts.filter mayPark
  let want := ((now.length : Int) + delta).toNat
  let free := ts.filter fun t => t.parks.isEmpty && !stopped t
  let n := min want (min (now.length + ready.length) (now.length + free.length - 1))
  let pick := ((sortPark ready ++ sortPark now).take n).map (·.place)
  let s1 := now.foldl (fun s t =>
    if pick.contains t.place then s
    else mapTeam (releaseTeam s t.place .cap) t.place fun t => { t with runSince := s.time }) s
  pick.foldl (fun s p => if now.any fun t => t.place == p then s else parkTeam s p .cap) s1

/-- PARKING_ROTATION: one 2 μs boundary of a die. -/
def execParkingRotation (die : BitVec 3) (s : State) : Host.Outcome State Fault Refusal :=
  .next (
    let d := dieOf s die.toNat
    let binds := capBinds s d
    let s1 := setDie s die.toNat (noteBound s d)
    let free := d.lastBound.all fun t => t + 10000 ≤ s.time
    (liveCores s1 die.toNat).foldl (rotateCore (if binds then 1 else if free then -1 else 0)) s1)

/-! ### Annex windows (R361, R338) -/

/-- The rate of a region's choice, as a fraction over 2^35: B × MULT × (8 + S_h). -/
def regionRate (s : State) (reg : Nat) : Nat :=
  let mult := match partOfSlice s (reg * 65536 / 2 ^ 35) with
    | some p => (partOf s p).mulForce.toNat
    | none => 0x10000
  s.rate.toNat * mult * (8 + (dieOf s (homeDie (reg * 65536))).surcharge.toNat)

/-- TIME + E × ENERGY of an entry at a region's rate: a fraction. -/
def regionCost (s : State) (reg i : Nat) : Nat × Nat := priced i 1 1 (regionRate s reg * 2 ^ 16)

def fracMul (n : Nat) (a : Nat × Nat) : Nat × Nat := (n * a.1, a.2)
def fracAdd (a b : Nat × Nat) : Nat × Nat := (a.1 * b.2 + b.1 * a.2, a.2 * b.2)

/-- raise(j) < 7/8 × hold(j), for W stores, Rj reads and Lj lines. -/
def raisePays (s : State) (reg w r l : Nat) : Bool :=
  let hold := fracMul r (regionCost s reg 6)
  let rse := fracAdd (fracMul (l * (1 + w)) (regionCost s reg 8)) (fracMul r (regionCost s reg 7))
  fracLt rse (7 * hold.1, 8 * hold.2)

/-- Lj of a region: the distinct lines that die j has read of those homed elsewhere (R360). -/
def linesRead (r : Region) (j : Nat) : Nat := (r.readLines.filter fun x => x.1 == j).length

/-- The degree that a window leaves. -/
def windowDegree (s : State) (r : Region) : Nat :=
  let floor := if r.hint = 2 then r.hintDeg else 0
  let ceil := if r.hint = 3 then r.hintDeg else 7
  let n := ((List.range 8).filter fun j => raisePays s r.reg r.writes (mapGet 0 r.reads j) (linesRead r j)).length
  if 0 < r.writes && r.accesses ≤ 64 * r.writes then floor
  else if 2 ≤ r.readers.length then
    if r.deg < n then min n (min ceil 7) else if n = 0 && floor < r.deg then r.deg - 1 else r.deg
  else if floor < r.deg then r.deg - 1 else r.deg

/-- The counts of a window make way for those of the next. -/
def rollRegion (r : Region) : Region :=
  { r with accesses := 0, writes := 0, readers := [], reads := [], readLines := [], hits := [], lastHits := r.hits }

/-- A region at the end of a window: no evaluation while a PIN stands. -/
def endWindow (s : State) (r : Region) : Region :=
  rollRegion (if r.hint = 1 then r else setDegree (mapGet 0 r.hits) r (windowDegree s r))

/-- A window has ended: TIME has crossed a multiple of 16,384 (R360). -/
def windowOver (s : State) : Bool := s.window < s.time / 16384

/-- A region at the end of n windows, of which all but the first counted nothing: a degree falls at most seven times, and after
that a window changes nothing more. -/
def endWindows (s : State) (n : Nat) (r : Region) : Region := (List.range (min n 16)).foldl (fun r _ => endWindow s r) r

/-- ANNEX_WINDOW_END: the windows of the directory that have ended, when it counts in the first of them. -/
def execAnnexWindowEnd (first last : Nat) (s : State) : Host.Outcome State Fault Refusal :=
  .next (if first = s.window && first ≤ last && last < s.time / 16384 then
      { setRegions s (s.annex.map (endWindows s (last + 1 - first))) with window := last + 1 }
    else s)

end Sys2Proof.Machine
end

