-- ==== Sys2Proof/Machine/Atomic.lean ====
section
/-! DEFINITION. Atomics (spec/11 R249-R251, spec/26 R433, spec/23 R388) and fences (R252). -/

namespace Sys2Proof.Machine

/-- The atomics that host memory has (R250, R388). -/
def hostAtom (op : AtomOp) (dw vector : Bool) : Bool :=
  !vector && dw && (op == .add || op == .swap || op == .cas)

/-- The host performs an atomic: it has the operation, the function may request it, and its completion succeeds (R433). -/
def hostServes (s : State) (op : AtomOp) (dw vector : Bool) : Bool :=
  hostAtom op dw vector && (partOf s s.team.part).atomicEn && Config.hostAtomicOk s.fresh

/-- The address lies in host memory, which does not serve the atomic. -/
def hostRefuses (s : State) (op : AtomOp) (dw vector : Bool) (va : Word) : Bool :=
  match locate s s.team.who va 1 1 .atomic with
  | .ok loc => targetOf loc == .host && !hostServes s op dw vector
  | .error _ => false

/-- The checks of one atomic access: the address, the host's atomics (R433), alignment, poison at the service team (R445). -/
def atomAcc (s : State) (op : AtomOp) (dw vector : Bool) (va : Word) (n : Nat) : Acc :=
  if hostRefuses s op dw vector va then .fault 0x12
  else
    match access s va n n .atomic with
    | .ok loc => if poisonedIn (flushLines s loc n) loc n then .fault 0x50 else .ok loc
    | r => r

/-- The next request of the host's has its own outcome: an atomic that the host might have served has asked it. -/
def hostAsked (s : State) (c : Byte) : State := if c = 0x12 then { s with fresh := s.fresh + 1 } else s

/-- A request over the host port or a Folros Link holds its team until its completion (R433, R448). -/
def farAtom (loc : Nat) : Bool := targetOf loc == .host || targetOf loc == .peer

/-- The queue of one service team is served (R85). -/
def serveCluster (s : State) (cl : Nat) : State :=
  (s.service.filter fun e => e.cluster == cl).foldl serveAtom
    { s with service := s.service.filter fun e => e.cluster != cl }

/-- One request is sent: to the quantum's buffer in an ordered launch (R370), else to the owning service team's queue,
where a spent quota makes it wait until entries free (R325, R326). -/
def sendAtom (s : State) (r : AtomReq) : State :=
  let t := s.team
  if ordered t then { s with team := { t with obuf := t.obuf ++ [.atom r] } }
  else
    let cl := ownerCluster r.loc
    let s1 := if quota s t.part 3 ≤ askService.entriesAt s cl t.part then serveCluster (throttle s t.part 3) cl else s
    { s1 with service := s1.service ++ [⟨cl, t.part, t.place, t.launch, r⟩] }

/-- A partition whose quota of request entries is 0 sends nothing (R325). -/
def noEntries (s : State) : Bool := quota s s.team.part 3 == 0

/-- What follows the sending: an acquire and a far atomic wait for the reply. -/
def afterSend (s : State) (ord : MOrder) (far : Bool) : State :=
  if ordered s.team then s
  else
    match ord with
    | .acq _ | .ar _ => drain s
    | _ => if far then drain s else s

/-- ATOM (R249, R250). In an ordered launch a far one waits for the quantum end that sends it. -/
def atomWith (i : Instr) (op : AtomOp) (o : AtomOps) (cmp : Team → Word) (s : State) :
    Host.Outcome State Fault Refusal :=
  issue i s fun s =>
    let t := s.team
    let n := atomBytes o.dw
    let va := effAddr t o.a o.off
    withReply s .quantum va [] (fun s _ => .retire s) fun s =>
      match atomAcc s op o.dw false va n with
      | .fault c => .stop (hostAsked s c) (accStop t c .atomic va 0 0)
      | .hold w => .hold s w
      | .ok loc =>
        if noEntries s then .hold (throttleTeam s t 3) .resource
        else
          let dest := if o.d = 0 then none else some (Dest.scal o.d)
          relThen s (MOrder.relScope o.ord) fun s1 =>
            let s2 : State := { s1 with fresh := if targetOf loc = .host then s1.fresh + 1 else s1.fresh,
                                        team := produce s1.team (.scal o.d) (.requests 1 []) false }
            let s3 := sendAtom s2 ⟨op, loc, o.dw, o.sx, sget t o.b.r, cmp t, 0, dest⟩
            if ordered t && farAtom loc then .hold (s3.upd fun t => { t with asked := true }) .quantum
            else .retire (afterSend s3 o.ord (farAtom loc))

def execAtomAdd (o : AtomOps) (s : State) := atomWith (.atomAdd o) .add o (fun _ => 0) s
def execAtomAnd (o : AtomOps) (s : State) := atomWith (.atomAnd o) .and o (fun _ => 0) s
def execAtomOr (o : AtomOps) (s : State) := atomWith (.atomOr o) .or o (fun _ => 0) s
def execAtomXor (o : AtomOps) (s : State) := atomWith (.atomXor o) .xor o (fun _ => 0) s
def execAtomMin (o : AtomOps) (s : State) := atomWith (.atomMin o) .min o (fun _ => 0) s
def execAtomMax (o : AtomOps) (s : State) := atomWith (.atomMax o) .max o (fun _ => 0) s
def execAtomMinn (o : AtomOps) (s : State) := atomWith (.atomMinn o) .minn o (fun _ => 0) s
def execAtomMaxn (o : AtomOps) (s : State) := atomWith (.atomMaxn o) .maxn o (fun _ => 0) s
def execAtomSwap (o : AtomOps) (s : State) := atomWith (.atomSwap o) .swap o (fun _ => 0) s
def execAtomCas (o : AtomOps) (c : SSrc) (s : State) := atomWith (.atomCas o c) .cas o (fun t => sget t c.r) s
def execAtomFadd (o : AtomOps) (s : State) := atomWith (.atomFadd o) .fadd o (fun _ => 0) s

/-! ### VATOM (R251) -/

/-- The request of one lane. -/
def vatomReq (t : Team) (o : VatomOps) (lane loc : Nat) : AtomReq :=
  { op := o.op, loc := loc, dw := o.dw, sx := o.sx, x := vget t lane o.b.r,
    cmp := if o.op = .cas then vget t lane o.d else 0, lane := lane,
    dest := if o.nr then none else some (.vec o.d) }

def sendLanes (s : State) (t : Team) (o : VatomOps) (done : List (Nat × List (Nat × Nat))) : State :=
  done.foldl (fun s x => x.2.foldl (fun s y => sendAtom s (vatomReq t o x.1 y.1)) s) s

def planVatom (t : Team) (o : VatomOps) (l : Nat) : LanePlan :=
  { pieces := [(sget t o.a.r + vget t l o.c.r, atomBytes o.dw)] }

def execVatom (o : VatomOps) (s : State) : Host.Outcome State Fault Refusal :=
  issue (.vatom o) s fun s =>
    let t := s.team
    let r := scanLanes (atomAcc s o.op o.dw true) (planVatom t o) t (lanesLeft t o.k)
    match r.hold with
    | some w => .hold s w
    | none =>
      if noEntries s && !r.done.isEmpty then .hold (throttleTeam s t 3) .resource
      else
        relThen s (MOrder.relScope o.ord) fun s1 =>
          let s2 : State := if o.nr || r.done.isEmpty then s1
            else { s1 with team := produce s1.team (.vec o.d) (.requests r.done.length []) false }
          let s3 := sendLanes s2 t o r.done
          match r.stop with
          | some x =>
            let s4 := if o.nr then s3 else (awaitDest s3 (.vec o.d)).getD s3
            .stop s4 (scanStop t .atomic x)
          | none => .retire (afterSend s3 o.ord (r.done.any fun x => x.2.any fun y => farAtom y.1))

/-! ### FENCE (R252, R93-R95) -/

/-- The loads of a team have returned their values when they issue, so that a fence that acquires waits for nothing. -/
def execFenceAcq (sv : Scope) (s : State) : Host.Outcome State Fault Refusal :=
  issue (.fenceAcq sv) s fun s => .retire s
def execFenceRel (sv : Scope) (s : State) : Host.Outcome State Fault Refusal :=
  issue (.fenceRel sv) s fun s => relThen s sv fun s1 => .retire s1
def execFenceAr (sv : Scope) (s : State) : Host.Outcome State Fault Refusal :=
  issue (.fenceAr sv) s fun s => relThen s sv fun s1 => .retire s1

end Sys2Proof.Machine
end

