-- ==== Sys2Proof/Machine/TeamEvents.lean ====
section
/-! DEFINITION. Events about one team, one line or one report: fetches, results that arrive, requests served, the writes of
capsule states, the end of a team, timeouts and watchdogs, write-backs and soft errors (spec/95). -/

namespace Sys2Proof.Machine

/-! ### Fetch and encoding -/

/-- LINE_FETCH: the current team's line is fetched, and a failure stops it (R164-R170, R415). -/
def execLineFetch (s : State) : Host.Outcome State Fault Refusal :=
  .next (
    let t := s.team
    if t.status = .ready && t.parks.isEmpty then
      match fetchLine s t t.pc with
      | .error (c, code) => stopAt s s (fetchStop t c code)
      | .ok _ => fetched s t.pc
    else s)

/-- UNASSIGNED_ENCODING (R408, R411): CODE holds the length code and the OPC of the first parcel. -/
def execUnassignedEncoding (first : Parcel) (s : State) : Host.Outcome State Fault Refusal :=
  .next (stopAt s s { cause := 0x22, pc := s.team.pc, code := first.toNat / 2 ^ 24 })

/-! ### Results and requests -/

/-- The first result of a team that may be delivered. -/
def firstResult (t : Team) : Option Dest :=
  (t.inflight.find? fun f => match f.src with
    | .values _ => true
    | .requests n _ => n == 0
    | .broadcast _ | .array _ _ => false).map (·.dest)

/-- REGISTER_FILL (R54): a result arrives and its register is full. -/
def execRegisterFill (p : Place) (s : State) : Host.Outcome State Fault Refusal :=
  .next (mapTeam s p fun t => ((firstResult t).bind fun d => deliver t d).getD t)

/-- The first request of a cluster's service team that is not held at a halted die. -/
def firstRequest (s : State) (cl : Nat) : Option SvcEntry :=
  s.service.find? fun e => e.cluster == cl && !serviceHalted s e.req.loc

/-- SERVICE_TEAM_REQUEST (R85, R86): one request, one act. -/
def execServiceTeamRequest (cl : BitVec 6) (s : State) : Host.Outcome State Fault Refusal :=
  .next (match firstRequest s cl.toNat with
    | some e => serveAtom { s with service := s.service.erase e } e
    | none => s)

/-- The next write of STATE asked for a team, if it is of the kind wanted and its record can be reached (R300). -/
def nextCapWrite (s : State) (p : Place) (run : Bool) : Option CapWrite :=
  match s.capWrites.find? fun w => w.place == p with
  | some w => if w.run == run && !serviceHalted s w.rcd then some w else none
  | none => none

def capWriteNow (p : Place) (run : Bool) (s : State) : State :=
  match nextCapWrite s p run with
  | some w => performCapWrite { s with capWrites := s.capWrites.erase w } w
  | none => s

def execCapsuleParkedWrite (p : Place) (s : State) : Host.Outcome State Fault Refusal := .next (capWriteNow p false s)
def execCapsuleRunWrite (p : Place) (s : State) : Host.Outcome State Fault Refusal := .next (capWriteNow p true s)

/-! ### The end of a team, its turn to issue -/

/-- TEAM_END (R36): outside ordered mode, where quantum ends end teams. -/
def mayEnd (s : State) (t : Team) : Bool := t.status = .exiting && !ordered t && workDone s t

/-- A cancelled team whose capsule request has been answered goes (R299). -/
def mayGoNow (t : Team) : Bool := t.cancelling && !capPending t

def execTeamEnd (p : Place) (s : State) : Host.Outcome State Fault Refusal :=
  .next (match teamAt s p with
    | some t => if mayGoNow t then finishCancel s t else if mayEnd s t then fillAll (settleCancels (endTeam s t)) else s
    | none => s)

/-- The engine class in which an instruction places an operation (R65). -/
def engineClass : Instr → Option EClass
  | .engCpy _ _ => some .cpy
  | .engGath _ _ | .engSortc _ _ => some .gth
  | .engColl _ _ => some .col
  | .mxls _ _ | .mxswap | .mxloop _ | .mxloopE _ | .mxloopG _ | .mxacc _ => some .mxa
  | _ => none

/-- What the instruction at a waiting team's PC waits for, where it has asked for nothing, is there. -/
def conditionMet (s : State) (t : Team) : Bool :=
  match instrAt s t with
  | some (.barWait a p) =>
    (match decodeWindow s t.who (sget t a.r).toNat 32 .wr with
      | some (.ok obj) => phaseDone s obj (barPhase t p)
      | _ => true)
  | some (.waitc c n) =>
    decide (cntOf t c ≤ n.toNat) || (opsOf s t c).any fun o => match o.state with
      | .paused _ _ _ _ | .badDesc | .rangeFault _ | .poisoned _ => true
      | _ => false
  | some (.resume a) =>
    (match locate s t.who (sget t a.r) 8 8 .rd with
      | .ok loc => natAt (bytesBy (farByte s t.part) loc 8) 0 8 != 0
      | .error _ => true)
  | some (.sysc _) => ringOpen (partOf s t.part)
  | some i => ((engineClass i).all fun c => decide (cntOf t c < 63)) && (needsGroups i { s with team := t }).isEmpty
  | none => true

/-- A team is ready to issue (R45): as it stands, or because what it waited for has come and its registers are full. -/
def readyNow (s : State) (t : Team) : Bool :=
  runnable s t && match t.status with
    | .ready => true
    | .waiting _ =>
      t.reply.isSome || (!t.asked && conditionMet s t &&
        (instrAt s t).all fun i => (awaitAll { s with team := t } (waitsFor i.uses)).isSome)
    | _ => false

/-- A turn passes for a team: it has been ready for one more, or it is not ready. -/
def countReady (s : State) (t : Team) : Team := { t with readyTurns := if readyNow s t then t.readyTurns + 1 else 0 }

/-- TEAM_BOOST: the team has been ready for 64 cycles without issuing (R45, R321). -/
def execTeamBoost (p : Place) (s : State) : Host.Outcome State Fault Refusal :=
  .next (mapTeam s p fun t => if readyNow s t then { t with boosted := true } else t)

/-! ### Timeouts and watchdogs (R438, R441, R453) -/

/-- The wait of a team is counted: it is not parked, and no die is halted. -/
def counted (s : State) (t : Team) : Bool := t.parks.isEmpty && s.diehalt == 0

/-- The address and the location of an LDFE that waits at its bank, or for the quantum end that is to perform it. -/
def ldfeWait (s : State) (t : Team) : Option (Word × Nat) :=
  match instrAt s t with
  | some (.ldfeK o) | some (.ldfeC o) =>
    if t.asked && t.reply.isNone then
      match t.request, s.bank.find? fun r => r.team == some t.place with
      | some (.ldfe loc _ _), _ | none, some (.ldfe loc _ _ _) => some (sget t o.a.r, loc)
      | _, _ => none
    else none
  | _ => none

/-- GRANULE_WAIT_TIMEOUT: the LDFE is withdrawn, with cause 0x42, where its granule is still empty; a fill that came before the
timeout gives it its data. -/
def execGranuleWaitTimeout (p : Place) (s : State) : Host.Outcome State Fault Refusal :=
  .next (match teamAt s p with
    | some t =>
      match ldfeWait s t with
      | some (va, loc) =>
        if counted s t && !granuleFull s loc then
          let s1 := (withdraw (focus s p) p).upd giveUp
          stopAt s1 s1 { cause := 0x42, pc := t.pc, kind := 0, faddr := va }
        else s
      | none => s
    | none => s)

/-- An ordered team's arrival that no phase has counted. -/
def arrivalHeld (t : Team) : Bool := t.arrival.any fun a => a.phase.isNone

/-- What a watched wait waits on: the object, the descriptor of the oldest operation of the class, or the frame. DEDUCED,
log 53. -/
def watched (s : State) (t : Team) : Option Word :=
  match t.status, instrAt s t with
  | .waiting .barrier, some (.barWait a _) | .waiting .quantum, some (.barWait a _) => some (sget t a.r)
  | .waiting .arrival, some (.barArr _ a) | .waiting .arrival, some (.barArrx _ a) => some (sget t a.r)
  | .waiting .quantum, some (.barArr _ a) | .waiting .quantum, some (.barArrx _ a) => if arrivalHeld t then some (sget t a.r) else none
  | .waiting .counter, some (.waitc c _) | .waiting .quantum, some (.waitc c _) =>
    some (((opsOf s t c).head?.map (·.desc)).getD 0)
  | .waiting .done, some (.resume a) | .waiting .quantum, some (.resume a) => some (sget t a.r)
  | _, _ => none

/-- WAIT_WATCHDOG: one report for each wait; time in a retraining window does not count (R357, R447). -/
def execWaitWatchdog (p : Place) (s : State) : Host.Outcome State Fault Refusal :=
  .next (match teamAt s p with
    | some t =>
      match watched s t with
      | some a =>
        if counted s t && (heldLinks s).isEmpty && !t.waitReported then
          report (mapTeam s p fun t => { t with waitReported := true }) t.part 3 (targetWord p) a
        else s
      | none => s
    | none => s)

/-! ### Reports (R429) -/

/-- The 32 bytes of a report notice. -/
def spanBytes (x : Span) : List Byte :=
  bytesOfNat 4 x.rep.toNat ++ bytesOfNat 4 x.count ++ bytesOfNat 8 x.target.toNat ++ bytesOfNat 8 x.addr.toNat ++
    bytesOfNat 8 x.time

/-- REPORT_SPAN_END: the notice of a span is posted. -/
def execReportSpanEnd (i : Nat) (s : State) : Host.Outcome State Fault Refusal :=
  .next (match s.spans[i]? with
    | some x => postNotice { s with spans := s.spans.eraseIdx i } x.part (entryBytes 4 0 x.target 0 0 (spanBytes x))
    | none => s)

/-! ### Write-backs (R91, R460) -/

/-- A dirty line of an L1 is written back, where nothing holds its write (R357, R452). -/
def performLine (s : State) (k line : Nat) : State := if writeBackHeld s k (line * 128) then s else flushLine s k line

/-- BACKGROUND_WRITE_BACK: a dirty line of an L1 is written back. -/
def execBackgroundWriteBack (die : BitVec 4) (core : BitVec 6) (line : Nat) (s : State) : Host.Outcome State Fault Refusal :=
  .next (performLine s (coreKey die core) line)

/-- STORE_PERFORMED: the stores that an L1 holds of a line reach their point of coherence, and the lines after it come next. -/
def execStorePerformed (die : BitVec 4) (core : BitVec 6) (line : Nat) (s : State) : Host.Outcome State Fault Refusal :=
  .next { performLine s (coreKey die core) line with wbTurn := dirtyKey (coreKey die core) (line * 128 + 127) }

/-- CXL_CACHE_SNOOP: the line of host memory that an L1 caches is written back (R76). -/
def execCxlCacheSnoop (line : Nat) (s : State) : Host.Outcome State Fault Refusal :=
  .next (flushWhere s fun _ l => l / 128 == locHost 0 / 128 + line)

/-! ### Soft errors (R430, R444) -/

/-- One more corrected error of a partition on a die. -/
def countSec (s : State) (p : BitVec 4) (die : Nat) : State :=
  let q := partOf s p
  setPart s p { q with sec := mapSet 0 q.sec die (mapGet 0 q.sec die + 1) }
def countSeu (s : State) (p : BitVec 4) (die : Nat) : State :=
  let q := partOf s p
  setPart s p { q with seu := mapSet 0 q.seu die (mapGet 0 q.seu die + 1) }

def poisonLine (s : State) (line : Nat) : State :=
  if s.poisonLines.contains line then s else { s with poisonLines := s.poisonLines ++ [line] }
def poisonGranule (s : State) (g : Nat) : State :=
  if s.poisonGranules.contains g then s else { s with poisonGranules := s.poisonGranules ++ [g] }

/-- A clean line goes from the L1s of a die, and its annex there (R444). -/
def dropClean (s : State) (die line : Nat) : State :=
  let s1 := (List.range 48).foldl (fun s c => leaveL1 s (die * 64 + c) line) s
  { s1 with annex := s1.annex.map fun r => { r with lines := r.lines.filter fun x => x != (die, line) },
            l2 := if homeDie (line * 128) = die then s1.l2 else dropCopies s1.l2 [(die, line)] }

/-- What the L1s of a die hold dirty of a line is no longer free of poison (R444). -/
def spoilDirty (s : State) (die line : Nat) : State :=
  (List.range 48).foldl (fun s c => markWhole s (die * 64 + c) [line] false) s

/-- An error in the registers, the masks, the matrix state or the context of a team, resident or saved. -/
def markSoft (p : Place) (code : BitVec 11) (t : Team) : Team :=
  if t.place = p && t.status != .vacant then { t with softErr := some code } else t

def execSoftError (e : SoftErr) (s : State) : Host.Outcome State Fault Refusal :=
  .next (match e with
    | .corrected die p => countSec s p die.toNat
    | .cleanLine die p line => countSeu (dropClean s die.toNat line) p die.toNat
    | .line die p line =>
      report (countSeu (poisonLine (spoilDirty s die.toNat line) line) p die.toNat) p 5 0 (addrOfLoc s (line * 128))
    | .granule die p g => report (countSeu (poisonGranule s g) p die.toNat) p 5 0 (addrOfLoc s (g * 16))
    | .team p code =>
      match (everyTeam s).find? fun t => t.place == p with
      | some t => mapSaved (mapTeams (countSeu s t.part p.die.toNat) (markSoft p code)) (markSoft p code)
      | none => s
    | .record die p line => countSeu (poisonLine s line) p die.toNat)

/-- SCRUB: an array is read and rewritten; no value changes. -/
def execScrub (_die : BitVec 4) (s : State) : Host.Outcome State Fault Refusal := .next s

end Sys2Proof.Machine
end

