-- ==== Sys2Proof/Machine/Quantum.lean ====
section
/-! DEFINITION. Ordered mode (spec/21 R368-R379): the quantum end, and the report of a launch that stalls (R443). -/

namespace Sys2Proof.Machine

/-! ### The teams of a launch in order -/

def ofLaunch (l : Level) (t : Team) : Bool := t.part == l.part && t.launch == l.launch

/-- a goes before b by (BLKID, TEAMID). -/
def teamBefore (a b : Team) : Bool :=
  decide (a.blk.toNat < b.blk.toNat) || (a.blk == b.blk && decide (a.teamId.toNat ≤ b.teamId.toNat))

def insertTeam (t : Team) : List Team → List Team
  | [] => [t]
  | u :: rest => if teamBefore t u then t :: u :: rest else u :: insertTeam t rest

def sortTeams : List Team → List Team
  | [] => []
  | t :: rest => insertTeam t (sortTeams rest)

/-- The contexts of a launch's teams in (BLKID, TEAMID) order. -/
def launchPlaces (s : State) (l : Level) : List Place := (sortTeams ((teamsOf s).filter (ofLaunch l))).map (·.place)

/-- Apply a step to the team of each context in turn. -/
def forTeams (f : State → Team → State) (ps : List Place) (s : State) : State :=
  ps.foldl (fun s p => match teamAt s p with
    | some t => f s t
    | none => s) s

/-! ### When it is taken -/

def opOfLaunch (l : Level) (o : EngOp) : Bool := o.part == l.part && o.launch == l.launch && o.command.isNone

/-- The operation reads a lower block's range before that block is complete (R374). -/
def readsLower (s : State) (o : EngOp) : Bool :=
  let p := unitPlan s o
  !planActs p && p.any fun x => match x.2 with
    | .error .lower => true
    | _ => false

/-- The cores whose sequencers a matrix operation stands in: a chain's leader has one on every core of it (R273). -/
def coresOf (o : EngOp) : List Nat :=
  let k := placeKey o.place
  match o.work with
  | .mxloop _ chain 0 _ _ _ _ => (List.range (max 1 chain)).map (k + ·)
  | _ => [k]

/-- A matrix operation waits behind another at a sequencer. -/
def waitsBehind (s : State) (o x : EngOp) : Bool :=
  pendingMx o && pendingMx x && (unitPlan s o).isEmpty && (coresOf o).any (coresOf x).contains

/-- Operations that a lower block holds, and those that wait behind one; in as many rounds as there are operations. -/
def heldByLower (s : State) (ops : List EngOp) : Nat → List EngOp
  | 0 => ops.filter (readsLower s)
  | n + 1 =>
    let held := heldByLower s ops n
    ops.filter fun o => held.contains o || held.any (waitsBehind s o)

/-- The operations of a launch that R374 holds: no quantum end waits for one. -/
def lowerOps (s : State) (l : Level) : List EngOp :=
  let ops := s.engines.filter fun o => opOfLaunch l o && o.started && o.state == .running
  if ops.any (readsLower s) then heldByLower s ops ops.length else []

/-- An operation that was started and that the quantum end waits for; one that has paused or failed waits for a WAITC. -/
def opRuns (o : EngOp) : Bool :=
  o.started && match o.state with
    | .running | .leave => true
    | _ => false

/-- What a team is to commit meets a halted die (R452). -/
def commitHeld (s : State) (t : Team) : Bool :=
  (t.obuf.any fun r => match r with
    | .store b => writeHalted s b.loc
    | .atom a => serviceHalted s a.loc
    | .eng _ | .barInit _ _ _ _ | .barExpb _ _ => false) ||
  (t.request.bind (reqLoc t)).any (serviceHalted s)

/-- Nothing that a quantum end performs for a launch is held at a halted die or in a link's window (R357, R452). -/
def nothingHeld (s : State) (l : Level) : Bool :=
  (heldLinks s).isEmpty && (s.pkstat.halted == 0 ||
    !(((teamsOf s).filter (ofLaunch l)).any (commitHeld s) ||
      s.engines.any fun o => opOfLaunch l o && o.pending.any fun b => writeHalted s b.loc))

/-- Every team has closed its quantum, none is descheduled or halted, and every engine operation started has finished. A team
that is to stop and whose capsule request is outstanding is not stopped yet (R299): its quantum ends. DEDUCED, log 43. -/
def quantumReady (s : State) (l : Level) : Bool :=
  let ts := (teamsOf s).filter (ofLaunch l)
  let stopping := ts.any fun t => !t.parks.isEmpty && capPending t
  let held := lowerOps s l
  decide (l.kind = .launch) && l.kd.ordered &&
    ts.all (fun t => t.closed && (t.parks.isEmpty || stopping) && !(match t.status with
      | .halted _ => true
      | _ => false)) &&
    !(s.preempted.any fun x => x.teams.any (ofLaunch l)) &&
    !(s.engines.any fun o => opOfLaunch l o && opRuns o && !held.contains o) && nothingHeld s l

/-! ### Engine operations of the last quantum (R375) -/

/-- Bytes counted into a barrier object; its phase completes later in the step. -/
def countBytes (s : State) (obj n : Nat) (o : EngOp) : State :=
  if objReady s obj then let b := readObj s obj; writeObj s obj { b with landed := b.landed + n }
  else atBank s (.bytes obj n o.part o.place)

/-- The Folros Link that a request for the location goes over is down. -/
def overDownLink (s : State) (loc : Nat) : Bool :=
  targetOf loc == .peer && s.pkstat.fdown.getLsbD ((loc - locBase 3) / 2 ^ 41)

/-- The address of the first write that an operation is to apply over a link that has gone down. -/
def downWrite (s : State) (o : EngOp) : Option Nat := (o.pending.find? fun b => overDownLink s b.loc).map (·.loc)

/-- The writes, byte counts and granule fills of an operation, and its retirement when it has finished and is the oldest of its
class. -/
def applyOp (s : State) (o : EngOp) : State :=
  let s1 := performWrites s o (o.pending.map fun b => (b.loc, b.data))
  let s2 := match o.bar with
    | some obj => if o.uncounted = 0 then s1 else countBytes s1 obj o.uncounted o
    | none => s1
  let s3 := putOp s2 { o with pending := [], uncounted := 0 }
  if o.state == .finished && oldestOp s3 o then
    let s4 := fillGranules s3 o.touched
    let s5 := if o.wroteProgress then
        (match progressOff o with
          | none => s4
          | some off =>
            match engWrite s4 o (o.desc + BitVec.ofNat 64 off) (bytesOfNat 8 0) with
            | .ok ws => performWrites s4 o ws
            | .error _ => s4)
      else s4
    afterDrain (retireOp s5 o) o
  else s3

/-- What a quantum end does to an operation of the last quantum. One whose write fails on a link that has gone down applies
nothing, and pauses (R434, R448): DEDUCED, log 13. -/
def commitOp (s : State) (o : EngOp) : State :=
  match downWrite s o with
  | some loc => putOp s { o with pending := [], uncounted := 0, touched := [], buckets := [], unit := 0,
                                 state := .paused 0x12 (addrOfLoc s loc) true false }
  | none => applyOp s o

/-- Operations of a launch that have been started, by (BLKID, TEAMID, issue); one that a lower block holds applies nothing. -/
def startedOps (s : State) (l : Level) : List EngOp :=
  let held := lowerOps s l
  let ops := s.engines.filter fun o => opOfLaunch l o && o.started && !held.contains o
  let ps := launchPlaces s l
  ps.flatMap (fun p => ops.filter fun o => o.place == p) ++ ops.filter fun o => !ps.contains o.place

/-! ### What a team commits (R370, R376, R377) -/

/-- A team awaits the completion of its last atomic, to host or peer memory (R433, R448). -/
def awaitsAtom (t : Team) (a : AtomReq) : Bool :=
  farAtom a.loc && t.asked && t.request.isNone && t.arrival.isNone && t.obuf.getLast? == some (.atom a)

/-- The destination of an atomic that fails keeps its old value and is full (R433). -/
def failAtom (t : Team) (a : AtomReq) : Team :=
  let full := match a.dest with
    | some d => { markEmpty t d false with inflight := t.inflight.filter fun f => f.dest != d }
    | none => t
  { full with reply := some (svcFault 0x12 0 2 none) }

/-- The request of a lane that fails on a link that has gone down: the lane keeps its old value (R448). -/
def failLane (t : Team) (a : AtomReq) : Team :=
  { t with inflight := t.inflight.map fun f =>
      if a.dest == some f.dest then
        match f.src with
        | .requests n vs => { f with src := .requests (n - 1) vs }
        | _ => f
      else f }

/-- An atomic that a team sends. The one that the team awaits brings it its completion, or fails on a link that has gone
down. -/
def commitAtom (t : Team) (s : State) (a : AtomReq) : State :=
  if awaitsAtom t a then
    if overDownLink s a.loc then mapTeam s t.place fun t => failAtom t a
    else answer (serveAtom s ⟨ownerCluster a.loc, t.part, t.place, t.launch, a⟩) t.place {}
  else if overDownLink s a.loc then mapTeam s t.place fun t => failLane t a
  else serveAtom s ⟨ownerCluster a.loc, t.part, t.place, t.launch, a⟩

/-- One request of a team is performed; a floating addition is kept for the launch's end. -/
def commitReq (l : Level) (t : Team) (s : State) (r : OrdReq) : State :=
  match r with
  | .store _ | .eng _ => s
  | .atom a =>
    if a.op = .fadd then
      mapLevel s l.serial fun l => { l with fadds := l.fadds ++ [⟨t.blk.toNat, t.teamId.toNat, t.place, a⟩] }
    else commitAtom t s a
  | .barInit obj e d x => initObj s obj e d x
  | .barExpb obj n =>
    if objReady s obj then let b := readObj s obj; writeObj s obj { b with expb := min (b.expb + n) (2 ^ 32 - 1) }
    else { s with bank := s.bank ++ [.expb obj n] }

/-- The request of a blocked instruction, performed if it can be; an LDFE goes to its bank, to wait there in order of arrival
(R82). -/
def commitBlocked (s : State) (p : Place) : State :=
  match teamAt s p with
  | none => s
  | some t =>
    if t.reply.isSome then s
    else
      match t.request with
      | none => s
      | some (.ldfe loc n clear) => atBank (mapTeam s p fun t => { t with request := none }) (.ldfe loc n clear p)
      | some r =>
        match performRequest s t r with
        | .wait s1 => s1
        | .reply s1 rep => mapTeam s1 p fun t => { t with request := none, reply := some rep }

/-- The arrival stands at its bank and waits there to be counted (R255). -/
def arrivalWaits (s : State) (p : Place) : Bool := s.bank.any fun r => r.team == some p

/-- An arrival reaches its bank. -/
def commitArrival (s : State) (p : Place) : State :=
  match (teamAt s p).bind (·.arrival) with
  | some ⟨obj, cross, none⟩ => if arrivalWaits s p then s else atBank s (.count obj cross p)
  | _ => s

/-- Everything that a team has buffered: its stores before its requests, as R370 lists them, though M1 orders all of a team's
accesses to one location (R102). DESIGN CHOICE, log 76. -/
def commitTeam (l : Level) (s : State) (t : Team) : State :=
  let s1 := performStores s t (ordStores t.obuf)
  let s2 := mapTeam s1 t.place fun t => { t with obuf := [] }
  let s3 := commitArrival (commitBlocked (t.obuf.foldl (commitReq l t) s2) t.place) t.place
  (t.obuf.filterMap fun r => match r with
    | .eng id => some id
    | _ => none).foldl startOp s3
where
  /-- The stores of a quantum, which are one write of a line or a granule together (R445); those over a link that has gone
  down fail, as the team's own accesses now do (R448). -/
  performStores (s : State) (t : Team) (xs : List BufStore) : State :=
    let ys := xs.filter fun b => !overDownLink s b.loc
    clearPoison (ys.foldl (fun s b => performStore (flushLines s b.loc b.data.length) t.part t.place b.loc b.data) s)
      (ys.map fun b => (b.loc, b.data.length))

/-! ### Phases (R255, R376) -/

/-- A barrier object of the launch. -/
def objOfLaunch (s : State) (l : Level) (obj : Nat) : Bool :=
  (blockOfLoc s obj).any fun b => b.part == l.part && b.launch == l.launch

/-- Every phase whose counts are met completes, the notices of straddling blocks reach the other half, and what the banks held
for the next phases is performed. -/
def phaseRound (s : State) (l : Level) : State :=
  let s1 := (s.tags.filter (objOfLaunch s l)).foldl completeObj s
  let mine := objOfLaunch s1 l
  settleBank ((s1.notices.filter mine).foldl (fun s o => atBank s (.notice o)) { s1 with notices := s1.notices.filter fun o => !mine o })

/-- Rounds until no phase completes any more: each after the first counts an arrival or a notice that was held. -/
def completePhases (l : Level) : Nat → State → State
  | 0, s => s
  | n + 1, s => let s1 := phaseRound s l; if s1 = s then s else completePhases l n s1

/-- The arrivers of a phase that has completed. -/
def arrivedAt (s : State) (l : Level) (a : OrdArrival) : List Team :=
  (teamsOf s).filter fun t => ofLaunch l t && t.arrival == some a

/-- A team whose arrival's phase is complete gets its reply: CC.L for the highest TEAMID. -/
def releaseArrival (l : Level) (s : State) (t : Team) : State :=
  match t.arrival with
  | some ⟨obj, cross, some ph⟩ =>
    if phaseDone s obj ph.toNat then
      let last := (arrivedAt s l ⟨obj, cross, some ph⟩).all fun u => u.teamId.toNat ≤ t.teamId.toNat
      mapTeam s t.place fun t => { t with reply := some { full := last, vals := [ph.setWidth 64] } }
    else s
  | _ => s

/-! ### Going on (R369, R370) -/

/-- The condition that a blocked team waits for may hold. -/
def mayGo (s : State) (t : Team) : Bool :=
  match t.status with
  | .waiting (.lower j) => (levelOfLaunch s t.part t.launch).any fun l => l.doneBlks.contains j
  | _ => if t.reply.isSome then true else !t.asked && conditionMet s t

/-- The start of the next quantum for one team. -/
def nextQuantum (s : State) (t : Team) : Team :=
  match t.status with
  | .waiting .quantum | .waiting (.lower _) => let go := mayGo s t; { t with qnt := 0, granted := go, closed := !go }
  | .sysc _ | .exiting => { t with qnt := 0 }
  | _ => { t with qnt := 0, closed := false }

/-- A team that EXIT ended, and whose work is complete, ends. -/
def endExited (s : State) (t : Team) : State := if t.status = .exiting && workDone s t then endTeam s t else s

/-- The requests that what others have committed now lets go on, in order. -/
def commitWaiting (l : Level) (s : State) : State := (launchPlaces s l).foldl commitBlocked s

/-- The step of R370. -/
def quantumEnd (s : State) (l : Level) : State :=
  let s1 := (startedOps s l).foldl commitOp s
  let s2 := forTeams (commitTeam l) (launchPlaces s1 l) s1
  let s3 := completePhases l (s2.bank.length + s2.tags.length + 2) (commitWaiting l s2)
  let s4 := forTeams (releaseArrival l) (launchPlaces s3 l) s3
  let s5 := settleCancels (forTeams endExited (launchPlaces s4 l) s4)
  let s6 := mapTeams s5 fun t => if t.status != .vacant && ofLaunch l t then nextQuantum s5 t else t
  let s7 := if (teamsOf s6).any fun t => ofLaunch l t && !t.closed then
      mapLevel s6 l.serial fun l => { l with stallReported := false } else s6
  let s8 := fillWith (fun x => !x.kd.ordered || x.serial == l.serial) s7
  mapLevel s8 l.serial fun l => { l with view := s8.mem }

/-- QUANTUM_END of the ordered launch with a serial number. -/
def execQuantumEnd (launch : Nat) (s : State) : Host.Outcome State Fault Refusal :=
  .next (match levelAt s launch with
    | some l => if quantumReady s l then quantumEnd s l else s
    | none => s)

/-! ### Stalls (R379, R443) -/

/-- What the team waits for may come from outside its launch: the frame's DONE word, room in the system-call ring, a granule of
another block's, a lock whose owner is of another launch (R379). -/
def outsider (s : State) (l : Level) (t : Team) : Bool :=
  match instrAt s t with
  | some (.resume _) | some (.sysc _) => true
  | some i =>
    (ldfeWait s t).any (fun x => !objOfLaunch s l x.2) ||
      (Instr.isCapsule i && (t.request.bind (reqLoc t)).any fun rcd =>
        let w := recWord s rcd 8
        (recWord s rcd 0).getLsbD 0 && (fld w 31 0 != l.launch.toNat || fld w 63 60 != l.part.toNat))
  | none => false

/-- A blocked team for which a quantum end could do nothing: its request waits, and so does its arrival. -/
def teamStalled (s : State) (l : Level) (t : Team) : Bool :=
  (match t.status with
    | .waiting w => isBlocking w
    | _ => false) && !outsider s l t && t.obuf.isEmpty && !mayGo s t &&
  (match t.request with
    | none => true
    | some (.ldfe _ _ _) => false
    | some r => match performRequest s t r with
      | .wait _ => true
      | .reply _ _ => false) &&
  (!arrivalHeld t || arrivalWaits s t.place)

/-- Every team is blocked, and what a quantum end could apply is nothing. -/
def stalled (s : State) (l : Level) : Bool :=
  let ts := (teamsOf s).filter (ofLaunch l)
  quantumReady s l && !ts.isEmpty && !(s.engines.any fun o => opOfLaunch l o && (!o.started || (o.state == .finished && oldestOp s o))) &&
    ts.all (teamStalled s l)

/-- ORDERED_LAUNCH_STALLED: one report, with the lowest team and its PC. -/
def execOrderedLaunchStalled (launch : Nat) (s : State) : Host.Outcome State Fault Refusal :=
  .next (match levelAt s launch with
    | some l =>
      if stalled s l && !l.stallReported then
        match (sortTeams ((teamsOf s).filter (ofLaunch l))).head? with
        | some t =>
          report (mapLevel s l.serial fun l => { l with stallReported := true }) l.part 4 (targetWord t.place) t.pc
        | none => s
      else s
    | none => s)

end Sys2Proof.Machine
end

