-- ==== Sys2Proof/Machine/Resync.lean ====
section
/-! DEFINITION. RESYNC (spec/27 R457, R458): the 4,096 bytes of a partition's summary. -/

namespace Sys2Proof.Machine

/-- Bit n set where b holds. -/
def flagBit (b : Bool) (n : Nat) : Nat := if b then 2 ^ n else 0

/-- The queue is held at a WAIT or at an AFTER (R309, R311). -/
def heldAtWait (s : State) (x : Queue) : Bool :=
  x.held.any fun h =>
    (match h.cmd with
      | .wait _ _ _ => true
      | _ => false) || (commandOf h.cmd).any fun c => afterOf s c == .wait

/-- The 16 bytes of queue n. -/
def queueEntry (s : State) (x : Queue) : List Byte :=
  bytesOfNat 8 x.head.toNat ++ bytesOfNat 8 (flagBit x.en 0 + x.prio.toNat * 2 + flagBit (heldAtWait s x) 3)

/-- A team whose stop is listed: halted, or inside a continuation. -/
def listedStop (t : Team) : Bool :=
  !t.setAsides.isEmpty || match t.status with
    | .halted _ => true
    | _ => false

def levelCode : LevelKind → Nat
  | .launch => 0
  | .graph => 1
  | .phase => 2
  | .job => 3

/-- A stopped team belongs to the level or to one beneath it. -/
def holdsStopped (s : State) (l : Level) : Bool :=
  let ks := beneath s l.serial
  (everyTeam s).any fun t =>
    listedStop t && (levelOfLaunch s t.part t.launch).any fun x => ks.contains x.serial

def levelEntry (s : State) (l : Level) : List Byte :=
  bytesOfNat 8 l.handle.toNat ++ bytesOfNat 4 l.children ++ bytesOfNat 1 (levelCode l.kind) ++
    bytesOfNat 3 (flagBit l.cancelPending 0 + flagBit l.kd.ordered 1 + flagBit (holdsStopped s l) 2 + 2 ^ 7)

def graphEntry (l : Level) : List Byte :=
  bytesOfNat 8 l.handle.toNat ++ bytesOfNat 1 l.store.toNat ++ bytesOfNat 7 1

/-- The frame address with the cause below it, or the cause alone of a halted team: a halt has no frame, inside a continuation
too (R402, R403). -/
def stopWord (t : Team) : Nat :=
  match t.status with
  | .halted c => c.toNat
  | _ =>
    match t.setAsides with
    | a :: _ => a.frame.toNat + a.cause.toNat
    | [] => 0

def stopEntry (t : Team) : List Byte := bytesOfNat 8 (targetWord t.place).toNat ++ bytesOfNat 8 (stopWord t)

def insertStop (t : Team) : List Team → List Team
  | [] => [t]
  | u :: rest => if t.stopNo ≤ u.stopNo then t :: u :: rest else u :: insertStop t rest

/-- Stopped teams, the oldest stop first. -/
def sortStops : List Team → List Team
  | [] => []
  | t :: rest => insertStop t (sortStops rest)

/-- n entries of 16 bytes, the first of a list, then zeros. -/
def section16 (n : Nat) (es : List (List Byte)) : List Byte :=
  let bs := (es.take n).flatMap id
  bs ++ bytesOfNat (16 * n - bs.length) 0

/-- The launch levels listed are those that a command began: a node of a graph instance has no handle of its own. -/
def ownLevels (s : State) (p : BitVec 4) : List Level := s.levels.filter fun l => l.part == p && !isNode s l

def resyncBytes (s : State) (p : BitVec 4) : List Byte :=
  let x := partOf s p
  let ls := ownLevels s p
  let gs := instances s p
  let ts := sortStops ((everyTeam s).filter fun t => t.part == p && listedStop t)
  bytesOfNat 8 1 ++ bytesOfNat 8 s.time ++
    bytesOfNat 8 (s.seq.toNat + x.notifySeq.toNat * 2 ^ 16 + p.toNat * 2 ^ 32) ++
    bytesOfNat 8 (pclusWord x).toNat ++ bytesOfNat 8 (pmemWord x).toNat ++ bytesOfNat 8 (pasidWord x).toNat ++
    bytesOfNat 8 (pkstatWord s.pkstat).toNat ++
    bytesOfNat 8 (flagBit (64 < ls.length) 0 + flagBit (16 < gs.length) 1 + flagBit (108 < ts.length) 2) ++
    section16 64 ((List.range 64).map fun q => queueEntry s (queueOf s p q)) ++
    section16 64 (ls.map (levelEntry s)) ++ section16 16 (gs.map graphEntry) ++ section16 108 (ts.map stopEntry)

/-- The snapshot is written, then the completion word. -/
def beginResync (c : Cmd) (addr : Word) (s : State) : Begun :=
  let s1 := readTime s
  whenFree s1 c .wr addr 4096 <|
  match hallWrite s1 c.part (cmdRef s1 c).asid addr (resyncBytes s1 c.part) with
  | some s2 => .done (finishCmd s2 c)
  | none => .done (failCmd s1 c)

def execResync (c : Cmd) (addr : Word) (s : State) : Host.Outcome State Fault Refusal :=
  .next (if addr.toNat % 4096 != 0 then rejectCmd s c 0x83
    else acceptCmd s c { cmd := .resync c addr } (beginResync c addr))

end Sys2Proof.Machine
end

