-- ==== Sys2Proof/Machine/Release.lean ====
section
/-! DEFINITION. A command that holds its queue begins: its AFTER has completed, the table it waits for has room, or the word
that a WAIT watches has reached its value (spec/14 R309, R311, R325, R327). -/

namespace Sys2Proof.Machine

/-- The effect of a command that has been held, as it begins. -/
def beginHeld (c : Cmd) (h : HeldCmd) : State → Begun :=
  match h.cmd with
  | .signal _ a v => beginSignal c a v
  | .wait _ a v => beginWait c a v
  | .launch _ r => beginLaunch c r h
  | .graphRun _ st => beginGraph c st h
  | .graphEditLoad _ st a => beginLoad c st a
  | .graphEditSetnode _ st n a => beginSetnode c st n a
  | .graphEditDrop _ st => beginDrop c st
  | .copy _ d => beginCopy c d
  | .phaseBegin _ => beginPhase c h
  | .phaseEnd _ k => endLevel c .phase k
  | .jobBegin _ => beginJob c
  | .jobEnd _ k => endLevel c .job k
  | .cancel _ k l => beginCancel c k l
  | .subscribe _ r => beginSubscribe c r
  | .subscribeRemove _ i => beginRemove c i
  | .rateWrite _ v => beginRate c v h.order
  | .resync _ a => beginResync c a
  | .syscReply _ k vs => beginReply c k vs
  | .tlbinvCommand _ a _ _ _ => beginTlbinv c a.toNat
  | .ctrlRun _ r => beginCtrl c r h
  | _ => fun s => .done (finishCmd s c)

/-- A CANCEL ignores its own AFTER (R327). -/
def heldAfter (s : State) (c : Cmd) (h : HeldCmd) : AfterState :=
  match h.cmd with
  | .cancel _ _ _ => .go
  | _ => afterOf s c

/-- The state once a queue's held command has begun or been cancelled, with its parent (R40) or by its AFTER, or once a wait for
a spent table has been counted; none while it must wait on. -/
def releaseHeld (s : State) (p : BitVec 4) (q : Nat) : Option State :=
  match (queueOf s p q).held with
  | none => none
  | some h =>
    match commandOf h.cmd with
    | none => none
    | some c =>
      let s1 := freeQueue s p q
      if parentCancelled s h.parent then some (cancelHeld s1 c h)
      else
        match heldAfter s c h with
        | .wait => none
        | .cancelled => some (cancelHeld s1 c h)
        | .go =>
          match beginHeld c h s1 with
          | .done s2 => some s2
          | .wait (some t) => if h.spent.contains t then none else some (holdSpent s1 c h t)
          | .wait none => none

/-- What holds the queue is a WAIT. -/
def holdsWait (s : State) (p : BitVec 4) (q : Nat) : Bool :=
  match (queueOf s p q).held with
  | some { cmd := .wait _ _ _, .. } => true
  | _ => false

/-- COMMAND_AFTER_RELEASE. -/
def execCommandAfterRelease (p : BitVec 4) (q : BitVec 6) (s : State) : Host.Outcome State Fault Refusal :=
  .next ((releaseHeld s p q.toNat).getD s)

/-- WAIT_CONDITION_MET. -/
def execWaitConditionMet (p : BitVec 4) (q : BitVec 6) (s : State) : Host.Outcome State Fault Refusal :=
  .next (if holdsWait s p q.toNat then (releaseHeld s p q.toNat).getD s else s)

end Sys2Proof.Machine
end

