-- ==== Sys2Proof/Machine/Background.lean ====
section
/-! DEFINITION. What the package does beside its teams: the next record that the command processor takes (spec/14 R308-R317),
and the next event that an engine, a bank, a service team or the hall brings about. -/

namespace Sys2Proof.Machine

/-! ### Which queue is served (R308, R311, R317, R449) -/

def anyDieLost (s : State) : Bool := s.pkstat.lost != 0 || s.pkstat.mlost != 0

/-- The queue has a record ready, and nothing holds it. -/
def recordReady (s : State) (p : BitVec 4) (q : Nat) : Bool :=
  let x := queueOf s p q
  x.en && decide (x.head.toNat < x.tail.toNat) && x.held.isNone && funPresent s p

/-- The address of the record at HEAD. -/
def recordAddr (x : Queue) : Word := BitVec.ofNat 64 (x.base.toNat * 256 + x.head.toNat % 2 ^ x.logn.toNat * 256)

/-- The record at HEAD, and the state in which it has been read. -/
def readRecord (s : State) (p : BitVec 4) (x : Queue) : Option (List Byte × State) := hallRead s p x.asid (recordAddr x) 256

/-- The store that a queue's held command edits. -/
def heldEdit (x : Queue) : Option (BitVec 8) :=
  match x.held with
  | some { cmd := .graphEditLoad _ st _, .. } => some st
  | some { cmd := .graphEditSetnode _ st _ _, .. } => some st
  | some { cmd := .graphEditDrop _ st, .. } => some st
  | _ => none

/-- The record at HEAD runs a graph store that an edit taken before it has yet to change: a GRAPH.RUN sees the edits that
were taken before it (R322). DEDUCED, log 64. -/
def editAhead (s : State) (p : BitVec 4) (bs : List Byte) : Bool :=
  natAt bs 0 1 == 0x02 && (partOf s p).queues.any fun x => heldEdit x.2 == some (BitVec.ofNat 8 (natAt bs 24 1))

/-- The kernel descriptors that a record names, each with the ASID in which its address is translated (R463). -/
def namedDescs (s : State) (p : BitVec 4) (bs : List Byte) : List (BitVec 13 × Word) :=
  match natAt bs 0 1 with
  | 0x01 | 0x10 => [(BitVec.ofNat 13 (natAt bs 2 2), wordAt bs 24)]
  | 0x02 =>
    match graphStore s p (natAt bs 24 1) with
    | some g => (g.asids.zip g.nodes).map fun x => (x.1.setWidth 13, x.2.kdesc)
    | none => []
  | _ => []

/-- What the command processor reads to take the record at HEAD is held on its way, or goes unanswered (R357, R449, R452). -/
def recordHeld (s : State) (p : BitVec 4) (q : Nat) : Bool :=
  let x := queueOf s p q
  hallWayHeld s p x.asid .rd (recordAddr x) 256 ||
    (readRecord s p x).any fun r => (namedDescs s p r.1).any fun d => hallWayHeld s p d.1 .rd d.2 128

/-- While a die is lost, only a RESYNC is taken; a record that cannot be read is met as it is taken. -/
def mayTake (s : State) (p : BitVec 4) (q : Nat) : Bool :=
  recordReady s p q && !recordHeld s p q &&
    match readRecord s p (queueOf s p q) with
    | some r => (!anyDieLost s || natAt r.1 0 1 == 0x0E) && !editAhead s p r.1
    | none => !anyDieLost s

/-- Where the round of a partition's queues of one PRIO goes on. -/
def turnKey (p : BitVec 4) (prio : Nat) : Nat := p.toNat * 4 + prio

/-- The queues of a partition, the one after the last served of a PRIO first. -/
def queueOrder (s : State) (p : BitVec 4) (prio : Nat) : List Nat :=
  (List.range 64).map fun i => (mapGet 0 s.queueTurn (turnKey p prio) + i) % 64

/-- The first queue of the highest PRIO; queues of one PRIO in turn. -/
def bestQueue (s : State) (p : BitVec 4) : Option Nat :=
  [3, 2, 1, 0].findSome? fun n => (queueOrder s p n).find? fun q => (queueOf s p q).prio.toNat == n && mayTake s p q

/-- The partition and queue served next: partitions in turn. -/
def nextQueue (s : State) : Option (BitVec 4 × Nat) :=
  ((List.range 16).map fun i => BitVec.ofNat 4 (s.partTurn + i)).findSome? fun p => (bestQueue s p).map fun q => (p, q)

/-! ### Records (R310, R311) -/

/-- The header of a record. -/
def parseCmd (p : BitVec 4) (q : Nat) (x : Queue) (bs : List Byte) : Cmd :=
  { part := p, queue := BitVec.ofNat 6 q, head := x.head, asid := BitVec.ofNat 16 (natAt bs 2 2),
    tag := BitVec.ofNat 32 (natAt bs 4 4), compl := wordAt bs 8,
    after := if natAt bs 1 1 % 2 = 1 then some (wordAt bs 16) else none }

/-- FLAGS bits 7:1 are 0, and so is ASID outside LAUNCH, GRAPH.RUN and CTRL.RUN. -/
def headerOk (bs : List Byte) : Bool :=
  let op := natAt bs 0 1
  decide (natAt bs 1 1 < 2) && (natAt bs 2 2 == 0 || op == 0x01 || op == 0x02 || op == 0x10)

/-- A command, if the bytes from `n` on are 0. -/
def zerosFrom (bs : List Byte) (n : Nat) (i : Instr) : Option Instr := if zeroBytes bs n 256 then some i else none

/-- GRAPH.EDIT (R322). -/
def parseEdit (c : Cmd) (bs : List Byte) : Option Instr :=
  let st := BitVec.ofNat 8 (natAt bs 24 1)
  let node := BitVec.ofNat 16 (natAt bs 26 2)
  let mid := zeroBytes bs 28 32
  match natAt bs 25 1 with
  | 0 => if mid && node == 0 then zerosFrom bs 40 (.graphEditLoad c st (wordAt bs 32)) else none
  | 1 => if mid then zerosFrom bs 40 (.graphEditSetnode c st node (wordAt bs 32)) else none
  | 2 => zerosFrom bs 26 (.graphEditDrop c st)
  | _ => none

/-- SUBSCRIBE (R349). -/
def parseSubscribe (c : Cmd) (bs : List Byte) : Option Instr :=
  let b := fun off => BitVec.ofNat 8 (natAt bs off 1)
  match natAt bs 40 1 with
  | 0 => zerosFrom bs 41
      (.subscribe c ⟨b 24, b 25, b 26, b 27, BitVec.ofNat 32 (natAt bs 28 4), wordAt bs 32⟩)
  | 1 => zerosFrom bs 41 (.subscribeRemove c (b 27))
  | _ => none

/-- TLBINV (R314). -/
def parseTlbinv (c : Cmd) (bs : List Byte) : Option Instr :=
  if natAt bs 26 1 < 2 && zeroBytes bs 27 32 then
    zerosFrom bs 48 (.tlbinvCommand c (BitVec.ofNat 16 (natAt bs 24 2)) (natAt bs 26 1 == 1) (wordAt bs 32) (wordAt bs 40))
  else none

/-- The command of a record whose opcode is assigned; none where a reserved byte is not 0 or an operation is not given. -/
def parseRecord (c : Cmd) (bs : List Byte) : Option Instr :=
  let w := wordAt bs 24
  match natAt bs 0 1 with
  | 0x00 => zerosFrom bs 24 (.nop c)
  | 0x01 => if launchZeros bs then some (.launch c (parseLaunch bs)) else none
  | 0x02 => zerosFrom bs 25 (.graphRun c (BitVec.ofNat 8 (natAt bs 24 1)))
  | 0x03 => parseEdit c bs
  | 0x04 => zerosFrom bs 32 (.copy c w)
  | 0x05 => zerosFrom bs 40 (.signal c w (wordAt bs 32))
  | 0x06 => zerosFrom bs 40 (.wait c w (wordAt bs 32))
  | 0x07 => zerosFrom bs 24 (.phaseBegin c)
  | 0x08 => zerosFrom bs 32 (.phaseEnd c w)
  | 0x09 => zerosFrom bs 24 (.jobBegin c)
  | 0x0A => zerosFrom bs 32 (.jobEnd c w)
  | 0x0B => zerosFrom bs 33 (.cancel c w (BitVec.ofNat 8 (natAt bs 32 1)))
  | 0x0C => parseSubscribe c bs
  | 0x0D => zerosFrom bs 28 (.rateWrite c (BitVec.ofNat 32 (natAt bs 24 4)))
  | 0x0E => zerosFrom bs 32 (.resync c w)
  | 0x0F => zerosFrom bs 64 (.syscReply c w ((List.range 4).map fun i => wordAt bs (32 + 8 * i)))
  | 0x10 => if launchZeros bs then some (.ctrlRun c (parseLaunch bs)) else none
  | 0x11 => parseTlbinv c bs
  | _ => none

/-! ### Taking a record (R309, R310, R327, R463) -/

/-- A record that cannot be read: the queue takes nothing more. -/
def queueError (s : State) (p : BitVec 4) (q : Nat) : State :=
  let s1 := dropHeld s p q
  setQueue s1 p q { queueOf s1 p q with qerr := true, en := false }

/-- HEAD rises by one, and the command is taken and not complete. -/
def countTaken (s : State) (p : BitVec 4) (q : Nat) : State :=
  let x := queueOf s p q
  let s1 := setQueue s p q { x with head := x.head + 1 }
  let y := partOf s1 p
  { setPart s1 p { y with pending := y.pending ++ [handleAt q x.head.toNat] } with
    partTurn := p.toNat + 1, queueTurn := mapSet 0 s1.queueTurn (turnKey p x.prio.toNat) ((q + 1) % 64) }

/-- The pending cancels of the command's handle are spent; the levels that they name. -/
def spendCancel (s : State) (c : Cmd) : List Nat × State :=
  let x := partOf s c.part
  let mine := x.pendCancels.filter fun k => k.1 == cmdHandle c
  (mine.map (·.2), if mine.isEmpty then s else setPart s c.part { x with pendCancels := x.pendCancels.filter fun k => k.1 != cmdHandle c })

/-- The level that a command taken now is a child of (R311). -/
def parentOf (s : State) (c : Cmd) (i : Instr) : Option Nat :=
  match i with
  | .launch _ _ | .graphRun _ _ => (partOf s c.part).openPhase
  | .phaseBegin _ => (partOf s c.part).openJob
  | _ => none

/-- A record that has been taken: the command to carry out, or the state once it is rejected or cancelled. DEDUCED, log 38. -/
def admitRecord (s : State) (c : Cmd) (bs : List Byte) : Option Instr × State :=
  let (k, s1) := spendCancel s c
  if 0x12 ≤ natAt bs 0 1 then (none, rejectCmd s1 c 0x84)
  else if !headerOk bs then (none, rejectCmd s1 c 0x83)
  else
    match parseRecord c bs with
    | none => (none, rejectCmd s1 c 0x83)
    | some i =>
      if k.any fun l => cancelFits l i then (none, leaveOpen c i (cancelTaken s1 c (parentOf s1 c i))) else (some i, s1)

/-- The next record that a queue gives: the command it becomes, if any, and the state in which it has been taken. -/
def takeCommand (s : State) : Option (Option Instr × State) :=
  (nextQueue s).map fun (p, q) =>
    let x := queueOf s p q
    match readRecord s p x with
    | none => (none, queueError s p q)
    | some (bs, s1) => admitRecord (countTaken s1 p q) (parseCmd p q x bs) bs

/-! ### Events of the package's own units -/

/-- The first of a list for which an event is due. -/
def firstOf {α : Type} (xs : List α) (due : α → Bool) (ev : α → Instr) : Option Instr := (xs.find? due).map ev

/-- Engines: a unit, a byte count, a retirement. -/
def engineEvent (s : State) : Option Instr :=
  firstOf s.engines (unitActs s) (fun o => .engineWriteLanded o.id) <|>
  firstOf s.engines (fun o => o.uncounted != 0 && !engOrdered s o && o.bar.any fun obj => !countHeld s o obj) (fun o => .engineByteCount o.id) <|>
  firstOf s.engines (mayRetire s) (fun o => .engineRetire o.id)

/-- Notices, requests at service teams and the states of capsule records. -/
def requestEvent (s : State) : Option Instr :=
  firstOf s.notices (noticeNext s) .crossNotice <|>
  firstOf s.service (fun e => !serviceHalted s e.req.loc) (fun e => .serviceTeamRequest (BitVec.ofNat 6 e.cluster)) <|>
  firstOf s.capWrites (fun w => nextCapWrite s w.place w.run == some w)
    (fun w => if w.run then .capsuleRunWrite w.place else .capsuleParkedWrite w.place)

/-- Teams that end, or go as cancelled. -/
def endEvent (s : State) : Option Instr := firstOf (teamsOf s) (fun t => mayGoNow t || mayEnd s t) (fun t => .teamEnd t.place)

def diesUp : List Nat := List.range 8

/-- Leave, wakes and power states. -/
def powerEvent (s : State) : Option Instr :=
  firstOf diesUp (mayGrant s) (fun d => .leaveGrant (BitVec.ofNat 3 d)) <|>
  firstOf diesUp (fun d => !(dieOf s d).wakes.isEmpty) (fun d => .islandWakeRound (BitVec.ofNat 3 d)) <|>
  firstOf (List.range 48) (fun c => (nextPower s c).isSome) (fun c => .clusterPowerStateReached (BitVec.ofNat 6 c)) <|>
  firstOf diesUp (hasStopped s) (fun d => .dieHalted (BitVec.ofNat 3 d))

/-- Commands that hold their queues. -/
def releaseEvent (s : State) : Option Instr :=
  allParts.findSome? fun p =>
    firstOf ((partOf s p).queues.map (·.1)) (fun q => (releaseHeld s p q).isSome) fun q =>
      if holdsWait s p q then .waitConditionMet p (BitVec.ofNat 6 q) else .commandAfterRelease p (BitVec.ofNat 6 q)

/-- Partitions: pre-emption, restoring, reports and resets. -/
def partEvent (s : State) : Option Instr :=
  firstOf allParts (fun p => preemptReady s p || (preemptor s p).isSome) .preemption <|>
  firstOf s.preempted (mayRestore s) (fun x => .preemptionRestore x.die x.core) <|>
  firstOf allParts (fun p => (partOf s p).attBusy) .attestationReportDone <|>
  firstOf allParts (fun p => (partOf s p).resetting) .functionLevelResetDone

/-- TIME stands before a multiple of 1,000, a RATE.GET waits for the next broadcast, or leave that is not granted waits for the
next microsecond. -/
def broadcastDue (s : State) : Bool :=
  s.booted && (s.time % 1000 == 999 || ((teamsOf s).any fun t => t.inflight.any fun f => match f.src with
    | .broadcast _ => true
    | _ => false) ||
  diesUp.any fun d => !(dieOf s d).leave.isEmpty && !s.diehalt.getLsbD d)

/-- The passing of TIME ends windows of the annex directory (R360). -/
def windowStep (s : State) : Option (Host.Outcome State Fault Refusal) :=
  if windowOver s then some (execAnnexWindowEnd s.window (s.time / 16384 - 1) s) else none

/-- The image that the host supplies has been read and verified (R456). -/
def recoveryStep (s : State) : Option (Host.Outcome State Fault Refusal) :=
  if s.rcvr.busy then some (execRecoveryDone s.rcvr.run s) else none

/-- An island goes to the point that its decider has chosen (R347). -/
def pointStep (s : State) : Option (Host.Outcome State Fault Refusal) :=
  (s.points.find? fun x => pointDue s x && coreLive s (x.core / 64) (x.core % 64)).map fun x =>
    execOperatingPointChange (BitVec.ofNat 3 (x.core / 64)) (BitVec.ofNat 6 x.core) (BitVec.ofNat 3 x.island) (BitVec.ofNat 3 x.point) s

/-- The cores whose islands' times are kept; every other island has not been used (R346). An island that has run no work is powered
down. -/
def idleStep (s : State) : Option (Host.Outcome State Fault Refusal) :=
  ((s.cores.flatMap fun x => (List.range 5).map fun i => (x.1, i)).find? fun x => mayPowerDown s x.1 x.2).map fun x =>
    execIslandPowerDown (BitVec.ofNat 3 (x.1 / 64)) (BitVec.ofNat 6 x.1) (BitVec.ofNat 3 x.2) s

/-- What the package does of itself that nothing else waits for. -/
def ownStep (s : State) : Option (Host.Outcome State Fault Refusal) :=
  (hallGo s).map .next <|> pointStep s <|> idleStep s <|> windowStep s <|> recoveryStep s

/-- TIME runs on by itself at every 86th turn; what waits for its passing comes about at a later one (R64). DESIGN CHOICE,
log 7. -/
def timeTurn (s : State) : Bool := s.ctlTurn % 86 = 63

/-- Ordered launches. -/
def orderedEvent (s : State) : Option Instr :=
  firstOf s.levels (fun l => !l.stallReported && stalled s l) (fun l => .orderedLaunchStalled l.serial) <|>
  firstOf s.levels (fun l => quantumReady s l && quantumEnd s l != s) (fun l => .quantumEnd l.serial)

/-- The dirty bytes whose lines may be written back now: those after the last line written back first, so that every line has
its turn (R328, R460). DESIGN CHOICE, log 2. -/
def dirtyTurn (s : State) : Option Nat :=
  let free := (s.dirty.map (·.1)).filter fun k => !writeBackHeld s (k / 2 ^ 56) (k % 2 ^ 56)
  (free.find? fun k => s.wbTurn < k) <|> free.head?

/-- A line that an L1 holds dirty. -/
def storeEvent (s : State) : Option Instr :=
  (dirtyTurn s).map fun x =>
    let k := x / 2 ^ 56
    .storePerformed (BitVec.ofNat 4 (k / 64)) (BitVec.ofNat 6 k) (x % 2 ^ 56 / 128)

/-- A result on its way. -/
def resultEvent (s : State) : Option Instr :=
  firstOf (allTeams s) (fun t => (firstResult t).isSome) (fun t => .registerFill t.place)

/-- What takes its time: results on their way, and lines that an L1 holds dirty, in turn. -/
def lateEvent (s : State) : Option Instr :=
  if s.ctlTurn % 16 < 8 then resultEvent s <|> storeEvent s else storeEvent s <|> resultEvent s

def broadcastEvent (s : State) : Option Instr := if broadcastDue s then some .rateBroadcast else none

/-- The kinds of events of the package's own units. -/
def eventKinds : List (State → Option Instr) :=
  [engineEvent, requestEvent, endEvent, powerEvent, releaseEvent, partEvent, orderedEvent, broadcastEvent]

/-- The next event of the package's own units. Each kind is looked at first in its turn, so that none keeps another away (R328):
DESIGN CHOICE, log 2. What must come from outside, or by the passing of time alone, stands in the inbox. -/
def nextEvent (s : State) : Option Instr :=
  let n := if s.ctlTurn / 2 % 16 = 1 then s.ctlTurn / 32 % 8 else 0
  (eventKinds.drop n ++ eventKinds.take n).findSome? fun f => f s

end Sys2Proof.Machine
end

