-- ==== Sys2Proof/Machine/Capsule.lean ====
section
/-! DEFINITION. The capsule instructions (spec/11 R258, R259; spec/13). -/

namespace Sys2Proof.Machine

/-- The team goes on at the address that the service team answers; a team asked to park meanwhile stops now (R299). -/
def capGo (s : State) (rep : SvcReply) : Eff :=
  .land (if s.team.parks.isEmpty then s else descheduleCap s s.team false) (rep.vals.getD 0 s.team.pc)

/-- The continuation: the parcel E parcels from here (R258). -/
def capCont (s : State) (e : BitVec 11) : Word := skipWord (s.team.pc + BitVec.ofNat 64 (4 * e.toNat))

/-- CAP.ENTER. -/
def execCapEnter (a : SSrc) (sz : BitVec 4) (e : BitVec 11) (s : State) : Host.Outcome State Fault Refusal :=
  issue (.capEnter a sz e) s fun s =>
    let va := sget s.team a.r
    let size := 256 * (sz.toNat + 1)
    withReply s .capsule va [] capGo fun s =>
      match access s va 256 256 .atomic with
      | .fault c => .stop s (accStop s.team c .atomic va 0 0)
      | .hold w => .hold s w
      | .ok rcd =>
        askService s .capsule va [] rcd (.capEnter rcd size (nextPc (.capEnter a sz e) s) (capCont s e)) capGo

/-- The record of the capsule that the team is inside. -/
def capRecord (t : Team) : Nat := ((bodyHold t).map (·.rcd)).getD 0

/-- A step of the capsule that the team is inside. -/
def capStep (i : Instr) (r : State → SvcReq) (s : State) : Host.Outcome State Fault Refusal :=
  issue i s fun s =>
    withReply s .capsule 0 [] capGo fun s => askService s .capsule 0 [] (capRecord s.team) (r s) capGo

/-- CAP.EXIT is a release at .dev (R306). -/
def capStepRel (i : Instr) (r : State → SvcReq) (s : State) : Host.Outcome State Fault Refusal :=
  issue i s fun s =>
    withReply s .capsule 0 [] capGo fun s =>
      relThen s .dev fun s1 => askService s1 .capsule 0 [] (capRecord s.team) (r s) capGo

def execCapCommit (s : State) := capStep .capCommit (fun s => .capCommit (nextPc .capCommit s)) s
def execCapExit (s : State) := capStepRel .capExit (fun s => .capExit (nextPc .capExit s)) s
def execCapAbort (s : State) := capStep .capAbort (fun _ => .capAbort) s

end Sys2Proof.Machine
end

