-- ==== Sys2Proof/Machine/Control.lean ====
section
/-! DEFINITION. Branches, calls, loops, divergence and teams (spec/09 R196-R213). -/

namespace Sys2Proof.Machine

/-! ### Branches and calls -/

/-- BC (R197). -/
def execBc (c : Cond) (disp : BitVec 20) (s : State) : Host.Outcome State Fault Refusal :=
  issue (.bc c disp) s fun s => if condHolds c s.team then .goto s (dispTarget s disp) else .retire s

/-- No lane is both in the mask and in EM (R198). -/
def maskZero (t : Team) (k : KReg) : Bool := activeMask t k == 0

def execBmz (k : KReg) (disp : BitVec 20) (s : State) : Host.Outcome State Fault Refusal :=
  issue (.bmz k disp) s fun s => if maskZero s.team k then .goto s (dispTarget s disp) else .retire s
def execBmnz (k : KReg) (disp : BitVec 20) (s : State) : Host.Outcome State Fault Refusal :=
  issue (.bmnz k disp) s fun s => if maskZero s.team k then .retire s else .goto s (dispTarget s disp)

/-- The link register takes `next` (R199). -/
def linkTo (i : Instr) (s : State) : State := { s with team := sset s.team 62 (nextPc i s) }

def execCall (disp : BitVec 20) (s : State) : Host.Outcome State Fault Refusal :=
  issue (.call disp) s fun s => .goto (linkTo (.call disp) s) (dispTarget s disp)
def execJr (a : SSrc) (s : State) : Host.Outcome State Fault Refusal :=
  issue (.jr a) s fun s => .goto s (sget s.team a.r)
def execCallr (a : SSrc) (s : State) : Host.Outcome State Fault Refusal :=
  issue (.callr a) s fun s => .goto (linkTo (.callr a) s) (sget s.team a.r)
def execRet (s : State) : Host.Outcome State Fault Refusal :=
  issue .ret s fun s => .goto s (sget s.team 62)

/-! ### Loops (R201, R202, R419) -/

/-- The address after the instruction that begins at `a`. -/
def afterInstr (s : State) (a : Word) : Word :=
  match fetchLine s s.team a with
  | .ok l => skipWord (a + BitVec.ofNat 64 (4 * lengthOf (l.p (parcelOf a))))
  | .error _ => a + 4

/-- The effect of LOOP and LOOPI with their count. -/
def loopEffect (i : Instr) (e : BitVec 15) (n : Nat) (s : State) : Eff :=
  let t := s.team
  let last := t.pc + BitVec.ofNat 64 (4 * e.toNat)
  if n = 0 then .land s (afterInstr s last)
  else if 4 ≤ t.lstk.length then .stop s { cause := 0x23, pc := t.pc, code := 1 }
  else retireWith s fun t => { t with lstk := ⟨nextPc i s, last, n⟩ :: t.lstk }

def execLoop (a : SSrc) (e : BitVec 15) (s : State) : Host.Outcome State Fault Refusal :=
  issue (.loop a e) s fun s => loopEffect (.loop a e) e (sget s.team a.r).toNat s
def execLoopi (count : BitVec 32) (e : BitVec 15) (s : State) : Host.Outcome State Fault Refusal :=
  issue (.loopi count e) s fun s => loopEffect (.loopi count e) e count.toNat s

/-! ### Divergence (R205, R206) -/

/-- EM and the stack after MARK or ELSE: the transfer to R is taken when EM is empty. -/
def divergeTo (s : State) (em : Mask) (stk : List DivEntry) (r : Word) : Eff :=
  let s1 : State := { s with team := { s.team with em := em, dstk := stk } }
  if em = 0 then .goto s1 r else .retire s1

def execMark (k : KReg) (disp : BitVec 20) (s : State) : Host.Outcome State Fault Refusal :=
  issue (.mark k disp) s fun s =>
    let t := s.team
    let m := kget t k
    divergeTo s (t.em &&& m) (⟨dispTarget s disp, t.em, t.em &&& ~~~m⟩ :: t.dstk) (dispTarget s disp)

def execDivElse (disp : BitVec 20) (s : State) : Host.Outcome State Fault Refusal :=
  issue (.divElse disp) s fun s =>
    match s.team.dstk with
    | e :: rest => divergeTo s e.p (⟨dispTarget s disp, e.s, 0⟩ :: rest) (dispTarget s disp)
    | [] => .stop s { cause := 0x23, pc := s.team.pc, code := 5 }

def execJoin (s : State) : Host.Outcome State Fault Refusal :=
  issue .join s fun s =>
    match s.team.dstk with
    | e :: rest => retireWith s fun t => { t with em := e.s, dstk := rest }
    | [] => .stop s { cause := 0x23, pc := s.team.pc, code := 5 }

/-! ### Teams (R208-R213) -/

/-- The stop that a child's entry raises at the SPAWN (R417). -/
def entryStop (s : State) (a : Word) : Option Stop :=
  let t := s.team
  match badTarget s t a with
  | some c => some { cause := c, pc := t.pc, faddr := a }
  | none =>
    match fetchLine s t a with
    | .error (c, code) =>
      some { cause := c, pc := t.pc, kind := if c = 0x13 then 3 else 5, code := code,
             faddr := if c = 0x13 then a else lineBase a }
    | .ok l =>
      if l.fillAt (parcelOf a) then
        match fetchLine s t (lineBase a + 64) with
        | .error (c, code) => some { cause := c, pc := t.pc, kind := if c = 0x13 then 3 else 5, code := code,
                                     faddr := lineBase a + 64 }
        | .ok _ => none
      else none

/-- The context a SPAWN takes: the lowest free one, if the lane-registers and the quota allow a team (R209). -/
def spawnContext (s : State) : Option Nat :=
  let t := s.team
  let k := placeKey t.place
  if ordered t || t.place.die == 8 then none
  else if 131072 < lanesUsed s k + t.lanes * t.vregCount then none
  else if quota s t.part 4 ≤ spawnedAlive s t.part then none
  else (freeContexts s k t.prio.toNat).head?

/-- The child of R209 in context x. -/
def childTeam (s : State) (x : Nat) (a : SReg) (entry : Word) : Team :=
  let t := s.team
  let pl : Place := { t.place with ctx := BitVec.ofNat 5 x }
  let args := (List.range 8).map fun j => sget t (BitVec.ofNat 6 (a.toNat + j))
  let base := t.prvbase + BitVec.ofNat 64 (x * privateBytes t) - BitVec.ofNat 64 (t.place.ctx.toNat * privateBytes t)
  let c := startTeam s pl t.part t.asid t.launch t.blk (BitVec.ofNat 6 (32 + x))
    { lanes := t.lanes, vregs := t.vregCount, stklim := t.stklim } t.prio base entry args
  { c with mode := modeSeen t }

def execSpawn (d : SReg) (a : SSrc) (disp : BitVec 32) (s : State) : Host.Outcome State Fault Refusal :=
  issue (.spawn d a disp) s fun s =>
    let entry := dispTarget s disp
    match entryStop s entry with
    | some x => .stop s x
    | none =>
      match spawnContext s with
      | none => retireWith s fun t => setSpawn (sset t d 0) true
      | some x =>
        relThen s .core fun s1 =>
          retireWith { s1 with others := s1.others ++ [childTeam s x a.r entry] } fun t =>
            setSpawn (sset t d (BitVec.ofNat 64 (32 + x))) false

/-- EXIT (R36, R211): both stacks are discarded; the team ends once its outstanding work is complete (TEAM_END). -/
def execExit (s : State) : Host.Outcome State Fault Refusal :=
  issue .exit s fun s =>
    .done { s with team := { retireTeam s s.team with status := .exiting, dstk := [], lstk := [], closed := true } }

/-- YIELD (R212): last of its core's ready teams for 64 turns. -/
def execYield (s : State) : Host.Outcome State Fault Refusal :=
  issue .yield s fun s => retireWith s fun t => { t with yieldUntil := s.ctlTurn + 65 }

end Sys2Proof.Machine
end

