-- ==== Sys2Proof/Machine/Scalar.lean ====
section
/-! DEFINITION. Scalar arithmetic and logic (spec/09 R187-R195). -/

namespace Sys2Proof.Machine

/-! ### Functions -/

/-- SALU's functions (R187). -/
def saluOp (fn : SaluFn) (x y : Word) : Word :=
  let sh := y.toNat % 64
  match fn with
  | .add => x + y
  | .sub => x - y
  | .and => x &&& y
  | .or => x ||| y
  | .xor => x ^^^ y
  | .andn => x &&& ~~~y
  | .shl => x <<< sh
  | .shrl => x >>> sh
  | .shra => x.sshiftRight sh
  | .mul => x * y
  | .mulh => BitVec.ofInt 64 (x.toInt * y.toInt / 2 ^ 64)
  | .mulhn => BitVec.ofNat 64 (x.toNat * y.toNat / 2 ^ 64)
  | .min => if x.toInt ≤ y.toInt then x else y
  | .max => if x.toInt ≤ y.toInt then y else x
  | .minn => if x.toNat ≤ y.toNat then x else y
  | .maxn => if x.toNat ≤ y.toNat then y else x

/-- Zeros above the highest set bit of the low n bits. -/
def clzNat (n x : Nat) : Nat := if x = 0 then n else n - 1 - Nat.log2 x

/-- BREV (R192): bit i of the result is bit n − 1 − i of x. -/
def brevNat : Nat → Nat → Nat
  | 0, _ => 0
  | n + 1, x => (x % 2) * 2 ^ n + brevNat n (x / 2)

/-- BFX (R193). -/
def bfxOp (sx : Bool) (x : Word) (lo n : Nat) : Word :=
  let f := x.toNat / 2 ^ lo % 2 ^ n
  if sx then BitVec.ofInt 64 (toSigned n f) else BitVec.ofNat 64 f

/-- BFI (R193). -/
def bfiOp (x y : Word) (lo n : Nat) : Word := setFld y (lo + n - 1) lo (x.toNat % 2 ^ n)

/-- LEA (R194). -/
def leaOp (s : State) (w : Word) : Word :=
  let t := s.team
  if t.place.die != 8 && localBase ≤ w.toNat && w.toNat < localBase + 2 ^ 21 then
    match localBlock s t.who (w.toNat - localBase) with
    | some (b, off) =>
      if off < b.size then
        BitVec.ofNat 64 (apertureBase + b.die.toNat * 2 ^ 26 + b.core.toNat * 2 ^ 20 + b.off + off)
      else w
    | none => w
  else w

/-! ### Shapes -/

/-- d := f(s[a], s[b]). -/
def scalar2 (i : Instr) (d : SReg) (a b : SSrc) (f : Word → Word → Word) (s : State) :
    Host.Outcome State Fault Refusal :=
  issue i s fun s => retireScalar s d (f (sget s.team a.r) (sget s.team b.r))

/-- d := f(s[a]). -/
def scalar1 (i : Instr) (d : SReg) (a : SSrc) (f : Word → Word) (s : State) : Host.Outcome State Fault Refusal :=
  issue i s fun s => retireScalar s d (f (sget s.team a.r))

/-! ### SALU -/

def execSaluAdd (d : SReg) (a b : SSrc) (s : State) := scalar2 (.saluAdd d a b) d a b (saluOp .add) s
def execSaluSub (d : SReg) (a b : SSrc) (s : State) := scalar2 (.saluSub d a b) d a b (saluOp .sub) s
def execSaluAnd (d : SReg) (a b : SSrc) (s : State) := scalar2 (.saluAnd d a b) d a b (saluOp .and) s
def execSaluOr (d : SReg) (a b : SSrc) (s : State) := scalar2 (.saluOr d a b) d a b (saluOp .or) s
def execSaluXor (d : SReg) (a b : SSrc) (s : State) := scalar2 (.saluXor d a b) d a b (saluOp .xor) s
def execSaluAndn (d : SReg) (a b : SSrc) (s : State) := scalar2 (.saluAndn d a b) d a b (saluOp .andn) s
def execSaluShl (d : SReg) (a b : SSrc) (s : State) := scalar2 (.saluShl d a b) d a b (saluOp .shl) s
def execSaluShrl (d : SReg) (a b : SSrc) (s : State) := scalar2 (.saluShrl d a b) d a b (saluOp .shrl) s
def execSaluShra (d : SReg) (a b : SSrc) (s : State) := scalar2 (.saluShra d a b) d a b (saluOp .shra) s
def execSaluMul (d : SReg) (a b : SSrc) (s : State) := scalar2 (.saluMul d a b) d a b (saluOp .mul) s
def execSaluMulh (d : SReg) (a b : SSrc) (s : State) := scalar2 (.saluMulh d a b) d a b (saluOp .mulh) s
def execSaluMulhn (d : SReg) (a b : SSrc) (s : State) := scalar2 (.saluMulhn d a b) d a b (saluOp .mulhn) s
def execSaluMin (d : SReg) (a b : SSrc) (s : State) := scalar2 (.saluMin d a b) d a b (saluOp .min) s
def execSaluMax (d : SReg) (a b : SSrc) (s : State) := scalar2 (.saluMax d a b) d a b (saluOp .max) s
def execSaluMinn (d : SReg) (a b : SSrc) (s : State) := scalar2 (.saluMinn d a b) d a b (saluOp .minn) s
def execSaluMaxn (d : SReg) (a b : SSrc) (s : State) := scalar2 (.saluMaxn d a b) d a b (saluOp .maxn) s

/-- SALUL: y = sext(lit32, 32) (R188). -/
def execSalul (fn : SaluFn) (d : SReg) (a : SSrc) (lit : BitVec 32) (s : State) :=
  scalar1 (.salul fn d a lit) d a (fun x => saluOp fn x (sext64 lit)) s

/-! ### Immediates (R189, R190) -/

def execAddi (d : SReg) (a : SSrc) (imm : BitVec 11) (s : State) :=
  scalar1 (.addi d a imm) d a (fun x => x + sext64 imm) s
def execAndi (d : SReg) (a : SSrc) (imm : BitVec 11) (s : State) :=
  scalar1 (.andi d a imm) d a (fun x => x &&& sext64 imm) s
def execOri (d : SReg) (a : SSrc) (imm : BitVec 11) (s : State) :=
  scalar1 (.ori d a imm) d a (fun x => x ||| sext64 imm) s
def execXori (d : SReg) (a : SSrc) (imm : BitVec 11) (s : State) :=
  scalar1 (.xori d a imm) d a (fun x => x ^^^ sext64 imm) s
def execShiShl (d : SReg) (a : SSrc) (n : BitVec 6) (s : State) :=
  scalar1 (.shiShl d a n) d a (fun x => x <<< n.toNat) s
def execShiShrl (d : SReg) (a : SSrc) (n : BitVec 6) (s : State) :=
  scalar1 (.shiShrl d a n) d a (fun x => x >>> n.toNat) s
def execShiShra (d : SReg) (a : SSrc) (n : BitVec 6) (s : State) :=
  scalar1 (.shiShra d a n) d a (fun x => x.sshiftRight n.toNat) s

/-! ### Comparison (R191) -/

def execCmp (a b : SSrc) (s : State) : Host.Outcome State Fault Refusal :=
  issue (.cmp a b) s fun s => retireWith s fun t => setCmp t (sget t a.r) (sget t b.r)
def execCmpi (a : SSrc) (imm : BitVec 11) (s : State) : Host.Outcome State Fault Refusal :=
  issue (.cmpi a imm) s fun s => retireWith s fun t => setCmp t (sget t a.r) (sext64 imm)

/-! ### SBIT (R192) -/

def execSbitPopc (d : SReg) (a : SSrc) (s : State) :=
  scalar1 (.sbitPopc d a) d a (fun x => BitVec.ofNat 64 (popNat 64 x.toNat)) s
def execSbitClz (d : SReg) (a : SSrc) (s : State) :=
  scalar1 (.sbitClz d a) d a (fun x => BitVec.ofNat 64 (clzNat 64 x.toNat)) s
def execSbitCtz (d : SReg) (a : SSrc) (s : State) :=
  scalar1 (.sbitCtz d a) d a (fun x => BitVec.ofNat 64 ((lowBit 64 0 x.toNat).getD 64)) s
def execSbitBrev (d : SReg) (a : SSrc) (s : State) :=
  scalar1 (.sbitBrev d a) d a (fun x => BitVec.ofNat 64 (brevNat 64 x.toNat)) s
def execSbitSextb (d : SReg) (a : SSrc) (s : State) :=
  scalar1 (.sbitSextb d a) d a (fun x => (x.setWidth 8).signExtend 64) s
def execSbitSexth (d : SReg) (a : SSrc) (s : State) :=
  scalar1 (.sbitSexth d a) d a (fun x => (x.setWidth 16).signExtend 64) s
def execSbitSextw (d : SReg) (a : SSrc) (s : State) :=
  scalar1 (.sbitSextw d a) d a (fun x => (x.setWidth 32).signExtend 64) s
def execSbitZextb (d : SReg) (a : SSrc) (s : State) :=
  scalar1 (.sbitZextb d a) d a (fun x => (x.setWidth 8).setWidth 64) s
def execSbitZexth (d : SReg) (a : SSrc) (s : State) :=
  scalar1 (.sbitZexth d a) d a (fun x => (x.setWidth 16).setWidth 64) s
def execSbitZextw (d : SReg) (a : SSrc) (s : State) :=
  scalar1 (.sbitZextw d a) d a (fun x => (x.setWidth 32).setWidth 64) s

/-! ### Fields, addresses and literals (R193-R195) -/

def execBfx (sx : Bool) (d : SReg) (a : SSrc) (lo nm1 : BitVec 6) (s : State) :=
  scalar1 (.bfx sx d a lo nm1) d a (fun x => bfxOp sx x lo.toNat (nm1.toNat + 1)) s
def execBfi (d : SReg) (a b : SSrc) (lo nm1 : BitVec 6) (s : State) :=
  scalar2 (.bfi d a b lo nm1) d a b (fun x y => bfiOp x y lo.toNat (nm1.toNat + 1)) s
def execLea (d : SReg) (a b : SSrc) (s : State) : Host.Outcome State Fault Refusal :=
  issue (.lea d a b) s fun s => retireScalar s d (leaOp s (sget s.team a.r + sget s.team b.r))
def execLit (sx : Bool) (d : SReg) (v : BitVec 32) (s : State) : Host.Outcome State Fault Refusal :=
  issue (.lit sx d v) s fun s => retireScalar s d (if sx then sext64 v else zext64 v)
def execLith (d : SReg) (v : BitVec 32) (s : State) : Host.Outcome State Fault Refusal :=
  issue (.lith d v) s fun s => retireScalar s d (v ++ (sget s.team d).setWidth 32)

end Sys2Proof.Machine
end

