-- ==== Sys2Proof/Machine/Dispatch.lean ====
section
/-! DEFINITION. One arm per constructor of `Instr`: the meaning of each instruction, command and event. -/

namespace Sys2Proof.Machine

def exec (i : Instr) (s : State) : Host.Outcome State Fault Refusal :=
  match i with
  | .saluAdd d a b => Sys2Proof.Machine.execSaluAdd d a b s
  | .saluSub d a b => Sys2Proof.Machine.execSaluSub d a b s
  | .saluAnd d a b => Sys2Proof.Machine.execSaluAnd d a b s
  | .saluOr d a b => Sys2Proof.Machine.execSaluOr d a b s
  | .saluXor d a b => Sys2Proof.Machine.execSaluXor d a b s
  | .saluAndn d a b => Sys2Proof.Machine.execSaluAndn d a b s
  | .saluShl d a b => Sys2Proof.Machine.execSaluShl d a b s
  | .saluShrl d a b => Sys2Proof.Machine.execSaluShrl d a b s
  | .saluShra d a b => Sys2Proof.Machine.execSaluShra d a b s
  | .saluMul d a b => Sys2Proof.Machine.execSaluMul d a b s
  | .saluMulh d a b => Sys2Proof.Machine.execSaluMulh d a b s
  | .saluMulhn d a b => Sys2Proof.Machine.execSaluMulhn d a b s
  | .saluMin d a b => Sys2Proof.Machine.execSaluMin d a b s
  | .saluMax d a b => Sys2Proof.Machine.execSaluMax d a b s
  | .saluMinn d a b => Sys2Proof.Machine.execSaluMinn d a b s
  | .saluMaxn d a b => Sys2Proof.Machine.execSaluMaxn d a b s
  | .salul fn d a lit => Sys2Proof.Machine.execSalul fn d a lit s
  | .addi d a imm => Sys2Proof.Machine.execAddi d a imm s
  | .andi d a imm => Sys2Proof.Machine.execAndi d a imm s
  | .ori d a imm => Sys2Proof.Machine.execOri d a imm s
  | .xori d a imm => Sys2Proof.Machine.execXori d a imm s
  | .shiShl d a n => Sys2Proof.Machine.execShiShl d a n s
  | .shiShrl d a n => Sys2Proof.Machine.execShiShrl d a n s
  | .shiShra d a n => Sys2Proof.Machine.execShiShra d a n s
  | .cmp a b => Sys2Proof.Machine.execCmp a b s
  | .cmpi a imm => Sys2Proof.Machine.execCmpi a imm s
  | .sbitPopc d a => Sys2Proof.Machine.execSbitPopc d a s
  | .sbitClz d a => Sys2Proof.Machine.execSbitClz d a s
  | .sbitCtz d a => Sys2Proof.Machine.execSbitCtz d a s
  | .sbitBrev d a => Sys2Proof.Machine.execSbitBrev d a s
  | .sbitSextb d a => Sys2Proof.Machine.execSbitSextb d a s
  | .sbitSexth d a => Sys2Proof.Machine.execSbitSexth d a s
  | .sbitSextw d a => Sys2Proof.Machine.execSbitSextw d a s
  | .sbitZextb d a => Sys2Proof.Machine.execSbitZextb d a s
  | .sbitZexth d a => Sys2Proof.Machine.execSbitZexth d a s
  | .sbitZextw d a => Sys2Proof.Machine.execSbitZextw d a s
  | .bfx sx d a lo nm1 => Sys2Proof.Machine.execBfx sx d a lo nm1 s
  | .bfi d a b lo nm1 => Sys2Proof.Machine.execBfi d a b lo nm1 s
  | .lea d a b => Sys2Proof.Machine.execLea d a b s
  | .lit sx d v => Sys2Proof.Machine.execLit sx d v s
  | .lith d v => Sys2Proof.Machine.execLith d v s
  | .bc c disp => Sys2Proof.Machine.execBc c disp s
  | .bmz k disp => Sys2Proof.Machine.execBmz k disp s
  | .bmnz k disp => Sys2Proof.Machine.execBmnz k disp s
  | .call disp => Sys2Proof.Machine.execCall disp s
  | .jr a => Sys2Proof.Machine.execJr a s
  | .callr a => Sys2Proof.Machine.execCallr a s
  | .loop a e => Sys2Proof.Machine.execLoop a e s
  | .loopi count e => Sys2Proof.Machine.execLoopi count e s
  | .mark k disp => Sys2Proof.Machine.execMark k disp s
  | .divElse disp => Sys2Proof.Machine.execDivElse disp s
  | .spawn d a disp => Sys2Proof.Machine.execSpawn d a disp s
  | .valuAdd o sat => Sys2Proof.Machine.execValuAdd o sat s
  | .valuSub o sat => Sys2Proof.Machine.execValuSub o sat s
  | .valuAnd o => Sys2Proof.Machine.execValuAnd o s
  | .valuOr o => Sys2Proof.Machine.execValuOr o s
  | .valuXor o => Sys2Proof.Machine.execValuXor o s
  | .valuAndn o => Sys2Proof.Machine.execValuAndn o s
  | .valuShl o sv => Sys2Proof.Machine.execValuShl o sv s
  | .valuShrl o => Sys2Proof.Machine.execValuShrl o s
  | .valuShra o => Sys2Proof.Machine.execValuShra o s
  | .valuMin o => Sys2Proof.Machine.execValuMin o s
  | .valuMax o => Sys2Proof.Machine.execValuMax o s
  | .valuMinn o => Sys2Proof.Machine.execValuMinn o s
  | .valuMaxn o => Sys2Proof.Machine.execValuMaxn o s
  | .valuAbs o sv => Sys2Proof.Machine.execValuAbs o sv s
  | .valuNeg o sv => Sys2Proof.Machine.execValuNeg o sv s
  | .valuMov d k es b => Sys2Proof.Machine.execValuMov d k es b s
  | .vmulMul o sv => Sys2Proof.Machine.execVmulMul o sv s
  | .vmulMulh o => Sys2Proof.Machine.execVmulMulh o s
  | .vmulMulhn o => Sys2Proof.Machine.execVmulMulhn o s
  | .vmulMad o sv => Sys2Proof.Machine.execVmulMad o sv s
  | .vcmp fn o => Sys2Proof.Machine.execVcmp fn o s
  | .vsel o => Sys2Proof.Machine.execVsel o s
  | .vbcast o idx => Sys2Proof.Machine.execVbcast o idx s
  | .vlid d k es => Sys2Proof.Machine.execVlid d k es s
  | .fadd o => Sys2Proof.Machine.execFadd o s
  | .fsub o => Sys2Proof.Machine.execFsub o s
  | .fmul o => Sys2Proof.Machine.execFmul o s
  | .fmin o => Sys2Proof.Machine.execFmin o s
  | .fmax o => Sys2Proof.Machine.execFmax o s
  | .fabs o => Sys2Proof.Machine.execFabs o s
  | .fneg o => Sys2Proof.Machine.execFneg o s
  | .fcsgn o => Sys2Proof.Machine.execFcsgn o s
  | .ffma o => Sys2Proof.Machine.execFfma o s
  | .ffms o => Sys2Proof.Machine.execFfms o s
  | .fnma o => Sys2Proof.Machine.execFnma o s
  | .fcmp fn o => Sys2Proof.Machine.execFcmp fn o s
  | .frcp o => Sys2Proof.Machine.execFrcp o s
  | .frsq o => Sys2Proof.Machine.execFrsq o s
  | .fsqrt o => Sys2Proof.Machine.execFsqrt o s
  | .fexp2 o => Sys2Proof.Machine.execFexp2 o s
  | .flog2 o => Sys2Proof.Machine.execFlog2 o s
  | .fsin o => Sys2Proof.Machine.execFsin o s
  | .fcos o => Sys2Proof.Machine.execFcos o s
  | .ftanh o => Sys2Proof.Machine.execFtanh o s
  | .cvt d k a dst src part => Sys2Proof.Machine.execCvt d k a dst src part s
  | .pack o sat => Sys2Proof.Machine.execPack o sat s
  | .unpack o sx half => Sys2Proof.Machine.execUnpack o sx half s
  | .perm o => Sys2Proof.Machine.execPerm o s
  | .shfl d k es a b => Sys2Proof.Machine.execShfl d k es a b s
  | .shfliUp o => Sys2Proof.Machine.execShfliUp o s
  | .shfliDown o => Sys2Proof.Machine.execShfliDown o s
  | .shfliXor o => Sys2Proof.Machine.execShfliXor o s
  | .shfliBcast o => Sys2Proof.Machine.execShfliBcast o s
  | .vred fn d k a scal => Sys2Proof.Machine.execVred fn d k a scal s
  | .scan fn d k a excl => Sys2Proof.Machine.execScan fn d k a excl s
  | .mtch d o => Sys2Proof.Machine.execMtch d o s
  | .ballot d o => Sys2Proof.Machine.execBallot d o s
  | .vany d o => Sys2Proof.Machine.execVany d o s
  | .vall d o => Sys2Proof.Machine.execVall d o s
  | .kmov d a => Sys2Proof.Machine.execKmov d a s
  | .kmovToScalar d a q => Sys2Proof.Machine.execKmovToScalar d a q s
  | .kmovSum d a => Sys2Proof.Machine.execKmovSum d a s
  | .kmovFromScalar d a q => Sys2Proof.Machine.execKmovFromScalar d a q s
  | .kand d a b => Sys2Proof.Machine.execKand d a b s
  | .kor d a b => Sys2Proof.Machine.execKor d a b s
  | .kxor d a b => Sys2Proof.Machine.execKxor d a b s
  | .kandn d a b => Sys2Proof.Machine.execKandn d a b s
  | .knot d a => Sys2Proof.Machine.execKnot d a s
  | .kset d a => Sys2Proof.Machine.execKset d a s
  | .kpop d a => Sys2Proof.Machine.execKpop d a s
  | .ld o => Sys2Proof.Machine.execLd o s
  | .st o => Sys2Proof.Machine.execSt o s
  | .vldStr o => Sys2Proof.Machine.execVldStr o s
  | .vldIx o => Sys2Proof.Machine.execVldIx o s
  | .vldPrv o => Sys2Proof.Machine.execVldPrv o s
  | .vstStr o => Sys2Proof.Machine.execVstStr o s
  | .vstIx o => Sys2Proof.Machine.execVstIx o s
  | .vstPrv o => Sys2Proof.Machine.execVstPrv o s
  | .ldfeK o => Sys2Proof.Machine.execLdfeK o s
  | .ldfeC o => Sys2Proof.Machine.execLdfeC o s
  | .atomAdd o => Sys2Proof.Machine.execAtomAdd o s
  | .atomAnd o => Sys2Proof.Machine.execAtomAnd o s
  | .atomOr o => Sys2Proof.Machine.execAtomOr o s
  | .atomXor o => Sys2Proof.Machine.execAtomXor o s
  | .atomMin o => Sys2Proof.Machine.execAtomMin o s
  | .atomMax o => Sys2Proof.Machine.execAtomMax o s
  | .atomMinn o => Sys2Proof.Machine.execAtomMinn o s
  | .atomMaxn o => Sys2Proof.Machine.execAtomMaxn o s
  | .atomSwap o => Sys2Proof.Machine.execAtomSwap o s
  | .atomCas o c => Sys2Proof.Machine.execAtomCas o c s
  | .atomFadd o => Sys2Proof.Machine.execAtomFadd o s
  | .vatom o => Sys2Proof.Machine.execVatom o s
  | .fenceAcq sv => Sys2Proof.Machine.execFenceAcq sv s
  | .fenceRel sv => Sys2Proof.Machine.execFenceRel sv s
  | .fenceAr sv => Sys2Proof.Machine.execFenceAr sv s
  | .waitc c n => Sys2Proof.Machine.execWaitc c n s
  | .barInit x a b c => Sys2Proof.Machine.execBarInit x a b c s
  | .barArr d a => Sys2Proof.Machine.execBarArr d a s
  | .barArrx d a => Sys2Proof.Machine.execBarArrx d a s
  | .barWait a p => Sys2Proof.Machine.execBarWait a p s
  | .barExpb a b => Sys2Proof.Machine.execBarExpb a b s
  | .capEnter a sz e => Sys2Proof.Machine.execCapEnter a sz e s
  | .qpush a b => Sys2Proof.Machine.execQpush a b s
  | .qpop d a => Sys2Proof.Machine.execQpop d a s
  | .tqget d q => Sys2Proof.Machine.execTqget d q s
  | .tqadd q a b => Sys2Proof.Machine.execTqadd q a b s
  | .tqfill d q a b c => Sys2Proof.Machine.execTqfill d q a b c s
  | .pfL1 a off => Sys2Proof.Machine.execPfL1 a off s
  | .pfL2 a off => Sys2Proof.Machine.execPfL2 a off s
  | .cwb a off => Sys2Proof.Machine.execCwb a off s
  | .cinv a off => Sys2Proof.Machine.execCinv a off s
  | .mxls a c => Sys2Proof.Machine.execMxls a c s
  | .mxloop o => Sys2Proof.Machine.execMxloop o s
  | .mxloopG o => Sys2Proof.Machine.execMxloopG o s
  | .mxloopE o => Sys2Proof.Machine.execMxloopE o s
  | .mxacc o => Sys2Proof.Machine.execMxacc o s
  | .mmaAny o => Sys2Proof.Machine.execMmaAny o s
  | .mmaArray o => Sys2Proof.Machine.execMmaArray o s
  | .mmaLanes o => Sys2Proof.Machine.execMmaLanes o s
  | .engCpy a b => Sys2Proof.Machine.execEngCpy a b s
  | .engGath a b => Sys2Proof.Machine.execEngGath a b s
  | .engSortc a b => Sys2Proof.Machine.execEngSortc a b s
  | .engColl a b => Sys2Proof.Machine.execEngColl a b s
  | .annexHintClr a b => Sys2Proof.Machine.execAnnexHintClr a b s
  | .annexHintPin a b deg => Sys2Proof.Machine.execAnnexHintPin a b deg s
  | .annexHintFloor a b deg => Sys2Proof.Machine.execAnnexHintFloor a b deg s
  | .annexHintCeil a b deg => Sys2Proof.Machine.execAnnexHintCeil a b deg s
  | .rateGetB d => Sys2Proof.Machine.execRateGetB d s
  | .rateGetE d => Sys2Proof.Machine.execRateGetE d s
  | .rateSet a => Sys2Proof.Machine.execRateSet a s
  | .gets d sel => Sys2Proof.Machine.execGets d sel s
  | .sets sel a => Sys2Proof.Machine.execSets sel a s
  | .trap code => Sys2Proof.Machine.execTrap code s
  | .sysc code => Sys2Proof.Machine.execSysc code s
  | .bkpt code => Sys2Proof.Machine.execBkpt code s
  | .rft a => Sys2Proof.Machine.execRft a s
  | .resume a => Sys2Proof.Machine.execResume a s
  | .tlbinv a b c => Sys2Proof.Machine.execTlbinv a b c s
  | .tlbinvAll a => Sys2Proof.Machine.execTlbinvAll a s
  | .ctxsv a b => Sys2Proof.Machine.execCtxsv a b s
  | .ctxld a b => Sys2Proof.Machine.execCtxld a b s
  | .park a => Sys2Proof.Machine.execPark a s
  | .unpark a => Sys2Proof.Machine.execUnpark a s
  | .nop c => Sys2Proof.Machine.execNop c s
  | .launch c r => Sys2Proof.Machine.execLaunch c r s
  | .graphRun c store => Sys2Proof.Machine.execGraphRun c store s
  | .graphEditLoad c store addr => Sys2Proof.Machine.execGraphEditLoad c store addr s
  | .graphEditSetnode c store node addr => Sys2Proof.Machine.execGraphEditSetnode c store node addr s
  | .graphEditDrop c store => Sys2Proof.Machine.execGraphEditDrop c store s
  | .copy c desc => Sys2Proof.Machine.execCopy c desc s
  | .signal c addr v => Sys2Proof.Machine.execSignal c addr v s
  | .wait c addr v => Sys2Proof.Machine.execWait c addr v s
  | .phaseBegin c => Sys2Proof.Machine.execPhaseBegin c s
  | .phaseEnd c handle => Sys2Proof.Machine.execPhaseEnd c handle s
  | .jobBegin c => Sys2Proof.Machine.execJobBegin c s
  | .jobEnd c handle => Sys2Proof.Machine.execJobEnd c handle s
  | .cancel c handle level => Sys2Proof.Machine.execCancel c handle level s
  | .subscribe c r => Sys2Proof.Machine.execSubscribe c r s
  | .subscribeRemove c id => Sys2Proof.Machine.execSubscribeRemove c id s
  | .rateWrite c v => Sys2Proof.Machine.execRateWrite c v s
  | .resync c addr => Sys2Proof.Machine.execResync c addr s
  | .syscReply c token vals => Sys2Proof.Machine.execSyscReply c token vals s
  | .ctrlRun c r => Sys2Proof.Machine.execCtrlRun c r s
  | .tlbinvCommand c asid all start len => Sys2Proof.Machine.execTlbinvCommand c asid all start len s
  | .registerFill t => Sys2Proof.Machine.execRegisterFill t s
  | .serviceTeamRequest cluster => Sys2Proof.Machine.execServiceTeamRequest cluster s
  | .capsuleParkedWrite t => Sys2Proof.Machine.execCapsuleParkedWrite t s
  | .capsuleRunWrite t => Sys2Proof.Machine.execCapsuleRunWrite t s
  | .engineByteCount op => Sys2Proof.Machine.execEngineByteCount op s
  | .crossNotice obj => Sys2Proof.Machine.execCrossNotice obj s
  | .engineRetire op => Sys2Proof.Machine.execEngineRetire op s
  | .leaveGrant die => Sys2Proof.Machine.execLeaveGrant die s
  | .teamEnd t => Sys2Proof.Machine.execTeamEnd t s
  | .preemption part => Sys2Proof.Machine.execPreemption part s
  | .preemptionRestore die core => Sys2Proof.Machine.execPreemptionRestore die core s
  | .quantumEnd launch => Sys2Proof.Machine.execQuantumEnd launch s
  | .orderedLaunchStalled launch => Sys2Proof.Machine.execOrderedLaunchStalled launch s
  | .islandWakeRound die => Sys2Proof.Machine.execIslandWakeRound die s
  | .attestationReportDone part => Sys2Proof.Machine.execAttestationReportDone part s
  | .clusterPowerStateReached cl => Sys2Proof.Machine.execClusterPowerStateReached cl s
  | .dieHalted die => Sys2Proof.Machine.execDieHalted die s
  | .commandAfterRelease part q => Sys2Proof.Machine.execCommandAfterRelease part q s
  | .unassignedEncoding first => Sys2Proof.Machine.execUnassignedEncoding first s
  | .engineWriteLanded op => Sys2Proof.Machine.execEngineWriteLanded op s
  | .storePerformed die core line => Sys2Proof.Machine.execStorePerformed die core line s
  | .waitConditionMet part q => Sys2Proof.Machine.execWaitConditionMet part q s
  | .functionLevelResetDone part => Sys2Proof.Machine.execFunctionLevelResetDone part s
  | .enginePause op => Sys2Proof.Machine.execEnginePause op s
  | .teamBoost t => Sys2Proof.Machine.execTeamBoost t s
  | .granuleWaitTimeout t => Sys2Proof.Machine.execGranuleWaitTimeout t s
  | .waitWatchdog t => Sys2Proof.Machine.execWaitWatchdog t s
  | .reportSpanEnd n => Sys2Proof.Machine.execReportSpanEnd n s
  | .backgroundWriteBack die core line => Sys2Proof.Machine.execBackgroundWriteBack die core line s
  | .softError e => Sys2Proof.Machine.execSoftError e s
  | .scrub die => Sys2Proof.Machine.execScrub die s
  | .surchargeUpdate die iavg => Sys2Proof.Machine.execSurchargeUpdate die iavg s
  | .parkingRotation die => Sys2Proof.Machine.execParkingRotation die s
  | .islandPowerDown die core island => Sys2Proof.Machine.execIslandPowerDown die core island s
  | .operatingPointChange die core island point => Sys2Proof.Machine.execOperatingPointChange die core island point s
  | .annexWindowEnd first last => Sys2Proof.Machine.execAnnexWindowEnd first last s
  | .subscriptionEvaluation part id die value => Sys2Proof.Machine.execSubscriptionEvaluation part id die value s
  | .linkStepUp l => Sys2Proof.Machine.execLinkStepUp l s
  | .linkStepDown l => Sys2Proof.Machine.execLinkStepDown l s
  | .retrainingWindowEnd l locked => Sys2Proof.Machine.execRetrainingWindowEnd l locked s
  | .peerRequest link tag r => Sys2Proof.Machine.execPeerRequest link tag r s
  | .responseWatchdog memory die => Sys2Proof.Machine.execResponseWatchdog memory die s
  | .hardBreach die => Sys2Proof.Machine.execHardBreach die s
  | .regulatorTrip die => Sys2Proof.Machine.execRegulatorTrip die s
  | .thermalWarn die temp => Sys2Proof.Machine.execThermalWarn die temp s
  | .thermalTrip die temp => Sys2Proof.Machine.execThermalTrip die temp s
  | .thermalTripClear die temp => Sys2Proof.Machine.execThermalTripClear die temp s
  | .powerOnReset live flash => Sys2Proof.Machine.execPowerOnReset live flash s
  | .recoveryDone addr => Sys2Proof.Machine.execRecoveryDone addr s
  | .hostLinkUp m => Sys2Proof.Machine.execHostLinkUp m s
  | .functionLevelReset part => Sys2Proof.Machine.execFunctionLevelReset part s
  | .qtailWrite part q v => Sys2Proof.Machine.execQtailWrite part q v s
  | .qcfgWrite part q v => Sys2Proof.Machine.execQcfgWrite part q v s
  | .sccfgWrite part v => Sys2Proof.Machine.execSccfgWrite part v s
  | .scheadWrite part v => Sys2Proof.Machine.execScheadWrite part v s
  | .attctlGo part v => Sys2Proof.Machine.execAttctlGo part v s
  | .cpwrQuiesce part cl => Sys2Proof.Machine.execCpwrQuiesce part cl s
  | .cpwrSave part cl => Sys2Proof.Machine.execCpwrSave part cl s
  | .cpwrGate part cl => Sys2Proof.Machine.execCpwrGate part cl s
  | .cpwrRun part cl => Sys2Proof.Machine.execCpwrRun part cl s
  | .rcvrGo v => Sys2Proof.Machine.execRcvrGo v s
  | .flrtrTrain links => Sys2Proof.Machine.execFlrtrTrain links s
  | .diehaltSet die => Sys2Proof.Machine.execDiehaltSet die s
  | .diehaltClear die => Sys2Proof.Machine.execDiehaltClear die s
  | .dbgHaltWrite part on => Sys2Proof.Machine.execDbgHaltWrite part on s
  | .dbgAttachWrite part on => Sys2Proof.Machine.execDbgAttachWrite part on s
  | .partitionEnable part en => Sys2Proof.Machine.execPartitionEnable part en s
  | .registerWrite fn off v => Sys2Proof.Machine.execRegisterWrite fn off v s
  | .cxlCacheSnoop line => Sys2Proof.Machine.execCxlCacheSnoop line s
  | .ret => Sys2Proof.Machine.execRet s
  | .join => Sys2Proof.Machine.execJoin s
  | .exit => Sys2Proof.Machine.execExit s
  | .yield => Sys2Proof.Machine.execYield s
  | .capCommit => Sys2Proof.Machine.execCapCommit s
  | .capExit => Sys2Proof.Machine.execCapExit s
  | .capAbort => Sys2Proof.Machine.execCapAbort s
  | .mxswap => Sys2Proof.Machine.execMxswap s
  | .rateClr => Sys2Proof.Machine.execRateClr s
  | .lineFetch => Sys2Proof.Machine.execLineFetch s
  | .rateBroadcast => Sys2Proof.Machine.execRateBroadcast s
  | .thermalShutdown => Sys2Proof.Machine.execThermalShutdown s

end Sys2Proof.Machine
end

