-- ==== Sys2Proof/Machine/Step.lean ====
section
/-! DEFINITION. One step of the package: what arrives from outside, an instruction of a team, or work of the package's own
units. -/

namespace Sys2Proof.Machine

/-- Work of the command processor and of the package's own units. -/
def stepUnits (s : State) : Option (Host.Outcome State Fault Refusal) :=
  match takeCommand s with
  | some (some i, s1) => some (exec i s1)
  | some (none, s1) => some (.next s1)
  | none => ownStep s <|> (nextEvent s).map fun i => exec i s

/-- What takes its time comes about. -/
def stepLate (s : State) : Option (Host.Outcome State Fault Refusal) := (lateEvent s).map fun i => exec i s

/-- Without anything from outside: the teams and the units have the first turn alternately; results and stores on their way
arrive when nothing else can go on, and at every eighth turn; and time passes. -/
def stepInside (s : State) : Host.Outcome State Fault Refusal :=
  let s1 : State := { mapTeams s (countReady s) with ctlTurn := s.ctlTurn + 1 }
  (if timeTurn s && s.booted then some (.next (readTime s1))
    else if s.ctlTurn % 2 = 0 then tryTeams exec s1 (candidates s1) <|> stepUnits s1 <|> stepLate s1
    else if s.ctlTurn % 8 = 7 then stepLate s1 <|> stepUnits s1 <|> tryTeams exec s1 (candidates s1)
    else stepUnits s1 <|> tryTeams exec s1 (candidates s1) <|> stepLate s1).getD (.next s1)

/-- What stands first in the inbox arrives. -/
def stepInbox (e : Instr) (s : State) : Host.Outcome State Fault Refusal :=
  if external e then exec e s else .next s

/-- One step. Which of the package's parts goes next is the model's choice: DESIGN CHOICE, log 2. -/
def step (s : State) : Host.Outcome State Fault Refusal :=
  match s.inbox with
  | e :: rest =>
    if !s.powered then stepPowerOff e { s with inbox := rest }
    else stepInbox e { s with inbox := rest }
  | [] => if s.powered then stepInside s else .fault .poweredOff
where
  /-- While the dies are powered off only a power-on reset acts (R455). -/
  stepPowerOff (e : Instr) (s : State) : Host.Outcome State Fault Refusal :=
    match e with
    | .powerOnReset live flash => exec (.powerOnReset live flash) s
    | _ => .next s

/-- `s` with one team whose next instruction is the one with the given bits: its line, the pages that map it and the team
that fetches it (Placing.lean builds them). It stands for a launch by the host: DESIGN CHOICE, log 4. -/
def State.withFetchWord (s : State) (nbits w : Nat) : State := placeWord s nbits w

end Sys2Proof.Machine
end

