-- ==== Sys2Proof/Safety.lean ====
section
/-! DEFINITION. The terms that claims use: what a safe run is, when an instruction of the current team issues, and the state
in which it has retired. -/

namespace Sys2Proof

open Sys2Proof.Machine

/-- One step answers a next state. -/
def StepsOn (s : State) : Prop := ∃ t, step s = .next t

/-- Every state that k steps reach steps on. -/
def SafeFor : Nat → State → Prop
  | 0, _ => True
  | k + 1, s => ∃ t, step s = .next t ∧ SafeFor k t

/-- Instruction `i` of the current team has asked for nothing yet in `s`, `s1` is the state in which the results that it waits
for have arrived (R54-R56), and there it passes the checks at its issue (R410 steps 1 to 4, R294). -/
structure Issues (i : Instr) (s s1 : State) : Prop where
  /-- It waits for no reply. -/
  fresh : s.team.asked = false
  /-- Every register that it waits for is full, or its result arrives. -/
  waits : awaitAll s (waitsFor i.uses) = some s1
  /-- Nothing has answered it. -/
  idle : s1.team.asked = false ∧ s1.team.reply = none
  /-- It breaks no rule of a capsule body. -/
  body : bodyBreach i s1 = false
  /-- It is no illegal use. -/
  use : preUse i s1 = none
  /-- No source with W = 0 is empty. -/
  source : emptySource i.uses s1.team = none
  /-- It reads no poisoned register. -/
  poison : i.uses.reads.any (destPoisoned s1.team) = false

/-- It issues, and none of the team's registers is poisoned then. -/
structure Runs (i : Instr) (s s1 : State) : Prop extends Issues i s s1 where
  cleanS : s1.team.sPoison = 0
  cleanV : s1.team.vPoison = 0

/-- It runs, and it is not the last instruction of an open loop: what it does is its own effect, and then the PC moves on. -/
structure Goes (i : Instr) (s s1 : State) : Prop extends Runs i s s1 where
  inner : ∀ e ∈ s1.team.lstk.head?, e.stop ≠ s.team.pc

/-- The current team has retired its instruction and is ready at `to`: PIX is 0 (R66), what a stop, a pair or a wait had noted
is gone, a capsule body counts one more instruction (R294), and an ordered team's QNT rises, closing its quantum when it
reaches the launch's length (R368). -/
def goesOn (s : State) (tgt : Word) : State :=
  let t := s.team
  { s with team :=
    { t with pc := tgt, pix := 0, status := .ready, useCmode := false, pairShadow := none, inPair := false,
             waitReported := false, request := none, reply := none, asked := false, op := none, spent := [],
             chosen := none, granted := false, arrival := none,
             capCount := if inBody t then t.capCount + 1 else t.capCount,
             qnt := if ordered t then t.qnt + 1 else t.qnt,
             closed := t.closed || (ordered t && decide (quantumOf s t ≤ t.qnt + 1)) } }

/-- The current team waits at its instruction. -/
def waitsAt (s : State) (w : WaitOn) : State :=
  { s with team := { s.team with status := .waiting w, closed := s.team.closed || isBlocking w, granted := false } }

/-- The current team with a change. -/
def withTeam (s : State) (f : Team → Team) : State := { s with team := f s.team }

end Sys2Proof
end

