-- ==== Sys2Proof/Certificates/Slice0/Obligations.lean ====
section
/-! DEFINITION. What is claimed of the model: the statements for the provers, each with the rules of spec/ that it rests on.
The terms they share come first. -/

namespace Sys2Proof

open Sys2Proof.Machine

/-! ### Terms of the statements

A claim about what an instruction does is about every state `s` in which it issues: `Goes i s s1` (Safety.lean) says that it
passes the checks of R410, and `s1` is `s` with the results that it waits for delivered. `nextPc i s` is the address after
its last parcel. -/

/-- The instruction writes scalar register `d` with a value of the state in which it runs, and the PC moves on; everything
else is as it was. Writing s0 writes nothing (`RegisterFiles`). -/
def ScalarIs (i : Instr) (d : SReg) (v : State → Word) : Prop :=
  ∀ s s1, Goes i s s1 → exec i s = .next (goesOn (withTeam s1 fun t => sset t d (v s1)) (nextPc i s))

/-- d := f(s[a], s[b]), whatever registers d, a and b are. -/
def Scalar2Is (c : SReg → SSrc → SSrc → Instr) (f : Word → Word → Word) : Prop :=
  ∀ d a b, ScalarIs (c d a b) d fun s => f (sget s.team a.r) (sget s.team b.r)

/-- d := f(s[a]). -/
def Scalar1Is (c : SReg → SSrc → Instr) (f : Word → Word) : Prop :=
  ∀ d a, ScalarIs (c d a) d fun s => f (sget s.team a.r)

/-- The instruction changes the team alone, by `f`, and the PC moves on. -/
def TeamIs (i : Instr) (f : State → Team → Team) : Prop :=
  ∀ s s1, Goes i s s1 → exec i s = .next (goesOn (withTeam s1 (f s1)) (nextPc i s))

/-- f(x, y) of R187, before it is wrapped to 64 bits: exact sums, products and quotients of integers. -/
def saluValue (fn : SaluFn) (x y : Word) : Word :=
  match fn with
  | .add => BitVec.ofInt 64 (x.toInt + y.toInt)
  | .sub => BitVec.ofInt 64 (x.toInt - y.toInt)
  | .and => x &&& y
  | .or => x ||| y
  | .xor => x ^^^ y
  | .andn => x &&& ~~~y
  | .shl => BitVec.ofNat 64 (x.toNat * 2 ^ (y.toNat % 64))
  | .shrl => BitVec.ofNat 64 (x.toNat / 2 ^ (y.toNat % 64))
  | .shra => BitVec.ofInt 64 (x.toInt / 2 ^ (y.toNat % 64))
  | .mul => BitVec.ofInt 64 (x.toInt * y.toInt)
  | .mulh => BitVec.ofInt 64 (x.toInt * y.toInt / 2 ^ 64)
  | .mulhn => BitVec.ofNat 64 (x.toNat * y.toNat / 2 ^ 64)
  | .min => BitVec.ofInt 64 (min x.toInt y.toInt)
  | .max => BitVec.ofInt 64 (max x.toInt y.toInt)
  | .minn => BitVec.ofNat 64 (min x.toNat y.toNat)
  | .maxn => BitVec.ofNat 64 (max x.toNat y.toNat)

/-- CC with the four flags of a comparison of x with y; L, A and F are kept. -/
def comparedFlags (x y : Word) (cc : BitVec 7) : BitVec 7 :=
  (cc &&& 0x70) ||| (if x - y = 0 then 1 else 0) ||| (if (x - y).msb then 2 else 0) |||
    (if y.toNat ≤ x.toNat then 4 else 0) |||
    (if x.toInt - y.toInt < -(2 ^ 63) ∨ 2 ^ 63 - 1 < x.toInt - y.toInt then 8 else 0)

/-- The instructions of spec/09 that write no flag: all but CMP, CMPI and SPAWN. -/
def leavesFlags : Instr → Bool
  | .saluAdd _ _ _ | .saluSub _ _ _ | .saluAnd _ _ _ | .saluOr _ _ _ | .saluXor _ _ _ | .saluAndn _ _ _
  | .saluShl _ _ _ | .saluShrl _ _ _ | .saluShra _ _ _ | .saluMul _ _ _ | .saluMulh _ _ _ | .saluMulhn _ _ _
  | .saluMin _ _ _ | .saluMax _ _ _ | .saluMinn _ _ _ | .saluMaxn _ _ _ | .salul _ _ _ _ | .addi _ _ _ | .andi _ _ _
  | .ori _ _ _ | .xori _ _ _ | .shiShl _ _ _ | .shiShrl _ _ _ | .shiShra _ _ _ | .sbitPopc _ _ | .sbitClz _ _
  | .sbitCtz _ _ | .sbitBrev _ _ | .sbitSextb _ _ | .sbitSexth _ _ | .sbitSextw _ _ | .sbitZextb _ _ | .sbitZexth _ _
  | .sbitZextw _ _ | .bfx _ _ _ _ _ | .bfi _ _ _ _ _ | .lea _ _ _ | .lit _ _ _ | .lith _ _ | .bc _ _ | .bmz _ _
  | .bmnz _ _ | .call _ | .jr _ | .callr _ | .ret | .loop _ _ | .loopi _ _ | .mark _ _ | .divElse _ | .join | .exit
  | .yield => true
  | _ => false

/-- The scalar register that an instruction of spec/09, a mask read or a special-register read writes, and nothing else. -/
def scalarDest : Instr → Option SReg
  | .saluAdd d _ _ | .saluSub d _ _ | .saluAnd d _ _ | .saluOr d _ _ | .saluXor d _ _ | .saluAndn d _ _
  | .saluShl d _ _ | .saluShrl d _ _ | .saluShra d _ _ | .saluMul d _ _ | .saluMulh d _ _ | .saluMulhn d _ _
  | .saluMin d _ _ | .saluMax d _ _ | .saluMinn d _ _ | .saluMaxn d _ _ | .salul _ d _ _ | .addi d _ _ | .andi d _ _
  | .ori d _ _ | .xori d _ _ | .shiShl d _ _ | .shiShrl d _ _ | .shiShra d _ _ | .sbitPopc d _ | .sbitClz d _
  | .sbitCtz d _ | .sbitBrev d _ | .sbitSextb d _ | .sbitSexth d _ | .sbitSextw d _ | .sbitZextb d _ | .sbitZexth d _
  | .sbitZextw d _ | .bfx _ d _ _ _ | .bfi d _ _ _ _ | .lea d _ _ | .lit _ d _ | .lith d _ | .kmovToScalar d _ _
  | .kmovSum d _ | .kpop d _ => some d
  | _ => none

end Sys2Proof

open Sys2Proof Sys2Proof.Machine

/-! ### Scalar arithmetic and logic -/

/-- SALU writes f(x, y) wrapped to 64 bits, for each of its sixteen functions (spec/09 R187): shifts take the low six bits of
y, and MIN to MAXN compare as signed or as natural numbers. -/
def Sys2Proof.SaluWritesItsFunction : Prop :=
  Scalar2Is .saluAdd (saluValue .add) ∧ Scalar2Is .saluSub (saluValue .sub) ∧ Scalar2Is .saluAnd (saluValue .and) ∧
  Scalar2Is .saluOr (saluValue .or) ∧ Scalar2Is .saluXor (saluValue .xor) ∧ Scalar2Is .saluAndn (saluValue .andn) ∧
  Scalar2Is .saluShl (saluValue .shl) ∧ Scalar2Is .saluShrl (saluValue .shrl) ∧ Scalar2Is .saluShra (saluValue .shra) ∧
  Scalar2Is .saluMul (saluValue .mul) ∧ Scalar2Is .saluMulh (saluValue .mulh) ∧ Scalar2Is .saluMulhn (saluValue .mulhn) ∧
  Scalar2Is .saluMin (saluValue .min) ∧ Scalar2Is .saluMax (saluValue .max) ∧ Scalar2Is .saluMinn (saluValue .minn) ∧
  Scalar2Is .saluMaxn (saluValue .maxn)

/-- SALUL is SALU with y the sign-extended literal (R188), ADDI, ANDI, ORI and XORI take a sign-extended 11-bit immediate
(R189), and SHI shifts by n (R190). -/
def Sys2Proof.ImmediateFormsWriteTheirFunction : Prop :=
  (∀ fn l, Scalar1Is (.salul fn · · l) fun x => saluValue fn x (l.signExtend 64)) ∧
  (∀ imm, Scalar1Is (.addi · · imm) fun x => saluValue .add x (imm.signExtend 64)) ∧
  (∀ imm, Scalar1Is (.andi · · imm) fun x => x &&& imm.signExtend 64) ∧
  (∀ imm, Scalar1Is (.ori · · imm) fun x => x ||| imm.signExtend 64) ∧
  (∀ imm, Scalar1Is (.xori · · imm) fun x => x ^^^ imm.signExtend 64) ∧
  (∀ n, Scalar1Is (.shiShl · · n) fun x => BitVec.ofNat 64 (x.toNat * 2 ^ n.toNat)) ∧
  (∀ n, Scalar1Is (.shiShrl · · n) fun x => BitVec.ofNat 64 (x.toNat / 2 ^ n.toNat)) ∧
  (∀ n, Scalar1Is (.shiShra · · n) fun x => BitVec.ofInt 64 (x.toInt / 2 ^ n.toNat))

/-- CMP and CMPI set Z, N, C and V from x − y and leave L, A and F (R191). -/
def Sys2Proof.ComparisonsSetFourFlags : Prop :=
  (∀ a b, TeamIs (.cmp a b) fun s t => { t with cc := comparedFlags (sget s.team a.r) (sget s.team b.r) t.cc }) ∧
  (∀ a imm, TeamIs (.cmpi a imm) fun s t => { t with cc := comparedFlags (sget s.team a.r) (imm.signExtend 64) t.cc })

/-- Scalar arithmetic: SALU with registers or a literal, the immediate forms and the shifts write their function of the operands
and change nothing else; CMP and CMPI set four flags and change nothing else (R187-R191). -/
def Obligations.ScalarArithmeticWritesItsResult : Prop := SaluWritesItsFunction ∧ ImmediateFormsWriteTheirFunction ∧ ComparisonsSetFourFlags

/-- SBIT counts bits, reverses them, and extends fields (R192): POPC by counting, CLZ and CTZ by the highest and the lowest
set bit, and 64 where there is none. -/
def Sys2Proof.BitFunctionsWriteTheirValue : Prop :=
  Scalar1Is .sbitPopc (fun x => BitVec.ofNat 64 ((List.range 64).countP fun i => x.getLsbD i)) ∧
  Scalar1Is .sbitClz (fun x => BitVec.ofNat 64 (((List.range 64).find? fun i => x.getLsbD (63 - i)).getD 64)) ∧
  Scalar1Is .sbitCtz (fun x => BitVec.ofNat 64 (((List.range 64).find? fun i => x.getLsbD i).getD 64)) ∧
  Scalar1Is .sbitBrev (fun x => x.reverse) ∧
  Scalar1Is .sbitSextb (fun x => (x.setWidth 8).signExtend 64) ∧
  Scalar1Is .sbitSexth (fun x => (x.setWidth 16).signExtend 64) ∧
  Scalar1Is .sbitSextw (fun x => (x.setWidth 32).signExtend 64) ∧
  Scalar1Is .sbitZextb (fun x => x &&& 0xFF) ∧
  Scalar1Is .sbitZexth (fun x => x &&& 0xFFFF) ∧
  Scalar1Is .sbitZextw (fun x => x &&& 0xFFFFFFFF)

/-- BFX extracts a field of n bits from lo, sign-extended with .S, and BFI puts one in place (R193): bit j of what they write,
for lo + n ≤ 64. LIT writes its literal extended, and LITH the upper half of its own destination (R195). -/
def Sys2Proof.FieldsAndLiteralsWriteTheirValue : Prop :=
  (∀ sx d a lo nm1, lo.toNat + nm1.toNat + 1 ≤ 64 → ∀ s s1, Goes (.bfx sx d a lo nm1) s s1 →
    ∃ v : Word, exec (.bfx sx d a lo nm1) s = .next (goesOn (withTeam s1 fun t => sset t d v) (nextPc (.bfx sx d a lo nm1) s)) ∧
      ∀ j < 64, v.getLsbD j = (if j ≤ nm1.toNat then (sget s1.team a.r).getLsbD (lo.toNat + j)
        else sx && (sget s1.team a.r).getLsbD (lo.toNat + nm1.toNat))) ∧
  (∀ d a b lo nm1, lo.toNat + nm1.toNat + 1 ≤ 64 → ∀ s s1, Goes (.bfi d a b lo nm1) s s1 →
    ∃ v : Word, exec (.bfi d a b lo nm1) s = .next (goesOn (withTeam s1 fun t => sset t d v) (nextPc (.bfi d a b lo nm1) s)) ∧
      ∀ j < 64, v.getLsbD j = (if lo.toNat ≤ j ∧ j ≤ lo.toNat + nm1.toNat then (sget s1.team a.r).getLsbD (j - lo.toNat)
        else (sget s1.team b.r).getLsbD j)) ∧
  (∀ d v, ScalarIs (.lit true d v) d fun _ => v.signExtend 64) ∧
  (∀ d v, ScalarIs (.lit false d v) d fun _ => v.setWidth 64) ∧
  (∀ d v, ScalarIs (.lith d v) d fun s => BitVec.ofNat 64 (v.toNat * 2 ^ 32 + (sget s.team d).toNat % 2 ^ 32))

/-- LEA turns a local-window address that decodes to a byte of the block's allocation into that byte's scratch-aperture
address; every other address passes through (R194). -/
def Sys2Proof.LeaNamesTheSameByte : Prop :=
  (∀ d a b s s1 loc, Goes (.lea d a b) s s1 →
    localBase ≤ (sget s1.team a.r + sget s1.team b.r).toNat →
    (sget s1.team a.r + sget s1.team b.r).toNat < localBase + 2 ^ 21 →
    decodeWindow s1 s1.team.who (sget s1.team a.r + sget s1.team b.r).toNat 1 .rd = some (.ok loc) →
    exec (.lea d a b) s = .next (goesOn (withTeam s1 fun t => sset t d (BitVec.ofNat 64 (apertureBase + (loc - locBase 4))))
      (nextPc (.lea d a b) s))) ∧
  (∀ d a b s s1, Goes (.lea d a b) s s1 →
    (localBase ≤ (sget s1.team a.r + sget s1.team b.r).toNat →
      (sget s1.team a.r + sget s1.team b.r).toNat < localBase + 2 ^ 21 →
      decodeWindow s1 s1.team.who (sget s1.team a.r + sget s1.team b.r).toNat 1 .rd = some (.error 0x12)) →
    exec (.lea d a b) s = .next (goesOn (withTeam s1 fun t => sset t d (sget s1.team a.r + sget s1.team b.r))
      (nextPc (.lea d a b) s)))

/-- SBIT, BFX, BFI, LIT, LITH and LEA write their value and change nothing else (R192-R195). -/
def Obligations.BitsFieldsAndAddressesWriteTheirValue : Prop := BitFunctionsWriteTheirValue ∧ FieldsAndLiteralsWriteTheirValue ∧ LeaNamesTheSameByte

/-- Of the instructions of spec/09 only CMP, CMPI and SPAWN write CC: whatever comes of any other, its own effect, a wait or a
stop, the seven flags are as they were; and each of the three does write CC in some state (R185). -/
def Obligations.OnlyComparisonsAndSpawnWriteFlags : Prop :=
  (∀ i s t, leavesFlags i = true → exec i s = .next t → t.team.cc = s.team.cc) ∧
  (∃ a b s t, exec (.cmp a b) s = .next t ∧ t.team.cc ≠ s.team.cc) ∧
  (∃ a imm s t, exec (.cmpi a imm) s = .next t ∧ t.team.cc ≠ s.team.cc) ∧
  (∃ d a disp s t, exec (.spawn d a disp) s = .next t ∧ t.team.cc ≠ s.team.cc)

/-- The frame of the instructions that write one scalar register: every other register of the team, its masks, its flags and
special registers, every other team, and every byte of memory are unchanged (R184, R185, R237, R238). -/
def Obligations.ScalarWritersKeepTheRest : Prop :=
  ∀ i d s s1 t, scalarDest i = some d → Goes i s s1 → exec i s = .next t →
    (∀ r, r ≠ d → sget t.team r = sget s1.team r) ∧ (∀ l r, vget t.team l r = vget s1.team l r) ∧
    (∀ k, kget t.team k = kget s1.team k) ∧ t.team.em = s1.team.em ∧ t.team.cc = s1.team.cc ∧ t.team.mode = s1.team.mode ∧
    t.team.rateo = s1.team.rateo ∧ t.team.fcont = s1.team.fcont ∧ t.team.fframe = s1.team.fframe ∧
    t.team.dstk = s1.team.dstk ∧ t.team.lstk = s1.team.lstk ∧ t.team.setAsides = s1.team.setAsides ∧
    t.others = s1.others ∧ t.cores = s1.cores ∧ t.full = s1.full ∧ (∀ a, memByte t a = memByte s1 a)

/-! ### Control -/

namespace Sys2Proof

/-- The condition of BC on the flags (the table of R177): bit 0 Z, 1 N, 2 C, 3 V, 4 L, 5 A, 6 F. -/
def condTrue (c : Cond) (cc : BitVec 7) : Bool :=
  match c with
  | .al => true
  | .eq => cc.getLsbD 0
  | .ne => !cc.getLsbD 0
  | .lt => cc.getLsbD 1 != cc.getLsbD 3
  | .ge => cc.getLsbD 1 == cc.getLsbD 3
  | .gt => !cc.getLsbD 0 && cc.getLsbD 1 == cc.getLsbD 3
  | .le => cc.getLsbD 0 || cc.getLsbD 1 != cc.getLsbD 3
  | .lo => !cc.getLsbD 2
  | .hs => cc.getLsbD 2
  | .hi => cc.getLsbD 2 && !cc.getLsbD 0
  | .ls => !cc.getLsbD 2 || cc.getLsbD 0
  | .vs => cc.getLsbD 3
  | .last => cc.getLsbD 4
  | .adpt => cc.getLsbD 5
  | .full => cc.getLsbD 6
  | .nfull => !cc.getLsbD 6

/-- The loop entries that a taken branch at `here` to `to` leaves: those that end at the branch, or that its target leaves,
go, the innermost first (R203). -/
def loopsLeft (here tgt : Word) (ls : List LoopEntry) : List LoopEntry :=
  ls.dropWhile fun e => e.stop == here || decide (tgt.toNat < e.start.toNat) || decide (e.stop.toNat < tgt.toNat)

/-- A branch: not taken it goes on; taken it goes to its target if that may be landed on, and else stops with the cause that
the target raises and the target as its address (R171, R416); the progress that a return restored stands (R397). -/
def BranchIs (i : Instr) (disp : BitVec 20) (taken : Team → Bool) : Prop :=
  (∀ s s1, Goes i s s1 → taken s1.team = false → exec i s = .next (goesOn s1 (nextPc i s))) ∧
  (∀ s s1, Runs i s s1 → taken s1.team = true → badTarget s s.team (s.team.pc + 4 * disp.signExtend 64) = none →
    exec i s = .next (goesOn (withTeam s1 fun t =>
      { t with lstk := loopsLeft s.team.pc (s.team.pc + 4 * disp.signExtend 64) t.lstk })
      (s.team.pc + 4 * disp.signExtend 64))) ∧
  (∀ s s1 c, Runs i s s1 → taken s1.team = true → badTarget s s.team (s.team.pc + 4 * disp.signExtend 64) = some c →
    exec i s = .next (stopAt s s { cause := c, pc := s.team.pc, faddr := s.team.pc + 4 * disp.signExtend 64,
                                   pix := pixKept s.team }))

/-- A transfer by another instruction, with a change of the team: to its target, or the stop that the target raises. -/
def TransferIs (i : Instr) (tgt : State → Word) (f : State → Team → Team) : Prop :=
  (∀ s s1, Goes i s s1 → badTarget s s.team (tgt s1) = none →
    exec i s = .next (goesOn (withTeam s1 (f s)) (tgt s1))) ∧
  (∀ s s1 c, Goes i s s1 → badTarget s s.team (tgt s1) = some c →
    exec i s = .next (stopAt s s { cause := c, pc := s.team.pc, faddr := tgt s1, pix := pixKept s.team }))

end Sys2Proof

/-- BC is taken by its condition (R197, R177), and BMZ and BMNZ by whether a lane is both in the mask and in EM (R198). -/
def Sys2Proof.BranchesFollowTheirCondition : Prop :=
  (∀ c disp, BranchIs (.bc c disp) disp fun t => condTrue c t.cc) ∧
  (∀ k disp, BranchIs (.bmz k disp) disp fun t => t.em &&& kget t k == 0) ∧
  (∀ k disp, BranchIs (.bmnz k disp) disp fun t => t.em &&& kget t k != 0)

/-- CALL and CALLR leave the address of the next instruction in s62; CALLR reads its target before it writes s62 (R199, R200);
JR and RET transfer to a register. -/
def Sys2Proof.CallsLinkAndTransfer : Prop :=
  (∀ disp, TransferIs (.call disp) (fun s => s.team.pc + 4 * disp.signExtend 64)
    fun s t => sset t 62 (nextPc (.call disp) s)) ∧
  (∀ a, TransferIs (.jr a) (fun s => sget s.team a.r) fun _ t => t) ∧
  (∀ a, TransferIs (.callr a) (fun s => sget s.team a.r) fun s t => sset t 62 (nextPc (.callr a) s)) ∧
  TransferIs .ret (fun s => sget s.team 62) fun _ t => t

/-- Branches, jumps, calls and returns: which are taken, where they go, what a call links, and the stop where the target may not
be landed on (R171, R177, R197-R200, R203). -/
def Obligations.TransfersGoToTheirTarget : Prop := BranchesFollowTheirCondition ∧ CallsLinkAndTransfer

namespace Sys2Proof

/-- A loop instruction with `n` repetitions to come: with none the body is passed over; else an entry is pushed, unless four
stand already, which is illegal use 0x001. -/
def LoopIs (i : Instr) (e : BitVec 15) (n : State → Nat) : Prop :=
  (∀ s s1, Goes i s s1 → n s1 = 0 →
    exec i s = .next (goesOn s1 (afterInstr s1 (s.team.pc + BitVec.ofNat 64 (4 * e.toNat))))) ∧
  (∀ s s1, Goes i s s1 → n s1 ≠ 0 → s1.team.lstk.length < 4 → e ≠ 0 →
    exec i s = .next (goesOn (withTeam s1 fun t =>
      { t with lstk := ⟨nextPc i s, s.team.pc + BitVec.ofNat 64 (4 * e.toNat), n s1⟩ :: t.lstk }) (nextPc i s))) ∧
  (∀ s s1, Goes i s s1 → n s1 ≠ 0 → 4 ≤ s1.team.lstk.length →
    exec i s = .next (stopAt s s1 { cause := 0x23, pc := s.team.pc, code := 1 }))

end Sys2Proof

/-- LOOP takes its count from a register and LOOPI from its literal (R201, R202). -/
def Sys2Proof.LoopsPushTheirEntry : Prop :=
  (∀ a e, LoopIs (.loop a e) e fun s => (sget s.team a.r).toNat) ∧
  (∀ count e, LoopIs (.loopi count e) e fun _ => count.toNat)

/-- Retirement at the end of loops, for the instructions that write one scalar register (R203): the innermost loop that ends
here counts down and goes back while its count is above 1; a loop on its last round is popped, and the next entry is tried
in the same step. -/
def Sys2Proof.LoopEndsCountDown : Prop :=
  ∀ i d s s1, scalarDest i = some d → Runs i s s1 → ∃ v,
    (∀ e rest, s1.team.lstk = e :: rest → e.stop = s.team.pc → 1 < e.count → badTarget s1 s1.team e.start = none →
      exec i s = .next (goesOn (withTeam s1 fun t => { sset t d v with lstk := { e with count := e.count - 1 } :: rest })
        e.start)) ∧
    (∀ e rest, s1.team.lstk = e :: rest → e.stop = s.team.pc → e.count ≤ 1 → (∀ x ∈ rest.head?, x.stop ≠ s.team.pc) →
      exec i s = .next (goesOn (withTeam s1 fun t => { sset t d v with lstk := rest }) (nextPc i s))) ∧
    (∀ e x rest, s1.team.lstk = e :: x :: rest → e.stop = s.team.pc → e.count ≤ 1 → x.stop = s.team.pc → 1 < x.count →
      badTarget s1 s1.team x.start = none →
      exec i s = .next (goesOn (withTeam s1 fun t => { sset t d v with lstk := { x with count := x.count - 1 } :: rest })
        x.start))

/-- LOOP and LOOPI push an entry or pass over the body; at the end of a loop the instructions that write one scalar register go
back or fall through (R201-R203). -/
def Obligations.LoopsPushAndCountDown : Prop := LoopsPushTheirEntry ∧ LoopEndsCountDown

/-- MARK, ELSE and JOIN move EM and the divergence stack; MARK and ELSE pass over an empty path (R206). -/
def Obligations.DivergenceMovesTheExecutionMask : Prop :=
  (∀ k disp s s1, Goes (.mark k disp) s s1 →
    (s1.team.em &&& kget s1.team k ≠ 0 →
      exec (.mark k disp) s = .next (goesOn (withTeam s1 fun t =>
        { t with em := t.em &&& kget t k,
                 dstk := ⟨s.team.pc + 4 * disp.signExtend 64, t.em, t.em &&& ~~~(kget t k)⟩ :: t.dstk })
        (nextPc (.mark k disp) s))) ∧
    (s1.team.em &&& kget s1.team k = 0 → badTarget s s.team (s.team.pc + 4 * disp.signExtend 64) = none →
      exec (.mark k disp) s = .next (goesOn (withTeam s1 fun t =>
        { t with em := 0, dstk := ⟨s.team.pc + 4 * disp.signExtend 64, t.em, t.em &&& ~~~(kget t k)⟩ :: t.dstk })
        (s.team.pc + 4 * disp.signExtend 64)))) ∧
  (∀ disp s s1 e rest, Goes (.divElse disp) s s1 → s1.team.dstk = e :: rest →
    (e.p ≠ 0 → exec (.divElse disp) s = .next (goesOn (withTeam s1 fun t =>
      { t with em := e.p, dstk := ⟨s.team.pc + 4 * disp.signExtend 64, e.s, 0⟩ :: rest }) (nextPc (.divElse disp) s))) ∧
    (e.p = 0 → badTarget s s.team (s.team.pc + 4 * disp.signExtend 64) = none →
      exec (.divElse disp) s = .next (goesOn (withTeam s1 fun t =>
        { t with em := 0, dstk := ⟨s.team.pc + 4 * disp.signExtend 64, e.s, 0⟩ :: rest })
        (s.team.pc + 4 * disp.signExtend 64)))) ∧
  (∀ s s1 e rest, Goes .join s s1 → s1.team.dstk = e :: rest →
    exec .join s = .next (goesOn (withTeam s1 fun t => { t with em := e.s, dstk := rest }) (nextPc .join s)))

namespace Sys2Proof

/-- What R209 gives a child of `parent` in context x, entered at `pc` with the eight registers from a. -/
structure ChildOf (s : State) (parent : Team) (x : Nat) (a : SReg) (pc : Word) (c : Team) : Prop where
  place : c.place = { parent.place with ctx := BitVec.ofNat 5 x }
  ready : c.status = .ready
  number : c.teamId = BitVec.ofNat 6 (32 + x)
  block : c.part = parent.part ∧ c.asid = parent.asid ∧ c.launch = parent.launch ∧ c.blk = parent.blk
  shape : c.lanes = parent.lanes ∧ c.vregCount = parent.vregCount ∧ c.stklim = parent.stklim
  pc : c.pc = pc
  mode : c.mode = modeSeen parent
  args : ∀ j < 8, sget c (BitVec.ofNat 6 (j + 1)) = sget parent (BitVec.ofNat 6 (a.toNat + j))
  scalars : ∀ r : SReg, 9 ≤ r.toNat → sget c r = 0
  vectors : ∀ l r, vget c l r = 0
  masks : ∀ k, kget c k = laneMask parent.lanes
  em : c.em = laneMask parent.lanes
  flags : c.cc = 0
  rateo : c.rateo = clampRate (partOf s parent.part) 0x10000
  noStacks : c.dstk = [] ∧ c.lstk = [] ∧ c.setAsides = []
  special : c.fcont = 0 ∧ c.fframe = 0 ∧ c.pix = 0 ∧ c.qnt = 0

end Sys2Proof

/-- SPAWN (R208, R209): in ordered mode, on a control core, or with no free context, lane-registers or quota, nothing is
created, d takes 0 and Z and F are set; else the child starts in the lowest free context, d takes 32 + x, and Z and F are clear.
Other flags are kept. It is a release at .core (R210): no request of the parent stands at a service team once the child is there,
and while one is held the SPAWN waits. That every team's requests are performed with it is the model's choice (log 11). -/
def Sys2Proof.SpawnCreatesATeamOrSaysItFailed : Prop :=
  (∀ d a disp s s1, Goes (.spawn d a disp) s s1 → entryStop s1 (s.team.pc + 4 * disp.signExtend 64) = none →
    ((ordered s1.team = true ∨ s1.team.place.die = 8 ∨ freeContexts s1 (placeKey s1.team.place) s1.team.prio.toNat = [] ∨
        131072 < lanesUsed s1 (placeKey s1.team.place) + s1.team.lanes * s1.team.vregCount ∨
        quota s1 s1.team.part 4 ≤ spawnedAlive s1 s1.team.part) →
      exec (.spawn d a disp) s = .next (goesOn (withTeam s1 fun t => { sset t d 0 with cc := t.cc ||| 0x41 })
        (nextPc (.spawn d a disp) s)))) ∧
  (∀ d a disp s s1 x rest, Goes (.spawn d a disp) s s1 → entryStop s1 (s.team.pc + 4 * disp.signExtend 64) = none →
    ordered s1.team = false → s1.team.place.die ≠ 8 →
    freeContexts s1 (placeKey s1.team.place) s1.team.prio.toNat = x :: rest →
    lanesUsed s1 (placeKey s1.team.place) + s1.team.lanes * s1.team.vregCount ≤ 131072 →
    spawnedAlive s1 s1.team.part < quota s1 s1.team.part 4 →
    (releaseWaits s1 .core = false →
      (∃ c, ChildOf s1 s1.team x a.r (s.team.pc + 4 * disp.signExtend 64) c ∧
        exec (.spawn d a disp) s = .next (goesOn
          (withTeam { release s1 .core with others := (release s1 .core).others ++ [c] } fun t =>
            { sset t d (BitVec.ofNat 64 (32 + x)) with cc := t.cc &&& 0x3E }) (nextPc (.spawn d a disp) s))) ∧
      ∀ e ∈ (release s1 .core).service, e.place ≠ s1.team.place) ∧
    (releaseWaits s1 .core = true → exec (.spawn d a disp) s = .next (waitsAt s1 .resource)))

/-- EXIT discards both stacks, and the team issues nothing more until it ends (R36, R211); YIELD ranks the team last for 64
turns, which stand for the cycles (the model's choice, log 8), and changes no register, flag or memory (R212). -/
def Sys2Proof.ExitAndYield : Prop :=
  (∀ s s1, Issues .exit s s1 → ∃ t, exec .exit s = .next t ∧ t.team.status = .exiting ∧ t.team.dstk = [] ∧ t.team.lstk = [] ∧
    runnable t t.team = false ∧ (∀ r, sget t.team r = sget s1.team r) ∧ t.mem = s1.mem ∧ t.others = s1.others) ∧
  TeamIs .yield fun s t => { t with yieldUntil := s.ctlTurn + 65 }

/-- SPAWN creates a team or says that it failed, YIELD ranks the team last and EXIT ends it (R36, R208-R212). -/
def Obligations.TeamsSpawnYieldAndExit : Prop := SpawnCreatesATeamOrSaysItFailed ∧ ExitAndYield

/-! ### Vectors -/

namespace Sys2Proof

/-- Sub-element j of a lane-register at w bits (R51). -/
def sub (w : Nat) (x : Word) (j : Nat) : Nat := x.toNat / 2 ^ (w * j) % 2 ^ w

/-- Lane l is active under k, and not yet done when the instruction is begun again part-way (R24, R66). -/
def ToDo (t : Team) (k : KReg) (l : Nat) : Prop :=
  l < t.lanes ∧ t.em.getLsbD l = true ∧ (kget t k).getLsbD l = true ∧
    (t.pix.getLsbD 63 = true → t.pix.toNat % 2 ^ 32 ≤ l / 32)

/-- The active lanes under k, in increasing order (R24). -/
def lanesOn (t : Team) (k : KReg) : List Nat :=
  (List.range t.lanes).filter fun l => t.em.getLsbD l && (kget t k).getLsbD l

/-- Sub-element j of operand a: of a vector register, or the low bits of a scalar in every sub-element (R175). -/
def subA (t : Team) (w : Nat) (a : VA) (l j : Nat) : Nat :=
  match a with
  | .vec r => sub w (vget t l r.r) j
  | .scal r => (sget t r.r).toNat % 2 ^ w

/-- Sub-element j of operand b; a literal is its low w bits, and at 64 bits what `wide` makes of it (R176). -/
def subB (t : Team) (w : Nat) (wide : BitVec 32 → Word) (b : VB) (l j : Nat) : Nat :=
  match b with
  | .vec r => sub w (vget t l r.r) j
  | .scal r => (sget t r.r).toNat % 2 ^ w
  | .lit v => if w = 64 then (wide v).toNat else v.toNat % 2 ^ w

/-- An integer literal at 64 bits. -/
def wideInt (v : BitVec 32) : Word := v.signExtend 64

/-- A datapath instruction (R215, R216): in every lane to do, sub-element j of d takes the low w bits of f(lane, j), read
before anything is written; every other lane-register, and everything else, is as it was. -/
def LanesIs (i : Instr) (d : VReg) (k : KReg) (w : Nat) (f : Team → Nat → Nat → Nat) : Prop :=
  ∀ s s1, Goes i s s1 → ∃ vs,
    exec i s = .next (goesOn (withTeam s1 fun t => { t with vregs := vs }) (nextPc i s)) ∧
    (∀ l r, ¬(r = d ∧ ToDo s1.team k l) → vget { s1.team with vregs := vs } l r = vget s1.team l r) ∧
    (∀ l, ToDo s1.team k l → ∀ j, w * (j + 1) ≤ 64 →
      sub w (vget { s1.team with vregs := vs } l d) j = f s1.team l j % 2 ^ w)

def Vec2Is (c : VBin → Instr) (f : Nat → Nat → Nat → Nat) : Prop :=
  ∀ o : VBin, LanesIs (c o) o.d o.k o.es.bits fun t l j =>
    f o.es.bits (subA t o.es.bits o.a l j) (subB t o.es.bits wideInt o.b l j)

def Vec1Is (c : VUn → Instr) (f : Nat → Nat → Nat) : Prop :=
  ∀ o : VUn, LanesIs (c o) o.d o.k o.es.bits fun t l j => f o.es.bits (subA t o.es.bits o.a l j)

def Vec3Is (c : VTri → Instr) (f : Nat → Nat → Nat → Nat → Nat) : Prop :=
  ∀ o : VTri, LanesIs (c o) o.d o.k o.es.bits fun t l j =>
    f o.es.bits (subA t o.es.bits o.a l j) (subB t o.es.bits wideInt o.b l j) (sub o.es.bits (vget t l o.c.r) j)

/-- s(x) of R116. -/
def sgn (w x : Nat) : Int := if x < 2 ^ (w - 1) then x else (x : Int) - 2 ^ w

/-- wrap, and with .S the nearest signed value (R116). -/
def fit (sat : Bool) (w : Nat) (r : Int) : Nat :=
  if sat then (max (-2 ^ (w - 1)) (min r (2 ^ (w - 1) - 1)) % 2 ^ w).toNat else (r % 2 ^ w).toNat

/-- The same with natural saturation, for a result of the operands read as signed or as natural numbers. -/
def fitN (sat : Sat) (w : Nat) (rs rn : Int) : Nat :=
  match sat with
  | .wrap => fit false w rs
  | .s => fit true w rs
  | .sn => (max 0 (min rn (2 ^ w - 1))).toNat

/-- The test of VCMP (R221). -/
def vcmpTest (fn : CmpFn) (w x y : Nat) : Bool :=
  match fn with
  | .eq => decide (x = y)
  | .ne => decide (x ≠ y)
  | .lt => decide (sgn w x < sgn w y)
  | .le => decide (sgn w x ≤ sgn w y)
  | .gt => decide (sgn w x > sgn w y)
  | .ge => decide (sgn w x ≥ sgn w y)
  | .ltn => decide (x < y)
  | .len => decide (x ≤ y)
  | .gtn => decide (x > y)
  | .gen => decide (x ≥ y)

end Sys2Proof

/-- The sixteen functions of VALU, element by element at every width (R219). -/
def Sys2Proof.VectorArithmeticFollowsItsTable : Prop :=
  (∀ sat, Vec2Is (.valuAdd · sat) fun w x y => fitN sat w (sgn w x + sgn w y) ((x : Int) + y)) ∧
  (∀ sat, Vec2Is (.valuSub · sat) fun w x y => fitN sat w (sgn w x - sgn w y) ((x : Int) - y)) ∧
  Vec2Is .valuAnd (fun _ x y => x &&& y) ∧ Vec2Is .valuOr (fun _ x y => x ||| y) ∧
  Vec2Is .valuXor (fun _ x y => x ^^^ y) ∧ Vec2Is .valuAndn (fun w x y => x &&& (2 ^ w - 1 - y)) ∧
  (∀ sat, Vec2Is (.valuShl · sat) fun w x y => fit sat w (sgn w x * 2 ^ (y % w))) ∧
  Vec2Is .valuShrl (fun w x y => x / 2 ^ (y % w)) ∧
  Vec2Is .valuShra (fun w x y => fit false w (sgn w x / 2 ^ (y % w))) ∧
  Vec2Is .valuMin (fun w x y => if sgn w x < sgn w y then x else y) ∧
  Vec2Is .valuMax (fun w x y => if sgn w x < sgn w y then y else x) ∧
  Vec2Is .valuMinn (fun _ x y => min x y) ∧ Vec2Is .valuMaxn (fun _ x y => max x y) ∧
  (∀ sat, Vec1Is (.valuAbs · sat) fun w x => fit sat w (if sgn w x < 0 then -sgn w x else sgn w x)) ∧
  (∀ sat, Vec1Is (.valuNeg · sat) fun w x => fit sat w (-sgn w x)) ∧
  (∀ d k es b, LanesIs (.valuMov d k es b) d k es.bits fun t l j => subB t es.bits wideInt b l j)

/-- VMUL takes the low or the high half of the exact product, or adds c to it (R220); VCMP writes all ones or 0 (R221); VSEL,
VBCAST and VLID pick (R222). -/
def Sys2Proof.ProductsTestsAndPicks : Prop :=
  (∀ sat, Vec2Is (.vmulMul · sat) fun w x y => fit sat w (sgn w x * sgn w y)) ∧
  Vec2Is .vmulMulh (fun w x y => fit false w (sgn w x * sgn w y / 2 ^ w)) ∧
  Vec2Is .vmulMulhn (fun w x y => x * y / 2 ^ w) ∧
  (∀ sat, Vec3Is (.vmulMad · sat) fun w x y z => fit sat w (sgn w x * sgn w y + sgn w z)) ∧
  (∀ fn, Vec2Is (.vcmp fn ·) fun w x y => if vcmpTest fn w x y then 2 ^ w - 1 else 0) ∧
  Vec3Is .vsel (fun _ x y z => if z ≠ 0 then x else y) ∧
  (∀ o idx, LanesIs (.vbcast o idx) o.d o.k o.es.bits fun t l _ =>
    match o.a with
    | .vec r => sub o.es.bits (vget t l r.r) idx.toNat
    | .scal r => (sget t r.r).toNat) ∧
  (∀ d k es, LanesIs (.vlid d k es) d k es.bits fun _ l j => l * es.nsub + j)

/-- The integer vector datapath, element by element at every width, in the active lanes alone (R215-R222). -/
def Obligations.VectorLanesFollowTheirTables : Prop := VectorArithmeticFollowsItsTable ∧ ProductsTestsAndPicks

/-- PACK narrows two registers into one, UNPACK widens half of one, PERM picks sub-elements of two by index (R230), and CVT
converts, keeping the sub-elements of d that its part does not name (R228). -/
def Sys2Proof.PackingAndConversion : Prop :=
  (∀ (o : VBin) sat, o.es ≠ .b → LanesIs (.pack o sat) o.d o.k (o.es.bits / 2) fun t l j =>
    let x := if j < o.es.nsub then subA t o.es.bits o.a l j else subB t o.es.bits wideInt o.b l (j - o.es.nsub)
    fitN sat (o.es.bits / 2) (sgn o.es.bits x) x) ∧
  (∀ (o : VUn) sx half, o.es ≠ .b → LanesIs (.unpack o sx half) o.d o.k o.es.bits fun t l j =>
    let e := sub (o.es.bits / 2) (match o.a with
      | .vec r => vget t l r.r
      | .scal r => BitVec.ofNat 64 ((List.range o.es.nsub).foldl (fun acc i =>
          acc + (sget t r.r).toNat % 2 ^ o.es.bits * 2 ^ (o.es.bits * i)) 0)) ((if half then o.es.nsub else 0) + j)
    if sx then fit false o.es.bits (sgn (o.es.bits / 2) e) else e) ∧
  (∀ o : VTri, LanesIs (.perm o) o.d o.k o.es.bits fun t l j =>
    let x := sub o.es.bits (vget t l o.c.r) j
    let n := o.es.nsub
    if 2 ^ (o.es.bits - 1) ≤ x then 0
    else if x % (2 * n) < n then subA t o.es.bits o.a l (x % (2 * n))
    else subB t o.es.bits wideInt o.b l (x % (2 * n) - n)) ∧
  (∀ d k a dst src (part : BitVec 3), (Instr.cvt d k a dst src part).wf = true →
    LanesIs (.cvt d k a dst src part) d k dst.bits fun t l j =>
      if src.bits ≤ dst.bits then
        cvtElem dst src (fmode t) (sub src.bits (vget t l a.r) (part.toNat * (64 / dst.bits) + j))
      else if part.toNat * (64 / src.bits) ≤ j ∧ j < (part.toNat + 1) * (64 / src.bits) then
        cvtElem dst src (fmode t) (sub src.bits (vget t l a.r) (j - part.toNat * (64 / src.bits)))
      else sub dst.bits (vget t l d) j)

namespace Sys2Proof

/-- An FP32 literal of an FP64 operation, widened exactly (R176). -/
def wideFp (v : BitVec 32) : Word := BitVec.ofNat 64 (cvtElem .fp64 .fp32 ⟨0, false, false, false⟩ v.toNat)

def Fp2Is (c : FBin → Instr) (f : FpFmt → FMode → Nat → Nat → Nat) : Prop :=
  ∀ o : FBin, LanesIs (c o) o.d o.k (fWidth o.f) fun t l j =>
    f (fpOf o.f) (fmode t) (subA t (fWidth o.f) o.a l j) (subB t (fWidth o.f) wideFp o.b l j)

def Fp1Is (c : FUn → Instr) (f : FpFmt → Nat → Nat) : Prop :=
  ∀ o : FUn, LanesIs (c o) o.d o.k (fWidth o.f) fun t l j => f (fpOf o.f) (subA t (fWidth o.f) o.a l j)

def Fp3Is (c : FTri → Instr) (f : FpFmt → FMode → Nat → Nat → Nat → Nat) : Prop :=
  ∀ o : FTri, LanesIs (c o) o.d o.k (fWidth o.f) fun t l j =>
    f (fpOf o.f) (fmode t) (subA t (fWidth o.f) o.a l j) (subB t (fWidth o.f) wideFp o.b l j)
      (sub (fWidth o.f) (vget t l o.c.r) j)

end Sys2Proof

/-- The floating datapath (R223-R225): each sub-element takes the function of the operands' patterns under the MODE that the
instruction sees; FABS, FNEG and FCSGN move the sign bit alone. -/
def Sys2Proof.FloatingDatapath : Prop :=
  Fp2Is .fadd fpAdd ∧ Fp2Is .fsub fpSub ∧ Fp2Is .fmul fpMul ∧
  Fp2Is .fmin (fun f m => fpMinMax f m false) ∧ Fp2Is .fmax (fun f m => fpMinMax f m true) ∧
  Fp1Is .fabs (fun f x => x % 2 ^ (f.width - 1)) ∧
  Fp1Is .fneg (fun f x => (x + 2 ^ (f.width - 1)) % 2 ^ f.width) ∧
  Fp2Is .fcsgn (fun f _ x y => x % 2 ^ (f.width - 1) + y / 2 ^ (f.width - 1) * 2 ^ (f.width - 1)) ∧
  Fp3Is .ffma (fun f m => fpFma f m false false) ∧ Fp3Is .ffms (fun f m => fpFma f m false true) ∧
  Fp3Is .fnma (fun f m => fpFma f m true false) ∧
  (∀ fn, Fp2Is (.fcmp fn ·) fun f m x y => if fpCmp f m.daz fn x y then 2 ^ f.width - 1 else 0)

/-- Rounding is the identity on what the format holds (R126): the pattern whose value is ±num / den, in every mode, with or
without saturation. -/
def Sys2Proof.RoundingKeepsExactValues : Prop :=
  ∀ (f : FpFmt) rnd sat x neg num den, rnd < 4 → x < 2 ^ f.width → fpValue f false x = .fin neg num den →
    roundFp f rnd sat neg num den = x

/-- The NaN rules of a binary operation (R133): the first NaN operand, quieted; and FADD of opposed infinities, and FMUL of
an infinity and a zero, give the default NaN. -/
def Sys2Proof.NansPropagateInOrder : Prop :=
  (∀ f m x y, isNan f x = true → fpAdd f m x y = quiet f x ∧ fpSub f m x y = quiet f x ∧ fpMul f m x y = quiet f x ∧
    fpMinMax f m false x y = quiet f x ∧ fpMinMax f m true x y = quiet f x ∧ ∀ n p z, fpFma f m n p x y z = quiet f x) ∧
  (∀ f m x y, isNan f x = false → isNan f y = true → fpAdd f m x y = quiet f y ∧ fpSub f m x y = quiet f y ∧
    fpMul f m x y = quiet f y ∧ fpMinMax f m false x y = quiet f y ∧ fpMinMax f m true x y = quiet f y ∧
    ∀ n p z, fpFma f m n p x y z = quiet f y) ∧
  (∀ f m, f.hasInf = true → fpAdd f m f.infPat (f.infPat + 2 ^ (f.width - 1)) = f.defaultNan ∧
    fpSub f m f.infPat f.infPat = f.defaultNan ∧ fpMul f m f.infPat 0 = f.defaultNan ∧ fpMul f m 0 f.infPat = f.defaultNan)

/-- Packing, conversion and the floating datapath (R223-R225, R228, R230), exact values kept by rounding (R126) and the order in
which NaNs propagate (R133). -/
def Obligations.FloatingPointFollowsItsRules : Prop := PackingAndConversion ∧ FloatingDatapath ∧ RoundingKeepsExactValues ∧ NansPropagateInOrder

namespace Sys2Proof

/-- A long-latency producer (R54, R216): with no active lane nothing changes; else d is empty, and for every active lane a
result is on its way whose sub-element j is f(lane, j), of the registers as they stand at issue. -/
def ProducerIs (i : Instr) (d : VReg) (k : KReg) (w : Nat) (f : Team → Nat → Nat → Nat) : Prop :=
  (∀ s s1, Goes i s s1 → lanesOn s1.team k = [] → exec i s = .next (goesOn s1 (nextPc i s))) ∧
  (∀ s s1, Goes i s s1 → lanesOn s1.team k ≠ [] → ∃ g : Nat → Word,
    exec i s = .next (goesOn (withTeam s1 fun t =>
      { markEmpty t (.vec d) true with
          inflight := t.inflight ++ [⟨.vec d, .values ((lanesOn t k).map fun l => (l, g l)), false⟩] }) (nextPc i s)) ∧
    ∀ l ∈ lanesOn s1.team k, ∀ j, w * (j + 1) ≤ 64 → sub w (g l) j = f s1.team l j % 2 ^ w)

def SfuIs (c : FUn → Instr) (fn : SfuFn) : Prop :=
  ∀ o : FUn, ProducerIs (c o) o.d o.k (fWidth o.f) fun t l j =>
    fpSfu (fpOf o.f) (fmode t) fn (subA t (fWidth o.f) o.a l j)

/-- SHFLI: the whole lane-register of the lane that f(l, o, S, m) names, or its own where there is none (R232). -/
def ShfliIs (c : ShfliOps → Instr) (f : Nat → Nat → Nat → Nat → Nat) : Prop :=
  ∀ o : ShfliOps, ProducerIs (c o) o.d o.k 64 fun t l _ =>
    let src := f l (l % 2 ^ o.g.toNat) (2 ^ o.g.toNat) (match o.b with
      | .scal r => (sget t r.r).toNat
      | .lit v => v.toNat)
    (vget t (if src < t.lanes then src else l) o.a.r).toNat

/-- The named sub-element of a lane. -/
def keyOf (t : Team) (o : ElemOps) (l : Nat) : Nat := sub o.es.bits (vget t l o.a.r) o.idx.toNat

end Sys2Proof

/-- The special functions (R226) are long-latency producers, each sub-element f of the operand's pattern. -/
def Sys2Proof.SpecialFunctionsProduce : Prop :=
  SfuIs .frcp .rcp ∧ SfuIs .frsq .rsq ∧ SfuIs .fsqrt .sqrt ∧ SfuIs .fexp2 .exp2 ∧ SfuIs .flog2 .log2 ∧ SfuIs .fsin .sin ∧
  SfuIs .fcos .cos ∧ SfuIs .ftanh .tanh

/-- SHFL and SHFLI move lanes (R231, R232), VRED and SCAN combine the active lanes, a floating sum in increasing lane (R233,
R234), and MATCH finds leader, count and rank (R235). That VRED and SCAN take a broadcast scalar as the element-wise instructions do
is the model's deduction (log 61). -/
def Sys2Proof.CrossLaneInstructionsProduce : Prop :=
  (∀ d k es a b, ProducerIs (.shfl d k es a b) d k es.bits fun t l j =>
    let x := subA t es.bits b l j % (t.lanes * es.nsub)
    sub es.bits (vget t (x / es.nsub) a.r) (x % es.nsub)) ∧
  ShfliIs .shfliUp (fun l o _ m => if m ≤ o then l - m else l) ∧
  ShfliIs .shfliDown (fun l o size m => if o + m < size then l + m else l) ∧
  ShfliIs .shfliXor (fun l o size m => l - o + (o ^^^ (m % size))) ∧
  ShfliIs .shfliBcast (fun l o size m => l - o + m % size) ∧
  (∀ fn d k a, ProducerIs (.vred fn d k a false) d k (redWidth fn) fun t _ j =>
    reduce (fmode t) fn ((lanesOn t k).map fun l => subA t (redWidth fn) a l j)) ∧
  (∀ fn d k a s s1, Goes (.vred fn d k a true) s s1 → ∃ v : Word,
    exec (.vred fn d k a true) s = .next (goesOn (withTeam s1 fun t =>
      produce t (.scal (d.setWidth 6)) (.values [(0, v)]) false) (nextPc (.vred fn d k a true) s)) ∧
    (lanesOn s1.team k = [] → v = 0) ∧
    (lanesOn s1.team k ≠ [] → ∀ j, redWidth fn * (j + 1) ≤ 64 → sub (redWidth fn) v j =
      reduce (fmode s1.team) fn ((lanesOn s1.team k).map fun l => subA s1.team (redWidth fn) a l j) % 2 ^ redWidth fn)) ∧
  (∀ fn d k a excl, ProducerIs (.scan fn d k a excl) d k (redWidth fn) fun t l j =>
    reduce (fmode t) fn (((lanesOn t k).filter fun x => decide (x < l) || (!excl && x == l)).map
      fun x => subA t (redWidth fn) a x j)) ∧
  (∀ d o, ProducerIs (.mtch d o) d o.k 16 fun t l j =>
    let e := (lanesOn t o.k).filter fun x => keyOf t o x == keyOf t o l
    if j = 0 then e.headD 0 else if j = 1 then e.length else if j = 2 then (e.filter fun x => decide (x < l)).length else 0)

/-- What the integer combinations of VRED and SCAN come to (R233): an exact total narrowed once, the least and the greatest,
and the identities of no contribution. -/
def Sys2Proof.ReductionsCombineEveryContribution : Prop :=
  ∀ m (es : Width) (xs : List Nat), (∀ x ∈ xs, x < 2 ^ es.bits) →
    (∀ sat, reduce m (.add es sat) xs = fit sat es.bits ((xs.map (sgn es.bits)).sum)) ∧
    (∀ r, r = reduce m (.min es) xs → (xs = [] → sgn es.bits r = 2 ^ (es.bits - 1) - 1) ∧
      (xs ≠ [] → r ∈ xs) ∧ ∀ x ∈ xs, sgn es.bits r ≤ sgn es.bits x) ∧
    (∀ r, r = reduce m (.max es) xs → (xs = [] → sgn es.bits r = -2 ^ (es.bits - 1)) ∧
      (xs ≠ [] → r ∈ xs) ∧ ∀ x ∈ xs, sgn es.bits x ≤ sgn es.bits r) ∧
    (∀ r, r = reduce m (.minn es) xs → (xs = [] → r = 2 ^ es.bits - 1) ∧ (xs ≠ [] → r ∈ xs) ∧ ∀ x ∈ xs, r ≤ x) ∧
    (∀ r, r = reduce m (.maxn es) xs → (xs = [] → r = 0) ∧ (xs ≠ [] → r ∈ xs) ∧ ∀ x ∈ xs, x ≤ r) ∧
    (∀ b < es.bits, (reduce m (.and es) xs).testBit b = xs.all (·.testBit b) ∧
      (reduce m (.or es) xs).testBit b = xs.any (·.testBit b) ∧
      (reduce m (.xor es) xs).testBit b = decide ((xs.countP (·.testBit b)) % 2 = 1))

/-- The special functions and the cross-lane instructions leave their destination empty, with the result of every active lane on
its way (R54, R226, R231-R235), and what an integer reduction comes to (R233). A broadcast scalar source of VRED and SCAN is the
model's deduction (log 61). -/
def Obligations.LongLatencyInstructionsProduce : Prop := SpecialFunctionsProduce ∧ CrossLaneInstructionsProduce ∧ ReductionsCombineEveryContribution

/-- A result on its way reaches its register when the register is waited for (R54, R56): the values arrive in their lanes,
the register is full, and no other register or byte changes. -/
def Sys2Proof.AwaitedResultsArrive : Prop :=
  (∀ s (d : VReg) (ls : List Nat) (g : Nat → Word) p before after,
    s.team.inflight = before ++ ⟨.vec d, .values (ls.map fun l => (l, g l)), p⟩ :: after →
    (∀ f ∈ before ++ after, f.dest ≠ .vec d) → destEmpty s.team (.vec d) = true →
    ∃ t, awaitDest s (.vec d) = some (withTeam s fun _ => t) ∧ destEmpty t (.vec d) = false ∧
      destPoisoned t (.vec d) = p ∧ t.inflight = before ++ after ∧ t.sregs = s.team.sregs ∧ t.masks = s.team.masks ∧
      (∀ l r, vget t l r = if r = d ∧ l ∈ ls then g l else vget s.team l r)) ∧
  (∀ s (d : SReg) v p before after, d ≠ 0 →
    s.team.inflight = before ++ ⟨.scal d, .values [(0, v)], p⟩ :: after →
    (∀ f ∈ before ++ after, f.dest ≠ .scal d) → destEmpty s.team (.scal d) = true →
    ∃ t, awaitDest s (.scal d) = some (withTeam s fun _ => t) ∧ destEmpty t (.scal d) = false ∧
      destPoisoned t (.scal d) = p ∧ t.inflight = before ++ after ∧ t.vregs = s.team.vregs ∧ t.masks = s.team.masks ∧
      (∀ r, sget t r = if r = d then v else sget s.team r)) ∧
  (∀ s d, destEmpty s.team d = false → awaitDest s d = some s)

namespace Sys2Proof

/-- The instruction writes mask register d with a value of the team, lanes that the team has (R23). -/
def MaskIs (i : Instr) (d : KReg) (f : Team → Nat → Bool) : Prop :=
  ∀ s s1, Goes i s s1 → ∃ m : Mask, exec i s = .next (goesOn (withTeam s1 fun t => kset t d m) (nextPc i s)) ∧
    ∀ l < s1.team.lanes, l < 1024 → m.getLsbD l = f s1.team l

end Sys2Proof

/-- The mask instructions (R236-R238), lane by lane; VANY and VALL write 1 or 0 and set Z from it. -/
def Obligations.MaskInstructionsWriteTheirLanes : Prop :=
  (∀ d a, MaskIs (.kmov d a) d fun t l => (kget t a).getLsbD l) ∧
  (∀ d a q, ScalarIs (.kmovToScalar d a q) d fun s =>
    BitVec.ofNat 64 ((kget s.team a).toNat / 2 ^ (32 * q.toNat) % 2 ^ 32)) ∧
  (∀ d a s s1, Goes (.kmovSum d a) s s1 → ∃ v : Word,
    exec (.kmovSum d a) s = .next (goesOn (withTeam s1 fun t => sset t d v) (nextPc (.kmovSum d a) s)) ∧
    ∀ q < 64, v.getLsbD q =
      (decide (q < 32) && decide ((kget s1.team a).toNat / 2 ^ (32 * q) % 2 ^ 32 ≠ 0))) ∧
  (∀ d a q, MaskIs (.kmovFromScalar d a q) d fun t l =>
    if l / 32 = q.toNat then (sget t a.r).getLsbD (l % 32) else (kget t d).getLsbD l) ∧
  (∀ d a b, MaskIs (.kand d a b) d fun t l => (kget t a).getLsbD l && (kget t b).getLsbD l) ∧
  (∀ d a b, MaskIs (.kor d a b) d fun t l => (kget t a).getLsbD l || (kget t b).getLsbD l) ∧
  (∀ d a b, MaskIs (.kxor d a b) d fun t l => (kget t a).getLsbD l != (kget t b).getLsbD l) ∧
  (∀ d a b, MaskIs (.kandn d a b) d fun t l => (kget t a).getLsbD l && !(kget t b).getLsbD l) ∧
  (∀ d a, MaskIs (.knot d a) d fun t l => !(kget t a).getLsbD l) ∧
  (∀ d a, MaskIs (.kset d a) d fun t l => decide (l < (sget t a.r).toNat)) ∧
  (∀ d a, ScalarIs (.kpop d a) d fun s =>
    BitVec.ofNat 64 ((List.range s.team.lanes).countP fun l => (kget s.team a).getLsbD l)) ∧
  (∀ d o s s1, Goes (.ballot d o) s s1 → lanesOn s1.team o.k = [] →
    exec (.ballot d o) s = .next (goesOn s1 (nextPc (.ballot d o) s))) ∧
  (∀ d o s s1, Goes (.ballot d o) s s1 → lanesOn s1.team o.k ≠ [] → ∃ m : Mask,
    exec (.ballot d o) s = .next (goesOn (withTeam s1 fun t => kset t d m) (nextPc (.ballot d o) s)) ∧
    ∀ l < 1024, m.getLsbD l = decide (l ∈ lanesOn s1.team o.k ∧ keyOf s1.team o l ≠ 0)) ∧
  (∀ d o, TeamIs (.vany d o) fun s t =>
    let b := (lanesOn s.team o.k).any fun l => keyOf s.team o l != 0
    { sset t d (if b then 1 else 0) with cc := (t.cc &&& 0x7E) ||| (if b then 0 else 1) }) ∧
  (∀ d o, TeamIs (.vall d o) fun s t =>
    let b := (lanesOn s.team o.k).all fun l => keyOf s.team o l != 0
    { sset t d (if b then 1 else 0) with cc := (t.cc &&& 0x7E) ||| (if b then 0 else 1) })

/-! ### Memory -/

namespace Sys2Proof

/-- EA (R241). -/
def addressOf (t : Team) (a : SSrc) (off : Option (BitVec 32)) : Word :=
  sget t a.r + (match off with
    | some l => l.signExtend 64
    | none => 0)

/-- v is the n bytes at loc as the team reads them, the lowest address in the lowest bits, extended to 64 bits (R1, R241). -/
def Loaded (s : State) (loc n : Nat) (sx : Bool) (v : Word) : Prop :=
  ∀ b < 64, v.getLsbD b = if b < 8 * n then (teamByte s s.team (loc + b / 8)).getLsbD (b % 8)
    else sx && (teamByte s s.team (loc + n - 1)).getLsbD 7

/-- t is s but for what a read tells the caches and the annexes (R80, R362). -/
def NotedRead (s t : State) : Prop := t = { s with l1 := t.l1, l2 := t.l2, annex := t.annex, annexCnt := t.annexCnt }

/-- None of the n bytes at a location is the device-page window's. -/
def OffPage (loc n : Nat) : Prop := ∀ j < n, targetOf (loc + j) ≠ .page

/-- The team has no request of its own at a service team. -/
def NoRequests (s : State) : Prop := ∀ e ∈ s.service, e.place ≠ s.team.place

/-- Nothing is on its way to memory: no request at a service team and no dirty byte in an L1. -/
def Settled (s : State) : Prop := s.service = [] ∧ s.dirty = [] ∧ s.capWrites = []

/-- No byte of the package stands under a barrier object or a held lock record, and no die is lost. -/
def Unguarded (s : State) : Prop := s.tags = [] ∧ s.locks = [] ∧ s.pkstat.lost = 0 ∧ s.pkstat.mlost = 0

/-- The store names the byte. -/
def At (x : BufStore) (a : Nat) : Prop := x.loc ≤ a ∧ a < x.loc + x.data.length

/-- The lanes that a vector access does, lane-word by lane-word from PIX on (R397). -/
def workLanes (t : Team) (k : KReg) : List Nat :=
  (List.range (t.lanes / 32 * 32)).filter fun l =>
    t.em.getLsbD l && (kget t k).getLsbD l && (!t.pix.getLsbD 63 || decide (t.pix.toNat % 2 ^ 32 ≤ l / 32))

/-- The result of a vector load is on its way: g gives each lane's. -/
def loadSent (s : State) (d : VReg) (ls : List Nat) (g : Nat → Word) (p : Bool) : State :=
  withTeam s fun t => { markEmpty t (.vec d) true with
    inflight := t.inflight ++ [⟨.vec d, .values (ls.map fun l => (l, g l)), p⟩] }

/-- A vector load whose lanes each read n bytes at one allowed address. -/
def VldIs (i : Instr) (d : VReg) (k : KReg) (n : Nat) (sx : Bool) (at_ : State → Nat → Acc) : Prop :=
  (∀ s s1, Goes i s s1 → lanesOn s1.team k = [] → exec i s = .next (goesOn s1 (nextPc i s))) ∧
  (∀ s s1 (loc : Nat → Nat), Goes i s s1 → NoRequests s1 → workLanes s1.team k ≠ [] →
    (∀ l ∈ workLanes s1.team k, at_ s1 l = .ok (loc l)) → ∃ s2 g,
    exec i s = .next (goesOn (loadSent s2 d (workLanes s1.team k) g
      ((workLanes s1.team k).any fun l => loadPoison s1 (loc l) n)) (nextPc i s)) ∧
    NotedRead s1 s2 ∧ ∀ l ∈ workLanes s1.team k, Loaded s1 (loc l) n sx (g l))

/-- The address of lane l of VLD.STR and VST.STR, and of VLD.IX and VST.IX (R245). -/
def strAddress (t : Team) (o : StrOps) (l : Nat) : Word := addressOf t o.a o.off + BitVec.ofNat 64 l * sget t o.b.r
def ixAddress (t : Team) (o : IxOps) (l : Nat) : Word := addressOf t o.a o.off + vget t l o.c.r

/-- e of R246, and the address of word e of lane l (R83). -/
def prvWord (t : Team) (o : PrvOps) (l : Nat) : Int :=
  (sget t o.a.r).toNat + (match o.off with
    | some x => x.toInt
    | none => 0) + (match o.c with
    | some c => (((vget t l c.r).toNat % 2 ^ 32 : Nat) : Int)
    | none => 0)
def prvAddress (t : Team) (l : Nat) (e : Int) : Word :=
  t.prvbase + BitVec.ofInt 64 (((l / 32 : Nat) * (t.stklim : Int) + e) * 128 + (l % 32 : Nat) * 4)

end Sys2Proof

/-- LD reads n bytes at its address, extends them, and sends them to d; a pair reads 16 bytes into d and d + 1 (R244). That the
bytes are those of the load's issue is the model's choice: R92 allows later ones (log 9). A load of an address that may not be
accessed stops with the cause, KIND 0 and the address (R410). -/
def Sys2Proof.LoadsReturnTheirBytes : Prop :=
  (∀ (o : MemOps) n s s1 loc, o.size ≠ .p → n = msizeBytes o.size → Goes (.ld o) s s1 → NoRequests s1 →
    access s1 (addressOf s1.team o.a o.off) n n .rd = .ok loc → bodyRange s1.team loc n = true → ∃ s2 v,
    exec (.ld o) s = .next (goesOn (withTeam s2 fun t =>
      produce t (.scal o.d) (.values [(0, v)]) (loadPoison s1 loc n)) (nextPc (.ld o) s)) ∧
    NotedRead s1 s2 ∧ Loaded s1 loc n o.sx v) ∧
  (∀ (o : MemOps) s s1 loc, o.size = .p → Goes (.ld o) s s1 → NoRequests s1 →
    access s1 (addressOf s1.team o.a o.off) 16 16 .rd = .ok loc → bodyRange s1.team loc 16 = true → ∃ s2 v w,
    exec (.ld o) s = .next (goesOn (withTeam s2 fun t =>
      produce (produce t (.scal o.d) (.values [(0, v)]) (loadPoison s1 loc 16)) (.scal (BitVec.ofNat 6 (o.d.toNat + 1)))
        (.values [(0, w)]) (loadPoison s1 loc 16)) (nextPc (.ld o) s)) ∧
    NotedRead s1 s2 ∧ Loaded s1 loc 8 false v ∧ Loaded s1 (loc + 8) 8 false w) ∧
  (∀ (o : MemOps) s s1 c, Issues (.ld o) s s1 →
    access s1 (addressOf s1.team o.a o.off) (msizeBytes o.size) (msizeBytes o.size) .rd = .fault c →
    exec (.ld o) s = .next (stopAt s s1 { cause := c, pc := s1.team.pc, kind := 0, faddr := addressOf s1.team o.a o.off }))

/-- ST performs the release that its order asks for and then stores the low bytes of s[d], or of s[d] and s[d + 1] (R244); it
waits while a write-back of its release is held. -/
def Sys2Proof.StoresSendTheirBytes : Prop :=
  (∀ (o : MemOps) n s s1 loc, n = msizeBytes o.size → Goes (.st o) s s1 → NoRequests s1 →
    access s1 (addressOf s1.team o.a o.off) n n .wr = .ok loc → bodyRange s1.team loc n = true →
    (releaseWaits s1 (MOrder.relScope o.ord) = true → exec (.st o) s = .next (waitsAt s1 .resource)) ∧
    (releaseWaits s1 (MOrder.relScope o.ord) = false → ∃ bs, exec (.st o) s = .next (goesOn (storeTeam (release s1 (MOrder.relScope o.ord)) loc bs) (nextPc (.st o) s)) ∧
      bs.length = n ∧ ∀ j < n, bs.getD j 0 = BitVec.ofNat 8 (if j < 8 then (sget s1.team o.d).toNat / 256 ^ j
        else (sget s1.team (BitVec.ofNat 6 (o.d.toNat + 1))).toNat / 256 ^ (j - 8)))) ∧
  (∀ (o : MemOps) s s1 c, Issues (.st o) s s1 →
    access s1 (addressOf s1.team o.a o.off) (msizeBytes o.size) (msizeBytes o.size) .wr = .fault c →
    exec (.st o) s = .next (stopAt s s1 { cause := c, pc := s1.team.pc, kind := 1, faddr := addressOf s1.team o.a o.off }))

/-- What the stores of one instruction leave (R91, R247, R297, R371): read by its own team, a byte that they name is the last
one stored there, and every other byte is as before, whether the stores are buffered in a capsule's step or a quantum, held in
the L1, or performed. -/
def Sys2Proof.StoresChangeTheirBytesAlone : Prop :=
  ∀ s (xs : List BufStore), Unguarded s →
    (inBody s.team = false → s.team.capBuf = []) →
    (inBody s.team = false → ordered s.team = false → ordStores s.team.obuf = []) →
    (∀ x ∈ xs, OffPage x.loc x.data.length ∧ ∀ j < x.data.length, cachedLoc s (x.loc + j) = cachedLoc s x.loc ∧
      (cachedLoc s x.loc = false → mapGet none s.dirty (dirtyKey (placeKey s.team.place) (x.loc + j)) = none)) →
    (∀ a before x after, xs = before ++ x :: after → At x a → (∀ y ∈ after, ¬At y a) →
      teamByte (storeAll s xs) (storeAll s xs).team a = x.data.getD (a - x.loc) 0) ∧
    (∀ a, (∀ x ∈ xs, ¬At x a) → (targetOf a ≠ .page →
      teamByte (storeAll s xs) (storeAll s xs).team a = teamByte s s.team a) ∧ memByte (storeAll s xs) a = memByte s a) ∧
    (storeAll s xs).others = s.others ∧ (storeAll s xs).team.sregs = s.team.sregs ∧
    (storeAll s xs).team.vregs = s.team.vregs ∧ (storeAll s xs).team.cc = s.team.cc

/-- What the point of coherence holds after a store, an atomic or an engine's write is performed there: the bytes, but for
those that land on a barrier object (R439), a held lock record (R292) or a lost die (R449), which are discarded. -/
def Sys2Proof.PerformedStoresDiscardGuardedBytes : Prop :=
  ∀ s p pl loc (bs : List Byte) a, memByte (performStore s p pl loc bs) a =
    if loc ≤ a ∧ a < loc + bs.length ∧ tagHit s a 1 = none ∧ lockHit s a 1 = none ∧ homeLost s a = false
    then bs.getD (a - loc) 0 else memByte s a

/-- The vector loads (R245-R247): strided, indexed, and the private region's words of 4 bytes. -/
def Sys2Proof.VectorLoadsReadEveryLane : Prop :=
  (∀ o : StrOps, VldIs (.vldStr o) o.d o.k (o.es.bits / 8) o.sx fun s l =>
    access s (strAddress s.team o l) (o.es.bits / 8) (o.es.bits / 8) .rd) ∧
  (∀ o : IxOps, VldIs (.vldIx o) o.d o.k (o.es.bits / 8) o.sx fun s l =>
    access s (ixAddress s.team o l) (o.es.bits / 8) (o.es.bits / 8) .rd) ∧
  (∀ o : PrvOps, o.es = .w → VldIs (.vldPrv o) o.d o.k 4 o.sx fun s l =>
    if 0 ≤ prvWord s.team o l ∧ prvWord s.team o l < s.team.stklim then
      privAcc s .rd (prvAddress s.team l (prvWord s.team o l)) 4 else .fault 0x14) ∧
  (∀ o : PrvOps, o.es = .d → ∀ s s1 (loc hi : Nat → Nat), Goes (.vldPrv o) s s1 → NoRequests s1 →
    workLanes s1.team o.k ≠ [] →
    (∀ l ∈ workLanes s1.team o.k, 0 ≤ prvWord s1.team o l ∧ prvWord s1.team o l + 1 < s1.team.stklim ∧
      privAcc s1 .rd (prvAddress s1.team l (prvWord s1.team o l)) 4 = .ok (loc l) ∧
      privAcc s1 .rd (prvAddress s1.team l (prvWord s1.team o l + 1)) 4 = .ok (hi l)) → ∃ s2 g,
    exec (.vldPrv o) s = .next (goesOn (loadSent s2 o.d (workLanes s1.team o.k) g
      ((workLanes s1.team o.k).any fun l => loadPoison s1 (loc l) 4 || loadPoison s1 (hi l) 4)) (nextPc (.vldPrv o) s)) ∧
    NotedRead s1 s2 ∧ ∀ l ∈ workLanes s1.team o.k, ∀ b < 64, (g l).getLsbD b =
      (teamByte s1 s1.team (if b < 32 then loc l + b / 8 else hi l + (b - 32) / 8)).getLsbD (b % 8))

/-- LD and VLD read the bytes at their address, lane by lane, as the team sees memory at the load's issue (R244-R246). That a
load takes its value at its issue, where R92 allows a later one, is the model's choice (log 9). -/
def Obligations.LoadsReadTheirBytes : Prop := LoadsReturnTheirBytes ∧ VectorLoadsReadEveryLane

namespace Sys2Proof

/-- A vector store whose lanes each write n bytes at one allowed address: after its release, the lanes in turn (R247), as the
stores of one instruction (`StoresChangeTheirBytesAlone`); it waits while a write-back of its release is held. -/
def VstIs (i : Instr) (d : VReg) (k : KReg) (n : Nat) (ord : MOrder) (at_ : State → Nat → Acc) : Prop :=
  ∀ s s1 (loc : Nat → Nat), Goes i s s1 → NoRequests s1 → (∀ l ∈ workLanes s1.team k, at_ s1 l = .ok (loc l)) →
    let s0 := release s1 (MOrder.relScope ord)
    (releaseWaits s1 (MOrder.relScope ord) = false →
      exec i s = .next (goesOn (storeAll s0 ((workLanes s1.team k).map fun l =>
        ⟨loc l, bytesOfNat n (vget s0.team l d).toNat⟩)) (nextPc i s))) ∧
    (releaseWaits s1 (MOrder.relScope ord) = true → exec i s = .next (waitsAt s1 .resource))

end Sys2Proof

/-- The vector stores (R245-R247). -/
def Sys2Proof.VectorStoresWriteEveryLane : Prop :=
  (∀ o : StrOps, VstIs (.vstStr o) o.d o.k (o.es.bits / 8) o.ord fun s l =>
    access s (strAddress s.team o l) (o.es.bits / 8) (o.es.bits / 8) .wr) ∧
  (∀ o : IxOps, VstIs (.vstIx o) o.d o.k (o.es.bits / 8) o.ord fun s l =>
    access s (ixAddress s.team o l) (o.es.bits / 8) (o.es.bits / 8) .wr) ∧
  (∀ o : PrvOps, o.es = .w → VstIs (.vstPrv o) o.d o.k 4 .plain fun s l =>
    if 0 ≤ prvWord s.team o l ∧ prvWord s.team o l < s.team.stklim then
      privAcc s .wr (prvAddress s.team l (prvWord s.team o l)) 4 else .fault 0x14) ∧
  (∀ o : PrvOps, o.es = .d → ∀ s s1 (loc hi : Nat → Nat), Goes (.vstPrv o) s s1 → NoRequests s1 →
    (∀ l ∈ workLanes s1.team o.k, 0 ≤ prvWord s1.team o l ∧ prvWord s1.team o l + 1 < s1.team.stklim ∧
      privAcc s1 .wr (prvAddress s1.team l (prvWord s1.team o l)) 4 = .ok (loc l) ∧
      privAcc s1 .wr (prvAddress s1.team l (prvWord s1.team o l + 1)) 4 = .ok (hi l)) →
    exec (.vstPrv o) s = .next (goesOn (storeAll s1 ((workLanes s1.team o.k).flatMap fun l =>
      [⟨loc l, bytesOfNat 4 (vget s1.team l o.d).toNat⟩, ⟨hi l, bytesOfNat 4 ((vget s1.team l o.d).toNat / 2 ^ 32)⟩]))
      (nextPc (.vstPrv o) s)))

/-- ST and VST store the low bytes of their source at their address, lane by lane in increasing lane (R244, R245, R247). -/
def Obligations.StoreInstructionsSendTheirBytes : Prop := StoresSendTheirBytes ∧ VectorStoresWriteEveryLane

/-- The frame of the storing instructions, for a team outside capsules and ordered mode: with a plain order, every byte that
the computed addresses do not name reads as before, and no register, mask or flag and no other team changes. -/
def Obligations.StoringInstructionsKeepTheRest : Prop :=
  let keeps := fun (s1 t : State) (hit : Nat → Prop) =>
    (∀ a, targetOf a ≠ .page → ¬hit a → teamByte t t.team a = teamByte s1 s1.team a) ∧ (∀ a, ¬hit a → memByte t a = memByte s1 a) ∧
    t.team.sregs = s1.team.sregs ∧ t.team.vregs = s1.team.vregs ∧ t.team.masks = s1.team.masks ∧ t.team.em = s1.team.em ∧
    t.team.cc = s1.team.cc ∧ t.team.mode = s1.team.mode ∧ t.team.fcont = s1.team.fcont ∧ t.others = s1.others ∧
    t.cores = s1.cores ∧ t.full = s1.full
  let free := fun s1 : State => Unguarded s1 ∧ NoRequests s1 ∧ inBody s1.team = false ∧ ordered s1.team = false ∧
    s1.team.capBuf = [] ∧ s1.team.obuf = []
  let clean := fun (s1 : State) (loc n : Nat) => OffPage loc n ∧ (cachedLoc s1 loc = false →
    ∀ j < n, mapGet none s1.dirty (dirtyKey (placeKey s1.team.place) (loc + j)) = none)
  (∀ (o : MemOps) n s s1 loc, n = msizeBytes o.size → o.ord = .plain → Goes (.st o) s s1 → free s1 →
    access s1 (addressOf s1.team o.a o.off) n n .wr = .ok loc → clean s1 loc n →
    ∃ t, exec (.st o) s = .next t ∧ keeps s1 t fun a => loc ≤ a ∧ a < loc + n) ∧
  (∀ (o : StrOps) n s s1 (loc : Nat → Nat), n = o.es.bits / 8 → o.ord = .plain → Goes (.vstStr o) s s1 → free s1 →
    (∀ l ∈ workLanes s1.team o.k, access s1 (strAddress s1.team o l) n n .wr = .ok (loc l) ∧ clean s1 (loc l) n) →
    ∃ t, exec (.vstStr o) s = .next t ∧ keeps s1 t fun a => ∃ l ∈ workLanes s1.team o.k, loc l ≤ a ∧ a < loc l + n) ∧
  (∀ (o : IxOps) n s s1 (loc : Nat → Nat), n = o.es.bits / 8 → o.ord = .plain → Goes (.vstIx o) s s1 → free s1 →
    (∀ l ∈ workLanes s1.team o.k, access s1 (ixAddress s1.team o l) n n .wr = .ok (loc l) ∧ clean s1 (loc l) n) →
    ∃ t, exec (.vstIx o) s = .next t ∧ keeps s1 t fun a => ∃ l ∈ workLanes s1.team o.k, loc l ≤ a ∧ a < loc l + n) ∧
  (∀ (o : PrvOps) s s1 (loc : Nat → Nat), o.es = .w → Goes (.vstPrv o) s s1 → free s1 →
    (∀ l ∈ workLanes s1.team o.k, 0 ≤ prvWord s1.team o l ∧ prvWord s1.team o l < s1.team.stklim ∧
      privAcc s1 .wr (prvAddress s1.team l (prvWord s1.team o l)) 4 = .ok (loc l) ∧ clean s1 (loc l) 4) →
    ∃ t, exec (.vstPrv o) s = .next t ∧ keeps s1 t fun a => ∃ l ∈ workLanes s1.team o.k, loc l ≤ a ∧ a < loc l + 4) ∧
  (∀ (o : PrvOps) s s1 (loc hi : Nat → Nat), o.es = .d → Goes (.vstPrv o) s s1 → free s1 →
    (∀ l ∈ workLanes s1.team o.k, 0 ≤ prvWord s1.team o l ∧ prvWord s1.team o l + 1 < s1.team.stklim ∧
      privAcc s1 .wr (prvAddress s1.team l (prvWord s1.team o l)) 4 = .ok (loc l) ∧ clean s1 (loc l) 4 ∧
      privAcc s1 .wr (prvAddress s1.team l (prvWord s1.team o l + 1)) 4 = .ok (hi l) ∧ clean s1 (hi l) 4) →
    ∃ t, exec (.vstPrv o) s = .next t ∧ keeps s1 t fun a =>
      ∃ l ∈ workLanes s1.team o.k, (loc l ≤ a ∧ a < loc l + 4) ∨ (hi l ≤ a ∧ a < hi l + 4))

namespace Sys2Proof

/-- f(old, x) of R249 at w bits; none is no write. -/
def atomicValue (op : AtomOp) (w old x c : Nat) : Option Nat :=
  match op with
  | .add => some ((old + x) % 2 ^ w)
  | .and => some (old &&& x)
  | .or => some (old ||| x)
  | .xor => some (old ^^^ x)
  | .min => some (if sgn w x < sgn w old then x else old)
  | .max => some (if sgn w old < sgn w x then x else old)
  | .minn => some (min old x)
  | .maxn => some (max old x)
  | .swap => some x
  | .cas => if old = c then some x else none
  | .fadd => some (fpAdd (if w = 64 then .f64 else .f32) ⟨0, false, false, false⟩ old x)

/-- What an acquire, and an atomic over the host port or a Folros Link, wait for: the service teams perform every request
(R250, R433). -/
def served (ord : MOrder) (far : Bool) (s : State) : State :=
  if far then drain s
  else
    match ord with
    | .acq _ | .ar _ => drain s
    | _ => s

/-- The reply that an instruction waits for is at hand, and it reports no failure. -/
structure Replied (s : State) (r : SvcReply) : Prop where
  asked : s.team.asked = true
  reply : s.team.reply = some r
  good : r.err = none
  clean : s.team.sPoison = 0 ∧ s.team.vPoison = 0
  inner : ∀ e ∈ s.team.lstk.head?, e.stop ≠ s.team.pc

/-- The registers that a reply fills, empty until it comes, or full again (R54). -/
def marked (ds : List SReg) (e : Bool) (t : Team) : Team := ds.foldl (fun t d => markEmpty t (.scal d) e) t

/-- An instruction whose reply has come takes it, and its registers are full again (R54, R370). -/
def TakesReply (ok : State → Prop) (i : Instr) (ds : List SReg) (f : SvcReply → Team → Team) : Prop :=
  ∀ s r, ok s → Replied s r → exec i s = .next (goesOn (withTeam s fun t => f r (marked ds false t)) (nextPc i s))

/-- Always. -/
def anyState (_ : State) : Prop := True

/-- An instruction outside a capsule body comes to the check of its operand `a` at issue: every register that it waits for is
full, nothing that its encoding decides stops it, and `a` has a value (R410). -/
structure Judged (i : Instr) (a : SSrc) (s s1 : State) : Prop where
  fresh : s.team.asked = false
  waits : awaitAll s (waitsFor i.uses) = some s1
  outside : inBody s1.team = false
  use : issueUse i s1 = none
  value : destEmpty s1.team (.scal a.r) = false

/-- An ATOM sends one request to the service team that owns its address and leaves its register empty until the reply; in
an ordered launch the quantum keeps it, and one over the host port or a Folros Link holds its team until the quantum end has
sent it (R249, R250, R370, R433). Poison at the service team stops the team at the instruction, cause 0x50 (R445). -/
def AtomIs (c : AtomOps → Instr) (op : AtomOp) (cmp : Team → Word) : Prop :=
  (∀ o, TakesReply anyState (c o) [] fun _ t => t) ∧
  (∀ o s s1 n loc, Issues (c o) s s1 → n = (if o.dw then 8 else 4) →
    hostRefuses s1 op o.dw false (addressOf s1.team o.a o.off) = false →
    access s1 (addressOf s1.team o.a o.off) n n .atomic = .ok loc → poisonedIn (flushLines s1 loc n) loc n = true →
    exec (c o) s = .next (stopAt s s1
      { cause := 0x50, pc := s1.team.pc, kind := 2, faddr := addressOf s1.team o.a o.off })) ∧
  ∀ o s s1 s2 loc, Goes (c o) s s1 → releaseWaits s1 (MOrder.relScope o.ord) = false →
    s2 = release s1 (MOrder.relScope o.ord) →
    atomAcc s1 op o.dw false (addressOf s1.team o.a o.off) (if o.dw then 8 else 4) = .ok loc →
    let r : AtomReq := ⟨op, loc, o.dw, o.sx, sget s1.team o.b.r, cmp s1.team, 0, if o.d = 0 then none else some (.scal o.d)⟩
    let far := decide (targetOf loc = .host ∨ targetOf loc = .peer)
    let sent : Team → Team := fun t => produce t (.scal o.d) (.requests 1 []) false
    let f := if targetOf loc = .host then s2.fresh + 1 else s2.fresh
    quota s1 s1.team.part 3 ≠ 0 →
    (ordered s1.team = false →
      askService.entriesAt s2 (ownerCluster loc) s2.team.part < quota s2 s2.team.part 3 →
      exec (c o) s = .next (goesOn (served o.ord far { withTeam s2 sent with
        fresh := f, service := s2.service ++ [⟨ownerCluster loc, s2.team.part, s2.team.place, s2.team.launch, r⟩] })
        (nextPc (c o) s))) ∧
    (ordered s1.team = true → far = false →
      exec (c o) s = .next (goesOn { withTeam s2 fun t => { sent t with obuf := t.obuf ++ [.atom r] } with fresh := f }
        (nextPc (c o) s))) ∧
    (ordered s1.team = true → far = true →
      exec (c o) s = .next (waitsAt { withTeam s2 fun t =>
        { sent t with obuf := t.obuf ++ [.atom r], asked := true, op := some (c o) } with fresh := f } .quantum))

end Sys2Proof

/-- The eleven functions of ATOM send their request. -/
def Sys2Proof.AtomicsSendTheirRequest : Prop :=
  AtomIs .atomAdd .add (fun _ => 0) ∧ AtomIs .atomAnd .and (fun _ => 0) ∧ AtomIs .atomOr .or (fun _ => 0) ∧
  AtomIs .atomXor .xor (fun _ => 0) ∧ AtomIs .atomMin .min (fun _ => 0) ∧ AtomIs .atomMax .max (fun _ => 0) ∧
  AtomIs .atomMinn .minn (fun _ => 0) ∧ AtomIs .atomMaxn .maxn (fun _ => 0) ∧ AtomIs .atomSwap .swap (fun _ => 0) ∧
  (∀ c : SSrc, AtomIs (.atomCas · c) .cas (fun t => sget t c.r)) ∧ AtomIs .atomFadd .fadd (fun _ => 0)

/-- VATOM sends one request per active lane, in increasing lane, and waits for them in d unless .NR is given (R251). -/
def Sys2Proof.VectorAtomicsSendOnePerLane : Prop :=
  ∀ (o : VatomOps) s s1 (loc : Nat → Nat), Goes (.vatom o) s s1 →
    (quota s1 s1.team.part 3 ≠ 0 ∨ workLanes s1.team o.k = []) →
    (∀ l ∈ workLanes s1.team o.k, atomAcc s1 o.op o.dw true (sget s1.team o.a.r + vget s1.team l o.c.r)
      (if o.dw then 8 else 4) = .ok (loc l)) →
    releaseWaits s1 (MOrder.relScope o.ord) = false →
    let s2 := release s1 (MOrder.relScope o.ord)
    let s3 := if o.nr || (workLanes s1.team o.k).isEmpty then s2
      else withTeam s2 fun t => produce t (.vec o.d) (.requests (workLanes s1.team o.k).length []) false
    let s4 := (workLanes s1.team o.k).foldl (fun u l => sendAtom u
      { op := o.op, loc := loc l, dw := o.dw, sx := o.sx, x := vget s1.team l o.b.r,
        cmp := if o.op = .cas then vget s1.team l o.d else 0, lane := l,
        dest := if o.nr then none else some (.vec o.d) }) s3
    let far := (workLanes s1.team o.k).any fun l => decide (targetOf (loc l) = .host ∨ targetOf (loc l) = .peer)
    exec (.vatom o) s = .next (goesOn (if ordered s1.team then s4 else served o.ord far s4) (nextPc (.vatom o) s))

/-- A request at its service team is one act (R250): the word read, the function written over it, every other byte kept, and
the word as it was sent to its lane; a request performed that meets poison there leaves every byte and is noted in the requester,
which has gone on and takes the stop before its next instruction (R445; the model's reading, log 51). -/
def Sys2Proof.AtomicsReadAndWriteAsOneAct : Prop :=
  (∀ (s : State) (e : SvcEntry) w old, s.dirty = [] → Unguarded s → w = (if e.req.dw then 64 else 32) →
    poisonedIn s e.req.loc (w / 8) = false → old = memNat s e.req.loc (w / 8) →
    ∃ u t : State,
      (∀ a, memByte u a = if e.req.loc ≤ a ∧ a < e.req.loc + w / 8 then
          match atomicValue e.req.op w old (e.req.x.toNat % 2 ^ w) (e.req.cmp.toNat % 2 ^ w) with
          | some v => BitVec.ofNat 8 (v / 256 ^ (a - e.req.loc))
          | none => memByte s a
        else memByte s a) ∧ u.team = s.team ∧ u.others = s.others ∧
      t = (match e.req.dest with
        | some d => mapTeam u e.place fun t => reply t d e.req.lane
            (if e.req.sx then BitVec.ofInt 64 (sgn w old) else BitVec.ofNat 64 old)
        | none => u) ∧ serveAtom s e = t) ∧
  (∀ (s : State) (e : SvcEntry), s.dirty = [] → s.pkstat.lost = 0 →
    poisonedIn s e.req.loc (if e.req.dw then 8 else 4) = true →
    ∃ u : State, u.mem = s.mem ∧ u.team = s.team ∧ u.others = s.others ∧
      serveAtom s e = mapTeam u e.place fun t => { t with softErr := some 4 })

/-- ATOM and VATOM send a request, one per active lane, and each is performed as one act at its service team; poison stops the
requester (R249-R251, R445). When the requests that stand there are performed, at an acquire, a release or a wait for a result,
is the model's choice (log 11). -/
def Obligations.AtomicsAreOneAct : Prop := AtomicsSendTheirRequest ∧ VectorAtomicsSendOnePerLane ∧ AtomicsReadAndWriteAsOneAct

/-- A load, an acquire or an atomic that reads what a store of the same team wrote: the little-endian number of the bytes
stored, for every width (R1). -/
def Sys2Proof.ReadsReturnWhatWasWritten : Prop :=
  (∀ s loc n v, v < 256 ^ n → memNat (rawWrite s loc (bytesOfNat n v)) loc n = v) ∧
  (∀ s loc n v m k, (m + k ≤ loc ∨ loc + n ≤ m) → memNat (rawWrite s loc (bytesOfNat n v)) m k = memNat s m k) ∧
  (∀ s loc n, memNat s loc n < 256 ^ n ∧ ∀ j < n, memNat s loc n / 256 ^ j % 256 = (memByte s (loc + j)).toNat)

/-- A store changes the bytes that it stores to and no other, and a read gives what was last written (R1, R85). -/
def Obligations.MemoryHoldsWhatIsPerformed : Prop := StoresChangeTheirBytesAlone ∧ PerformedStoresDiscardGuardedBytes ∧ ReadsReturnWhatWasWritten

/-- Fences (R252, R93-R95): an acquire waits for nothing here, a release performs the requests and, beyond the core, the
core's dirty bytes, and waits while a halted die or a link holds one of them (R357, R452); the scope of a team asks for
nothing. No register changes but for the replies on their way, and no byte that the core reads but for the words of the requests
that it performs. That every team's requests are performed, and which dirty bytes, is the model's choice (logs 11, 10). -/
def Sys2Proof.FencesReleaseTheirScope : Prop :=
  (∀ sv s s1, Goes (.fenceAcq sv) s s1 → exec (.fenceAcq sv) s = .next (goesOn s1 (nextPc (.fenceAcq sv) s))) ∧
  (∀ sv s s1, Goes (.fenceRel sv) s s1 → exec (.fenceRel sv) s =
    .next (if releaseWaits s1 sv then waitsAt s1 .resource else goesOn (release s1 sv) (nextPc (.fenceRel sv) s))) ∧
  (∀ sv s s1, Goes (.fenceAr sv) s s1 → exec (.fenceAr sv) s =
    .next (if releaseWaits s1 sv then waitsAt s1 .resource else goesOn (release s1 sv) (nextPc (.fenceAr sv) s))) ∧
  (∀ s sv, heldLinks s = [] → s.pkstat.halted = 0 → releaseWaits s sv = false) ∧
  (∀ s, release s .team = s) ∧
  (∀ s sc, sc = .die ∨ sc = .dev ∨ sc = .sys →
    ∀ a < 2 ^ 56, mapGet none (release s sc).dirty (dirtyKey (placeKey s.team.place) a) = none) ∧
  (∀ s sc, sc ≠ .team → ∀ e ∈ (release s sc).service, serviceHalted s e.req.loc = true) ∧
  (∀ s sc, ∃ fs e, (release s sc).team = { s.team with inflight := fs, softErr := e }) ∧
  (∀ s sc p a, Unguarded s → mapWf none s.dirty = true → a < 2 ^ 56 → targetOf a ≠ .page →
    (∀ e ∈ s.service, ¬(e.req.loc ≤ a ∧ a < e.req.loc + if e.req.dw then 8 else 4)) →
    (∀ k, k ≠ placeKey s.team.place → mapGet none s.dirty (dirtyKey k a) = none) →
    coreByte (release s sc) p (placeKey s.team.place) a = coreByte s p (placeKey s.team.place) a)

/-- Cache hints (R265) change no register and no byte as the core reads it: PF reads the line, CWB and CINV perform the core's
dirty bytes of it unless a halted die or a link holds them, and CINV drops the line from the L1 once it has none; a hint
whose access would fault does nothing. -/
def Sys2Proof.CacheHintsKeepEveryValue : Prop :=
  (∀ a off s s1, Goes (.pfL1 a off) s s1 → ∃ s2, NotedRead s1 s2 ∧
    exec (.pfL1 a off) s = .next (goesOn s2 (nextPc (.pfL1 a off) s))) ∧
  (∀ a off s s1, Goes (.pfL2 a off) s s1 → ∃ s2, NotedRead s1 s2 ∧
    exec (.pfL2 a off) s = .next (goesOn s2 (nextPc (.pfL2 a off) s))) ∧
  (∀ a off s s1 c, Goes (.cwb a off) s s1 → locate s1 s1.team.who (addressOf s1.team a off) 1 1 .none = .error c →
    exec (.cwb a off) s = .next (goesOn s1 (nextPc (.cwb a off) s))) ∧
  (∀ a off s s1 loc, Goes (.cwb a off) s s1 → locate s1 s1.team.who (addressOf s1.team a off) 1 1 .none = .ok loc →
    exec (.cwb a off) s = .next (goesOn (if writeBackHeld s1 (placeKey s1.team.place) loc then s1
      else flushLine s1 (placeKey s1.team.place) (loc / 128)) (nextPc (.cwb a off) s))) ∧
  (∀ a off s s1 c, Goes (.cinv a off) s s1 → locate s1 s1.team.who (addressOf s1.team a off) 1 1 .none = .error c →
    exec (.cinv a off) s = .next (goesOn s1 (nextPc (.cinv a off) s))) ∧
  (∀ a off s s1 loc, Goes (.cinv a off) s s1 → locate s1 s1.team.who (addressOf s1.team a off) 1 1 .none = .ok loc →
    let k := placeKey s1.team.place
    let u := if writeBackHeld s1 k loc then s1 else flushLine s1 k (loc / 128)
    let v := if u.dirty.any fun x => x.1 / 2 ^ 56 == k && x.1 % 2 ^ 56 / 128 == loc / 128 then u
      else { u with l1 := mapSet [] u.l1 k ((mapGet [] u.l1 k).filter fun c => c.line != loc / 128) }
    exec (.cinv a off) s = .next (goesOn v (nextPc (.cinv a off) s))) ∧
  (∀ s k line, (∀ a < 2 ^ 56, a / 128 = line → mapGet none (flushLine s k line).dirty (dirtyKey k a) = none) ∧
    (Unguarded s → mapWf none s.dirty = true → k < 2 ^ 10 → ∀ p a, a < 2 ^ 56 → targetOf a ≠ .page →
      coreByte (flushLine s k line) p k a = coreByte s p k a))

/-- FENCE and the cache hints change no register; a hint changes no byte that the core reads, and a release, which performs what
its scope asks for, none but the words of the atomics that it performs (R252, R265; logs 10, 11). -/
def Obligations.FencesAndHintsKeepEveryValue : Prop := FencesReleaseTheirScope ∧ CacheHintsKeepEveryValue

/-! ### Synchronisation -/

namespace Sys2Proof

/-- The 64-bit word at a location. -/
def wordAt_ (s : State) (loc : Nat) : Nat := memNat s loc 8

/-- v is the n bytes at loc at their point of coherence, extended. -/
def Fetched (s : State) (loc n : Nat) (sx : Bool) (v : Word) : Prop :=
  ∀ b < 64, v.getLsbD b = if b < 8 * n then (memByte s (loc + b / 8)).getLsbD (b % 8)
    else sx && (memByte s (loc + n - 1)).getLsbD 7

/-- No link holds its traffic, and no die is halted or lost. -/
def AllOpen (s : State) : Prop :=
  heldLinks s = [] ∧ s.pkstat.halted = 0 ∧ s.pkstat.lost = 0 ∧ s.pkstat.mlost = 0

/-- No way of the hall is closed, and no write of its waits. -/
def HallOpen (s : State) : Prop := AllOpen s ∧ s.hallOut = []

/-- An unordered team of a partition that has request entries asks a service team for something, with nothing else on its
way to memory and no way closed. -/
def Asks (s : State) : Prop :=
  Settled s ∧ AllOpen s ∧ ordered s.team = false ∧ s.team.status ≠ .vacant ∧ quota s s.team.part 3 ≠ 0

/-- The team waits at its instruction `i` for a reply that fills `ds`: from a bank, or what service team or quantum end is to
perform `req`. -/
def awaits (s : State) (i : Instr) (ds : List SReg) (req : Option SvcReq) (w : WaitOn) : State :=
  waitsAt (withTeam s fun t => { marked ds true t with asked := true, request := req, op := some i }) w

/-- The registers take values, and each is poisoned or clean with them. -/
def landed (vs : List (SReg × Word)) (poison : Bool) (t : Team) : Team :=
  vs.foldl (fun t x => markPoison (sset t x.1 x.2) (.scal x.1) poison) t

/-- LDFE at its bank: the granule full, the value is written and .C empties the granule; the granule empty, the bank keeps the
request behind those that it has. In an ordered launch the request is left for the quantum end. -/
def LdfeIs (c : LdfeOps → Instr) (clear : Bool) : Prop :=
  (∀ (o : LdfeOps) n s s1 loc ds, n = msizeBytes o.size →
    ds = (if o.size = .p then [o.d, BitVec.ofNat 6 (o.d.toNat + 1)] else [o.d]) → Goes (c o) s s1 → s1.service = [] →
    s1.team.status ≠ .vacant → inScratchWindow (sget s1.team o.a.r).toNat = true →
    access s1 (sget s1.team o.a.r) n n .rd = .ok loc →
    let left := if clear && !taggedGranule s1 loc then { s1 with full := s1.full.filter (· != loc / 16) } else s1
    (ordered s1.team = false → loc / 16 ∈ s1.full → s1.bank = [] → o.size ≠ .p → ∃ v, Fetched s1 loc n o.sx v ∧
      exec (c o) s = .next (goesOn (withTeam left (landed [(o.d, v)] (poisonedIn s1 loc n))) (nextPc (c o) s))) ∧
    (ordered s1.team = false → loc / 16 ∈ s1.full → s1.bank = [] → o.size = .p → ∃ v w, Fetched s1 loc 8 false v ∧
      Fetched s1 (loc + 8) 8 false w ∧ exec (c o) s = .next (goesOn (withTeam left
        (landed [(o.d, v), (BitVec.ofNat 6 (o.d.toNat + 1), w)] (poisonedIn s1 loc 16))) (nextPc (c o) s))) ∧
    (ordered s1.team = false → loc / 16 ∉ s1.full → exec (c o) s =
      .next (awaits { s1 with bank := s1.bank ++ [.ldfe loc n clear s1.team.place] } (c o) ds none .granule)) ∧
    (ordered s1.team = true → exec (c o) s = .next (awaits s1 (c o) ds (some (.ldfe loc n clear)) .quantum))) ∧
  (∀ (o : LdfeOps), o.size = .p → TakesReply anyState (c o) [o.d, BitVec.ofNat 6 (o.d.toNat + 1)]
    fun r => landed [(o.d, r.vals.getD 0 0), (BitVec.ofNat 6 (o.d.toNat + 1), r.vals.getD 1 0)] r.poison) ∧
  (∀ (o : LdfeOps), o.size ≠ .p → TakesReply anyState (c o) [o.d]
    fun r => landed [(o.d, extBytes (msizeBytes o.size) o.sx (r.vals.getD 0 0).toNat)] r.poison) ∧
  (∀ (o : LdfeOps) s s1, Judged (c o) o.a s s1 →
    inScratchWindow (sget s1.team o.a.r).toNat = false → exec (c o) s =
      .next (stopAt s s1 { cause := 0x23, pc := s1.team.pc, code := 0x20, faddr := sget s1.team o.a.r }))

end Sys2Proof

/-- LDFE (R248): at a full granule the bytes, and .C empties it in the same act; at an empty one the team waits in the bank's
order of arrival (R82), its registers empty; an address outside the scratchpad windows is illegal use 0x020. -/
def Sys2Proof.FullEmptyLoads : Prop := LdfeIs .ldfeK false ∧ LdfeIs .ldfeC true

/-- WAITC (R253): with no fault to report the team goes on once its count is at most n, and else it waits. -/
def Sys2Proof.WaitcWaitsForItsCount : Prop :=
  ∀ c (n : BitVec 6) s s1, Goes (.waitc c n) s s1 →
    (∀ e ∈ s1.engines, e.counted = true → e.place = s1.team.place → e.launch = s1.team.launch → e.cls = c →
      e.state = .running ∨ e.state = .leave ∨ e.state = .finished) →
    let cnt := match c with
      | .cpy => s1.team.cntCpy
      | .mxa => s1.team.cntMxa
      | .gth => s1.team.cntGth
      | .col => s1.team.cntCol
    (cnt.toNat ≤ n.toNat → exec (.waitc c n) s = .next (goesOn s1 (nextPc (.waitc c n) s))) ∧
    (n.toNat < cnt.toNat → exec (.waitc c n) s =
      .next (waitsAt s1 (if ordered s1.team then .quantum else .counter)))

/-- LDFE reads a full granule or waits for one (R248), and WAITC waits for its count (R253). -/
def Obligations.FullEmptyLoadsAndCounterWaits : Prop := FullEmptyLoads ∧ WaitcWaitsForItsCount

namespace Sys2Proof

/-- A BAR instruction names object `obj`: 32 bytes of its own block's scratchpad, 32-aligned (R256). -/
def AtObject (s : State) (acc : Access) (va : Word) (obj : Nat) : Prop :=
  decodeWindow s s.team.who va.toNat 32 .wr = some (.ok obj) ∧ inOwnBlock s s.team obj = true ∧
    inOwnBlock s s.team (obj + 31) = true ∧ va.toNat % 32 = 0 ∧ heldAccess s s.team.who acc obj = false

/-- Registers, masks and flags are as they were. -/
def SameRegisters (t u : Team) : Prop :=
  t.sregs = u.sregs ∧ t.vregs = u.vregs ∧ t.masks = u.masks ∧ t.em = u.em ∧ t.cc = u.cc

/-- An arrival: counted, it writes the phase and L, its register full all the while (R242); the bank may keep it, or find an
object of the other kind. In an ordered launch it is left for the quantum end, and so is the check of the kind (R426). -/
def ArriveIs (c : SReg → SSrc → Instr) (cross : Bool) : Prop :=
  (∀ d a s s1 obj, Goes (c d a) s s1 → Settled s1 → s1.team.status ≠ .vacant → AtObject s1 .wr (sget s1.team a.r) obj →
    let wrong : Stop := { cause := 0x23, pc := s1.team.pc, code := 0x23, faddr := sget s1.team a.r }
    (∀ s2 phase last, ordered s1.team = false → s1.bank = [] → arrive s1 obj cross = .counted s2 phase last →
      exec (c d a) s = .next (goesOn (withTeam s2 fun t =>
        { sset t d (BitVec.ofNat 64 phase) with cc := if last then t.cc ||| 0x10 else t.cc &&& 0x6F }) (nextPc (c d a) s))) ∧
    (ordered s1.team = false → arrive s1 obj cross = .wait → exec (c d a) s =
      .next (awaits { s1 with bank := s1.bank ++ [.arrive obj cross s1.team.place] } (c d a) [] none .arrival)) ∧
    (ordered s1.team = false → s1.bank = [] → arrive s1 obj cross = .wrongKind → exec (c d a) s =
      .next (stopAt s (withTeam s1 fun t => { t with request := none }) wrong)) ∧
    (ordered s1.team = true → exec (c d a) s =
      .next (awaits (withTeam s1 fun t => { t with arrival := some ⟨obj, cross, none⟩ }) (c d a) [] none .quantum))) ∧
  (∀ d a, TakesReply anyState (c d a) [] fun r t =>
    { sset t d (r.vals.getD 0 0) with cc := if r.full then t.cc ||| 0x10 else t.cc &&& 0x6F })

end Sys2Proof

/-- The BAR instructions (R256): INIT sets an object up and fills its granules, ARR and ARRX arrive, WAIT compares phases
modulo 2^32, EXPB adds expected bytes; the bank keeps what it cannot perform yet, in the order of arrival (R255). -/
def Sys2Proof.BarrierInstructions : Prop :=
  (∀ x a b c s s1 obj, Goes (.barInit x a b c) s s1 → Settled s1 → AtObject s1 .wr (sget s1.team a.r) obj →
    (x = true → straddleBlock s1 = true) → (sget s1.team b.r).toNat % 2 ^ 16 ≠ 0 →
    let expa := (sget s1.team b.r).toNat % 2 ^ 16
    let defb := (sget s1.team c.r).toNat % 2 ^ 32
    exec (.barInit x a b c) s = .next (goesOn (if ordered s1.team then withTeam s1 fun t =>
      { t with obuf := t.obuf ++ [.barInit obj expa defb x] } else initObj s1 obj expa defb x) (nextPc (.barInit x a b c) s))) ∧
  (∀ s obj expa defb x, s.bank = [] → expa < 2 ^ 16 → defb < 2 ^ 32 → let t := initObj s obj expa defb x
    readObj t obj = ⟨0, x, expa, defb, defb, 0, 0⟩ ∧ objReady t obj = true ∧ obj ∈ t.tags ∧ t.team = s.team ∧
      ∀ y, ¬(obj ≤ y ∧ y < obj + 32) → memByte t y = memByte s y) ∧
  ArriveIs .barArr false ∧ ArriveIs .barArrx true ∧
  (∀ a p s s1 obj, Goes (.barWait a p) s s1 → s1.team.status ≠ .vacant → AtObject s1 .rd (sget s1.team a.r) obj →
    let want := match p with
      | .reg b => (sget s1.team b.r).toNat % 2 ^ 32
      | .imm n => n.toNat
    let gone := ((readObj s1 obj).phase + (2 ^ 32 - want)) % 2 ^ 32
    ((objReady s1 obj = true ∧ 1 ≤ gone ∧ gone ≤ 2 ^ 31) → (ordered s1.team = false → s1.bank = []) →
      exec (.barWait a p) s = .next (goesOn s1 (nextPc (.barWait a p) s))) ∧
    (¬(objReady s1 obj = true ∧ 1 ≤ gone ∧ gone ≤ 2 ^ 31) → exec (.barWait a p) s =
      .next (if ordered s1.team then waitsAt s1 .quantum
        else awaits { s1 with bank := s1.bank ++ [.await obj want s1.team.place] } (.barWait a p) [] none .barrier))) ∧
  (∀ a p, TakesReply anyState (.barWait a p) [] fun _ t => t) ∧
  (∀ a b s s1 obj, Goes (.barExpb a b) s s1 → AtObject s1 .wr (sget s1.team a.r) obj →
    let n := (sget s1.team b.r).toNat % 2 ^ 32
    (ordered s1.team = true → exec (.barExpb a b) s = .next (goesOn (withTeam s1 fun t =>
      { t with obuf := t.obuf ++ [.barExpb obj n] }) (nextPc (.barExpb a b) s))) ∧
    (ordered s1.team = false → objReady s1 obj = false → exec (.barExpb a b) s =
      .next (goesOn { s1 with bank := s1.bank ++ [.expb obj n] } (nextPc (.barExpb a b) s))) ∧
    (ordered s1.team = false → objReady s1 obj = true → s1.bank = [] →
      ((readObj s1 obj).arrived ≠ (readObj s1 obj).expa ∨
        (readObj s1 obj).landed < min ((readObj s1 obj).expb + n) (2 ^ 32 - 1)) → ∃ t, exec (.barExpb a b) s = .next t ∧
        SameRegisters t.team s1.team ∧ readObj t obj =
          { readObj s1 obj with expb := min ((readObj s1 obj).expb + n) (2 ^ 32 - 1) }))

/-- The completion step (R255, R257): an arrival counts; the last one of an ordinary object whose bytes have landed starts the
next phase; on a cross object it completes its own half and sends the twin a notice, and the phase ends when the twin's
notice has come. -/
def Sys2Proof.ArrivalsCompletePhases : Prop :=
  ∀ s obj b, objReady s obj = true → b = readObj s obj → b.arrived < b.expa →
    let counted := { b with arrived := b.arrived + 1 }
    let next := { b with phase := (b.phase + 1) % 2 ^ 32, arrived := 0, landed := b.landed - b.expb, expb := b.defb }
    (∀ cross, b.x ≠ cross → arrive s obj cross = .wrongKind ∧ ∀ p, countArrival s obj cross p = some (mapTeam s p fun t =>
      { t with reply := some (svcFault 0x23 0x23 5 none), arrival := none })) ∧
    (b.arrived + 1 = b.expa → b.expb ≤ b.landed → b.x = false → ∃ t,
      arrive s obj b.x = .counted t b.phase true ∧ readObj t obj = next) ∧
    ((b.arrived + 1 ≠ b.expa ∨ b.landed < b.expb) → ∃ t,
      arrive s obj b.x = .counted t b.phase (decide (b.arrived + 1 = b.expa)) ∧ readObj t obj = counted ∧
      t.notices = s.notices) ∧
    (b.arrived + 1 = b.expa → b.expb ≤ b.landed → b.x = true → crossOf s obj = ⟨obj, false, 0⟩ → ∃ t,
      arrive s obj b.x = .counted t b.phase true ∧ readObj t obj = counted ∧
      t.notices = s.notices ++ (twinObj s obj).toList ∧ readObj (takeNotice t obj) obj = next)

/-- The BAR instructions and the completion step of a barrier object (R255-R257). -/
def Obligations.BarriersCountPhases : Prop := BarrierInstructions ∧ ArrivalsCompletePhases

namespace Sys2Proof

/-- An instruction reaches the header of a queue or dispenser at `hdr`, whose words are BASE, the capacity word, HEAD and
TAIL. -/
def AtHeader (s : State) (va : Word) (hdr base cap head tail : Nat) : Prop :=
  Asks s ∧ access s va 32 32 .atomic = .ok hdr ∧ targetOf hdr ≠ .host ∧ poisonedIn s hdr 32 = false ∧
    wordAt_ s hdr = base ∧ wordAt_ s (hdr + 8) = cap ∧ wordAt_ s (hdr + 16) = head ∧ wordAt_ s (hdr + 24) = tail ∧
    base < 2 ^ 52

/-- Counts in use: (TAIL − HEAD) mod 2^64. -/
def inUse (head tail : Nat) : Nat := (tail + (2 ^ 64 - head)) % 2 ^ 64

/-- The header's word takes a count. -/
def countTo (s : State) (loc v : Nat) : State :=
  performStore s s.team.part s.team.place loc (bytesOfNat 8 (v % 2 ^ 64))

/-- Bytes as a service team reads them for its requester. -/
def svcBytes (s : State) (loc n : Nat) : List Byte := farBytes s s.team.part loc n

/-- The number of the eight bytes from an offset. -/
def numberAt (bs : List Byte) (off : Nat) : Word := BitVec.ofNat 64 (natAt bs off 8)

/-- The team with CC.F as given; every other flag is kept. -/
def withF (f : Bool) (t : Team) : Team := { t with cc := if f then t.cc ||| 0x40 else t.cc &&& 0x3F }

/-- A queue or dispenser instruction takes its reply: its registers take the values in turn, and F is as the reply says. -/
def TakesWords (ok : State → Prop) (i : Instr) (ds : List SReg) : Prop :=
  TakesReply ok i ds fun r t => withF r.full ((ds.zip r.vals).foldl (fun t x => sset t x.1 x.2) t)

end Sys2Proof

/-- QPUSH and QPOP (R260, R261) as one act: full or empty, nothing moves and F is set; else the slot and then the count. That a
header in CXL or peer memory is served as in device memory is the model's choice (log 78). -/
def Sys2Proof.QueuesMoveOneWord : Prop :=
  (∀ a b s s1 hdr base cap head tail, Goes (.qpush a b) s s1 →
    AtHeader s1 (sget s1.team a.r) hdr base cap head tail → base % 8 = 0 → cap ≤ 20 → ∃ u, NotedRead s1 u ∧
    (inUse head tail = 2 ^ cap → exec (.qpush a b) s = .next (goesOn (withTeam u (withF true)) (nextPc (.qpush a b) s))) ∧
    (∀ loc, inUse head tail ≠ 2 ^ cap →
      locate s1 s1.team.who (BitVec.ofNat 64 (base + tail % 2 ^ cap * 8)) 8 1 .wr = .ok loc →
      exec (.qpush a b) s = .next (goesOn (withTeam (countTo (performStore u s1.team.part s1.team.place loc
        (bytesOfNat 8 (sget s1.team b.r).toNat)) (hdr + 24) (tail + 1)) (withF false)) (nextPc (.qpush a b) s)))) ∧
  (∀ d a s s1 hdr base cap head tail, Goes (.qpop d a) s s1 →
    AtHeader s1 (sget s1.team a.r) hdr base cap head tail → base % 8 = 0 → cap ≤ 20 → ∃ u, NotedRead s1 u ∧
    (head = tail → exec (.qpop d a) s = .next (goesOn (withTeam u fun t => withF true (sset t d 0))
      (nextPc (.qpop d a) s))) ∧
    (∀ loc, head ≠ tail → locate s1 s1.team.who (BitVec.ofNat 64 (base + head % 2 ^ cap * 8)) 8 1 .rd = .ok loc →
      poisonedIn s1 loc 8 = false → ∃ v, NotedRead u v ∧
      exec (.qpop d a) s = .next (goesOn (withTeam (countTo v (hdr + 16) (head + 1))
        fun t => withF false (sset t d (numberAt (svcBytes u loc 8) 0))) (nextPc (.qpop d a) s)))) ∧
  (∀ a b, TakesWords anyState (.qpush a b) []) ∧ (∀ d a, TakesWords anyState (.qpop d a) [d])

/-- TQGET, TQADD and TQFILL (R262-R264): one record of 16 bytes taken or added, or all the tiles of the counts appended in
their order, with d the number appended; a header in CXL or peer memory likewise (log 78). -/
def Sys2Proof.DispensersMoveRecords : Prop :=
  (∀ (d : SReg) q s s1 hdr base cap head tail, Goes (.tqget d q) s s1 →
    AtHeader s1 (tqHeader s1 q) hdr base cap head tail → base % 16 = 0 → 1 ≤ cap → cap ≤ 65536 →
    let d1 : SReg := BitVec.ofNat 6 (d.toNat + 1)
    ∃ u, NotedRead s1 u ∧
    (head = tail → exec (.tqget d q) s =
      .next (goesOn (withTeam u fun t => withF true (sset (sset t d 0) d1 0)) (nextPc (.tqget d q) s))) ∧
    (∀ loc, head ≠ tail → locate s1 s1.team.who (BitVec.ofNat 64 (base + head % cap * 16)) 16 1 .rd = .ok loc →
      poisonedIn s1 loc 16 = false → ∃ v, NotedRead u v ∧
      exec (.tqget d q) s = .next (goesOn (withTeam (countTo v (hdr + 16) (head + 1)) fun t =>
        withF false (sset (sset t d (numberAt (svcBytes u loc 16) 0)) d1 (numberAt (svcBytes u loc 16) 8)))
        (nextPc (.tqget d q) s)))) ∧
  (∀ (d : SReg) q, TakesWords anyState (.tqget d q) [d, BitVec.ofNat 6 (d.toNat + 1)]) ∧
  (∀ q a b s s1 hdr base cap head tail, Goes (.tqadd q a b) s s1 → tqHeader s1 q ≠ 0 →
    AtHeader s1 (tqHeader s1 q) hdr base cap head tail → base % 16 = 0 → 1 ≤ cap → cap ≤ 65536 → ∃ u, NotedRead s1 u ∧
    (inUse head tail = cap →
      exec (.tqadd q a b) s = .next (goesOn (withTeam u (withF true)) (nextPc (.tqadd q a b) s))) ∧
    (∀ loc, inUse head tail ≠ cap →
      locate s1 s1.team.who (BitVec.ofNat 64 (base + tail % cap * 16)) 16 1 .wr = .ok loc →
      exec (.tqadd q a b) s = .next (goesOn (withTeam (countTo (performStore u s1.team.part s1.team.place loc
        (bytesOfNat 8 (sget s1.team a.r).toNat ++ bytesOfNat 8 (sget s1.team b.r).toNat)) (hdr + 24) (tail + 1))
        (withF false)) (nextPc (.tqadd q a b) s)))) ∧
  (∀ q a b, TakesWords (fun s => tqHeader s q ≠ 0) (.tqadd q a b) []) ∧
  (∀ d q a b c, TakesWords (fun s => tqHeader s q ≠ 0) (.tqfill d q a b c) [d]) ∧
  (∀ d q a b c s s1 hdr base cap head tail nb tl ps, Goes (.tqfill d q a b c) s s1 → tqHeader s1 q ≠ 0 →
    AtHeader s1 (tqHeader s1 q) hdr base cap head tail → base % 16 = 0 → 1 ≤ cap → cap ≤ 65536 →
    nb = (sget s1.team b.r).toNat → tl = (sget s1.team c.r).toNat → nb ≤ 1024 → 1 ≤ tl → tl ≤ 65535 →
    locateSpan s1 s1.team.who .rd (sget s1.team a.r) (4 * nb) = .ok ps → piecesPoisoned s1 ps = false →
    ∃ u v, NotedRead s1 u ∧ NotedRead u v ∧
    let ns := (List.range nb).map fun e => natAt (readPieces u s1.team.part ps) (4 * e) 4
    let tiles := sortTiles (tilesOf tl 0 0 ns)
    (cap < inUse head tail + tiles.length → exec (.tqfill d q a b c) s =
      .next (goesOn (withTeam v fun t => withF true (sset t d 0)) (nextPc (.tqfill d q a b c) s))) ∧
    (∀ s2, inUse head tail + tiles.length ≤ cap →
      appendTiles v (ownerCluster hdr) s1.team ⟨BitVec.ofNat 64 base, cap, head, tail⟩ 0 tiles = .ok s2 →
      exec (.tqfill d q a b c) s = .next (goesOn (withTeam (performStore s2 s1.team.part s1.team.place (hdr + 24)
        (bytesOfNat 8 ((tail + tiles.length) % 2 ^ 64)))
        fun t => withF false (sset t d (BitVec.ofNat 64 tiles.length))) (nextPc (.tqfill d q a b c) s))))

/-- The tiles of TQFILL (R264): every count cut into rows of at most T, no row lost or given twice, ordered by ROWS
descending, then EXPERT, then ROW0 ascending. -/
def Sys2Proof.TilesCoverTheirCounts : Prop :=
  ∀ (tl : Nat) (ns : List Nat), 1 ≤ tl →
    let tiles := sortTiles (tilesOf tl 0 0 ns)
    tiles.Pairwise (fun x y => y.rows < x.rows ∨ x.rows = y.rows ∧
      (x.expert < y.expert ∨ x.expert = y.expert ∧ x.row0 < y.row0)) ∧
    (∀ x ∈ tiles, 1 ≤ x.rows ∧ x.rows ≤ tl) ∧
    (∀ e row, e < ns.length → (tiles.countP fun x => x.expert == e && decide (x.row0 ≤ row) && decide (row < x.row0 + x.rows)) =
      if (ns.take e).sum ≤ row ∧ row < (ns.take e).sum + ns.getD e 0 then 1 else 0) ∧
    (∀ x ∈ tiles, x.expert < ns.length)

/-- QPUSH, QPOP, TQGET, TQADD and TQFILL each move their words as one act (R260-R264; the places of a header that the rules do
not name, log 78). -/
def Obligations.QueuesAndDispensersMoveRecords : Prop := QueuesMoveOneWord ∧ DispensersMoveRecords ∧ TilesCoverTheirCounts

/-! ### Capsules -/

namespace Sys2Proof

/-- The team asks for a step of the capsule it holds, whose record names it. -/
def InCapsule (s : State) (h : CapHold) : Prop :=
  Asks s ∧ s.team.held = some h ∧ poisonedIn s h.rcd 256 = false ∧ s.tags = [] ∧ s.locks = [h.rcd] ∧
    s.pkstat.lost = 0 ∧ s.pkstat.mlost = 0 ∧ wordAt_ s h.rcd % 2 = 1 ∧ wordAt_ s (h.rcd + 8) = (ownerWord s.team).toNat

/-- Every byte outside the record's 256 is as the step's stores leave it. -/
def StepApplied (s t : State) (rcd : Nat) : Prop :=
  ∀ a, ¬(rcd ≤ a ∧ a < rcd + 256) → memByte t a = (bufByte s.team.capBuf a).getD (memByte s a)

/-- The checkpoint, the entry PC and the step number that a step leaves in its record (R291). -/
def Checkpointed (s t : State) (rcd step : Nat) (entry : Word) : Prop :=
  wordAt_ t (rcd + 24) = step ∧ wordAt_ t (rcd + 32) = entry.toNat ∧
    ∀ j < 15, wordAt_ t (rcd + 40 + 8 * j) = (sget s.team (BitVec.ofNat 6 (j + 1))).toNat

/-- The record shows instance `inst` over, with the outcome: the lock is free. -/
def Ended (t : State) (rcd inst out : Nat) : Prop :=
  wordAt_ t rcd % 2 = 0 ∧ wordAt_ t rcd / 2 ^ 32 = inst ∧ wordAt_ t (rcd + 192) = out + inst * 2 ^ 32 ∧ rcd ∉ t.locks

end Sys2Proof

/-- CAP.ENTER (R259, R291): a free lock is taken, a parked one adopted; the record and the registers say so. -/
def Obligations.CapsuleEntryTakesTheLock : Prop :=
  ∀ a (sz : BitVec 4) (e : BitVec 11) s s1 rcd, Goes (.capEnter a sz e) s s1 → Asks s1 → s1.capWait = [] →
    (sget s1.team a.r).toNat % 4096 + 256 * (sz.toNat + 1) ≤ 4096 →
    access s1 (sget s1.team a.r) 256 256 .atomic = .ok rcd → targetOf rcd ≠ .host → targetOf rcd ≠ .peer →
    poisonedIn s1 rcd 256 = false → capEntries s1 s1.team.part < quota s1 s1.team.part 2 →
    let inst := wordAt_ s1 rcd / 2 ^ 32
    let cont := s.team.pc + BitVec.ofNat 64 (4 * e.toNat)
    let cont := if cont.toNat % 64 = 60 then cont + 4 else cont
    (wordAt_ s1 rcd % 2 = 0 → wordAt_ s1 (rcd + 16) % 4 ≠ 3 → ∃ t, exec (.capEnter a sz e) s = .next t ∧
      t.team.held = some ⟨rcd, 256 * (sz.toNat + 1), BitVec.ofNat 32 (inst + 1), cont, cont⟩ ∧ t.team.mystep = 0 ∧
      t.team.pc = nextPc (.capEnter a sz e) s ∧ t.team.sregs = s1.team.sregs ∧ t.team.cc = s1.team.cc &&& 0x5F ∧
      wordAt_ t rcd = (inst + 1) % 2 ^ 32 * 2 ^ 32 + 1 ∧ wordAt_ t (rcd + 8) = (ownerWord s1.team).toNat ∧
      wordAt_ t (rcd + 16) = 1 ∧ Checkpointed s1 t rcd 0 (nextPc (.capEnter a sz e) s) ∧ rcd ∈ t.locks ∧
      ∀ y, ¬(rcd ≤ y ∧ y < rcd + 256) → memByte t y = memByte s1 y) ∧
    (wordAt_ s1 rcd % 2 = 1 → wordAt_ s1 (rcd + 16) % 4 = 2 →
      wordAt_ s1 (rcd + 8) / 2 ^ 60 = s1.team.part.toNat → ∃ t, exec (.capEnter a sz e) s = .next t ∧
      t.team.held = some ⟨rcd, 256 * (sz.toNat + 1), BitVec.ofNat 32 inst, cont,
        ((s1.bodies.find? fun b => b.1 == rcd).map (·.2)).getD cont⟩ ∧
      t.team.mystep = wordAt_ s1 (rcd + 24) % 32 ∧ t.team.pc = BitVec.ofNat 64 (wordAt_ s1 (rcd + 32)) ∧
      t.team.cc = s1.team.cc ||| 0x20 ∧
      (∀ j < 15, sget t.team (BitVec.ofNat 6 (j + 1)) = BitVec.ofNat 64 (wordAt_ s1 (rcd + 40 + 8 * j))) ∧
      (∀ r : SReg, 16 ≤ r.toNat → sget t.team r = sget s1.team r) ∧
      wordAt_ t (rcd + 8) = (ownerWord s1.team).toNat ∧ wordAt_ t (rcd + 16) = 1 ∧
      ∀ y, ¬(rcd + 8 ≤ y ∧ y < rcd + 24) → memByte t y = memByte s1 y)

/-- CAP.COMMIT, CAP.EXIT and CAP.ABORT by the owner (R259, R298): the step's stores with its checkpoint as one act; EXIT also
publishes s1 to s4 and frees the lock; ABORT, at step 0, discards the stores. With a reply at hand each of the four goes on at
the address that it names. -/
def Obligations.CapsuleStepsAreOneAct : Prop :=
  (∀ s s1 h step, Goes .capCommit s s1 → InCapsule s1 h → step = wordAt_ s1 (h.rcd + 24) % 32 → step = s1.team.mystep →
    step < 16 → ∃ t, exec .capCommit s = .next t ∧ StepApplied s1 t h.rcd ∧
    Checkpointed s1 t h.rcd (step + 1) (nextPc .capCommit s) ∧ t.team.held = some h ∧ t.team.mystep = step + 1 ∧
    t.team.capBuf = [] ∧ t.team.pc = nextPc .capCommit s ∧ SameRegisters t.team s1.team) ∧
  (∀ s s1 h step, Goes .capExit s s1 → InCapsule s1 h → step = wordAt_ s1 (h.rcd + 24) % 32 → step = s1.team.mystep →
    ∃ t, exec .capExit s = .next t ∧ StepApplied s1 t h.rcd ∧ Ended t h.rcd (wordAt_ s1 h.rcd / 2 ^ 32) 1 ∧
    (∀ j < 4, wordAt_ t (h.rcd + 160 + 8 * j) = (sget s1.team (BitVec.ofNat 6 (j + 1))).toNat) ∧
    t.team.held = none ∧ t.team.capBuf = [] ∧ t.team.pc = h.cont ∧ t.team.sregs = s1.team.sregs ∧
    t.team.cc = if s1.team.cc.getLsbD 5 then s1.team.cc &&& 0x7E else s1.team.cc ||| 1) ∧
  (∀ s s1 h, Goes .capAbort s s1 → InCapsule s1 h → wordAt_ s1 (h.rcd + 24) % 32 = 0 →
    ∃ t, exec .capAbort s = .next t ∧ Ended t h.rcd (wordAt_ s1 h.rcd / 2 ^ 32) 2 ∧
    (∀ a, ¬(h.rcd ≤ a ∧ a < h.rcd + 256) → memByte t a = memByte s1 a) ∧
    t.team.held = none ∧ t.team.capBuf = [] ∧ t.team.pc = h.cont ∧ t.team.sregs = s1.team.sregs ∧
    t.team.cc = s1.team.cc &&& 0x7E) ∧
  (∀ i s r, (i = .capCommit ∨ i = .capExit ∨ i = .capAbort ∨ ∃ a sz e, i = .capEnter a sz e) → Replied s r →
    s.team.parks = [] → exec i s = .next (goesOn s (r.vals.getD 0 s.team.pc)))

/-! ### Matrix and engines -/

namespace Sys2Proof

/-- The n bytes at an address as the team reads them at issue, each piece allowed and none poisoned. -/
def BytesAt (s : State) (va : Word) (n : Nat) (bs : List Byte) : Prop :=
  ∃ ps, locateSpan s s.team.who .rd va n = .ok ps ∧ (ps.any fun x => poisonedIn s x.1 x.2) = false ∧ bs = pieceBytes s ps

/-- A descriptor of n bytes as the team reads it at issue. -/
def DescriptorAt (s : State) (va : Word) (n : Nat) (bs : List Byte) : Prop :=
  ∃ ps, descPieces s va n = .ok ps ∧ (ps.any fun x => poisonedIn s x.1 x.2) = false ∧ bs = pieceBytes s ps

/-- The addresses that a matrix instruction names pass their checks. -/
def MxAllowed (s : State) (xs : List (Word × Nat × Nat × Access)) : Prop := ∃ ps, mxChecks s xs = .ok ps

/-- The instruction hands one operation to the engines, behind all earlier ones: no work is a descriptor error, reported by a
WAITC. The operation's class counts one more (R65, R98); registers, flags and memory are as they were. -/
def Hands (i : Instr) (s s1 : State) (cls : EClass) (counted : Bool) (desc : Word) (bar : Option Nat)
    (work : Option EngWork) : Prop :=
  ∃ t o, exec i s = .next t ∧ t.engines = s1.engines ++ [o] ∧ o.cls = cls ∧ o.counted = counted ∧ o.desc = desc ∧
    o.bar = bar ∧ o.place = s1.team.place ∧ o.launch = s1.team.launch ∧ o.unit = 0 ∧ o.mode = modeSeen s1.team ∧
    (∀ w, work = some w → o.work = w ∧ (o.state = .running ∨ o.state = .leave ∨ o.state = .finished)) ∧
    (work = none → o.state = .badDesc) ∧
    (∀ c, cntOf t.team c = if counted ∧ c = cls then cntOf s1.team c + 1 else cntOf s1.team c) ∧
    SameRegisters t.team s1.team ∧ t.team.pc = nextPc i s ∧ ∀ a, memByte t a = memByte s1 a

/-- ENG of a class, whose descriptor has 64 bytes, or what its first 64 bytes give. -/
def EngIs (c : SSrc → SSrc → Instr) (cls : EClass) (size : List Byte → Nat)
    (parse : State → List Byte → Option EngWork) : Prop :=
  ∀ a b s s1 hd bs bar, Goes (c a b) s s1 → s1.service = [] → cntOf s1.team cls < 63 →
    DescriptorAt s1 (sget s1.team a.r) 64 hd → (∀ u, NotedRead s1 u → DescriptorAt u (sget s1.team a.r) (size hd) bs) →
    (sget s1.team b.r = 0 ∧ bar = none ∨ ∃ loc, bar = some loc ∧ inScratchWindow (sget s1.team b.r).toNat = true ∧
      sget s1.team b.r ≠ 0 ∧ (sget s1.team b.r).toNat % 32 = 0 ∧
      (∀ u, NotedRead s1 u → heldAccess u s1.team.who .wr loc = false) ∧
      decodeWindow s1 s1.team.who (sget s1.team b.r).toNat 32 .wr = some (.ok loc)) →
    Hands (c a b) s s1 cls true (sget s1.team a.r) bar ((parse s1 bs).map fun w => (choosePath s1 w).1)

end Sys2Proof

/-- ENG.CPY, GATH, SORTC and COLL read their descriptor at issue and hand its work on (R279-R283); with 63 operations of
the class outstanding they wait (R65), which in an ordered launch ends the team's quantum (the model's reading of R369, log 85). -/
def Obligations.EngineInstructionsHandWorkOn : Prop :=
  EngIs .engCpy .cpy (fun hd => if 1 ≤ natAt hd 1 1 ∧ natAt hd 1 1 ≤ 16 then 64 + 24 * natAt hd 1 1 else 64)
    (fun s bs => parseCpy s s.team.who bs) ∧
  EngIs .engGath .gth (fun _ => 64) (fun _ bs => parseGath bs) ∧
  EngIs .engSortc .gth (fun _ => 64) (fun _ bs => parseSortc bs) ∧
  EngIs .engColl .col (fun _ => 64) (fun s bs => parseColl s.team.place.die.toNat bs) ∧
  (∀ i a b cls, (i = .engCpy a b ∧ cls = .cpy ∨ i = .engGath a b ∧ cls = .gth ∨ i = .engSortc a b ∧ cls = .gth ∨
      i = .engColl a b ∧ cls = .col) → ∀ s s1, Issues i s s1 →
    63 ≤ cntOf s1.team cls → exec i s = .next (waitsAt s1 (if ordered s1.team then .quantum else .resource)))

/-- An ENG whose b names an address outside scratchpad stops with cause 0x12 at the ENG (R440): any address below 2^52 outside
both scratchpad windows, where the descriptor passes its own checks, which come first. -/
def Obligations.EngineBarrierOutsideScratchpadStops : Prop :=
  ∀ i a b cls, (i = .engCpy a b ∧ cls = .cpy ∨ i = .engGath a b ∧ cls = .gth ∨ i = .engSortc a b ∧ cls = .gth ∨
      i = .engColl a b ∧ cls = .col) → ∀ s s1 hd bs, Issues i s s1 → cntOf s1.team cls < 63 → NoRequests s1 →
    DescriptorAt s1 (sget s1.team a.r) 64 hd →
    (∀ u, NotedRead s1 u → (i = .engCpy a b → DescriptorAt u (sget s1.team a.r)
      (if 1 ≤ natAt hd 1 1 ∧ natAt hd 1 1 ≤ 16 then 64 + 24 * natAt hd 1 1 else 64) bs) ∧
      (i ≠ .engCpy a b → DescriptorAt u (sget s1.team a.r) 64 bs)) →
    sget s1.team b.r ≠ 0 → (sget s1.team b.r).toNat < 2 ^ 52 → inScratchWindow (sget s1.team b.r).toNat = false →
    ∃ u, NotedRead s1 u ∧
      exec i s = .next (stopAt s u { cause := 0x12, pc := s1.team.pc, kind := 4, faddr := sget s1.team b.r })

namespace Sys2Proof

/-- The matrix sequencer has room, and nothing waits at the service teams. -/
def MxReady (s : State) : Prop := s.service = [] ∧ cntOf s.team .mxa < 63

/-- A loop fetches its first B plane at issue unless it has no step or keeps the live plane (R271). -/
def planeAt (ks : BitVec 16) (keep : Bool) (base : Word) : List (Word × Nat × Nat × Access) :=
  if ks = 0 ∨ keep = true then [] else [(base, 16384, 1, .rd)]

end Sys2Proof

/-- MXLS, MXSWAP, MXLOOP, MXLOOP.G, MXLOOP.E and MXACC hand one operation to the matrix sequencer (R266-R275), with the format
block, the group table and the bases as they stand at issue; MXSWAP is not counted (R267). -/
def Sys2Proof.MatrixInstructionsHandWorkOn : Prop :=
  (∀ a c s s1 bs, Goes (.mxls a c) s s1 → MxReady s1 →
    MxAllowed s1 [(sget s1.team c.r, 64, 8, .rd), (sget s1.team a.r, 16384, 1, .rd)] →
    BytesAt s1 (sget s1.team c.r) 64 bs →
    Hands (.mxls a c) s s1 .mxa true (sget s1.team c.r) none
      ((parseFmtBlock bs).map fun _ => .mxls (sget s1.team a.r).toNat bs)) ∧
  (∀ s s1, Goes .mxswap s s1 → Hands .mxswap s s1 .mxa false 0 none (some .mxswap)) ∧
  (∀ (o : MxloopOps) s s1 bs, Goes (.mxloop o) s s1 → MxReady s1 →
    MxAllowed s1 ((sget s1.team o.c.r, 64, 8, .rd) :: planeAt o.ks o.keep (sget s1.team o.b.r)) →
    BytesAt s1 (sget s1.team o.c.r) 64 bs →
    Hands (.mxloop o) s s1 .mxa true (sget s1.team o.c.r) none ((parseFmtBlock bs).map fun _ =>
      .mxloop o.tile (o.l1.toNat + 1) 0 o.z o.keep
        [[o.m1.toNat + 1, 0, o.ks.toNat, (sget s1.team o.a.r).toNat, (sget s1.team o.b.r).toNat, 0, 0]] bs)) ∧
  (∀ (o : MxeOps) s s1 bs, Goes (.mxloopE o) s s1 → MxReady s1 →
    MxAllowed s1 ((sget s1.team o.c.r, 64, 8, .rd) :: planeAt o.ks o.keep (sget s1.team o.b.r)) →
    BytesAt s1 (sget s1.team o.c.r) 64 bs →
    Hands (.mxloopE o) s s1 .mxa true (sget s1.team o.c.r) none ((parseFmtBlock bs).map fun _ =>
      .mxloop o.tile 1 o.p.toNat o.z o.keep
        [[o.m1.toNat + 1, 0, o.ks.toNat, 0, (sget s1.team o.b.r).toNat, 0, 0]] bs)) ∧
  (∀ (o : MxgOps) s s1 bs tb, Goes (.mxloopG o) s s1 → MxReady s1 →
    MxAllowed s1 [(sget s1.team o.c.r, 64, 8, .rd), (sget s1.team o.a.r, 32 * o.g.toNat, 1, .rd)] →
    BytesAt s1 (sget s1.team o.c.r) 64 bs → (∀ u, NotedRead s1 u → BytesAt u (sget s1.team o.a.r) (32 * o.g.toNat) tb ∧
      (parseFmtBlock bs ≠ none → ∀ gs, parseGroups tb o.g.toNat = some gs → MxAllowed u (groupPlanes gs))) →
    Hands (.mxloopG o) s s1 .mxa true (sget s1.team o.c.r) none (match parseFmtBlock bs, parseGroups tb o.g.toNat with
      | some _, some gs => some (.mxloop o.tile 1 0 o.z false gs bs)
      | _, _ => none)) ∧
  (∀ (o : MxaccOps) s s1, Goes (.mxacc o) s s1 → MxReady s1 → (sget s1.team o.c.r).toNat ≤ 256 →
    MxAllowed s1 ((List.range (sget s1.team o.c.r).toNat).map fun (r : Nat) =>
      (addrPlus (sget s1.team o.a.r).toNat ((r : Int) * (sget s1.team o.b.r).toInt), 128 * (o.fmt.bits / 8), 1, .wr)) →
    Hands (.mxacc o) s s1 .mxa true (sget s1.team o.a.r) none (some (.mxacc o.tile (sget s1.team o.a.r).toNat
      (sget s1.team o.b.r).toInt (sget s1.team o.c.r).toNat o.fmt o.clr)))

namespace Sys2Proof

/-- K of R277, and element (i, k) of a fragment of lane-word q: lane i + 16 (k / K2), register and sub-element by k mod K2. -/
def kOf (f : Fmt) : Nat := if f.bits = 8 then 32 else 16
def fragment (t : Team) (q : Nat) (r : VReg) (f : Fmt) (i k : Nat) : Nat :=
  let j := k % (kOf f / 2)
  sub f.bits (vget t (32 * q + (i + 16 * (k / (kOf f / 2)))) (if j < 64 / f.bits then r else r + 1)) (j % (64 / f.bits))

/-- Output (i, n) of lane-word q: the sum over k of the products, added to C or +0, by R137 or R138. -/
def product (t : Team) (o : MmaOps) (q i n : Nat) : Nat :=
  let a := (List.range (kOf o.fa)).map fragmentA
  let b := (List.range (kOf o.fa)).map fragmentB
  let old := match o.c with
    | none => 0
    | some c => sub 32 (vget t (32 * q + (2 * i + n / 8)) (c.r + BitVec.ofNat 7 (n % 8 / 2))) (n % 2)
  if o.fa = .i8 then matInt old a b
  else matFloat (fmode t) old (a.map fun x => expandXe (fmtValue o.fa (fmode t).daz x) (.fin false 1 1))
    (b.map fun x => expandXe (fmtValue o.fb (fmode t).daz x) (.fin false 1 1))
where
  fragmentA (k : Nat) : Nat := fragment t q o.a.r o.fa i k
  fragmentB (k : Nat) : Nat := fragment t q o.b.r o.fb n k

/-- The participating lane-words from PIX on (R277). -/
def wordsOn (t : Team) (k : KReg) : List Nat :=
  (List.range (t.lanes / 32)).filter fun q => (!t.pix.getLsbD 63 || decide (t.pix.toNat % 2 ^ 32 ≤ q)) &&
    (List.range 32).any fun p => t.em.getLsbD (32 * q + p) && (kget t k).getLsbD (32 * q + p)

/-- MMA: with no participating lane-word nothing changes; else d to d + 3 are empty, and every lane of the participating
lane-words has its four registers on their way, from the lanes or from the array once leave is given (R344) and no loop holds it
(R278): register r holds columns 8 (p mod 2) + 2r and the next of row p / 2. -/
def MmaIs (c : MmaOps → Instr) (ready : State → MmaOps → Prop) (onLanes onArray : Bool) : Prop :=
  ∀ o s s1, Goes (c o) s s1 → ready s1 o → ∃ t, exec (c o) s = .next t ∧ SameRegisters t.team s1.team ∧
    t.team.pc = nextPc (c o) s ∧ (∀ a, memByte t a = memByte s1 a) ∧
    (wordsOn s1.team o.k = [] → t.team.inflight = s1.team.inflight ∧ t.team.vEmpty = s1.team.vEmpty) ∧
    (wordsOn s1.team o.k ≠ [] → ∃ (g : Nat → Nat → Nat → Word) (src : List (Nat × Word) → FillSrc),
      (onLanes = true ∧ src = .values ∨ onArray = true ∧ src = .array (.vec o.d)) ∧
      t.team.inflight = s1.team.inflight ++ (List.range 4).map (fun r => ⟨.vec (o.d + BitVec.ofNat 7 r),
        src ((wordsOn s1.team o.k).flatMap fun q => (List.range 32).map fun p => (32 * q + p, g q p r)), false⟩) ∧
      (∀ r < 4, destEmpty t.team (.vec (o.d + BitVec.ofNat 7 r)) = true) ∧
      ∀ q ∈ wordsOn s1.team o.k, ∀ p < 32, ∀ r < 4, ∀ j < 2,
        sub 32 (g q p r) j = product s1.team o q (p / 2) (8 * (p % 2) + 2 * r + j) % 2 ^ 32)

/-- The matrix array is powered. -/
def ArrayReady (s : State) (_ : MmaOps) : Prop := islandUp s (placeKey s.team.place) 4 = true

/-- The lane groups that the active lanes lie in are powered, or the core is one of the hall's. -/
def LanesReady (s : State) (o : MmaOps) : Prop := groupsDown s s.team (s.team.em &&& kget s.team o.k) = []

end Sys2Proof

/-- MMA on the array, on the lanes, or on either (R276-R278): the engine never changes a result bit (R139). -/
def Sys2Proof.MatrixProductsPerLaneWord : Prop :=
  MmaIs .mmaArray ArrayReady false true ∧ MmaIs .mmaLanes LanesReady true false ∧
  MmaIs .mmaAny (fun s o => ArrayReady s o ∧ LanesReady s o) true true ∧
  MmaIs .mmaAny (fun s o => (s.team.place.die = 8 ∨ arrayHeld s (placeKey s.team.place) = true) ∧ LanesReady s o) true false

/-- The matrix instructions hand their work to the sequencer (R266-R275), and MMA forms its products lane by lane (R276-R278). -/
def Obligations.MatrixInstructionsMultiply : Prop := MatrixInstructionsHandWorkOn ∧ MatrixProductsPerLaneWord

/-- The INT8 sum of a matrix output wraps once at 32 bits, in any order (R138). -/
def Obligations.IntegerMatrixSumsWrap : Prop :=
  (∀ acc (xs ys : List Nat), acc < 2 ^ 32 → matInt acc xs ys =
    ((sgn 32 acc + ((xs.zip ys).map fun (p : Nat × Nat) => sgn 8 p.1 * sgn 8 p.2).sum) % 2 ^ 32).toNat) ∧
  (∀ acc (ps qs : List (Nat × Nat)), ps.Perm qs →
    matInt acc (ps.map (·.1)) (ps.map (·.2)) = matInt acc (qs.map (·.1)) (qs.map (·.2)))

/-! ### Rates, annexes and special registers -/

namespace Sys2Proof

/-- Clamped to the partition's bounds, within 1/4 and 4 (R62). -/
def clamped (s : State) (v : Nat) : BitVec 32 :=
  BitVec.ofNat 32 (min (min 0x40000 (partOf s s.team.part).hiForce.toNat)
    (max (max 0x4000 (partOf s s.team.part).loForce.toNat) v))

/-- A hint: only the annex directory changes. -/
def HintIs (i : Instr) : Prop :=
  ∀ s s1, Goes i s s1 → ∃ x, exec i s = .next (goesOn { s1 with annex := x } (nextPc i s))

/-- A hint on one region that its address names. -/
def HintsOne (c : SSrc → SSrc → Instr) (f : Region → Region) : Prop :=
  ∀ a b s s1 r, Goes (c a b) s s1 → sget s1.team b.r = 1 → hintTarget s1 (sget s1.team a.r) = some r →
    ∃ t, exec (c a b) s = .next t ∧ regionOf t.annex r = f (regionOf s1.annex r) ∧
      ∀ q, q ≠ r → regionOf t.annex q = regionOf s1.annex q

end Sys2Proof

/-- ANNEX.HINT (R284, R361): PIN sets the degree, FLOOR raises it and CEIL lowers it to its bound, and CLR leaves it; the
hint stands, and no region has more holders than its degree afterwards. -/
def Sys2Proof.AnnexHintsSetTheDegree : Prop :=
  (∀ a b, HintIs (.annexHintClr a b)) ∧ (∀ a b deg, HintIs (.annexHintPin a b deg)) ∧
  (∀ a b deg, HintIs (.annexHintFloor a b deg)) ∧ (∀ a b deg, HintIs (.annexHintCeil a b deg)) ∧
  HintsOne .annexHintClr (hintRegion .clr 0) ∧ (∀ deg : BitVec 3, HintsOne (.annexHintPin · · deg) (hintRegion .pin deg.toNat)) ∧
  (∀ deg : BitVec 3, HintsOne (.annexHintFloor · · deg) (hintRegion .floor deg.toNat)) ∧
  (∀ deg : BitVec 3, HintsOne (.annexHintCeil · · deg) (hintRegion .ceil deg.toNat)) ∧
  (∀ (r : Region) n, r.holders.length ≤ 8 → (r.holders.length ≤ r.deg) →
    let pin := hintRegion .pin n r
    let floor := hintRegion .floor n r
    let ceil := hintRegion .ceil n r
    pin.deg = n ∧ pin.hint = 1 ∧ floor.deg = max n r.deg ∧ floor.hint = 2 ∧ ceil.deg = min n r.deg ∧ ceil.hint = 3 ∧
    (hintRegion .clr n r).deg = r.deg ∧ (hintRegion .clr n r).hint = 0 ∧
    (∀ x ∈ [pin, floor, ceil, hintRegion .clr n r], x.holders.length ≤ x.deg ∧ (∀ d ∈ x.holders, d ∈ r.holders) ∧
      x.reg = r.reg))

/-- RATE.GET leaves its register to the next broadcast; RATE.SET and RATE.CLR write RATEO, clamped to the partition's bounds
(R285, R62). -/
def Sys2Proof.RateInstructions : Prop :=
  (∀ d, TeamIs (.rateGetB d) fun _ t => produce t (.scal d) (.broadcast false) false) ∧
  (∀ d, TeamIs (.rateGetE d) fun _ t => produce t (.scal d) (.broadcast true) false) ∧
  (∀ a, TeamIs (.rateSet a) fun s t => { t with rateo := clamped s ((sget t a.r).toNat % 2 ^ 32) }) ∧
  TeamIs .rateClr fun s t => { t with rateo := clamped s 0x10000 }

namespace Sys2Proof

/-- The special registers that GETS reads, by selector (R60), TIME apart; the second instruction of a pair reads those that its
first may write as they stood before it (R180). -/
def specialValue (s : State) (sel : Nat) : Word :=
  let t := s.team
  let cnt := t.cntCpy.toNat + t.cntMxa.toNat * 2 ^ 8 + t.cntGth.toNat * 2 ^ 16 + t.cntCol.toNat * 2 ^ 24
  let seen := t.pairShadow.getD ⟨t.mode, t.rateo, t.fcont, t.fframe, BitVec.ofNat 64 cnt, t.qnt⟩
  BitVec.ofNat 64 ((
    [t.pc.toNat, t.cc.toNat, seen.mode.toNat, s.rate.toNat + s.seq.toNat * 2 ^ 32, seen.rateo.toNat,
     if t.pix.getLsbD 63 then t.pix.toNat else 0, seen.cnt.toNat, seen.fcont.toNat, seen.fframe.toNat, t.teamId.toNat, t.blk.toNat, t.launch.toNat, t.lanes, t.place.core.toNat,
     t.place.die.toNat, t.stklim, t.prvbase.toNat, t.dstk.length, t.lstk.length, seen.qnt, s.time,
     t.part.toNat] : List Nat).getD sel 0)

end Sys2Proof

/-- GETS reads the special register of its selector; TIME has run on since (R64), and that it has not passed the next broadcast
is the model's choice (log 7). SETS writes the writable fields: CC, MODE but for its ORD bit, RATEO clamped, FCONT 4-aligned, FFRAME 256-aligned; every
other selector and field is unchanged (R59, R60, R286). -/
def Sys2Proof.SpecialRegisters : Prop :=
  (∀ d (sel : BitVec 6), sel.toNat < 22 → sel ≠ 20 → ScalarIs (.gets d sel) d fun s => specialValue s sel.toNat) ∧
  (∀ d s s1, Goes (.gets d 20) s s1 → ∃ now fresh, s1.time ≤ now ∧ now < (s1.time / 1000 + 1) * 1000 ∧
    exec (.gets d 20) s = .next (goesOn (withTeam { s1 with time := now, fresh := fresh }
      fun t => sset t d (BitVec.ofNat 64 now)) (nextPc (.gets d 20) s))) ∧
  (∀ a, TeamIs (.sets 1 a) fun s t => { t with cc := (sget s.team a.r).setWidth 7 }) ∧
  (∀ a, TeamIs (.sets 2 a) fun s t =>
    { t with mode := BitVec.ofNat 6 ((sget s.team a.r).toNat % 32 + (if t.mode.getLsbD 5 then 32 else 0)) }) ∧
  (∀ a, TeamIs (.sets 4 a) fun s t => { t with rateo := clamped s ((sget s.team a.r).toNat % 2 ^ 32) }) ∧
  (∀ a, TeamIs (.sets 7 a) fun s t => { t with fcont := BitVec.ofNat 64 ((sget s.team a.r).toNat / 4 * 4) }) ∧
  (∀ a, TeamIs (.sets 8 a) fun s t => { t with fframe := BitVec.ofNat 64 ((sget s.team a.r).toNat / 256 * 256) }) ∧
  (∀ sel a, sel ≠ 1 → sel ≠ 2 → sel ≠ 4 → sel ≠ 7 → sel ≠ 8 → TeamIs (.sets sel a) fun _ t => t)

/-- GETS and SETS, the rate instructions and the annex hints write what they name and nothing else (R284-R286); how far TIME has
run on between two reads is the model's choice (log 7). -/
def Obligations.SpecialRegistersRatesAndHints : Prop := AnnexHintsSetTheDegree ∧ RateInstructions ∧ SpecialRegisters

/-! ### Stops -/

/-- TRAP stops with cause 1 and its code, its PC the next instruction (R287, R399); BKPT is a NOP without a debugger and else
stops with cause 2 (R407). SYSC waits while the ring is closed, posts its entry and waits for the reply, and the reply lets
it go on (R287, R312). -/
def Obligations.TrapsCallsAndBreakpoints : Prop :=
  (∀ code s s1, Issues (.trap code) s s1 → exec (.trap code) s =
    .next (stopAt s s1 { cause := 1, pc := nextPc (.trap code) s1, code := code.toNat })) ∧
  (∀ code s s1, Goes (.bkpt code) s s1 → (partOf s1 s1.team.part).dbgAttach = false →
    exec (.bkpt code) s = .next (goesOn s1 (nextPc (.bkpt code) s))) ∧
  (∀ code s s1, Issues (.bkpt code) s s1 → (partOf s1 s1.team.part).dbgAttach = true →
    exec (.bkpt code) s = .next (stopAt s (setPart s1 s1.team.part
      { partOf s1 s1.team.part with dbgLast := (targetWord s1.team.place).setWidth 32 })
      { cause := 2, pc := s1.team.pc, code := code.toNat })) ∧
  (∀ code s s1, Issues (.sysc code) s s1 → ringOpen (partOf s1 s1.team.part) = false →
    exec (.sysc code) s = .next (waitsAt s1 (if ordered s1.team then .quantum else .ring))) ∧
  (∀ code s s1 loc, Issues (.sysc code) s s1 → ringOpen (partOf s1 s1.team.part) = true →
    Settled s1 → Unguarded s1 → HallOpen s1 →
    hallSpan s1 s1.team.part (partOf s1 s1.team.part).scAsid .wr (ringSlot (partOf s1 s1.team.part)) 128 =
      some [(loc, 128)] → ∃ t tok, exec (.sysc code) s = .next t ∧ t.team.status = .sysc tok ∧ t.team.pc = s1.team.pc ∧
      SameRegisters t.team s1.team ∧ (partOf t s1.team.part).scTail = (partOf s1 s1.team.part).scTail + 1 ∧
      memNat t loc 4 = 1 ∧ memNat t (loc + 4) 4 = code.toNat ∧ memNat t (loc + 8) 8 = (targetWord s1.team.place).toNat ∧
      memNat t (loc + 24) 8 = tok.toNat ∧
      (∀ j < 8, memNat t (loc + 32 + 8 * j) 8 = (sget s1.team (BitVec.ofNat 6 (j + 1))).toNat) ∧
      ∀ a, ¬(loc ≤ a ∧ a < loc + 128) → memByte t a = memByte s1 a) ∧
  (∀ code, TakesReply anyState (.sysc code) [] fun _ t => t)

/-- The frame of a stop (R401): 1,024 bytes, DONE 0, then PC, PIX, the cause word, FADDR, CC, MODE, the captured MODE, FCONT
and s1 to s63, each in its place. -/
def Sys2Proof.FaultFrameLayout : Prop :=
  ∀ (t : Team) (x : Stop), (frameBytes t x).length = 1024 ∧
    (∀ off v, (off, v) ∈ ([(0, 0), (8, x.pc.toNat), (16, x.pix.toNat), (32, x.faddr.toNat), (40, t.cc.toNat),
        (48, t.mode.toNat), (56, (modeSeen t).toNat), (64, t.fcont.toNat)] : List (Nat × Nat)) →
      natAt (frameBytes t x) off 8 = v) ∧
    natAt (frameBytes t x) 24 1 = x.cause.toNat ∧ natAt (frameBytes t x) 25 3 = x.code % 2048 ∧
    natAt (frameBytes t x) 28 2 = x.flane % 1024 ∧ natAt (frameBytes t x) 30 2 = x.kind % 8 ∧
    (∀ i, 1 ≤ i → i < 64 → natAt (frameBytes t x) (72 + 8 * (i - 1)) 8 = (sget t (BitVec.ofNat 6 i)).toNat) ∧
    (∀ j, 576 ≤ j → j < 1024 → (frameBytes t x).getD j 1 = 0)

namespace Sys2Proof

/-- The four stores of a frame, each allowed at its location, take u to s1. -/
def FrameStored (u : State) (x : Stop) (loc : Nat → Nat) (s1 : State) : Prop :=
  ∃ w : Nat → State, w 0 = u ∧ w 4 = s1 ∧ ∀ i < 4,
    access (w i) (u.team.fframe + BitVec.ofNat 64 (256 * i)) 256 1 .wr = .ok (loc i) ∧
    w (i + 1) = storeTeam (w i) (loc i) (((frameBytes u.team x).drop (256 * i)).take 256)

/-- The frame's locations are four different places where a store by the team of u lands, off the lines of the notice that the
redirection posts, with nothing of the team's buffered for them. -/
def FrameFree (u : State) (loc : Nat → Nat) (s1 : State) : Prop :=
  Unguarded u ∧ mapWf none u.dirty = true ∧ u.team.capBuf = [] ∧ (ordered u.team = false → ordStores u.team.obuf = []) ∧
    (∀ i < 4, loc i + 256 ≤ 2 ^ 56 ∧ OffPage (loc i) 256 ∧ ∀ j < 256, cachedLoc u (loc i + j) = cachedLoc u (loc i) ∧
      (cachedLoc u (loc i) = false → mapGet none u.dirty (dirtyKey (placeKey u.team.place) (loc i + j)) = none)) ∧
    (∀ i < 4, ∀ k < 4, i ≠ k → loc i + 256 ≤ loc k ∨ loc k + 256 ≤ loc i) ∧
    ∀ ps, hallSpan (flushCore s1 (placeKey u.team.place)) u.team.part (partOf u u.team.part).scAsid .wr
      (ringSlot (partOf u u.team.part)) 128 = some ps →
      ∀ y ∈ ps, ∀ i < 4, (y.1 + y.2 - 1) / 128 < loc i / 128 ∨ (loc i + 255) / 128 < y.1 / 128

end Sys2Proof

/-- A redirection leaves the frame in memory as its team reads it (R400, R401): every one of its 1,024 bytes, once the team goes
on at FCONT. That the requests under way are performed before it is the model's choice (log 27). -/
def Sys2Proof.RedirectionsWriteTheFrame : Prop :=
  ∀ s x u s1 loc, u = drain s → inBody s.team = false → redirected x.cause = true → s.team.fcont ≠ 0 →
    s.team.setAsides.length < 2 → s.team.status ≠ .vacant → FrameStored u x loc s1 → FrameFree u loc s1 →
    contOk s1 u.team u.team.fcont = true →
    ∃ t, tryRaise s x = some t ∧ t.team.pc = s.team.fcont ∧ t.team.fframe = s.team.fframe ∧
      ∀ i < 4, ∀ j < 256, teamByte t t.team (loc i + j) = (frameBytes u.team x).getD (256 * i + j) 0

/-- Taking a stop (R400, R403), once the requests under way are performed (log 27): with FCONT ≠ 0, a cause that FCONT takes, room for a
set-aside, a frame that can be written and a good continuation, EM and both stacks are set aside and the team goes on at
FCONT with FCONT 0; while a store of the frame is held, so is the stop (R452); else the team halts at the reported PC.
Registers, masks and MODE are kept. -/
def Sys2Proof.StopsRedirectOrHalt : Prop :=
  (∀ s x u s1, u = drain s → inBody s.team = false → redirected x.cause = true → s.team.fcont ≠ 0 →
    s.team.setAsides.length < 2 →
    storePieces u u.team.fframe 4 (frameBytes u.team x) = .ok s1 → contOk s1 u.team u.team.fcont = true →
    ∃ t, tryRaise s x = some t ∧ t.team.pc = s.team.fcont ∧ t.team.fcont = 0 ∧ t.team.pix = 0 ∧ t.team.status = .ready ∧
      t.team.em = laneMask s.team.lanes ∧ t.team.dstk = [] ∧ t.team.lstk = [] ∧
      t.team.setAsides = ⟨s.team.em, s.team.dstk, s.team.lstk, s.team.fframe, x.pc, x.cause⟩ :: s.team.setAsides ∧
      t.team.sregs = s.team.sregs ∧ t.team.vregs = s.team.vregs ∧ t.team.masks = s.team.masks ∧
      t.team.cc = s.team.cc ∧ t.team.mode = s.team.mode ∧ t.team.fframe = s.team.fframe) ∧
  (∀ s x u w, u = drain s → inBody s.team = false → redirected x.cause = true → s.team.fcont ≠ 0 →
    s.team.setAsides.length < 2 → storePieces u u.team.fframe 4 (frameBytes u.team x) = .hold w → tryRaise s x = none) ∧
  (∀ s x u, u = drain s → s.team.status ≠ .vacant → inBody s.team = false →
    (redirected x.cause = false ∨ s.team.fcont = 0 ∨ 2 ≤ s.team.setAsides.length ∨
      storePieces u u.team.fframe 4 (frameBytes u.team x) = .fault ∨
      ∃ s1, storePieces u u.team.fframe 4 (frameBytes u.team x) = .ok s1 ∧ contOk s1 u.team u.team.fcont = false) →
    ∃ t, tryRaise s x = some t ∧ t.team.status = .halted x.cause ∧ t.team.pc = x.pc ∧ t.team.pix = x.pix ∧
      SameRegisters t.team s.team ∧ t.team.mode = s.team.mode ∧ t.team.fcont = s.team.fcont ∧
      t.team.setAsides = s.team.setAsides ∧ runnable t t.team = false) ∧
  (∀ c : Byte, redirected c = false ↔ c = 0x02 ∨ c = 0x40 ∨ c = 0x41 ∨ c = 0x50)

/-- Taking a stop: the frame that is written, as the team then reads it, and where it goes, or the halt (R400, R401, R403). That
the requests under way are performed before the frame is the model's choice (log 27). -/
def Obligations.StopsRedirectOrHaltWithAFrame : Prop := FaultFrameLayout ∧ RedirectionsWriteTheFrame ∧ StopsRedirectOrHalt

/-- A stop inside a capsule body is a capsule fault (R295): the step's stores are gone, the record is broken if the team owns
it, and the team halts with cause 0x40. The halt notice, KIND 3 and CODE 0x40, goes to the ring where it is open and its entry
can be reached (R312, R403), an entry that lies off the record and off every guarded byte; no other byte changes. -/
def Obligations.StopsInABodyBreakTheCapsule : Prop :=
  ∀ s x h u span, s.team.status ≠ .vacant → s.team.held = some h → s.dirty = [] →
    u = (if owns s s.team h.rcd then breakRecord s h.rcd else s) →
    span = hallSpan u s.team.part (partOf s s.team.part).scAsid .wr (ringSlot (partOf s s.team.part)) 128 →
    (∀ ps, ringOpen (partOf s s.team.part) = true → span = some ps → ∀ y ∈ ps, y.1 + y.2 ≤ h.rcd ∨ h.rcd + 256 ≤ y.1) →
    ∃ t, tryRaise s x = some t ∧ t.team.status = .halted 0x40 ∧ t.team.pc = x.pc ∧ t.team.held = none ∧ t.team.capBuf = [] ∧
      t.team.sregs = s.team.sregs ∧
      (owns s s.team h.rcd = true → wordAt_ t h.rcd % 2 = 0 ∧ wordAt_ t (h.rcd + 16) = 0 ∧
        wordAt_ t (h.rcd + 192) = 3 + wordAt_ s h.rcd / 2 ^ 32 * 2 ^ 32 ∧ h.rcd ∉ t.locks) ∧
      ((ringOpen (partOf s s.team.part) = false ∨ span = none) → ∀ a, ¬(h.rcd ≤ a ∧ a < h.rcd + 256) →
        memByte t a = memByte s a) ∧
      (∀ loc, ringOpen (partOf s s.team.part) = true → span = some [(loc, 128)] → HallOpen s → tagHit s loc 128 = none →
        lockHit s loc 128 = none → memNat t loc 4 = 3 ∧ memNat t (loc + 4) 4 = 0x40 ∧
        memNat t (loc + 8) 8 = (targetWord s.team.place).toNat ∧
        (partOf t s.team.part).scTail = (partOf s s.team.part).scTail + 1 ∧
        ∀ a, ¬(h.rcd ≤ a ∧ a < h.rcd + 256) → ¬(loc ≤ a ∧ a < loc + 128) → memByte t a = memByte s a)

namespace Sys2Proof

/-- What a return restores from a frame's bytes (R404): the most recent set-aside comes back, EM and both stacks, ORD stands, and
the captured MODE is the resumed instruction's. -/
def Restored (s1 t : State) (bs : List Byte) : Prop :=
  let w := fun off => natAt bs off 8
  t.team.pc = BitVec.ofNat 64 (w 8) ∧ t.team.pix = BitVec.ofNat 64 (w 16 % 2 ^ 32 + w 16 / 2 ^ 63 * 2 ^ 63) ∧
    t.team.cc = BitVec.ofNat 7 (w 40) ∧
    t.team.mode = BitVec.ofNat 6 (w 48 % 32 + (if s1.team.mode.getLsbD 5 then 32 else 0)) ∧
    t.team.cmode = BitVec.ofNat 6 (w 56) ∧ t.team.useCmode = true ∧
    t.team.fcont = BitVec.ofNat 64 (w 64 / 4 * 4) ∧
    (∀ i, 1 ≤ i → i < 64 → sget t.team (BitVec.ofNat 6 i) = BitVec.ofNat 64 (w (72 + 8 * (i - 1)))) ∧
    (match s1.team.setAsides with
      | [] => t.team.em = s1.team.em ∧ t.team.dstk = s1.team.dstk ∧ t.team.lstk = s1.team.lstk ∧ t.team.setAsides = []
      | a :: rest => t.team.em = a.em ∧ t.team.dstk = a.dstk ∧ t.team.lstk = a.lstk ∧ t.team.setAsides = rest) ∧
    t.team.vregs = s1.team.vregs ∧ t.team.masks = s1.team.masks ∧ t.team.status = .ready ∧
    ∀ a, memByte t a = memByte s1 a

/-- The frame at an address as the team reads it, whose PC may be returned to, and whose PIX is not begun or names a lane-word
of an instruction there that a stop may leave part-way. -/
def FrameAt (s : State) (va : Word) (bs : List Byte) : Prop :=
  ∃ ps, framePieces s va = .ok ps ∧ (ps.any fun x => poisonedIn s x.1 x.2) = false ∧ bs = pieceBytes s ps ∧
    bs.length = 1024 ∧ NoRequests s ∧ scalarsDue s.team = [] ∧
    (natAt bs 16 8 < 2 ^ 63 ∨ stoppableAt s (BitVec.ofNat 64 (natAt bs 8 8)) = true ∧
      natAt bs 16 8 % 2 ^ 32 < s.team.lanes / 32) ∧
    (pcUnchanged s.team va (BitVec.ofNat 64 (natAt bs 8 8)) = true ∨
      badTarget s s.team (BitVec.ofNat 64 (natAt bs 8 8)) = none)

end Sys2Proof

/-- RFT and RESUME return from a frame (R288, R404); RESUME waits while DONE is 0. -/
def Obligations.ReturnsRestoreTheFrame : Prop :=
  (∀ a s s1 bs, Issues (.rft a) s s1 → FrameAt s1 (sget s1.team a.r) bs →
    ∃ t, exec (.rft a) s = .next t ∧ Restored s1 t bs) ∧
  (∀ a s s1 bs, Issues (.resume a) s s1 → FrameAt s1 (sget s1.team a.r) bs → natAt bs 0 8 ≠ 0 →
    ∃ t, exec (.resume a) s = .next t ∧ Restored s1 t bs) ∧
  (∀ a s s1 bs, Issues (.resume a) s s1 → FrameAt s1 (sget s1.team a.r) bs → natAt bs 0 8 = 0 →
    ∃ u, NotedRead s1 u ∧ exec (.resume a) s = .next (waitsAt u (if ordered s1.team then .quantum else .done)))

/-- Issue, for every instruction of a team that waits for no reply (R55, R56, R410): a register with W = 1 or a destination that
no result can reach yet holds it; then a breach of a capsule body, an illegal use, an empty source, each in this order, stops
it, and a poisoned source halts it with cause 0x50 CODE 4 (R445). That the waits come before the checks is the model's reading
(log 23). -/
def Obligations.IssueChecksComeInOrder : Prop :=
  ∀ i s, encode i ≠ [] → s.team.asked = false →
    (awaitAll s (waitsFor i.uses) = none → exec i s = .next (waitsAt s (stallKind s.team (waitsFor i.uses)))) ∧
    ∀ s1, awaitAll s (waitsFor i.uses) = some s1 →
      (bodyBreach i s1 = true → exec i s = .next (stopAt s s1 { cause := 0x40, pc := s1.team.pc })) ∧
      (∀ x, bodyBreach i s1 = false → preUse i s1 = some x → exec i s = .next (stopAt s s1 x)) ∧
      (∀ x, bodyBreach i s1 = false → preUse i s1 = none → emptySource i.uses s1.team = some x →
        exec i s = .next (stopAt s s1 x)) ∧
      (bodyBreach i s1 = false → preUse i s1 = none → emptySource i.uses s1.team = none →
        i.uses.reads.any (destPoisoned s1.team) = true →
        exec i s = .next (stopAt s s1 { cause := 0x50, pc := s1.team.pc, code := 4, pix := pixKept s1.team }))

/-! ### System mode -/

/-- The instructions of OPC 0x3C run on the hall's control cores alone (R289): anywhere else, outside a capsule body, each is
illegal use 0x008, whatever its operands. -/
def Sys2Proof.SystemInstructionsNeedTheHall : Prop :=
  ∀ i s s1, s.team.asked = false → awaitAll s (waitsFor i.uses) = some s1 → s1.team.place.die ≠ 8 →
    inBody s1.team = false →
    ((∃ a b c, i = .tlbinv a b c) ∨ (∃ a, i = .tlbinvAll a) ∨ (∃ a b, i = .ctxsv a b) ∨ (∃ a b, i = .ctxld a b) ∨
      (∃ a, i = .park a) ∨ (∃ a, i = .unpark a)) →
    exec i s = .next (stopAt s s1 { cause := 0x23, pc := s1.team.pc, code := 8 })

namespace Sys2Proof

/-- A target word names a context that the team may name (R289). -/
def MayName (s : State) (w : Word) (p : Place) : Prop :=
  p = ⟨BitVec.ofNat 4 (w.toNat / 2 ^ 16), BitVec.ofNat 6 (w.toNat / 2 ^ 8), BitVec.ofNat 5 w.toNat⟩ ∧
    coreLive s p.die.toNat p.core.toNat = true ∧
    (s.team.ctl = true → partOfCluster s (p.die.toNat * 6 + p.core.toNat / 8) = some s.team.part)

/-- A team is in context p, and it is not the issuing one. -/
def InContext (s : State) (p : Place) (t : Team) : Prop := s.team.place ≠ p ∧ teamAt s p = some t

end Sys2Proof

/-- TLBINV performs every access under way and every dirty byte, and waits while an access made through a translation of the ASID
is buffered or held (R75, R289; which accesses, log 20); PARK and UNPARK give the target a reason to be parked and take it away, and PARK waits for
a capsule request under way and for the PARKED write (R299, R300); CTXSV saves a stopped team, and CTXLD loads the context whose
bytes stand in its area (log 16) and says so in Z (R405). A name that may not be used is illegal use 0x009; the bits of a target
word that name nothing are ignored (log 70). -/
def Sys2Proof.SystemInstructionsActOnTheirTarget : Prop :=
  (∀ i a s s1, ((∃ b c, i = .tlbinv a b c) ∨ i = .tlbinvAll a) → Goes i s s1 →
    ((s1.team.ctl = true → (partOf s1 s1.team.part).asidBase.toNat ≤ (sget s1.team a.r).toNat % 2 ^ 13 ∧
      (sget s1.team a.r).toNat % 2 ^ 13 < (partOf s1 s1.team.part).asidBase.toNat + (partOf s1 s1.team.part).asidCount.toNat) →
      (translationsHeld s1 ((sget s1.team a.r).toNat % 2 ^ 13) = true → exec i s = .next (waitsAt s1 .resource)) ∧
      (translationsHeld s1 ((sget s1.team a.r).toNat % 2 ^ 13) = false →
        ∃ t, exec i s = .next (goesOn t (nextPc i s)) ∧ t.service = [] ∧ t.dirty = [] ∧ t.team.sregs = s1.team.sregs ∧
          (Settled s1 → t = s1)))) ∧
  (∀ i a s s1, ((∃ b c, i = .tlbinv a b c) ∨ i = .tlbinvAll a) → Judged i a s s1 → s1.team.ctl = true →
    ¬((partOf s1 s1.team.part).asidBase.toNat ≤ (sget s1.team a.r).toNat % 2 ^ 13 ∧ (sget s1.team a.r).toNat % 2 ^ 13 <
      (partOf s1 s1.team.part).asidBase.toNat + (partOf s1 s1.team.part).asidCount.toNat) →
      exec i s = .next (stopAt s s1 { cause := 0x23, pc := s1.team.pc, code := 9 })) ∧
  (∀ a s s1 p u, Goes (.park a) s s1 → MayName s1 (sget s1.team a.r) p → InContext s1 p u →
    capPending u = false → (∀ w ∈ s1.capWrites, w.place = p → w.run = true) →
    (u.held = none ∨ ordered u = true ∨ u.parks ≠ []) → ∃ t, exec (.park a) s = .next t ∧
      (∃ v, teamAt t p = some v ∧ ParkReason.sys ∈ v.parks ∧ v.sregs = u.sregs ∧ v.pc = u.pc ∧ runnable t v = false) ∧
      t.team.pc = nextPc (.park a) s ∧ SameRegisters t.team s1.team) ∧
  (∀ a s s1 p u, Goes (.park a) s s1 → MayName s1 (sget s1.team a.r) p → InContext s1 p u →
    (capPending u = true ∨ (u.held ≠ none ∧ ordered u = false ∧ u.parks = [])) →
    exec (.park a) s = .next (waitsAt (parkTeam s1 p .sys) .resource)) ∧
  (∀ a s s1 p u, Goes (.unpark a) s s1 → MayName s1 (sget s1.team a.r) p → InContext s1 p u →
    ∃ t, exec (.unpark a) s = .next t ∧
      (∃ v, teamAt t p = some v ∧ (ParkReason.sys ∈ u.parks → v.parks = u.parks.filter (· != .sys)) ∧
        v.sregs = u.sregs ∧ ∀ c, v.status ≠ .halted c) ∧
      t.team.pc = nextPc (.unpark a) s ∧ SameRegisters t.team s1.team) ∧
  (∀ a b s s1 p u ps, Goes (.ctxsv a b) s s1 → MayName s1 (sget s1.team a.r) p → InContext s1 p u → stopped u = true →
    s1.service = [] → (∀ w ∈ s1.capWrites, w.place = p → w.run = true) → (sget s1.team b.r).toNat % 4096 = 0 →
    locateSpan s1 s1.team.who .wr (sget s1.team b.r) (16384 + u.lanes * u.vregCount * 8) = .ok ps →
    spanHeld s1 s1.team.who .wr ps = false →
    ∃ t n, exec (.ctxsv a b) s = .next t ∧ t.saved = s1.saved ++ [⟨n, 16384 + u.lanes * u.vregCount * 8, u⟩] ∧
      teamAt t p = some u ∧ t.team.pc = nextPc (.ctxsv a b) s ∧ SameRegisters t.team s1.team) ∧
  (∀ a b s s1 p u ps, Goes (.ctxld a b) s s1 → MayName s1 (sget s1.team a.r) p → InContext s1 p u → stopped u = true →
    s1.dirty = [] → NoRequests s1 → (sget s1.team b.r).toNat % 4096 = 0 →
    locateSpan s1 s1.team.who .rd (sget s1.team b.r) 4096 = .ok ps → spanHeld s1 s1.team.who .rd ps = false →
    ∃ y, NotedRead s1 y ∧
    (savedIn y (sget s1.team b.r) = none → exec (.ctxld a b) s = .next (goesOn (withTeam y fun t =>
      { t with cc := t.cc &&& 0x7E }) (nextPc (.ctxld a b) s))) ∧
    (∀ v, savedIn y (sget s1.team b.r) = some v → ∃ t w, exec (.ctxld a b) s = .next t ∧ teamAt t p = some w ∧
      w.sregs = v.team.sregs ∧ w.vregs = v.team.vregs ∧ w.masks = v.team.masks ∧ w.em = v.team.em ∧ w.cc = v.team.cc ∧
      w.pc = v.team.pc ∧ w.mode = v.team.mode ∧ w.setAsides = v.team.setAsides ∧ w.held = v.team.held ∧
      w.parks = u.parks.filter (· != .sys) ∧ t.team.cc = s1.team.cc ||| 1 ∧ t.team.sregs = s1.team.sregs)) ∧
  (∀ i a s s1, (i = .park a ∨ i = .unpark a ∨ (∃ b, i = .ctxsv a b) ∨ ∃ b, i = .ctxld a b) → Judged i a s s1 →
    coreLive s1 ((sget s1.team a.r).toNat / 2 ^ 16 % 16) ((sget s1.team a.r).toNat / 2 ^ 8 % 64) = false →
    exec i s = .next (stopAt s s1 { cause := 0x23, pc := s1.team.pc, code := 9 }))

/-- TLBINV, CTXSV, CTXLD, PARK and UNPARK: illegal use off the hall, and their effect on the context that they name (R289, R405).
What TLBINV performs and waits for, how CTXLD knows a saved context, and the ignored bits of a target word are the model's (logs
20, 16, 70). -/
def Obligations.SystemInstructionsRunOnTheHall : Prop := SystemInstructionsNeedTheHall ∧ SystemInstructionsActOnTheirTarget

/-! ### Commands -/

namespace Sys2Proof

/-- A command with the handle has been taken and has completed (R309): a handle is the queue's number above the value of HEAD. -/
def HandleDone (s : State) (p : BitVec 4) (h : Word) : Prop :=
  h.toNat % 2 ^ 58 < (queueOf s p (h.toNat / 2 ^ 58)).head.toNat ∧ h ∉ (partOf s p).pending

/-- AFTER lets the command begin; it makes it wait; or the command that it names was cancelled (R309, R327). -/
def MayBegin (s : State) (c : Cmd) : Prop := ∀ h ∈ c.after, HandleDone s c.part h ∧ h ∉ (partOf s c.part).cancelled
def MustWait (s : State) (c : Cmd) : Prop := ∃ h ∈ c.after, ¬HandleDone s c.part h
def AfterGone (s : State) (c : Cmd) : Prop :=
  ∃ h ∈ c.after, HandleDone s c.part h ∧ h ∈ (partOf s c.part).cancelled

/-- Where the n bytes at an address of the queue's ASID lie (R463): pieces, none of which meets another, with no way closed. -/
def HallWrites (s : State) (p : BitVec 4) (asid : BitVec 13) (va : Word) (n : Nat) (ps : List (Nat × Nat)) : Prop :=
  hallSpan s p asid .wr va n = some ps ∧ s.dirty = [] ∧ Unguarded s ∧ HallOpen s ∧
    ps.Pairwise fun x y => x.1 + x.2 ≤ y.1 ∨ y.1 + y.2 ≤ x.1

/-- In t the pieces hold the bytes, and every other byte of memory is as in s. -/
def WrittenAt (s t : State) (ps : List (Nat × Nat)) (bs : List Byte) : Prop :=
  (ps.flatMap fun x => memBytes t x.1 x.2) = bs ∧
    ∀ a, (∀ x ∈ ps, ¬(x.1 ≤ a ∧ a < x.1 + x.2)) → memByte t a = memByte s a

/-- The n bytes at an address of the queue's ASID, none of them poisoned, with no L1 holding a byte dirty; in u the caches and
the annex directory have noted the hall's read (R80, R362). -/
def HallReads (s : State) (c : Cmd) (va : Word) (n : Nat) (bs : List Byte) (u : State) : Prop :=
  s.dirty = [] ∧ HallOpen s ∧ ∃ ps, hallSpan s c.part (queueOf s c.part c.queue.toNat).asid .rd va n = some ps ∧
    (∀ x ∈ ps, poisonedIn s x.1 x.2 = false) ∧ (bs = ps.flatMap fun x => farBytes s c.part x.1 x.2) ∧
    u = readPiecesL2 s 8 (queueOf s c.part c.queue.toNat).asid ps

/-- The commands that need nothing but their AFTER to begin, once their own fields are in range. -/
def plainCommand (i : Instr) : Option Cmd :=
  match i with
  | .nop c | .signal c _ _ | .wait c _ _ | .phaseEnd c _ | .jobBegin c | .jobEnd c _ | .subscribeRemove c _
  | .syscReply c _ _ => some c
  | .graphEditLoad c st _ | .graphEditSetnode c st _ _ | .graphEditDrop c st => if st.toNat < 16 then some c else none
  | .copy c d => if d.toNat % 64 = 0 then some c else none
  | .subscribe c r => if subOk r then some c else none
  | .resync c a => if a.toNat % 4096 = 0 then some c else none
  | _ => none

/-- Beneath a level that is being cancelled nothing new runs (R41). -/
def ParentRuns (s : State) (parent : Option Nat) : Prop := ∀ k ∈ parent, ∀ l, levelAt s k = some l → l.cancelPending = false

/-- A launch's record and descriptor pass their checks (R315, R316, R431); n has noted the read of the descriptor. -/
def LaunchGood (s : State) (c : Cmd) (r : LaunchRec) (kd : KDesc) (n : State) : Prop :=
  launchFields r = true ∧ asidUsable s c.part c.asid.toNat = true ∧
    readKDesc s c.part (c.asid.setWidth 13) r.kdesc = .ok (kd, n) ∧
    (kd.ordered = true → anyMeet r.blocks.toNat (launchRanges kd r.wbase) = false) ∧ fitsSomewhere n c.part kd = true

/-- A cancelled command has completed so, and the level l that it opens is one whose children are cancelled. -/
def CancelledOpen (t : State) (c : Cmd) (l : Level) (k : LevelKind) : Prop :=
  l ∈ t.levels ∧ l.kind = k ∧ l.part = c.part ∧ l.handle = handleAt c.queue.toNat c.head.toNat ∧ l.cancelPending = true ∧
    handleAt c.queue.toNat c.head.toNat ∈ (partOf t c.part).cancelled

/-- The queue's state with a command that holds it. -/
def heldBy (s : State) (c : Cmd) (i : Instr) : State :=
  setQueue s c.part c.queue.toNat { queueOf s c.part c.queue.toNat with held := some { cmd := i } }

end Sys2Proof

/-- A command that completes leaves the list of those taken and not complete, and writes its completion word: TAG, the error
code, the flags rejected and cancelled, and done (R310). With COMPL 0 it writes none. -/
def Obligations.CompletionWords : Prop :=
  (∀ s c err rej can, (partOf (completeCmd s c err rej can) c.part).pending = (partOf s c.part).pending.filter (· != c.handle) ∧
    ∀ h, h ∈ (partOf (completeCmd s c err rej can) c.part).cancelled ↔
      h ∈ (partOf s c.part).cancelled ∨ (can = true ∧ h = c.handle)) ∧
  (∀ s c err rej can, c.compl = 0 → (completeCmd s c err rej can).mem = s.mem) ∧
  (∀ s c (err : Byte) rej can ps, c.compl ≠ 0 → HallWrites s c.part c.asid c.compl 8 ps →
    ∃ bs, WrittenAt s (completeCmd s c err rej can) ps bs ∧ natAt bs 4 4 = c.tag.toNat ∧ natAt bs 2 2 = 0 ∧
      natAt bs 1 1 = err.toNat ∧ natAt bs 0 1 = 1 + 2 * can.toNat + 4 * rej.toNat)

/-- A command waits at its AFTER and holds its queue (R309, R311); behind a cancelled one it is cancelled (R327), and so is one
whose parent is being cancelled (R41), a phase or job standing open all the same until its END (the model's reading, log 92); and
once the command named has completed, it begins as it would have, a RATE.WRITE in the order in which it was taken (R335). -/
def Obligations.CommandsWaitForTheirAfter : Prop :=
  (∀ i c s, plainCommand i = some c → MustWait s c → exec i s = .next (heldBy s c i)) ∧
  (∀ i c s, plainCommand i = some c → AfterGone s c → i ≠ .jobBegin c →
    exec i s = .next (settleCancels (completeCmd s ⟨c.part, handleAt c.queue.toNat c.head.toNat, c.tag, c.compl,
      (queueOf s c.part c.queue.toNat).asid⟩ 0 false true))) ∧
  (∀ c s, AfterGone s c → (partOf s c.part).openJob = none → ∃ t l, exec (.jobBegin c) s = .next t ∧ CancelledOpen t c l .job ∧
    (partOf t c.part).openJob = some l.serial) ∧
  (∀ c s, AfterGone s c ∨ ¬ParentRuns s (partOf s c.part).openJob → (partOf s c.part).openPhase = none →
    ∃ t l, exec (.phaseBegin c) s = .next t ∧ CancelledOpen t c l .phase ∧ (partOf t c.part).openPhase = some l.serial) ∧
  (∀ c r s kd n, LaunchGood s c r kd n → AfterGone s c ∨ ¬ParentRuns s (partOf s c.part).openPhase →
    ∃ t, exec (.launch c r) s = .next t ∧ handleAt c.queue.toNat c.head.toNat ∈ (partOf t c.part).cancelled ∧
      (∀ l ∈ t.levels, ∃ k ∈ s.levels, l = k ∨ l = { k with cancelled := true })) ∧
  (∀ c (v : BitVec 32) s, c.part = 0 → 0x1000 ≤ v.toNat → v.toNat ≤ 0x10000000 → MustWait s c →
    exec (.rateWrite c v) s = .next (setQueue (bumpSerial s) c.part c.queue.toNat
      { queueOf s c.part c.queue.toNat with held := some { cmd := .rateWrite c v, order := s.serial + 1 } })) ∧
  (∀ c (v : BitVec 32) s n, (queueOf s c.part c.queue.toNat).held = some { cmd := .rateWrite c v, order := n } → MayBegin s c →
    let f := freeQueue s c.part c.queue.toNat
    exec (.commandAfterRelease c.part c.queue) s =
      .next (finishCmd (if s.targetOrder ≤ n then { f with target := v, targetOrder := n } else f) c)) ∧
  (∀ i c s t, plainCommand i = some c → (queueOf s c.part c.queue.toNat).held = some { cmd := i } → MayBegin s c →
    exec i (freeQueue s c.part c.queue.toNat) = .next t → (queueOf t c.part c.queue.toNat).held = none →
    exec (.commandAfterRelease c.part c.queue) s = .next t) ∧
  (∀ c s, (queueOf s c.part c.queue.toNat).held = some { cmd := .nop c } → MayBegin s c →
    exec (.commandAfterRelease c.part c.queue) s = .next (finishCmd (freeQueue s c.part c.queue.toNat) c)) ∧
  (∀ i c s, plainCommand i = some c → (queueOf s c.part c.queue.toNat).held = some { cmd := i } → MustWait s c →
    exec (.commandAfterRelease c.part c.queue) s = .next s) ∧
  (∀ c s addr v bs u, (queueOf s c.part c.queue.toNat).held = some { cmd := .wait c addr v } → MayBegin s c →
    HallReads (freeQueue s c.part c.queue.toNat) c addr 8 bs u → exec (.waitConditionMet c.part c.queue) s =
      .next (if v.toNat ≤ natAt bs 0 8 then finishCmd u c else s))

/-- NOP, SIGNAL, WAIT, RATE.WRITE, SUBSCRIBE, TLBINV, SYSC.REPLY and RESYNC do their work as they begin, and complete
(R311, R312, R314, R335, R349, R457); an address that cannot be reached gives error code 0x86, without the rejected flag (the
model's reading of R463, log 39), and a field out of range rejects the record (R431). What TLBINV performs, and what makes it hold
its queue, is log 20. -/
def Obligations.CommandsActOnTheirWords : Prop :=
  (∀ c s, MayBegin s c → exec (.nop c) s = .next (finishCmd s c)) ∧
  (∀ c addr v s ps, MayBegin s c → HallWrites s c.part (queueOf s c.part c.queue.toNat).asid addr 8 ps →
    ∃ t, exec (.signal c addr v) s = .next (finishCmd t c) ∧ WrittenAt s t ps (bytesOfNat 8 v.toNat) ∧ t.parts = s.parts ∧
      t.levels = s.levels) ∧
  (∀ c addr v s, MayBegin s c → hallSpan s c.part (queueOf s c.part c.queue.toNat).asid .wr addr 8 = none →
    exec (.signal c addr v) s = .next (failCmd s c)) ∧
  (∀ c addr v s bs u, MayBegin s c → HallReads s c addr 8 bs u →
    exec (.wait c addr v) s = .next (if v.toNat ≤ natAt bs 0 8 then finishCmd u c else heldBy s c (.wait c addr v))) ∧
  (∀ c (v : BitVec 32) s, MayBegin s c → c.part = 0 → 0x1000 ≤ v.toNat → v.toNat ≤ 0x10000000 →
    s.targetOrder ≤ s.serial + 1 →
    exec (.rateWrite c v) s = .next (finishCmd { bumpSerial s with target := v, targetOrder := s.serial + 1 } c)) ∧
  (∀ c v s, c.part ≠ 0 → exec (.rateWrite c v) s = .next (rejectCmd s c 0x84)) ∧
  (∀ c (v : BitVec 32) s, c.part = 0 → v.toNat < 0x1000 ∨ 0x10000000 < v.toNat →
    exec (.rateWrite c v) s = .next (rejectCmd s c 0x83)) ∧
  (∀ c r s, MayBegin s c → subOk r = true →
    ((partOf s c.part).subs.filter fun x => x.id != r.id).length < quota s c.part 6 →
    ∃ t x, exec (.subscribe c r) s = .next (finishCmd t c) ∧
      (partOf t c.part).subs = (partOf s c.part).subs.filter (fun x => x.id != r.id) ++ [x] ∧
      x.id = r.id ∧ x.kind = r.kind ∧ x.dir = r.dir ∧ x.die = r.die ∧ x.value = r.value ∧ x.note = r.note ∧ x.last = [] ∧
      t.mem = s.mem) ∧
  (∀ c r s, MayBegin s c → subOk r = true →
    quota s c.part 6 ≤ ((partOf s c.part).subs.filter fun x => x.id != r.id).length →
    ∃ t, exec (.subscribe c r) s = .next t ∧ (queueOf t c.part c.queue.toNat).held = some { cmd := .subscribe c r, spent := [6] } ∧
      mapGet 0 (partOf t c.part).thr 6 = mapGet 0 (partOf s c.part).thr 6 + 1 ∧ (partOf t c.part).subs = (partOf s c.part).subs) ∧
  (∀ c id s, MayBegin s c → ∃ t, exec (.subscribeRemove c id) s = .next (finishCmd t c) ∧ t.mem = s.mem ∧
    ∀ x, x ∈ (partOf t c.part).subs ↔ x ∈ (partOf s c.part).subs ∧ x.id ≠ id) ∧
  (∀ c (asid : BitVec 16) all start len s, MayBegin s c → (all = false ∨ len = 0) →
    (partOf s c.part).asidBase.toNat ≤ asid.toNat →
    asid.toNat < (partOf s c.part).asidBase.toNat + (partOf s c.part).asidCount.toNat → Settled s →
    exec (.tlbinvCommand c asid all start len) s =
      .next (if translationsHeld s asid.toNat then heldBy s c (.tlbinvCommand c asid all start len) else finishCmd s c)) ∧
  (∀ c (asid : BitVec 16) all start len s, (all = false ∨ len = 0) →
    ¬((partOf s c.part).asidBase.toNat ≤ asid.toNat ∧
      asid.toNat < (partOf s c.part).asidBase.toNat + (partOf s c.part).asidCount.toNat) →
    exec (.tlbinvCommand c asid all start len) s = .next (rejectCmd s c 0x81)) ∧
  (∀ c token vals s p u, MayBegin s c → teamAt s p = some u → u.part = c.part → u.status = .sysc token →
    ∃ t v, exec (.syscReply c token vals) s = .next (finishCmd t c) ∧ teamAt t p = some v ∧ v.status = .ready ∧
      v.reply.isSome = true ∧ v.pc = u.pc ∧ v.vregs = u.vregs ∧
      (∀ i < 4, sget v (BitVec.ofNat 6 (i + 1)) = vals.getD i 0) ∧ ∀ r : SReg, 4 < r.toNat → sget v r = sget u r) ∧
  (∀ c token vals s, MayBegin s c → (∀ u ∈ everyTeam s, ¬(u.part = c.part ∧ u.status = .sysc token)) →
    exec (.syscReply c token vals) s = .next (rejectCmd s c 0x85)) ∧
  (∀ c addr s loc, MayBegin s c → addr.toNat % 4096 = 0 →
    HallWrites s c.part (queueOf s c.part c.queue.toNat).asid addr 4096 [(loc, 4096)] →
    ∃ t, exec (.resync c addr) s = .next (finishCmd t c) ∧ t.parts = s.parts ∧ memNat t loc 8 = 1 ∧
      memNat t (loc + 8) 8 = t.time % 2 ^ 64 ∧ s.time ≤ t.time ∧
      memNat t (loc + 16) 2 = s.seq.toNat ∧ memNat t (loc + 20) 4 = c.part.toNat ∧
      (∀ q < 64, memNat t (loc + 64 + 16 * q) 8 = (queueOf s c.part q).head.toNat ∧
        memNat t (loc + 72 + 16 * q) 8 % 8 = (queueOf s c.part q).en.toNat + 2 * (queueOf s c.part q).prio.toNat) ∧
      (∀ k l, (ownLevels s c.part)[k]? = some l → k < 64 → memNat t (loc + 1088 + 16 * k) 8 = l.handle.toNat) ∧
      ∀ a, ¬(loc ≤ a ∧ a < loc + 4096) → memByte t a = memByte s a) ∧
  (∀ c addr s, addr.toNat % 4096 ≠ 0 → exec (.resync c addr) s = .next (rejectCmd s c 0x83))

/-- GRAPH.EDIT copies an image, or one node record, into the store, or empties it (R322, R323); COPY gives its descriptor's
work to an engine of the hall and completes with it (R311); a store number above 15 or an image that breaks a rule rejects
the record, and so do a misaligned COPY descriptor (the model's reading, log 39) and SETNODE on an empty store (its choice, log
79). -/
def Obligations.GraphEditsAndCopies : Prop :=
  (∀ c (st : BitVec 8) addr s u v hd body g, MayBegin s c → st.toNat < 16 → HallReads s c addr 16 hd u →
    0 < natAt hd 0 2 → natAt hd 0 2 ≤ 256 → natAt hd 2 2 ≤ 1024 → zeroBytes hd 4 16 = true →
    HallReads u c (addr + 16) (256 * natAt hd 0 2 + 8 * natAt hd 2 2) body v →
    parseGraph (natAt hd 0 2) (natAt hd 2 2) body = some g →
    ∃ t, exec (.graphEditLoad c st addr) s = .next (finishCmd t c) ∧ graphStore t c.part st.toNat = some g ∧ t.mem = s.mem ∧
      ∀ k, k ≠ st.toNat → graphStore t c.part k = graphStore s c.part k) ∧
  (∀ c (st : BitVec 8) addr s u hd, MayBegin s c → st.toNat < 16 → HallReads s c addr 16 hd u →
    (natAt hd 0 2 = 0 ∨ 256 < natAt hd 0 2 ∨ 1024 < natAt hd 2 2) →
    exec (.graphEditLoad c st addr) s = .next (rejectCmd u c 0x83)) ∧
  (∀ c (st : BitVec 8) (n : BitVec 16) addr s u bs g r a, MayBegin s c → st.toNat < 16 →
    graphStore s c.part st.toNat = some g → n.toNat < g.nodes.length → HallReads s c addr 256 bs u →
    nodeRecord bs = some (r, a) →
    ∃ t h, exec (.graphEditSetnode c st n addr) s = .next (finishCmd t c) ∧ graphStore t c.part st.toNat = some h ∧
      h.nodes[n.toNat]? = some r ∧ h.edges = g.edges ∧ (∀ k, k ≠ n.toNat → h.nodes[k]? = g.nodes[k]?) ∧ t.mem = s.mem) ∧
  (∀ c (st : BitVec 8) n addr s, MayBegin s c → st.toNat < 16 → graphStore s c.part st.toNat = none →
    exec (.graphEditSetnode c st n addr) s = .next (rejectCmd s c 0x83)) ∧
  (∀ c (st : BitVec 8) s, MayBegin s c → st.toNat < 16 →
    ∃ t, exec (.graphEditDrop c st) s = .next (finishCmd t c) ∧ graphStore t c.part st.toNat = none ∧
      (∀ k, k ≠ st.toNat → graphStore t c.part k = graphStore s c.part k) ∧ t.levels = s.levels ∧ t.mem = s.mem) ∧
  (∀ c (st : BitVec 8) n addr s, 16 ≤ st.toNat → ∀ i, (i = .graphEditLoad c st addr ∨ i = .graphEditSetnode c st n addr ∨
    i = .graphEditDrop c st ∨ i = .graphRun c st) → exec i s = .next (rejectCmd s c 0x83)) ∧
  (∀ c desc s u v hd bs w, MayBegin s c → desc.toNat % 64 = 0 → HallReads s c desc 64 hd u →
    1 ≤ natAt hd 1 1 → natAt hd 1 1 ≤ 16 → HallReads u c desc (64 + 24 * natAt hd 1 1) bs v →
    parseCpy v ⟨c.part, (queueOf s c.part c.queue.toNat).asid, hallPlace, 0, 0⟩ bs = some w →
    ∃ o, exec (.copy c desc) s = .next { v with engines := s.engines ++ [o], serial := s.serial + 1 } ∧ o.work = w ∧
      o.cls = .cpy ∧ o.counted = false ∧ o.state = .running ∧ o.unit = 0 ∧ o.place.die = 8 ∧
      o.command = some ⟨c.part, handleAt c.queue.toNat c.head.toNat, c.tag, c.compl, (queueOf s c.part c.queue.toNat).asid⟩) ∧
  (∀ c desc s, desc.toNat % 64 ≠ 0 → exec (.copy c desc) s = .next (rejectCmd s c 0x83))

namespace Sys2Proof

/-- One more child of the level with a serial number. -/
def oneMoreChild (parent : Option Nat) (l : Level) : Level :=
  if parent = some l.serial then { l with children := l.children + 1 } else l

/-- The level of kind k that command c opens. -/
def Opened (s : State) (c : Cmd) (k : LevelKind) (parent : Option Nat) (l : Level) : Prop :=
  l.kind = k ∧ l.part = c.part ∧ l.handle = handleAt c.queue.toNat c.head.toNat ∧ l.serial = s.serial ∧ l.parent = parent ∧
    l.tag = c.tag ∧ l.compl = c.compl ∧ l.cancelPending = false ∧ l.err = 0 ∧ l.cancelled = false

/-- The nodes' records and descriptors pass their checks, one after another, from s on; n has noted the reads. -/
def NodesGood (c : Cmd) : State → List (LaunchRec × BitVec 16) → State → Prop
  | s, [], n => n = s
  | s, (r, a) :: rest, n => ∃ kd m, LaunchGood s { c with asid := a } r kd m ∧ NodesGood c m rest n

/-- Dispenser rings that a record names. -/
def ringsOf (r : LaunchRec) : Nat := (r.tqhdr.filter fun h => h != 0).length

end Sys2Proof

/-- PHASE.BEGIN and JOB.BEGIN open a level that its END completes once its counter is zero; a LAUNCH and a GRAPH.RUN become
levels, children of the open phase, whose blocks and nodes are then dispatched where they fit (R38, R311, R315, R324, R325,
R464); CTRL.RUN starts its one team on a control core (R313). -/
def Obligations.CommandsOpenTheirLevels : Prop :=
  (∀ c s, MayBegin s c → (partOf s c.part).openPhase = none → ParentRuns s (partOf s c.part).openJob →
    ∃ t l, exec (.phaseBegin c) s = .next t ∧ Opened s c .phase (partOf s c.part).openJob l ∧ l.children = 0 ∧
      l.ended = false ∧ t.levels = s.levels.map (oneMoreChild (partOf s c.part).openJob) ++ [l] ∧
      (partOf t c.part).openPhase = some s.serial ∧ (partOf t c.part).pending = (partOf s c.part).pending ∧ t.mem = s.mem) ∧
  (∀ c s, MayBegin s c → (partOf s c.part).openJob = none →
    ∃ t l, exec (.jobBegin c) s = .next t ∧ Opened s c .job none l ∧ l.children = 0 ∧ l.ended = false ∧
      t.levels = s.levels ++ [l] ∧ (partOf t c.part).openJob = some s.serial ∧ t.mem = s.mem) ∧
  (∀ c s k, MayBegin s c → (partOf s c.part).openJob = some k → exec (.jobBegin c) s = .next (rejectCmd s c 0x83)) ∧
  (∀ c s k l, MayBegin s c → (partOf s c.part).openPhase = some k → levelAt s k = some l →
    ∃ t, exec (.phaseEnd c l.handle) s = .next t ∧ (partOf t c.part).openPhase = none ∧
      handleAt c.queue.toNat c.head.toNat ∉ (partOf t c.part).pending ∧
      (l.children ≠ 0 → levelAt t k = some { l with ended := true }) ∧ (l.children = 0 → levelAt t k = none)) ∧
  (∀ c s k l, MayBegin s c → (partOf s c.part).openJob = some k → levelAt s k = some l →
    ∃ t, exec (.jobEnd c l.handle) s = .next t ∧ (partOf t c.part).openJob = none ∧
      handleAt c.queue.toNat c.head.toNat ∉ (partOf t c.part).pending ∧
      (l.children ≠ 0 → levelAt t k = some { l with ended := true }) ∧ (l.children = 0 → levelAt t k = none)) ∧
  (∀ c s h, MayBegin s c → (∀ k l, (partOf s c.part).openPhase = some k → levelAt s k = some l → l.handle ≠ h) →
    exec (.phaseEnd c h) s = .next (rejectCmd s c 0x83)) ∧
  (∀ c r s kd n, MayBegin s c → LaunchGood s c r kd n → ParentRuns s (partOf s c.part).openPhase →
    (ringsOf r = 0 ∨ ringsUsed s c.part + ringsOf r ≤ quota s c.part 5) →
    ∃ t l, exec (.launch c r) s = .next (fillAll t) ∧ Opened s c .launch (partOf s c.part).openPhase l ∧
      l.children = r.blocks.toNat ∧ l.blocks = r.blocks.toNat ∧ l.next = 0 ∧ l.ended = true ∧ l.kd = kd ∧ l.args = r.args ∧
      l.launch = (partOf s c.part).launchNo ∧ (partOf t c.part).launchNo = (partOf s c.part).launchNo + 1 ∧
      t.levels = s.levels.map (oneMoreChild (partOf s c.part).openPhase) ++ [l] ∧ t.mem = n.mem) ∧
  (∀ c r s, launchFields r = false → exec (.launch c r) s = .next (rejectCmd s c 0x83)) ∧
  (∀ c r s, launchFields r = true → asidUsable s c.part c.asid.toNat = false →
    exec (.launch c r) s = .next (rejectCmd s c 0x81)) ∧
  (∀ c (st : BitVec 8) s g n, MayBegin s c → st.toNat < 16 → graphStore s c.part st.toNat = some g →
    g.nodes.length = g.asids.length → NodesGood c s (g.nodes.zip g.asids) n →
    ParentRuns s (partOf s c.part).openPhase → (instances s c.part).length < quota s c.part 0 →
    ((instances s c.part).map fun l => l.edges.length).sum + g.edges.length ≤ quota s c.part 1 →
    ∃ t l, exec (.graphRun c st) s = .next (fillAll t) ∧ Opened s c .graph (partOf s c.part).openPhase l ∧
      l.children = g.nodes.length ∧ l.ended = true ∧ l.image = g.nodes ∧ l.edges = g.edges ∧ l.nodeDone = [] ∧ l.nodeLive = [] ∧
      t.levels = s.levels.map (oneMoreChild (partOf s c.part).openPhase) ++ [l] ∧ t.mem = n.mem) ∧
  (∀ c r s kd core n, MayBegin s c → ctrlFields r = true → asidUsable s c.part c.asid.toNat = true →
    readKDesc s c.part (c.asid.setWidth 13) r.kdesc = .ok (kd, n) → ctrlDesc kd = true → ctrlAlive s c.part = false →
    ctrlCore s = some core →
    ∃ t l u, exec (.ctrlRun c r) s = .next t ∧ Opened s c .launch none l ∧ l.ctl = true ∧ l.children = 1 ∧
      t.levels = s.levels ++ [l] ∧ t.others = s.others ++ [u] ∧ u.ctl = true ∧ u.place.die = 8 ∧
      u.place.core = BitVec.ofNat 6 core ∧ u.status = .ready ∧ u.pc = kd.entry ∧ u.part = c.part ∧
      u.launch = (partOf s c.part).launchNo ∧ (∀ i < 8, sget u (BitVec.ofNat 6 (i + 1)) = r.args.getD i 0) ∧
      u.em = laneMask 32 ∧ t.mem = n.mem) ∧
  (∀ c r s kd n, ctrlFields r = true → asidUsable s c.part c.asid.toNat = true →
    readKDesc s c.part (c.asid.setWidth 13) r.kdesc = .ok (kd, n) → ctrlAlive s c.part = true →
    exec (.ctrlRun c r) s = .next (rejectCmd n c 0x83))

namespace Sys2Proof

/-- Serial number x is level k's, or that of a level beneath it, at most n deep. -/
def Under (s : State) : Nat → Nat → Nat → Prop
  | 0, k, x => x = k
  | n + 1, k, x => x = k ∨ ∃ l ∈ s.levels, l.serial = x ∧ ∃ p ∈ l.parent, Under s n k p

end Sys2Proof

/-- CANCEL (R40, R327): of a running level, it and everything beneath it is gone or is being cancelled, and no block of it is
dispatched any more, before rows are filled anew; of a command that holds its queue, that command is cancelled; of a handle that
has completed, it completes and changes nothing else; of a handle not yet taken, the cancel is kept until it is, and only when 64
are kept already does it hold its queue. Its own AFTER is ignored. -/
def Obligations.CancelReachesItsLevel : Prop :=
  (∀ c h (lv : BitVec 8) s l, lv.toNat ≤ 3 → l ∈ s.levels → l.part = c.part → l.handle = h → l.kind = cancelKind lv →
    isNode s l = false → ∃ u, ∃ k ∈ s.levels, k.part = c.part ∧ k.handle = h ∧ k.kind = cancelKind lv ∧
      exec (.cancel c h lv) s = .next (settleCancels (fillAll u)) ∧
      ∀ x ∈ u.levels, Under s 3 k.serial x.serial → x.cancelPending = true ∧ hasBlock u x = false) ∧
  (∀ c h (lv : BitVec 8) s, lv.toNat ≤ 3 →
    (∀ l ∈ s.levels, ¬(l.part = c.part ∧ l.handle = h ∧ l.kind = cancelKind lv ∧ isNode s l = false)) →
    heldWith s c.part h lv.toNat = none →
    (h.toNat % 2 ^ 58 < (queueOf s c.part (h.toNat / 2 ^ 58)).head.toNat → exec (.cancel c h lv) s = .next (finishCmd s c)) ∧
    (¬h.toNat % 2 ^ 58 < (queueOf s c.part (h.toNat / 2 ^ 58)).head.toNat → (partOf s c.part).pendCancels.length < 64 →
      ∃ t, exec (.cancel c h lv) s = .next (finishCmd t c) ∧
        (partOf t c.part).pendCancels = (partOf s c.part).pendCancels ++ [(h, lv.toNat)]) ∧
    (¬h.toNat % 2 ^ 58 < (queueOf s c.part (h.toNat / 2 ^ 58)).head.toNat → 64 ≤ (partOf s c.part).pendCancels.length →
      exec (.cancel c h lv) s = .next (heldBy s c (.cancel c h lv)))) ∧
  (∀ c h (lv : BitVec 8) s c1 x, lv.toNat ≤ 3 →
    (∀ l ∈ s.levels, ¬(l.part = c.part ∧ l.handle = h ∧ l.kind = cancelKind lv ∧ isNode s l = false)) →
    heldWith s c.part h lv.toNat = some (c1, x) → exec (.cancel c h lv) s =
      .next (finishCmd (cancelHeld (freeQueue s c.part (h.toNat / 2 ^ 58)) c1 x) c)) ∧
  (∀ c h (lv : BitVec 8) s l, lv.toNat ≤ 3 → s.levels.find? (fun l => l.part == c.part && l.handle == h &&
      decide (l.kind = cancelKind lv) && !isNode s l) = some l → exec (.cancel c h lv) s =
    .next (settleCancels (cancelLevel { s with cancels := s.cancels ++ [(⟨c.part, handleAt c.queue.toNat c.head.toNat, c.tag,
      c.compl, (queueOf s c.part c.queue.toNat).asid⟩, l.serial)] } l.serial 0))) ∧
  (∀ c h (lv : BitVec 8) s, 3 < lv.toNat → exec (.cancel c h lv) s = .next (rejectCmd s c 0x83))

/-! ### What the package does beside its teams' instructions -/

namespace Sys2Proof

/-- The team in context p. -/
def TheTeam (s : State) (p : Place) (u : Team) : Prop := teamAt s p = some u ∧ (allTeams s).find? (fun t => t.place = p) = some u

/-- The team in context p is afterwards f of what it was. -/
def TeamBecomes (s t : State) (p : Place) (f : Team → Team) : Prop := ∀ u, teamAt s p = some u → teamAt t p = some (f u)

/-- No open span is of this report (R429). -/
def NewSpan (s : State) (p : BitVec 4) (rep : Byte) (target : Word) : Prop :=
  ∀ x ∈ s.spans, ¬(x.part = p ∧ x.rep = rep ∧ x.target = target)

/-- The dirty bytes that P picks, by core and location, are performed, and the others stay (R91). -/
def Performs (s t : State) (P : Nat → Nat → Prop) : Prop :=
  (∀ k loc b, loc < 2 ^ 56 → mapGet none s.dirty (k * 2 ^ 56 + loc) = some b →
    (P k loc → mapGet none t.dirty (k * 2 ^ 56 + loc) = none ∧
      ((∀ j, j ≠ k → P j loc → mapGet none s.dirty (j * 2 ^ 56 + loc) = none) → memByte t loc = b.b)) ∧
    (¬P k loc → mapGet none t.dirty (k * 2 ^ 56 + loc) = some b)) ∧
  (∀ loc, loc < 2 ^ 56 → (∀ k, P k loc → mapGet none s.dirty (k * 2 ^ 56 + loc) = none) → memByte t loc = memByte s loc)

/-- The memory maps are in their canonical form, and nothing guards a byte. -/
def PlainMemory (s : State) : Prop := Unguarded s ∧ Memory.wf s.mem = true ∧ mapWf none s.dirty = true

end Sys2Proof

/-- Results, requests, held arrivals and capsule marks (R54, R85, R255, R300): a result that has come fills its register; a service
team performs its cluster's first request; an arrival that a bank held is counted and answered once it can be; STATE of a record
becomes PARKED or RUN while the team owns it. -/
def Obligations.ResultsAndRequestsArrive : Prop :=
  (∀ s p u d v b rest, teamAt s p = some u → d ≠ 0 → u.inflight = ⟨.scal d, .values [(0, v)], b⟩ :: rest →
    (∀ f ∈ rest, f.dest ≠ .scal d) → ∃ t w, exec (.registerFill p) s = .next t ∧ teamAt t p = some w ∧
      destEmpty w (.scal d) = false ∧ destPoisoned w (.scal d) = b ∧ w.inflight = rest ∧ w.pc = u.pc ∧ w.vregs = u.vregs ∧
      (∀ r, sget w r = if r = d then v else sget u r) ∧ t.mem = s.mem) ∧
  (∀ s (cl : BitVec 6) e rest, s.service = e :: rest → e.cluster = cl.toNat → serviceHalted s e.req.loc = false →
    exec (.serviceTeamRequest cl) s = .next (serveAtom { s with service := rest } e)) ∧
  (∀ s cl, (∀ e ∈ s.service, serviceHalted s e.req.loc = true) → exec (.serviceTeamRequest cl) s = .next s) ∧
  (∀ s obj cross p s1 phase last, s.bank = [.arrive obj cross p] →
    arrive { s with bank := [] } obj cross = .counted s1 phase last →
    settleBank s = mapTeam s1 p fun t => { t with reply := some { full := last, vals := [BitVec.ofNat 64 phase] } }) ∧
  (∀ s obj cross p s1, s.bank = [.count obj cross p] → countArrival { s with bank := [] } obj cross p = some s1 →
    settleBank s = s1) ∧
  (∀ s (i : Instr) w rest, s.capWrites = w :: rest → serviceHalted s w.rcd = false →
    (w.run = true ∨ ∀ x ∈ s.capWait, x.1 ≠ w.rcd) →
    (i = .capsuleParkedWrite w.place ∧ w.run = false ∨ i = .capsuleRunWrite w.place ∧ w.run = true) →
    ∃ t, exec i s = .next t ∧ t.capWrites = rest ∧ t.team = s.team ∧ t.others = s.others ∧
      (memNat s w.rcd 8 % 2 = 1 → memNat s (w.rcd + 8) 8 = w.owner.toNat →
        memNat t (w.rcd + 16) 8 = (if w.run then 1 else 2) ∧
        ∀ a, ¬(w.rcd + 16 ≤ a ∧ a < w.rcd + 24) → memByte t a = memByte s a) ∧
      (¬(memNat s w.rcd 8 % 2 = 1 ∧ memNat s (w.rcd + 8) 8 = w.owner.toNat) → t.mem = s.mem))

/-- Ends, waits and reports of teams (R36, R45, R438, R441, R429, R411): a team that has exited and whose work is done frees
its context, and every other team stands as it was but for the replies that reach it; one that waits too long is withdrawn or
reported, with the address that the model takes from its wait (log 53); a span's notice goes to the ring, or is counted as lost. -/
def Obligations.TeamsEndWaitAndReport : Prop :=
  (∀ s p u, teamAt s p = some u → u.status = .exiting → ordered u = false → workDone s u = true → u.cancelling = false →
    (s.team.place = p → s.team.status ≠ .vacant → ∀ v ∈ s.others, v.place ≠ p) →
    ∃ t, exec (.teamEnd p) s = .next (fillAll (settleCancels t)) ∧ teamAt t p = none ∧
      ∀ q v, q ≠ p → teamAt s q = some v → ∃ fs e, teamAt t q = some { v with inflight := fs, softErr := e }) ∧
  (∀ s p u, teamAt s p = some u → ¬(u.status = .exiting ∧ ordered u = false ∧ workDone s u = true) → u.cancelling = false →
    exec (.teamEnd p) s = .next s) ∧
  (∀ s p u, teamAt s p = some u → readyNow s u = true →
    ∃ t, exec (.teamBoost p) s = .next t ∧ TeamBecomes s t p (fun u => { u with boosted := true }) ∧ t.mem = s.mem) ∧
  (∀ s p u (o : LdfeOps) loc n c, TheTeam s p u → u.asked = true → u.reply = none → u.request = none →
    s.bank.find? (fun r => r.team == some p) = some (.ldfe loc n c p) → u.parks = [] → s.diehalt = 0 →
    (instrAt s u = some (.ldfeK o) ∨ instrAt s u = some (.ldfeC o)) →
    (granuleFull s loc = false → ∃ s1, exec (.granuleWaitTimeout p) s = .next (stopAt s1 s1
        { cause := 0x42, pc := u.pc, kind := 0, faddr := sget u o.a.r }) ∧
      s1.team.sregs = u.sregs ∧ s1.team.place = p ∧ s1.team.request = none ∧ s1.mem = s.mem ∧
      ∀ r ∈ s1.bank, r.team ≠ some p) ∧
    (granuleFull s loc = true → exec (.granuleWaitTimeout p) s = .next s)) ∧
  (∀ s p u a ph, TheTeam s p u → u.status = .waiting .barrier → u.parks = [] → s.diehalt = 0 → heldLinks s = [] →
    u.waitReported = false →
    instrAt s u = some (.barWait a ph) → NewSpan s u.part 3 (targetWord p) →
    ∃ t, exec (.waitWatchdog p) s = .next t ∧ t.spans = s.spans ++ [⟨u.part, 3, targetWord p, sget u a.r, s.time, 1⟩] ∧
      TeamBecomes s t p (fun u => { u with waitReported := true }) ∧ t.mem = s.mem) ∧
  (∀ s p u, teamAt s p = some u → u.waitReported = true → exec (.waitWatchdog p) s = .next s) ∧
  (∀ s i x, s.spans[i]? = some x → ringOpen (partOf s x.part) = false →
    ∃ t, exec (.reportSpanEnd i) s = .next t ∧ t.spans = s.spans.eraseIdx i ∧ t.mem = s.mem ∧
      (partOf t x.part).scOvf = true ∧ (partOf t x.part).scLost = (partOf s x.part).scLost + 1) ∧
  (∀ s i x loc, s.spans[i]? = some x → ringOpen (partOf s x.part) = true →
    HallWrites s x.part (partOf s x.part).scAsid (ringSlot (partOf s x.part)) 128 [(loc, 128)] →
    ∃ t, exec (.reportSpanEnd i) s = .next t ∧ t.spans = s.spans.eraseIdx i ∧
      (partOf t x.part).scTail = (partOf s x.part).scTail + 1 ∧ memNat t loc 4 = 4 ∧
      memNat t (loc + 8) 8 = x.target.toNat ∧ memNat t (loc + 32) 4 = x.rep.toNat ∧
      memNat t (loc + 36) 4 = x.count % 2 ^ 32 ∧ memNat t (loc + 48) 8 = x.addr.toNat ∧
      memNat t (loc + 56) 8 = x.time % 2 ^ 64) ∧
  (∀ s (first : Parcel), exec (.unassignedEncoding first) s =
    .next (stopAt s s { cause := 0x22, pc := s.team.pc, code := first.toNat / 2 ^ 24 })) ∧
  (∀ s l, s.team.status = .ready → s.team.parks = [] → fetchLine s s.team s.team.pc = .ok l →
    ∃ t, exec .lineFetch s = .next t ∧ t = fetched s s.team.pc ∧ t.team = s.team ∧ t.mem = s.mem) ∧
  (∀ s c code, s.team.status = .ready → s.team.parks = [] → fetchLine s s.team s.team.pc = .error (c, code) →
    exec .lineFetch s = .next (stopAt s s (fetchStop s.team c code)))

/-- Lines and errors (R76, R91, R430, R444): a written-back line's bytes stand in memory and its L1 holds them no longer; a
soft error is counted, and poisons what it says; a scrub changes no value. -/
def Obligations.LinesAndSoftErrors : Prop :=
  (∀ s i (die : BitVec 4) (core : BitVec 6) line, (i = .backgroundWriteBack die core line ∨ i = .storePerformed die core line) →
    PlainMemory s → writeBackHeld s (die.toNat * 64 + core.toNat) (line * 128) = false →
    ∃ t, exec i s = .next t ∧ t.team = s.team ∧
      Performs s t fun k loc => k = die.toNat * 64 + core.toNat ∧ loc / 128 = line) ∧
  (∀ s (die : BitVec 4) (core : BitVec 6) line, writeBackHeld s (die.toNat * 64 + core.toNat) (line * 128) = true →
    exec (.backgroundWriteBack die core line) s = .next s) ∧
  (∀ s line, PlainMemory s → ∃ t, exec (.cxlCacheSnoop line) s = .next t ∧ t.team = s.team ∧
      Performs s t fun _ loc => loc / 128 = locHost 0 / 128 + line) ∧
  (∀ s (die : BitVec 4) p, ∃ t, exec (.softError (.corrected die p)) s = .next t ∧
    mapGet 0 (partOf t p).sec die.toNat = mapGet 0 (partOf s p).sec die.toNat + 1 ∧ t.mem = s.mem) ∧
  (∀ s (die : BitVec 4) p line, NewSpan s p 5 0 → ∃ t, exec (.softError (.line die p line)) s = .next t ∧
    line ∈ t.poisonLines ∧ (∀ x ∈ s.poisonLines, x ∈ t.poisonLines) ∧
    mapGet 0 (partOf t p).seu die.toNat = mapGet 0 (partOf s p).seu die.toNat + 1 ∧
    t.spans = s.spans ++ [⟨p, 5, 0, addrOfLoc s (line * 128), s.time, 1⟩] ∧ t.mem = s.mem) ∧
  (∀ s p u code, teamAt s p = some u → u.status ≠ .vacant → ∃ t, exec (.softError (.team p code)) s = .next t ∧
    TeamBecomes s t p (fun u => { u with softErr := some code }) ∧ t.mem = s.mem) ∧
  (∀ s die, exec (.scrub die) s = .next s)

/-- The engines (R98, R99, R257, R434-R437): a unit's writes land and the operation moves on to the next; its bytes are
counted at its barrier object, or held there; a fault pauses it with what it met, but poison, which gives it no PROGRESS to go on
from (R445), leaves it to WAITC as it is; and it leaves its class's count as it retires, the oldest first. That the units of one
operation are performed one after another in ascending order is the model's choice (log 33): R280 promises none. -/
def Obligations.EnginesRunPauseAndRetire : Prop :=
  (∀ s id o d, opAt s id = some o → canRun s o = true → waitsArray s o = false → engOrdered s o = false →
    unitPlan s o = [(o, .ok d)] → d.core = none → o.work ≠ .mxswap →
    ∃ t o', exec (.engineWriteLanded id) s = .next t ∧ opAt t id = some o' ∧ o'.unit = o.unit + 1 ∧ o'.work = o.work ∧
      (o'.state = .finished ↔ unitCount o ≤ o.unit + 1) ∧
      (∀ loc bs, d.writes = [(loc, bs)] → s.dirty = [] → s.bank = [] → Unguarded s → WrittenAt s t [(loc, bs.length)] bs)) ∧
  (∀ s (o : EngOp) (run src dst path : Nat) dims, o.work = .cpy run src dst path dims →
    let a := runOffsets dims o.unit
    (unitPlan s o = [(o, copyUnit s o (BitVec.ofInt 64 (src + a.1)) (BitVec.ofInt 64 (dst + a.2)) run)]) ∧
    (∀ d, copyUnit s o (BitVec.ofInt 64 (src + a.1)) (BitVec.ofInt 64 (dst + a.2)) run = .ok d → ∃ bs ps,
      engRead s o (BitVec.ofInt 64 (src + a.1)) run = .ok (bs, ps) ∧ d.reads = ps ∧
      engWrite s o (BitVec.ofInt 64 (dst + a.2)) bs = .ok d.writes)) ∧
  (∀ s id o c va wr, opAt s id = some o → canRun s o = true → waitsArray s o = false → o.command = none →
    opCancelled s o = false → unitPlan s o = [(o, .error (.fault c va wr))] → c ≠ 0x50 →
    ∃ t o', exec (.enginePause id) s = .next t ∧ exec (.engineWriteLanded id) s = .next t ∧ opAt t id = some o' ∧
      o'.state = .paused c va wr false ∧ o'.unit = o.unit ∧ o'.work = o.work ∧ (progressOff o = none → t.mem = s.mem)) ∧
  (∀ s id o va wr, opAt s id = some o → canRun s o = true → waitsArray s o = false → o.command = none →
    opCancelled s o = false → unitPlan s o = [(o, .error (.fault 0x50 va wr))] →
    exec (.enginePause id) s = .next (putOp s { o with state := .poisoned wr }) ∧
      exec (.engineWriteLanded id) s = .next (putOp s { o with state := .poisoned wr })) ∧
  (∀ s id o obj, opAt s id = some o → o.bar = some obj → countHeld s o obj = true → exec (.engineByteCount id) s = .next s) ∧
  (∀ s id o obj, opAt s id = some o → o.bar = some obj → o.uncounted ≠ 0 → engOrdered s o = false → countHeld s o obj = false →
    (objReady s obj = true → blockOfLoc s obj ≠ none → s.bank = [] → ((readObj s obj).arrived ≠ (readObj s obj).expa ∨
        (readObj s obj).landed + o.uncounted < (readObj s obj).expb) → (readObj s obj).landed + o.uncounted < 2 ^ 64 →
      ∃ t, exec (.engineByteCount id) s = .next t ∧ opAt t id = some { o with uncounted := 0 } ∧
        readObj t obj = { readObj s obj with landed := (readObj s obj).landed + o.uncounted }) ∧
    (objReady s obj = false → blockOfLoc s obj ≠ none →
      ∃ t, exec (.engineByteCount id) s = .next t ∧ opAt t id = some { o with uncounted := 0 } ∧
        t.bank = s.bank ++ [.bytes obj o.uncounted o.part o.place] ∧ t.mem = s.mem)) ∧
  (∀ s id o u, opAt s id = some o → o.state = .finished → o.uncounted = 0 → engOrdered s o = false → oldestOp s o = true →
    o.counted = true → o.command = none → o.wroteProgress = false →
    (∀ l, levelOfLaunch s o.part o.launch = some l → l.cancelPending = false) →
    teamAt s o.place = some u → u.launch = o.launch → u.part = o.part →
    ∃ t w, exec (.engineRetire id) s = .next t ∧ t.engines = s.engines.filter (fun e => e.id != o.id) ∧
      teamAt t o.place = some w ∧ (∀ c, cntOf w c = if c = o.cls then cntOf u c - 1 else cntOf u c) ∧
      w.sregs = u.sregs ∧ w.pc = u.pc ∧ t.mem = s.mem) ∧
  (∀ s id o, opAt s id = some o → (o.state ≠ .finished ∨ o.uncounted ≠ 0 ∨ oldestOp s o = false) →
    exec (.engineRetire id) s = .next s) ∧
  (∀ s obj, noticeNext s obj = false → exec (.crossNotice obj) s = .next s) ∧
  (∀ s obj, noticeNext s obj = true →
    (objReady s obj = false → exec (.crossNotice obj) s =
      .next { s with notices := s.notices.erase obj, bank := s.bank ++ [.notice obj] }) ∧
    (objReady s obj = true → s.bank = [] →
      ((readObj s obj).arrived ≠ (readObj s obj).expa ∨ (readObj s obj).landed < (readObj s obj).expb) →
      ∃ t, exec (.crossNotice obj) s = .next t ∧ t.notices = s.notices.erase obj ∧ readObj t obj = readObj s obj ∧
        crossOf t obj = { crossOf s obj with noticed := (crossOf s obj).noticed + 1 }))

namespace Sys2Proof

/-- What one team of an ordered launch needs for its stores to be all that a quantum end performs. -/
def OneStore (s : State) (l : Level) (loc : Nat) (bs : List Byte) : Prop :=
  (teamsOf s).filter (ofLaunch l) = [s.team] ∧ s.team.obuf = [.store ⟨loc, bs⟩] ∧ s.team.request = none ∧
    s.team.arrival = none ∧ s.team.status ≠ .exiting ∧ s.team.status ≠ .vacant ∧ s.engines = [] ∧ s.dirty = [] ∧ Unguarded s ∧
    s.notices = [] ∧ s.bank = [] ∧ s.cancels = [] ∧ overDownLink s loc = false ∧ ∀ x ∈ s.levels, x.kind ≠ .graph

end Sys2Proof

/-- Ordered launches and pre-emption (R318, R319, R369, R370, R379, R443): a quantum end performs what the teams have buffered
and starts their next quantum; a launch that stalls is reported once; a victim core is emptied of its teams of lower PRIO, and
they come back with their registers. A victim's team whose capsule request awaits its reply stops after it (R299); that the
pre-emption stands until then, its part of the save pool taken, is the model's deduction (log 45). -/
def Obligations.QuantaAndPreemption : Prop :=
  (∀ s l, levelAt s l.serial = some l → quantumReady s l = true →
    ∃ t, exec (.quantumEnd l.serial) s = .next t ∧ (∀ u ∈ teamsOf t, ofLaunch l u = true → u.status ≠ .vacant → u.qnt = 0) ∧
      (∀ x, levelAt t l.serial = some x → x.view = t.mem) ∧
      ∀ loc bs, OneStore s l loc bs → WrittenAt s t [(loc, bs.length)] bs) ∧
  (∀ s l, levelAt s l.serial = some l → quantumReady s l = false → exec (.quantumEnd l.serial) s = .next s) ∧
  (∀ s l, levelAt s l.serial = some l → stalled s l = true → l.stallReported = false →
    ∃ t u, exec (.orderedLaunchStalled l.serial) s = .next t ∧ u ∈ teamsOf s ∧ ofLaunch l u = true ∧
      (∀ w ∈ teamsOf s, ofLaunch l w = true →
        u.blk.toNat < w.blk.toNat ∨ u.blk = w.blk ∧ u.teamId.toNat ≤ w.teamId.toNat) ∧
      (NewSpan s l.part 4 (targetWord u.place) →
        t.spans = s.spans ++ [⟨l.part, 4, targetWord u.place, u.pc, s.time, 1⟩]) ∧
      levelAt t l.serial = some { l with stallReported := true } ∧ t.mem = s.mem) ∧
  (∀ s p l k, preemptor s p = some (l, k) → (∀ u ∈ lowerTeams s k l.prio.toNat, capPending u = false) →
    ∃ t x, exec (.preemption p) s = .next (fillAll t) ∧ lowerTeams t k l.prio.toNat = [] ∧ t.preempted = s.preempted ++ [x] ∧
      x.part = l.part ∧ x.prio = l.prio ∧ x.die = BitVec.ofNat 4 (k / 64) ∧ x.core = BitVec.ofNat 6 (k % 64)) ∧
  (∀ s p l k, preemptor s p = some (l, k) → (∃ u ∈ lowerTeams s k l.prio.toNat, capPending u = true) →
    (∀ u ∈ lowerTeams s k l.prio.toNat, teamAt s u.place = some u) →
    ∃ t, exec (.preemption p) s = .next t ∧ t.preempted = s.preempted ∧ t.preempting = s.preempting ++
        [⟨p, k, l.prio, victimNeed (lowerTeams s k l.prio.toNat) (lowerBlocks s k l.prio.toNat)⟩] ∧
      t.mem = s.mem ∧ ∀ u ∈ lowerTeams s k l.prio.toNat, ∃ w ∈ teamsOf t, w.place = u.place ∧ ParkReason.preempt ∈ w.parks) ∧
  (∀ s die core x, preemptedAt s (coreKey die core) = some x → mayRestore s x = true →
    ∃ t, exec (.preemptionRestore die core) s = .next (fillAll t) ∧ x ∉ t.preempted ∧
      ∀ u ∈ x.teams, ∃ w ∈ teamsOf t, w.place = u.place ∧ w.sregs = u.sregs ∧ w.vregs = u.vregs ∧ w.masks = u.masks ∧
        w.em = u.em ∧ w.cc = u.cc ∧ w.pc = u.pc ∧ w.status = u.status) ∧
  (∀ s p, preemptingOf s p = none → preemptor s p = none → exec (.preemption p) s = .next s)

/-! ### Rates, power and heat -/

namespace Sys2Proof

/-- Only the entry of one die changes. -/
def DieBecomes (s t : State) (d : Nat) (x : DieState) : Prop := t = { s with dies := mapSet {} s.dies d x }

/-- A PKSTAT that changes counts the change (R446). -/
def PkstatBecomes (s t : State) (x : Pkstat) : Prop :=
  t = { s with pkstat := if x = s.pkstat then s.pkstat else { x with seq := s.pkstat.seq + 1 } }

end Sys2Proof

/-- The broadcast and the arbiter (R336, R337, R344, R285): TIME comes to a multiple of 1,000, SEQ counts, the rate moves
toward its target and never past it, PRMUL and PROV take force, and leave starts afresh; no broadcast comes while the boot is
stopped (R393); a request for leave is granted while the die's budgets allow it, where the rail's mean current is a value of the
model (log 35), and a product whose array a loop holds stands aside (log 62). -/
def Obligations.BroadcastsAndLeave : Prop :=
  (∀ s, s.booted = false → exec .rateBroadcast s = .next s) ∧
  (∀ s, s.booted = true → ∃ t, exec .rateBroadcast s = .next t ∧ t.time = (s.time / 1000 + 1) * 1000 ∧ t.seq = s.seq + 1 ∧
    ((∀ x ∈ s.parts, ∀ y ∈ x.2.subs, y.kind ≠ 2 ∧ y.kind ≠ 3) → t.mem = s.mem) ∧ t.target = s.target ∧ (s.rate = s.target → t.rate = s.rate) ∧
    (s.rate.toNat < s.target.toNat → s.rate.toNat < t.rate.toNat ∧ t.rate.toNat ≤ s.target.toNat) ∧
    (s.target.toNat < s.rate.toNat → t.rate.toNat < s.rate.toNat ∧ s.target.toNat ≤ t.rate.toNat) ∧
    (∀ d, (dieOf t d).grants = (dieOf s d).grants.filter (fun g => decide (t.time < g.1 + 1000)) ∧
      (dieOf t d).leave = (dieOf s d).leave) ∧
    ∀ p, (partOf t p).mulForce = (partOf s p).prmul ∧ (partOf t p).loForce = (partOf s p).ovlo ∧
      (partOf t p).hiForce = (partOf s p).ovhi) ∧
  (∀ s d rest, s.booted = true → s.team.status ≠ .vacant → s.team.inflight = ⟨.scal d, .broadcast false, false⟩ :: rest →
    ∃ t w more, exec .rateBroadcast s = .next t ∧ t.team.inflight = ⟨.scal d, .values [(0, w)], false⟩ :: more ∧
      w.toNat % 2 ^ 32 = t.rate.toNat ∧ w.toNat / 2 ^ 32 = t.seq.toNat) ∧
  (∀ s (die : BitVec 3) core i c, nextLeave s (dieOf s die.toNat) = some (.wake core i) →
    c = (costEntry (if i = 4 then 25 else 24)).2.2 → s.diehalt.getLsbD die.toNat = false →
    (Config.railMean die.toNat s.time).toNat + grantedAt (dieOf s die.toNat) s.time + c ≤ leaveCap (dieOf s die.toNat) →
    grantedAt (dieOf s die.toNat) s.time + c ≤ (dieOf s die.toNat).slew.toNat * 10000 →
    ∃ t, exec (.leaveGrant die) s = .next t ∧ DieBecomes s t die.toNat { noteBound s (dieOf s die.toNat) with
      grants := (dieOf s die.toNat).grants ++ [(s.time, c)], wakes := (dieOf s die.toNat).wakes ++ [(core, i)],
      leave := (dieOf s die.toNat).leave.filter fun x => x.1 != .wake core i }) ∧
  (∀ s (die : BitVec 3) p u lead vs b rest, nextLeave s (dieOf s die.toNat) = some (.mma p lead) → mayGrant s die.toNat = true →
    teamAt s p = some u → u.inflight = ⟨lead, .array lead vs, b⟩ :: rest →
    ∃ t w more, exec (.leaveGrant die) s = .next t ∧ teamAt t p = some w ∧ w.inflight = ⟨lead, .values vs, b⟩ :: more ∧
      w.sregs = u.sregs ∧ w.vregs = u.vregs ∧ w.pc = u.pc ∧ t.mem = s.mem) ∧
  (∀ s (die : BitVec 3), s.diehalt.getLsbD die.toNat = true → exec (.leaveGrant die) s = .next s)

/-- Islands, surcharge, breaches, heat and parking (R339, R345-R348, R454, R455), subscriptions (R349), windows of the annex
directory (R360, R361) and the power states of a cluster (R351). That a TEMP of 125 °C powers the dies off as it is reported is the
model's deduction (log 47), and that host memory stands over the shutdown its choice (log 65). -/
def Obligations.PowerFollowsItsRules : Prop :=
  (∀ s (die : BitVec 3), (dieOf s die.toNat).wakes.length ≤ 32 → ∃ t, exec (.islandWakeRound die) s = .next t ∧
    (dieOf t die.toNat).wakes = [] ∧ t.mem = s.mem ∧ ∀ x ∈ (dieOf s die.toNat).wakes, x.2.toNat < 5 →
      islandUp t (die.toNat * 64 + x.1.toNat) x.2.toNat = true) ∧
  (∀ s (die : BitVec 3) (core : BitVec 6) (i : BitVec 3), i.toNat < 5 →
    (i = 4 → arrayHeld s (die.toNat * 64 + core.toNat) = false) → coreLive s die.toNat core.toNat = true →
    (gateOf s (clusterOf die.toNat core.toNat)).st ≠ 5 →
    mapGet 0 (coreAt s (die.toNat * 64 + core.toNat)).lastUse i.toNat + 2000 ≤ s.time →
    islandUp s (die.toNat * 64 + core.toNat) i.toNat = false ∧
    ∃ t, exec (.islandPowerDown die core i) s = .next t ∧
    (∀ j < 5, (coreAt t (die.toNat * 64 + core.toNat)).powered.getLsbD j =
      ((coreAt s (die.toNat * 64 + core.toNat)).powered.getLsbD j && decide (j ≠ i.toNat))) ∧ t.mem = s.mem) ∧
  (∀ s (die : BitVec 3) (core : BitVec 6) (i : BitVec 3), (gateOf s (clusterOf die.toNat core.toNat)).st = 5 →
    exec (.islandPowerDown die core i) s = .next s) ∧
  (∀ s die core, arrayHeld s (coreKey (BitVec.setWidth 4 die) core) = true → exec (.islandPowerDown die core 4) s = .next s) ∧
  (∀ s (die : BitVec 3) (core : BitVec 6) (i : BitVec 3),
    s.time < mapGet 0 (coreAt s (die.toNat * 64 + core.toNat)).lastUse i.toNat + 2000 →
    exec (.islandPowerDown die core i) s = .next s) ∧
  (∀ s (die : BitVec 3) (core : BitVec 6) (i point : BitVec 3) x, pointOf s (die.toNat * 64 + core.toNat) i.toNat = some x →
    (x.point = point.toNat → coreLive s die.toNat core.toNat = true → ∃ t, exec (.operatingPointChange die core i point) s = .next t ∧
      (coreAt t (die.toNat * 64 + core.toNat)).pointAt i.toNat = point.toNat ∧ t.mem = s.mem) ∧
    (x.point ≠ point.toNat → exec (.operatingPointChange die core i point) s = .next s)) ∧
  (∀ s k i x, pointOf s k i = some x → s.time < x.since + 8000 → choosePoint s k i = s) ∧
  (∀ s k i, pointOf s k i = none → pointOf (choosePoint s k i) k i = some ⟨k, i, bestPoint s k i, s.time⟩) ∧
  (∀ s (die : BitVec 3) (iavg : BitVec 16), ∃ t x, exec (.surchargeUpdate die iavg) s = .next t ∧ dieOf t die.toNat = x ∧
    ((∀ z ∈ s.parts, ∀ y ∈ z.2.subs, y.kind ≠ 2 ∧ y.kind ≠ 3) → DieBecomes s t die.toNat x) ∧
    (∀ d, d ≠ die.toNat → dieOf t d = dieOf s d) ∧ x.iavg = iavg ∧ x.cap = (dieOf s die.toNat).cap ∧
    let c := x.cap.toNat
    let n := (dieOf s die.toNat).surcharge.toNat
    (9 * c < 10 * iavg.toNat → x.surcharge.toNat = min 56 (n + 1)) ∧
    (10 * iavg.toNat ≤ 9 * c → 8 * c ≤ 10 * iavg.toNat → x.surcharge.toNat = n) ∧
    (10 * iavg.toNat < 8 * c → x.surcharge.toNat = n - 1 ∧ x.halved = false)) ∧
  (∀ s die, ∃ t, exec (.hardBreach die) s = .next t ∧ DieBecomes s t die.toNat
    { dieOf s die.toNat with halved := true, brch := (dieOf s die.toNat).brch + 1 }) ∧
  (∀ s i (die : BitVec 3) (temp : BitVec 16), (i = .thermalWarn die temp ∨ i = .thermalTrip die temp ∨ i = .thermalTripClear die temp) →
    temp.toNat < 1000 → ∃ t, exec i s = .next t ∧ (dieOf t die.toNat).temp = temp ∧ t.mem = s.mem ∧
    ((dieOf s die.toNat).ttrip.toNat * 8 ≤ temp.toNat → t.pkstat.trip.getLsbD die.toNat = true) ∧
    (temp.toNat + 40 ≤ (dieOf s die.toNat).ttrip.toNat * 8 → t.pkstat.trip.getLsbD die.toNat = false) ∧
    (temp.toNat < (dieOf s die.toNat).ttrip.toNat * 8 → (dieOf s die.toNat).ttrip.toNat * 8 < temp.toNat + 40 →
      t.pkstat = s.pkstat)) ∧
  (∀ s i (die : BitVec 3) (temp : BitVec 16), (i = .thermalShutdown ∨ i = .thermalTrip die temp ∧ 1000 ≤ temp.toNat) →
    ∃ t, exec i s = .next t ∧ t.powered = false ∧ t.booted = false ∧ teamsOf t = [] ∧ t.levels = [] ∧ t.port = none ∧
      (Memory.wf s.mem = true → ∀ a, targetOf a = .host → memByte t a = memByte s a)) ∧
  (∀ s (die : BitVec 3) k, (dieOf s die.toNat).cap.toNat < (dieOf s die.toNat).iavg.toNat → k ∈ liveCores s die.toNat →
    (∀ u ∈ teamsOf s, ParkReason.cap ∉ u.parks) →
    2 ≤ ((teamsOn s k).filter fun u => u.status = .ready && u.parks.isEmpty).length →
    ∃ t, exec (.parkingRotation die) s = .next t ∧ t.mem = s.mem ∧
      ∃ u ∈ teamsOf t, placeKey u.place = k ∧ ParkReason.cap ∈ u.parks ∧ (capPending u = false → runnable t u = false)) ∧
  (∀ s p id (die : BitVec 8) (v : BitVec 32) (x : Sub) last ps, (partOf s p).subs.find? (fun y => y.id == id) = some x →
    x.kind = 0 → die = 0xFF → x.last.find? (fun l => l.1 == 255) = some (255, last) →
    (x.dir ≠ 1 ∧ last < x.value.toNat ∧ x.value.toNat ≤ v.toNat ∨
      x.dir ≠ 0 ∧ x.value.toNat < last ∧ v.toNat ≤ x.value.toNat) → HallWrites s p x.asid x.note 8 ps →
    ∃ t, exec (.subscriptionEvaluation p id die v) s = .next t ∧ (partOf t p).notifySeq = (partOf s p).notifySeq + 1 ∧
      WrittenAt s t ps (bytesOfNat 8 (v.toNat + 255 * 2 ^ 32 + x.id.toNat * 2 ^ 40 +
        ((partOf s p).notifySeq + 1).toNat * 2 ^ 48))) ∧
  (∀ s, s.window < s.time / 16384 → ∃ t, exec (.annexWindowEnd s.window s.window) s = .next t ∧ t.window = s.window + 1 ∧
    t.mem = s.mem ∧ ∀ q, let r := regionOf s.annex q
      let z := regionOf t.annex q
      z.accesses = 0 ∧ z.writes = 0 ∧ z.readers = [] ∧ z.reads = [] ∧ z.readLines = [] ∧ z.lastHits = r.hits ∧
      (r.hint = 1 → z.deg = r.deg ∧ z.holders = r.holders ∧ z.lines = r.lines) ∧
      (r.hint = 0 → 0 < r.writes → r.accesses ≤ 64 * r.writes → z.deg = 0)) ∧
  (∀ s first last, (first ≠ s.window ∨ last < first ∨ s.time / 16384 ≤ last) → exec (.annexWindowEnd first last) s = .next s) ∧
  (∀ s (cl : BitVec 6), (gateOf s cl.toNat).st = 1 → quiesced s cl.toNat = true →
    exec (.clusterPowerStateReached cl) s = .next { s with gates := mapSet {} s.gates cl.toNat { gateOf s cl.toNat with st := 2 } }) ∧
  (∀ s (cl : BitVec 6), (gateOf s cl.toNat).st = 3 → (gateOf s cl.toNat).req = 3 →
    ∃ t, exec (.clusterPowerStateReached cl) s = .next t ∧ (gateOf t cl.toNat).st = 4 ∧ t.mem = s.mem ∧
      ∀ k ∈ clusterCores s cl.toNat, (coreAt t k).powered = 0) ∧
  (∀ s (cl : BitVec 6), (gateOf s cl.toNat).st = 0 → exec (.clusterPowerStateReached cl) s = .next s)

/-! ### Links, dies and boot -/

/-- A peer's request is not held, and none of its link's waits before it. -/
def Sys2Proof.PeerGoes (s : State) (x : HeldPeer) : Prop := peerHeldNow s x = false ∧ ∀ y ∈ s.peerHeld, y.link ≠ x.link

/-- Links and dies (R356, R357, R390, R446-R449, R452-R454): a step opens a retraining window of at most six retries; a die that does not
answer is lost, and every level is cancelled; a halted die is marked once its teams have stopped; a peer's request is performed, or
held with its link. That posted atomics are performed before a window opens or a die is marked is the model's choice (log 80). -/
def Obligations.LinksAndDies : Prop :=
  (∀ s l, hasSteps l = true → (linkOf s (linkKey l)).retraining = false → (linkOf s (linkKey l)).down = false →
    let x := linkOf s (linkKey l)
    ((∀ a ∈ x.stepped, a + 10000 ≤ s.time) →
      (x.step < 4 → exec (.linkStepUp l) s = .next (setLink (drain s) (linkKey l)
        { x with prev := x.step, step := x.step + 1, tries := 0, retraining := true, stepped := some s.time })) ∧
      (1 < x.step → exec (.linkStepDown l) s = .next (setLink (drain s) (linkKey l)
        { x with prev := x.step, step := x.step - 1, tries := 0, retraining := true, stepped := some s.time }))) ∧
    ((∃ a ∈ x.stepped, s.time < a + 10000) → exec (.linkStepUp l) s = .next s ∧ exec (.linkStepDown l) s = .next s) ∧
    (4 ≤ x.step → exec (.linkStepUp l) s = .next s) ∧ (x.step ≤ 1 → exec (.linkStepDown l) s = .next s)) ∧
  (∀ s l, (linkOf s (linkKey l)).retraining = true →
    let x := linkOf s (linkKey l)
    (∃ t, exec (.retrainingWindowEnd l true) s = .next t ∧
      linkOf t (linkKey l) = { x with retraining := false, tries := 0, down := false }) ∧
    (x.tries < 6 → exec (.retrainingWindowEnd l false) s = .next (setLink s (linkKey l)
      { x with tries := x.tries + 1, step := if x.tries < 3 then x.prev else 1 })) ∧
    (6 ≤ x.tries → ∃ t, exec (.retrainingWindowEnd l false) s = .next t ∧ (linkOf t (linkKey l)).down = true ∧
      (linkOf t (linkKey l)).retraining = false ∧ (match l with
        | .compute d => t.pkstat.lost.getLsbD d.toNat = true
        | .memory m => t.pkstat.mlost.getLsbD m.toNat = true
        | .twin i => t.pkstat.bdown.getLsbD i.toNat = true
        | .folros j => j.toNat < 12 → t.pkstat.fdown.getLsbD j.toNat = true))) ∧
  (∀ s i (die : BitVec 3), (i = .regulatorTrip die ∨ i = .responseWatchdog false die ∧ s.diehalt = 0 ∧ heldLinks s = []) →
    s.pkstat.lost.getLsbD die.toNat = false →
    ∃ t, exec i s = .next t ∧ t.pkstat.lost.getLsbD die.toNat = true ∧ t.pkstat.seq = s.pkstat.seq + 1 ∧
      (∀ o ∈ t.engines, o.place.die.toNat ≠ die.toNat) ∧ (∀ l ∈ t.levels, l.parent = none → l.cancelPending = true) ∧
      ∀ p, (partOf t p).openPhase = none ∧ (partOf t p).openJob = none) ∧
  (∀ s m die, (s.diehalt ≠ 0 ∨ heldLinks s ≠ []) → exec (.responseWatchdog m die) s = .next s) ∧
  (∀ s (die : BitVec 3), s.diehalt.getLsbD die.toNat = true → s.pkstat.halted.getLsbD die.toNat = false →
    (∀ u ∈ teamsOf s, u.place.die.toNat = die.toNat →
      u.parks ≠ [] ∧ capPending u = false ∧ parkPending s u.place = false) →
    ∃ t, exec (.dieHalted die) s = .next t ∧ PkstatBecomes (drain s) t
      { s.pkstat with halted := s.pkstat.halted ||| BitVec.ofNat 8 (2 ^ die.toNat) }) ∧
  (∀ s (m : PortMode), m.width = 16 ∨ m.width = 8 ∨ m.width = 4 → s.dirty = [] →
    exec (.hostLinkUp m) s = .next { s with port := some m }) ∧
  (∀ s link tag r, (peerHeldNow s ⟨link, tag, r⟩ = true ∨ ∃ y ∈ s.peerHeld, y.link = link) →
    exec (.peerRequest link tag r) s = .next { s with peerHeld := s.peerHeld ++ [⟨link, tag, r⟩] }) ∧
  (∀ s link tag off n, s.dirty = [] → PeerGoes s ⟨link, tag, .read off n⟩ →
    ∃ t, exec (.peerRequest link tag (.read off n)) s = .next t ∧ t.mem = s.mem ∧ t.team = s.team) ∧
  (∀ s link tag off bs, s.dirty = [] → Unguarded s → PeerGoes s ⟨link, tag, .write off bs⟩ →
    (∀ loc, peerLoc s link.toNat tag off bs.length = some loc →
      ∃ t, exec (.peerRequest link tag (.write off bs)) s = .next t ∧ WrittenAt s t [(loc, bs.length)] bs) ∧
    (peerLoc s link.toNat tag off bs.length = none → exec (.peerRequest link tag (.write off bs)) s = .next s)) ∧
  (∀ s link tag op dw off x c, s.dirty = [] → Unguarded s → PeerGoes s ⟨link, tag, .atom op dw off x c⟩ →
    let n := atomBytes dw
    ∀ loc, peerLoc s link.toNat tag off n = some loc → off % n = 0 → poisonedIn s loc n = false →
    ∃ t, exec (.peerRequest link tag (.atom op dw off x c)) s = .next t ∧
      match atomNew op dw (memNat s loc n) (x.toNat % 2 ^ (8 * n)) (c.toNat % 2 ^ (8 * n)) with
      | some v => WrittenAt s t [(loc, n)] (bytesOfNat n v)
      | none => t.mem = s.mem)

/-- Boot, recovery, function-level reset and attestation (R393-R395, R450, R456): an accepted image configures partition 0
and starts TIME; a refused one leaves the package waiting for the host's; a reset partition holds no team, level or engine
operation, its function's registers are at their reset values, and what the administrative function set stays. What SHAKE256
computes is presumed (log 82), the signature check is a value of the model (log 14), and what stands while the boot is stopped is
its choice (log 81), as is that after a power-on reset device memory reads 0 (log 5) and memory outside the module stands (log 65). -/
def Obligations.BootResetAndReports : Prop :=
  (∀ img, (headerFits img = false → imageStatus img = 1) ∧ (headerFits img = true →
    let dg := shake256 (imageBody img)
    (dg.toNat ≠ imageField img 24 64 → imageStatus img = 2) ∧
    (dg.toNat = imageField img 24 64 →
      (vendorSigned (digestOf img) (imageSignature img) = false → imageStatus img = 3) ∧
      (vendorSigned (digestOf img) (imageSignature img) = true →
        imageStatus img = if imageField img 16 8 < Config.rollbackFloor.toNat then 4 else 0)))) ∧
  (∀ s live bs, flashStatus (some bs) = 0 → serviceRoom (unbooted live s) = true →
    ∃ t, exec (.powerOnReset live (some bs)) s = .next t ∧ t.booted = true ∧ t.powered = true ∧
      t.imageVersion.toNat = imageField (sliceBytes bs) 16 8 % 2 ^ 64 ∧ t.imageDigest = digestOf (sliceBytes bs) ∧
      t.time = 0 ∧ t.rate = 0x10000 ∧ t.seq = 0 ∧ teamsOf t = [] ∧ t.levels = [] ∧ t.engines = [] ∧ t.dlive = live ∧
      (partOf t 0).en = true ∧ (partOf t 0).asidCount = 8192 ∧ (partOf t 0).pmem = BitVec.allOnes 48 ∧
      (∀ p, p ≠ 0 → partOf t p = {}) ∧ (Memory.wf s.mem = true → ∀ a, targetOf a = .host → memByte t a = memByte s a) ∧
      (Memory.wf s.mem = true → ∀ a, targetOf a = .device → memByte t a = 0)) ∧
  (∀ s live flash, flashStatus flash ≠ 0 → serviceRoom (unbooted live s) = true →
    ∃ t, exec (.powerOnReset live flash) s = .next t ∧ t.booted = false ∧ t.rcvr.status = flashStatus flash ∧
      (partOf t 0).en = true ∧ (partOf t 0).asidCount = 8192 ∧ ∀ p, p ≠ 0 → partOf t p = {}) ∧
  (∀ s addr, s.rcvr.busy = true → s.rcvr.run = addr → imageStatus (hostImage s addr) = 0 → serviceRoom s = true →
    ∃ t, exec (.recoveryDone addr) s = .next t ∧ t.booted = true ∧ t.rcvr.busy = false ∧ t.rcvr.status = 0 ∧
      t.imageVersion.toNat = imageField (hostImage s addr) 16 8 % 2 ^ 64 ∧ t.imageDigest = digestOf (hostImage s addr) ∧
      t.time = 0 ∧ t.pkstat.rcv = !(s.rcvr.commit && Config.flashTakes s.fresh)) ∧
  (∀ s addr, s.rcvr.busy = true → s.rcvr.run = addr → imageStatus (hostImage s addr) ≠ 0 →
    exec (.recoveryDone addr) s =
      .next { s with rcvr := { s.rcvr with busy := false, status := imageStatus (hostImage s addr) } }) ∧
  (∀ s addr, (s.rcvr.busy = false ∨ s.rcvr.run ≠ addr) → exec (.recoveryDone addr) s = .next s) ∧
  (∀ s p, s.booted = true → (partOf s p).en = true → (partOf s p).resetting = false →
    ∃ t, exec (.functionLevelReset p) s = .next t ∧ (∀ u ∈ teamsOf t, u.part ≠ p) ∧ (∀ l ∈ t.levels, l.part ≠ p) ∧
      (∀ o ∈ t.engines, o.part ≠ p) ∧ (∀ b ∈ t.blocks, b.part ≠ p) ∧ (∀ e ∈ t.service, e.part ≠ p) ∧
      (∀ x ∈ t.preempted, x.part ≠ p) ∧ (∀ q, queueOf t p q = {}) ∧ (partOf t p).scTail = 0 ∧ (partOf t p).scEn = false ∧
      (partOf t p).pclus = (partOf s p).pclus ∧ (partOf t p).pmem = (partOf s p).pmem ∧
      (partOf t p).asidBase = (partOf s p).asidBase ∧ (partOf t p).en = true ∧ (partOf t p).resetting = true) ∧
  (∀ s p, (partOf s p).resetting = true → exec (.functionLevelResetDone p) s =
    .next { s with parts := mapSet {} s.parts p.toNat { partOf s p with resetting := false } }) ∧
  (∀ s p, (partOf s p).resetting = false → exec (.functionLevelResetDone p) s = .next s) ∧
  (∀ s p, (partOf s p).attBusy = true → s.dirty = [] → Unguarded s →
    ∃ t, exec (.attestationReportDone p) s = .next t ∧ (partOf t p).attBusy = false ∧
      let loc := locHost ((partOf s p).attRun.toNat * 4096)
      memNat t loc 8 = 1 ∧ memBytes t (loc + 8) 64 = bytesOfNat 64 (shake256 (identityKey s)).toNat ∧
      memBytes t (loc + 72) 64 = bytesOfNat 64 s.imageDigest.toNat ∧ memNat t (loc + 136) 8 = s.imageVersion.toNat ∧
      (∀ d < 8, memNat t (loc + 144 + 8 * d) 8 = d * 2 ^ 56 + (s.dlive.getD d 0).toNat) ∧
      memNat t (loc + 208) 8 = (partOf s p).pclus.toNat ∧ memNat t (loc + 216) 8 = (partOf s p).pmem.toNat ∧
      (∀ j < 32, memByte t (loc + 240 + j) = memByte s (loc + 3584 + j)) ∧
      ∀ a, ¬(loc ≤ a ∧ a < loc + 3584) → memByte t a = memByte s a) ∧
  (∀ s p, (partOf s p).attBusy = false → exec (.attestationReportDone p) s = .next s)

/-! ### Registers of the host's functions -/

namespace Sys2Proof

/-- The function of a partition answers (R383). -/
def Present (s : State) (p : BitVec 4) : Prop := s.booted = true ∧ (partOf s p).en = true ∧ (partOf s p).resetting = false

/-- Only the entry of one partition changes; only one queue of it. -/
def PartBecomes (s t : State) (p : BitVec 4) (x : Part) : Prop := t = { s with parts := mapSet {} s.parts p.toNat x }
def QueueBecomes (s t : State) (p : BitVec 4) (q : Nat) (x : Queue) : Prop :=
  PartBecomes s t p { partOf s p with queues := mapSet {} (partOf s p).queues q x }

end Sys2Proof

/-- Writes of a partition function's registers (R308, R312, R351, R383, R395): QTAIL is refused below TAIL or above HEAD +
2^LOGN; QCFG sets EN, PRIO and, while EN is 0, ASID and LOGN; an absent function changes nothing. -/
def Obligations.FunctionRegisterWrites : Prop :=
  (∀ s p (q : BitVec 6) (v : Word), Present s p →
    let x := queueOf s p q.toNat
    (x.tail.toNat ≤ v.toNat → v.toNat ≤ x.head.toNat + 2 ^ x.logn.toNat →
      ∃ t, exec (.qtailWrite p q v) s = .next t ∧ QueueBecomes s t p q.toNat { x with tail := v }) ∧
    (¬(x.tail.toNat ≤ v.toNat ∧ v.toNat ≤ x.head.toNat + 2 ^ x.logn.toNat) →
      ∃ t, exec (.qtailWrite p q v) s = .next t ∧ QueueBecomes s t p q.toNat { x with qerr := true })) ∧
  (∀ s p (q : BitVec 6) (v : Word), Present s p → v.toNat % 2 ^ 5 ≤ 16 → (queueOf s p q.toNat).en = false →
    (v.getLsbD 15 = true → asidUsable s p (v.toNat / 2 ^ 16 % 2 ^ 13) = true) →
    ∃ t, exec (.qcfgWrite p q v) s = .next t ∧
      let y := queueOf t p q.toNat
      y.en = v.getLsbD 15 ∧ y.prio.toNat = v.toNat / 2 ^ 10 % 4 ∧ y.asid.toNat = v.toNat / 2 ^ 16 % 2 ^ 13 ∧
      y.logn.toNat = v.toNat % 2 ^ 5 ∧ y.base = (queueOf s p q.toNat).base ∧
      (v.getLsbD 15 = true → y.head = 0 ∧ y.tail = 0) ∧ (v.getLsbD 9 = true → y.qerr = false) ∧ t.mem = s.mem) ∧
  (∀ s p (q : BitVec 6) (v : Word), Present s p → 16 < v.toNat % 2 ^ 5 →
    ∃ t, exec (.qcfgWrite p q v) s = .next t ∧ QueueBecomes s t p q.toNat { queueOf s p q.toNat with qerr := true }) ∧
  (∀ s p (v : Word), Present s p → (partOf s p).scEn = false →
    (v.getLsbD 15 = true → asidUsable s p (v.toNat / 2 ^ 16 % 2 ^ 13) = true) →
    ∃ t, exec (.sccfgWrite p v) s = .next t ∧ (partOf t p).scEn = v.getLsbD 15 ∧ (partOf t p).scIe = v.getLsbD 14 ∧
      (partOf t p).scAsid.toNat = v.toNat / 2 ^ 16 % 2 ^ 13 ∧
      (4 ≤ v.toNat % 2 ^ 5 → v.toNat % 2 ^ 5 ≤ 12 → (partOf t p).scLogn.toNat = v.toNat % 2 ^ 5) ∧
      (v.getLsbD 15 = true → (partOf t p).scHead = 0 ∧ (partOf t p).scTail = 0) ∧ t.mem = s.mem) ∧
  (∀ s p (v : Word), Present s p →
    ((partOf s p).scHead.toNat ≤ v.toNat ∧ v.toNat ≤ (partOf s p).scTail.toNat →
      ∃ t, exec (.scheadWrite p v) s = .next t ∧ PartBecomes s t p { partOf s p with scHead := v }) ∧
    (¬((partOf s p).scHead.toNat ≤ v.toNat ∧ v.toNat ≤ (partOf s p).scTail.toNat) → exec (.scheadWrite p v) s = .next s)) ∧
  (∀ s p (v : Word), Present s p → ∃ t, exec (.attctlGo p v) s = .next t ∧ (partOf t p).attBusy = true ∧
    (partOf t p).attAddr.toNat = v.toNat / 2 ^ 12 % 2 ^ 40 ∧
    ((partOf s p).attBusy = true → (partOf t p).attErr = true ∧ (partOf t p).attRun = (partOf s p).attRun) ∧
    ((partOf s p).attBusy = false → (partOf t p).attRun.toNat = v.toNat / 2 ^ 12 % 2 ^ 40)) ∧
  (∀ s p (cl : BitVec 6), Present s p → cl.toNat < 48 → partOfCluster s cl.toNat = some p →
    let g := gateOf s cl.toNat
    (g.st = 0 → ∃ t, exec (.cpwrQuiesce p cl) s = .next t ∧ gateOf t cl.toNat = { g with st := 1, req := 1 } ∧ t.mem = s.mem ∧
      ∀ u, u ∈ clusterTeams s cl.toNat → ∃ w ∈ clusterTeams t cl.toNat, w.place = u.place ∧ ParkReason.quiesce ∈ w.parks) ∧
    (g.st = 2 → ∃ t, exec (.cpwrSave p cl) s = .next t ∧ t = setGate s cl.toNat { g with req := 2 }) ∧
    (g.st = 3 → ∃ t, exec (.cpwrGate p cl) s = .next t ∧ t = setGate s cl.toNat { g with req := 3 }) ∧
    ((g.st = 2 ∨ g.st = 3 ∨ g.st = 4) → ∃ t, exec (.cpwrRun p cl) s = .next t ∧
      gateOf t cl.toNat = { g with st := 5, req := 0 } ∧ t.mem = s.mem) ∧
    (g.st ≠ 0 → exec (.cpwrQuiesce p cl) s = .next (setGate s cl.toNat { g with err := true }))) ∧
  (∀ s p v (q cl : BitVec 6), ¬Present s p → ∀ i, (i = .qtailWrite p q v ∨ i = .qcfgWrite p q v ∨ i = .sccfgWrite p v ∨
    i = .scheadWrite p v ∨ i = .attctlGo p v ∨ i = .cpwrQuiesce p cl ∨ i = .cpwrSave p cl ∨ i = .cpwrGate p cl ∨
    i = .cpwrRun p cl ∨ ∃ fn off, i = .registerWrite fn off v ∧ fn.toNat < 16 ∧ fn.toNat = p.toNat) → exec i s = .next s) ∧
  (∀ s (fn : BitVec 5) (p : BitVec 4) (v : Word) (n : Nat), fn.toNat = p.toNat → Present s p → n < 64 →
    (queueOf s p n).en = false → ∃ t, exec (.registerWrite fn (BitVec.ofNat 21 (32 * n)) v) s = .next t ∧
      QueueBecomes s t p n { queueOf s p n with base := BitVec.ofNat 44 (v.toNat / 2 ^ 8) } ∧
      readPartReg t p (32 * n) = some (v &&& 0x000FFFFFFFFFFF00)) ∧
  (∀ s p off, ¬Present s p → readPartReg s p off = none) ∧
  (∀ s (fn : BitVec 5) (p : BitVec 4) (cl : BitVec 6) (v : Word), fn.toNat = p.toNat → Present s p → cl.toNat < 48 →
    partOfCluster s cl.toNat = some p → (gateOf s cl.toNat).st ≠ 0 →
    v.toNat / 2 ^ 16 % 2 ^ 36 ≠ (gateOf s cl.toNat).save.toNat →
    exec (.registerWrite fn (BitVec.ofNat 21 (0x1000 + 8 * cl.toNat)) v) s =
      .next (setGate s cl.toNat { gateOf s cl.toNat with err := true }))

/-- Writes of the administrative registers (R384, R385, R392, R407, R448, R452, R456): halting and releasing dies and
partitions, presence, debug, recovery and link training; also while the boot is stopped, which is the model's choice (log 81). -/
def Obligations.AdministrativeWrites : Prop :=
  (∀ s (die : BitVec 3), s.diehalt.getLsbD die.toNat = false →
    ∃ t, exec (.diehaltSet die) s = .next t ∧ t.diehalt = s.diehalt ||| BitVec.ofNat 8 (2 ^ die.toNat) ∧ t.mem = s.mem ∧
      ∀ u ∈ teamsOf s, u.place.die.toNat = die.toNat →
        ∃ w ∈ teamsOf t, w.place = u.place ∧ ParkReason.dieHalt ∈ w.parks) ∧
  (∀ s (die : BitVec 3), s.diehalt.getLsbD die.toNat = true → s.levels = [] → s.cancels = [] → s.peerHeld = [] →
    ∃ t, exec (.diehaltClear die) s = .next t ∧ t.diehalt.getLsbD die.toNat = false ∧ t.pkstat.halted.getLsbD die.toNat = false ∧
      t.mem = s.mem) ∧
  (∀ s i (die : BitVec 3), (i = .diehaltSet die ∧ s.diehalt.getLsbD die.toNat = true ∨
    i = .diehaltClear die ∧ s.diehalt.getLsbD die.toNat = false) → exec i s = .next s) ∧
  (∀ s p, ∃ t, exec (.dbgHaltWrite p true) s = .next t ∧ (partOf t p).dbgHalt = true ∧ t.mem = s.mem ∧
    ∀ u ∈ teamsOf s, u.part = p → ∃ w ∈ teamsOf t, w.place = u.place ∧ ParkReason.debug ∈ w.parks) ∧
  (∀ s p, ∃ t, exec (.dbgHaltWrite p false) s = .next t ∧ (partOf t p).dbgHalt = false ∧ t.mem = s.mem) ∧
  (∀ s p, ∃ t, exec (.dbgAttachWrite p true) s = .next t ∧
    PartBecomes s t p { partOf s p with dbgAttach := true }) ∧
  (∀ s p, s.team.part = p → s.team.bkpt = true → s.team.status = .halted 2 → s.team.lstk = [] →
    ∃ t, exec (.dbgAttachWrite p false) s = .next t ∧ (partOf t p).dbgAttach = false ∧ t.team.status = .ready ∧
      t.team.bkpt = false ∧ t.team.sregs = s.team.sregs) ∧
  (∀ s p en, p ≠ 0 → (∀ x ∈ (partOf s p).queues, x.2.en = false) →
    ∃ t, exec (.partitionEnable p en) s = .next t ∧ PartBecomes s t p { partOf s p with en := en }) ∧
  (∀ s p en, (p = 0 ∨ ∃ x ∈ (partOf s p).queues, x.2.en = true) → exec (.partitionEnable p en) s = .next s) ∧
  (∀ s (v : Word), s.booted = false → ∃ t, exec (.rcvrGo v) s = .next t ∧ t.rcvr.busy = true ∧
    t.rcvr.addr.toNat = v.toNat / 2 ^ 12 % 2 ^ 40 ∧ t.rcvr.commit = v.getLsbD 2 ∧ t.rcvr.status = s.rcvr.status ∧
    t.rcvr.run = if s.rcvr.busy then s.rcvr.run else t.rcvr.addr) ∧
  (∀ s (links : BitVec 12), ∃ t, exec (.flrtrTrain links) s = .next t ∧ (s.service = [] → t.mem = s.mem) ∧
    (∀ j < 12, links.getLsbD j = true → (linkOf t (16 + j)).retraining = true ∧ (linkOf t (16 + j)).tries = 0) ∧
    (∀ k, ¬(16 ≤ k ∧ k < 28 ∧ links.getLsbD (k - 16) = true) → linkOf t k = linkOf s k)) ∧
  (∀ s (d : BitVec 3) (v : Word), ∃ t x, exec (.registerWrite 16 (BitVec.ofNat 21 (0x1000 + 32 * d.toNat)) v) s = .next t ∧
    DieBecomes s t d.toNat x ∧ x.cap.toNat = min 450 (max 50 (v.toNat % 2 ^ 16)) ∧
    x.slew.toNat = min 450 (max 1 (v.toNat / 2 ^ 32 % 2 ^ 16))) ∧
  (∀ s (fn : BitVec 5) off v, 16 < fn.toNat → exec (.registerWrite fn off v) s = .next s)

/-! ### The machine as a whole -/

/-- The register files (R48, R49, R23): a register reads what was written to it and no other register changes; s0 reads as
zero and discards writes; a write to k0 is discarded, and a mask holds only lanes that the team has. -/
def Obligations.RegistersReadBack : Prop :=
  (∀ t d v r, sget (sset t d v) r = if r = d ∧ d ≠ 0 then v else sget t r) ∧ (∀ t, sget t 0 = 0) ∧ (∀ t v, sset t 0 v = t) ∧
  (∀ t l d v m r, vget (vset t l d v) m r = if m = l ∧ r = d then v else vget t m r) ∧
  (∀ t d m k, kget (kset t d m) k = if k = d ∧ d ≠ 0 then m &&& laneMask t.lanes else kget t k) ∧ (∀ t m, kset t 0 m = t) ∧
  (∀ t d v, (sset t d v).vregs = t.vregs ∧ (sset t d v).masks = t.masks ∧ (sset t d v).cc = t.cc) ∧
  (∀ t l d v, (vset t l d v).sregs = t.sregs ∧ (vset t l d v).masks = t.masks ∧ (vset t l d v).cc = t.cc) ∧
  (∀ t d m, (kset t d m).sregs = t.sregs ∧ (kset t d m).vregs = t.vregs ∧ (kset t d m).cc = t.cc)

/-- Waiting for results changes the registers waited for, and nothing else of the machine (R54-R56): with no request at the
service teams, every byte of memory, every other register, and all else of the team are as they were, and what was waited
for is full. -/
def Sys2Proof.WaitingKeepsTheRest : Prop :=
  ∀ s ds s1, s.service = [] → awaitAll s ds = some s1 → ∃ u, s1 = { s with team := u } ∧
    u = { s.team with sregs := u.sregs, vregs := u.vregs, sEmpty := u.sEmpty, vEmpty := u.vEmpty, sPoison := u.sPoison,
                      vPoison := u.vPoison, inflight := u.inflight } ∧
    (∀ r, Dest.scal r ∉ ds → sget u r = sget s.team r ∧ destEmpty u (.scal r) = destEmpty s.team (.scal r)) ∧
    (∀ l r, Dest.vec r ∉ ds → vget u l r = vget s.team l r ∧ destEmpty u (.vec r) = destEmpty s.team (.vec r)) ∧
    ∀ d ∈ ds, d ≠ .scal 0 → destEmpty u d = false

/-- A result on its way is in its register when the register is waited for, and waiting changes nothing else (R54-R56). -/
def Obligations.ResultsArriveWhenWaitedFor : Prop := AwaitedResultsArrive ∧ WaitingKeepsTheRest

/-- Words written out by the encodings of spec/08 decode to the instructions that they stand for (R164, R172, R189, R197, R218,
R244, R271), one of one, of two and of three parcels; the length code 0b11 is no instruction (R165). -/
def Obligations.WrittenWordsDecode : Prop :=
  decode [0x01041FFF#32] = .ok (.addi 1 ⟨1, true⟩ (-1), 1) ∧
  decode [0x0D3FFFFA#32] = .ok (.bc .lt (-6), 1) ∧
  decode [0x59080417#32, 0x06A00000#32] = .ok (.ffma ⟨4, 2, .f32, .vec ⟨1, true⟩, .vec ⟨2, true⟩, ⟨3, true⟩⟩, 2) ∧
  decode [0xA5041004#32, 0x0020080D#32, 0x00000008#32] = .ok (.ld ⟨2, ⟨4, true⟩, some 8, .w, false, .acq .dev⟩, 3) ∧
  decode [0xB302102F#32, 0x0C000000#32, 0x100F0003#32] =
    .ok (.mxloop ⟨true, ⟨4, true⟩, ⟨5, true⟩, ⟨6, true⟩, 3, 15, 0, true, false⟩, 3) ∧
  (∀ (w : BitVec 30) rest i n, decode ((3#2 ++ w) :: rest) ≠ .ok (i, n))

/-- Decoding what the encoder writes gives the instruction back, with every operand, whatever words follow, for every
well-formed instruction of a team (R172-R175). -/
def Obligations.DecodeAndEncodeAgree : Prop :=
  ∀ i ws, Instr.wf i = true → encode i ≠ [] → decode (encode i ++ ws) = .ok (i, (encode i).length)

/-- The decoder answers only well-formed instructions of a team, of one to three parcels that the words hold; whatever fields
it ignores (R173), encoding the instruction again gives words that decode to it. -/
def Obligations.DecodedInstructionsAreWellFormed : Prop :=
  ∀ ws i n, decode ws = .ok (i, n) → Instr.wf i = true ∧ n = (encode i).length ∧ 1 ≤ n ∧ n ≤ 3 ∧ n ≤ ws.length ∧
    decode (encode i) = .ok (i, n)

namespace Sys2Proof

/-- In the teams' turn, the team in context p is asked first, and `f` is the state in which it is the current one. -/
def TeamsTurn (s f : State) (p : Place) : Prop :=
  s.inbox = [] ∧ s.powered = true ∧ s.ctlTurn % 2 = 0 ∧
    (candidates { mapTeams s (countReady s) with ctlTurn := s.ctlTurn + 1 }).head? = some p ∧
    f = focus { mapTeams s (countReady s) with ctlTurn := s.ctlTurn + 1 } p

/-- The current team fetches the line at its PC (R164-R167): no soft error has been found in its state, nothing is under way, and
nothing holds the fetch. -/
def Fetches (f : State) (l : Line) : Prop :=
  f.team.softErr = none ∧ underWay f f.team = none ∧ f.team.bkpt = false ∧ fetchHeld f f.team = false ∧
    fetchLine f f.team f.team.pc = .ok l ∧ f.team.pc.toNat % 4 = 0 ∧ parcelOf f.team.pc ≠ 15

/-- The parcels at the current team's PC decode to an instruction of n parcels in the line that holds it (R164-R170). -/
def AtPc (f : State) (l : Line) (i : Instr) (n : Nat) : Prop :=
  Fetches f l ∧ l.fillAt (parcelOf f.team.pc) = false ∧ decode (l.parcels.drop (parcelOf f.team.pc)) = .ok (i, n)

/-- The instruction and the one after it issue together: a PAIR bit, outside a capsule body, with room in the quantum, at no end
of a loop (R158, R178, R368). -/
def OpensPair (f : State) (l : Line) (n : Nat) (j : Instr) (m : Nat) : Prop :=
  l.pair (parcelOf f.team.pc) = true ∧ f.team.inPair = false ∧ inBody f.team = false ∧ pairRoom f = true ∧
    l.instr (parcelOf f.team.pc + n) = some (j, m) ∧ ∀ e ∈ f.team.lstk, e.stop ≠ f.team.pc

/-- The instruction runs; unless the team then waits at it, the lane groups that it works on are powered, and their use is noted
(R342, R346). -/
def RunsWith (i : Instr) (g t : State) : Prop :=
  ∃ u, exec i g = .next u ∧ (waitsThere g u = true ∧ t = u ∨ waitsThere g u = false ∧ needsGroups i g = [] ∧
    t = noteUse u (placeKey g.team.place) (laneGroups (lanesBegun i g)))

end Sys2Proof

/-- A step runs the decoded instruction of the team whose turn it is, exactly as exec does; with the PAIR bit set, both issue
once both are ready, the second after the first in the same step, and the second sees the special registers as they stood (R178,
R179, R180): one after the other is the model's choice (log 59). At fill the team goes on at the next line (R167); an instruction
that finds a lane group powered down waits for it (R346); a pair in a capsule body breaks the capsule (R158), which is the model's
deduction (log 72). What the fetch and the note of use change is no team and no memory. Whose turn it is, the teams' by turns with
the package's units and a turn for a cycle, is the model's choice (logs 2 and 8). -/
def Obligations.StepRunsTheDecodedInstruction : Prop :=
  (∀ s f p l i n t, TeamsTurn s f p → AtPc f l i n →
    (l.pair (parcelOf f.team.pc) = false ∨ f.team.inPair = true ∨ inBody f.team = false ∧ pairRoom f = false) →
    RunsWith i (fetched f f.team.pc) t → stillWaits f t = false → step s = .next t) ∧
  (∀ s f p l i n j m s1 s2 s3 t, TeamsTurn s f p → AtPc f l i n → OpensPair f l n j m →
    awaitAll (fetched f f.team.pc) (waitsFor j.uses) = some s1 → needsGroups j (fetched f f.team.pc) = [] → RunsWith i s1 s2 →
    openPair s1 s2 (f.team.pc + BitVec.ofNat 64 (4 * n)) = some s3 → RunsWith j s3 t → stillWaits f t = false →
    step s = .next t) ∧
  (∀ s f p l i n j m, TeamsTurn s f p → AtPc f l i n → OpensPair f l n j m →
    awaitAll (fetched f f.team.pc) (waitsFor j.uses) = none → f.team.status = .ready →
    step s = .next (waitsAt (fetched f f.team.pc) (stallKind f.team (waitsFor j.uses)))) ∧
  (∀ s f p l i n, TeamsTurn s f p → AtPc f l i n → l.pair (parcelOf f.team.pc) = true → f.team.inPair = false →
    f.team.asked = false → inBody f.team = true → f.team.status = .ready → f.team.cancelling = false →
    step s = .next (capsuleFault f f.team.pc)) ∧
  (∀ i g t, RunsWith i g t → ∃ u, exec i g = .next u ∧ t.team = u.team ∧ t.others = u.others ∧ t.mem = u.mem) ∧
  (∀ f a, (fetched f a).team = f.team ∧ (fetched f a).others = f.others ∧ (fetched f a).mem = f.mem) ∧
  (∀ s f p l, TeamsTurn s f p → Fetches f l → l.fillAt (parcelOf f.team.pc) = true → f.team.status = .ready →
    step s = .next { fetched f f.team.pc with
      team := { f.team with pc := BitVec.ofNat 64 (f.team.pc.toNat / 64 * 64) + 64 } }) ∧
  (∀ f t next, t.team.place = f.team.place → t.team.pc = next → t.team.status = .ready → f.team.pairShadow = none →
    openPair f t next = some (withTeam t fun u =>
      { u with pairShadow := some ⟨f.team.mode, f.team.rateo, f.team.fcont, f.team.fframe, cntWord f.team, f.team.qnt⟩,
               inPair := true })) ∧
  (∀ i f u g gs, exec i f = .next u → waitsThere f u = false → needsGroups i f = g :: gs →
    runDecoded exec i f = .next (waitsAt (wakeGroups f (placeKey f.team.place) (g :: gs)) .resource))

namespace Sys2Proof

/-- Memory, and the bytes that the L1s hold dirty, are in their canonical form. -/
def CanonicalMemory (s : State) : Prop := Memory.wf s.mem = true ∧ mapWf none s.dirty = true

end Sys2Proof

/-- Every step, of every team, unit and event, keeps memory in its canonical form, so that equal memories are equal data. The form is
the model's own representation of the manual's memory: one list of locations (log 60) that names no byte which reads as a byte that
nothing has written does (log 5). -/
def Obligations.EveryStepKeepsMemoryCanonical : Prop := ∀ s t, CanonicalMemory s → step s = .next t → CanonicalMemory t

/-- While it is powered the package always steps: no instruction, command or event is refused, and none stops the machine;
powered off, it does nothing until a power-on reset (R455). That a step then ends in the fault poweredOff, and that what else arrives
is dropped, is the model's deduction (log 57). -/
def Obligations.APoweredPackageAlwaysSteps : Prop :=
  (∀ s, s.powered = true → ∃ t, step s = .next t) ∧ (∀ i s, ∃ t, exec i s = .next t) ∧
  (∀ s, s.powered = false → s.inbox = [] → step s = .fault .poweredOff) ∧
  (∀ s e rest, s.powered = false → s.inbox = e :: rest → (∀ live img, e ≠ .powerOnReset live img) →
    step s = .next { s with inbox := rest })

/-- After reset (R64, R335, R385, R392, R393): TIME 0, B and G 1, no team, block, level or engine operation, partition 0 present
with every cluster, memory slice and ASID and the package totals, and memory in its canonical form, reading as zero (the zero
is the model's choice: log 5; so are that self-test found every cluster live, and the dies' TEMP of 0: log 3). -/
def Obligations.ResetLeaves : Prop :=
  CanonicalMemory State.reset ∧ State.reset.time = 0 ∧ State.reset.rate = 0x10000 ∧ State.reset.target = 0x10000 ∧
  State.reset.seq = 0 ∧ teamsOf State.reset = [] ∧ State.reset.blocks = [] ∧ State.reset.levels = [] ∧
  State.reset.engines = [] ∧ State.reset.pkstat = {} ∧ State.reset.diehalt = 0 ∧
  (partOf State.reset 0).en = true ∧ (partOf State.reset 0).pclus = BitVec.allOnes 48 ∧
  (partOf State.reset 0).pmem = BitVec.allOnes 48 ∧ (partOf State.reset 0).asidBase = 0 ∧
  (partOf State.reset 0).asidCount = 8192 ∧ (partOf State.reset 0).quotas = [1024, 8192, 24576, 1024, 12288, 512, 256] ∧
  (∀ p, p ≠ 0 → (partOf State.reset p).en = false ∧ (partOf State.reset p).pclus = 0 ∧ (partOf State.reset p).asidCount = 0) ∧
  (∀ p q, queueOf State.reset p q = {}) ∧ (∀ d, dieOf State.reset d = {}) ∧ (∀ a, memByte State.reset a = 0)
end

