-- ==== Sys2Proof/Laws/Map.lean ====
section
/-! SUPPORT. The laws of sparse maps: a read after a write, and the canonical form that every write and filter keeps. -/

namespace Sys2Proof.Machine

set_option Elab.async false

variable {β : Type} [DecidableEq β]

omit [DecidableEq β] in
theorem mapGet_of_lt (d : β) (m : List (Nat × β)) (j : Nat) (h : ∀ x ∈ m.head?, j < x.1) : mapGet d m j = d := by
  cases m with
  | nil => rfl
  | cons x rest =>
    have : j < x.1 := h x (by simp)
    simp [mapGet, this, Nat.ne_of_lt this]

omit [DecidableEq β] in
theorem mapAfter_head (k : Nat) (m : List (Nat × β)) : ∀ x ∈ (mapAfter k m).head?, k < x.1 := by
  induction m with
  | nil => simp [mapAfter]
  | cons y rest ih =>
    unfold mapAfter
    split
    · exact ih
    · intro x hx
      cases hx
      exact Nat.lt_of_not_le ‹_›

omit [DecidableEq β] in
theorem mapGet_mapAfter (d : β) (k j : Nat) (m : List (Nat × β)) (h : k < j) :
    mapGet d (mapAfter k m) j = mapGet d m j := by
  induction m with
  | nil => rfl
  | cons y rest ih =>
    obtain ⟨q, v⟩ := y
    unfold mapAfter
    split
    · next hq =>
      have h1 : ¬ j = q := by omega
      have h2 : ¬ j < q := by omega
      simp [ih, mapGet, h1, h2]
    · rfl

theorem mapGet_mapPut (d v : β) (k : Nat) (rest : List (Nat × β)) (h : ∀ x ∈ rest.head?, k < x.1) (j : Nat) :
    mapGet d (mapPut d v k rest) j = if j = k then v else if j < k then d else mapGet d rest j := by
  unfold mapPut
  split
  · next hv =>
    subst hv
    split
    · next hj => subst hj; exact mapGet_of_lt _ _ _ h
    · split
      · next _ hj => exact mapGet_of_lt _ _ _ fun x hx => by have := h x hx; omega
      · rfl
  · rfl

/-- A read after a write. -/
theorem mapGet_mapSet (d : β) (m : List (Nat × β)) (j : Nat) (v : β) (k : Nat) :
    mapGet d (mapSet d m j v) k = if k = j then v else mapGet d m k := by
  induction m with
  | nil =>
    rw [mapSet, mapGet_mapPut _ _ _ _ (by simp)]
    simp [mapGet]
  | cons x rest ih =>
    obtain ⟨q, w⟩ := x
    unfold mapSet
    split
    · next hj =>
      subst hj
      rw [mapGet_mapPut _ _ _ _ (mapAfter_head _ _)]
      by_cases hk : k = j
      · simp [hk]
      · by_cases hl : k < j
        · simp [mapGet, hk, hl]
        · simp [mapGet, hk, hl, mapGet_mapAfter d j k rest (by omega)]
    · split
      · next hne hlt =>
        rw [mapGet_mapPut _ _ _ _ (by intro x hx; simp at hx; subst hx; exact hlt)]
        by_cases hk : k = j
        · simp [hk]
        · by_cases hl : k < j
          · have h1 : k ≠ q := by omega
            have h2 : k < q := by omega
            simp [mapGet, hk, hl, h1, h2]
          · simp [hk, hl]
      · next hne hlt =>
        by_cases hkq : k = q
        · have : k ≠ j := by omega
          simp [mapGet, hkq]; omega
        · by_cases hl : k < q
          · have : k ≠ j := by omega
            simp [mapGet, hkq, hl, this]
          · simp [mapGet, hkq, hl, ih]

@[simp] theorem mapGet_mapSet_self (d : β) (m : List (Nat × β)) (j : Nat) (v : β) : mapGet d (mapSet d m j v) j = v := by
  simp [mapGet_mapSet]

theorem mapGet_mapSet_ne (d : β) (m : List (Nat × β)) {j k : Nat} (v : β) (h : k ≠ j) :
    mapGet d (mapSet d m j v) k = mapGet d m k := by
  simp [mapGet_mapSet, h]

/-! ### The canonical form -/

theorem mapAbove_mono {d : β} {m : List (Nat × β)} {lo hi : Nat} (h : mapAbove d hi m = true) (hl : lo ≤ hi) :
    mapAbove d lo m = true := by
  cases m with
  | nil => rfl
  | cons x rest => simp [mapAbove] at h ⊢; exact ⟨⟨by omega, h.1.2⟩, h.2⟩

theorem mapAfter_above {d : β} {m : List (Nat × β)} {lo k : Nat} (h : mapAbove d lo m = true) :
    mapAbove d (max lo (k + 1)) (mapAfter k m) = true := by
  induction m generalizing lo with
  | nil => rfl
  | cons x rest ih =>
    obtain ⟨q, v⟩ := x
    simp [mapAbove] at h
    unfold mapAfter
    split
    · exact mapAbove_mono (ih h.2) (by omega)
    · simp [mapAbove]; exact ⟨⟨by omega, h.1.2⟩, h.2⟩

theorem mapPut_above {d v : β} {k lo : Nat} {rest : List (Nat × β)} (hl : lo ≤ k)
    (h : mapAbove d (k + 1) rest = true) : mapAbove d lo (mapPut d v k rest) = true := by
  unfold mapPut
  split
  · exact mapAbove_mono h (by omega)
  · next hv => simp [mapAbove, hl, hv, h]

theorem mapSet_above {d v : β} {m : List (Nat × β)} {j lo : Nat} (h : mapAbove d lo m = true) (hl : lo ≤ j) :
    mapAbove d lo (mapSet d m j v) = true := by
  induction m generalizing lo with
  | nil => exact mapPut_above hl rfl
  | cons x rest ih =>
    obtain ⟨q, w⟩ := x
    have h' := h
    simp [mapAbove] at h
    unfold mapSet
    split
    · next hj =>
      subst hj
      exact mapPut_above hl (mapAbove_mono (mapAfter_above h.2) (by omega))
    · split
      · next hne hlt => exact mapPut_above hl (by simp [mapAbove]; exact ⟨⟨by omega, h.1.2⟩, h.2⟩)
      · next hne hlt => simp [mapAbove]; exact ⟨h.1, ih h.2 (by omega)⟩

/-- A write keeps the canonical form. -/
theorem mapWf_mapSet {d : β} {m : List (Nat × β)} (h : mapWf d m = true) (j : Nat) (v : β) :
    mapWf d (mapSet d m j v) = true := mapSet_above h (by omega)

theorem mapAbove_filter {d : β} {m : List (Nat × β)} {lo : Nat} (h : mapAbove d lo m = true) (p : Nat × β → Bool) :
    mapAbove d lo (m.filter p) = true := by
  induction m generalizing lo with
  | nil => rfl
  | cons x rest ih =>
    obtain ⟨q, w⟩ := x
    simp [mapAbove] at h
    simp only [List.filter_cons]
    split
    · simp [mapAbove]; exact ⟨h.1, ih h.2⟩
    · exact mapAbove_mono (ih h.2) (by omega)

/-- So does a filter. -/
theorem mapWf_filter {d : β} {m : List (Nat × β)} (h : mapWf d m = true) (p : Nat × β → Bool) :
    mapWf d (m.filter p) = true := mapAbove_filter h p

end Sys2Proof.Machine
end

