-- ==== Sys2Proof/Laws/Memory.lean ====
section
/-! SUPPORT. The laws of memory: what a byte reads as after a write, and that every memory operation keeps the canonical
form. -/

namespace Sys2Proof.Machine

set_option Elab.async false

/-! ### Reads after writes -/

/-- A byte after bytes have been written at a location. -/
theorem mapGet_writeCells (m : List Host.Cell) (loc : Nat) (bs : List Byte) (a : Nat) :
    mapGet 0 (writeCells m loc bs) a =
      if loc ≤ a ∧ a < loc + bs.length then bs.getD (a - loc) 0 else mapGet 0 m a := by
  induction bs generalizing loc with
  | nil => simp [writeCells] <;> omega
  | cons b bs ih =>
    rw [writeCells, mapGet_mapSet]
    by_cases h : a = loc
    · subst h; simp
    · rw [if_neg h, ih]
      by_cases h2 : loc + 1 ≤ a ∧ a < loc + 1 + bs.length
      · have h3 : loc ≤ a ∧ a < loc + (b :: bs).length := by simp; omega
        rw [if_pos h2, if_pos h3]
        have : a - loc = (a - (loc + 1)) + 1 := by omega
        rw [this, List.getD_cons_succ]
      · have h3 : ¬ (loc ≤ a ∧ a < loc + (b :: bs).length) := by simp; omega
        rw [if_neg h2, if_neg h3]

theorem memByte_rawWrite (s : State) (loc : Nat) (bs : List Byte) (a : Nat) :
    memByte (rawWrite s loc bs) a =
      if loc ≤ a ∧ a < loc + bs.length then bs.getD (a - loc) 0 else memByte s a :=
  mapGet_writeCells s.mem loc bs a

/-! ### The canonical form -/

theorem writeCells_wf {m : List Host.Cell} (h : Memory.wf m = true) (loc : Nat) (bs : List Byte) :
    Memory.wf (writeCells m loc bs) = true := by
  induction bs generalizing loc with
  | nil => exact h
  | cons b bs ih => exact mapWf_mapSet (ih (loc + 1)) loc b

theorem rawWrite_wf {s : State} (h : Memory.wf s.mem = true) (loc : Nat) (bs : List Byte) :
    Memory.wf (rawWrite s loc bs).mem = true := writeCells_wf h loc bs

theorem writeFree_wf {s : State} (h : Memory.wf s.mem = true) (loc : Nat) (bs : List Byte) :
    Memory.wf (writeFree s loc bs) = true := by
  induction bs generalizing loc with
  | nil => exact h
  | cons b bs ih =>
    unfold writeFree
    split
    · exact ih (loc + 1)
    · exact mapWf_mapSet (ih (loc + 1)) loc b

theorem report_mem (s : State) (p : BitVec 4) (rep : Byte) (target addr : Word) :
    (report s p rep target addr).mem = s.mem := by
  unfold report; simp only; split <;> rfl

theorem countWrites_mem (s : State) (loc n : Nat) : (countWrites s loc n).mem = s.mem := by
  unfold countWrites; split <;> rfl

theorem collapse_mem (s : State) (loc n : Nat) : (collapse s loc n).mem = s.mem := by
  unfold collapse; simp only; split <;> rfl

/-- What happens to the caches and the directory before a write changes no byte. -/
theorem ownLines_mem (s : State) (own : Option Nat) (loc n : Nat) : (ownLines s own loc n).mem = s.mem := by
  unfold ownLines
  simp only
  split
  · exact collapse_mem s loc n
  · rw [countWrites_mem]; exact collapse_mem s loc n

theorem markWhole_mem (s : State) (k : Nat) (ls : List Nat) (w : Bool) : (markWhole s k ls w).mem = s.mem := by
  unfold markWhole; split <;> rfl

theorem ownWrite_wf {s : State} (h : Memory.wf s.mem = true) (loc : Nat) (bs : List Byte) :
    Memory.wf (ownWrite s loc bs).mem = true := by
  unfold ownWrite
  exact rawWrite_wf (by rw [ownLines_mem]; exact h) loc bs

theorem performBy_wf {s : State} (h : Memory.wf s.mem = true) (own : Option Nat) (p : BitVec 4) (pl : Place) (loc : Nat)
    (bs : List Byte) : Memory.wf (performBy own s p pl loc bs).mem = true := by
  unfold performBy
  simp only
  split
  · split
    · refine rawWrite_wf ?_ loc bs
      have h0 : Memory.wf (ownLines s own loc bs.length).mem = true := by rw [ownLines_mem]; exact h
      split
      · exact h0
      · exact h0
    · exact writeFree_wf h loc bs
  · split <;> split <;> simp only [report_mem] <;> exact writeFree_wf h loc bs

theorem performStore_wf {s : State} (h : Memory.wf s.mem = true) (p : BitVec 4) (pl : Place) (loc : Nat)
    (bs : List Byte) : Memory.wf (performStore s p pl loc bs).mem = true := performBy_wf h _ _ _ _ _

/-- Folding an operation that keeps the form keeps it. -/
theorem foldl_wf {α : Type} (f : State → α → State)
    (hf : ∀ s a, Memory.wf s.mem = true → Memory.wf (f s a).mem = true) (xs : List α) {s : State}
    (h : Memory.wf s.mem = true) : Memory.wf (xs.foldl f s).mem = true := by
  induction xs generalizing s with
  | nil => exact h
  | cons x xs ih => exact ih (hf s x h)

theorem flushWhere_wf {s : State} (h : Memory.wf s.mem = true) (p : Nat → Nat → Bool) :
    Memory.wf (flushWhere s p).mem = true :=
  foldl_wf _ (fun _ _ hs => performBy_wf hs _ _ _ _ _) _ (by exact h)

theorem flushCore_wf {s : State} (h : Memory.wf s.mem = true) (k : Nat) : Memory.wf (flushCore s k).mem = true :=
  flushWhere_wf h _

theorem flushLines_wf {s : State} (h : Memory.wf s.mem = true) (loc n : Nat) :
    Memory.wf (flushLines s loc n).mem = true := flushWhere_wf h _

theorem flushLine_wf {s : State} (h : Memory.wf s.mem = true) (k line : Nat) :
    Memory.wf (flushLine s k line).mem = true := flushWhere_wf h _

/-- Reads change caches and the annex directory, and no byte. -/
theorem readL2_mem (s : State) (die : Nat) (a : BitVec 13) (loc : Nat) : (readL2 s die a loc).mem = s.mem := by
  unfold readL2 fillL2 dirRead touchL2
  split
  · rfl
  · split
    · split <;> rfl
    · rfl

theorem noteRead_mem (s : State) (w : Who) (loc : Nat) : (noteRead s w loc).mem = s.mem := by
  unfold noteRead touchL1
  split
  · rfl
  · simp only
    split
    · rfl
    · exact readL2_mem _ _ _ _

theorem readPiecesL2_wf {s : State} (h : Memory.wf s.mem = true) (die : Nat) (a : BitVec 13) (ps : List (Nat × Nat)) :
    Memory.wf (readPiecesL2 s die a ps).mem = true :=
  foldl_wf _ (fun _ _ hs => foldl_wf _ (fun s l hs => by rw [readL2_mem]; exact hs) _ hs) _ h

theorem storeOut_wf {s : State} (h : Memory.wf s.mem = true) (w : Who) (loc : Nat) (bs : List Byte) :
    Memory.wf (storeOut s w loc bs).mem = true := by
  unfold storeOut
  split
  · show Memory.wf (countWrites _ loc bs.length).mem = true
    rw [countWrites_mem]; exact h
  · exact performStore_wf h _ _ _ _

theorem storesOut_wf {s : State} (h : Memory.wf s.mem = true) (w : Who) (xs : List BufStore) :
    Memory.wf (storesOut s w xs).mem = true := by
  unfold storesOut
  simp only
  rw [markWhole_mem]
  refine foldl_wf _ (fun _ _ hs => storeOut_wf hs _ _ _) _ (foldl_wf _ (fun s l hs => ?_) _ h)
  split
  · exact hs
  · rw [noteRead_mem]; exact hs

theorem storeAll_wf {s : State} (h : Memory.wf s.mem = true) (xs : List BufStore) :
    Memory.wf (storeAll s xs).mem = true := by
  unfold storeAll
  split
  · exact h
  · split
    · exact h
    · exact storesOut_wf h _ _

theorem storeTeam_wf {s : State} (h : Memory.wf s.mem = true) (loc : Nat) (bs : List Byte) :
    Memory.wf (storeTeam s loc bs).mem = true := storeAll_wf h _

theorem mapTeam_mem (s : State) (p : Place) (f : Team → Team) : (mapTeam s p f).mem = s.mem := by
  unfold mapTeam; split <;> rfl

theorem serveAtom_wf {s : State} (h : Memory.wf s.mem = true) (e : SvcEntry) :
    Memory.wf (serveAtom s e).mem = true := by
  unfold serveAtom
  simp only
  have h1 := flushLines_wf h e.req.loc (atomBytes e.req.dw)
  split
  · exact h
  split
  · rw [mapTeam_mem]; exact h1
  · have h2 : ∀ x : Option Nat, Memory.wf (match x with
        | some v => performStore (flushLines s e.req.loc (atomBytes e.req.dw)) e.part e.place e.req.loc
            (bytesOfNat (atomBytes e.req.dw) v)
        | none => countWrites (flushLines s e.req.loc (atomBytes e.req.dw)) e.req.loc (atomBytes e.req.dw)).mem = true := by
      intro x
      cases x with
      | none => rw [countWrites_mem]; exact h1
      | some v => exact performStore_wf h1 _ _ _ _
    split
    · rw [mapTeam_mem]; exact h2 _
    · exact h2 _

theorem drain_wf {s : State} (h : Memory.wf s.mem = true) : Memory.wf (drain s).mem = true :=
  foldl_wf _ (fun _ _ hs => serveAtom_wf hs _) _ (by exact h)

theorem release_wf {s : State} (h : Memory.wf s.mem = true) (sc : Scope) : Memory.wf (release s sc).mem = true := by
  unfold release
  split
  · exact h
  · exact drain_wf h
  · split
    · exact flushCore_wf (drain_wf h) _
    · exact drain_wf h
  all_goals exact flushCore_wf (drain_wf h) _

theorem awaitDest_wf {s s1 : State} (h : Memory.wf s.mem = true) {d : Dest} (he : awaitDest s d = some s1) :
    Memory.wf s1.mem = true := by
  unfold awaitDest at he
  split at he
  · split at he
    · cases he; exact h
    · simp only [Option.map_eq_some_iff] at he
      obtain ⟨t, -, rfl⟩ := he
      exact drain_wf h
  · cases he; exact h

theorem awaitAll_wf {ds : List Dest} {s s1 : State} (h : Memory.wf s.mem = true) (he : awaitAll s ds = some s1) :
    Memory.wf s1.mem = true := by
  induction ds generalizing s with
  | nil => cases he; exact h
  | cons d ds ih =>
    simp only [awaitAll, Option.bind_eq_some_iff] at he
    obtain ⟨s2, h2, h3⟩ := he
    exact ih (awaitDest_wf h h2) h3

theorem hallPerform_wf {s : State} (h : Memory.wf s.mem = true) (x : HallOut) : Memory.wf (hallPerform s x).mem = true :=
  performStore_wf (flushLines_wf h _ _) _ _ _ _

theorem hallStore_wf {ps : List (Nat × Nat)} {s : State} (h : Memory.wf s.mem = true) (p : BitVec 4) (bs : List Byte) :
    Memory.wf (hallStore s p ps bs).mem = true := by
  induction ps generalizing s bs with
  | nil => exact h
  | cons x ps ih =>
    unfold hallStore
    refine ih ?_ _
    split
    · exact hallPerform_wf h _
    · exact h

theorem hallWrite_wf {s s1 : State} (h : Memory.wf s.mem = true) {p : BitVec 4} {asid : BitVec 13} {va : Word}
    {bs : List Byte} (he : hallWrite s p asid va bs = some s1) : Memory.wf s1.mem = true := by
  simp only [hallWrite, Option.map_eq_some_iff] at he
  obtain ⟨ps, -, rfl⟩ := he
  exact hallStore_wf h p bs

theorem hallRead_wf {s s1 : State} (h : Memory.wf s.mem = true) {p : BitVec 4} {asid : BitVec 13} {va : Word} {n : Nat}
    {bs : List Byte} (he : hallRead s p asid va n = some (bs, s1)) : Memory.wf s1.mem = true := by
  unfold hallRead at he
  split at he
  · cases he
  · split at he
    · cases he
    · cases he; exact readPiecesL2_wf (foldl_wf _ (fun _ _ hs => flushLines_wf hs _ _) _ h) _ _ _

theorem postEntry_wf {s s1 : State} (h : Memory.wf s.mem = true) {p : BitVec 4} {bs : List Byte}
    (he : postEntry s p bs = some s1) : Memory.wf s1.mem = true := by
  simp only [postEntry, Option.map_eq_some_iff] at he
  obtain ⟨s2, h2, rfl⟩ := he
  exact hallWrite_wf (s1 := s2) h h2

theorem postNotice_wf {s : State} (h : Memory.wf s.mem = true) (p : BitVec 4) (bs : List Byte) :
    Memory.wf (postNotice s p bs).mem = true := by
  unfold postNotice
  split
  · cases he : postEntry s p bs with
    | none => exact h
    | some s1 => exact postEntry_wf h he
  · exact h

theorem descheduleCap_mem (s : State) (t : Team) (run : Bool) : (descheduleCap s t run).mem = s.mem := by
  unfold descheduleCap askState; split
  · rfl
  · split <;> rfl

theorem haltTeam_wf {s : State} (h : Memory.wf s.mem = true) (p : Place) (x : Stop) :
    Memory.wf (haltTeam s p x).mem = true := by
  unfold haltTeam
  split
  · exact h
  · refine postNotice_wf (flushCore_wf ?_ _) _ _
    rw [descheduleCap_mem]
    show Memory.wf (mapTeam s p _).mem = true
    rw [mapTeam_mem]; exact h

theorem storePieces_wf {n : Nat} {s s1 : State} (h : Memory.wf s.mem = true) {va : Word} {bs : List Byte}
    (he : storePieces s va n bs = .ok s1) : Memory.wf s1.mem = true := by
  induction n generalizing s va bs with
  | zero => cases he; exact h
  | succ n ih =>
    unfold storePieces at he
    split at he
    · exact ih (storeTeam_wf h _ _) he
    · cases he
    · cases he

theorem redirect_wf {s : State} (h : Memory.wf s.mem = true) (x : Stop) : Memory.wf (redirect s x).mem = true :=
  postNotice_wf (flushCore_wf (by exact h) _) _ _

theorem recSet_wf {s : State} (h : Memory.wf s.mem = true) (rcd off : Nat) (v : Word) :
    Memory.wf (recSet s rcd off v).mem = true := ownWrite_wf h _ _

theorem endInstance_wf {s : State} (h : Memory.wf s.mem = true) (rcd out : Nat) :
    Memory.wf (endInstance s rcd out).mem = true := by
  simp only [endInstance]
  exact recSet_wf (recSet_wf h _ _ _) _ _ _

theorem breakRecord_wf {s : State} (h : Memory.wf s.mem = true) (rcd : Nat) :
    Memory.wf (breakRecord s rcd).mem = true := recSet_wf (endInstance_wf h _ _) _ _ _

theorem capsuleFault_wf {s : State} (h : Memory.wf s.mem = true) (pc : Word) :
    Memory.wf (capsuleFault s pc).mem = true := by
  refine haltTeam_wf ?_ _ _
  show Memory.wf (match s.team.held with
    | some h => if owns s s.team h.rcd then breakRecord s h.rcd else s
    | none => s).mem = true
  split
  · split
    · exact breakRecord_wf h _
    · exact h
  · exact h

/-- Taking a stop keeps the canonical form. -/
theorem tryRaise_wf {s s1 : State} (h : Memory.wf s.mem = true) {x : Stop} (he : tryRaise s x = some s1) :
    Memory.wf s1.mem = true := by
  unfold tryRaise at he
  simp only at he
  split at he
  · cases he; exact capsuleFault_wf h _
  · split at he
    · split at he
      · cases he
      · cases he; exact haltTeam_wf (drain_wf h) _ _
      · next s2 h2 =>
        cases he
        split
        · exact redirect_wf (storePieces_wf (drain_wf h) h2) _
        · exact haltTeam_wf (storePieces_wf (drain_wf h) h2) _ _
    · cases he; exact haltTeam_wf h _ _

end Sys2Proof.Machine
end

