-- ==== Sys2Proof/Laws/Issue.lean ====
section
/-! SUPPORT. What issuing an instruction comes to: one law for each end that an effect can have. -/

namespace Sys2Proof.Machine

set_option Elab.async false

/-- A clean team needs no unpoisoning. -/
theorem unpoison_clean (i : Instr) {s : State} (hs : s.team.sPoison = 0) (hv : s.team.vPoison = 0) : unpoison i s = s := by
  simp [unpoison, hs, hv]

theorem loopEnd_inner {here : Word} {ls : List LoopEntry} (h : ∀ e ∈ ls.head?, e.stop ≠ here) :
    loopEnd here ls = (ls, none) := by
  cases ls with
  | nil => rfl
  | cons e rest => simp [loopEnd, h e (by simp)]

/-- The checks passed, what is left is the effect. -/
theorem checked_of_issues {i : Instr} {s s1 : State} (h : Issues i s s1) (body : State → Eff) :
    checked i s body = body s1 := by
  simp [checked, checkedAt, h.fresh, h.body, h.use, h.source, h.waits, h.poison]

theorem retireAt_eq {s : State} {here tgt : Word} (h : ∀ e ∈ s.team.lstk.head?, e.stop ≠ here) :
    retireAt s here tgt = goesOn s tgt := by
  simp only [retireAt, loopEnd_inner h]
  rfl

/-- Away from the end of a loop, a retirement has no transfer to check. -/
theorem retireChecked_eq {s0 s : State} {tgt : Word} (h : ∀ e ∈ s.team.lstk.head?, e.stop ≠ s0.team.pc) :
    retireChecked s0 s tgt = goesOn s tgt := by
  simp only [retireChecked, loopEnd_inner h, retireAt_eq h]

theorem keepOp_fresh {i : Instr} {s : State} (h : s.team.asked = false) : keepOp i s = s := by simp [keepOp, h]

/-- The effect retires: the team goes on at the next instruction. -/
theorem issue_retire {i : Instr} {s s1 s2 : State} {body : State → Eff} (h : Issues i s s1) (he : body s1 = .retire s2)
    (hs : s2.team.sPoison = 0) (hv : s2.team.vPoison = 0) (hl : ∀ e ∈ s2.team.lstk.head?, e.stop ≠ s.team.pc) :
    issue i s body = .next (goesOn s2 (nextPc i s)) := by
  simp only [issue, checked_of_issues h, he, Eff.cleaned, unpoison_clean i hs hv, conclude, retireChecked_eq hl]

/-- The effect lands elsewhere, unchecked. -/
theorem issue_land {i : Instr} {s s1 s2 : State} {tgt : Word} {body : State → Eff} (h : Issues i s s1)
    (he : body s1 = .land s2 tgt) (hs : s2.team.sPoison = 0) (hv : s2.team.vPoison = 0)
    (hl : ∀ e ∈ s2.team.lstk.head?, e.stop ≠ s.team.pc) : issue i s body = .next (goesOn s2 tgt) := by
  simp only [issue, checked_of_issues h, he, Eff.cleaned, unpoison_clean i hs hv, conclude, retireChecked_eq hl]

/-- The effect is a checked transfer to a good target, by an instruction that is no branch. -/
theorem issue_goto {i : Instr} {s s1 s2 : State} {tgt : Word} {body : State → Eff} (h : Issues i s s1)
    (he : body s1 = .goto s2 tgt) (hs : s2.team.sPoison = 0) (hv : s2.team.vPoison = 0)
    (hl : ∀ e ∈ s2.team.lstk.head?, e.stop ≠ s.team.pc) (hb : i.isBranch = false)
    (ht : badTarget s s.team tgt = none) : issue i s body = .next (goesOn s2 tgt) := by
  simp [issue, checked_of_issues h, he, Eff.cleaned, unpoison_clean i hs hv, conclude, ht, hb, retireAt_eq hl]

/-- The effect is a taken branch to a good target. -/
theorem issue_branch {i : Instr} {s s1 s2 : State} {tgt : Word} {body : State → Eff} (h : Issues i s s1)
    (he : body s1 = .goto s2 tgt) (hs : s2.team.sPoison = 0) (hv : s2.team.vPoison = 0) (hb : i.isBranch = true)
    (ht : badTarget s s.team tgt = none) :
    issue i s body =
      .next (goesOn (withTeam s2 fun t => { t with lstk := popTaken s.team.pc tgt t.lstk }) tgt) := by
  simp only [issue, checked_of_issues h, he, Eff.cleaned, unpoison_clean i hs hv, conclude, ht, hb]
  rfl

theorem issue_hold {i : Instr} {s s1 s2 : State} {w : WaitOn} {body : State → Eff} (h : Issues i s s1)
    (he : body s1 = .hold s2 w) : issue i s body = .next (waitsAt (keepOp i s2) w) := by
  simp only [issue, checked_of_issues h, he, Eff.cleaned, conclude]
  rfl

theorem issue_stop {i : Instr} {s s1 s2 : State} {x : Stop} {body : State → Eff} (h : Issues i s s1)
    (he : body s1 = .stop s2 x) : issue i s body = .next (stopAt s s2 x) := by
  simp only [issue, checked_of_issues h, he, Eff.cleaned, conclude]

theorem issue_done {i : Instr} {s s1 s2 : State} {body : State → Eff} (h : Issues i s s1)
    (he : body s1 = .done s2) : issue i s body = .next s2 := by
  simp only [issue, checked_of_issues h, he, Eff.cleaned, conclude]

/-- An illegal use found at issue is the stop that follows (R410 step 3). -/
theorem issue_use {i : Instr} {s s1 : State} {x : Stop} (body : State → Eff) (ha : s.team.asked = false)
    (hw : awaitAll s (waitsFor i.uses) = some s1) (hb : bodyBreach i s1 = false) (hu : preUse i s1 = some x) :
    issue i s body = .next (stopAt s s1 x) := by
  simp [issue, checked, checkedAt, ha, hw, hb, hu, Eff.cleaned, conclude]

/-- An instruction that waits for a register holds its team. -/
theorem issue_wait {i : Instr} {s : State} (body : State → Eff) (ha : s.team.asked = false)
    (hw : awaitAll s (waitsFor i.uses) = none) :
    issue i s body = .next (waitsAt s (stallKind s.team (waitsFor i.uses))) := by
  simp only [issue, checked, ha, hw, Eff.cleaned, conclude, Bool.false_eq_true, if_false, keepOp_fresh ha]
  rfl

/-- An effect behind a release that nothing holds. -/
theorem relThen_go {s : State} {sc : Scope} (h : releaseWaits s sc = false) (k : State → Eff) :
    relThen s sc k = k (release s sc) := by simp [relThen, h]

/-- An issue never refuses and never faults. -/
theorem issue_next (i : Instr) (s : State) (body : State → Eff) : ∃ t, issue i s body = .next t := ⟨_, rfl⟩

/-- Every instruction of a team is the checks of R410 around an effect of its own. -/
theorem exec_is_issue (i : Instr) (s : State) (h : encode i ≠ []) : ∃ body, exec i s = issue i s body := by
  cases i <;> first | exact absurd rfl h | exact ⟨_, rfl⟩

end Sys2Proof.Machine
end

