-- ==== Sys2Proof/Laws/Noted.lean ====
section
/-! SUPPORT. What a read tells the caches and the annexes (R80, R362) changes no byte that a team reads, no translation, and,
with no link and no die held, no check of an address. -/

namespace Sys2Proof.Machine

set_option Elab.async false

/-- A state with other caches and annexes. -/
def noted (s : State) (a b : List (Nat × List CacheLine)) (c : List Region) (d : List (Nat × Word)) : State :=
  { s with l1 := a, l2 := b, annex := c, annexCnt := d }

theorem noted_byte (s : State) (a b c d) (t : Team) (loc : Nat) (h : ordered t = false) (hp : targetOf loc ≠ .page) :
    teamByte (noted s a b c d) t loc = teamByte s t loc := by
  simp only [teamByte, coreByte, h, hp, if_false, Bool.false_eq_true]
  rfl

theorem noted_run (s : State) (a b c d) (t : Team) (h : ordered t = false) : ∀ (n loc : Nat), (∀ j < n, targetOf (loc + j) ≠ .page) →
    teamBytes (noted s a b c d) t loc n = teamBytes s t loc n := by
  intro n
  induction n with
  | zero => intros; simp [teamBytes, bytesBy]
  | succ n ih =>
    intro loc hp
    show _ :: teamBytes _ t (loc + 1) n = _ :: teamBytes _ t (loc + 1) n
    rw [noted_byte s a b c d t loc h (hp 0 (by omega)), ih (loc + 1) fun j hj => by
      have := hp (j + 1) (by omega); rwa [show loc + (j + 1) = loc + 1 + j by omega] at this]

theorem noted_bytes (s : State) (a b c d) (h : ordered s.team = false) : ∀ (ps : List (Nat × Nat)),
    (∀ x ∈ ps, ∀ j < x.2, targetOf (x.1 + j) ≠ .page) → pieceBytes (noted s a b c d) ps = pieceBytes s ps
  | [], _ => by simp [pieceBytes]
  | x :: ps, hp => by
    have hx := noted_run s a b c d s.team h x.2 x.1 (hp x (by simp))
    have ih := noted_bytes s a b c d h ps fun y hy => hp y (by simp [hy])
    simp only [pieceBytes, List.flatMap_cons] at ih ⊢
    rw [ih]; exact congrArg (· ++ _) hx

theorem noted_free (s : State) (a b c d) (hl : heldLinks s = []) (hh : s.pkstat.halted = 0) (w acc loc) :
    heldAccess (noted s a b c d) w acc loc = false := by
  have hl' : heldLinks (noted s a b c d) = [] := hl
  have hh' : (noted s a b c d).pkstat.halted = 0 := hh
  have : accessHalted (noted s a b c d) acc loc = false := by
    cases acc <;> simp [accessHalted, writeHalted, serviceHalted, heldByHalt, hh']
  simp [heldAccess, this, heldOnWay, hl']

theorem noted_walk (s : State) (a b c d) (p va acc) : ∀ levels base ok,
    walk (noted s a b c d) p va acc base levels ok = walk s p va acc base levels ok := by
  intro levels
  induction levels with
  | nil => intros; simp only [walk]
  | cons l rest ih => intro base ok; simp only [walk, ih]; rfl

theorem noted_translate (s : State) (a b c d) : translate (noted s a b c d) = translate s := by
  funext p q va acc
  simp only [translate, noted_walk]
  rfl

theorem noted_window (s : State) (a b c d) : decodeWindow (noted s a b c d) = decodeWindow s := rfl

theorem noted_locate (s : State) (a b c d) : locate (noted s a b c d) = locate s := by
  funext w va n al acc
  simp only [locate, noted_translate, noted_window]

theorem noted_span (s : State) (a b c d) (w acc) : ∀ f va n,
    locatePieces (noted s a b c d) w acc f va n = locatePieces s w acc f va n := by
  intro f
  induction f with
  | zero => intros; simp only [locatePieces]
  | succ f ih => intro va n; simp only [locatePieces, ih, noted_translate, noted_window]

theorem noted_checks (s : State) (a b c d) (hl : heldLinks s = []) (hh : s.pkstat.halted = 0) : ∀ xs qs,
    mxChecks s xs = .ok qs → mxChecks (noted s a b c d) xs = .ok qs
  | [], _, h => by simpa [mxChecks] using h
  | (va, n, al, acc) :: xs, qs, h => by
    have free : ∀ ps, spanHeld (noted s a b c d) (noted s a b c d).team.who acc ps = false := fun ps => by
      simp [spanHeld, noted_free s a b c d hl hh]
    have ih := noted_checks s a b c d hl hh xs
    simp only [mxChecks, noted_locate, locateSpan, noted_span, free, if_false, Bool.false_eq_true] at h ⊢
    have team : (noted s a b c d).team = s.team := rfl
    rw [team]
    split at h
    · cases h
    · split at h
      · cases h
      · split at h
        · cases h
        · split at h
          · next qs' hq => rw [ih _ hq]; exact h
          · next r hr => exact absurd h (hr _)

theorem noted_access (s : State) (a b c d) (hl : heldLinks s = []) (hh : s.pkstat.halted = 0) (ho : ordered s.team = false)
    (va n al acc loc) (h : access s va n al acc = .ok loc) : access (noted s a b c d) va n al acc = .ok loc := by
  have team : (noted s a b c d).team = s.team := rfl
  have held := noted_free s s.l1 s.l2 s.annex s.annexCnt hl hh
  simp only [show noted s s.l1 s.l2 s.annex s.annexCnt = s from rfl] at held
  simpa [access, access.reach, noted_locate, team, noted_free s a b c d hl hh, held, ho] using h

theorem noted_pieces {f g : Word → Nat → Acc} (h : ∀ va n loc, f va n = .ok loc → g va n = .ok loc) : ∀ ps qs,
    checkPieces f ps = .ok qs → checkPieces g ps = .ok qs
  | [], _, e => by simpa [checkPieces] using e
  | (va, n) :: ps, qs, e => by
    simp only [checkPieces] at e ⊢
    split at e
    · cases e
    · cases e
    · next loc hf =>
      split at e
      · next ls hq => rw [h _ _ _ hf, noted_pieces h ps _ hq]; exact e
      · next r hr => exact absurd e (hr _)

theorem noted_desc (s : State) (a b c d) (hl : heldLinks s = []) (hh : s.pkstat.halted = 0) (ho : ordered s.team = false)
    (va n ps) (h : descPieces s va n = .ok ps) : descPieces (noted s a b c d) va n = .ok ps :=
  noted_pieces (fun _ _ _ e => noted_access s a b c d hl hh ho _ _ _ _ _ e) _ _ h

end Sys2Proof.Machine
end

