-- ==== Sys2Proof/Laws/PartWay.lean ====
section
/-! SUPPORT. What a stop part-way through an instruction of the datapath leaves alone (spec/03 R66): memory, and which lane-word
it stops at when there is none below. -/

namespace Sys2Proof.Machine

theorem choosePoint_mem (s : State) (k i : Nat) : (choosePoint s k i).mem = s.mem := by
  simp only [choosePoint]
  repeat' split
  all_goals rfl

theorem noteUse_mem (s : State) (k : Nat) (is : List Nat) : (noteUse s k is).mem = s.mem := by
  have h : ∀ (is : List Nat) (s : State), (is.foldl (fun s i => choosePoint s k i) s).mem = s.mem := by
    intro is
    induction is with
    | nil => intro s; rfl
    | cons i is ih => intro s; rw [List.foldl_cons, ih, choosePoint_mem]
  simp only [noteUse]
  split
  · rfl
  · exact h is s

theorem stopPartWay_mem (s : State) (p : Place) : (stopPartWay s p).mem = s.mem := by
  simp only [stopPartWay]
  repeat' split
  all_goals first | rfl | simp only [mapTeam_mem, noteUse_mem]

/-- A team of one lane-word is never found part-way. -/
theorem stopPartWay_narrow (s : State) (p : Place) (t : Team) (h : teamAt s p = some t) (hl : t.lanes ≤ 32) :
    stopPartWay s p = s := by
  simp [stopPartWay, h, Nat.not_lt.mpr hl]

end Sys2Proof.Machine
end

