-- ==== Sys2Proof/Laws/State.lean ====
section
/-! SUPPORT. One law for each field of the state under each named update: the field written, and every other unchanged. -/

namespace Sys2Proof.Machine

set_option Elab.async false

/-! ### Updates of the package -/

@[simp] theorem upd_team (s : State) (f : Team → Team) : (s.upd f).team = f s.team := rfl
@[simp] theorem upd_others (s : State) (f : Team → Team) : (s.upd f).others = s.others := rfl
@[simp] theorem upd_mem (s : State) (f : Team → Team) : (s.upd f).mem = s.mem := rfl
@[simp] theorem upd_dirty (s : State) (f : Team → Team) : (s.upd f).dirty = s.dirty := rfl
@[simp] theorem upd_l1 (s : State) (f : Team → Team) : (s.upd f).l1 = s.l1 := rfl
@[simp] theorem upd_l2 (s : State) (f : Team → Team) : (s.upd f).l2 = s.l2 := rfl
@[simp] theorem upd_full (s : State) (f : Team → Team) : (s.upd f).full = s.full := rfl
@[simp] theorem upd_tags (s : State) (f : Team → Team) : (s.upd f).tags = s.tags := rfl
@[simp] theorem upd_locks (s : State) (f : Team → Team) : (s.upd f).locks = s.locks := rfl
@[simp] theorem upd_bodies (s : State) (f : Team → Team) : (s.upd f).bodies = s.bodies := rfl
@[simp] theorem upd_poisonLines (s : State) (f : Team → Team) : (s.upd f).poisonLines = s.poisonLines := rfl
@[simp] theorem upd_poisonGranules (s : State) (f : Team → Team) : (s.upd f).poisonGranules = s.poisonGranules := rfl
@[simp] theorem upd_bank (s : State) (f : Team → Team) : (s.upd f).bank = s.bank := rfl
@[simp] theorem upd_cross (s : State) (f : Team → Team) : (s.upd f).cross = s.cross := rfl
@[simp] theorem upd_notices (s : State) (f : Team → Team) : (s.upd f).notices = s.notices := rfl
@[simp] theorem upd_cores (s : State) (f : Team → Team) : (s.upd f).cores = s.cores := rfl
@[simp] theorem upd_blocks (s : State) (f : Team → Team) : (s.upd f).blocks = s.blocks := rfl
@[simp] theorem upd_engines (s : State) (f : Team → Team) : (s.upd f).engines = s.engines := rfl
@[simp] theorem upd_service (s : State) (f : Team → Team) : (s.upd f).service = s.service := rfl
@[simp] theorem upd_capWait (s : State) (f : Team → Team) : (s.upd f).capWait = s.capWait := rfl
@[simp] theorem upd_capWrites (s : State) (f : Team → Team) : (s.upd f).capWrites = s.capWrites := rfl
@[simp] theorem upd_saved (s : State) (f : Team → Team) : (s.upd f).saved = s.saved := rfl
@[simp] theorem upd_preempted (s : State) (f : Team → Team) : (s.upd f).preempted = s.preempted := rfl
@[simp] theorem upd_preempting (s : State) (f : Team → Team) : (s.upd f).preempting = s.preempting := rfl
@[simp] theorem upd_levels (s : State) (f : Team → Team) : (s.upd f).levels = s.levels := rfl
@[simp] theorem upd_cancels (s : State) (f : Team → Team) : (s.upd f).cancels = s.cancels := rfl
@[simp] theorem upd_parts (s : State) (f : Team → Team) : (s.upd f).parts = s.parts := rfl
@[simp] theorem upd_asid0 (s : State) (f : Team → Team) : (s.upd f).asid0 = s.asid0 := rfl
@[simp] theorem upd_asid1 (s : State) (f : Team → Team) : (s.upd f).asid1 = s.asid1 := rfl
@[simp] theorem upd_gates (s : State) (f : Team → Team) : (s.upd f).gates = s.gates := rfl
@[simp] theorem upd_annex (s : State) (f : Team → Team) : (s.upd f).annex = s.annex := rfl
@[simp] theorem upd_window (s : State) (f : Team → Team) : (s.upd f).window = s.window := rfl
@[simp] theorem upd_annexCnt (s : State) (f : Team → Team) : (s.upd f).annexCnt = s.annexCnt := rfl
@[simp] theorem upd_spans (s : State) (f : Team → Team) : (s.upd f).spans = s.spans := rfl
@[simp] theorem upd_dies (s : State) (f : Team → Team) : (s.upd f).dies = s.dies := rfl
@[simp] theorem upd_points (s : State) (f : Team → Team) : (s.upd f).points = s.points := rfl
@[simp] theorem upd_links (s : State) (f : Team → Team) : (s.upd f).links = s.links := rfl
@[simp] theorem upd_peerHeld (s : State) (f : Team → Team) : (s.upd f).peerHeld = s.peerHeld := rfl
@[simp] theorem upd_hallOut (s : State) (f : Team → Team) : (s.upd f).hallOut = s.hallOut := rfl
@[simp] theorem upd_time (s : State) (f : Team → Team) : (s.upd f).time = s.time := rfl
@[simp] theorem upd_target (s : State) (f : Team → Team) : (s.upd f).target = s.target := rfl
@[simp] theorem upd_targetOrder (s : State) (f : Team → Team) : (s.upd f).targetOrder = s.targetOrder := rfl
@[simp] theorem upd_rate (s : State) (f : Team → Team) : (s.upd f).rate = s.rate := rfl
@[simp] theorem upd_seq (s : State) (f : Team → Team) : (s.upd f).seq = s.seq := rfl
@[simp] theorem upd_dlive (s : State) (f : Team → Team) : (s.upd f).dlive = s.dlive := rfl
@[simp] theorem upd_pkstat (s : State) (f : Team → Team) : (s.upd f).pkstat = s.pkstat := rfl
@[simp] theorem upd_diehalt (s : State) (f : Team → Team) : (s.upd f).diehalt = s.diehalt := rfl
@[simp] theorem upd_rcvr (s : State) (f : Team → Team) : (s.upd f).rcvr = s.rcvr := rfl
@[simp] theorem upd_cxlBase (s : State) (f : Team → Team) : (s.upd f).cxlBase = s.cxlBase := rfl
@[simp] theorem upd_cxlDpa (s : State) (f : Team → Team) : (s.upd f).cxlDpa = s.cxlDpa := rfl
@[simp] theorem upd_cxlCfg (s : State) (f : Team → Team) : (s.upd f).cxlCfg = s.cxlCfg := rfl
@[simp] theorem upd_fxBase (s : State) (f : Team → Team) : (s.upd f).fxBase = s.fxBase := rfl
@[simp] theorem upd_fxCfg (s : State) (f : Team → Team) : (s.upd f).fxCfg = s.fxCfg := rfl
@[simp] theorem upd_port (s : State) (f : Team → Team) : (s.upd f).port = s.port := rfl
@[simp] theorem upd_powered (s : State) (f : Team → Team) : (s.upd f).powered = s.powered := rfl
@[simp] theorem upd_booted (s : State) (f : Team → Team) : (s.upd f).booted = s.booted := rfl
@[simp] theorem upd_imageVersion (s : State) (f : Team → Team) : (s.upd f).imageVersion = s.imageVersion := rfl
@[simp] theorem upd_imageDigest (s : State) (f : Team → Team) : (s.upd f).imageDigest = s.imageDigest := rfl
@[simp] theorem upd_syscSeq (s : State) (f : Team → Team) : (s.upd f).syscSeq = s.syscSeq := rfl
@[simp] theorem upd_inbox (s : State) (f : Team → Team) : (s.upd f).inbox = s.inbox := rfl
@[simp] theorem upd_fresh (s : State) (f : Team → Team) : (s.upd f).fresh = s.fresh := rfl
@[simp] theorem upd_serial (s : State) (f : Team → Team) : (s.upd f).serial = s.serial := rfl
@[simp] theorem upd_ctlTurn (s : State) (f : Team → Team) : (s.upd f).ctlTurn = s.ctlTurn := rfl
@[simp] theorem upd_wbTurn (s : State) (f : Team → Team) : (s.upd f).wbTurn = s.wbTurn := rfl
@[simp] theorem upd_partTurn (s : State) (f : Team → Team) : (s.upd f).partTurn = s.partTurn := rfl
@[simp] theorem upd_queueTurn (s : State) (f : Team → Team) : (s.upd f).queueTurn = s.queueTurn := rfl
@[simp] theorem upd_ctlCore (s : State) (f : Team → Team) : (s.upd f).ctlCore = s.ctlCore := rfl

@[simp] theorem setPart_team (s : State) (p : BitVec 4) (x : Part) : (setPart s p x).team = s.team := rfl
@[simp] theorem setPart_others (s : State) (p : BitVec 4) (x : Part) : (setPart s p x).others = s.others := rfl
@[simp] theorem setPart_mem (s : State) (p : BitVec 4) (x : Part) : (setPart s p x).mem = s.mem := rfl
@[simp] theorem setPart_dirty (s : State) (p : BitVec 4) (x : Part) : (setPart s p x).dirty = s.dirty := rfl
@[simp] theorem setPart_l1 (s : State) (p : BitVec 4) (x : Part) : (setPart s p x).l1 = s.l1 := rfl
@[simp] theorem setPart_l2 (s : State) (p : BitVec 4) (x : Part) : (setPart s p x).l2 = s.l2 := rfl
@[simp] theorem setPart_full (s : State) (p : BitVec 4) (x : Part) : (setPart s p x).full = s.full := rfl
@[simp] theorem setPart_tags (s : State) (p : BitVec 4) (x : Part) : (setPart s p x).tags = s.tags := rfl
@[simp] theorem setPart_locks (s : State) (p : BitVec 4) (x : Part) : (setPart s p x).locks = s.locks := rfl
@[simp] theorem setPart_bodies (s : State) (p : BitVec 4) (x : Part) : (setPart s p x).bodies = s.bodies := rfl
@[simp] theorem setPart_poisonLines (s : State) (p : BitVec 4) (x : Part) :
    (setPart s p x).poisonLines = s.poisonLines :=
  rfl
@[simp] theorem setPart_poisonGranules (s : State) (p : BitVec 4) (x : Part) :
    (setPart s p x).poisonGranules = s.poisonGranules :=
  rfl
@[simp] theorem setPart_bank (s : State) (p : BitVec 4) (x : Part) : (setPart s p x).bank = s.bank := rfl
@[simp] theorem setPart_cross (s : State) (p : BitVec 4) (x : Part) : (setPart s p x).cross = s.cross := rfl
@[simp] theorem setPart_notices (s : State) (p : BitVec 4) (x : Part) : (setPart s p x).notices = s.notices := rfl
@[simp] theorem setPart_cores (s : State) (p : BitVec 4) (x : Part) : (setPart s p x).cores = s.cores := rfl
@[simp] theorem setPart_blocks (s : State) (p : BitVec 4) (x : Part) : (setPart s p x).blocks = s.blocks := rfl
@[simp] theorem setPart_engines (s : State) (p : BitVec 4) (x : Part) : (setPart s p x).engines = s.engines := rfl
@[simp] theorem setPart_service (s : State) (p : BitVec 4) (x : Part) : (setPart s p x).service = s.service := rfl
@[simp] theorem setPart_capWait (s : State) (p : BitVec 4) (x : Part) : (setPart s p x).capWait = s.capWait := rfl
@[simp] theorem setPart_capWrites (s : State) (p : BitVec 4) (x : Part) : (setPart s p x).capWrites = s.capWrites :=
  rfl
@[simp] theorem setPart_saved (s : State) (p : BitVec 4) (x : Part) : (setPart s p x).saved = s.saved := rfl
@[simp] theorem setPart_preempted (s : State) (p : BitVec 4) (x : Part) : (setPart s p x).preempted = s.preempted :=
  rfl
@[simp] theorem setPart_preempting (s : State) (p : BitVec 4) (x : Part) :
    (setPart s p x).preempting = s.preempting :=
  rfl
@[simp] theorem setPart_levels (s : State) (p : BitVec 4) (x : Part) : (setPart s p x).levels = s.levels := rfl
@[simp] theorem setPart_cancels (s : State) (p : BitVec 4) (x : Part) : (setPart s p x).cancels = s.cancels := rfl
@[simp] theorem setPart_parts (s : State) (p : BitVec 4) (x : Part) :
    (setPart s p x).parts = mapSet {} s.parts p.toNat x :=
  rfl
@[simp] theorem setPart_asid0 (s : State) (p : BitVec 4) (x : Part) : (setPart s p x).asid0 = s.asid0 := rfl
@[simp] theorem setPart_asid1 (s : State) (p : BitVec 4) (x : Part) : (setPart s p x).asid1 = s.asid1 := rfl
@[simp] theorem setPart_gates (s : State) (p : BitVec 4) (x : Part) : (setPart s p x).gates = s.gates := rfl
@[simp] theorem setPart_annex (s : State) (p : BitVec 4) (x : Part) : (setPart s p x).annex = s.annex := rfl
@[simp] theorem setPart_window (s : State) (p : BitVec 4) (x : Part) : (setPart s p x).window = s.window := rfl
@[simp] theorem setPart_annexCnt (s : State) (p : BitVec 4) (x : Part) : (setPart s p x).annexCnt = s.annexCnt := rfl
@[simp] theorem setPart_spans (s : State) (p : BitVec 4) (x : Part) : (setPart s p x).spans = s.spans := rfl
@[simp] theorem setPart_dies (s : State) (p : BitVec 4) (x : Part) : (setPart s p x).dies = s.dies := rfl
@[simp] theorem setPart_points (s : State) (p : BitVec 4) (x : Part) : (setPart s p x).points = s.points := rfl
@[simp] theorem setPart_links (s : State) (p : BitVec 4) (x : Part) : (setPart s p x).links = s.links := rfl
@[simp] theorem setPart_peerHeld (s : State) (p : BitVec 4) (x : Part) : (setPart s p x).peerHeld = s.peerHeld := rfl
@[simp] theorem setPart_hallOut (s : State) (p : BitVec 4) (x : Part) : (setPart s p x).hallOut = s.hallOut := rfl
@[simp] theorem setPart_time (s : State) (p : BitVec 4) (x : Part) : (setPart s p x).time = s.time := rfl
@[simp] theorem setPart_target (s : State) (p : BitVec 4) (x : Part) : (setPart s p x).target = s.target := rfl
@[simp] theorem setPart_targetOrder (s : State) (p : BitVec 4) (x : Part) :
    (setPart s p x).targetOrder = s.targetOrder :=
  rfl
@[simp] theorem setPart_rate (s : State) (p : BitVec 4) (x : Part) : (setPart s p x).rate = s.rate := rfl
@[simp] theorem setPart_seq (s : State) (p : BitVec 4) (x : Part) : (setPart s p x).seq = s.seq := rfl
@[simp] theorem setPart_dlive (s : State) (p : BitVec 4) (x : Part) : (setPart s p x).dlive = s.dlive := rfl
@[simp] theorem setPart_pkstat (s : State) (p : BitVec 4) (x : Part) : (setPart s p x).pkstat = s.pkstat := rfl
@[simp] theorem setPart_diehalt (s : State) (p : BitVec 4) (x : Part) : (setPart s p x).diehalt = s.diehalt := rfl
@[simp] theorem setPart_rcvr (s : State) (p : BitVec 4) (x : Part) : (setPart s p x).rcvr = s.rcvr := rfl
@[simp] theorem setPart_cxlBase (s : State) (p : BitVec 4) (x : Part) : (setPart s p x).cxlBase = s.cxlBase := rfl
@[simp] theorem setPart_cxlDpa (s : State) (p : BitVec 4) (x : Part) : (setPart s p x).cxlDpa = s.cxlDpa := rfl
@[simp] theorem setPart_cxlCfg (s : State) (p : BitVec 4) (x : Part) : (setPart s p x).cxlCfg = s.cxlCfg := rfl
@[simp] theorem setPart_fxBase (s : State) (p : BitVec 4) (x : Part) : (setPart s p x).fxBase = s.fxBase := rfl
@[simp] theorem setPart_fxCfg (s : State) (p : BitVec 4) (x : Part) : (setPart s p x).fxCfg = s.fxCfg := rfl
@[simp] theorem setPart_port (s : State) (p : BitVec 4) (x : Part) : (setPart s p x).port = s.port := rfl
@[simp] theorem setPart_powered (s : State) (p : BitVec 4) (x : Part) : (setPart s p x).powered = s.powered := rfl
@[simp] theorem setPart_booted (s : State) (p : BitVec 4) (x : Part) : (setPart s p x).booted = s.booted := rfl
@[simp] theorem setPart_imageVersion (s : State) (p : BitVec 4) (x : Part) :
    (setPart s p x).imageVersion = s.imageVersion :=
  rfl
@[simp] theorem setPart_imageDigest (s : State) (p : BitVec 4) (x : Part) :
    (setPart s p x).imageDigest = s.imageDigest :=
  rfl
@[simp] theorem setPart_syscSeq (s : State) (p : BitVec 4) (x : Part) : (setPart s p x).syscSeq = s.syscSeq := rfl
@[simp] theorem setPart_inbox (s : State) (p : BitVec 4) (x : Part) : (setPart s p x).inbox = s.inbox := rfl
@[simp] theorem setPart_fresh (s : State) (p : BitVec 4) (x : Part) : (setPart s p x).fresh = s.fresh := rfl
@[simp] theorem setPart_serial (s : State) (p : BitVec 4) (x : Part) : (setPart s p x).serial = s.serial := rfl
@[simp] theorem setPart_ctlTurn (s : State) (p : BitVec 4) (x : Part) : (setPart s p x).ctlTurn = s.ctlTurn := rfl
@[simp] theorem setPart_wbTurn (s : State) (p : BitVec 4) (x : Part) : (setPart s p x).wbTurn = s.wbTurn := rfl
@[simp] theorem setPart_partTurn (s : State) (p : BitVec 4) (x : Part) : (setPart s p x).partTurn = s.partTurn := rfl
@[simp] theorem setPart_queueTurn (s : State) (p : BitVec 4) (x : Part) : (setPart s p x).queueTurn = s.queueTurn :=
  rfl
@[simp] theorem setPart_ctlCore (s : State) (p : BitVec 4) (x : Part) : (setPart s p x).ctlCore = s.ctlCore := rfl

@[simp] theorem setDie_team (s : State) (d : Nat) (x : DieState) : (setDie s d x).team = s.team := rfl
@[simp] theorem setDie_others (s : State) (d : Nat) (x : DieState) : (setDie s d x).others = s.others := rfl
@[simp] theorem setDie_mem (s : State) (d : Nat) (x : DieState) : (setDie s d x).mem = s.mem := rfl
@[simp] theorem setDie_dirty (s : State) (d : Nat) (x : DieState) : (setDie s d x).dirty = s.dirty := rfl
@[simp] theorem setDie_l1 (s : State) (d : Nat) (x : DieState) : (setDie s d x).l1 = s.l1 := rfl
@[simp] theorem setDie_l2 (s : State) (d : Nat) (x : DieState) : (setDie s d x).l2 = s.l2 := rfl
@[simp] theorem setDie_full (s : State) (d : Nat) (x : DieState) : (setDie s d x).full = s.full := rfl
@[simp] theorem setDie_tags (s : State) (d : Nat) (x : DieState) : (setDie s d x).tags = s.tags := rfl
@[simp] theorem setDie_locks (s : State) (d : Nat) (x : DieState) : (setDie s d x).locks = s.locks := rfl
@[simp] theorem setDie_bodies (s : State) (d : Nat) (x : DieState) : (setDie s d x).bodies = s.bodies := rfl
@[simp] theorem setDie_poisonLines (s : State) (d : Nat) (x : DieState) :
    (setDie s d x).poisonLines = s.poisonLines :=
  rfl
@[simp] theorem setDie_poisonGranules (s : State) (d : Nat) (x : DieState) :
    (setDie s d x).poisonGranules = s.poisonGranules :=
  rfl
@[simp] theorem setDie_bank (s : State) (d : Nat) (x : DieState) : (setDie s d x).bank = s.bank := rfl
@[simp] theorem setDie_cross (s : State) (d : Nat) (x : DieState) : (setDie s d x).cross = s.cross := rfl
@[simp] theorem setDie_notices (s : State) (d : Nat) (x : DieState) : (setDie s d x).notices = s.notices := rfl
@[simp] theorem setDie_cores (s : State) (d : Nat) (x : DieState) : (setDie s d x).cores = s.cores := rfl
@[simp] theorem setDie_blocks (s : State) (d : Nat) (x : DieState) : (setDie s d x).blocks = s.blocks := rfl
@[simp] theorem setDie_engines (s : State) (d : Nat) (x : DieState) : (setDie s d x).engines = s.engines := rfl
@[simp] theorem setDie_service (s : State) (d : Nat) (x : DieState) : (setDie s d x).service = s.service := rfl
@[simp] theorem setDie_capWait (s : State) (d : Nat) (x : DieState) : (setDie s d x).capWait = s.capWait := rfl
@[simp] theorem setDie_capWrites (s : State) (d : Nat) (x : DieState) : (setDie s d x).capWrites = s.capWrites := rfl
@[simp] theorem setDie_saved (s : State) (d : Nat) (x : DieState) : (setDie s d x).saved = s.saved := rfl
@[simp] theorem setDie_preempted (s : State) (d : Nat) (x : DieState) : (setDie s d x).preempted = s.preempted := rfl
@[simp] theorem setDie_preempting (s : State) (d : Nat) (x : DieState) : (setDie s d x).preempting = s.preempting :=
  rfl
@[simp] theorem setDie_levels (s : State) (d : Nat) (x : DieState) : (setDie s d x).levels = s.levels := rfl
@[simp] theorem setDie_cancels (s : State) (d : Nat) (x : DieState) : (setDie s d x).cancels = s.cancels := rfl
@[simp] theorem setDie_parts (s : State) (d : Nat) (x : DieState) : (setDie s d x).parts = s.parts := rfl
@[simp] theorem setDie_asid0 (s : State) (d : Nat) (x : DieState) : (setDie s d x).asid0 = s.asid0 := rfl
@[simp] theorem setDie_asid1 (s : State) (d : Nat) (x : DieState) : (setDie s d x).asid1 = s.asid1 := rfl
@[simp] theorem setDie_gates (s : State) (d : Nat) (x : DieState) : (setDie s d x).gates = s.gates := rfl
@[simp] theorem setDie_annex (s : State) (d : Nat) (x : DieState) : (setDie s d x).annex = s.annex := rfl
@[simp] theorem setDie_window (s : State) (d : Nat) (x : DieState) : (setDie s d x).window = s.window := rfl
@[simp] theorem setDie_annexCnt (s : State) (d : Nat) (x : DieState) : (setDie s d x).annexCnt = s.annexCnt := rfl
@[simp] theorem setDie_spans (s : State) (d : Nat) (x : DieState) : (setDie s d x).spans = s.spans := rfl
@[simp] theorem setDie_dies (s : State) (d : Nat) (x : DieState) : (setDie s d x).dies = mapSet {} s.dies d x := rfl
@[simp] theorem setDie_points (s : State) (d : Nat) (x : DieState) : (setDie s d x).points = s.points := rfl
@[simp] theorem setDie_links (s : State) (d : Nat) (x : DieState) : (setDie s d x).links = s.links := rfl
@[simp] theorem setDie_peerHeld (s : State) (d : Nat) (x : DieState) : (setDie s d x).peerHeld = s.peerHeld := rfl
@[simp] theorem setDie_hallOut (s : State) (d : Nat) (x : DieState) : (setDie s d x).hallOut = s.hallOut := rfl
@[simp] theorem setDie_time (s : State) (d : Nat) (x : DieState) : (setDie s d x).time = s.time := rfl
@[simp] theorem setDie_target (s : State) (d : Nat) (x : DieState) : (setDie s d x).target = s.target := rfl
@[simp] theorem setDie_targetOrder (s : State) (d : Nat) (x : DieState) :
    (setDie s d x).targetOrder = s.targetOrder :=
  rfl
@[simp] theorem setDie_rate (s : State) (d : Nat) (x : DieState) : (setDie s d x).rate = s.rate := rfl
@[simp] theorem setDie_seq (s : State) (d : Nat) (x : DieState) : (setDie s d x).seq = s.seq := rfl
@[simp] theorem setDie_dlive (s : State) (d : Nat) (x : DieState) : (setDie s d x).dlive = s.dlive := rfl
@[simp] theorem setDie_pkstat (s : State) (d : Nat) (x : DieState) : (setDie s d x).pkstat = s.pkstat := rfl
@[simp] theorem setDie_diehalt (s : State) (d : Nat) (x : DieState) : (setDie s d x).diehalt = s.diehalt := rfl
@[simp] theorem setDie_rcvr (s : State) (d : Nat) (x : DieState) : (setDie s d x).rcvr = s.rcvr := rfl
@[simp] theorem setDie_cxlBase (s : State) (d : Nat) (x : DieState) : (setDie s d x).cxlBase = s.cxlBase := rfl
@[simp] theorem setDie_cxlDpa (s : State) (d : Nat) (x : DieState) : (setDie s d x).cxlDpa = s.cxlDpa := rfl
@[simp] theorem setDie_cxlCfg (s : State) (d : Nat) (x : DieState) : (setDie s d x).cxlCfg = s.cxlCfg := rfl
@[simp] theorem setDie_fxBase (s : State) (d : Nat) (x : DieState) : (setDie s d x).fxBase = s.fxBase := rfl
@[simp] theorem setDie_fxCfg (s : State) (d : Nat) (x : DieState) : (setDie s d x).fxCfg = s.fxCfg := rfl
@[simp] theorem setDie_port (s : State) (d : Nat) (x : DieState) : (setDie s d x).port = s.port := rfl
@[simp] theorem setDie_powered (s : State) (d : Nat) (x : DieState) : (setDie s d x).powered = s.powered := rfl
@[simp] theorem setDie_booted (s : State) (d : Nat) (x : DieState) : (setDie s d x).booted = s.booted := rfl
@[simp] theorem setDie_imageVersion (s : State) (d : Nat) (x : DieState) :
    (setDie s d x).imageVersion = s.imageVersion :=
  rfl
@[simp] theorem setDie_imageDigest (s : State) (d : Nat) (x : DieState) :
    (setDie s d x).imageDigest = s.imageDigest :=
  rfl
@[simp] theorem setDie_syscSeq (s : State) (d : Nat) (x : DieState) : (setDie s d x).syscSeq = s.syscSeq := rfl
@[simp] theorem setDie_inbox (s : State) (d : Nat) (x : DieState) : (setDie s d x).inbox = s.inbox := rfl
@[simp] theorem setDie_fresh (s : State) (d : Nat) (x : DieState) : (setDie s d x).fresh = s.fresh := rfl
@[simp] theorem setDie_serial (s : State) (d : Nat) (x : DieState) : (setDie s d x).serial = s.serial := rfl
@[simp] theorem setDie_ctlTurn (s : State) (d : Nat) (x : DieState) : (setDie s d x).ctlTurn = s.ctlTurn := rfl
@[simp] theorem setDie_wbTurn (s : State) (d : Nat) (x : DieState) : (setDie s d x).wbTurn = s.wbTurn := rfl
@[simp] theorem setDie_partTurn (s : State) (d : Nat) (x : DieState) : (setDie s d x).partTurn = s.partTurn := rfl
@[simp] theorem setDie_queueTurn (s : State) (d : Nat) (x : DieState) : (setDie s d x).queueTurn = s.queueTurn := rfl
@[simp] theorem setDie_ctlCore (s : State) (d : Nat) (x : DieState) : (setDie s d x).ctlCore = s.ctlCore := rfl

@[simp] theorem setGate_team (s : State) (c : Nat) (x : Gate) : (setGate s c x).team = s.team := rfl
@[simp] theorem setGate_others (s : State) (c : Nat) (x : Gate) : (setGate s c x).others = s.others := rfl
@[simp] theorem setGate_mem (s : State) (c : Nat) (x : Gate) : (setGate s c x).mem = s.mem := rfl
@[simp] theorem setGate_dirty (s : State) (c : Nat) (x : Gate) : (setGate s c x).dirty = s.dirty := rfl
@[simp] theorem setGate_l1 (s : State) (c : Nat) (x : Gate) : (setGate s c x).l1 = s.l1 := rfl
@[simp] theorem setGate_l2 (s : State) (c : Nat) (x : Gate) : (setGate s c x).l2 = s.l2 := rfl
@[simp] theorem setGate_full (s : State) (c : Nat) (x : Gate) : (setGate s c x).full = s.full := rfl
@[simp] theorem setGate_tags (s : State) (c : Nat) (x : Gate) : (setGate s c x).tags = s.tags := rfl
@[simp] theorem setGate_locks (s : State) (c : Nat) (x : Gate) : (setGate s c x).locks = s.locks := rfl
@[simp] theorem setGate_bodies (s : State) (c : Nat) (x : Gate) : (setGate s c x).bodies = s.bodies := rfl
@[simp] theorem setGate_poisonLines (s : State) (c : Nat) (x : Gate) : (setGate s c x).poisonLines = s.poisonLines :=
  rfl
@[simp] theorem setGate_poisonGranules (s : State) (c : Nat) (x : Gate) :
    (setGate s c x).poisonGranules = s.poisonGranules :=
  rfl
@[simp] theorem setGate_bank (s : State) (c : Nat) (x : Gate) : (setGate s c x).bank = s.bank := rfl
@[simp] theorem setGate_cross (s : State) (c : Nat) (x : Gate) : (setGate s c x).cross = s.cross := rfl
@[simp] theorem setGate_notices (s : State) (c : Nat) (x : Gate) : (setGate s c x).notices = s.notices := rfl
@[simp] theorem setGate_cores (s : State) (c : Nat) (x : Gate) : (setGate s c x).cores = s.cores := rfl
@[simp] theorem setGate_blocks (s : State) (c : Nat) (x : Gate) : (setGate s c x).blocks = s.blocks := rfl
@[simp] theorem setGate_engines (s : State) (c : Nat) (x : Gate) : (setGate s c x).engines = s.engines := rfl
@[simp] theorem setGate_service (s : State) (c : Nat) (x : Gate) : (setGate s c x).service = s.service := rfl
@[simp] theorem setGate_capWait (s : State) (c : Nat) (x : Gate) : (setGate s c x).capWait = s.capWait := rfl
@[simp] theorem setGate_capWrites (s : State) (c : Nat) (x : Gate) : (setGate s c x).capWrites = s.capWrites := rfl
@[simp] theorem setGate_saved (s : State) (c : Nat) (x : Gate) : (setGate s c x).saved = s.saved := rfl
@[simp] theorem setGate_preempted (s : State) (c : Nat) (x : Gate) : (setGate s c x).preempted = s.preempted := rfl
@[simp] theorem setGate_preempting (s : State) (c : Nat) (x : Gate) : (setGate s c x).preempting = s.preempting := rfl
@[simp] theorem setGate_levels (s : State) (c : Nat) (x : Gate) : (setGate s c x).levels = s.levels := rfl
@[simp] theorem setGate_cancels (s : State) (c : Nat) (x : Gate) : (setGate s c x).cancels = s.cancels := rfl
@[simp] theorem setGate_parts (s : State) (c : Nat) (x : Gate) : (setGate s c x).parts = s.parts := rfl
@[simp] theorem setGate_asid0 (s : State) (c : Nat) (x : Gate) : (setGate s c x).asid0 = s.asid0 := rfl
@[simp] theorem setGate_asid1 (s : State) (c : Nat) (x : Gate) : (setGate s c x).asid1 = s.asid1 := rfl
@[simp] theorem setGate_gates (s : State) (c : Nat) (x : Gate) : (setGate s c x).gates = mapSet {} s.gates c x := rfl
@[simp] theorem setGate_annex (s : State) (c : Nat) (x : Gate) : (setGate s c x).annex = s.annex := rfl
@[simp] theorem setGate_window (s : State) (c : Nat) (x : Gate) : (setGate s c x).window = s.window := rfl
@[simp] theorem setGate_annexCnt (s : State) (c : Nat) (x : Gate) : (setGate s c x).annexCnt = s.annexCnt := rfl
@[simp] theorem setGate_spans (s : State) (c : Nat) (x : Gate) : (setGate s c x).spans = s.spans := rfl
@[simp] theorem setGate_dies (s : State) (c : Nat) (x : Gate) : (setGate s c x).dies = s.dies := rfl
@[simp] theorem setGate_points (s : State) (c : Nat) (x : Gate) : (setGate s c x).points = s.points := rfl
@[simp] theorem setGate_links (s : State) (c : Nat) (x : Gate) : (setGate s c x).links = s.links := rfl
@[simp] theorem setGate_peerHeld (s : State) (c : Nat) (x : Gate) : (setGate s c x).peerHeld = s.peerHeld := rfl
@[simp] theorem setGate_hallOut (s : State) (c : Nat) (x : Gate) : (setGate s c x).hallOut = s.hallOut := rfl
@[simp] theorem setGate_time (s : State) (c : Nat) (x : Gate) : (setGate s c x).time = s.time := rfl
@[simp] theorem setGate_target (s : State) (c : Nat) (x : Gate) : (setGate s c x).target = s.target := rfl
@[simp] theorem setGate_targetOrder (s : State) (c : Nat) (x : Gate) : (setGate s c x).targetOrder = s.targetOrder :=
  rfl
@[simp] theorem setGate_rate (s : State) (c : Nat) (x : Gate) : (setGate s c x).rate = s.rate := rfl
@[simp] theorem setGate_seq (s : State) (c : Nat) (x : Gate) : (setGate s c x).seq = s.seq := rfl
@[simp] theorem setGate_dlive (s : State) (c : Nat) (x : Gate) : (setGate s c x).dlive = s.dlive := rfl
@[simp] theorem setGate_pkstat (s : State) (c : Nat) (x : Gate) : (setGate s c x).pkstat = s.pkstat := rfl
@[simp] theorem setGate_diehalt (s : State) (c : Nat) (x : Gate) : (setGate s c x).diehalt = s.diehalt := rfl
@[simp] theorem setGate_rcvr (s : State) (c : Nat) (x : Gate) : (setGate s c x).rcvr = s.rcvr := rfl
@[simp] theorem setGate_cxlBase (s : State) (c : Nat) (x : Gate) : (setGate s c x).cxlBase = s.cxlBase := rfl
@[simp] theorem setGate_cxlDpa (s : State) (c : Nat) (x : Gate) : (setGate s c x).cxlDpa = s.cxlDpa := rfl
@[simp] theorem setGate_cxlCfg (s : State) (c : Nat) (x : Gate) : (setGate s c x).cxlCfg = s.cxlCfg := rfl
@[simp] theorem setGate_fxBase (s : State) (c : Nat) (x : Gate) : (setGate s c x).fxBase = s.fxBase := rfl
@[simp] theorem setGate_fxCfg (s : State) (c : Nat) (x : Gate) : (setGate s c x).fxCfg = s.fxCfg := rfl
@[simp] theorem setGate_port (s : State) (c : Nat) (x : Gate) : (setGate s c x).port = s.port := rfl
@[simp] theorem setGate_powered (s : State) (c : Nat) (x : Gate) : (setGate s c x).powered = s.powered := rfl
@[simp] theorem setGate_booted (s : State) (c : Nat) (x : Gate) : (setGate s c x).booted = s.booted := rfl
@[simp] theorem setGate_imageVersion (s : State) (c : Nat) (x : Gate) :
    (setGate s c x).imageVersion = s.imageVersion :=
  rfl
@[simp] theorem setGate_imageDigest (s : State) (c : Nat) (x : Gate) : (setGate s c x).imageDigest = s.imageDigest :=
  rfl
@[simp] theorem setGate_syscSeq (s : State) (c : Nat) (x : Gate) : (setGate s c x).syscSeq = s.syscSeq := rfl
@[simp] theorem setGate_inbox (s : State) (c : Nat) (x : Gate) : (setGate s c x).inbox = s.inbox := rfl
@[simp] theorem setGate_fresh (s : State) (c : Nat) (x : Gate) : (setGate s c x).fresh = s.fresh := rfl
@[simp] theorem setGate_serial (s : State) (c : Nat) (x : Gate) : (setGate s c x).serial = s.serial := rfl
@[simp] theorem setGate_ctlTurn (s : State) (c : Nat) (x : Gate) : (setGate s c x).ctlTurn = s.ctlTurn := rfl
@[simp] theorem setGate_wbTurn (s : State) (c : Nat) (x : Gate) : (setGate s c x).wbTurn = s.wbTurn := rfl
@[simp] theorem setGate_partTurn (s : State) (c : Nat) (x : Gate) : (setGate s c x).partTurn = s.partTurn := rfl
@[simp] theorem setGate_queueTurn (s : State) (c : Nat) (x : Gate) : (setGate s c x).queueTurn = s.queueTurn := rfl
@[simp] theorem setGate_ctlCore (s : State) (c : Nat) (x : Gate) : (setGate s c x).ctlCore = s.ctlCore := rfl

@[simp] theorem setCore_team (s : State) (k : Nat) (x : CoreState) : (setCore s k x).team = s.team := rfl
@[simp] theorem setCore_others (s : State) (k : Nat) (x : CoreState) : (setCore s k x).others = s.others := rfl
@[simp] theorem setCore_mem (s : State) (k : Nat) (x : CoreState) : (setCore s k x).mem = s.mem := rfl
@[simp] theorem setCore_dirty (s : State) (k : Nat) (x : CoreState) : (setCore s k x).dirty = s.dirty := rfl
@[simp] theorem setCore_l1 (s : State) (k : Nat) (x : CoreState) : (setCore s k x).l1 = s.l1 := rfl
@[simp] theorem setCore_l2 (s : State) (k : Nat) (x : CoreState) : (setCore s k x).l2 = s.l2 := rfl
@[simp] theorem setCore_full (s : State) (k : Nat) (x : CoreState) : (setCore s k x).full = s.full := rfl
@[simp] theorem setCore_tags (s : State) (k : Nat) (x : CoreState) : (setCore s k x).tags = s.tags := rfl
@[simp] theorem setCore_locks (s : State) (k : Nat) (x : CoreState) : (setCore s k x).locks = s.locks := rfl
@[simp] theorem setCore_bodies (s : State) (k : Nat) (x : CoreState) : (setCore s k x).bodies = s.bodies := rfl
@[simp] theorem setCore_poisonLines (s : State) (k : Nat) (x : CoreState) :
    (setCore s k x).poisonLines = s.poisonLines :=
  rfl
@[simp] theorem setCore_poisonGranules (s : State) (k : Nat) (x : CoreState) :
    (setCore s k x).poisonGranules = s.poisonGranules :=
  rfl
@[simp] theorem setCore_bank (s : State) (k : Nat) (x : CoreState) : (setCore s k x).bank = s.bank := rfl
@[simp] theorem setCore_cross (s : State) (k : Nat) (x : CoreState) : (setCore s k x).cross = s.cross := rfl
@[simp] theorem setCore_notices (s : State) (k : Nat) (x : CoreState) : (setCore s k x).notices = s.notices := rfl
@[simp] theorem setCore_cores (s : State) (k : Nat) (x : CoreState) : (setCore s k x).cores = mapSet {} s.cores k x :=
  rfl
@[simp] theorem setCore_blocks (s : State) (k : Nat) (x : CoreState) : (setCore s k x).blocks = s.blocks := rfl
@[simp] theorem setCore_engines (s : State) (k : Nat) (x : CoreState) : (setCore s k x).engines = s.engines := rfl
@[simp] theorem setCore_service (s : State) (k : Nat) (x : CoreState) : (setCore s k x).service = s.service := rfl
@[simp] theorem setCore_capWait (s : State) (k : Nat) (x : CoreState) : (setCore s k x).capWait = s.capWait := rfl
@[simp] theorem setCore_capWrites (s : State) (k : Nat) (x : CoreState) : (setCore s k x).capWrites = s.capWrites :=
  rfl
@[simp] theorem setCore_saved (s : State) (k : Nat) (x : CoreState) : (setCore s k x).saved = s.saved := rfl
@[simp] theorem setCore_preempted (s : State) (k : Nat) (x : CoreState) : (setCore s k x).preempted = s.preempted :=
  rfl
@[simp] theorem setCore_preempting (s : State) (k : Nat) (x : CoreState) :
    (setCore s k x).preempting = s.preempting :=
  rfl
@[simp] theorem setCore_levels (s : State) (k : Nat) (x : CoreState) : (setCore s k x).levels = s.levels := rfl
@[simp] theorem setCore_cancels (s : State) (k : Nat) (x : CoreState) : (setCore s k x).cancels = s.cancels := rfl
@[simp] theorem setCore_parts (s : State) (k : Nat) (x : CoreState) : (setCore s k x).parts = s.parts := rfl
@[simp] theorem setCore_asid0 (s : State) (k : Nat) (x : CoreState) : (setCore s k x).asid0 = s.asid0 := rfl
@[simp] theorem setCore_asid1 (s : State) (k : Nat) (x : CoreState) : (setCore s k x).asid1 = s.asid1 := rfl
@[simp] theorem setCore_gates (s : State) (k : Nat) (x : CoreState) : (setCore s k x).gates = s.gates := rfl
@[simp] theorem setCore_annex (s : State) (k : Nat) (x : CoreState) : (setCore s k x).annex = s.annex := rfl
@[simp] theorem setCore_window (s : State) (k : Nat) (x : CoreState) : (setCore s k x).window = s.window := rfl
@[simp] theorem setCore_annexCnt (s : State) (k : Nat) (x : CoreState) : (setCore s k x).annexCnt = s.annexCnt := rfl
@[simp] theorem setCore_spans (s : State) (k : Nat) (x : CoreState) : (setCore s k x).spans = s.spans := rfl
@[simp] theorem setCore_dies (s : State) (k : Nat) (x : CoreState) : (setCore s k x).dies = s.dies := rfl
@[simp] theorem setCore_points (s : State) (k : Nat) (x : CoreState) : (setCore s k x).points = s.points := rfl
@[simp] theorem setCore_links (s : State) (k : Nat) (x : CoreState) : (setCore s k x).links = s.links := rfl
@[simp] theorem setCore_peerHeld (s : State) (k : Nat) (x : CoreState) : (setCore s k x).peerHeld = s.peerHeld := rfl
@[simp] theorem setCore_hallOut (s : State) (k : Nat) (x : CoreState) : (setCore s k x).hallOut = s.hallOut := rfl
@[simp] theorem setCore_time (s : State) (k : Nat) (x : CoreState) : (setCore s k x).time = s.time := rfl
@[simp] theorem setCore_target (s : State) (k : Nat) (x : CoreState) : (setCore s k x).target = s.target := rfl
@[simp] theorem setCore_targetOrder (s : State) (k : Nat) (x : CoreState) :
    (setCore s k x).targetOrder = s.targetOrder :=
  rfl
@[simp] theorem setCore_rate (s : State) (k : Nat) (x : CoreState) : (setCore s k x).rate = s.rate := rfl
@[simp] theorem setCore_seq (s : State) (k : Nat) (x : CoreState) : (setCore s k x).seq = s.seq := rfl
@[simp] theorem setCore_dlive (s : State) (k : Nat) (x : CoreState) : (setCore s k x).dlive = s.dlive := rfl
@[simp] theorem setCore_pkstat (s : State) (k : Nat) (x : CoreState) : (setCore s k x).pkstat = s.pkstat := rfl
@[simp] theorem setCore_diehalt (s : State) (k : Nat) (x : CoreState) : (setCore s k x).diehalt = s.diehalt := rfl
@[simp] theorem setCore_rcvr (s : State) (k : Nat) (x : CoreState) : (setCore s k x).rcvr = s.rcvr := rfl
@[simp] theorem setCore_cxlBase (s : State) (k : Nat) (x : CoreState) : (setCore s k x).cxlBase = s.cxlBase := rfl
@[simp] theorem setCore_cxlDpa (s : State) (k : Nat) (x : CoreState) : (setCore s k x).cxlDpa = s.cxlDpa := rfl
@[simp] theorem setCore_cxlCfg (s : State) (k : Nat) (x : CoreState) : (setCore s k x).cxlCfg = s.cxlCfg := rfl
@[simp] theorem setCore_fxBase (s : State) (k : Nat) (x : CoreState) : (setCore s k x).fxBase = s.fxBase := rfl
@[simp] theorem setCore_fxCfg (s : State) (k : Nat) (x : CoreState) : (setCore s k x).fxCfg = s.fxCfg := rfl
@[simp] theorem setCore_port (s : State) (k : Nat) (x : CoreState) : (setCore s k x).port = s.port := rfl
@[simp] theorem setCore_powered (s : State) (k : Nat) (x : CoreState) : (setCore s k x).powered = s.powered := rfl
@[simp] theorem setCore_booted (s : State) (k : Nat) (x : CoreState) : (setCore s k x).booted = s.booted := rfl
@[simp] theorem setCore_imageVersion (s : State) (k : Nat) (x : CoreState) :
    (setCore s k x).imageVersion = s.imageVersion :=
  rfl
@[simp] theorem setCore_imageDigest (s : State) (k : Nat) (x : CoreState) :
    (setCore s k x).imageDigest = s.imageDigest :=
  rfl
@[simp] theorem setCore_syscSeq (s : State) (k : Nat) (x : CoreState) : (setCore s k x).syscSeq = s.syscSeq := rfl
@[simp] theorem setCore_inbox (s : State) (k : Nat) (x : CoreState) : (setCore s k x).inbox = s.inbox := rfl
@[simp] theorem setCore_fresh (s : State) (k : Nat) (x : CoreState) : (setCore s k x).fresh = s.fresh := rfl
@[simp] theorem setCore_serial (s : State) (k : Nat) (x : CoreState) : (setCore s k x).serial = s.serial := rfl
@[simp] theorem setCore_ctlTurn (s : State) (k : Nat) (x : CoreState) : (setCore s k x).ctlTurn = s.ctlTurn := rfl
@[simp] theorem setCore_wbTurn (s : State) (k : Nat) (x : CoreState) : (setCore s k x).wbTurn = s.wbTurn := rfl
@[simp] theorem setCore_partTurn (s : State) (k : Nat) (x : CoreState) : (setCore s k x).partTurn = s.partTurn := rfl
@[simp] theorem setCore_queueTurn (s : State) (k : Nat) (x : CoreState) : (setCore s k x).queueTurn = s.queueTurn :=
  rfl
@[simp] theorem setCore_ctlCore (s : State) (k : Nat) (x : CoreState) : (setCore s k x).ctlCore = s.ctlCore := rfl

@[simp] theorem mapLevel_team (s : State) (n : Nat) (f : Level → Level) : (mapLevel s n f).team = s.team := rfl
@[simp] theorem mapLevel_others (s : State) (n : Nat) (f : Level → Level) : (mapLevel s n f).others = s.others := rfl
@[simp] theorem mapLevel_mem (s : State) (n : Nat) (f : Level → Level) : (mapLevel s n f).mem = s.mem := rfl
@[simp] theorem mapLevel_dirty (s : State) (n : Nat) (f : Level → Level) : (mapLevel s n f).dirty = s.dirty := rfl
@[simp] theorem mapLevel_l1 (s : State) (n : Nat) (f : Level → Level) : (mapLevel s n f).l1 = s.l1 := rfl
@[simp] theorem mapLevel_l2 (s : State) (n : Nat) (f : Level → Level) : (mapLevel s n f).l2 = s.l2 := rfl
@[simp] theorem mapLevel_full (s : State) (n : Nat) (f : Level → Level) : (mapLevel s n f).full = s.full := rfl
@[simp] theorem mapLevel_tags (s : State) (n : Nat) (f : Level → Level) : (mapLevel s n f).tags = s.tags := rfl
@[simp] theorem mapLevel_locks (s : State) (n : Nat) (f : Level → Level) : (mapLevel s n f).locks = s.locks := rfl
@[simp] theorem mapLevel_bodies (s : State) (n : Nat) (f : Level → Level) : (mapLevel s n f).bodies = s.bodies := rfl
@[simp] theorem mapLevel_poisonLines (s : State) (n : Nat) (f : Level → Level) :
    (mapLevel s n f).poisonLines = s.poisonLines :=
  rfl
@[simp] theorem mapLevel_poisonGranules (s : State) (n : Nat) (f : Level → Level) :
    (mapLevel s n f).poisonGranules = s.poisonGranules :=
  rfl
@[simp] theorem mapLevel_bank (s : State) (n : Nat) (f : Level → Level) : (mapLevel s n f).bank = s.bank := rfl
@[simp] theorem mapLevel_cross (s : State) (n : Nat) (f : Level → Level) : (mapLevel s n f).cross = s.cross := rfl
@[simp] theorem mapLevel_notices (s : State) (n : Nat) (f : Level → Level) : (mapLevel s n f).notices = s.notices :=
  rfl
@[simp] theorem mapLevel_cores (s : State) (n : Nat) (f : Level → Level) : (mapLevel s n f).cores = s.cores := rfl
@[simp] theorem mapLevel_blocks (s : State) (n : Nat) (f : Level → Level) : (mapLevel s n f).blocks = s.blocks := rfl
@[simp] theorem mapLevel_engines (s : State) (n : Nat) (f : Level → Level) : (mapLevel s n f).engines = s.engines :=
  rfl
@[simp] theorem mapLevel_service (s : State) (n : Nat) (f : Level → Level) : (mapLevel s n f).service = s.service :=
  rfl
@[simp] theorem mapLevel_capWait (s : State) (n : Nat) (f : Level → Level) : (mapLevel s n f).capWait = s.capWait :=
  rfl
@[simp] theorem mapLevel_capWrites (s : State) (n : Nat) (f : Level → Level) :
    (mapLevel s n f).capWrites = s.capWrites :=
  rfl
@[simp] theorem mapLevel_saved (s : State) (n : Nat) (f : Level → Level) : (mapLevel s n f).saved = s.saved := rfl
@[simp] theorem mapLevel_preempted (s : State) (n : Nat) (f : Level → Level) :
    (mapLevel s n f).preempted = s.preempted :=
  rfl
@[simp] theorem mapLevel_preempting (s : State) (n : Nat) (f : Level → Level) :
    (mapLevel s n f).preempting = s.preempting :=
  rfl
@[simp] theorem mapLevel_levels (s : State) (n : Nat) (f : Level → Level) :
    (mapLevel s n f).levels = s.levels.map fun l => if l.serial = n then f l else l :=
  rfl
@[simp] theorem mapLevel_cancels (s : State) (n : Nat) (f : Level → Level) : (mapLevel s n f).cancels = s.cancels :=
  rfl
@[simp] theorem mapLevel_parts (s : State) (n : Nat) (f : Level → Level) : (mapLevel s n f).parts = s.parts := rfl
@[simp] theorem mapLevel_asid0 (s : State) (n : Nat) (f : Level → Level) : (mapLevel s n f).asid0 = s.asid0 := rfl
@[simp] theorem mapLevel_asid1 (s : State) (n : Nat) (f : Level → Level) : (mapLevel s n f).asid1 = s.asid1 := rfl
@[simp] theorem mapLevel_gates (s : State) (n : Nat) (f : Level → Level) : (mapLevel s n f).gates = s.gates := rfl
@[simp] theorem mapLevel_annex (s : State) (n : Nat) (f : Level → Level) : (mapLevel s n f).annex = s.annex := rfl
@[simp] theorem mapLevel_window (s : State) (n : Nat) (f : Level → Level) : (mapLevel s n f).window = s.window := rfl
@[simp] theorem mapLevel_annexCnt (s : State) (n : Nat) (f : Level → Level) :
    (mapLevel s n f).annexCnt = s.annexCnt :=
  rfl
@[simp] theorem mapLevel_spans (s : State) (n : Nat) (f : Level → Level) : (mapLevel s n f).spans = s.spans := rfl
@[simp] theorem mapLevel_dies (s : State) (n : Nat) (f : Level → Level) : (mapLevel s n f).dies = s.dies := rfl
@[simp] theorem mapLevel_points (s : State) (n : Nat) (f : Level → Level) : (mapLevel s n f).points = s.points := rfl
@[simp] theorem mapLevel_links (s : State) (n : Nat) (f : Level → Level) : (mapLevel s n f).links = s.links := rfl
@[simp] theorem mapLevel_peerHeld (s : State) (n : Nat) (f : Level → Level) :
    (mapLevel s n f).peerHeld = s.peerHeld :=
  rfl
@[simp] theorem mapLevel_hallOut (s : State) (n : Nat) (f : Level → Level) : (mapLevel s n f).hallOut = s.hallOut :=
  rfl
@[simp] theorem mapLevel_time (s : State) (n : Nat) (f : Level → Level) : (mapLevel s n f).time = s.time := rfl
@[simp] theorem mapLevel_target (s : State) (n : Nat) (f : Level → Level) : (mapLevel s n f).target = s.target := rfl
@[simp] theorem mapLevel_targetOrder (s : State) (n : Nat) (f : Level → Level) :
    (mapLevel s n f).targetOrder = s.targetOrder :=
  rfl
@[simp] theorem mapLevel_rate (s : State) (n : Nat) (f : Level → Level) : (mapLevel s n f).rate = s.rate := rfl
@[simp] theorem mapLevel_seq (s : State) (n : Nat) (f : Level → Level) : (mapLevel s n f).seq = s.seq := rfl
@[simp] theorem mapLevel_dlive (s : State) (n : Nat) (f : Level → Level) : (mapLevel s n f).dlive = s.dlive := rfl
@[simp] theorem mapLevel_pkstat (s : State) (n : Nat) (f : Level → Level) : (mapLevel s n f).pkstat = s.pkstat := rfl
@[simp] theorem mapLevel_diehalt (s : State) (n : Nat) (f : Level → Level) : (mapLevel s n f).diehalt = s.diehalt :=
  rfl
@[simp] theorem mapLevel_rcvr (s : State) (n : Nat) (f : Level → Level) : (mapLevel s n f).rcvr = s.rcvr := rfl
@[simp] theorem mapLevel_cxlBase (s : State) (n : Nat) (f : Level → Level) : (mapLevel s n f).cxlBase = s.cxlBase :=
  rfl
@[simp] theorem mapLevel_cxlDpa (s : State) (n : Nat) (f : Level → Level) : (mapLevel s n f).cxlDpa = s.cxlDpa := rfl
@[simp] theorem mapLevel_cxlCfg (s : State) (n : Nat) (f : Level → Level) : (mapLevel s n f).cxlCfg = s.cxlCfg := rfl
@[simp] theorem mapLevel_fxBase (s : State) (n : Nat) (f : Level → Level) : (mapLevel s n f).fxBase = s.fxBase := rfl
@[simp] theorem mapLevel_fxCfg (s : State) (n : Nat) (f : Level → Level) : (mapLevel s n f).fxCfg = s.fxCfg := rfl
@[simp] theorem mapLevel_port (s : State) (n : Nat) (f : Level → Level) : (mapLevel s n f).port = s.port := rfl
@[simp] theorem mapLevel_powered (s : State) (n : Nat) (f : Level → Level) : (mapLevel s n f).powered = s.powered :=
  rfl
@[simp] theorem mapLevel_booted (s : State) (n : Nat) (f : Level → Level) : (mapLevel s n f).booted = s.booted := rfl
@[simp] theorem mapLevel_imageVersion (s : State) (n : Nat) (f : Level → Level) :
    (mapLevel s n f).imageVersion = s.imageVersion :=
  rfl
@[simp] theorem mapLevel_imageDigest (s : State) (n : Nat) (f : Level → Level) :
    (mapLevel s n f).imageDigest = s.imageDigest :=
  rfl
@[simp] theorem mapLevel_syscSeq (s : State) (n : Nat) (f : Level → Level) : (mapLevel s n f).syscSeq = s.syscSeq :=
  rfl
@[simp] theorem mapLevel_inbox (s : State) (n : Nat) (f : Level → Level) : (mapLevel s n f).inbox = s.inbox := rfl
@[simp] theorem mapLevel_fresh (s : State) (n : Nat) (f : Level → Level) : (mapLevel s n f).fresh = s.fresh := rfl
@[simp] theorem mapLevel_serial (s : State) (n : Nat) (f : Level → Level) : (mapLevel s n f).serial = s.serial := rfl
@[simp] theorem mapLevel_ctlTurn (s : State) (n : Nat) (f : Level → Level) : (mapLevel s n f).ctlTurn = s.ctlTurn :=
  rfl
@[simp] theorem mapLevel_wbTurn (s : State) (n : Nat) (f : Level → Level) : (mapLevel s n f).wbTurn = s.wbTurn := rfl
@[simp] theorem mapLevel_partTurn (s : State) (n : Nat) (f : Level → Level) :
    (mapLevel s n f).partTurn = s.partTurn :=
  rfl
@[simp] theorem mapLevel_queueTurn (s : State) (n : Nat) (f : Level → Level) :
    (mapLevel s n f).queueTurn = s.queueTurn :=
  rfl
@[simp] theorem mapLevel_ctlCore (s : State) (n : Nat) (f : Level → Level) : (mapLevel s n f).ctlCore = s.ctlCore :=
  rfl

@[simp] theorem mapTeams_team (s : State) (f : Team → Team) : (mapTeams s f).team = f s.team := rfl
@[simp] theorem mapTeams_others (s : State) (f : Team → Team) : (mapTeams s f).others = s.others.map f := rfl
@[simp] theorem mapTeams_mem (s : State) (f : Team → Team) : (mapTeams s f).mem = s.mem := rfl
@[simp] theorem mapTeams_dirty (s : State) (f : Team → Team) : (mapTeams s f).dirty = s.dirty := rfl
@[simp] theorem mapTeams_l1 (s : State) (f : Team → Team) : (mapTeams s f).l1 = s.l1 := rfl
@[simp] theorem mapTeams_l2 (s : State) (f : Team → Team) : (mapTeams s f).l2 = s.l2 := rfl
@[simp] theorem mapTeams_full (s : State) (f : Team → Team) : (mapTeams s f).full = s.full := rfl
@[simp] theorem mapTeams_tags (s : State) (f : Team → Team) : (mapTeams s f).tags = s.tags := rfl
@[simp] theorem mapTeams_locks (s : State) (f : Team → Team) : (mapTeams s f).locks = s.locks := rfl
@[simp] theorem mapTeams_bodies (s : State) (f : Team → Team) : (mapTeams s f).bodies = s.bodies := rfl
@[simp] theorem mapTeams_poisonLines (s : State) (f : Team → Team) : (mapTeams s f).poisonLines = s.poisonLines := rfl
@[simp] theorem mapTeams_poisonGranules (s : State) (f : Team → Team) :
    (mapTeams s f).poisonGranules = s.poisonGranules :=
  rfl
@[simp] theorem mapTeams_bank (s : State) (f : Team → Team) : (mapTeams s f).bank = s.bank := rfl
@[simp] theorem mapTeams_cross (s : State) (f : Team → Team) : (mapTeams s f).cross = s.cross := rfl
@[simp] theorem mapTeams_notices (s : State) (f : Team → Team) : (mapTeams s f).notices = s.notices := rfl
@[simp] theorem mapTeams_cores (s : State) (f : Team → Team) : (mapTeams s f).cores = s.cores := rfl
@[simp] theorem mapTeams_blocks (s : State) (f : Team → Team) : (mapTeams s f).blocks = s.blocks := rfl
@[simp] theorem mapTeams_engines (s : State) (f : Team → Team) : (mapTeams s f).engines = s.engines := rfl
@[simp] theorem mapTeams_service (s : State) (f : Team → Team) : (mapTeams s f).service = s.service := rfl
@[simp] theorem mapTeams_capWait (s : State) (f : Team → Team) : (mapTeams s f).capWait = s.capWait := rfl
@[simp] theorem mapTeams_capWrites (s : State) (f : Team → Team) : (mapTeams s f).capWrites = s.capWrites := rfl
@[simp] theorem mapTeams_saved (s : State) (f : Team → Team) : (mapTeams s f).saved = s.saved := rfl
@[simp] theorem mapTeams_preempted (s : State) (f : Team → Team) : (mapTeams s f).preempted = s.preempted := rfl
@[simp] theorem mapTeams_preempting (s : State) (f : Team → Team) : (mapTeams s f).preempting = s.preempting := rfl
@[simp] theorem mapTeams_levels (s : State) (f : Team → Team) : (mapTeams s f).levels = s.levels := rfl
@[simp] theorem mapTeams_cancels (s : State) (f : Team → Team) : (mapTeams s f).cancels = s.cancels := rfl
@[simp] theorem mapTeams_parts (s : State) (f : Team → Team) : (mapTeams s f).parts = s.parts := rfl
@[simp] theorem mapTeams_asid0 (s : State) (f : Team → Team) : (mapTeams s f).asid0 = s.asid0 := rfl
@[simp] theorem mapTeams_asid1 (s : State) (f : Team → Team) : (mapTeams s f).asid1 = s.asid1 := rfl
@[simp] theorem mapTeams_gates (s : State) (f : Team → Team) : (mapTeams s f).gates = s.gates := rfl
@[simp] theorem mapTeams_annex (s : State) (f : Team → Team) : (mapTeams s f).annex = s.annex := rfl
@[simp] theorem mapTeams_window (s : State) (f : Team → Team) : (mapTeams s f).window = s.window := rfl
@[simp] theorem mapTeams_annexCnt (s : State) (f : Team → Team) : (mapTeams s f).annexCnt = s.annexCnt := rfl
@[simp] theorem mapTeams_spans (s : State) (f : Team → Team) : (mapTeams s f).spans = s.spans := rfl
@[simp] theorem mapTeams_dies (s : State) (f : Team → Team) : (mapTeams s f).dies = s.dies := rfl
@[simp] theorem mapTeams_points (s : State) (f : Team → Team) : (mapTeams s f).points = s.points := rfl
@[simp] theorem mapTeams_links (s : State) (f : Team → Team) : (mapTeams s f).links = s.links := rfl
@[simp] theorem mapTeams_peerHeld (s : State) (f : Team → Team) : (mapTeams s f).peerHeld = s.peerHeld := rfl
@[simp] theorem mapTeams_hallOut (s : State) (f : Team → Team) : (mapTeams s f).hallOut = s.hallOut := rfl
@[simp] theorem mapTeams_time (s : State) (f : Team → Team) : (mapTeams s f).time = s.time := rfl
@[simp] theorem mapTeams_target (s : State) (f : Team → Team) : (mapTeams s f).target = s.target := rfl
@[simp] theorem mapTeams_targetOrder (s : State) (f : Team → Team) : (mapTeams s f).targetOrder = s.targetOrder := rfl
@[simp] theorem mapTeams_rate (s : State) (f : Team → Team) : (mapTeams s f).rate = s.rate := rfl
@[simp] theorem mapTeams_seq (s : State) (f : Team → Team) : (mapTeams s f).seq = s.seq := rfl
@[simp] theorem mapTeams_dlive (s : State) (f : Team → Team) : (mapTeams s f).dlive = s.dlive := rfl
@[simp] theorem mapTeams_pkstat (s : State) (f : Team → Team) : (mapTeams s f).pkstat = s.pkstat := rfl
@[simp] theorem mapTeams_diehalt (s : State) (f : Team → Team) : (mapTeams s f).diehalt = s.diehalt := rfl
@[simp] theorem mapTeams_rcvr (s : State) (f : Team → Team) : (mapTeams s f).rcvr = s.rcvr := rfl
@[simp] theorem mapTeams_cxlBase (s : State) (f : Team → Team) : (mapTeams s f).cxlBase = s.cxlBase := rfl
@[simp] theorem mapTeams_cxlDpa (s : State) (f : Team → Team) : (mapTeams s f).cxlDpa = s.cxlDpa := rfl
@[simp] theorem mapTeams_cxlCfg (s : State) (f : Team → Team) : (mapTeams s f).cxlCfg = s.cxlCfg := rfl
@[simp] theorem mapTeams_fxBase (s : State) (f : Team → Team) : (mapTeams s f).fxBase = s.fxBase := rfl
@[simp] theorem mapTeams_fxCfg (s : State) (f : Team → Team) : (mapTeams s f).fxCfg = s.fxCfg := rfl
@[simp] theorem mapTeams_port (s : State) (f : Team → Team) : (mapTeams s f).port = s.port := rfl
@[simp] theorem mapTeams_powered (s : State) (f : Team → Team) : (mapTeams s f).powered = s.powered := rfl
@[simp] theorem mapTeams_booted (s : State) (f : Team → Team) : (mapTeams s f).booted = s.booted := rfl
@[simp] theorem mapTeams_imageVersion (s : State) (f : Team → Team) : (mapTeams s f).imageVersion = s.imageVersion :=
  rfl
@[simp] theorem mapTeams_imageDigest (s : State) (f : Team → Team) : (mapTeams s f).imageDigest = s.imageDigest := rfl
@[simp] theorem mapTeams_syscSeq (s : State) (f : Team → Team) : (mapTeams s f).syscSeq = s.syscSeq := rfl
@[simp] theorem mapTeams_inbox (s : State) (f : Team → Team) : (mapTeams s f).inbox = s.inbox := rfl
@[simp] theorem mapTeams_fresh (s : State) (f : Team → Team) : (mapTeams s f).fresh = s.fresh := rfl
@[simp] theorem mapTeams_serial (s : State) (f : Team → Team) : (mapTeams s f).serial = s.serial := rfl
@[simp] theorem mapTeams_ctlTurn (s : State) (f : Team → Team) : (mapTeams s f).ctlTurn = s.ctlTurn := rfl
@[simp] theorem mapTeams_wbTurn (s : State) (f : Team → Team) : (mapTeams s f).wbTurn = s.wbTurn := rfl
@[simp] theorem mapTeams_partTurn (s : State) (f : Team → Team) : (mapTeams s f).partTurn = s.partTurn := rfl
@[simp] theorem mapTeams_queueTurn (s : State) (f : Team → Team) : (mapTeams s f).queueTurn = s.queueTurn := rfl
@[simp] theorem mapTeams_ctlCore (s : State) (f : Team → Team) : (mapTeams s f).ctlCore = s.ctlCore := rfl

@[simp] theorem mapSaved_team (s : State) (f : Team → Team) : (mapSaved s f).team = s.team := rfl
@[simp] theorem mapSaved_others (s : State) (f : Team → Team) : (mapSaved s f).others = s.others := rfl
@[simp] theorem mapSaved_mem (s : State) (f : Team → Team) : (mapSaved s f).mem = s.mem := rfl
@[simp] theorem mapSaved_dirty (s : State) (f : Team → Team) : (mapSaved s f).dirty = s.dirty := rfl
@[simp] theorem mapSaved_l1 (s : State) (f : Team → Team) : (mapSaved s f).l1 = s.l1 := rfl
@[simp] theorem mapSaved_l2 (s : State) (f : Team → Team) : (mapSaved s f).l2 = s.l2 := rfl
@[simp] theorem mapSaved_full (s : State) (f : Team → Team) : (mapSaved s f).full = s.full := rfl
@[simp] theorem mapSaved_tags (s : State) (f : Team → Team) : (mapSaved s f).tags = s.tags := rfl
@[simp] theorem mapSaved_locks (s : State) (f : Team → Team) : (mapSaved s f).locks = s.locks := rfl
@[simp] theorem mapSaved_bodies (s : State) (f : Team → Team) : (mapSaved s f).bodies = s.bodies := rfl
@[simp] theorem mapSaved_poisonLines (s : State) (f : Team → Team) : (mapSaved s f).poisonLines = s.poisonLines := rfl
@[simp] theorem mapSaved_poisonGranules (s : State) (f : Team → Team) :
    (mapSaved s f).poisonGranules = s.poisonGranules :=
  rfl
@[simp] theorem mapSaved_bank (s : State) (f : Team → Team) : (mapSaved s f).bank = s.bank := rfl
@[simp] theorem mapSaved_cross (s : State) (f : Team → Team) : (mapSaved s f).cross = s.cross := rfl
@[simp] theorem mapSaved_notices (s : State) (f : Team → Team) : (mapSaved s f).notices = s.notices := rfl
@[simp] theorem mapSaved_cores (s : State) (f : Team → Team) : (mapSaved s f).cores = s.cores := rfl
@[simp] theorem mapSaved_blocks (s : State) (f : Team → Team) : (mapSaved s f).blocks = s.blocks := rfl
@[simp] theorem mapSaved_engines (s : State) (f : Team → Team) : (mapSaved s f).engines = s.engines := rfl
@[simp] theorem mapSaved_service (s : State) (f : Team → Team) : (mapSaved s f).service = s.service := rfl
@[simp] theorem mapSaved_capWait (s : State) (f : Team → Team) : (mapSaved s f).capWait = s.capWait := rfl
@[simp] theorem mapSaved_capWrites (s : State) (f : Team → Team) : (mapSaved s f).capWrites = s.capWrites := rfl
@[simp] theorem mapSaved_saved (s : State) (f : Team → Team) : (mapSaved s f).saved = s.saved := rfl
@[simp] theorem mapSaved_preempted (s : State) (f : Team → Team) :
    (mapSaved s f).preempted = s.preempted.map fun x => { x with teams := x.teams.map f } :=
  rfl
@[simp] theorem mapSaved_preempting (s : State) (f : Team → Team) : (mapSaved s f).preempting = s.preempting := rfl
@[simp] theorem mapSaved_levels (s : State) (f : Team → Team) : (mapSaved s f).levels = s.levels := rfl
@[simp] theorem mapSaved_cancels (s : State) (f : Team → Team) : (mapSaved s f).cancels = s.cancels := rfl
@[simp] theorem mapSaved_parts (s : State) (f : Team → Team) : (mapSaved s f).parts = s.parts := rfl
@[simp] theorem mapSaved_asid0 (s : State) (f : Team → Team) : (mapSaved s f).asid0 = s.asid0 := rfl
@[simp] theorem mapSaved_asid1 (s : State) (f : Team → Team) : (mapSaved s f).asid1 = s.asid1 := rfl
@[simp] theorem mapSaved_gates (s : State) (f : Team → Team) : (mapSaved s f).gates = s.gates := rfl
@[simp] theorem mapSaved_annex (s : State) (f : Team → Team) : (mapSaved s f).annex = s.annex := rfl
@[simp] theorem mapSaved_window (s : State) (f : Team → Team) : (mapSaved s f).window = s.window := rfl
@[simp] theorem mapSaved_annexCnt (s : State) (f : Team → Team) : (mapSaved s f).annexCnt = s.annexCnt := rfl
@[simp] theorem mapSaved_spans (s : State) (f : Team → Team) : (mapSaved s f).spans = s.spans := rfl
@[simp] theorem mapSaved_dies (s : State) (f : Team → Team) : (mapSaved s f).dies = s.dies := rfl
@[simp] theorem mapSaved_points (s : State) (f : Team → Team) : (mapSaved s f).points = s.points := rfl
@[simp] theorem mapSaved_links (s : State) (f : Team → Team) : (mapSaved s f).links = s.links := rfl
@[simp] theorem mapSaved_peerHeld (s : State) (f : Team → Team) : (mapSaved s f).peerHeld = s.peerHeld := rfl
@[simp] theorem mapSaved_hallOut (s : State) (f : Team → Team) : (mapSaved s f).hallOut = s.hallOut := rfl
@[simp] theorem mapSaved_time (s : State) (f : Team → Team) : (mapSaved s f).time = s.time := rfl
@[simp] theorem mapSaved_target (s : State) (f : Team → Team) : (mapSaved s f).target = s.target := rfl
@[simp] theorem mapSaved_targetOrder (s : State) (f : Team → Team) : (mapSaved s f).targetOrder = s.targetOrder := rfl
@[simp] theorem mapSaved_rate (s : State) (f : Team → Team) : (mapSaved s f).rate = s.rate := rfl
@[simp] theorem mapSaved_seq (s : State) (f : Team → Team) : (mapSaved s f).seq = s.seq := rfl
@[simp] theorem mapSaved_dlive (s : State) (f : Team → Team) : (mapSaved s f).dlive = s.dlive := rfl
@[simp] theorem mapSaved_pkstat (s : State) (f : Team → Team) : (mapSaved s f).pkstat = s.pkstat := rfl
@[simp] theorem mapSaved_diehalt (s : State) (f : Team → Team) : (mapSaved s f).diehalt = s.diehalt := rfl
@[simp] theorem mapSaved_rcvr (s : State) (f : Team → Team) : (mapSaved s f).rcvr = s.rcvr := rfl
@[simp] theorem mapSaved_cxlBase (s : State) (f : Team → Team) : (mapSaved s f).cxlBase = s.cxlBase := rfl
@[simp] theorem mapSaved_cxlDpa (s : State) (f : Team → Team) : (mapSaved s f).cxlDpa = s.cxlDpa := rfl
@[simp] theorem mapSaved_cxlCfg (s : State) (f : Team → Team) : (mapSaved s f).cxlCfg = s.cxlCfg := rfl
@[simp] theorem mapSaved_fxBase (s : State) (f : Team → Team) : (mapSaved s f).fxBase = s.fxBase := rfl
@[simp] theorem mapSaved_fxCfg (s : State) (f : Team → Team) : (mapSaved s f).fxCfg = s.fxCfg := rfl
@[simp] theorem mapSaved_port (s : State) (f : Team → Team) : (mapSaved s f).port = s.port := rfl
@[simp] theorem mapSaved_powered (s : State) (f : Team → Team) : (mapSaved s f).powered = s.powered := rfl
@[simp] theorem mapSaved_booted (s : State) (f : Team → Team) : (mapSaved s f).booted = s.booted := rfl
@[simp] theorem mapSaved_imageVersion (s : State) (f : Team → Team) : (mapSaved s f).imageVersion = s.imageVersion :=
  rfl
@[simp] theorem mapSaved_imageDigest (s : State) (f : Team → Team) : (mapSaved s f).imageDigest = s.imageDigest := rfl
@[simp] theorem mapSaved_syscSeq (s : State) (f : Team → Team) : (mapSaved s f).syscSeq = s.syscSeq := rfl
@[simp] theorem mapSaved_inbox (s : State) (f : Team → Team) : (mapSaved s f).inbox = s.inbox := rfl
@[simp] theorem mapSaved_fresh (s : State) (f : Team → Team) : (mapSaved s f).fresh = s.fresh := rfl
@[simp] theorem mapSaved_serial (s : State) (f : Team → Team) : (mapSaved s f).serial = s.serial := rfl
@[simp] theorem mapSaved_ctlTurn (s : State) (f : Team → Team) : (mapSaved s f).ctlTurn = s.ctlTurn := rfl
@[simp] theorem mapSaved_wbTurn (s : State) (f : Team → Team) : (mapSaved s f).wbTurn = s.wbTurn := rfl
@[simp] theorem mapSaved_partTurn (s : State) (f : Team → Team) : (mapSaved s f).partTurn = s.partTurn := rfl
@[simp] theorem mapSaved_queueTurn (s : State) (f : Team → Team) : (mapSaved s f).queueTurn = s.queueTurn := rfl
@[simp] theorem mapSaved_ctlCore (s : State) (f : Team → Team) : (mapSaved s f).ctlCore = s.ctlCore := rfl

@[simp] theorem bumpSerial_team (s : State) : (bumpSerial s).team = s.team := rfl
@[simp] theorem bumpSerial_others (s : State) : (bumpSerial s).others = s.others := rfl
@[simp] theorem bumpSerial_mem (s : State) : (bumpSerial s).mem = s.mem := rfl
@[simp] theorem bumpSerial_dirty (s : State) : (bumpSerial s).dirty = s.dirty := rfl
@[simp] theorem bumpSerial_l1 (s : State) : (bumpSerial s).l1 = s.l1 := rfl
@[simp] theorem bumpSerial_l2 (s : State) : (bumpSerial s).l2 = s.l2 := rfl
@[simp] theorem bumpSerial_full (s : State) : (bumpSerial s).full = s.full := rfl
@[simp] theorem bumpSerial_tags (s : State) : (bumpSerial s).tags = s.tags := rfl
@[simp] theorem bumpSerial_locks (s : State) : (bumpSerial s).locks = s.locks := rfl
@[simp] theorem bumpSerial_bodies (s : State) : (bumpSerial s).bodies = s.bodies := rfl
@[simp] theorem bumpSerial_poisonLines (s : State) : (bumpSerial s).poisonLines = s.poisonLines := rfl
@[simp] theorem bumpSerial_poisonGranules (s : State) : (bumpSerial s).poisonGranules = s.poisonGranules := rfl
@[simp] theorem bumpSerial_bank (s : State) : (bumpSerial s).bank = s.bank := rfl
@[simp] theorem bumpSerial_cross (s : State) : (bumpSerial s).cross = s.cross := rfl
@[simp] theorem bumpSerial_notices (s : State) : (bumpSerial s).notices = s.notices := rfl
@[simp] theorem bumpSerial_cores (s : State) : (bumpSerial s).cores = s.cores := rfl
@[simp] theorem bumpSerial_blocks (s : State) : (bumpSerial s).blocks = s.blocks := rfl
@[simp] theorem bumpSerial_engines (s : State) : (bumpSerial s).engines = s.engines := rfl
@[simp] theorem bumpSerial_service (s : State) : (bumpSerial s).service = s.service := rfl
@[simp] theorem bumpSerial_capWait (s : State) : (bumpSerial s).capWait = s.capWait := rfl
@[simp] theorem bumpSerial_capWrites (s : State) : (bumpSerial s).capWrites = s.capWrites := rfl
@[simp] theorem bumpSerial_saved (s : State) : (bumpSerial s).saved = s.saved := rfl
@[simp] theorem bumpSerial_preempted (s : State) : (bumpSerial s).preempted = s.preempted := rfl
@[simp] theorem bumpSerial_preempting (s : State) : (bumpSerial s).preempting = s.preempting := rfl
@[simp] theorem bumpSerial_levels (s : State) : (bumpSerial s).levels = s.levels := rfl
@[simp] theorem bumpSerial_cancels (s : State) : (bumpSerial s).cancels = s.cancels := rfl
@[simp] theorem bumpSerial_parts (s : State) : (bumpSerial s).parts = s.parts := rfl
@[simp] theorem bumpSerial_asid0 (s : State) : (bumpSerial s).asid0 = s.asid0 := rfl
@[simp] theorem bumpSerial_asid1 (s : State) : (bumpSerial s).asid1 = s.asid1 := rfl
@[simp] theorem bumpSerial_gates (s : State) : (bumpSerial s).gates = s.gates := rfl
@[simp] theorem bumpSerial_annex (s : State) : (bumpSerial s).annex = s.annex := rfl
@[simp] theorem bumpSerial_window (s : State) : (bumpSerial s).window = s.window := rfl
@[simp] theorem bumpSerial_annexCnt (s : State) : (bumpSerial s).annexCnt = s.annexCnt := rfl
@[simp] theorem bumpSerial_spans (s : State) : (bumpSerial s).spans = s.spans := rfl
@[simp] theorem bumpSerial_dies (s : State) : (bumpSerial s).dies = s.dies := rfl
@[simp] theorem bumpSerial_points (s : State) : (bumpSerial s).points = s.points := rfl
@[simp] theorem bumpSerial_links (s : State) : (bumpSerial s).links = s.links := rfl
@[simp] theorem bumpSerial_peerHeld (s : State) : (bumpSerial s).peerHeld = s.peerHeld := rfl
@[simp] theorem bumpSerial_hallOut (s : State) : (bumpSerial s).hallOut = s.hallOut := rfl
@[simp] theorem bumpSerial_time (s : State) : (bumpSerial s).time = s.time := rfl
@[simp] theorem bumpSerial_target (s : State) : (bumpSerial s).target = s.target := rfl
@[simp] theorem bumpSerial_targetOrder (s : State) : (bumpSerial s).targetOrder = s.targetOrder := rfl
@[simp] theorem bumpSerial_rate (s : State) : (bumpSerial s).rate = s.rate := rfl
@[simp] theorem bumpSerial_seq (s : State) : (bumpSerial s).seq = s.seq := rfl
@[simp] theorem bumpSerial_dlive (s : State) : (bumpSerial s).dlive = s.dlive := rfl
@[simp] theorem bumpSerial_pkstat (s : State) : (bumpSerial s).pkstat = s.pkstat := rfl
@[simp] theorem bumpSerial_diehalt (s : State) : (bumpSerial s).diehalt = s.diehalt := rfl
@[simp] theorem bumpSerial_rcvr (s : State) : (bumpSerial s).rcvr = s.rcvr := rfl
@[simp] theorem bumpSerial_cxlBase (s : State) : (bumpSerial s).cxlBase = s.cxlBase := rfl
@[simp] theorem bumpSerial_cxlDpa (s : State) : (bumpSerial s).cxlDpa = s.cxlDpa := rfl
@[simp] theorem bumpSerial_cxlCfg (s : State) : (bumpSerial s).cxlCfg = s.cxlCfg := rfl
@[simp] theorem bumpSerial_fxBase (s : State) : (bumpSerial s).fxBase = s.fxBase := rfl
@[simp] theorem bumpSerial_fxCfg (s : State) : (bumpSerial s).fxCfg = s.fxCfg := rfl
@[simp] theorem bumpSerial_port (s : State) : (bumpSerial s).port = s.port := rfl
@[simp] theorem bumpSerial_powered (s : State) : (bumpSerial s).powered = s.powered := rfl
@[simp] theorem bumpSerial_booted (s : State) : (bumpSerial s).booted = s.booted := rfl
@[simp] theorem bumpSerial_imageVersion (s : State) : (bumpSerial s).imageVersion = s.imageVersion := rfl
@[simp] theorem bumpSerial_imageDigest (s : State) : (bumpSerial s).imageDigest = s.imageDigest := rfl
@[simp] theorem bumpSerial_syscSeq (s : State) : (bumpSerial s).syscSeq = s.syscSeq := rfl
@[simp] theorem bumpSerial_inbox (s : State) : (bumpSerial s).inbox = s.inbox := rfl
@[simp] theorem bumpSerial_fresh (s : State) : (bumpSerial s).fresh = s.fresh := rfl
@[simp] theorem bumpSerial_serial (s : State) : (bumpSerial s).serial = s.serial + 1 := rfl
@[simp] theorem bumpSerial_ctlTurn (s : State) : (bumpSerial s).ctlTurn = s.ctlTurn := rfl
@[simp] theorem bumpSerial_wbTurn (s : State) : (bumpSerial s).wbTurn = s.wbTurn := rfl
@[simp] theorem bumpSerial_partTurn (s : State) : (bumpSerial s).partTurn = s.partTurn := rfl
@[simp] theorem bumpSerial_queueTurn (s : State) : (bumpSerial s).queueTurn = s.queueTurn := rfl
@[simp] theorem bumpSerial_ctlCore (s : State) : (bumpSerial s).ctlCore = s.ctlCore := rfl

@[simp] theorem rawWrite_team (s : State) (loc : Nat) (bs : List Byte) : (rawWrite s loc bs).team = s.team := rfl
@[simp] theorem rawWrite_others (s : State) (loc : Nat) (bs : List Byte) : (rawWrite s loc bs).others = s.others :=
  rfl
@[simp] theorem rawWrite_mem (s : State) (loc : Nat) (bs : List Byte) :
    (rawWrite s loc bs).mem = writeCells s.mem loc bs :=
  rfl
@[simp] theorem rawWrite_dirty (s : State) (loc : Nat) (bs : List Byte) : (rawWrite s loc bs).dirty = s.dirty := rfl
@[simp] theorem rawWrite_l1 (s : State) (loc : Nat) (bs : List Byte) : (rawWrite s loc bs).l1 = s.l1 := rfl
@[simp] theorem rawWrite_l2 (s : State) (loc : Nat) (bs : List Byte) : (rawWrite s loc bs).l2 = s.l2 := rfl
@[simp] theorem rawWrite_full (s : State) (loc : Nat) (bs : List Byte) : (rawWrite s loc bs).full = s.full := rfl
@[simp] theorem rawWrite_tags (s : State) (loc : Nat) (bs : List Byte) : (rawWrite s loc bs).tags = s.tags := rfl
@[simp] theorem rawWrite_locks (s : State) (loc : Nat) (bs : List Byte) : (rawWrite s loc bs).locks = s.locks := rfl
@[simp] theorem rawWrite_bodies (s : State) (loc : Nat) (bs : List Byte) : (rawWrite s loc bs).bodies = s.bodies :=
  rfl
@[simp] theorem rawWrite_poisonLines (s : State) (loc : Nat) (bs : List Byte) :
    (rawWrite s loc bs).poisonLines = s.poisonLines :=
  rfl
@[simp] theorem rawWrite_poisonGranules (s : State) (loc : Nat) (bs : List Byte) :
    (rawWrite s loc bs).poisonGranules = s.poisonGranules :=
  rfl
@[simp] theorem rawWrite_bank (s : State) (loc : Nat) (bs : List Byte) : (rawWrite s loc bs).bank = s.bank := rfl
@[simp] theorem rawWrite_cross (s : State) (loc : Nat) (bs : List Byte) : (rawWrite s loc bs).cross = s.cross := rfl
@[simp] theorem rawWrite_notices (s : State) (loc : Nat) (bs : List Byte) : (rawWrite s loc bs).notices = s.notices :=
  rfl
@[simp] theorem rawWrite_cores (s : State) (loc : Nat) (bs : List Byte) : (rawWrite s loc bs).cores = s.cores := rfl
@[simp] theorem rawWrite_blocks (s : State) (loc : Nat) (bs : List Byte) : (rawWrite s loc bs).blocks = s.blocks :=
  rfl
@[simp] theorem rawWrite_engines (s : State) (loc : Nat) (bs : List Byte) : (rawWrite s loc bs).engines = s.engines :=
  rfl
@[simp] theorem rawWrite_service (s : State) (loc : Nat) (bs : List Byte) : (rawWrite s loc bs).service = s.service :=
  rfl
@[simp] theorem rawWrite_capWait (s : State) (loc : Nat) (bs : List Byte) : (rawWrite s loc bs).capWait = s.capWait :=
  rfl
@[simp] theorem rawWrite_capWrites (s : State) (loc : Nat) (bs : List Byte) :
    (rawWrite s loc bs).capWrites = s.capWrites :=
  rfl
@[simp] theorem rawWrite_saved (s : State) (loc : Nat) (bs : List Byte) : (rawWrite s loc bs).saved = s.saved := rfl
@[simp] theorem rawWrite_preempted (s : State) (loc : Nat) (bs : List Byte) :
    (rawWrite s loc bs).preempted = s.preempted :=
  rfl
@[simp] theorem rawWrite_preempting (s : State) (loc : Nat) (bs : List Byte) :
    (rawWrite s loc bs).preempting = s.preempting :=
  rfl
@[simp] theorem rawWrite_levels (s : State) (loc : Nat) (bs : List Byte) : (rawWrite s loc bs).levels = s.levels :=
  rfl
@[simp] theorem rawWrite_cancels (s : State) (loc : Nat) (bs : List Byte) : (rawWrite s loc bs).cancels = s.cancels :=
  rfl
@[simp] theorem rawWrite_parts (s : State) (loc : Nat) (bs : List Byte) : (rawWrite s loc bs).parts = s.parts := rfl
@[simp] theorem rawWrite_asid0 (s : State) (loc : Nat) (bs : List Byte) : (rawWrite s loc bs).asid0 = s.asid0 := rfl
@[simp] theorem rawWrite_asid1 (s : State) (loc : Nat) (bs : List Byte) : (rawWrite s loc bs).asid1 = s.asid1 := rfl
@[simp] theorem rawWrite_gates (s : State) (loc : Nat) (bs : List Byte) : (rawWrite s loc bs).gates = s.gates := rfl
@[simp] theorem rawWrite_annex (s : State) (loc : Nat) (bs : List Byte) : (rawWrite s loc bs).annex = s.annex := rfl
@[simp] theorem rawWrite_window (s : State) (loc : Nat) (bs : List Byte) : (rawWrite s loc bs).window = s.window :=
  rfl
@[simp] theorem rawWrite_annexCnt (s : State) (loc : Nat) (bs : List Byte) :
    (rawWrite s loc bs).annexCnt = s.annexCnt :=
  rfl
@[simp] theorem rawWrite_spans (s : State) (loc : Nat) (bs : List Byte) : (rawWrite s loc bs).spans = s.spans := rfl
@[simp] theorem rawWrite_dies (s : State) (loc : Nat) (bs : List Byte) : (rawWrite s loc bs).dies = s.dies := rfl
@[simp] theorem rawWrite_points (s : State) (loc : Nat) (bs : List Byte) : (rawWrite s loc bs).points = s.points :=
  rfl
@[simp] theorem rawWrite_links (s : State) (loc : Nat) (bs : List Byte) : (rawWrite s loc bs).links = s.links := rfl
@[simp] theorem rawWrite_peerHeld (s : State) (loc : Nat) (bs : List Byte) :
    (rawWrite s loc bs).peerHeld = s.peerHeld :=
  rfl
@[simp] theorem rawWrite_hallOut (s : State) (loc : Nat) (bs : List Byte) : (rawWrite s loc bs).hallOut = s.hallOut :=
  rfl
@[simp] theorem rawWrite_time (s : State) (loc : Nat) (bs : List Byte) : (rawWrite s loc bs).time = s.time := rfl
@[simp] theorem rawWrite_target (s : State) (loc : Nat) (bs : List Byte) : (rawWrite s loc bs).target = s.target :=
  rfl
@[simp] theorem rawWrite_targetOrder (s : State) (loc : Nat) (bs : List Byte) :
    (rawWrite s loc bs).targetOrder = s.targetOrder :=
  rfl
@[simp] theorem rawWrite_rate (s : State) (loc : Nat) (bs : List Byte) : (rawWrite s loc bs).rate = s.rate := rfl
@[simp] theorem rawWrite_seq (s : State) (loc : Nat) (bs : List Byte) : (rawWrite s loc bs).seq = s.seq := rfl
@[simp] theorem rawWrite_dlive (s : State) (loc : Nat) (bs : List Byte) : (rawWrite s loc bs).dlive = s.dlive := rfl
@[simp] theorem rawWrite_pkstat (s : State) (loc : Nat) (bs : List Byte) : (rawWrite s loc bs).pkstat = s.pkstat :=
  rfl
@[simp] theorem rawWrite_diehalt (s : State) (loc : Nat) (bs : List Byte) : (rawWrite s loc bs).diehalt = s.diehalt :=
  rfl
@[simp] theorem rawWrite_rcvr (s : State) (loc : Nat) (bs : List Byte) : (rawWrite s loc bs).rcvr = s.rcvr := rfl
@[simp] theorem rawWrite_cxlBase (s : State) (loc : Nat) (bs : List Byte) : (rawWrite s loc bs).cxlBase = s.cxlBase :=
  rfl
@[simp] theorem rawWrite_cxlDpa (s : State) (loc : Nat) (bs : List Byte) : (rawWrite s loc bs).cxlDpa = s.cxlDpa :=
  rfl
@[simp] theorem rawWrite_cxlCfg (s : State) (loc : Nat) (bs : List Byte) : (rawWrite s loc bs).cxlCfg = s.cxlCfg :=
  rfl
@[simp] theorem rawWrite_fxBase (s : State) (loc : Nat) (bs : List Byte) : (rawWrite s loc bs).fxBase = s.fxBase :=
  rfl
@[simp] theorem rawWrite_fxCfg (s : State) (loc : Nat) (bs : List Byte) : (rawWrite s loc bs).fxCfg = s.fxCfg := rfl
@[simp] theorem rawWrite_port (s : State) (loc : Nat) (bs : List Byte) : (rawWrite s loc bs).port = s.port := rfl
@[simp] theorem rawWrite_powered (s : State) (loc : Nat) (bs : List Byte) : (rawWrite s loc bs).powered = s.powered :=
  rfl
@[simp] theorem rawWrite_booted (s : State) (loc : Nat) (bs : List Byte) : (rawWrite s loc bs).booted = s.booted :=
  rfl
@[simp] theorem rawWrite_imageVersion (s : State) (loc : Nat) (bs : List Byte) :
    (rawWrite s loc bs).imageVersion = s.imageVersion :=
  rfl
@[simp] theorem rawWrite_imageDigest (s : State) (loc : Nat) (bs : List Byte) :
    (rawWrite s loc bs).imageDigest = s.imageDigest :=
  rfl
@[simp] theorem rawWrite_syscSeq (s : State) (loc : Nat) (bs : List Byte) : (rawWrite s loc bs).syscSeq = s.syscSeq :=
  rfl
@[simp] theorem rawWrite_inbox (s : State) (loc : Nat) (bs : List Byte) : (rawWrite s loc bs).inbox = s.inbox := rfl
@[simp] theorem rawWrite_fresh (s : State) (loc : Nat) (bs : List Byte) : (rawWrite s loc bs).fresh = s.fresh := rfl
@[simp] theorem rawWrite_serial (s : State) (loc : Nat) (bs : List Byte) : (rawWrite s loc bs).serial = s.serial :=
  rfl
@[simp] theorem rawWrite_ctlTurn (s : State) (loc : Nat) (bs : List Byte) : (rawWrite s loc bs).ctlTurn = s.ctlTurn :=
  rfl
@[simp] theorem rawWrite_wbTurn (s : State) (loc : Nat) (bs : List Byte) : (rawWrite s loc bs).wbTurn = s.wbTurn :=
  rfl
@[simp] theorem rawWrite_partTurn (s : State) (loc : Nat) (bs : List Byte) :
    (rawWrite s loc bs).partTurn = s.partTurn :=
  rfl
@[simp] theorem rawWrite_queueTurn (s : State) (loc : Nat) (bs : List Byte) :
    (rawWrite s loc bs).queueTurn = s.queueTurn :=
  rfl
@[simp] theorem rawWrite_ctlCore (s : State) (loc : Nat) (bs : List Byte) : (rawWrite s loc bs).ctlCore = s.ctlCore :=
  rfl

@[simp] theorem clearPoison_team (s : State) (ps : List (Nat × Nat)) : (clearPoison s ps).team = s.team := rfl
@[simp] theorem clearPoison_others (s : State) (ps : List (Nat × Nat)) : (clearPoison s ps).others = s.others := rfl
@[simp] theorem clearPoison_mem (s : State) (ps : List (Nat × Nat)) : (clearPoison s ps).mem = s.mem := rfl
@[simp] theorem clearPoison_dirty (s : State) (ps : List (Nat × Nat)) : (clearPoison s ps).dirty = s.dirty := rfl
@[simp] theorem clearPoison_l1 (s : State) (ps : List (Nat × Nat)) : (clearPoison s ps).l1 = s.l1 := rfl
@[simp] theorem clearPoison_l2 (s : State) (ps : List (Nat × Nat)) : (clearPoison s ps).l2 = s.l2 := rfl
@[simp] theorem clearPoison_full (s : State) (ps : List (Nat × Nat)) : (clearPoison s ps).full = s.full := rfl
@[simp] theorem clearPoison_tags (s : State) (ps : List (Nat × Nat)) : (clearPoison s ps).tags = s.tags := rfl
@[simp] theorem clearPoison_locks (s : State) (ps : List (Nat × Nat)) : (clearPoison s ps).locks = s.locks := rfl
@[simp] theorem clearPoison_bodies (s : State) (ps : List (Nat × Nat)) : (clearPoison s ps).bodies = s.bodies := rfl
@[simp] theorem clearPoison_bank (s : State) (ps : List (Nat × Nat)) : (clearPoison s ps).bank = s.bank := rfl
@[simp] theorem clearPoison_cross (s : State) (ps : List (Nat × Nat)) : (clearPoison s ps).cross = s.cross := rfl
@[simp] theorem clearPoison_notices (s : State) (ps : List (Nat × Nat)) : (clearPoison s ps).notices = s.notices :=
  rfl
@[simp] theorem clearPoison_cores (s : State) (ps : List (Nat × Nat)) : (clearPoison s ps).cores = s.cores := rfl
@[simp] theorem clearPoison_blocks (s : State) (ps : List (Nat × Nat)) : (clearPoison s ps).blocks = s.blocks := rfl
@[simp] theorem clearPoison_engines (s : State) (ps : List (Nat × Nat)) : (clearPoison s ps).engines = s.engines :=
  rfl
@[simp] theorem clearPoison_service (s : State) (ps : List (Nat × Nat)) : (clearPoison s ps).service = s.service :=
  rfl
@[simp] theorem clearPoison_capWait (s : State) (ps : List (Nat × Nat)) : (clearPoison s ps).capWait = s.capWait :=
  rfl
@[simp] theorem clearPoison_capWrites (s : State) (ps : List (Nat × Nat)) :
    (clearPoison s ps).capWrites = s.capWrites :=
  rfl
@[simp] theorem clearPoison_saved (s : State) (ps : List (Nat × Nat)) : (clearPoison s ps).saved = s.saved := rfl
@[simp] theorem clearPoison_preempted (s : State) (ps : List (Nat × Nat)) :
    (clearPoison s ps).preempted = s.preempted :=
  rfl
@[simp] theorem clearPoison_preempting (s : State) (ps : List (Nat × Nat)) :
    (clearPoison s ps).preempting = s.preempting :=
  rfl
@[simp] theorem clearPoison_levels (s : State) (ps : List (Nat × Nat)) : (clearPoison s ps).levels = s.levels := rfl
@[simp] theorem clearPoison_cancels (s : State) (ps : List (Nat × Nat)) : (clearPoison s ps).cancels = s.cancels :=
  rfl
@[simp] theorem clearPoison_parts (s : State) (ps : List (Nat × Nat)) : (clearPoison s ps).parts = s.parts := rfl
@[simp] theorem clearPoison_asid0 (s : State) (ps : List (Nat × Nat)) : (clearPoison s ps).asid0 = s.asid0 := rfl
@[simp] theorem clearPoison_asid1 (s : State) (ps : List (Nat × Nat)) : (clearPoison s ps).asid1 = s.asid1 := rfl
@[simp] theorem clearPoison_gates (s : State) (ps : List (Nat × Nat)) : (clearPoison s ps).gates = s.gates := rfl
@[simp] theorem clearPoison_annex (s : State) (ps : List (Nat × Nat)) : (clearPoison s ps).annex = s.annex := rfl
@[simp] theorem clearPoison_window (s : State) (ps : List (Nat × Nat)) : (clearPoison s ps).window = s.window := rfl
@[simp] theorem clearPoison_annexCnt (s : State) (ps : List (Nat × Nat)) : (clearPoison s ps).annexCnt = s.annexCnt :=
  rfl
@[simp] theorem clearPoison_spans (s : State) (ps : List (Nat × Nat)) : (clearPoison s ps).spans = s.spans := rfl
@[simp] theorem clearPoison_dies (s : State) (ps : List (Nat × Nat)) : (clearPoison s ps).dies = s.dies := rfl
@[simp] theorem clearPoison_points (s : State) (ps : List (Nat × Nat)) : (clearPoison s ps).points = s.points := rfl
@[simp] theorem clearPoison_links (s : State) (ps : List (Nat × Nat)) : (clearPoison s ps).links = s.links := rfl
@[simp] theorem clearPoison_peerHeld (s : State) (ps : List (Nat × Nat)) : (clearPoison s ps).peerHeld = s.peerHeld :=
  rfl
@[simp] theorem clearPoison_hallOut (s : State) (ps : List (Nat × Nat)) : (clearPoison s ps).hallOut = s.hallOut :=
  rfl
@[simp] theorem clearPoison_time (s : State) (ps : List (Nat × Nat)) : (clearPoison s ps).time = s.time := rfl
@[simp] theorem clearPoison_target (s : State) (ps : List (Nat × Nat)) : (clearPoison s ps).target = s.target := rfl
@[simp] theorem clearPoison_targetOrder (s : State) (ps : List (Nat × Nat)) :
    (clearPoison s ps).targetOrder = s.targetOrder :=
  rfl
@[simp] theorem clearPoison_rate (s : State) (ps : List (Nat × Nat)) : (clearPoison s ps).rate = s.rate := rfl
@[simp] theorem clearPoison_seq (s : State) (ps : List (Nat × Nat)) : (clearPoison s ps).seq = s.seq := rfl
@[simp] theorem clearPoison_dlive (s : State) (ps : List (Nat × Nat)) : (clearPoison s ps).dlive = s.dlive := rfl
@[simp] theorem clearPoison_pkstat (s : State) (ps : List (Nat × Nat)) : (clearPoison s ps).pkstat = s.pkstat := rfl
@[simp] theorem clearPoison_diehalt (s : State) (ps : List (Nat × Nat)) : (clearPoison s ps).diehalt = s.diehalt :=
  rfl
@[simp] theorem clearPoison_rcvr (s : State) (ps : List (Nat × Nat)) : (clearPoison s ps).rcvr = s.rcvr := rfl
@[simp] theorem clearPoison_cxlBase (s : State) (ps : List (Nat × Nat)) : (clearPoison s ps).cxlBase = s.cxlBase :=
  rfl
@[simp] theorem clearPoison_cxlDpa (s : State) (ps : List (Nat × Nat)) : (clearPoison s ps).cxlDpa = s.cxlDpa := rfl
@[simp] theorem clearPoison_cxlCfg (s : State) (ps : List (Nat × Nat)) : (clearPoison s ps).cxlCfg = s.cxlCfg := rfl
@[simp] theorem clearPoison_fxBase (s : State) (ps : List (Nat × Nat)) : (clearPoison s ps).fxBase = s.fxBase := rfl
@[simp] theorem clearPoison_fxCfg (s : State) (ps : List (Nat × Nat)) : (clearPoison s ps).fxCfg = s.fxCfg := rfl
@[simp] theorem clearPoison_port (s : State) (ps : List (Nat × Nat)) : (clearPoison s ps).port = s.port := rfl
@[simp] theorem clearPoison_powered (s : State) (ps : List (Nat × Nat)) : (clearPoison s ps).powered = s.powered :=
  rfl
@[simp] theorem clearPoison_booted (s : State) (ps : List (Nat × Nat)) : (clearPoison s ps).booted = s.booted := rfl
@[simp] theorem clearPoison_imageVersion (s : State) (ps : List (Nat × Nat)) :
    (clearPoison s ps).imageVersion = s.imageVersion :=
  rfl
@[simp] theorem clearPoison_imageDigest (s : State) (ps : List (Nat × Nat)) :
    (clearPoison s ps).imageDigest = s.imageDigest :=
  rfl
@[simp] theorem clearPoison_syscSeq (s : State) (ps : List (Nat × Nat)) : (clearPoison s ps).syscSeq = s.syscSeq :=
  rfl
@[simp] theorem clearPoison_inbox (s : State) (ps : List (Nat × Nat)) : (clearPoison s ps).inbox = s.inbox := rfl
@[simp] theorem clearPoison_fresh (s : State) (ps : List (Nat × Nat)) : (clearPoison s ps).fresh = s.fresh := rfl
@[simp] theorem clearPoison_serial (s : State) (ps : List (Nat × Nat)) : (clearPoison s ps).serial = s.serial := rfl
@[simp] theorem clearPoison_ctlTurn (s : State) (ps : List (Nat × Nat)) : (clearPoison s ps).ctlTurn = s.ctlTurn :=
  rfl
@[simp] theorem clearPoison_wbTurn (s : State) (ps : List (Nat × Nat)) : (clearPoison s ps).wbTurn = s.wbTurn := rfl
@[simp] theorem clearPoison_partTurn (s : State) (ps : List (Nat × Nat)) : (clearPoison s ps).partTurn = s.partTurn :=
  rfl
@[simp] theorem clearPoison_queueTurn (s : State) (ps : List (Nat × Nat)) :
    (clearPoison s ps).queueTurn = s.queueTurn :=
  rfl
@[simp] theorem clearPoison_ctlCore (s : State) (ps : List (Nat × Nat)) : (clearPoison s ps).ctlCore = s.ctlCore :=
  rfl

@[simp] theorem setEmpty_team (s : State) (loc : Nat) : (setEmpty s loc).team = s.team := rfl
@[simp] theorem setEmpty_others (s : State) (loc : Nat) : (setEmpty s loc).others = s.others := rfl
@[simp] theorem setEmpty_mem (s : State) (loc : Nat) : (setEmpty s loc).mem = s.mem := rfl
@[simp] theorem setEmpty_dirty (s : State) (loc : Nat) : (setEmpty s loc).dirty = s.dirty := rfl
@[simp] theorem setEmpty_l1 (s : State) (loc : Nat) : (setEmpty s loc).l1 = s.l1 := rfl
@[simp] theorem setEmpty_l2 (s : State) (loc : Nat) : (setEmpty s loc).l2 = s.l2 := rfl
@[simp] theorem setEmpty_full (s : State) (loc : Nat) :
    (setEmpty s loc).full = s.full.filter fun g => g != loc / 16 :=
  rfl
@[simp] theorem setEmpty_tags (s : State) (loc : Nat) : (setEmpty s loc).tags = s.tags := rfl
@[simp] theorem setEmpty_locks (s : State) (loc : Nat) : (setEmpty s loc).locks = s.locks := rfl
@[simp] theorem setEmpty_bodies (s : State) (loc : Nat) : (setEmpty s loc).bodies = s.bodies := rfl
@[simp] theorem setEmpty_poisonLines (s : State) (loc : Nat) : (setEmpty s loc).poisonLines = s.poisonLines := rfl
@[simp] theorem setEmpty_poisonGranules (s : State) (loc : Nat) :
    (setEmpty s loc).poisonGranules = s.poisonGranules :=
  rfl
@[simp] theorem setEmpty_bank (s : State) (loc : Nat) : (setEmpty s loc).bank = s.bank := rfl
@[simp] theorem setEmpty_cross (s : State) (loc : Nat) : (setEmpty s loc).cross = s.cross := rfl
@[simp] theorem setEmpty_notices (s : State) (loc : Nat) : (setEmpty s loc).notices = s.notices := rfl
@[simp] theorem setEmpty_cores (s : State) (loc : Nat) : (setEmpty s loc).cores = s.cores := rfl
@[simp] theorem setEmpty_blocks (s : State) (loc : Nat) : (setEmpty s loc).blocks = s.blocks := rfl
@[simp] theorem setEmpty_engines (s : State) (loc : Nat) : (setEmpty s loc).engines = s.engines := rfl
@[simp] theorem setEmpty_service (s : State) (loc : Nat) : (setEmpty s loc).service = s.service := rfl
@[simp] theorem setEmpty_capWait (s : State) (loc : Nat) : (setEmpty s loc).capWait = s.capWait := rfl
@[simp] theorem setEmpty_capWrites (s : State) (loc : Nat) : (setEmpty s loc).capWrites = s.capWrites := rfl
@[simp] theorem setEmpty_saved (s : State) (loc : Nat) : (setEmpty s loc).saved = s.saved := rfl
@[simp] theorem setEmpty_preempted (s : State) (loc : Nat) : (setEmpty s loc).preempted = s.preempted := rfl
@[simp] theorem setEmpty_preempting (s : State) (loc : Nat) : (setEmpty s loc).preempting = s.preempting := rfl
@[simp] theorem setEmpty_levels (s : State) (loc : Nat) : (setEmpty s loc).levels = s.levels := rfl
@[simp] theorem setEmpty_cancels (s : State) (loc : Nat) : (setEmpty s loc).cancels = s.cancels := rfl
@[simp] theorem setEmpty_parts (s : State) (loc : Nat) : (setEmpty s loc).parts = s.parts := rfl
@[simp] theorem setEmpty_asid0 (s : State) (loc : Nat) : (setEmpty s loc).asid0 = s.asid0 := rfl
@[simp] theorem setEmpty_asid1 (s : State) (loc : Nat) : (setEmpty s loc).asid1 = s.asid1 := rfl
@[simp] theorem setEmpty_gates (s : State) (loc : Nat) : (setEmpty s loc).gates = s.gates := rfl
@[simp] theorem setEmpty_annex (s : State) (loc : Nat) : (setEmpty s loc).annex = s.annex := rfl
@[simp] theorem setEmpty_window (s : State) (loc : Nat) : (setEmpty s loc).window = s.window := rfl
@[simp] theorem setEmpty_annexCnt (s : State) (loc : Nat) : (setEmpty s loc).annexCnt = s.annexCnt := rfl
@[simp] theorem setEmpty_spans (s : State) (loc : Nat) : (setEmpty s loc).spans = s.spans := rfl
@[simp] theorem setEmpty_dies (s : State) (loc : Nat) : (setEmpty s loc).dies = s.dies := rfl
@[simp] theorem setEmpty_points (s : State) (loc : Nat) : (setEmpty s loc).points = s.points := rfl
@[simp] theorem setEmpty_links (s : State) (loc : Nat) : (setEmpty s loc).links = s.links := rfl
@[simp] theorem setEmpty_peerHeld (s : State) (loc : Nat) : (setEmpty s loc).peerHeld = s.peerHeld := rfl
@[simp] theorem setEmpty_hallOut (s : State) (loc : Nat) : (setEmpty s loc).hallOut = s.hallOut := rfl
@[simp] theorem setEmpty_time (s : State) (loc : Nat) : (setEmpty s loc).time = s.time := rfl
@[simp] theorem setEmpty_target (s : State) (loc : Nat) : (setEmpty s loc).target = s.target := rfl
@[simp] theorem setEmpty_targetOrder (s : State) (loc : Nat) : (setEmpty s loc).targetOrder = s.targetOrder := rfl
@[simp] theorem setEmpty_rate (s : State) (loc : Nat) : (setEmpty s loc).rate = s.rate := rfl
@[simp] theorem setEmpty_seq (s : State) (loc : Nat) : (setEmpty s loc).seq = s.seq := rfl
@[simp] theorem setEmpty_dlive (s : State) (loc : Nat) : (setEmpty s loc).dlive = s.dlive := rfl
@[simp] theorem setEmpty_pkstat (s : State) (loc : Nat) : (setEmpty s loc).pkstat = s.pkstat := rfl
@[simp] theorem setEmpty_diehalt (s : State) (loc : Nat) : (setEmpty s loc).diehalt = s.diehalt := rfl
@[simp] theorem setEmpty_rcvr (s : State) (loc : Nat) : (setEmpty s loc).rcvr = s.rcvr := rfl
@[simp] theorem setEmpty_cxlBase (s : State) (loc : Nat) : (setEmpty s loc).cxlBase = s.cxlBase := rfl
@[simp] theorem setEmpty_cxlDpa (s : State) (loc : Nat) : (setEmpty s loc).cxlDpa = s.cxlDpa := rfl
@[simp] theorem setEmpty_cxlCfg (s : State) (loc : Nat) : (setEmpty s loc).cxlCfg = s.cxlCfg := rfl
@[simp] theorem setEmpty_fxBase (s : State) (loc : Nat) : (setEmpty s loc).fxBase = s.fxBase := rfl
@[simp] theorem setEmpty_fxCfg (s : State) (loc : Nat) : (setEmpty s loc).fxCfg = s.fxCfg := rfl
@[simp] theorem setEmpty_port (s : State) (loc : Nat) : (setEmpty s loc).port = s.port := rfl
@[simp] theorem setEmpty_powered (s : State) (loc : Nat) : (setEmpty s loc).powered = s.powered := rfl
@[simp] theorem setEmpty_booted (s : State) (loc : Nat) : (setEmpty s loc).booted = s.booted := rfl
@[simp] theorem setEmpty_imageVersion (s : State) (loc : Nat) : (setEmpty s loc).imageVersion = s.imageVersion := rfl
@[simp] theorem setEmpty_imageDigest (s : State) (loc : Nat) : (setEmpty s loc).imageDigest = s.imageDigest := rfl
@[simp] theorem setEmpty_syscSeq (s : State) (loc : Nat) : (setEmpty s loc).syscSeq = s.syscSeq := rfl
@[simp] theorem setEmpty_inbox (s : State) (loc : Nat) : (setEmpty s loc).inbox = s.inbox := rfl
@[simp] theorem setEmpty_fresh (s : State) (loc : Nat) : (setEmpty s loc).fresh = s.fresh := rfl
@[simp] theorem setEmpty_serial (s : State) (loc : Nat) : (setEmpty s loc).serial = s.serial := rfl
@[simp] theorem setEmpty_ctlTurn (s : State) (loc : Nat) : (setEmpty s loc).ctlTurn = s.ctlTurn := rfl
@[simp] theorem setEmpty_wbTurn (s : State) (loc : Nat) : (setEmpty s loc).wbTurn = s.wbTurn := rfl
@[simp] theorem setEmpty_partTurn (s : State) (loc : Nat) : (setEmpty s loc).partTurn = s.partTurn := rfl
@[simp] theorem setEmpty_queueTurn (s : State) (loc : Nat) : (setEmpty s loc).queueTurn = s.queueTurn := rfl
@[simp] theorem setEmpty_ctlCore (s : State) (loc : Nat) : (setEmpty s loc).ctlCore = s.ctlCore := rfl

@[simp] theorem putCross_team (s : State) (c : CrossObj) : (putCross s c).team = s.team := rfl
@[simp] theorem putCross_others (s : State) (c : CrossObj) : (putCross s c).others = s.others := rfl
@[simp] theorem putCross_mem (s : State) (c : CrossObj) : (putCross s c).mem = s.mem := rfl
@[simp] theorem putCross_dirty (s : State) (c : CrossObj) : (putCross s c).dirty = s.dirty := rfl
@[simp] theorem putCross_l1 (s : State) (c : CrossObj) : (putCross s c).l1 = s.l1 := rfl
@[simp] theorem putCross_l2 (s : State) (c : CrossObj) : (putCross s c).l2 = s.l2 := rfl
@[simp] theorem putCross_full (s : State) (c : CrossObj) : (putCross s c).full = s.full := rfl
@[simp] theorem putCross_tags (s : State) (c : CrossObj) : (putCross s c).tags = s.tags := rfl
@[simp] theorem putCross_locks (s : State) (c : CrossObj) : (putCross s c).locks = s.locks := rfl
@[simp] theorem putCross_bodies (s : State) (c : CrossObj) : (putCross s c).bodies = s.bodies := rfl
@[simp] theorem putCross_poisonLines (s : State) (c : CrossObj) : (putCross s c).poisonLines = s.poisonLines := rfl
@[simp] theorem putCross_poisonGranules (s : State) (c : CrossObj) :
    (putCross s c).poisonGranules = s.poisonGranules :=
  rfl
@[simp] theorem putCross_bank (s : State) (c : CrossObj) : (putCross s c).bank = s.bank := rfl
@[simp] theorem putCross_cross (s : State) (c : CrossObj) :
    (putCross s c).cross = c :: s.cross.filter fun d => d.obj != c.obj :=
  rfl
@[simp] theorem putCross_notices (s : State) (c : CrossObj) : (putCross s c).notices = s.notices := rfl
@[simp] theorem putCross_cores (s : State) (c : CrossObj) : (putCross s c).cores = s.cores := rfl
@[simp] theorem putCross_blocks (s : State) (c : CrossObj) : (putCross s c).blocks = s.blocks := rfl
@[simp] theorem putCross_engines (s : State) (c : CrossObj) : (putCross s c).engines = s.engines := rfl
@[simp] theorem putCross_service (s : State) (c : CrossObj) : (putCross s c).service = s.service := rfl
@[simp] theorem putCross_capWait (s : State) (c : CrossObj) : (putCross s c).capWait = s.capWait := rfl
@[simp] theorem putCross_capWrites (s : State) (c : CrossObj) : (putCross s c).capWrites = s.capWrites := rfl
@[simp] theorem putCross_saved (s : State) (c : CrossObj) : (putCross s c).saved = s.saved := rfl
@[simp] theorem putCross_preempted (s : State) (c : CrossObj) : (putCross s c).preempted = s.preempted := rfl
@[simp] theorem putCross_preempting (s : State) (c : CrossObj) : (putCross s c).preempting = s.preempting := rfl
@[simp] theorem putCross_levels (s : State) (c : CrossObj) : (putCross s c).levels = s.levels := rfl
@[simp] theorem putCross_cancels (s : State) (c : CrossObj) : (putCross s c).cancels = s.cancels := rfl
@[simp] theorem putCross_parts (s : State) (c : CrossObj) : (putCross s c).parts = s.parts := rfl
@[simp] theorem putCross_asid0 (s : State) (c : CrossObj) : (putCross s c).asid0 = s.asid0 := rfl
@[simp] theorem putCross_asid1 (s : State) (c : CrossObj) : (putCross s c).asid1 = s.asid1 := rfl
@[simp] theorem putCross_gates (s : State) (c : CrossObj) : (putCross s c).gates = s.gates := rfl
@[simp] theorem putCross_annex (s : State) (c : CrossObj) : (putCross s c).annex = s.annex := rfl
@[simp] theorem putCross_window (s : State) (c : CrossObj) : (putCross s c).window = s.window := rfl
@[simp] theorem putCross_annexCnt (s : State) (c : CrossObj) : (putCross s c).annexCnt = s.annexCnt := rfl
@[simp] theorem putCross_spans (s : State) (c : CrossObj) : (putCross s c).spans = s.spans := rfl
@[simp] theorem putCross_dies (s : State) (c : CrossObj) : (putCross s c).dies = s.dies := rfl
@[simp] theorem putCross_points (s : State) (c : CrossObj) : (putCross s c).points = s.points := rfl
@[simp] theorem putCross_links (s : State) (c : CrossObj) : (putCross s c).links = s.links := rfl
@[simp] theorem putCross_peerHeld (s : State) (c : CrossObj) : (putCross s c).peerHeld = s.peerHeld := rfl
@[simp] theorem putCross_hallOut (s : State) (c : CrossObj) : (putCross s c).hallOut = s.hallOut := rfl
@[simp] theorem putCross_time (s : State) (c : CrossObj) : (putCross s c).time = s.time := rfl
@[simp] theorem putCross_target (s : State) (c : CrossObj) : (putCross s c).target = s.target := rfl
@[simp] theorem putCross_targetOrder (s : State) (c : CrossObj) : (putCross s c).targetOrder = s.targetOrder := rfl
@[simp] theorem putCross_rate (s : State) (c : CrossObj) : (putCross s c).rate = s.rate := rfl
@[simp] theorem putCross_seq (s : State) (c : CrossObj) : (putCross s c).seq = s.seq := rfl
@[simp] theorem putCross_dlive (s : State) (c : CrossObj) : (putCross s c).dlive = s.dlive := rfl
@[simp] theorem putCross_pkstat (s : State) (c : CrossObj) : (putCross s c).pkstat = s.pkstat := rfl
@[simp] theorem putCross_diehalt (s : State) (c : CrossObj) : (putCross s c).diehalt = s.diehalt := rfl
@[simp] theorem putCross_rcvr (s : State) (c : CrossObj) : (putCross s c).rcvr = s.rcvr := rfl
@[simp] theorem putCross_cxlBase (s : State) (c : CrossObj) : (putCross s c).cxlBase = s.cxlBase := rfl
@[simp] theorem putCross_cxlDpa (s : State) (c : CrossObj) : (putCross s c).cxlDpa = s.cxlDpa := rfl
@[simp] theorem putCross_cxlCfg (s : State) (c : CrossObj) : (putCross s c).cxlCfg = s.cxlCfg := rfl
@[simp] theorem putCross_fxBase (s : State) (c : CrossObj) : (putCross s c).fxBase = s.fxBase := rfl
@[simp] theorem putCross_fxCfg (s : State) (c : CrossObj) : (putCross s c).fxCfg = s.fxCfg := rfl
@[simp] theorem putCross_port (s : State) (c : CrossObj) : (putCross s c).port = s.port := rfl
@[simp] theorem putCross_powered (s : State) (c : CrossObj) : (putCross s c).powered = s.powered := rfl
@[simp] theorem putCross_booted (s : State) (c : CrossObj) : (putCross s c).booted = s.booted := rfl
@[simp] theorem putCross_imageVersion (s : State) (c : CrossObj) : (putCross s c).imageVersion = s.imageVersion := rfl
@[simp] theorem putCross_imageDigest (s : State) (c : CrossObj) : (putCross s c).imageDigest = s.imageDigest := rfl
@[simp] theorem putCross_syscSeq (s : State) (c : CrossObj) : (putCross s c).syscSeq = s.syscSeq := rfl
@[simp] theorem putCross_inbox (s : State) (c : CrossObj) : (putCross s c).inbox = s.inbox := rfl
@[simp] theorem putCross_fresh (s : State) (c : CrossObj) : (putCross s c).fresh = s.fresh := rfl
@[simp] theorem putCross_serial (s : State) (c : CrossObj) : (putCross s c).serial = s.serial := rfl
@[simp] theorem putCross_ctlTurn (s : State) (c : CrossObj) : (putCross s c).ctlTurn = s.ctlTurn := rfl
@[simp] theorem putCross_wbTurn (s : State) (c : CrossObj) : (putCross s c).wbTurn = s.wbTurn := rfl
@[simp] theorem putCross_partTurn (s : State) (c : CrossObj) : (putCross s c).partTurn = s.partTurn := rfl
@[simp] theorem putCross_queueTurn (s : State) (c : CrossObj) : (putCross s c).queueTurn = s.queueTurn := rfl
@[simp] theorem putCross_ctlCore (s : State) (c : CrossObj) : (putCross s c).ctlCore = s.ctlCore := rfl

/-! ### Updates of a team -/

@[simp] theorem sset_place (t : Team) (r : SReg) (v : Word) : (sset t r v).place = t.place := by
  unfold sset; split <;> rfl
@[simp] theorem sset_status (t : Team) (r : SReg) (v : Word) : (sset t r v).status = t.status := by
  unfold sset; split <;> rfl
@[simp] theorem sset_parks (t : Team) (r : SReg) (v : Word) : (sset t r v).parks = t.parks := by
  unfold sset; split <;> rfl
@[simp] theorem sset_part (t : Team) (r : SReg) (v : Word) : (sset t r v).part = t.part := by
  unfold sset; split <;> rfl
@[simp] theorem sset_asid (t : Team) (r : SReg) (v : Word) : (sset t r v).asid = t.asid := by
  unfold sset; split <;> rfl
@[simp] theorem sset_launch (t : Team) (r : SReg) (v : Word) : (sset t r v).launch = t.launch := by
  unfold sset; split <;> rfl
@[simp] theorem sset_blk (t : Team) (r : SReg) (v : Word) : (sset t r v).blk = t.blk := by unfold sset; split <;> rfl
@[simp] theorem sset_teamId (t : Team) (r : SReg) (v : Word) : (sset t r v).teamId = t.teamId := by
  unfold sset; split <;> rfl
@[simp] theorem sset_lanes (t : Team) (r : SReg) (v : Word) : (sset t r v).lanes = t.lanes := by
  unfold sset; split <;> rfl
@[simp] theorem sset_vregCount (t : Team) (r : SReg) (v : Word) : (sset t r v).vregCount = t.vregCount := by
  unfold sset; split <;> rfl
@[simp] theorem sset_prio (t : Team) (r : SReg) (v : Word) : (sset t r v).prio = t.prio := by
  unfold sset; split <;> rfl
@[simp] theorem sset_stklim (t : Team) (r : SReg) (v : Word) : (sset t r v).stklim = t.stklim := by
  unfold sset; split <;> rfl
@[simp] theorem sset_prvbase (t : Team) (r : SReg) (v : Word) : (sset t r v).prvbase = t.prvbase := by
  unfold sset; split <;> rfl
@[simp] theorem sset_ctl (t : Team) (r : SReg) (v : Word) : (sset t r v).ctl = t.ctl := by unfold sset; split <;> rfl
@[simp] theorem sset_pc (t : Team) (r : SReg) (v : Word) : (sset t r v).pc = t.pc := by unfold sset; split <;> rfl
@[simp] theorem sset_vregs (t : Team) (r : SReg) (v : Word) : (sset t r v).vregs = t.vregs := by
  unfold sset; split <;> rfl
@[simp] theorem sset_masks (t : Team) (r : SReg) (v : Word) : (sset t r v).masks = t.masks := by
  unfold sset; split <;> rfl
@[simp] theorem sset_em (t : Team) (r : SReg) (v : Word) : (sset t r v).em = t.em := by unfold sset; split <;> rfl
@[simp] theorem sset_cc (t : Team) (r : SReg) (v : Word) : (sset t r v).cc = t.cc := by unfold sset; split <;> rfl
@[simp] theorem sset_mode (t : Team) (r : SReg) (v : Word) : (sset t r v).mode = t.mode := by
  unfold sset; split <;> rfl
@[simp] theorem sset_cmode (t : Team) (r : SReg) (v : Word) : (sset t r v).cmode = t.cmode := by
  unfold sset; split <;> rfl
@[simp] theorem sset_useCmode (t : Team) (r : SReg) (v : Word) : (sset t r v).useCmode = t.useCmode := by
  unfold sset; split <;> rfl
@[simp] theorem sset_rateo (t : Team) (r : SReg) (v : Word) : (sset t r v).rateo = t.rateo := by
  unfold sset; split <;> rfl
@[simp] theorem sset_pix (t : Team) (r : SReg) (v : Word) : (sset t r v).pix = t.pix := by unfold sset; split <;> rfl
@[simp] theorem sset_cntCpy (t : Team) (r : SReg) (v : Word) : (sset t r v).cntCpy = t.cntCpy := by
  unfold sset; split <;> rfl
@[simp] theorem sset_cntMxa (t : Team) (r : SReg) (v : Word) : (sset t r v).cntMxa = t.cntMxa := by
  unfold sset; split <;> rfl
@[simp] theorem sset_cntGth (t : Team) (r : SReg) (v : Word) : (sset t r v).cntGth = t.cntGth := by
  unfold sset; split <;> rfl
@[simp] theorem sset_cntCol (t : Team) (r : SReg) (v : Word) : (sset t r v).cntCol = t.cntCol := by
  unfold sset; split <;> rfl
@[simp] theorem sset_fcont (t : Team) (r : SReg) (v : Word) : (sset t r v).fcont = t.fcont := by
  unfold sset; split <;> rfl
@[simp] theorem sset_fframe (t : Team) (r : SReg) (v : Word) : (sset t r v).fframe = t.fframe := by
  unfold sset; split <;> rfl
@[simp] theorem sset_dstk (t : Team) (r : SReg) (v : Word) : (sset t r v).dstk = t.dstk := by
  unfold sset; split <;> rfl
@[simp] theorem sset_lstk (t : Team) (r : SReg) (v : Word) : (sset t r v).lstk = t.lstk := by
  unfold sset; split <;> rfl
@[simp] theorem sset_qnt (t : Team) (r : SReg) (v : Word) : (sset t r v).qnt = t.qnt := by unfold sset; split <;> rfl
@[simp] theorem sset_sEmpty (t : Team) (r : SReg) (v : Word) : (sset t r v).sEmpty = t.sEmpty := by
  unfold sset; split <;> rfl
@[simp] theorem sset_vEmpty (t : Team) (r : SReg) (v : Word) : (sset t r v).vEmpty = t.vEmpty := by
  unfold sset; split <;> rfl
@[simp] theorem sset_sPoison (t : Team) (r : SReg) (v : Word) : (sset t r v).sPoison = t.sPoison := by
  unfold sset; split <;> rfl
@[simp] theorem sset_vPoison (t : Team) (r : SReg) (v : Word) : (sset t r v).vPoison = t.vPoison := by
  unfold sset; split <;> rfl
@[simp] theorem sset_inflight (t : Team) (r : SReg) (v : Word) : (sset t r v).inflight = t.inflight := by
  unfold sset; split <;> rfl
@[simp] theorem sset_setAsides (t : Team) (r : SReg) (v : Word) : (sset t r v).setAsides = t.setAsides := by
  unfold sset; split <;> rfl
@[simp] theorem sset_bkpt (t : Team) (r : SReg) (v : Word) : (sset t r v).bkpt = t.bkpt := by
  unfold sset; split <;> rfl
@[simp] theorem sset_stopNo (t : Team) (r : SReg) (v : Word) : (sset t r v).stopNo = t.stopNo := by
  unfold sset; split <;> rfl
@[simp] theorem sset_softErr (t : Team) (r : SReg) (v : Word) : (sset t r v).softErr = t.softErr := by
  unfold sset; split <;> rfl
@[simp] theorem sset_held (t : Team) (r : SReg) (v : Word) : (sset t r v).held = t.held := by
  unfold sset; split <;> rfl
@[simp] theorem sset_displaced (t : Team) (r : SReg) (v : Word) : (sset t r v).displaced = t.displaced := by
  unfold sset; split <;> rfl
@[simp] theorem sset_mystep (t : Team) (r : SReg) (v : Word) : (sset t r v).mystep = t.mystep := by
  unfold sset; split <;> rfl
@[simp] theorem sset_capBuf (t : Team) (r : SReg) (v : Word) : (sset t r v).capBuf = t.capBuf := by
  unfold sset; split <;> rfl
@[simp] theorem sset_capCount (t : Team) (r : SReg) (v : Word) : (sset t r v).capCount = t.capCount := by
  unfold sset; split <;> rfl
@[simp] theorem sset_pairShadow (t : Team) (r : SReg) (v : Word) : (sset t r v).pairShadow = t.pairShadow := by
  unfold sset; split <;> rfl
@[simp] theorem sset_inPair (t : Team) (r : SReg) (v : Word) : (sset t r v).inPair = t.inPair := by
  unfold sset; split <;> rfl
@[simp] theorem sset_boosted (t : Team) (r : SReg) (v : Word) : (sset t r v).boosted = t.boosted := by
  unfold sset; split <;> rfl
@[simp] theorem sset_readyTurns (t : Team) (r : SReg) (v : Word) : (sset t r v).readyTurns = t.readyTurns := by
  unfold sset; split <;> rfl
@[simp] theorem sset_yieldUntil (t : Team) (r : SReg) (v : Word) : (sset t r v).yieldUntil = t.yieldUntil := by
  unfold sset; split <;> rfl
@[simp] theorem sset_runSince (t : Team) (r : SReg) (v : Word) : (sset t r v).runSince = t.runSince := by
  unfold sset; split <;> rfl
@[simp] theorem sset_mma8 (t : Team) (r : SReg) (v : Word) : (sset t r v).mma8 = t.mma8 := by
  unfold sset; split <;> rfl
@[simp] theorem sset_mma16 (t : Team) (r : SReg) (v : Word) : (sset t r v).mma16 = t.mma16 := by
  unfold sset; split <;> rfl
@[simp] theorem sset_cpyPath (t : Team) (r : SReg) (v : Word) : (sset t r v).cpyPath = t.cpyPath := by
  unfold sset; split <;> rfl
@[simp] theorem sset_chosen (t : Team) (r : SReg) (v : Word) : (sset t r v).chosen = t.chosen := by
  unfold sset; split <;> rfl
@[simp] theorem sset_obuf (t : Team) (r : SReg) (v : Word) : (sset t r v).obuf = t.obuf := by
  unfold sset; split <;> rfl
@[simp] theorem sset_closed (t : Team) (r : SReg) (v : Word) : (sset t r v).closed = t.closed := by
  unfold sset; split <;> rfl
@[simp] theorem sset_request (t : Team) (r : SReg) (v : Word) : (sset t r v).request = t.request := by
  unfold sset; split <;> rfl
@[simp] theorem sset_reply (t : Team) (r : SReg) (v : Word) : (sset t r v).reply = t.reply := by
  unfold sset; split <;> rfl
@[simp] theorem sset_asked (t : Team) (r : SReg) (v : Word) : (sset t r v).asked = t.asked := by
  unfold sset; split <;> rfl
@[simp] theorem sset_op (t : Team) (r : SReg) (v : Word) : (sset t r v).op = t.op := by unfold sset; split <;> rfl
@[simp] theorem sset_spent (t : Team) (r : SReg) (v : Word) : (sset t r v).spent = t.spent := by
  unfold sset; split <;> rfl
@[simp] theorem sset_cancelling (t : Team) (r : SReg) (v : Word) : (sset t r v).cancelling = t.cancelling := by
  unfold sset; split <;> rfl
@[simp] theorem sset_granted (t : Team) (r : SReg) (v : Word) : (sset t r v).granted = t.granted := by
  unfold sset; split <;> rfl
@[simp] theorem sset_arrival (t : Team) (r : SReg) (v : Word) : (sset t r v).arrival = t.arrival := by
  unfold sset; split <;> rfl
@[simp] theorem sset_waitReported (t : Team) (r : SReg) (v : Word) : (sset t r v).waitReported = t.waitReported := by
  unfold sset; split <;> rfl

@[simp] theorem kset_place (t : Team) (k : KReg) (m : Mask) : (kset t k m).place = t.place := by
  unfold kset; split <;> rfl
@[simp] theorem kset_status (t : Team) (k : KReg) (m : Mask) : (kset t k m).status = t.status := by
  unfold kset; split <;> rfl
@[simp] theorem kset_parks (t : Team) (k : KReg) (m : Mask) : (kset t k m).parks = t.parks := by
  unfold kset; split <;> rfl
@[simp] theorem kset_part (t : Team) (k : KReg) (m : Mask) : (kset t k m).part = t.part := by
  unfold kset; split <;> rfl
@[simp] theorem kset_asid (t : Team) (k : KReg) (m : Mask) : (kset t k m).asid = t.asid := by
  unfold kset; split <;> rfl
@[simp] theorem kset_launch (t : Team) (k : KReg) (m : Mask) : (kset t k m).launch = t.launch := by
  unfold kset; split <;> rfl
@[simp] theorem kset_blk (t : Team) (k : KReg) (m : Mask) : (kset t k m).blk = t.blk := by unfold kset; split <;> rfl
@[simp] theorem kset_teamId (t : Team) (k : KReg) (m : Mask) : (kset t k m).teamId = t.teamId := by
  unfold kset; split <;> rfl
@[simp] theorem kset_lanes (t : Team) (k : KReg) (m : Mask) : (kset t k m).lanes = t.lanes := by
  unfold kset; split <;> rfl
@[simp] theorem kset_vregCount (t : Team) (k : KReg) (m : Mask) : (kset t k m).vregCount = t.vregCount := by
  unfold kset; split <;> rfl
@[simp] theorem kset_prio (t : Team) (k : KReg) (m : Mask) : (kset t k m).prio = t.prio := by
  unfold kset; split <;> rfl
@[simp] theorem kset_stklim (t : Team) (k : KReg) (m : Mask) : (kset t k m).stklim = t.stklim := by
  unfold kset; split <;> rfl
@[simp] theorem kset_prvbase (t : Team) (k : KReg) (m : Mask) : (kset t k m).prvbase = t.prvbase := by
  unfold kset; split <;> rfl
@[simp] theorem kset_ctl (t : Team) (k : KReg) (m : Mask) : (kset t k m).ctl = t.ctl := by unfold kset; split <;> rfl
@[simp] theorem kset_pc (t : Team) (k : KReg) (m : Mask) : (kset t k m).pc = t.pc := by unfold kset; split <;> rfl
@[simp] theorem kset_sregs (t : Team) (k : KReg) (m : Mask) : (kset t k m).sregs = t.sregs := by
  unfold kset; split <;> rfl
@[simp] theorem kset_vregs (t : Team) (k : KReg) (m : Mask) : (kset t k m).vregs = t.vregs := by
  unfold kset; split <;> rfl
@[simp] theorem kset_em (t : Team) (k : KReg) (m : Mask) : (kset t k m).em = t.em := by unfold kset; split <;> rfl
@[simp] theorem kset_cc (t : Team) (k : KReg) (m : Mask) : (kset t k m).cc = t.cc := by unfold kset; split <;> rfl
@[simp] theorem kset_mode (t : Team) (k : KReg) (m : Mask) : (kset t k m).mode = t.mode := by
  unfold kset; split <;> rfl
@[simp] theorem kset_cmode (t : Team) (k : KReg) (m : Mask) : (kset t k m).cmode = t.cmode := by
  unfold kset; split <;> rfl
@[simp] theorem kset_useCmode (t : Team) (k : KReg) (m : Mask) : (kset t k m).useCmode = t.useCmode := by
  unfold kset; split <;> rfl
@[simp] theorem kset_rateo (t : Team) (k : KReg) (m : Mask) : (kset t k m).rateo = t.rateo := by
  unfold kset; split <;> rfl
@[simp] theorem kset_pix (t : Team) (k : KReg) (m : Mask) : (kset t k m).pix = t.pix := by unfold kset; split <;> rfl
@[simp] theorem kset_cntCpy (t : Team) (k : KReg) (m : Mask) : (kset t k m).cntCpy = t.cntCpy := by
  unfold kset; split <;> rfl
@[simp] theorem kset_cntMxa (t : Team) (k : KReg) (m : Mask) : (kset t k m).cntMxa = t.cntMxa := by
  unfold kset; split <;> rfl
@[simp] theorem kset_cntGth (t : Team) (k : KReg) (m : Mask) : (kset t k m).cntGth = t.cntGth := by
  unfold kset; split <;> rfl
@[simp] theorem kset_cntCol (t : Team) (k : KReg) (m : Mask) : (kset t k m).cntCol = t.cntCol := by
  unfold kset; split <;> rfl
@[simp] theorem kset_fcont (t : Team) (k : KReg) (m : Mask) : (kset t k m).fcont = t.fcont := by
  unfold kset; split <;> rfl
@[simp] theorem kset_fframe (t : Team) (k : KReg) (m : Mask) : (kset t k m).fframe = t.fframe := by
  unfold kset; split <;> rfl
@[simp] theorem kset_dstk (t : Team) (k : KReg) (m : Mask) : (kset t k m).dstk = t.dstk := by
  unfold kset; split <;> rfl
@[simp] theorem kset_lstk (t : Team) (k : KReg) (m : Mask) : (kset t k m).lstk = t.lstk := by
  unfold kset; split <;> rfl
@[simp] theorem kset_qnt (t : Team) (k : KReg) (m : Mask) : (kset t k m).qnt = t.qnt := by unfold kset; split <;> rfl
@[simp] theorem kset_sEmpty (t : Team) (k : KReg) (m : Mask) : (kset t k m).sEmpty = t.sEmpty := by
  unfold kset; split <;> rfl
@[simp] theorem kset_vEmpty (t : Team) (k : KReg) (m : Mask) : (kset t k m).vEmpty = t.vEmpty := by
  unfold kset; split <;> rfl
@[simp] theorem kset_sPoison (t : Team) (k : KReg) (m : Mask) : (kset t k m).sPoison = t.sPoison := by
  unfold kset; split <;> rfl
@[simp] theorem kset_vPoison (t : Team) (k : KReg) (m : Mask) : (kset t k m).vPoison = t.vPoison := by
  unfold kset; split <;> rfl
@[simp] theorem kset_inflight (t : Team) (k : KReg) (m : Mask) : (kset t k m).inflight = t.inflight := by
  unfold kset; split <;> rfl
@[simp] theorem kset_setAsides (t : Team) (k : KReg) (m : Mask) : (kset t k m).setAsides = t.setAsides := by
  unfold kset; split <;> rfl
@[simp] theorem kset_bkpt (t : Team) (k : KReg) (m : Mask) : (kset t k m).bkpt = t.bkpt := by
  unfold kset; split <;> rfl
@[simp] theorem kset_stopNo (t : Team) (k : KReg) (m : Mask) : (kset t k m).stopNo = t.stopNo := by
  unfold kset; split <;> rfl
@[simp] theorem kset_softErr (t : Team) (k : KReg) (m : Mask) : (kset t k m).softErr = t.softErr := by
  unfold kset; split <;> rfl
@[simp] theorem kset_held (t : Team) (k : KReg) (m : Mask) : (kset t k m).held = t.held := by
  unfold kset; split <;> rfl
@[simp] theorem kset_displaced (t : Team) (k : KReg) (m : Mask) : (kset t k m).displaced = t.displaced := by
  unfold kset; split <;> rfl
@[simp] theorem kset_mystep (t : Team) (k : KReg) (m : Mask) : (kset t k m).mystep = t.mystep := by
  unfold kset; split <;> rfl
@[simp] theorem kset_capBuf (t : Team) (k : KReg) (m : Mask) : (kset t k m).capBuf = t.capBuf := by
  unfold kset; split <;> rfl
@[simp] theorem kset_capCount (t : Team) (k : KReg) (m : Mask) : (kset t k m).capCount = t.capCount := by
  unfold kset; split <;> rfl
@[simp] theorem kset_pairShadow (t : Team) (k : KReg) (m : Mask) : (kset t k m).pairShadow = t.pairShadow := by
  unfold kset; split <;> rfl
@[simp] theorem kset_inPair (t : Team) (k : KReg) (m : Mask) : (kset t k m).inPair = t.inPair := by
  unfold kset; split <;> rfl
@[simp] theorem kset_boosted (t : Team) (k : KReg) (m : Mask) : (kset t k m).boosted = t.boosted := by
  unfold kset; split <;> rfl
@[simp] theorem kset_readyTurns (t : Team) (k : KReg) (m : Mask) : (kset t k m).readyTurns = t.readyTurns := by
  unfold kset; split <;> rfl
@[simp] theorem kset_yieldUntil (t : Team) (k : KReg) (m : Mask) : (kset t k m).yieldUntil = t.yieldUntil := by
  unfold kset; split <;> rfl
@[simp] theorem kset_runSince (t : Team) (k : KReg) (m : Mask) : (kset t k m).runSince = t.runSince := by
  unfold kset; split <;> rfl
@[simp] theorem kset_mma8 (t : Team) (k : KReg) (m : Mask) : (kset t k m).mma8 = t.mma8 := by
  unfold kset; split <;> rfl
@[simp] theorem kset_mma16 (t : Team) (k : KReg) (m : Mask) : (kset t k m).mma16 = t.mma16 := by
  unfold kset; split <;> rfl
@[simp] theorem kset_cpyPath (t : Team) (k : KReg) (m : Mask) : (kset t k m).cpyPath = t.cpyPath := by
  unfold kset; split <;> rfl
@[simp] theorem kset_chosen (t : Team) (k : KReg) (m : Mask) : (kset t k m).chosen = t.chosen := by
  unfold kset; split <;> rfl
@[simp] theorem kset_obuf (t : Team) (k : KReg) (m : Mask) : (kset t k m).obuf = t.obuf := by
  unfold kset; split <;> rfl
@[simp] theorem kset_closed (t : Team) (k : KReg) (m : Mask) : (kset t k m).closed = t.closed := by
  unfold kset; split <;> rfl
@[simp] theorem kset_request (t : Team) (k : KReg) (m : Mask) : (kset t k m).request = t.request := by
  unfold kset; split <;> rfl
@[simp] theorem kset_reply (t : Team) (k : KReg) (m : Mask) : (kset t k m).reply = t.reply := by
  unfold kset; split <;> rfl
@[simp] theorem kset_asked (t : Team) (k : KReg) (m : Mask) : (kset t k m).asked = t.asked := by
  unfold kset; split <;> rfl
@[simp] theorem kset_op (t : Team) (k : KReg) (m : Mask) : (kset t k m).op = t.op := by unfold kset; split <;> rfl
@[simp] theorem kset_spent (t : Team) (k : KReg) (m : Mask) : (kset t k m).spent = t.spent := by
  unfold kset; split <;> rfl
@[simp] theorem kset_cancelling (t : Team) (k : KReg) (m : Mask) : (kset t k m).cancelling = t.cancelling := by
  unfold kset; split <;> rfl
@[simp] theorem kset_granted (t : Team) (k : KReg) (m : Mask) : (kset t k m).granted = t.granted := by
  unfold kset; split <;> rfl
@[simp] theorem kset_arrival (t : Team) (k : KReg) (m : Mask) : (kset t k m).arrival = t.arrival := by
  unfold kset; split <;> rfl
@[simp] theorem kset_waitReported (t : Team) (k : KReg) (m : Mask) : (kset t k m).waitReported = t.waitReported := by
  unfold kset; split <;> rfl

@[simp] theorem vset_place (t : Team) (l : Nat) (r : VReg) (v : Word) : (vset t l r v).place = t.place := rfl
@[simp] theorem vset_status (t : Team) (l : Nat) (r : VReg) (v : Word) : (vset t l r v).status = t.status := rfl
@[simp] theorem vset_parks (t : Team) (l : Nat) (r : VReg) (v : Word) : (vset t l r v).parks = t.parks := rfl
@[simp] theorem vset_part (t : Team) (l : Nat) (r : VReg) (v : Word) : (vset t l r v).part = t.part := rfl
@[simp] theorem vset_asid (t : Team) (l : Nat) (r : VReg) (v : Word) : (vset t l r v).asid = t.asid := rfl
@[simp] theorem vset_launch (t : Team) (l : Nat) (r : VReg) (v : Word) : (vset t l r v).launch = t.launch := rfl
@[simp] theorem vset_blk (t : Team) (l : Nat) (r : VReg) (v : Word) : (vset t l r v).blk = t.blk := rfl
@[simp] theorem vset_teamId (t : Team) (l : Nat) (r : VReg) (v : Word) : (vset t l r v).teamId = t.teamId := rfl
@[simp] theorem vset_lanes (t : Team) (l : Nat) (r : VReg) (v : Word) : (vset t l r v).lanes = t.lanes := rfl
@[simp] theorem vset_vregCount (t : Team) (l : Nat) (r : VReg) (v : Word) : (vset t l r v).vregCount = t.vregCount :=
  rfl
@[simp] theorem vset_prio (t : Team) (l : Nat) (r : VReg) (v : Word) : (vset t l r v).prio = t.prio := rfl
@[simp] theorem vset_stklim (t : Team) (l : Nat) (r : VReg) (v : Word) : (vset t l r v).stklim = t.stklim := rfl
@[simp] theorem vset_prvbase (t : Team) (l : Nat) (r : VReg) (v : Word) : (vset t l r v).prvbase = t.prvbase := rfl
@[simp] theorem vset_ctl (t : Team) (l : Nat) (r : VReg) (v : Word) : (vset t l r v).ctl = t.ctl := rfl
@[simp] theorem vset_pc (t : Team) (l : Nat) (r : VReg) (v : Word) : (vset t l r v).pc = t.pc := rfl
@[simp] theorem vset_sregs (t : Team) (l : Nat) (r : VReg) (v : Word) : (vset t l r v).sregs = t.sregs := rfl
@[simp] theorem vset_masks (t : Team) (l : Nat) (r : VReg) (v : Word) : (vset t l r v).masks = t.masks := rfl
@[simp] theorem vset_em (t : Team) (l : Nat) (r : VReg) (v : Word) : (vset t l r v).em = t.em := rfl
@[simp] theorem vset_cc (t : Team) (l : Nat) (r : VReg) (v : Word) : (vset t l r v).cc = t.cc := rfl
@[simp] theorem vset_mode (t : Team) (l : Nat) (r : VReg) (v : Word) : (vset t l r v).mode = t.mode := rfl
@[simp] theorem vset_cmode (t : Team) (l : Nat) (r : VReg) (v : Word) : (vset t l r v).cmode = t.cmode := rfl
@[simp] theorem vset_useCmode (t : Team) (l : Nat) (r : VReg) (v : Word) : (vset t l r v).useCmode = t.useCmode := rfl
@[simp] theorem vset_rateo (t : Team) (l : Nat) (r : VReg) (v : Word) : (vset t l r v).rateo = t.rateo := rfl
@[simp] theorem vset_pix (t : Team) (l : Nat) (r : VReg) (v : Word) : (vset t l r v).pix = t.pix := rfl
@[simp] theorem vset_cntCpy (t : Team) (l : Nat) (r : VReg) (v : Word) : (vset t l r v).cntCpy = t.cntCpy := rfl
@[simp] theorem vset_cntMxa (t : Team) (l : Nat) (r : VReg) (v : Word) : (vset t l r v).cntMxa = t.cntMxa := rfl
@[simp] theorem vset_cntGth (t : Team) (l : Nat) (r : VReg) (v : Word) : (vset t l r v).cntGth = t.cntGth := rfl
@[simp] theorem vset_cntCol (t : Team) (l : Nat) (r : VReg) (v : Word) : (vset t l r v).cntCol = t.cntCol := rfl
@[simp] theorem vset_fcont (t : Team) (l : Nat) (r : VReg) (v : Word) : (vset t l r v).fcont = t.fcont := rfl
@[simp] theorem vset_fframe (t : Team) (l : Nat) (r : VReg) (v : Word) : (vset t l r v).fframe = t.fframe := rfl
@[simp] theorem vset_dstk (t : Team) (l : Nat) (r : VReg) (v : Word) : (vset t l r v).dstk = t.dstk := rfl
@[simp] theorem vset_lstk (t : Team) (l : Nat) (r : VReg) (v : Word) : (vset t l r v).lstk = t.lstk := rfl
@[simp] theorem vset_qnt (t : Team) (l : Nat) (r : VReg) (v : Word) : (vset t l r v).qnt = t.qnt := rfl
@[simp] theorem vset_sEmpty (t : Team) (l : Nat) (r : VReg) (v : Word) : (vset t l r v).sEmpty = t.sEmpty := rfl
@[simp] theorem vset_vEmpty (t : Team) (l : Nat) (r : VReg) (v : Word) : (vset t l r v).vEmpty = t.vEmpty := rfl
@[simp] theorem vset_sPoison (t : Team) (l : Nat) (r : VReg) (v : Word) : (vset t l r v).sPoison = t.sPoison := rfl
@[simp] theorem vset_vPoison (t : Team) (l : Nat) (r : VReg) (v : Word) : (vset t l r v).vPoison = t.vPoison := rfl
@[simp] theorem vset_inflight (t : Team) (l : Nat) (r : VReg) (v : Word) : (vset t l r v).inflight = t.inflight := rfl
@[simp] theorem vset_setAsides (t : Team) (l : Nat) (r : VReg) (v : Word) : (vset t l r v).setAsides = t.setAsides :=
  rfl
@[simp] theorem vset_bkpt (t : Team) (l : Nat) (r : VReg) (v : Word) : (vset t l r v).bkpt = t.bkpt := rfl
@[simp] theorem vset_stopNo (t : Team) (l : Nat) (r : VReg) (v : Word) : (vset t l r v).stopNo = t.stopNo := rfl
@[simp] theorem vset_softErr (t : Team) (l : Nat) (r : VReg) (v : Word) : (vset t l r v).softErr = t.softErr := rfl
@[simp] theorem vset_held (t : Team) (l : Nat) (r : VReg) (v : Word) : (vset t l r v).held = t.held := rfl
@[simp] theorem vset_displaced (t : Team) (l : Nat) (r : VReg) (v : Word) : (vset t l r v).displaced = t.displaced :=
  rfl
@[simp] theorem vset_mystep (t : Team) (l : Nat) (r : VReg) (v : Word) : (vset t l r v).mystep = t.mystep := rfl
@[simp] theorem vset_capBuf (t : Team) (l : Nat) (r : VReg) (v : Word) : (vset t l r v).capBuf = t.capBuf := rfl
@[simp] theorem vset_capCount (t : Team) (l : Nat) (r : VReg) (v : Word) : (vset t l r v).capCount = t.capCount := rfl
@[simp] theorem vset_pairShadow (t : Team) (l : Nat) (r : VReg) (v : Word) :
    (vset t l r v).pairShadow = t.pairShadow :=
  rfl
@[simp] theorem vset_inPair (t : Team) (l : Nat) (r : VReg) (v : Word) : (vset t l r v).inPair = t.inPair := rfl
@[simp] theorem vset_boosted (t : Team) (l : Nat) (r : VReg) (v : Word) : (vset t l r v).boosted = t.boosted := rfl
@[simp] theorem vset_readyTurns (t : Team) (l : Nat) (r : VReg) (v : Word) :
    (vset t l r v).readyTurns = t.readyTurns :=
  rfl
@[simp] theorem vset_yieldUntil (t : Team) (l : Nat) (r : VReg) (v : Word) :
    (vset t l r v).yieldUntil = t.yieldUntil :=
  rfl
@[simp] theorem vset_runSince (t : Team) (l : Nat) (r : VReg) (v : Word) : (vset t l r v).runSince = t.runSince := rfl
@[simp] theorem vset_mma8 (t : Team) (l : Nat) (r : VReg) (v : Word) : (vset t l r v).mma8 = t.mma8 := rfl
@[simp] theorem vset_mma16 (t : Team) (l : Nat) (r : VReg) (v : Word) : (vset t l r v).mma16 = t.mma16 := rfl
@[simp] theorem vset_cpyPath (t : Team) (l : Nat) (r : VReg) (v : Word) : (vset t l r v).cpyPath = t.cpyPath := rfl
@[simp] theorem vset_chosen (t : Team) (l : Nat) (r : VReg) (v : Word) : (vset t l r v).chosen = t.chosen := rfl
@[simp] theorem vset_obuf (t : Team) (l : Nat) (r : VReg) (v : Word) : (vset t l r v).obuf = t.obuf := rfl
@[simp] theorem vset_closed (t : Team) (l : Nat) (r : VReg) (v : Word) : (vset t l r v).closed = t.closed := rfl
@[simp] theorem vset_request (t : Team) (l : Nat) (r : VReg) (v : Word) : (vset t l r v).request = t.request := rfl
@[simp] theorem vset_reply (t : Team) (l : Nat) (r : VReg) (v : Word) : (vset t l r v).reply = t.reply := rfl
@[simp] theorem vset_asked (t : Team) (l : Nat) (r : VReg) (v : Word) : (vset t l r v).asked = t.asked := rfl
@[simp] theorem vset_op (t : Team) (l : Nat) (r : VReg) (v : Word) : (vset t l r v).op = t.op := rfl
@[simp] theorem vset_spent (t : Team) (l : Nat) (r : VReg) (v : Word) : (vset t l r v).spent = t.spent := rfl
@[simp] theorem vset_cancelling (t : Team) (l : Nat) (r : VReg) (v : Word) :
    (vset t l r v).cancelling = t.cancelling :=
  rfl
@[simp] theorem vset_granted (t : Team) (l : Nat) (r : VReg) (v : Word) : (vset t l r v).granted = t.granted := rfl
@[simp] theorem vset_arrival (t : Team) (l : Nat) (r : VReg) (v : Word) : (vset t l r v).arrival = t.arrival := rfl
@[simp] theorem vset_waitReported (t : Team) (l : Nat) (r : VReg) (v : Word) :
    (vset t l r v).waitReported = t.waitReported :=
  rfl

@[simp] theorem setCC_place (t : Team) (w v : Nat) : (setCC t w v).place = t.place := rfl
@[simp] theorem setCC_status (t : Team) (w v : Nat) : (setCC t w v).status = t.status := rfl
@[simp] theorem setCC_parks (t : Team) (w v : Nat) : (setCC t w v).parks = t.parks := rfl
@[simp] theorem setCC_part (t : Team) (w v : Nat) : (setCC t w v).part = t.part := rfl
@[simp] theorem setCC_asid (t : Team) (w v : Nat) : (setCC t w v).asid = t.asid := rfl
@[simp] theorem setCC_launch (t : Team) (w v : Nat) : (setCC t w v).launch = t.launch := rfl
@[simp] theorem setCC_blk (t : Team) (w v : Nat) : (setCC t w v).blk = t.blk := rfl
@[simp] theorem setCC_teamId (t : Team) (w v : Nat) : (setCC t w v).teamId = t.teamId := rfl
@[simp] theorem setCC_lanes (t : Team) (w v : Nat) : (setCC t w v).lanes = t.lanes := rfl
@[simp] theorem setCC_vregCount (t : Team) (w v : Nat) : (setCC t w v).vregCount = t.vregCount := rfl
@[simp] theorem setCC_prio (t : Team) (w v : Nat) : (setCC t w v).prio = t.prio := rfl
@[simp] theorem setCC_stklim (t : Team) (w v : Nat) : (setCC t w v).stklim = t.stklim := rfl
@[simp] theorem setCC_prvbase (t : Team) (w v : Nat) : (setCC t w v).prvbase = t.prvbase := rfl
@[simp] theorem setCC_ctl (t : Team) (w v : Nat) : (setCC t w v).ctl = t.ctl := rfl
@[simp] theorem setCC_pc (t : Team) (w v : Nat) : (setCC t w v).pc = t.pc := rfl
@[simp] theorem setCC_sregs (t : Team) (w v : Nat) : (setCC t w v).sregs = t.sregs := rfl
@[simp] theorem setCC_vregs (t : Team) (w v : Nat) : (setCC t w v).vregs = t.vregs := rfl
@[simp] theorem setCC_masks (t : Team) (w v : Nat) : (setCC t w v).masks = t.masks := rfl
@[simp] theorem setCC_em (t : Team) (w v : Nat) : (setCC t w v).em = t.em := rfl
@[simp] theorem setCC_mode (t : Team) (w v : Nat) : (setCC t w v).mode = t.mode := rfl
@[simp] theorem setCC_cmode (t : Team) (w v : Nat) : (setCC t w v).cmode = t.cmode := rfl
@[simp] theorem setCC_useCmode (t : Team) (w v : Nat) : (setCC t w v).useCmode = t.useCmode := rfl
@[simp] theorem setCC_rateo (t : Team) (w v : Nat) : (setCC t w v).rateo = t.rateo := rfl
@[simp] theorem setCC_pix (t : Team) (w v : Nat) : (setCC t w v).pix = t.pix := rfl
@[simp] theorem setCC_cntCpy (t : Team) (w v : Nat) : (setCC t w v).cntCpy = t.cntCpy := rfl
@[simp] theorem setCC_cntMxa (t : Team) (w v : Nat) : (setCC t w v).cntMxa = t.cntMxa := rfl
@[simp] theorem setCC_cntGth (t : Team) (w v : Nat) : (setCC t w v).cntGth = t.cntGth := rfl
@[simp] theorem setCC_cntCol (t : Team) (w v : Nat) : (setCC t w v).cntCol = t.cntCol := rfl
@[simp] theorem setCC_fcont (t : Team) (w v : Nat) : (setCC t w v).fcont = t.fcont := rfl
@[simp] theorem setCC_fframe (t : Team) (w v : Nat) : (setCC t w v).fframe = t.fframe := rfl
@[simp] theorem setCC_dstk (t : Team) (w v : Nat) : (setCC t w v).dstk = t.dstk := rfl
@[simp] theorem setCC_lstk (t : Team) (w v : Nat) : (setCC t w v).lstk = t.lstk := rfl
@[simp] theorem setCC_qnt (t : Team) (w v : Nat) : (setCC t w v).qnt = t.qnt := rfl
@[simp] theorem setCC_sEmpty (t : Team) (w v : Nat) : (setCC t w v).sEmpty = t.sEmpty := rfl
@[simp] theorem setCC_vEmpty (t : Team) (w v : Nat) : (setCC t w v).vEmpty = t.vEmpty := rfl
@[simp] theorem setCC_sPoison (t : Team) (w v : Nat) : (setCC t w v).sPoison = t.sPoison := rfl
@[simp] theorem setCC_vPoison (t : Team) (w v : Nat) : (setCC t w v).vPoison = t.vPoison := rfl
@[simp] theorem setCC_inflight (t : Team) (w v : Nat) : (setCC t w v).inflight = t.inflight := rfl
@[simp] theorem setCC_setAsides (t : Team) (w v : Nat) : (setCC t w v).setAsides = t.setAsides := rfl
@[simp] theorem setCC_bkpt (t : Team) (w v : Nat) : (setCC t w v).bkpt = t.bkpt := rfl
@[simp] theorem setCC_stopNo (t : Team) (w v : Nat) : (setCC t w v).stopNo = t.stopNo := rfl
@[simp] theorem setCC_softErr (t : Team) (w v : Nat) : (setCC t w v).softErr = t.softErr := rfl
@[simp] theorem setCC_held (t : Team) (w v : Nat) : (setCC t w v).held = t.held := rfl
@[simp] theorem setCC_displaced (t : Team) (w v : Nat) : (setCC t w v).displaced = t.displaced := rfl
@[simp] theorem setCC_mystep (t : Team) (w v : Nat) : (setCC t w v).mystep = t.mystep := rfl
@[simp] theorem setCC_capBuf (t : Team) (w v : Nat) : (setCC t w v).capBuf = t.capBuf := rfl
@[simp] theorem setCC_capCount (t : Team) (w v : Nat) : (setCC t w v).capCount = t.capCount := rfl
@[simp] theorem setCC_pairShadow (t : Team) (w v : Nat) : (setCC t w v).pairShadow = t.pairShadow := rfl
@[simp] theorem setCC_inPair (t : Team) (w v : Nat) : (setCC t w v).inPair = t.inPair := rfl
@[simp] theorem setCC_boosted (t : Team) (w v : Nat) : (setCC t w v).boosted = t.boosted := rfl
@[simp] theorem setCC_readyTurns (t : Team) (w v : Nat) : (setCC t w v).readyTurns = t.readyTurns := rfl
@[simp] theorem setCC_yieldUntil (t : Team) (w v : Nat) : (setCC t w v).yieldUntil = t.yieldUntil := rfl
@[simp] theorem setCC_runSince (t : Team) (w v : Nat) : (setCC t w v).runSince = t.runSince := rfl
@[simp] theorem setCC_mma8 (t : Team) (w v : Nat) : (setCC t w v).mma8 = t.mma8 := rfl
@[simp] theorem setCC_mma16 (t : Team) (w v : Nat) : (setCC t w v).mma16 = t.mma16 := rfl
@[simp] theorem setCC_cpyPath (t : Team) (w v : Nat) : (setCC t w v).cpyPath = t.cpyPath := rfl
@[simp] theorem setCC_chosen (t : Team) (w v : Nat) : (setCC t w v).chosen = t.chosen := rfl
@[simp] theorem setCC_obuf (t : Team) (w v : Nat) : (setCC t w v).obuf = t.obuf := rfl
@[simp] theorem setCC_closed (t : Team) (w v : Nat) : (setCC t w v).closed = t.closed := rfl
@[simp] theorem setCC_request (t : Team) (w v : Nat) : (setCC t w v).request = t.request := rfl
@[simp] theorem setCC_reply (t : Team) (w v : Nat) : (setCC t w v).reply = t.reply := rfl
@[simp] theorem setCC_asked (t : Team) (w v : Nat) : (setCC t w v).asked = t.asked := rfl
@[simp] theorem setCC_op (t : Team) (w v : Nat) : (setCC t w v).op = t.op := rfl
@[simp] theorem setCC_spent (t : Team) (w v : Nat) : (setCC t w v).spent = t.spent := rfl
@[simp] theorem setCC_cancelling (t : Team) (w v : Nat) : (setCC t w v).cancelling = t.cancelling := rfl
@[simp] theorem setCC_granted (t : Team) (w v : Nat) : (setCC t w v).granted = t.granted := rfl
@[simp] theorem setCC_arrival (t : Team) (w v : Nat) : (setCC t w v).arrival = t.arrival := rfl
@[simp] theorem setCC_waitReported (t : Team) (w v : Nat) : (setCC t w v).waitReported = t.waitReported := rfl

@[simp] theorem markEmpty_place (t : Team) (d : Dest) (b : Bool) : (markEmpty t d b).place = t.place := by
  cases d <;> simp only [markEmpty]; split <;> rfl
@[simp] theorem markEmpty_status (t : Team) (d : Dest) (b : Bool) : (markEmpty t d b).status = t.status := by
  cases d <;> simp only [markEmpty]; split <;> rfl
@[simp] theorem markEmpty_parks (t : Team) (d : Dest) (b : Bool) : (markEmpty t d b).parks = t.parks := by
  cases d <;> simp only [markEmpty]; split <;> rfl
@[simp] theorem markEmpty_part (t : Team) (d : Dest) (b : Bool) : (markEmpty t d b).part = t.part := by
  cases d <;> simp only [markEmpty]; split <;> rfl
@[simp] theorem markEmpty_asid (t : Team) (d : Dest) (b : Bool) : (markEmpty t d b).asid = t.asid := by
  cases d <;> simp only [markEmpty]; split <;> rfl
@[simp] theorem markEmpty_launch (t : Team) (d : Dest) (b : Bool) : (markEmpty t d b).launch = t.launch := by
  cases d <;> simp only [markEmpty]; split <;> rfl
@[simp] theorem markEmpty_blk (t : Team) (d : Dest) (b : Bool) : (markEmpty t d b).blk = t.blk := by
  cases d <;> simp only [markEmpty]; split <;> rfl
@[simp] theorem markEmpty_teamId (t : Team) (d : Dest) (b : Bool) : (markEmpty t d b).teamId = t.teamId := by
  cases d <;> simp only [markEmpty]; split <;> rfl
@[simp] theorem markEmpty_lanes (t : Team) (d : Dest) (b : Bool) : (markEmpty t d b).lanes = t.lanes := by
  cases d <;> simp only [markEmpty]; split <;> rfl
@[simp] theorem markEmpty_vregCount (t : Team) (d : Dest) (b : Bool) : (markEmpty t d b).vregCount = t.vregCount := by
  cases d <;> simp only [markEmpty]; split <;> rfl
@[simp] theorem markEmpty_prio (t : Team) (d : Dest) (b : Bool) : (markEmpty t d b).prio = t.prio := by
  cases d <;> simp only [markEmpty]; split <;> rfl
@[simp] theorem markEmpty_stklim (t : Team) (d : Dest) (b : Bool) : (markEmpty t d b).stklim = t.stklim := by
  cases d <;> simp only [markEmpty]; split <;> rfl
@[simp] theorem markEmpty_prvbase (t : Team) (d : Dest) (b : Bool) : (markEmpty t d b).prvbase = t.prvbase := by
  cases d <;> simp only [markEmpty]; split <;> rfl
@[simp] theorem markEmpty_ctl (t : Team) (d : Dest) (b : Bool) : (markEmpty t d b).ctl = t.ctl := by
  cases d <;> simp only [markEmpty]; split <;> rfl
@[simp] theorem markEmpty_pc (t : Team) (d : Dest) (b : Bool) : (markEmpty t d b).pc = t.pc := by
  cases d <;> simp only [markEmpty]; split <;> rfl
@[simp] theorem markEmpty_sregs (t : Team) (d : Dest) (b : Bool) : (markEmpty t d b).sregs = t.sregs := by
  cases d <;> simp only [markEmpty]; split <;> rfl
@[simp] theorem markEmpty_vregs (t : Team) (d : Dest) (b : Bool) : (markEmpty t d b).vregs = t.vregs := by
  cases d <;> simp only [markEmpty]; split <;> rfl
@[simp] theorem markEmpty_masks (t : Team) (d : Dest) (b : Bool) : (markEmpty t d b).masks = t.masks := by
  cases d <;> simp only [markEmpty]; split <;> rfl
@[simp] theorem markEmpty_em (t : Team) (d : Dest) (b : Bool) : (markEmpty t d b).em = t.em := by
  cases d <;> simp only [markEmpty]; split <;> rfl
@[simp] theorem markEmpty_cc (t : Team) (d : Dest) (b : Bool) : (markEmpty t d b).cc = t.cc := by
  cases d <;> simp only [markEmpty]; split <;> rfl
@[simp] theorem markEmpty_mode (t : Team) (d : Dest) (b : Bool) : (markEmpty t d b).mode = t.mode := by
  cases d <;> simp only [markEmpty]; split <;> rfl
@[simp] theorem markEmpty_cmode (t : Team) (d : Dest) (b : Bool) : (markEmpty t d b).cmode = t.cmode := by
  cases d <;> simp only [markEmpty]; split <;> rfl
@[simp] theorem markEmpty_useCmode (t : Team) (d : Dest) (b : Bool) : (markEmpty t d b).useCmode = t.useCmode := by
  cases d <;> simp only [markEmpty]; split <;> rfl
@[simp] theorem markEmpty_rateo (t : Team) (d : Dest) (b : Bool) : (markEmpty t d b).rateo = t.rateo := by
  cases d <;> simp only [markEmpty]; split <;> rfl
@[simp] theorem markEmpty_pix (t : Team) (d : Dest) (b : Bool) : (markEmpty t d b).pix = t.pix := by
  cases d <;> simp only [markEmpty]; split <;> rfl
@[simp] theorem markEmpty_cntCpy (t : Team) (d : Dest) (b : Bool) : (markEmpty t d b).cntCpy = t.cntCpy := by
  cases d <;> simp only [markEmpty]; split <;> rfl
@[simp] theorem markEmpty_cntMxa (t : Team) (d : Dest) (b : Bool) : (markEmpty t d b).cntMxa = t.cntMxa := by
  cases d <;> simp only [markEmpty]; split <;> rfl
@[simp] theorem markEmpty_cntGth (t : Team) (d : Dest) (b : Bool) : (markEmpty t d b).cntGth = t.cntGth := by
  cases d <;> simp only [markEmpty]; split <;> rfl
@[simp] theorem markEmpty_cntCol (t : Team) (d : Dest) (b : Bool) : (markEmpty t d b).cntCol = t.cntCol := by
  cases d <;> simp only [markEmpty]; split <;> rfl
@[simp] theorem markEmpty_fcont (t : Team) (d : Dest) (b : Bool) : (markEmpty t d b).fcont = t.fcont := by
  cases d <;> simp only [markEmpty]; split <;> rfl
@[simp] theorem markEmpty_fframe (t : Team) (d : Dest) (b : Bool) : (markEmpty t d b).fframe = t.fframe := by
  cases d <;> simp only [markEmpty]; split <;> rfl
@[simp] theorem markEmpty_dstk (t : Team) (d : Dest) (b : Bool) : (markEmpty t d b).dstk = t.dstk := by
  cases d <;> simp only [markEmpty]; split <;> rfl
@[simp] theorem markEmpty_lstk (t : Team) (d : Dest) (b : Bool) : (markEmpty t d b).lstk = t.lstk := by
  cases d <;> simp only [markEmpty]; split <;> rfl
@[simp] theorem markEmpty_qnt (t : Team) (d : Dest) (b : Bool) : (markEmpty t d b).qnt = t.qnt := by
  cases d <;> simp only [markEmpty]; split <;> rfl
@[simp] theorem markEmpty_sPoison (t : Team) (d : Dest) (b : Bool) : (markEmpty t d b).sPoison = t.sPoison := by
  cases d <;> simp only [markEmpty]; split <;> rfl
@[simp] theorem markEmpty_vPoison (t : Team) (d : Dest) (b : Bool) : (markEmpty t d b).vPoison = t.vPoison := by
  cases d <;> simp only [markEmpty]; split <;> rfl
@[simp] theorem markEmpty_inflight (t : Team) (d : Dest) (b : Bool) : (markEmpty t d b).inflight = t.inflight := by
  cases d <;> simp only [markEmpty]; split <;> rfl
@[simp] theorem markEmpty_setAsides (t : Team) (d : Dest) (b : Bool) : (markEmpty t d b).setAsides = t.setAsides := by
  cases d <;> simp only [markEmpty]; split <;> rfl
@[simp] theorem markEmpty_bkpt (t : Team) (d : Dest) (b : Bool) : (markEmpty t d b).bkpt = t.bkpt := by
  cases d <;> simp only [markEmpty]; split <;> rfl
@[simp] theorem markEmpty_stopNo (t : Team) (d : Dest) (b : Bool) : (markEmpty t d b).stopNo = t.stopNo := by
  cases d <;> simp only [markEmpty]; split <;> rfl
@[simp] theorem markEmpty_softErr (t : Team) (d : Dest) (b : Bool) : (markEmpty t d b).softErr = t.softErr := by
  cases d <;> simp only [markEmpty]; split <;> rfl
@[simp] theorem markEmpty_held (t : Team) (d : Dest) (b : Bool) : (markEmpty t d b).held = t.held := by
  cases d <;> simp only [markEmpty]; split <;> rfl
@[simp] theorem markEmpty_displaced (t : Team) (d : Dest) (b : Bool) : (markEmpty t d b).displaced = t.displaced := by
  cases d <;> simp only [markEmpty]; split <;> rfl
@[simp] theorem markEmpty_mystep (t : Team) (d : Dest) (b : Bool) : (markEmpty t d b).mystep = t.mystep := by
  cases d <;> simp only [markEmpty]; split <;> rfl
@[simp] theorem markEmpty_capBuf (t : Team) (d : Dest) (b : Bool) : (markEmpty t d b).capBuf = t.capBuf := by
  cases d <;> simp only [markEmpty]; split <;> rfl
@[simp] theorem markEmpty_capCount (t : Team) (d : Dest) (b : Bool) : (markEmpty t d b).capCount = t.capCount := by
  cases d <;> simp only [markEmpty]; split <;> rfl
@[simp] theorem markEmpty_pairShadow (t : Team) (d : Dest) (b : Bool) : (markEmpty t d b).pairShadow = t.pairShadow := by
  cases d <;> simp only [markEmpty]; split <;> rfl
@[simp] theorem markEmpty_inPair (t : Team) (d : Dest) (b : Bool) : (markEmpty t d b).inPair = t.inPair := by
  cases d <;> simp only [markEmpty]; split <;> rfl
@[simp] theorem markEmpty_boosted (t : Team) (d : Dest) (b : Bool) : (markEmpty t d b).boosted = t.boosted := by
  cases d <;> simp only [markEmpty]; split <;> rfl
@[simp] theorem markEmpty_readyTurns (t : Team) (d : Dest) (b : Bool) : (markEmpty t d b).readyTurns = t.readyTurns := by
  cases d <;> simp only [markEmpty]; split <;> rfl
@[simp] theorem markEmpty_yieldUntil (t : Team) (d : Dest) (b : Bool) : (markEmpty t d b).yieldUntil = t.yieldUntil := by
  cases d <;> simp only [markEmpty]; split <;> rfl
@[simp] theorem markEmpty_runSince (t : Team) (d : Dest) (b : Bool) : (markEmpty t d b).runSince = t.runSince := by
  cases d <;> simp only [markEmpty]; split <;> rfl
@[simp] theorem markEmpty_mma8 (t : Team) (d : Dest) (b : Bool) : (markEmpty t d b).mma8 = t.mma8 := by
  cases d <;> simp only [markEmpty]; split <;> rfl
@[simp] theorem markEmpty_mma16 (t : Team) (d : Dest) (b : Bool) : (markEmpty t d b).mma16 = t.mma16 := by
  cases d <;> simp only [markEmpty]; split <;> rfl
@[simp] theorem markEmpty_cpyPath (t : Team) (d : Dest) (b : Bool) : (markEmpty t d b).cpyPath = t.cpyPath := by
  cases d <;> simp only [markEmpty]; split <;> rfl
@[simp] theorem markEmpty_chosen (t : Team) (d : Dest) (b : Bool) : (markEmpty t d b).chosen = t.chosen := by
  cases d <;> simp only [markEmpty]; split <;> rfl
@[simp] theorem markEmpty_obuf (t : Team) (d : Dest) (b : Bool) : (markEmpty t d b).obuf = t.obuf := by
  cases d <;> simp only [markEmpty]; split <;> rfl
@[simp] theorem markEmpty_closed (t : Team) (d : Dest) (b : Bool) : (markEmpty t d b).closed = t.closed := by
  cases d <;> simp only [markEmpty]; split <;> rfl
@[simp] theorem markEmpty_request (t : Team) (d : Dest) (b : Bool) : (markEmpty t d b).request = t.request := by
  cases d <;> simp only [markEmpty]; split <;> rfl
@[simp] theorem markEmpty_reply (t : Team) (d : Dest) (b : Bool) : (markEmpty t d b).reply = t.reply := by
  cases d <;> simp only [markEmpty]; split <;> rfl
@[simp] theorem markEmpty_asked (t : Team) (d : Dest) (b : Bool) : (markEmpty t d b).asked = t.asked := by
  cases d <;> simp only [markEmpty]; split <;> rfl
@[simp] theorem markEmpty_op (t : Team) (d : Dest) (b : Bool) : (markEmpty t d b).op = t.op := by
  cases d <;> simp only [markEmpty]; split <;> rfl
@[simp] theorem markEmpty_spent (t : Team) (d : Dest) (b : Bool) : (markEmpty t d b).spent = t.spent := by
  cases d <;> simp only [markEmpty]; split <;> rfl
@[simp] theorem markEmpty_cancelling (t : Team) (d : Dest) (b : Bool) : (markEmpty t d b).cancelling = t.cancelling := by
  cases d <;> simp only [markEmpty]; split <;> rfl
@[simp] theorem markEmpty_granted (t : Team) (d : Dest) (b : Bool) : (markEmpty t d b).granted = t.granted := by
  cases d <;> simp only [markEmpty]; split <;> rfl
@[simp] theorem markEmpty_arrival (t : Team) (d : Dest) (b : Bool) : (markEmpty t d b).arrival = t.arrival := by
  cases d <;> simp only [markEmpty]; split <;> rfl
@[simp] theorem markEmpty_waitReported (t : Team) (d : Dest) (b : Bool) :
    (markEmpty t d b).waitReported = t.waitReported :=
  by cases d <;> simp only [markEmpty]; split <;> rfl

@[simp] theorem markPoison_place (t : Team) (d : Dest) (b : Bool) : (markPoison t d b).place = t.place := by
  cases d <;> simp only [markPoison]; split <;> rfl
@[simp] theorem markPoison_status (t : Team) (d : Dest) (b : Bool) : (markPoison t d b).status = t.status := by
  cases d <;> simp only [markPoison]; split <;> rfl
@[simp] theorem markPoison_parks (t : Team) (d : Dest) (b : Bool) : (markPoison t d b).parks = t.parks := by
  cases d <;> simp only [markPoison]; split <;> rfl
@[simp] theorem markPoison_part (t : Team) (d : Dest) (b : Bool) : (markPoison t d b).part = t.part := by
  cases d <;> simp only [markPoison]; split <;> rfl
@[simp] theorem markPoison_asid (t : Team) (d : Dest) (b : Bool) : (markPoison t d b).asid = t.asid := by
  cases d <;> simp only [markPoison]; split <;> rfl
@[simp] theorem markPoison_launch (t : Team) (d : Dest) (b : Bool) : (markPoison t d b).launch = t.launch := by
  cases d <;> simp only [markPoison]; split <;> rfl
@[simp] theorem markPoison_blk (t : Team) (d : Dest) (b : Bool) : (markPoison t d b).blk = t.blk := by
  cases d <;> simp only [markPoison]; split <;> rfl
@[simp] theorem markPoison_teamId (t : Team) (d : Dest) (b : Bool) : (markPoison t d b).teamId = t.teamId := by
  cases d <;> simp only [markPoison]; split <;> rfl
@[simp] theorem markPoison_lanes (t : Team) (d : Dest) (b : Bool) : (markPoison t d b).lanes = t.lanes := by
  cases d <;> simp only [markPoison]; split <;> rfl
@[simp] theorem markPoison_vregCount (t : Team) (d : Dest) (b : Bool) : (markPoison t d b).vregCount = t.vregCount := by
  cases d <;> simp only [markPoison]; split <;> rfl
@[simp] theorem markPoison_prio (t : Team) (d : Dest) (b : Bool) : (markPoison t d b).prio = t.prio := by
  cases d <;> simp only [markPoison]; split <;> rfl
@[simp] theorem markPoison_stklim (t : Team) (d : Dest) (b : Bool) : (markPoison t d b).stklim = t.stklim := by
  cases d <;> simp only [markPoison]; split <;> rfl
@[simp] theorem markPoison_prvbase (t : Team) (d : Dest) (b : Bool) : (markPoison t d b).prvbase = t.prvbase := by
  cases d <;> simp only [markPoison]; split <;> rfl
@[simp] theorem markPoison_ctl (t : Team) (d : Dest) (b : Bool) : (markPoison t d b).ctl = t.ctl := by
  cases d <;> simp only [markPoison]; split <;> rfl
@[simp] theorem markPoison_pc (t : Team) (d : Dest) (b : Bool) : (markPoison t d b).pc = t.pc := by
  cases d <;> simp only [markPoison]; split <;> rfl
@[simp] theorem markPoison_sregs (t : Team) (d : Dest) (b : Bool) : (markPoison t d b).sregs = t.sregs := by
  cases d <;> simp only [markPoison]; split <;> rfl
@[simp] theorem markPoison_vregs (t : Team) (d : Dest) (b : Bool) : (markPoison t d b).vregs = t.vregs := by
  cases d <;> simp only [markPoison]; split <;> rfl
@[simp] theorem markPoison_masks (t : Team) (d : Dest) (b : Bool) : (markPoison t d b).masks = t.masks := by
  cases d <;> simp only [markPoison]; split <;> rfl
@[simp] theorem markPoison_em (t : Team) (d : Dest) (b : Bool) : (markPoison t d b).em = t.em := by
  cases d <;> simp only [markPoison]; split <;> rfl
@[simp] theorem markPoison_cc (t : Team) (d : Dest) (b : Bool) : (markPoison t d b).cc = t.cc := by
  cases d <;> simp only [markPoison]; split <;> rfl
@[simp] theorem markPoison_mode (t : Team) (d : Dest) (b : Bool) : (markPoison t d b).mode = t.mode := by
  cases d <;> simp only [markPoison]; split <;> rfl
@[simp] theorem markPoison_cmode (t : Team) (d : Dest) (b : Bool) : (markPoison t d b).cmode = t.cmode := by
  cases d <;> simp only [markPoison]; split <;> rfl
@[simp] theorem markPoison_useCmode (t : Team) (d : Dest) (b : Bool) : (markPoison t d b).useCmode = t.useCmode := by
  cases d <;> simp only [markPoison]; split <;> rfl
@[simp] theorem markPoison_rateo (t : Team) (d : Dest) (b : Bool) : (markPoison t d b).rateo = t.rateo := by
  cases d <;> simp only [markPoison]; split <;> rfl
@[simp] theorem markPoison_pix (t : Team) (d : Dest) (b : Bool) : (markPoison t d b).pix = t.pix := by
  cases d <;> simp only [markPoison]; split <;> rfl
@[simp] theorem markPoison_cntCpy (t : Team) (d : Dest) (b : Bool) : (markPoison t d b).cntCpy = t.cntCpy := by
  cases d <;> simp only [markPoison]; split <;> rfl
@[simp] theorem markPoison_cntMxa (t : Team) (d : Dest) (b : Bool) : (markPoison t d b).cntMxa = t.cntMxa := by
  cases d <;> simp only [markPoison]; split <;> rfl
@[simp] theorem markPoison_cntGth (t : Team) (d : Dest) (b : Bool) : (markPoison t d b).cntGth = t.cntGth := by
  cases d <;> simp only [markPoison]; split <;> rfl
@[simp] theorem markPoison_cntCol (t : Team) (d : Dest) (b : Bool) : (markPoison t d b).cntCol = t.cntCol := by
  cases d <;> simp only [markPoison]; split <;> rfl
@[simp] theorem markPoison_fcont (t : Team) (d : Dest) (b : Bool) : (markPoison t d b).fcont = t.fcont := by
  cases d <;> simp only [markPoison]; split <;> rfl
@[simp] theorem markPoison_fframe (t : Team) (d : Dest) (b : Bool) : (markPoison t d b).fframe = t.fframe := by
  cases d <;> simp only [markPoison]; split <;> rfl
@[simp] theorem markPoison_dstk (t : Team) (d : Dest) (b : Bool) : (markPoison t d b).dstk = t.dstk := by
  cases d <;> simp only [markPoison]; split <;> rfl
@[simp] theorem markPoison_lstk (t : Team) (d : Dest) (b : Bool) : (markPoison t d b).lstk = t.lstk := by
  cases d <;> simp only [markPoison]; split <;> rfl
@[simp] theorem markPoison_qnt (t : Team) (d : Dest) (b : Bool) : (markPoison t d b).qnt = t.qnt := by
  cases d <;> simp only [markPoison]; split <;> rfl
@[simp] theorem markPoison_sEmpty (t : Team) (d : Dest) (b : Bool) : (markPoison t d b).sEmpty = t.sEmpty := by
  cases d <;> simp only [markPoison]; split <;> rfl
@[simp] theorem markPoison_vEmpty (t : Team) (d : Dest) (b : Bool) : (markPoison t d b).vEmpty = t.vEmpty := by
  cases d <;> simp only [markPoison]; split <;> rfl
@[simp] theorem markPoison_inflight (t : Team) (d : Dest) (b : Bool) : (markPoison t d b).inflight = t.inflight := by
  cases d <;> simp only [markPoison]; split <;> rfl
@[simp] theorem markPoison_setAsides (t : Team) (d : Dest) (b : Bool) : (markPoison t d b).setAsides = t.setAsides := by
  cases d <;> simp only [markPoison]; split <;> rfl
@[simp] theorem markPoison_bkpt (t : Team) (d : Dest) (b : Bool) : (markPoison t d b).bkpt = t.bkpt := by
  cases d <;> simp only [markPoison]; split <;> rfl
@[simp] theorem markPoison_stopNo (t : Team) (d : Dest) (b : Bool) : (markPoison t d b).stopNo = t.stopNo := by
  cases d <;> simp only [markPoison]; split <;> rfl
@[simp] theorem markPoison_softErr (t : Team) (d : Dest) (b : Bool) : (markPoison t d b).softErr = t.softErr := by
  cases d <;> simp only [markPoison]; split <;> rfl
@[simp] theorem markPoison_held (t : Team) (d : Dest) (b : Bool) : (markPoison t d b).held = t.held := by
  cases d <;> simp only [markPoison]; split <;> rfl
@[simp] theorem markPoison_displaced (t : Team) (d : Dest) (b : Bool) : (markPoison t d b).displaced = t.displaced := by
  cases d <;> simp only [markPoison]; split <;> rfl
@[simp] theorem markPoison_mystep (t : Team) (d : Dest) (b : Bool) : (markPoison t d b).mystep = t.mystep := by
  cases d <;> simp only [markPoison]; split <;> rfl
@[simp] theorem markPoison_capBuf (t : Team) (d : Dest) (b : Bool) : (markPoison t d b).capBuf = t.capBuf := by
  cases d <;> simp only [markPoison]; split <;> rfl
@[simp] theorem markPoison_capCount (t : Team) (d : Dest) (b : Bool) : (markPoison t d b).capCount = t.capCount := by
  cases d <;> simp only [markPoison]; split <;> rfl
@[simp] theorem markPoison_pairShadow (t : Team) (d : Dest) (b : Bool) :
    (markPoison t d b).pairShadow = t.pairShadow :=
  by cases d <;> simp only [markPoison]; split <;> rfl
@[simp] theorem markPoison_inPair (t : Team) (d : Dest) (b : Bool) : (markPoison t d b).inPair = t.inPair := by
  cases d <;> simp only [markPoison]; split <;> rfl
@[simp] theorem markPoison_boosted (t : Team) (d : Dest) (b : Bool) : (markPoison t d b).boosted = t.boosted := by
  cases d <;> simp only [markPoison]; split <;> rfl
@[simp] theorem markPoison_readyTurns (t : Team) (d : Dest) (b : Bool) :
    (markPoison t d b).readyTurns = t.readyTurns :=
  by cases d <;> simp only [markPoison]; split <;> rfl
@[simp] theorem markPoison_yieldUntil (t : Team) (d : Dest) (b : Bool) :
    (markPoison t d b).yieldUntil = t.yieldUntil :=
  by cases d <;> simp only [markPoison]; split <;> rfl
@[simp] theorem markPoison_runSince (t : Team) (d : Dest) (b : Bool) : (markPoison t d b).runSince = t.runSince := by
  cases d <;> simp only [markPoison]; split <;> rfl
@[simp] theorem markPoison_mma8 (t : Team) (d : Dest) (b : Bool) : (markPoison t d b).mma8 = t.mma8 := by
  cases d <;> simp only [markPoison]; split <;> rfl
@[simp] theorem markPoison_mma16 (t : Team) (d : Dest) (b : Bool) : (markPoison t d b).mma16 = t.mma16 := by
  cases d <;> simp only [markPoison]; split <;> rfl
@[simp] theorem markPoison_cpyPath (t : Team) (d : Dest) (b : Bool) : (markPoison t d b).cpyPath = t.cpyPath := by
  cases d <;> simp only [markPoison]; split <;> rfl
@[simp] theorem markPoison_chosen (t : Team) (d : Dest) (b : Bool) : (markPoison t d b).chosen = t.chosen := by
  cases d <;> simp only [markPoison]; split <;> rfl
@[simp] theorem markPoison_obuf (t : Team) (d : Dest) (b : Bool) : (markPoison t d b).obuf = t.obuf := by
  cases d <;> simp only [markPoison]; split <;> rfl
@[simp] theorem markPoison_closed (t : Team) (d : Dest) (b : Bool) : (markPoison t d b).closed = t.closed := by
  cases d <;> simp only [markPoison]; split <;> rfl
@[simp] theorem markPoison_request (t : Team) (d : Dest) (b : Bool) : (markPoison t d b).request = t.request := by
  cases d <;> simp only [markPoison]; split <;> rfl
@[simp] theorem markPoison_reply (t : Team) (d : Dest) (b : Bool) : (markPoison t d b).reply = t.reply := by
  cases d <;> simp only [markPoison]; split <;> rfl
@[simp] theorem markPoison_asked (t : Team) (d : Dest) (b : Bool) : (markPoison t d b).asked = t.asked := by
  cases d <;> simp only [markPoison]; split <;> rfl
@[simp] theorem markPoison_op (t : Team) (d : Dest) (b : Bool) : (markPoison t d b).op = t.op := by
  cases d <;> simp only [markPoison]; split <;> rfl
@[simp] theorem markPoison_spent (t : Team) (d : Dest) (b : Bool) : (markPoison t d b).spent = t.spent := by
  cases d <;> simp only [markPoison]; split <;> rfl
@[simp] theorem markPoison_cancelling (t : Team) (d : Dest) (b : Bool) :
    (markPoison t d b).cancelling = t.cancelling :=
  by cases d <;> simp only [markPoison]; split <;> rfl
@[simp] theorem markPoison_granted (t : Team) (d : Dest) (b : Bool) : (markPoison t d b).granted = t.granted := by
  cases d <;> simp only [markPoison]; split <;> rfl
@[simp] theorem markPoison_arrival (t : Team) (d : Dest) (b : Bool) : (markPoison t d b).arrival = t.arrival := by
  cases d <;> simp only [markPoison]; split <;> rfl
@[simp] theorem markPoison_waitReported (t : Team) (d : Dest) (b : Bool) :
    (markPoison t d b).waitReported = t.waitReported :=
  by cases d <;> simp only [markPoison]; split <;> rfl

@[simp] theorem setCnt_place (t : Team) (c : EClass) (v : Nat) : (setCnt t c v).place = t.place := by cases c <;> rfl
@[simp] theorem setCnt_status (t : Team) (c : EClass) (v : Nat) : (setCnt t c v).status = t.status := by
  cases c <;> rfl
@[simp] theorem setCnt_parks (t : Team) (c : EClass) (v : Nat) : (setCnt t c v).parks = t.parks := by cases c <;> rfl
@[simp] theorem setCnt_part (t : Team) (c : EClass) (v : Nat) : (setCnt t c v).part = t.part := by cases c <;> rfl
@[simp] theorem setCnt_asid (t : Team) (c : EClass) (v : Nat) : (setCnt t c v).asid = t.asid := by cases c <;> rfl
@[simp] theorem setCnt_launch (t : Team) (c : EClass) (v : Nat) : (setCnt t c v).launch = t.launch := by
  cases c <;> rfl
@[simp] theorem setCnt_blk (t : Team) (c : EClass) (v : Nat) : (setCnt t c v).blk = t.blk := by cases c <;> rfl
@[simp] theorem setCnt_teamId (t : Team) (c : EClass) (v : Nat) : (setCnt t c v).teamId = t.teamId := by
  cases c <;> rfl
@[simp] theorem setCnt_lanes (t : Team) (c : EClass) (v : Nat) : (setCnt t c v).lanes = t.lanes := by cases c <;> rfl
@[simp] theorem setCnt_vregCount (t : Team) (c : EClass) (v : Nat) : (setCnt t c v).vregCount = t.vregCount := by
  cases c <;> rfl
@[simp] theorem setCnt_prio (t : Team) (c : EClass) (v : Nat) : (setCnt t c v).prio = t.prio := by cases c <;> rfl
@[simp] theorem setCnt_stklim (t : Team) (c : EClass) (v : Nat) : (setCnt t c v).stklim = t.stklim := by
  cases c <;> rfl
@[simp] theorem setCnt_prvbase (t : Team) (c : EClass) (v : Nat) : (setCnt t c v).prvbase = t.prvbase := by
  cases c <;> rfl
@[simp] theorem setCnt_ctl (t : Team) (c : EClass) (v : Nat) : (setCnt t c v).ctl = t.ctl := by cases c <;> rfl
@[simp] theorem setCnt_pc (t : Team) (c : EClass) (v : Nat) : (setCnt t c v).pc = t.pc := by cases c <;> rfl
@[simp] theorem setCnt_sregs (t : Team) (c : EClass) (v : Nat) : (setCnt t c v).sregs = t.sregs := by cases c <;> rfl
@[simp] theorem setCnt_vregs (t : Team) (c : EClass) (v : Nat) : (setCnt t c v).vregs = t.vregs := by cases c <;> rfl
@[simp] theorem setCnt_masks (t : Team) (c : EClass) (v : Nat) : (setCnt t c v).masks = t.masks := by cases c <;> rfl
@[simp] theorem setCnt_em (t : Team) (c : EClass) (v : Nat) : (setCnt t c v).em = t.em := by cases c <;> rfl
@[simp] theorem setCnt_cc (t : Team) (c : EClass) (v : Nat) : (setCnt t c v).cc = t.cc := by cases c <;> rfl
@[simp] theorem setCnt_mode (t : Team) (c : EClass) (v : Nat) : (setCnt t c v).mode = t.mode := by cases c <;> rfl
@[simp] theorem setCnt_cmode (t : Team) (c : EClass) (v : Nat) : (setCnt t c v).cmode = t.cmode := by cases c <;> rfl
@[simp] theorem setCnt_useCmode (t : Team) (c : EClass) (v : Nat) : (setCnt t c v).useCmode = t.useCmode := by
  cases c <;> rfl
@[simp] theorem setCnt_rateo (t : Team) (c : EClass) (v : Nat) : (setCnt t c v).rateo = t.rateo := by cases c <;> rfl
@[simp] theorem setCnt_pix (t : Team) (c : EClass) (v : Nat) : (setCnt t c v).pix = t.pix := by cases c <;> rfl
@[simp] theorem setCnt_fcont (t : Team) (c : EClass) (v : Nat) : (setCnt t c v).fcont = t.fcont := by cases c <;> rfl
@[simp] theorem setCnt_fframe (t : Team) (c : EClass) (v : Nat) : (setCnt t c v).fframe = t.fframe := by
  cases c <;> rfl
@[simp] theorem setCnt_dstk (t : Team) (c : EClass) (v : Nat) : (setCnt t c v).dstk = t.dstk := by cases c <;> rfl
@[simp] theorem setCnt_lstk (t : Team) (c : EClass) (v : Nat) : (setCnt t c v).lstk = t.lstk := by cases c <;> rfl
@[simp] theorem setCnt_qnt (t : Team) (c : EClass) (v : Nat) : (setCnt t c v).qnt = t.qnt := by cases c <;> rfl
@[simp] theorem setCnt_sEmpty (t : Team) (c : EClass) (v : Nat) : (setCnt t c v).sEmpty = t.sEmpty := by
  cases c <;> rfl
@[simp] theorem setCnt_vEmpty (t : Team) (c : EClass) (v : Nat) : (setCnt t c v).vEmpty = t.vEmpty := by
  cases c <;> rfl
@[simp] theorem setCnt_sPoison (t : Team) (c : EClass) (v : Nat) : (setCnt t c v).sPoison = t.sPoison := by
  cases c <;> rfl
@[simp] theorem setCnt_vPoison (t : Team) (c : EClass) (v : Nat) : (setCnt t c v).vPoison = t.vPoison := by
  cases c <;> rfl
@[simp] theorem setCnt_inflight (t : Team) (c : EClass) (v : Nat) : (setCnt t c v).inflight = t.inflight := by
  cases c <;> rfl
@[simp] theorem setCnt_setAsides (t : Team) (c : EClass) (v : Nat) : (setCnt t c v).setAsides = t.setAsides := by
  cases c <;> rfl
@[simp] theorem setCnt_bkpt (t : Team) (c : EClass) (v : Nat) : (setCnt t c v).bkpt = t.bkpt := by cases c <;> rfl
@[simp] theorem setCnt_stopNo (t : Team) (c : EClass) (v : Nat) : (setCnt t c v).stopNo = t.stopNo := by
  cases c <;> rfl
@[simp] theorem setCnt_softErr (t : Team) (c : EClass) (v : Nat) : (setCnt t c v).softErr = t.softErr := by
  cases c <;> rfl
@[simp] theorem setCnt_held (t : Team) (c : EClass) (v : Nat) : (setCnt t c v).held = t.held := by cases c <;> rfl
@[simp] theorem setCnt_displaced (t : Team) (c : EClass) (v : Nat) : (setCnt t c v).displaced = t.displaced := by
  cases c <;> rfl
@[simp] theorem setCnt_mystep (t : Team) (c : EClass) (v : Nat) : (setCnt t c v).mystep = t.mystep := by
  cases c <;> rfl
@[simp] theorem setCnt_capBuf (t : Team) (c : EClass) (v : Nat) : (setCnt t c v).capBuf = t.capBuf := by
  cases c <;> rfl
@[simp] theorem setCnt_capCount (t : Team) (c : EClass) (v : Nat) : (setCnt t c v).capCount = t.capCount := by
  cases c <;> rfl
@[simp] theorem setCnt_pairShadow (t : Team) (c : EClass) (v : Nat) : (setCnt t c v).pairShadow = t.pairShadow := by
  cases c <;> rfl
@[simp] theorem setCnt_inPair (t : Team) (c : EClass) (v : Nat) : (setCnt t c v).inPair = t.inPair := by
  cases c <;> rfl
@[simp] theorem setCnt_boosted (t : Team) (c : EClass) (v : Nat) : (setCnt t c v).boosted = t.boosted := by
  cases c <;> rfl
@[simp] theorem setCnt_readyTurns (t : Team) (c : EClass) (v : Nat) : (setCnt t c v).readyTurns = t.readyTurns := by
  cases c <;> rfl
@[simp] theorem setCnt_yieldUntil (t : Team) (c : EClass) (v : Nat) : (setCnt t c v).yieldUntil = t.yieldUntil := by
  cases c <;> rfl
@[simp] theorem setCnt_runSince (t : Team) (c : EClass) (v : Nat) : (setCnt t c v).runSince = t.runSince := by
  cases c <;> rfl
@[simp] theorem setCnt_mma8 (t : Team) (c : EClass) (v : Nat) : (setCnt t c v).mma8 = t.mma8 := by cases c <;> rfl
@[simp] theorem setCnt_mma16 (t : Team) (c : EClass) (v : Nat) : (setCnt t c v).mma16 = t.mma16 := by cases c <;> rfl
@[simp] theorem setCnt_cpyPath (t : Team) (c : EClass) (v : Nat) : (setCnt t c v).cpyPath = t.cpyPath := by
  cases c <;> rfl
@[simp] theorem setCnt_chosen (t : Team) (c : EClass) (v : Nat) : (setCnt t c v).chosen = t.chosen := by
  cases c <;> rfl
@[simp] theorem setCnt_obuf (t : Team) (c : EClass) (v : Nat) : (setCnt t c v).obuf = t.obuf := by cases c <;> rfl
@[simp] theorem setCnt_closed (t : Team) (c : EClass) (v : Nat) : (setCnt t c v).closed = t.closed := by
  cases c <;> rfl
@[simp] theorem setCnt_request (t : Team) (c : EClass) (v : Nat) : (setCnt t c v).request = t.request := by
  cases c <;> rfl
@[simp] theorem setCnt_reply (t : Team) (c : EClass) (v : Nat) : (setCnt t c v).reply = t.reply := by cases c <;> rfl
@[simp] theorem setCnt_asked (t : Team) (c : EClass) (v : Nat) : (setCnt t c v).asked = t.asked := by cases c <;> rfl
@[simp] theorem setCnt_op (t : Team) (c : EClass) (v : Nat) : (setCnt t c v).op = t.op := by cases c <;> rfl
@[simp] theorem setCnt_spent (t : Team) (c : EClass) (v : Nat) : (setCnt t c v).spent = t.spent := by cases c <;> rfl
@[simp] theorem setCnt_cancelling (t : Team) (c : EClass) (v : Nat) : (setCnt t c v).cancelling = t.cancelling := by
  cases c <;> rfl
@[simp] theorem setCnt_granted (t : Team) (c : EClass) (v : Nat) : (setCnt t c v).granted = t.granted := by
  cases c <;> rfl
@[simp] theorem setCnt_arrival (t : Team) (c : EClass) (v : Nat) : (setCnt t c v).arrival = t.arrival := by
  cases c <;> rfl
@[simp] theorem setCnt_waitReported (t : Team) (c : EClass) (v : Nat) :
    (setCnt t c v).waitReported = t.waitReported :=
  by cases c <;> rfl

end Sys2Proof.Machine
end

