-- ==== Sys2Proof/Laws/Registers.lean ====
section
/-! SUPPORT. The laws of the register files: a register reads back what was written, and every other register is as it was. -/

namespace Sys2Proof.Machine

set_option Elab.async false

theorem sset_of_ne (t : Team) {d : SReg} (h : d ≠ 0) (v : Word) :
    sset t d v = { t with sregs := mapSet 0 t.sregs d.toNat v } := if_neg h

theorem kset_of_ne (t : Team) {d : KReg} (h : d ≠ 0) (m : Mask) :
    kset t d m = { t with masks := mapSet 0 t.masks d.toNat (m &&& laneMask t.lanes) } := if_neg h

theorem sget_of_ne (t : Team) {r : SReg} (h : r ≠ 0) : sget t r = mapGet 0 t.sregs r.toNat := if_neg h

theorem kget_of_ne (t : Team) {k : KReg} (h : k ≠ 0) : kget t k = mapGet 0 t.masks k.toNat := if_neg h

theorem sget_sset (t : Team) (d r : SReg) (v : Word) :
    sget (sset t d v) r = if r = d ∧ d ≠ 0 then v else sget t r := by
  by_cases hd : d = 0
  · rw [if_neg (fun h => h.2 hd)]; unfold sset; rw [if_pos hd]
  · by_cases hr : r = 0
    · rw [if_neg (fun h : r = d ∧ d ≠ 0 => hd (h.1.symm.trans hr)), hr]; rfl
    · rw [sget_of_ne _ hr, sget_of_ne _ hr, sset_of_ne _ hd]
      show mapGet 0 (mapSet 0 t.sregs d.toNat v) r.toNat = _
      rw [mapGet_mapSet]
      by_cases h : r = d
      · subst h; rw [if_pos rfl, if_pos ⟨rfl, hd⟩]
      · rw [if_neg (fun he => h (BitVec.eq_of_toNat_eq he)), if_neg (fun he => h he.1)]

@[simp] theorem sget_zero (t : Team) : sget t 0 = 0 := rfl

theorem sget_congr {t u : Team} (h : t.sregs = u.sregs) (r : SReg) : sget t r = sget u r := by
  simp [sget, h]

theorem vget_vset (t : Team) (l m : Nat) (r q : VReg) (v : Word) :
    vget (vset t l r v) m q = if m = l ∧ q = r then v else vget t m q := by
  have hk : vkey m q = vkey l r ↔ m = l ∧ q = r := by
    unfold vkey
    have h1 := q.isLt
    have h2 := r.isLt
    constructor
    · intro h
      have : m = l := by omega
      exact ⟨this, BitVec.eq_of_toNat_eq (by omega)⟩
    · rintro ⟨rfl, rfl⟩; rfl
  simp only [vget, vset, mapGet_mapSet, hk]

theorem vget_vsetLanes (t : Team) (r q : VReg) (ls : List Nat) (f : Nat → Word) (m : Nat) :
    vget (vsetLanes t r ls f) m q = if m ∈ ls ∧ q = r then f m else vget t m q := by
  unfold vsetLanes
  induction ls generalizing t with
  | nil => simp
  | cons l ls ih =>
    simp only [List.foldl_cons, ih, vget_vset, List.mem_cons]
    by_cases h1 : m ∈ ls <;> by_cases h2 : q = r <;> by_cases h3 : m = l <;> simp_all

theorem kget_kset (t : Team) (d k : KReg) (m : Mask) :
    kget (kset t d m) k = if k = d ∧ d ≠ 0 then m &&& laneMask t.lanes else kget t k := by
  by_cases hd : d = 0
  · rw [if_neg (fun h => h.2 hd)]; unfold kset; rw [if_pos hd]
  · by_cases hk : k = 0
    · rw [if_neg (fun h : k = d ∧ d ≠ 0 => hd (h.1.symm.trans hk)), hk, kset_of_ne _ hd]; rfl
    · rw [kget_of_ne _ hk, kget_of_ne _ hk, kset_of_ne _ hd]
      show mapGet 0 (mapSet 0 t.masks d.toNat (m &&& laneMask t.lanes)) k.toNat = _
      rw [mapGet_mapSet]
      by_cases h : k = d
      · subst h; rw [if_pos rfl, if_pos ⟨rfl, hd⟩]
      · rw [if_neg (fun he => h (BitVec.eq_of_toNat_eq he)), if_neg (fun he => h he.1)]

end Sys2Proof.Machine
end

