-- ==== Sys2Proof/Tests/Witnesses.lean ====
section
/-! SUPPORT. Witnesses: for the hypotheses of every statement, concrete states and operands that meet them together. The
states are small: one team on core 0.0 with its code page, its block's scratchpad, and what a statement asks for. -/

namespace Sys2Proof.Tests

set_option Elab.async false

open Sys2Proof Sys2Proof.Machine

/-! ### How a witness is shown -/

/-- The checks at issue pass, and every register that the instruction waits for is full. -/
def issuesNow (i : Instr) (s : State) : Bool :=
  !s.team.asked && s.team.reply.isNone && !bodyBreach i s && (preUse i s).isNone && (emptySource i.uses s.team).isNone &&
    (waitsFor i.uses).all (fun d => !destEmpty s.team d) && !(i.uses.reads.any (destPoisoned s.team))

/-- The same, with nothing poisoned and no loop that ends here. -/
def goesNow (i : Instr) (s : State) : Bool :=
  issuesNow i s && s.team.sPoison == 0 && s.team.vPoison == 0 && s.team.lstk.head?.all (·.stop != s.team.pc)

theorem awaitAll_of_full (s : State) :
    ∀ ds : List Dest, ds.all (fun d => !destEmpty s.team d) = true → awaitAll s ds = some s
  | [], _ => rfl
  | d :: ds, h => by
    simp only [List.all_cons, Bool.and_eq_true, Bool.not_eq_true'] at h
    simp [awaitAll, awaitDest, h.1, awaitAll_of_full s ds h.2]

theorem issues_of {i : Instr} {s : State} (h : issuesNow i s = true) : Issues i s s := by
  simp only [issuesNow, Bool.and_eq_true, Bool.not_eq_true', Option.isNone_iff_eq_none] at h
  obtain ⟨⟨⟨⟨⟨⟨fresh, idle⟩, body⟩, use⟩, source⟩, full⟩, clean⟩ := h
  exact ⟨fresh, awaitAll_of_full s _ full, ⟨fresh, idle⟩, body, use, source, clean⟩

/-- The instruction comes to the check of its operand: outside a body, with every register full that it waits for. -/
def judgedNow (i : Instr) (a : SSrc) (s : State) : Bool :=
  !s.team.asked && !inBody s.team && (issueUse i s).isNone && !destEmpty s.team (.scal a.r) &&
    (waitsFor i.uses).all (fun d => !destEmpty s.team d)

theorem judged_of {i : Instr} {a : SSrc} {s : State} (h : judgedNow i a s = true) : Judged i a s s := by
  simp only [judgedNow, Bool.and_eq_true, Bool.not_eq_true', Option.isNone_iff_eq_none] at h
  obtain ⟨⟨⟨⟨fresh, outside⟩, use⟩, value⟩, full⟩ := h
  exact ⟨fresh, awaitAll_of_full s _ full, outside, use, value⟩

theorem runs_of {i : Instr} {s : State} (h : (issuesNow i s && s.team.sPoison == 0 && s.team.vPoison == 0) = true) :
    Runs i s s := by
  simp only [Bool.and_eq_true, beq_iff_eq] at h
  exact ⟨issues_of h.1.1, h.1.2, h.2⟩

theorem goes_of {i : Instr} {s : State} (h : goesNow i s = true) : Goes i s s := by
  simp only [goesNow, Bool.and_eq_true, beq_iff_eq] at h
  refine ⟨⟨issues_of h.1.1.1, h.1.1.2, h.1.2⟩, fun e he hs => ?_⟩
  have := h.2
  rw [Option.mem_def] at he
  simp [he, hs] at this

theorem allGo {is : List Instr} {s : State} (h : is.all (goesNow · s) = true) : ∀ i ∈ is, Goes i s s :=
  fun i hi => goes_of (List.all_eq_true.mp h i hi)

/-- A decoded window gives a location, or a cause. -/
def givesLoc (e : Option (Except Byte Nat)) (a : Nat) : Bool := match e with
  | some (.ok l) => l == a
  | _ => false
def givesCause (e : Option (Except Byte Nat)) (c : Byte) : Bool := match e with
  | some (.error d) => d == c
  | _ => false

theorem loc_of {e : Option (Except Byte Nat)} {a : Nat} (h : givesLoc e a = true) : e = some (.ok a) := by
  unfold givesLoc at h
  split at h <;> simp_all

theorem cause_of {e : Option (Except Byte Nat)} {c : Byte} (h : givesCause e c = true) : e = some (.error c) := by
  unfold givesCause at h
  split at h <;> simp_all

/-- The same for a plain result. -/
def okIs {ε α : Type} [DecidableEq α] (e : Except ε α) (a : α) : Bool := match e with
  | .ok x => decide (x = a)
  | .error _ => false
def errIs {ε α : Type} [DecidableEq ε] (e : Except ε α) (c : ε) : Bool := match e with
  | .ok _ => false
  | .error d => decide (d = c)
def isOk {ε α : Type} (e : Except ε α) : Bool := match e with
  | .ok _ => true
  | .error _ => false

theorem ok_of {ε α : Type} [DecidableEq α] {e : Except ε α} {a : α} (h : okIs e a = true) : e = .ok a := by
  unfold okIs at h
  split at h <;> simp_all

theorem err_of {ε α : Type} [DecidableEq ε] {e : Except ε α} {c : ε} (h : errIs e c = true) : e = .error c := by
  unfold errIs at h
  split at h <;> simp_all

theorem someOk {ε α : Type} {e : Except ε α} (h : isOk e = true) : ∃ a, e = .ok a := by
  cases e with
  | ok a => exact ⟨a, rfl⟩
  | error c => cases h

/-- The state in a result that carries one. -/
def okState {ε α : Type} (e : Except ε (α × State)) : State := match e with
  | .ok (_, n) => n
  | .error _ => {}

theorem okFirst {ε α : Type} [DecidableEq α] {e : Except ε (α × State)} {a : α}
    (h : okIs (e.map (·.1)) a = true) : e = .ok (a, okState e) := by
  cases e with
  | ok x =>
    simp only [Except.map, okIs, decide_eq_true_eq] at h
    simp [okState, ← h]
  | error c => cases h

/-! ### States -/

/-- The 64 bytes of a line with the parcels given, TGT and PAIR bits as given, and even parity (R164, R168). -/
def lineWith (ps : List Parcel) (tgt pair : Nat) : List Byte :=
  let l := ps ++ (List.range (15 - ps.length)).map fun _ => (0 : Parcel)
  let px := fun a b => ((l.drop a).take (b - a)).foldl (fun acc p => acc != parity32 p) false
  let low := tgt + pair * 2 ^ 15 + (if px 0 5 then 2 ^ 29 else 0) + (if px 5 10 then 2 ^ 30 else 0)
  parcelBytes (l ++ [BitVec.ofNat 32 (low + if px 10 15 != parity32 (BitVec.ofNat 32 (low % 2 ^ 29)) then 2 ^ 31 else 0)])

/-- A line of one-parcel ADDIs and a SALUL, which only stand there: ADDI s1, s1, -1 is 0x01041FFF. -/
def someCode : List Parcel := [0x01041FFF, 0x01041FFF, 0x01041FFF, 0x01041FFF, 0x01041FFF]

/-- The local window, where the team's block has one unit of 64 KiB. -/
def win (off : Nat) : Word := BitVec.ofNat 64 (localBase + off)

/-- One team of 32 lanes on core 0.0, in partition 0, with its code line, its block and a private region of four words:
s1 to s8 hold addresses of the window and small numbers, v1 to v3 small numbers. Its line may be landed on at parcels 0, 2
and 3. -/
def one : State :=
  let s := State.reset.withFetchWord 32 0
  let t := s.team
  { s with
    mem := writeCells s.mem 0x30000 (lineWith someCode 0xD 0),
    blocks := [⟨0, 0, 0, 0, 0, false, false, 0, 65536⟩],
    cores := [(0, { section64 := 1 })],
    team := { t with
      sregs := [(1, win 0), (2, 5), (3, win 0x200), (4, 1), (5, 8), (6, 0xFFFFFFFFFFFFFFFF), (7, 0x1000), (62, 8), (63, 0)],
      vregs := [(vkey 0 1, 5), (vkey 0 2, 7), (vkey 1 1, 3), (vkey 1 3, 1), (vkey 2 1, 0xFFFFFFFFFFFFFFFF)],
      masks := [(1, laneMask 32), (2, 3), (3, 0x80000000), (4, 1)], stklim := 4, prvbase := 0x4000 } }

def r (n : SReg) : SSrc := ⟨n, true⟩
def v (n : VReg) : VSrc := ⟨n, true⟩

/-- The same with a change of the team. -/
def oneT (f : Team → Team) : State := withTeam one f

/-- The team waits for a reply, which has come. -/
def answeredIn (s : State) (r : SvcReply) : State := withTeam s fun t => { t with asked := true, reply := some r }

theorem replied_of {s : State} {r : SvcReply} (h : s.team.asked = true ∧ s.team.reply = some r ∧ r.err = none ∧
    s.team.sPoison = 0 ∧ s.team.vPoison = 0 ∧ s.team.lstk = []) : Replied s r := by
  obtain ⟨asked, reply, good, sClean, vClean, inner⟩ := h
  exact ⟨asked, reply, good, ⟨sClean, vClean⟩, by simp [inner]⟩

/-! ### Scalar arithmetic -/

theorem wit_scalar_arithmetic : ∀ i ∈ ([.saluAdd 10 (r 2) (r 6), .saluSub 10 (r 2) (r 6), .saluAnd 10 (r 2) (r 6),
    .saluOr 10 (r 2) (r 6), .saluXor 10 (r 2) (r 6), .saluAndn 10 (r 2) (r 6), .saluShl 10 (r 2) (r 6),
    .saluShrl 10 (r 2) (r 6), .saluShra 10 (r 6) (r 2), .saluMul 10 (r 2) (r 6), .saluMulh 10 (r 2) (r 6),
    .saluMulhn 10 (r 2) (r 6), .saluMin 10 (r 2) (r 6), .saluMax 10 (r 2) (r 6), .saluMinn 0 (r 2) (r 6),
    .saluMaxn 63 (r 2) (r 2), .salul .mulh 10 (r 6) 0xFFFFFFFF, .addi 0 (r 63) (-1), .andi 1 (r 1) (-1024), .ori 1 (r 1) 1023,
    .xori 1 (r 0) 0, .shiShl 10 (r 2) 63, .shiShrl 10 (r 2) 0, .shiShra 10 (r 6) 63, .cmp (r 2) (r 6), .cmpi (r 6) (-1024)] :
    List Instr), Goes i one one := allGo (by decide +kernel)

theorem wit_bits_and_fields : ∀ i ∈ ([.sbitPopc 10 (r 6), .sbitClz 10 (r 0), .sbitCtz 10 (r 0), .sbitBrev 10 (r 2),
    .sbitSextb 10 (r 6), .sbitSexth 10 (r 6), .sbitSextw 10 (r 6), .sbitZextb 10 (r 6), .sbitZexth 10 (r 6),
    .sbitZextw 10 (r 6), .bfx true 10 (r 6) 0 63, .bfx false 10 (r 6) 63 0, .bfi 10 (r 2) (r 6) 0 63, .bfi 10 (r 2) (r 6) 63 0,
    .lit true 10 0x80000000, .lit false 10 0xFFFFFFFF, .lith 2 0xFFFFFFFF] : List Instr), Goes i one one :=
  allGo (by decide +kernel)

/-- LEA: the last byte of the allocation, the first byte past it, and an address outside the window. -/
theorem wit_lea : Goes (.lea 10 (r 1) (r 2)) one one ∧
    decodeWindow one one.team.who (localBase + 65535) 1 .rd = some (.ok (locBase 4 + 65535)) ∧
    decodeWindow one one.team.who (localBase + 65536) 1 .rd = some (.error 0x12) ∧
    Goes (.lea 10 (r 2) (r 5)) one one ∧ (sget one.team 2 + sget one.team 5).toNat < localBase :=
  ⟨goes_of (by decide +kernel), loc_of (by decide +kernel), cause_of (by decide +kernel), goes_of (by decide +kernel),
   by decide +kernel⟩

theorem wit_flags_kept : leavesFlags (.saluAdd 1 (r 2) (r 3)) = true ∧
    ∃ t, exec (.saluAdd 1 (r 2) (r 3)) one = .next t := ⟨rfl, _, rfl⟩

theorem wit_scalar_frame : ∀ i ∈ ([.saluAdd 10 (r 2) (r 6), .kmovToScalar 10 1 31, .kmovSum 10 2, .kpop 0 1] : List Instr),
    Goes i one one ∧ (scalarDest i).isSome = true ∧ ∃ t, exec i one = .next t := by
  have h := allGo (is := [.saluAdd 10 (r 2) (r 6), .kmovToScalar 10 1 31, .kmovSum 10 2, .kpop 0 1]) (s := one)
    (by decide +kernel)
  intro i hi
  refine ⟨h i hi, ?_⟩
  simp only [List.mem_cons, List.not_mem_nil, or_false] at hi
  rcases hi with rfl | rfl | rfl | rfl <;> exact ⟨rfl, _, rfl⟩

/-! ### Control -/

/-- A branch taken to itself, one not taken, and one whose target is no landing. -/
theorem wit_branches : Runs (.bc .al 2) one one ∧ condTrue .al one.team.cc = true ∧
    badTarget one one.team (one.team.pc + 4 * (2 : BitVec 20).signExtend 64) = none ∧
    Goes (.bc .eq 2) one one ∧ condTrue .eq one.team.cc = false ∧
    badTarget one one.team (one.team.pc + 4 * (1 : BitVec 20).signExtend 64) = some 0x21 ∧
    Runs (.bmz 4 2) (oneT fun t => { t with em := 2 }) (oneT fun t => { t with em := 2 }) ∧
    Runs (.bmnz 0 2) one one ∧ Goes (.bmz 0 2) one one :=
  ⟨runs_of (by decide +kernel), rfl, by decide +kernel, goes_of (by decide +kernel), by decide +kernel, by decide +kernel,
   runs_of (by decide +kernel), runs_of (by decide +kernel), goes_of (by decide +kernel)⟩

theorem wit_calls : (∀ i ∈ ([.call 2, .jr (r 62), .callr (r 62), .ret, .jr (r 6)] : List Instr), Goes i one one) ∧
    badTarget one one.team (one.team.pc + 4 * (2 : BitVec 20).signExtend 64) = none ∧
    badTarget one one.team (sget one.team 62) = none ∧ badTarget one one.team (sget one.team 6) = some 0x11 ∧
    badTarget one one.team (sget one.team 2) = some 0x21 :=
  ⟨allGo (by decide +kernel), by decide +kernel, by decide +kernel, by decide +kernel, by decide +kernel⟩

/-- A LOOP of two parcels and a LOOPI of three, with a count, with none, and with four entries on the stack. -/
theorem wit_loops : (∀ i ∈ ([.loop (r 2) 3, .loop (r 0) 3, .loopi 5 4, .loopi 0 4] : List Instr), Goes i one one) ∧
    Goes (.loop (r 2) 3) (oneT fun t => { t with lstk := List.replicate 4 ⟨0x100, 0x100, 2⟩ })
      (oneT fun t => { t with lstk := List.replicate 4 ⟨0x100, 0x100, 2⟩ }) ∧
    Goes (.loop (r 2) 3) (oneT fun t => { t with lstk := List.replicate 3 ⟨0x100, 0x100, 2⟩ })
      (oneT fun t => { t with lstk := List.replicate 3 ⟨0x100, 0x100, 2⟩ }) :=
  ⟨allGo (by decide +kernel), goes_of (by decide +kernel), goes_of (by decide +kernel)⟩

/-- The last instruction of a loop with rounds to come, of one on its last round, and of two loops at once. -/
theorem wit_loop_ends : Runs (.addi 1 (r 1) 0) (oneT fun t => { t with lstk := [⟨8, 0, 2⟩] })
      (oneT fun t => { t with lstk := [⟨8, 0, 2⟩] }) ∧
    badTarget one one.team 8 = none ∧
    Runs (.addi 1 (r 1) 0) (oneT fun t => { t with lstk := [⟨8, 0, 1⟩, ⟨8, 16, 2⟩] })
      (oneT fun t => { t with lstk := [⟨8, 0, 1⟩, ⟨8, 16, 2⟩] }) ∧
    Runs (.addi 1 (r 1) 0) (oneT fun t => { t with lstk := [⟨8, 0, 1⟩, ⟨8, 0, 2⟩] })
      (oneT fun t => { t with lstk := [⟨8, 0, 1⟩, ⟨8, 0, 2⟩] }) :=
  ⟨runs_of (by decide +kernel), by decide +kernel, runs_of (by decide +kernel), runs_of (by decide +kernel)⟩

/-- MARK with and without lanes, at an empty stack and below sixteen entries; ELSE with both paths; JOIN. -/
theorem wit_divergence : Goes (.mark 2 2) one one ∧ one.team.em &&& kget one.team 2 ≠ 0 ∧
    Goes (.mark 4 2) (oneT fun t => { t with em := 2, dstk := List.replicate 15 ⟨0, 1, 0⟩ })
      (oneT fun t => { t with em := 2, dstk := List.replicate 15 ⟨0, 1, 0⟩ }) ∧
    (2 : Mask) &&& kget one.team 4 = 0 ∧ badTarget one one.team 8 = none ∧
    Goes (.divElse 2) (oneT fun t => { t with dstk := [⟨0, 3, 1⟩] }) (oneT fun t => { t with dstk := [⟨0, 3, 1⟩] }) ∧
    Goes (.divElse 2) (oneT fun t => { t with dstk := [⟨0, 3, 0⟩] }) (oneT fun t => { t with dstk := [⟨0, 3, 0⟩] }) ∧
    Goes .join (oneT fun t => { t with dstk := [⟨0, 3, 0⟩] }) (oneT fun t => { t with dstk := [⟨0, 3, 0⟩] }) :=
  ⟨goes_of (by decide +kernel), by decide +kernel, goes_of (by decide +kernel), by decide +kernel, by decide +kernel,
   goes_of (by decide +kernel), goes_of (by decide +kernel), goes_of (by decide +kernel)⟩

/-- SPAWN where there is a context, lane-registers and quota; in ordered mode; with the quota spent. -/
theorem wit_spawn : Goes (.spawn 10 (r 1) 3) one one ∧ entryStop one (one.team.pc + 4 * (3 : BitVec 32).signExtend 64) = none ∧
    ordered one.team = false ∧ one.team.place.die ≠ 8 ∧
    freeContexts one (placeKey one.team.place) one.team.prio.toNat = 1 :: (List.range 29).map (· + 2) ∧
    lanesUsed one (placeKey one.team.place) + one.team.lanes * one.team.vregCount ≤ 131072 ∧
    spawnedAlive one one.team.part < quota one one.team.part 4 ∧ one.service = [] ∧
    Goes (.spawn 10 (r 1) 3) (oneT fun t => { t with mode := 0x20 }) (oneT fun t => { t with mode := 0x20 }) ∧
    ordered { one.team with mode := 0x20 } = true :=
  ⟨goes_of (by decide +kernel), by decide +kernel, by decide +kernel, by decide +kernel, by decide +kernel, by decide +kernel,
   by decide +kernel, rfl, goes_of (by decide +kernel), by decide +kernel⟩

theorem wit_exit_yield : Issues .exit one one ∧ Goes .yield one one :=
  ⟨issues_of (by decide +kernel), goes_of (by decide +kernel)⟩

/-- A request of the team to its own scratchpad stands at its service team while die 0 is halted. -/
def heldRequest : State :=
  { one with
    service := [⟨0, one.team.part, one.team.place, one.team.launch, ⟨.add, locBase 4, true, false, 5, 0, 0, none⟩⟩]
    pkstat := { halted := 1 } }

/-- A team on a control core. -/
def onHall : State := oneT fun t => { t with place := { t.place with die := 8 } }

theorem wit_spawn_waits : releaseWaits one .core = false ∧ releaseWaits heldRequest .core = true ∧
    Goes (.spawn 10 (r 1) 3) heldRequest heldRequest ∧
    entryStop heldRequest (heldRequest.team.pc + 4 * (3 : BitVec 32).signExtend 64) = none ∧
    freeContexts heldRequest (placeKey heldRequest.team.place) heldRequest.team.prio.toNat = 1 :: (List.range 29).map (· + 2) ∧
    Goes (.spawn 10 (r 1) 3) onHall onHall ∧ entryStop onHall (onHall.team.pc + 4 * (3 : BitVec 32).signExtend 64) = none :=
  ⟨by decide +kernel, by decide +kernel, goes_of (by decide +kernel), by decide +kernel, by decide +kernel,
   goes_of (by decide +kernel), by decide +kernel⟩

end Sys2Proof.Tests
end

