-- ==== Sys2Proof/Tests/Slice0.lean ====
section
/-! SUPPORT. Tests on fixed values: ill-formed terms that the check refuses, words written out from the spec's encoding that
decode to their instruction, and single steps. -/

namespace Sys2Proof.Tests

set_option Elab.async false

open Sys2Proof Sys2Proof.Machine

/-! ### Well-formedness: one ill-formed term for each check -/

theorem test_ill_formed_bfx : Instr.wf (.bfx false 1 ⟨2, true⟩ 60 4) = false := by decide
theorem test_ill_formed_bfi : Instr.wf (.bfi 1 ⟨2, true⟩ ⟨3, true⟩ 1 63) = false := by decide
theorem test_ill_formed_loop : Instr.wf (.loop ⟨1, true⟩ 1) = false := by decide
theorem test_ill_formed_loopi : Instr.wf (.loopi 5 2) = false := by decide
theorem test_ill_formed_spawn : Instr.wf (.spawn 1 ⟨57, true⟩ 4) = false := by decide
theorem test_ill_formed_vbcast : Instr.wf (.vbcast ⟨1, 0, .h, .vec ⟨2, true⟩⟩ 4) = false := by decide
theorem test_ill_formed_vbcast_scalar : Instr.wf (.vbcast ⟨1, 0, .h, .scal ⟨2, true⟩⟩ 1) = false := by decide
theorem test_ill_formed_cvt : Instr.wf (.cvt 1 0 ⟨2, true⟩ .fp32 .fp16 2) = false := by decide
theorem test_ill_formed_pack : Instr.wf (.pack ⟨1, 0, .b, .vec ⟨2, true⟩, .vec ⟨3, true⟩⟩ .wrap) = false := by decide
theorem test_ill_formed_unpack : Instr.wf (.unpack ⟨1, 0, .b, .vec ⟨2, true⟩⟩ true false) = false := by decide
theorem test_ill_formed_shfli : Instr.wf (.shfliUp ⟨1, 0, ⟨2, true⟩, .lit 1, 11⟩) = false := by decide
theorem test_ill_formed_vred : Instr.wf (.vred (.add .w false) 64 0 (.vec ⟨2, true⟩) true) = false := by decide
theorem test_ill_formed_ballot : Instr.wf (.ballot 1 ⟨0, .d, ⟨2, true⟩, 1⟩) = false := by decide
theorem test_ill_formed_ld_pair : Instr.wf (.ld ⟨3, ⟨4, true⟩, none, .p, false, .plain⟩) = false := by decide
theorem test_ill_formed_ld_sx : Instr.wf (.ld ⟨2, ⟨4, true⟩, none, .d, true, .plain⟩) = false := by decide
theorem test_ill_formed_ld_rel : Instr.wf (.ld ⟨2, ⟨4, true⟩, none, .d, false, .rel .dev⟩) = false := by decide
theorem test_ill_formed_st_acq : Instr.wf (.st ⟨2, ⟨4, true⟩, none, .d, false, .acq .dev⟩) = false := by decide
theorem test_ill_formed_st_sx : Instr.wf (.st ⟨2, ⟨4, true⟩, none, .w, true, .plain⟩) = false := by decide
theorem test_ill_formed_vldStr : Instr.wf (.vldStr ⟨2, 0, .d, ⟨4, true⟩, none, ⟨5, true⟩, true, .plain⟩) = false := by decide
theorem test_ill_formed_vldIx : Instr.wf (.vldIx ⟨2, 0, .w, ⟨4, true⟩, none, ⟨5, true⟩, false, .ar .die⟩) = false := by decide
theorem test_ill_formed_vldPrv : Instr.wf (.vldPrv ⟨2, 0, .h, ⟨4, true⟩, none, none, false⟩) = false := by decide
theorem test_ill_formed_vstStr : Instr.wf (.vstStr ⟨2, 0, .w, ⟨4, true⟩, none, ⟨5, true⟩, true, .plain⟩) = false := by decide
theorem test_ill_formed_vstIx : Instr.wf (.vstIx ⟨2, 0, .w, ⟨4, true⟩, none, ⟨5, true⟩, false, .acq .die⟩) = false := by decide
theorem test_ill_formed_vstPrv : Instr.wf (.vstPrv ⟨2, 0, .b, ⟨4, true⟩, none, none, false⟩) = false := by decide
theorem test_ill_formed_ldfe : Instr.wf (.ldfeK ⟨1, ⟨4, true⟩, .p, false⟩) = false := by decide
theorem test_ill_formed_atom : Instr.wf (.atomAdd ⟨1, ⟨4, true⟩, none, true, true, ⟨5, true⟩, .plain⟩) = false := by decide
theorem test_ill_formed_vatom : Instr.wf (.vatom ⟨.add, 3, 0, true, false, ⟨4, true⟩, ⟨6, true⟩, ⟨5, true⟩, true, .plain⟩) = false := by decide
theorem test_ill_formed_capEnter : Instr.wf (.capEnter ⟨4, true⟩ 1 0) = false := by decide
theorem test_ill_formed_tqget : Instr.wf (.tqget 3 0) = false := by decide
theorem test_ill_formed_mxloopE : Instr.wf (.mxloopE ⟨false, ⟨5, true⟩, ⟨6, true⟩, 3, 15, 0, false, true⟩) = false := by decide
theorem test_ill_formed_mxacc : Instr.wf (.mxacc ⟨false, ⟨4, true⟩, ⟨5, true⟩, ⟨6, true⟩, .fp64, true⟩) = false := by decide
theorem test_ill_formed_mma_align : Instr.wf (.mmaAny ⟨9, 0, ⟨2, true⟩, ⟨4, true⟩, none, .bf16, .bf16⟩) = false := by decide
theorem test_ill_formed_mma_overlap : Instr.wf (.mmaAny ⟨8, 0, ⟨10, true⟩, ⟨4, true⟩, none, .bf16, .bf16⟩) = false := by decide
theorem test_ill_formed_mma_formats : Instr.wf (.mmaLanes ⟨8, 0, ⟨2, true⟩, ⟨4, true⟩, none, .i8, .e4m3⟩) = false := by decide
theorem test_ill_formed_gets : Instr.wf (.gets 5 22) = false := by decide
theorem test_ill_formed_sets : Instr.wf (.sets 22 ⟨6, true⟩) = false := by decide
theorem test_ill_formed_place : Instr.wf (.teamEnd ⟨7, 48, 0⟩) = false := by decide
theorem test_ill_formed_place_hall : Instr.wf (.teamBoost ⟨8, 8, 0⟩) = false := by decide
theorem test_ill_formed_link : Instr.wf (.linkStepUp (.folros 12)) = false := by decide
theorem test_ill_formed_retrain : Instr.wf (.retrainingWindowEnd (.folros 12) true) = false := by decide
theorem test_ill_formed_peerRequest : Instr.wf (.peerRequest 12 1 (.read 0 8)) = false := by decide
theorem test_ill_formed_serviceTeam : Instr.wf (.serviceTeamRequest 48) = false := by decide
theorem test_ill_formed_registerWrite : Instr.wf (.registerWrite 17 0 0) = false := by decide

/-! ### Decoding. A word in hexadecimal is printed by the rule named after it; one in binary is laid out by R172 and the
fields of the rule named -/

/-- The parcels decode to the instruction, whole. -/
def reads (ws : List Parcel) (i : Instr) : Bool := decide ((decode ws).toOption = some (i, ws.length))

theorem test_decode_addi : reads [0x01041FFF#32] (.addi 1 ⟨1, true⟩ (-1)) = true := by decide +kernel -- R189
theorem test_decode_shi : reads [0x050C3C04#32] (.shiShra 3 ⟨3, true⟩ 4) = true := by decide +kernel -- R190
theorem test_decode_cmp : reads [0x06003130#32] (.cmp ⟨3, true⟩ ⟨4, true⟩) = true := by decide +kernel -- R191
theorem test_decode_bc : reads [0x0D3FFFFA#32] (.bc .lt (-6)) = true := by decide +kernel -- R197
theorem test_decode_bmnz : reads [0x0E500005#32] (.bmnz 2 5) = true := by decide +kernel -- R198
theorem test_decode_loopi : reads [0x91000000#32, 0x0000100A#32, 0x00000002#32]
    (.loopi 2 10) = true := by decide +kernel -- R205
theorem test_decode_mark : reads [0x12100009#32] (.mark 1 9) = true := by decide +kernel -- R206
theorem test_decode_divElse : reads [0x12800004#32] (.divElse 4) = true := by decide +kernel -- R206
theorem test_decode_join : reads [0x12900000#32] (.join) = true := by decide +kernel -- R206
theorem test_decode_ffma : reads [0x59080417#32, 0x06A00000#32]
    (.ffma ⟨4, 2, .f32, .vec ⟨1, true⟩, .vec ⟨2, true⟩, ⟨3, true⟩⟩) = true := by decide +kernel -- R218
theorem test_decode_kand : reads [0x64060410#32, 0x00000000#32] (.kand 3 1 2) = true := by decide +kernel -- R238
theorem test_decode_ld : reads [0xA5041004#32, 0x0020080D#32, 0x00000008#32]
    (.ld ⟨2, ⟨4, true⟩, some 8, .w, false, .acq .dev⟩) = true := by decide +kernel -- R244
theorem test_decode_st : reads [0x660E1004#32, 0x00300000#32]
    (.st ⟨7, ⟨4, true⟩, none, .d, false, .plain⟩) = true := by decide +kernel -- R244
theorem test_decode_fence : reads [0x6C000000#32, 0x0000001D#32] (.fenceAr .dev) = true := by decide +kernel -- R252
theorem test_decode_mxls : reads [0x72001005#32, 0x0C000000#32]
    (.mxls ⟨4, true⟩ ⟨6, true⟩) = true := by decide +kernel -- R270
theorem test_decode_mxloop : reads [0xB302102F#32, 0x0C000000#32, 0x100F0003#32]
    (.mxloop ⟨true, ⟨4, true⟩, ⟨5, true⟩, ⟨6, true⟩, 3, 15, 0, true, false⟩) = true := by decide +kernel -- R271
theorem test_decode_mxloopG : reads [0xB3006005#32, 0x3C001000#32, 0x10000001#32]
    (.mxloopG ⟨false, ⟨24, true⟩, ⟨30, true⟩, 1, true⟩) = true := by decide +kernel -- R381
theorem test_decode_mxacc : reads [0x7400102F#32, 0x0C00010D#32]
    (.mxacc ⟨false, ⟨4, true⟩, ⟨5, true⟩, ⟨6, true⟩, .bf16, true⟩) = true := by decide +kernel -- R275
theorem test_decode_mma : reads [0x75100827#32, 0x101000DD#32]
    (.mmaAny ⟨8, 0, ⟨2, true⟩, ⟨4, true⟩, some ⟨8, true⟩, .bf16, .bf16⟩) = true := by decide +kernel -- R276
theorem test_decode_engCpy : reads [0x7600102E#32, 0x00000000#32]
    (.engCpy ⟨4, true⟩ ⟨5, true⟩) = true := by decide +kernel -- R279
theorem test_decode_annexHint : reads [0x7700102E#32, 0x0000000D#32]
    (.annexHintPin ⟨4, true⟩ ⟨5, true⟩ 3) = true := by decide +kernel -- R284
theorem test_decode_rateGetE : reads [0x390C0040#32] (.rateGetE 3) = true := by decide +kernel -- R285
theorem test_decode_rateSet : reads [0x39004021#32] (.rateSet ⟨4, true⟩) = true := by decide +kernel -- R285
theorem test_decode_rateClr : reads [0x39000002#32] (.rateClr) = true := by decide +kernel -- R285
theorem test_decode_gets : reads [0x38140080#32] (.gets 5 2) = true := by decide +kernel -- R286
theorem test_decode_sets : reads [0x380060A1#32] (.sets 2 ⟨6, true⟩) = true := by decide +kernel -- R286
theorem test_decode_trap : reads [0x3A000005#32] (.trap 5) = true := by decide +kernel -- R287
theorem test_decode_sysc : reads [0x3A04000C#32] (.sysc 12) = true := by decide +kernel -- R287
theorem test_decode_bkpt : reads [0x3A080000#32] (.bkpt 0) = true := by decide +kernel -- R287
theorem test_decode_resume : reads [0x3B009021#32] (.resume ⟨9, true⟩) = true := by decide +kernel -- R288
theorem test_decode_rft : reads [0x3B014020#32] (.rft ⟨20, true⟩) = true := by decide +kernel -- R469
theorem test_decode_capEnter : reads [0x6F001004#32, 0x020000D1#32]
    (.capEnter ⟨4, true⟩ 1 29) = true := by decide +kernel -- R334
theorem test_decode_barInit : reads [0x6D0054B7#32, 0x2E000001#32]
    (.barInit true ⟨21, true⟩ ⟨22, true⟩ ⟨23, true⟩) = true := by decide +kernel -- R359
theorem test_decode_barWait : reads [0x6D005404#32, 0x00003000#32]
    (.barWait ⟨21, true⟩ (.imm 0)) = true := by decide +kernel -- R328
theorem test_decode_vldIx : reads [0x670E5005#32, 0x08201000#32]
    (.vldIx ⟨7, 0, .w, ⟨20, true⟩, none, ⟨4, true⟩, false, .plain⟩) = true := by decide +kernel -- R328
theorem test_decode_vldStr : reads [0x67081436#32, 0x00200000#32]
    (.vldStr ⟨4, 0, .w, ⟨5, true⟩, none, ⟨6, true⟩, false, .plain⟩) = true := by decide +kernel -- R424
theorem test_decode_vstPrv : reads [0x68062804#32, 0x00202000#32]
    (.vstPrv ⟨3, 0, .w, ⟨10, true⟩, none, none, false⟩) = true := by decide +kernel -- R469
theorem test_decode_atomAdd : reads [0x6A005CDE#32, 0x00300000#32]
    (.atomAdd ⟨0, ⟨23, true⟩, none, true, false, ⟨27, true⟩, .plain⟩) = true := by decide +kernel -- R334
theorem test_decode_fcmp : reads [0x5A021C36#32, 0x00202000#32]
    (.fcmp .lt ⟨1, 0, .f32, .vec ⟨7, true⟩, .vec ⟨6, true⟩⟩) = true := by decide +kernel -- R354
theorem test_decode_vany : reads [0x63140404#32, 0x00202000#32]
    (.vany 10 ⟨0, .w, ⟨1, true⟩, 0⟩) = true := by decide +kernel -- R354
theorem test_decode_cinv : reads [0x7100D004#32, 0x00002000#32]
    (.cinv ⟨52, true⟩ none) = true := by decide +kernel -- R366
theorem test_decode_tqfill : reads [0x70264497#32, 0x24004000#32]
    (.tqfill 19 0 ⟨17, true⟩ ⟨18, true⟩ ⟨18, true⟩) = true := by decide +kernel -- R381
theorem test_decode_tqget : reads [0x70040000#32, 0x00002000#32] (.tqget 2 0) = true := by decide +kernel -- R381
theorem test_decode_valuMinn : reads [0x94122404#32, 0x0030B800#32, 0x0000000C#32]
    (.valuMinn ⟨9, 0, .d, .vec ⟨9, true⟩, .lit 12⟩) = true := by decide +kernel -- R469
theorem test_decode_salu : reads [0b00000000000101000110000111100001#32]
    (.saluSub 5 ⟨6, true⟩ ⟨7, false⟩) = true := by decide +kernel -- R187
theorem test_decode_andi : reads [0b00000010001001001010000011111111#32]
    (.andi 9 ⟨10, false⟩ 255) = true := by decide +kernel -- R189
theorem test_decode_cmpi : reads [0b00000111000000001101110000000000#32]
    (.cmpi ⟨13, true⟩ (-1024)) = true := by decide +kernel -- R191
theorem test_decode_sbit : reads [0b00001000000100000101000000100011#32]
    (.sbitBrev 4 ⟨5, true⟩) = true := by decide +kernel -- R192
theorem test_decode_bfx : reads [0b01001001000001000000110000000100#32, 0b00001110000000000000000100000100#32]
    (.bfx true 2 ⟨3, true⟩ 4 7) = true := by decide +kernel -- R193
theorem test_decode_bfi : reads [0b01001001000001000000110000100010#32, 0b01111110000000000001000000000000#32]
    (.bfi 2 ⟨3, false⟩ ⟨4, true⟩ 0 63) = true := by decide +kernel -- R193
theorem test_decode_lea : reads [0b00001010000100000101000110010000#32]
    (.lea 4 ⟨5, false⟩ ⟨6, true⟩) = true := by decide +kernel -- R194
theorem test_decode_salul : reads [0b10001011010000101000100000000100#32, 0b00000000000000001110100000000000#32, 0b11111111111111111111111111111110#32]
    (.salul .minn 33 ⟨34, true⟩ 0xFFFFFFFE) = true := by decide +kernel -- R188
theorem test_decode_lit : reads [0b10001100000010100000000000000000#32, 0b00000000000000000000000100000000#32, 0b10000000000000000000000000000000#32]
    (.lit true 5 0x80000000) = true := by decide +kernel -- R195
theorem test_decode_lith : reads [0b10001100000010100000000000000000#32, 0b00000000000000000001000000000000#32, 0b00000000000000000000000000000111#32]
    (.lith 5 7) = true := by decide +kernel -- R195
theorem test_decode_call : reads [0b00001111000000000000000001100100#32] (.call 100) = true := by decide +kernel -- R199
theorem test_decode_callr : reads [0b00010000000000010100000000100001#32]
    (.callr ⟨20, true⟩) = true := by decide +kernel -- R199
theorem test_decode_loop : reads [0b01010001000000000101010000000100#32, 0b00000010000000000000000000000010#32]
    (.loop ⟨21, true⟩ 258) = true := by decide +kernel -- R201
theorem test_decode_spawn : reads [0b10010011000011001110000000000100#32, 0b00000000000000000000000000000000#32, 0b11111111111111111111111111110000#32]
    (.spawn 6 ⟨56, true⟩ 0xFFFFFFF0) = true := by decide +kernel -- R208
theorem test_decode_exit : reads [0b00010011000000000000000000000001#32] (.exit) = true := by decide +kernel -- R211
theorem test_decode_valuAdd : reads [0b01010100110010000010010001100110#32, 0b00000000110000000000010100000001#32]
    (.valuAdd ⟨100, 3, .b, .scal ⟨9, true⟩, .vec ⟨12, true⟩⟩ .sn) = true := by decide +kernel -- R219
theorem test_decode_vmulMad : reads [0b01010101000000100000100000011001#32, 0b00001000000100000011000100000000#32]
    (.vmulMad ⟨1, 0, .h, .vec ⟨2, false⟩, .vec ⟨3, false⟩, ⟨4, true⟩⟩ true) = true := by decide +kernel -- R220
theorem test_decode_vcmp : reads [0b01010110000000100000100000011000#32, 0b00000000000100000110001000000000#32]
    (.vcmp .ltn ⟨1, 0, .h, .vec ⟨2, false⟩, .scal ⟨3, false⟩⟩) = true := by decide +kernel -- R221
theorem test_decode_vbcast : reads [0b01010111000000100000100000000000#32, 0b00000000000000000001000000000101#32]
    (.vbcast ⟨1, 0, .b, .vec ⟨2, false⟩⟩ 5) = true := by decide +kernel -- R222
theorem test_decode_fadd : reads [0b10011000000000100000100000000000#32, 0b00000000001100000000100000000000#32, 0b00111111100000000000000000000000#32]
    (.fadd ⟨1, 0, .f64, .vec ⟨2, false⟩, .lit 0x3F800000⟩) = true := by decide +kernel -- R223
theorem test_decode_sfu : reads [0b01011011000000100000100000000100#32, 0b00000000001000000101000000000000#32]
    (.fsin ⟨1, 0, .f32, .vec ⟨2, true⟩⟩) = true := by decide +kernel -- R226
theorem test_decode_cvt : reads [0b01011100000001100001000000000100#32, 0b00000000000000000000000011100111#32]
    (.cvt 3 0 ⟨4, true⟩ .fp32 .n64 0) = true := by decide +kernel -- R228
theorem test_decode_pack : reads [0b01011101000001100001000000101000#32, 0b00000000001000000000000100000000#32]
    (.pack ⟨3, 0, .w, .vec ⟨4, false⟩, .vec ⟨5, false⟩⟩ .s) = true := by decide +kernel -- R230
theorem test_decode_unpack : reads [0b01011101000001100001000000000000#32, 0b00000000000100000001000100000001#32]
    (.unpack ⟨3, 0, .h, .vec ⟨4, false⟩⟩ true true) = true := by decide +kernel -- R230
theorem test_decode_kset : reads [0b01100100000001100000000000000000#32, 0b00000000000000000101000000000000#32]
    (.kset 3 ⟨0, false⟩) = true := by decide +kernel -- R238
theorem test_decode_vatom : reads [0b01101011000000000001000000101111#32, 0b00001100101100000000000100000000#32]
    (.vatom ⟨.add, 0, 2, true, false, ⟨4, true⟩, ⟨6, true⟩, ⟨5, true⟩, true, .plain⟩) = true := by decide +kernel -- R251
theorem test_decode_waitc : reads [0b01101110000000000000000000000000#32, 0b00000000000000000000000000010110#32]
    (.waitc .gth 5) = true := by decide +kernel -- R253
theorem test_decode_capCommit : reads [0b01101111000000000000000000000000#32, 0b00000000000000000001000000000000#32]
    (.capCommit) = true := by decide +kernel -- R258
theorem test_decode_qpush : reads [0b01110000000000000001000000101110#32, 0b00000000000000000000000000000000#32]
    (.qpush ⟨4, true⟩ ⟨5, true⟩) = true := by decide +kernel -- R261
theorem test_decode_mxswap : reads [0b01110100000000000000000000000000#32, 0b00000000000000000001000000000000#32]
    (.mxswap) = true := by decide +kernel -- R270
theorem test_decode_tlbinv : reads [0b01111100000000000000010000010111#32, 0b00000110000000000000000000000000#32]
    (.tlbinv ⟨1, true⟩ ⟨2, true⟩ ⟨3, true⟩) = true := by decide +kernel -- R289
theorem test_decode_unpark : reads [0b01111100000000000000010000000000#32, 0b00000000000000000011000000000001#32]
    (.unpark ⟨1, false⟩) = true := by decide +kernel -- R289
theorem test_decode_shfl : reads [0b01011110000001100001000000101000#32, 0b00000000000100000000001000000000#32]
    (.shfl 3 0 .h ⟨4, false⟩ (.scal ⟨5, false⟩)) = true := by decide +kernel -- R231
theorem test_decode_shfli : reads [0b10011111000001100001000000000000#32, 0b00000000001100000001100000000110#32, 0b00000000000000000000000000001000#32]
    (.shfliDown ⟨3, 0, ⟨4, false⟩, .lit 8, 6⟩) = true := by decide +kernel -- R232
theorem test_decode_vred : reads [0b01100000000011100001010000000000#32, 0b00000000001000000000000100000001#32]
    (.vred (.add .w true) 7 0 (.vec ⟨5, false⟩) true) = true := by decide +kernel -- R233
theorem test_decode_scan : reads [0b01100001000011100001010000000000#32, 0b00000000011000001000000000000001#32]
    (.scan (.fadd .f32) 7 1 (.vec ⟨5, false⟩) true) = true := by decide +kernel -- R233
theorem test_decode_match : reads [0b01100010000010000000100000000000#32, 0b00000000010000000000000000000011#32]
    (.mtch 4 ⟨1, .b, ⟨2, false⟩, 3⟩) = true := by decide +kernel -- R235
theorem test_decode_ballot : reads [0b01100011000010000000100000000000#32, 0b00000000001100000000000000000000#32]
    (.ballot 4 ⟨0, .d, ⟨2, false⟩, 0⟩) = true := by decide +kernel -- R236
theorem test_decode_kmov : reads [0b01100011000010000010010000000100#32, 0b00111100000000000001000000000011#32]
    (.kmovFromScalar 4 ⟨9, true⟩ 30) = true := by decide +kernel -- R237
theorem test_decode_ldfe : reads [0b01101001000011000010010000000100#32, 0b00000000001100000001001000000000#32]
    (.ldfeC ⟨6, ⟨9, true⟩, .p, false⟩) = true := by decide +kernel -- R248
theorem test_decode_mxloopE : reads [0b10110011000000000000000000101011#32, 0b00001100000000000010000000000000#32, 0b00100100000011110000000000000011#32]
    (.mxloopE ⟨false, ⟨5, true⟩, ⟨6, true⟩, 3, 15, 2, false, true⟩) = true := by decide +kernel -- R271

/-! ### One step of the whole machine, on the team of `one` -/

/-- `s` with these parcels as its line of code, and the TGT bits of those that may be landed on. -/
def withCode (s : State) (ps : List Parcel) (tgt : Nat := 1) : State :=
  { s with mem := writeCells s.mem 0x30000 (lineWith ps tgt 0) }

/-- What `f` reads after one step. -/
def after {α : Type} (s : State) (f : State → α) : Option α := match step s with
  | .next t => some (f t)
  | _ => none

def regAfter (ps : List Parcel) (rs : List (Nat × Word)) (d : Nat) : Option (Word × Word) :=
  after (withCode (oneT fun t => { t with sregs := rs }) ps) fun s => (mapGet 0 s.team.sregs d, s.team.pc)

/-- VLID.d v1 of 64 lanes, stopped at lane-word 1: the lanes below it are done, the others untouched (R66, R397). -/
theorem test_part_way : ((sweptBelow (.vlid 1 0 .d) 1 (oneT fun t => { t with lanes := 64, em := laneMask 64, vregs := [] })).map
    fun vs => [5, 31, 32, 40].map fun l => vget ({ vregs := vs } : Team) l 1) = some [5, 31, 0, 0] := by decide +kernel
/-- ADDI s1, s1, -1 on 0 wraps (R189, R187). -/
theorem test_step_addi : regAfter [0x01041FFF] [] 1 = some (0xFFFFFFFFFFFFFFFF, 4) := by decide +kernel
/-- SUB s5, s6, s7 takes the second source from the first (R187). -/
theorem test_step_sub : regAfter [0b00000000000101000110000111100001] [(6, 3), (7, 5)] 5 =
    some (0xFFFFFFFFFFFFFFFE, 4) := by decide +kernel
/-- SHI.SHRA s3, s3, 4 copies the sign (R190). -/
theorem test_step_shra : regAfter [0x050C3C04] [(3, 0x8000000000000010)] 3 = some (0xF800000000000001, 4) := by decide +kernel
/-- The flags of CMP s3, s4 that R191 prints: Z = 0, N = 1, C = 1, V = 0; L, A and F stay. -/
theorem test_step_cmp : after (withCode (oneT fun t =>
    { t with cc := 0b1110000, sregs := [(3, 0xFFFFFFFFFFFFFFFF), (4, 1)] }) [0x06003130]) (·.team.cc) =
    some 0b1110110 := by decide +kernel
/-- BC.LT back by 6 parcels, to PC - 24, is taken when N ≠ V (R177, R197). -/
theorem test_step_bc : after (withCode (oneT fun t => { t with pc := 32, cc := 0b0000110 })
    (List.replicate 8 0x01041FFF ++ [0x0D3FFFFA]) 5) (·.team.pc) = some 8 := by decide +kernel
/-- It is not taken when N = V (R177). -/
theorem test_step_bc_falls : after (withCode (oneT fun t => { t with pc := 4, cc := 0b0001010 }) [0x01041FFF, 0x0D3FFFFA])
    (·.team.pc) = some 8 := by decide +kernel
/-- ST.d s7, [s4] stores little-endian (R1, R244), and the next byte stays. -/
theorem test_step_st : after (withCode (oneT fun t => { t with sregs := [(4, win 8), (7, 0x1122334455667788)] })
    [0x660E1004, 0x00300000]) (fun s => (List.range 9).map fun i => mapGet 0 s.mem (locBase 4 + 8 + i)) =
    some [0x88, 0x77, 0x66, 0x55, 0x44, 0x33, 0x22, 0x11, 0] := by decide +kernel
/-- Misaligned, it stops with cause 0x15 at itself: FCONT is 0, so the team halts (R241, R400, R403). -/
theorem test_step_misaligned : after (withCode (oneT fun t => { t with sregs := [(4, win 9)] }) [0x660E1004, 0x00300000])
    (fun s => (s.team.status, s.team.pc)) = some (.halted 0x15, 0) := by decide +kernel
/-- With FCONT set the team goes on there, FCONT is 0, and the frame holds PC and CAUSE (R400, R401). -/
theorem test_step_redirected : after (withCode (oneT fun t => { t with fcont := 8, fframe := win 0x400, cc := 5, sregs := [(4, win 9)] })
    [0x660E1004, 0x00300000, 0x01041FFF] 5) (fun s => ([s.team.pc, s.team.fcont],
      [8, 24, 26, 30, 32, 40, 64].map fun o => mapGet 0 s.mem (locBase 4 + 0x400 + o))) =
    some ([8, 0], [0, 0x15, 0, 1, 9, 5, 8]) := by decide +kernel
/-- FFMA.f32 v4, v1, v2, v3 under k2: 1.5 × 2 + 0.5 = 3.5 in lane 0, and a lane that k2 leaves out keeps its value (R218). -/
theorem test_step_ffma : after (withCode (oneT fun t => { t with masks := [(2, 1)], vregs :=
    [(vkey 0 1, 0x3FC00000), (vkey 0 2, 0x40000000), (vkey 0 3, 0x3F000000), (vkey 1 1, 0x3FC00000), (vkey 1 4, 9)] })
    [0x59080417, 0x06A00000]) (fun s => (mapGet 0 s.team.vregs (vkey 0 4), mapGet 0 s.team.vregs (vkey 1 4))) =
    some (0x40600000, 9) := by decide +kernel
/-- TRAP 5 stops with cause 0x01 at the address after itself (R287, R399). -/
theorem test_step_trap : after (withCode one [0x3A000005]) (fun s => (s.team.status, s.team.pc)) =
    some (.halted 0x01, 4) := by decide +kernel
/-- An opcode that no instruction has stops with cause 0x22 (R183). -/
theorem test_step_unassigned : after (withCode one [0x1F000000]) (·.team.status) = some (.halted 0x22) := by decide +kernel
/-- The first instruction after reset, placed where the fetch reads. -/
theorem test_step_placed : after (State.reset.withFetchWord 32 0x01041FFF) (fun s => mapGet 0 s.team.sregs 1) =
    some 0xFFFFFFFFFFFFFFFF := by decide +kernel

end Sys2Proof.Tests
end

