-- ==== Sys2Proof/Tests/WitnessesMemory.lean ====
section
/-! SUPPORT. Witnesses for the statements about vectors, masks and memory. -/

namespace Sys2Proof.Tests

set_option Elab.async false

open Sys2Proof Sys2Proof.Machine

/-! ### Vectors -/

/-- Operands of width w: v10 under k from v1 and v2. -/
def vb (es : Width) (k : KReg := 0) : VBin := ⟨10, k, es, .vec (v 1), .vec (v 2)⟩
def vu (es : Width) (k : KReg := 0) : VUn := ⟨10, k, es, .vec (v 1)⟩
def vt (es : Width) (k : KReg := 0) : VTri := ⟨10, k, es, .scal (r 2), .lit 0xFFFFFFFF, v 3⟩
def fb (f : FFmt) (k : KReg := 0) : FBin := ⟨10, k, f, .vec (v 1), .lit 0x3F800000⟩
def fu (f : FFmt) (k : KReg := 0) : FUn := ⟨10, k, f, .vec (v 1)⟩
def ft (f : FFmt) (k : KReg := 0) : FTri := ⟨10, k, f, .vec (v 1), .scal (r 2), v 3⟩
def el (es : Width) (idx : BitVec 3) (k : KReg := 0) : ElemOps := ⟨k, es, v 1, idx⟩

theorem wit_vector_arithmetic : ∀ i ∈ ([.valuAdd (vb .b) .s, .valuSub (vb .h 2) .sn, .valuAnd (vb .w), .valuOr (vb .d),
    .valuXor (vb .d), .valuAndn (vb .b), .valuShl (vb .b) true, .valuShrl (vb .h), .valuShra (vb .w), .valuMin (vb .d),
    .valuMax (vb .b), .valuMinn (vb .b), .valuMaxn (vb .b), .valuAbs (vu .d) true, .valuNeg (vu .b) false,
    .valuMov 10 0 .d (.lit 0x80000000), .vmulMul (vb .d) true, .vmulMulh (vb .d), .vmulMulhn (vb .b), .vmulMad (vt .d) false,
    .vcmp .ltn (vb .h), .vcmp .gen (vb .d), .vsel (vt .b), .vbcast (vu .b) 7, .vlid 127 0 .b] : List Instr),
    Goes i one one := allGo (by decide +kernel)

/-- A lane to do: the last one of a mask of two, and none of an instruction begun again behind it. -/
theorem wit_lanes_to_do : ToDo one.team 2 1 ∧ ¬ToDo one.team 2 2 ∧
    ¬ToDo { one.team with pix := pixAt 1 } 2 1 :=
  ⟨by simp only [ToDo]; decide +kernel, by simp only [ToDo]; decide +kernel, by simp only [ToDo]; decide +kernel⟩

theorem wit_floats : (∀ i ∈ ([.pack (vb .h) .sn, .unpack (vu .d) true true, .perm (vt .b), .cvt 10 0 (v 1) .fp32 .fp16 1,
    .cvt 10 0 (v 1) .e4m3 .fp32 3, .cvt 10 0 (v 1) .i8 .fp64 7, .fadd (fb .f16), .fsub (fb .bf16), .fmul (fb .f64), .fmin (fb .f32),
    .fmax (fb .f32), .fabs (fu .f64), .fneg (fu .bf16), .fcsgn (fb .f16), .ffma (ft .f32), .ffms (ft .f64), .fnma (ft .bf16),
    .fcmp .un (fb .f32)] : List Instr), Goes i one one) ∧
    Instr.wf (.cvt 10 0 (v 1) .e4m3 .fp32 3) = true ∧ (vb .h).es ≠ .b :=
  ⟨allGo (by decide +kernel), by decide +kernel, by decide⟩

/-- Values that a format holds: the least subnormal and the greatest number; a NaN beside a number; an infinity. -/
theorem wit_rounding : (∃ n d, fpValue .f32 false 1 = .fin false n d) ∧ (∃ n d, fpValue .e4m3 false 0x7E = .fin false n d) ∧
    isNan .f16 0x7E01 = true ∧ isNan .f16 0x3C00 = false ∧ FpFmt.f64.hasInf = true :=
  ⟨⟨_, _, rfl⟩, ⟨_, _, rfl⟩, by decide +kernel, by decide +kernel, rfl⟩

theorem wit_long_latency : (∀ i ∈ ([.frcp (fu .f32), .frsq (fu .f16), .fsqrt (fu .f64), .fexp2 (fu .bf16), .flog2 (fu .f32),
    .fsin (fu .f32), .fcos (fu .f32), .ftanh (fu .f32), .shfl 10 0 .b (v 1) (.vec (v 2)), .shfl 10 0 .h (v 1) (.scal (r 2)),
    .shfliUp ⟨10, 0, v 1, .lit 31, 5⟩, .shfliDown ⟨10, 0, v 1, .scal (r 2), 5⟩, .shfliXor ⟨10, 0, v 1, .lit 0xFFFFFFFF, 1⟩,
    .shfliBcast ⟨10, 0, v 1, .lit 31, 5⟩, .vred (.add .d true) 10 2 (.vec (v 1)) false,
    .vred (.fadd .f32) 10 2 (.vec (v 1)) true, .vred (.min .b) 0 4 (.vec (v 1)) true, .scan (.maxn .h) 10 0 (.vec (v 1)) true,
    .scan (.fmin .f32) 10 2 (.vec (v 1)) false, .mtch 10 (el .b 7)] : List Instr), Goes i one one) ∧
    lanesOn one.team 2 = [0, 1] ∧ lanesOn { one.team with em := 0 } 2 = [] ∧ lanesOn one.team 0 = List.range 32 ∧
    Goes (.frcp (fu .f32)) (oneT fun t => { t with em := 0 }) (oneT fun t => { t with em := 0 }) :=
  ⟨allGo (by decide +kernel), by decide +kernel, by decide +kernel, by decide +kernel, goes_of (by decide +kernel)⟩

/-- Contributions of a reduction at 8 bits, at both ends of their range. -/
theorem wit_reductions : ∀ x ∈ [0, 127, 128, 255], x < 2 ^ Width.b.bits := by decide

/-- A vector result and a scalar result on their way. -/
def due : State := oneT fun t => { t with
  vEmpty := 1 <<< 10, sEmpty := 1 <<< 11,
  inflight := [⟨.vec 10, .values [(0, 5), (31, 6)], false⟩, ⟨.scal 11, .values [(0, 7)], true⟩] }

theorem wit_results_due :
    due.team.inflight = [] ++ ⟨.vec 10, .values ([0, 31].map fun l => (l, if l = 0 then 5 else 6)), false⟩ ::
      [⟨.scal 11, .values [(0, 7)], true⟩] ∧
    destEmpty due.team (.vec 10) = true ∧ destEmpty due.team (.scal 11) = true ∧ destEmpty due.team (.scal 10) = false ∧
    due.service = [] ∧ (awaitAll due [.vec 10, .scal 11, .scal 0]).isSome = true :=
  ⟨rfl, by decide +kernel, by decide +kernel, by decide +kernel, rfl, by decide +kernel⟩

theorem wit_masks : (∀ i ∈ ([.kmov 1 0, .kmovToScalar 10 1 0, .kmovSum 10 2, .kmovFromScalar 7 (r 6) 0, .kand 1 2 3, .kor 1 2 3,
    .kxor 1 1 2, .kandn 1 1 2, .knot 7 0, .kset 1 (r 2), .kset 1 (r 6), .kpop 10 0, .ballot 1 (el .b 0), .ballot 2 (el .d 0 2),
    .vany 10 (el .h 3), .vall 0 (el .w 1 2)] : List Instr), Goes i one one) ∧
    lanesOn one.team 2 ≠ [] ∧ Goes (.ballot 1 (el .b 0)) (oneT fun t => { t with em := 0 }) (oneT fun t => { t with em := 0 }) :=
  ⟨allGo (by decide +kernel), by decide +kernel, goes_of (by decide +kernel)⟩

/-! ### Memory -/

/-- The scratchpad location at an offset of the team's block. -/
def pad (off : Nat) : Nat := locBase 4 + off

def mo (size : MSize) (a : SReg) (off : Option (BitVec 32)) (sx : Bool := false) (ord : MOrder := .plain) : MemOps :=
  ⟨10, r a, off, size, sx, ord⟩

theorem one_quiet : NoRequests one ∧ Settled one ∧ Unguarded one :=
  ⟨fun _ h => absurd h List.not_mem_nil, ⟨rfl, rfl, rfl⟩, rfl, rfl, rfl, rfl⟩

/-- Loads and stores of every size at the last place of the allocation that they fit in; a page that the table maps; and the
faults past the end, at a misaligned address and at one with high bits. -/
theorem wit_loads : (∀ i ∈ ([.ld (mo .b 1 (some 0xFFFF) true), .ld (mo .w 1 none), .ld (mo .d 1 none false (.acq .sys)),
    .ld (mo .p 1 none), .st (mo .b 1 (some 0xFFFF)), .st (mo .d 1 none false (.rel .sys)), .st (mo .p 1 none)] : List Instr),
    Goes i one one) ∧
    access one (addressOf one.team (r 1) (some 0xFFFF)) 1 1 .rd = .ok (pad 0xFFFF) ∧
    access one (addressOf one.team (r 1) none) 16 16 .rd = .ok (pad 0) ∧
    access one (addressOf one.team (r 1) none) 16 16 .wr = .ok (pad 0) ∧
    access one (addressOf one.team (r 7) none) 8 8 .rd = .ok 0x31000 ∧
    access one (addressOf one.team (r 1) (some 0x10000)) 1 1 .rd = .fault 0x12 ∧
    access one (addressOf one.team (r 1) (some 1)) 4 4 .wr = .fault 0x15 ∧
    access one (addressOf one.team (r 6) none) 4 4 .rd = .fault 0x11 ∧ bodyRange one.team (pad 0) 16 = true ∧
    poisonedIn one (pad 0) 16 = false :=
  ⟨allGo (by decide +kernel), by decide +kernel⟩

def so (es : Width) (k : KReg) (ord : MOrder := .plain) : StrOps := ⟨10, k, es, r 1, none, r 5, false, ord⟩
def xo (es : Width) (k : KReg) (ord : MOrder := .plain) : IxOps := ⟨10, k, es, r 1, some 8, v 3, false, ord⟩
def po (es : Width) (k : KReg) (off : Option (BitVec 32)) : PrvOps := ⟨10, k, es, r 0, off, some (v 3), false⟩

/-- Vector accesses: strided over all lanes, indexed and private over two, the private words up to the limit. -/
theorem wit_vector_accesses : (∀ i ∈ ([.vldStr (so .d 0), .vldIx (xo .b 2), .vldPrv (po .w 2 (some 2)), .vldPrv (po .d 2 none),
    .vstStr (so .d 0), .vstIx (xo .b 2 (.rel .dev)), .vstPrv (po .w 2 (some 2)), .vstPrv (po .d 2 (some 1))] : List Instr), Goes i one one) ∧
    workLanes one.team 0 = List.range 32 ∧ workLanes one.team 2 = [0, 1] ∧
    (∀ l ∈ workLanes one.team 0, access one (strAddress one.team (so .d 0) l) 8 8 .rd = .ok (pad (8 * l)) ∧
      access one (strAddress one.team (so .d 0) l) 8 8 .wr = .ok (pad (8 * l))) ∧
    (∀ l ∈ workLanes one.team 2, access one (ixAddress one.team (xo .b 2) l) 1 1 .rd = .ok (pad (8 + l)) ∧
      access one (ixAddress one.team (xo .b 2) l) 1 1 .wr = .ok (pad (8 + l))) ∧
    (∀ l ∈ workLanes one.team 2, 0 ≤ prvWord one.team (po .w 2 (some 2)) l ∧
      prvWord one.team (po .w 2 (some 2)) l < one.team.stklim ∧
      privAcc one .wr (prvAddress one.team l (prvWord one.team (po .w 2 (some 2)) l)) 4 = .ok (0x34000 + 128 * (2 + l) + 4 * l)) ∧
    (∀ l ∈ workLanes one.team 2, 0 ≤ prvWord one.team (po .d 2 (some 1)) l ∧
      prvWord one.team (po .d 2 (some 1)) l + 1 < one.team.stklim ∧
      privAcc one .wr (prvAddress one.team l (prvWord one.team (po .d 2 (some 1)) l)) 4 = .ok (0x34000 + 128 * (1 + l) + 4 * l) ∧
      privAcc one .wr (prvAddress one.team l (prvWord one.team (po .d 2 (some 1)) l + 1)) 4 =
        .ok (0x34000 + 128 * (2 + l) + 4 * l)) :=
  ⟨allGo (by decide +kernel), by decide +kernel, by decide +kernel, by decide +kernel, by decide +kernel, by decide +kernel,
   by decide +kernel⟩

/-- A byte under a barrier object, one under a held lock record, and one of a lost die, in one store. -/
theorem wit_guarded_stores : tagHit { one with tags := [pad 32] } (pad 63) 1 = some (pad 32) ∧
    tagHit { one with tags := [pad 32] } (pad 64) 1 = none ∧
    lockHit { one with locks := [pad 256] } (pad 511) 1 = some (pad 256) ∧
    homeLost { one with pkstat := { lost := 1 } } (pad 0) = true ∧ homeLost one (pad 0) = false :=
  ⟨by decide +kernel, by decide +kernel, by decide +kernel, by decide +kernel, by decide +kernel⟩

/-- What the frame of a store asks for. -/
theorem wit_store_frame : Unguarded one ∧ NoRequests one ∧ inBody one.team = false ∧ ordered one.team = false ∧
    one.team.capBuf = [] ∧ ordStores one.team.obuf = [] ∧ OffPage (pad 0xFFF0) 16 ∧ cachedLoc one (pad 0) = false ∧
    (∀ j < 16, mapGet none one.dirty (dirtyKey (placeKey one.team.place) (pad 0 + j)) = none) :=
  ⟨one_quiet.2.2, one_quiet.1, rfl, by decide +kernel, rfl, rfl, by simp only [OffPage]; decide +kernel, by decide +kernel,
   by decide +kernel⟩

def ao (a : SReg) (dw : Bool) (ord : MOrder := .plain) : AtomOps := ⟨10, r a, none, dw, false, r 2, ord⟩
def vo (op : AtomOp) (nr : Bool) : VatomOps := ⟨op, 10, 2, true, false, r 1, v 4, v 2, nr, .plain⟩

/-- The completion of an atomic over the host port has come to the team that waits for it. -/
theorem wit_atomic_reply : Replied (answeredIn one {}) {} ∧ decide (targetOf (locHost 64) = .host ∨ targetOf (locHost 64) = .peer) = true ∧
    releaseWaits one (MOrder.relScope .plain) = false ∧ (served (.acq .dev) false one).service = [] :=
  ⟨replied_of (by decide +kernel), by decide +kernel, by decide +kernel, rfl⟩

theorem wit_atomics : (∀ i ∈ ([.atomAdd (ao 1 true), .atomAnd (ao 1 false), .atomOr (ao 1 true), .atomXor (ao 1 true),
    .atomMin (ao 1 false), .atomMax (ao 1 true), .atomMinn (ao 1 true), .atomMaxn (ao 1 true), .atomSwap (ao 1 true),
    .atomCas (ao 1 true) (r 4), .atomFadd (ao 1 false), .vatom (vo .add false), .vatom (vo .cas false), .vatom (vo .fadd true)] :
    List Instr), Goes i one one) ∧
    one = release one (MOrder.relScope .plain) ∧ atomAcc one .add true false (addressOf one.team (r 1) none) 8 = .ok (pad 0) ∧
    decide (targetOf (pad 0) = .host) = false ∧ ordered one.team = false ∧ quota one one.team.part 3 ≠ 0 ∧
    askService.entriesAt one (ownerCluster (pad 0)) one.team.part < quota one one.team.part 3 ∧
    (∀ l ∈ workLanes one.team 2, atomAcc one .add true true (sget one.team 1 + vget one.team l 4) 8 = .ok (pad 0)) ∧
    Goes (.atomAdd (ao 1 true)) (oneT fun t => { t with mode := 0x20 }) (oneT fun t => { t with mode := 0x20 }) ∧
    atomAcc (oneT fun t => { t with mode := 0x20 }) .add true false (win 0) 8 = .ok (pad 0) :=
  ⟨allGo (by decide +kernel), rfl, by decide +kernel, by decide +kernel, by decide +kernel, by decide +kernel,
   by decide +kernel, by decide +kernel, goes_of (by decide +kernel), by decide +kernel⟩

/-- A request that a service team performs. -/
theorem wit_atomic_act : one.dirty = [] ∧ Unguarded one ∧ poisonedIn one (pad 8) 8 = false ∧ memNat one (pad 8) 8 = 0 ∧
    poisonedIn { one with poisonGranules := [(pad 8) / 16] } (pad 8) 8 = true :=
  ⟨rfl, one_quiet.2.2, by decide +kernel, by decide +kernel, by decide +kernel⟩

theorem wit_reads : (5 : Nat) < 256 ^ 1 ∧ pad 0 + 1 ≤ pad 1 := ⟨by decide, by decide⟩

theorem wit_fences_hints : (∀ i ∈ ([.fenceAcq .sys, .fenceRel .team, .fenceRel .block, .fenceRel .core, .fenceRel .die, .fenceAr .dev, .pfL1 (r 1) none,
    .pfL2 (r 7) (some 8), .cwb (r 7) none, .cwb (r 6) none, .cinv (r 7) none, .cinv (r 6) none] : List Instr), Goes i one one) ∧
    locate one one.team.who (addressOf one.team (r 7) none) 1 1 .none = .ok 0x31000 ∧
    locate one one.team.who (addressOf one.team (r 6) none) 1 1 .none = .error 0x11 ∧ mapWf none one.dirty = true ∧
    placeKey one.team.place < 2 ^ 10 :=
  ⟨allGo (by decide +kernel), ok_of (by decide +kernel), err_of (by decide +kernel), rfl, by decide +kernel⟩

/-- Two stores of one instruction, off the page of the program, of bytes that the cache holds none of. -/
def twoStores : List BufStore := [⟨pad 0, [1, 2]⟩, ⟨pad 1, [3]⟩]

theorem wit_stores_of_one : (inBody one.team = false → one.team.capBuf = []) ∧
    (inBody one.team = false → ordered one.team = false → ordStores one.team.obuf = []) ∧
    (∀ x ∈ twoStores, OffPage x.loc x.data.length ∧ ∀ j < x.data.length, cachedLoc one (x.loc + j) = cachedLoc one x.loc ∧
      (cachedLoc one x.loc = false → mapGet none one.dirty (dirtyKey (placeKey one.team.place) (x.loc + j)) = none)) ∧
    At (⟨pad 0, [1, 2]⟩ : BufStore) (pad 0) ∧ ¬At (⟨pad 1, [3]⟩ : BufStore) (pad 0) ∧ targetOf (pad 2) ≠ .page ∧
    (∀ x ∈ twoStores, ¬At x (pad 2)) :=
  ⟨fun _ => rfl, fun _ _ => rfl, by simp only [OffPage]; decide +kernel, by simp only [At]; decide +kernel,
   by simp only [At]; decide +kernel, by decide +kernel, by simp only [At]; decide +kernel⟩

/-- The Compute Link of die 0 retrains, and the core holds a dirty byte that goes over it. -/
def heldByte : State :=
  { setLink one 0 { retraining := true } with dirty := [(dirtyKey 0 (locBase 4 + 4 * 2 ^ 26), some ⟨5, 0, one.team.place, false⟩)] }

theorem wit_vst_waits : Goes (.vstIx (xo .b 2 (.rel .dev))) heldByte heldByte ∧ NoRequests heldByte ∧
    (∀ l ∈ workLanes heldByte.team 2, access heldByte (ixAddress heldByte.team (xo .b 2) l) 1 1 .wr = .ok (pad (8 + l))) ∧
    releaseWaits heldByte (MOrder.relScope (.rel .dev)) = true :=
  ⟨goes_of (by decide +kernel), fun _ h => absurd h List.not_mem_nil, by decide +kernel, by decide +kernel⟩

/-- ATOM on a poisoned granule, and in ordered mode. -/
def poisonedWord : State := { one with poisonGranules := [pad 0 / 16] }

theorem wit_atom_poison : Issues (.atomAdd (ao 1 true)) poisonedWord poisonedWord ∧
    hostRefuses poisonedWord .add true false (addressOf poisonedWord.team (r 1) none) = false ∧
    access poisonedWord (addressOf poisonedWord.team (r 1) none) 8 8 .atomic = .ok (pad 0) ∧
    poisonedIn (flushLines poisonedWord (pad 0) 8) (pad 0) 8 = true ∧ poisonedWord.dirty = [] ∧
    poisonedWord.pkstat.lost = 0 ∧
    quota (oneT fun t => { t with mode := 0x20 }) one.team.part 3 ≠ 0 ∧ targetOf (locHost 64) = .host :=
  ⟨issues_of (by decide +kernel), by decide +kernel, by decide +kernel, by decide +kernel, rfl, rfl, by decide +kernel,
   by decide +kernel⟩

end Sys2Proof.Tests
end

