-- ==== Sys2Proof/Tests/WitnessesSync.lean ====
section
/-! SUPPORT. Witnesses for the statements about synchronisation and capsules. -/

namespace Sys2Proof.Tests

set_option Elab.async false

open Sys2Proof Sys2Proof.Machine

/-- Words of 8 bytes written from a scratchpad offset on. -/
def withWords (s : State) (off : Nat) (ws : List Nat) : State :=
  { s with mem := writeCells s.mem (pad off) (ws.flatMap (bytesOfNat 8)) }

theorem one_asks : Asks one := by unfold Asks Settled AllOpen; decide +kernel

/-! ### Full and empty, counters -/

def lo (size : MSize) (a : SReg) : LdfeOps := ⟨10, r a, size, false⟩
/-- The first granule of the block is full. -/
def full1 : State := { one with full := [(pad 0) / 16] }

theorem wit_full_empty : (∀ i ∈ ([.ldfeK (lo .d 1), .ldfeC (lo .w 1), .ldfeK (lo .p 1), .ldfeC (lo .p 1)] : List Instr),
    Goes i full1 full1 ∧ Goes i one one) ∧ Settled full1 ∧ ordered full1.team = false ∧
    inScratchWindow (sget full1.team 1).toNat = true ∧ access full1 (sget full1.team 1) 8 8 .rd = .ok (pad 0) ∧
    access full1 (sget full1.team 1) 16 16 .rd = .ok (pad 0) ∧ (pad 0) / 16 ∈ full1.full ∧ (pad 0) / 16 ∉ one.full ∧
    full1.bank = [] ∧ full1.team.status ≠ .vacant ∧ Replied (answeredIn full1 { vals := [7, 8], poison := true }) { vals := [7, 8], poison := true } ∧
    Judged (.ldfeK (lo .d 7)) (r 7) one one ∧ inScratchWindow (sget one.team 7).toNat = false := by
  have h1 := allGo (is := [.ldfeK (lo .d 1), .ldfeC (lo .w 1), .ldfeK (lo .p 1), .ldfeC (lo .p 1)]) (s := full1) (by decide +kernel)
  have h2 := allGo (is := [.ldfeK (lo .d 1), .ldfeC (lo .w 1), .ldfeK (lo .p 1), .ldfeC (lo .p 1)]) (s := one) (by decide +kernel)
  exact ⟨fun i hi => ⟨h1 i hi, h2 i hi⟩, by unfold Settled; decide +kernel, by decide +kernel, by decide +kernel, by decide +kernel,
    by decide +kernel, by decide +kernel, by decide +kernel, rfl, by decide +kernel, replied_of (by decide +kernel),
    judged_of (by decide +kernel), by decide +kernel⟩

/-- A count at n and one above it, with no operation recorded. -/
theorem wit_counters : Goes (.waitc .mxa 3) (oneT fun t => { t with cntMxa := 3 }) (oneT fun t => { t with cntMxa := 3 }) ∧
    Goes (.waitc .cpy 62) (oneT fun t => { t with cntCpy := 63 }) (oneT fun t => { t with cntCpy := 63 }) ∧
    one.engines = [] := ⟨goes_of (by decide +kernel), goes_of (by decide +kernel), rfl⟩

/-! ### Barriers -/

/-- A barrier object at offset 0: phase, cross, EXPA, DEFB, EXPB, ARRIVED, LANDED. -/
def barred (b : BarObj) : State :=
  let s := writeObj one (pad 0) b
  { s with full := [(pad 0) / 16, (pad 16) / 16], tags := [pad 0] }

/-- An object that expects two arrivals and 16 bytes. -/
def obj2 : BarObj := ⟨7, false, 2, 16, 16, 0, 0⟩

theorem wit_at_object : AtObject one .wr (sget one.team 1) (pad 0) :=
  ⟨loc_of (by decide +kernel), by decide +kernel, by decide +kernel, by decide +kernel, by decide +kernel⟩

theorem wit_at_object_ready : AtObject (barred obj2) .rd (sget (barred obj2).team 1) (pad 0) ∧ Settled (barred obj2) ∧
    objReady (barred obj2) (pad 0) = true ∧ readObj (barred obj2) (pad 0) = obj2 :=
  ⟨⟨loc_of (by decide +kernel), by decide +kernel, by decide +kernel, by decide +kernel, by decide +kernel⟩,
   by unfold Settled; decide +kernel, by decide +kernel, by decide +kernel⟩

theorem wit_barriers : (∀ i ∈ ([.barInit false (r 1) (r 2) (r 5), .barArr 10 (r 1), .barArrx 10 (r 1), .barWait (r 1) (.imm 255),
    .barWait (r 1) (.reg (r 2)), .barExpb (r 1) (r 6)] : List Instr), Goes i one one) ∧
    (∀ i ∈ ([.barArr 10 (r 1), .barArrx 10 (r 1), .barWait (r 1) (.imm 6), .barWait (r 1) (.imm 7),
      .barExpb (r 1) (r 5)] : List Instr), Goes i (barred obj2) (barred obj2)) ∧
    (sget one.team 2).toNat % 2 ^ 16 ≠ 0 ∧ (∀ q ∈ one.bank, q.obj ≠ pad 0) ∧ objReady one (pad 0) = false ∧
    Goes (.barInit false (r 1) (r 2) (r 5)) (oneT fun t => { t with mode := 0x20 }) (oneT fun t => { t with mode := 0x20 }) ∧
    one.bank = [] ∧ Replied (answeredIn one { vals := [7], full := true }) { vals := [7], full := true } :=
  ⟨allGo (by decide +kernel), allGo (by decide +kernel), by decide +kernel, by decide, by decide +kernel,
   goes_of (by decide +kernel), rfl, replied_of (by decide +kernel)⟩

/-- Phases gone at the two ends of the range, and outside it. -/
theorem wit_phases : ∀ x ∈ ([(6, true), (7, false), (0x80000007, true), (0x80000006, false)] : List (Nat × Bool)),
    decide (1 ≤ (obj2.phase + (2 ^ 32 - x.1)) % 2 ^ 32 ∧ (obj2.phase + (2 ^ 32 - x.1)) % 2 ^ 32 ≤ 2 ^ 31) = x.2 := by
  decide

/-- Two halves of a straddling block with a cross object in each. -/
def crossed : State :=
  let s := barred { obj2 with x := true, expa := 1, expb := 0 }
  { s with blocks := [⟨0, 0, 0, 0, 0, true, false, 0, 65536⟩, ⟨0, 0, 0, 1, 0, true, true, 0, 65536⟩] }

theorem wit_arrivals : objReady (barred obj2) (pad 0) = true ∧ obj2.arrived < obj2.expa ∧ obj2.arrived + 1 ≠ obj2.expa ∧
    readObj (barred { obj2 with arrived := 1, landed := 20 }) (pad 0) = { obj2 with arrived := 1, landed := 20 } ∧
    objReady crossed (pad 0) = true ∧ readObj crossed (pad 0) = { obj2 with x := true, expa := 1, expb := 0 } ∧
    crossOf crossed (pad 0) = ⟨pad 0, false, 0⟩ ∧ twinObj crossed (pad 0) = some (pad 0 + 2 ^ 26) ∧
    arrive one (pad 0) false = .wait ∧ arrive (barred obj2) (pad 0) true = .wrongKind :=
  by decide +kernel

theorem wit_cross_init : straddleBlock { one with blocks := crossed.blocks } = true ∧
    Goes (.barInit true (r 1) (r 2) (r 5)) { one with blocks := crossed.blocks } { one with blocks := crossed.blocks } :=
  ⟨by decide +kernel, goes_of (by decide +kernel)⟩

/-! ### Queues and dispensers -/

/-- A queue of 8 slots at offset 0x400 with its header at 0x200, and the launch whose dispenser 7 has the same header. -/
def queued (cap head tail : Nat) : State :=
  let s := withWords one 0x200 [localBase + 0x400, cap, head, tail]
  { s with levels := [{ kind := .launch, part := 0, handle := 0, serial := 0,
                        tqhdr := [0, 0, 0, 0, 0, 0, 0, win 0x200] }] }

/-- A queue with one word, counted across the wrap of its counts; a full one; an empty one. -/
theorem wit_queues : (∀ i ∈ ([.qpush (r 3) (r 2), .qpop 10 (r 3)] : List Instr), Goes i (queued 3 (2 ^ 64 - 1) 0) (queued 3 (2 ^ 64 - 1) 0)) ∧
    AtHeader (queued 3 (2 ^ 64 - 1) 0) (win 0x200) (pad 0x200) (localBase + 0x400) 3 (2 ^ 64 - 1) 0 ∧
    AtHeader (queued 3 0 8) (win 0x200) (pad 0x200) (localBase + 0x400) 3 0 8 ∧ inUse 0 8 = 2 ^ 3 ∧
    inUse (2 ^ 64 - 1) 0 = 1 ∧ (localBase + 0x400) % 8 = 0 ∧
    locate (queued 3 (2 ^ 64 - 1) 0) one.team.who (BitVec.ofNat 64 (localBase + 0x400 + 0 % 2 ^ 3 * 8)) 8 1 .wr = .ok (pad 0x400) ∧
    locate (queued 3 (2 ^ 64 - 1) 0) one.team.who (BitVec.ofNat 64 (localBase + 0x400 + (2 ^ 64 - 1) % 2 ^ 3 * 8)) 8 1 .rd =
      .ok (pad 0x438) ∧ poisonedIn (queued 3 (2 ^ 64 - 1) 0) (pad 0x438) 8 = false ∧
    AtHeader (queued 3 5 5) (win 0x200) (pad 0x200) (localBase + 0x400) 3 5 5 ∧ Replied (answeredIn one { vals := [7] }) { vals := [7] } :=

  ⟨allGo (by decide +kernel), by unfold AtHeader Asks Settled AllOpen; decide +kernel, by unfold AtHeader Asks Settled AllOpen; decide +kernel,
   by decide, by decide, by decide, ok_of (by decide +kernel), ok_of (by decide +kernel), by decide +kernel,
   by unfold AtHeader Asks Settled AllOpen; decide +kernel, replied_of (by decide +kernel)⟩

/-- Dispensers of capacity 65536 and 1, and counts of two experts in tiles of 2 rows. -/
def counted : State := withWords (queued 65536 1 2) 0 [3 + 1 * 2 ^ 32]

theorem wit_dispensers : (∀ i ∈ ([.tqget 10 7, .tqadd 7 (r 2) (r 6)] : List Instr), Goes i (queued 65536 1 2) (queued 65536 1 2)) ∧
    tqHeader (queued 65536 1 2) 7 = win 0x200 ∧
    AtHeader (queued 65536 1 2) (win 0x200) (pad 0x200) (localBase + 0x400) 65536 1 2 ∧
    AtHeader (queued 1 1 2) (win 0x200) (pad 0x200) (localBase + 0x400) 1 1 2 ∧ inUse 1 2 = 1 ∧
    AtHeader (queued 1 2 2) (win 0x200) (pad 0x200) (localBase + 0x400) 1 2 2 ∧
    locate (queued 65536 1 2) one.team.who (BitVec.ofNat 64 (localBase + 0x400 + 1 % 65536 * 16)) 16 1 .rd = .ok (pad 0x410) ∧
    locate (queued 65536 1 2) one.team.who (BitVec.ofNat 64 (localBase + 0x400 + 2 % 65536 * 16)) 16 1 .wr = .ok (pad 0x420) ∧
    poisonedIn (queued 65536 1 2) (pad 0x410) 16 = false :=
  ⟨allGo (by decide +kernel), by decide +kernel, by unfold AtHeader Asks Settled AllOpen; decide +kernel,
   by unfold AtHeader Asks Settled AllOpen; decide +kernel, by decide, by unfold AtHeader Asks Settled AllOpen; decide +kernel, ok_of (by decide +kernel),
   ok_of (by decide +kernel), by decide +kernel⟩

theorem wit_tile_fill : Goes (.tqfill 10 7 (r 1) (r 8) (r 9)) (withTeam counted fun t => sset (sset t 8 2) 9 2)
      (withTeam counted fun t => sset (sset t 8 2) 9 2) ∧
    locateSpan counted counted.team.who .rd (sget counted.team 1) 8 = .ok [(pad 0, 8)] ∧
    piecesPoisoned counted [(pad 0, 8)] = false ∧
    ((List.range 2).map fun e => natAt (readPieces counted 0 [(pad 0, 8)]) (4 * e) 4) = [3, 1] ∧
    ∃ s2, appendTiles counted (ownerCluster (pad 0x200)) counted.team ⟨win 0x400, 65536, 1, 2⟩ 0 (sortTiles (tilesOf 2 0 0 [3, 1])) = .ok s2 :=
  ⟨goes_of (by decide +kernel), ok_of (by decide +kernel), by decide +kernel, by decide +kernel, someOk (by decide +kernel)⟩

theorem wit_tiles : 1 ≤ 2 ∧ (sortTiles (tilesOf 2 0 0 [3, 0, 5, 2])).length = 6 := ⟨by decide, by decide +kernel⟩

/-! ### Capsules -/

/-- A lock record at offset 0x200 with its first words. -/
def locked (w0 w1 w2 w3 entry : Nat) : State := withWords one 0x200 [w0, w1, w2, w3, entry]

/-- A free record, and one parked by this partition at step 3. -/
theorem wit_capsule_entry : Goes (.capEnter (r 3) 13 5) (locked 0 0 0 0 0) (locked 0 0 0 0 0) ∧
    access (locked 0 0 0 0 0) (sget one.team 3) 256 256 .atomic = .ok (pad 0x200) ∧
    (sget one.team 3).toNat % 4096 + 256 * ((13 : BitVec 4).toNat + 1) ≤ 4096 ∧ targetOf (pad 0x200) ≠ .host ∧
    targetOf (pad 0x200) ≠ .peer ∧ poisonedIn one (pad 0x200) 256 = false ∧ one.capWait = [] ∧
    capEntries one one.team.part < quota one one.team.part 2 ∧ wordAt_ (locked 0 0 0 0 0) (pad 0x200) % 2 = 0 ∧
    Goes (.capEnter (r 3) 13 5) (locked (4 * 2 ^ 32 + 1) 9 2 3 0x100) (locked (4 * 2 ^ 32 + 1) 9 2 3 0x100) ∧
    wordAt_ (locked (4 * 2 ^ 32 + 1) 9 2 3 0x100) (pad 0x200) % 2 = 1 ∧
    wordAt_ (locked (4 * 2 ^ 32 + 1) 9 2 3 0x100) (pad 0x210) % 4 = 2 ∧
    wordAt_ (locked (4 * 2 ^ 32 + 1) 9 2 3 0x100) (pad 0x208) / 2 ^ 60 = one.team.part.toNat :=
  ⟨goes_of (by decide +kernel), by decide +kernel, by decide +kernel, by decide +kernel, by decide +kernel,
   by decide +kernel, rfl, by decide +kernel, by decide +kernel, goes_of (by decide +kernel), by decide +kernel,
   by decide +kernel, by decide +kernel⟩

def hold1 : CapHold := ⟨pad 0x200, 512, 4, 0x20, 0x20⟩

/-- The team holds the record's instance 4 at a step. -/
def inCap (step : Nat) : State :=
  withTeam { locked (4 * 2 ^ 32 + 1) (ownerWord one.team).toNat 1 step 4 with locks := [pad 0x200] } fun t =>
    { t with held := some hold1, mystep := step, capBuf := [⟨pad 0x300, [1, 2]⟩], capCount := 2 }

/-- Steps 0 and 15, the last that may commit. -/
theorem wit_capsule_steps : (∀ i ∈ ([.capCommit, .capExit, .capAbort] : List Instr), Goes i (inCap 0) (inCap 0)) ∧
    InCapsule (inCap 0) hold1 ∧ InCapsule (inCap 15) hold1 ∧ wordAt_ (inCap 15) (pad 0x218) % 32 = 15 ∧
    Goes .capCommit (inCap 15) (inCap 15) ∧ wordAt_ (inCap 0) (pad 0x218) % 32 = 0 ∧
    Replied (answeredIn (inCap 0) { vals := [0x20] }) { vals := [0x20] } ∧ one.team.parks = [] :=
  ⟨allGo (by decide +kernel), by unfold InCapsule Asks Settled AllOpen; decide +kernel, by unfold InCapsule Asks Settled AllOpen; decide +kernel, by decide +kernel,
   goes_of (by decide +kernel), by decide +kernel, replied_of (by decide +kernel), rfl⟩

end Sys2Proof.Tests
end

