-- ==== Sys2Proof/Tests/WitnessesStops.lean ====
section
/-! SUPPORT. Witnesses for the statements about the matrix instructions, the engines, the special registers, stops and the
system-mode instructions. -/

namespace Sys2Proof.Tests

set_option Elab.async false

open Sys2Proof Sys2Proof.Machine

/-! ### Engines and matrix -/

/-- The checks of pieces come out as given. -/
def piecesAre (c : LaneChk) (ps : List (Nat × Nat)) : Bool := match c with
  | .ok qs => decide (qs = ps)
  | _ => false

theorem pieces_of {c : LaneChk} {ps : List (Nat × Nat)} (h : piecesAre c ps = true) : c = .ok ps := by
  unfold piecesAre at h
  split at h <;> simp_all

/-- A descriptor of CPY with two dimensions at offset 0x200. -/
def cpyDesc : State := withWords one 0x200 [0x200, 4, localBase, localBase + 0x1000, 0, 0, 0, 0, 2, 8, 8, 3, 64, 64]

theorem wit_engines : (∀ i ∈ ([.engCpy (r 3) (r 0), .engGath (r 3) (r 1), .engSortc (r 3) (r 0), .engColl (r 3) (r 7)] : List Instr),
    Goes i cpyDesc cpyDesc) ∧ cpyDesc.service = [] ∧ cntOf cpyDesc.team .cpy < 63 ∧
    DescriptorAt cpyDesc (sget cpyDesc.team 3) 64 (pieceBytes cpyDesc [(pad 0x200, 64)]) ∧
    natAt (pieceBytes cpyDesc [(pad 0x200, 64)]) 1 1 = 2 ∧
    DescriptorAt cpyDesc (sget cpyDesc.team 3) 112 (pieceBytes cpyDesc [(pad 0x200, 64), (pad 0x240, 48)]) ∧
    (parseCpy cpyDesc cpyDesc.team.who (pieceBytes cpyDesc [(pad 0x200, 64), (pad 0x240, 48)])).isSome = true ∧
    inScratchWindow (sget cpyDesc.team 1).toNat = true ∧ heldByHalt cpyDesc (pad 0) = false ∧
    decodeWindow cpyDesc cpyDesc.team.who (sget cpyDesc.team 1).toNat 32 .wr = some (.ok (pad 0)) ∧
    63 ≤ cntOf { cpyDesc.team with cntCpy := 63 } .cpy ∧ 63 ≤ cntOf { cpyDesc.team with cntGth := 63 } .gth ∧
    63 ≤ cntOf { cpyDesc.team with cntCol := 63 } .col ∧ NoRequests cpyDesc ∧ sget cpyDesc.team 7 ≠ 0 ∧
    (sget cpyDesc.team 7).toNat < 2 ^ 52 ∧ inScratchWindow (sget cpyDesc.team 7).toNat = false :=
  ⟨allGo (by decide +kernel), rfl, by decide +kernel, ⟨[(pad 0x200, 64)], pieces_of (by decide +kernel), by decide +kernel, rfl⟩,
   by decide +kernel, ⟨[(pad 0x200, 64), (pad 0x240, 48)], pieces_of (by decide +kernel), by decide +kernel, rfl⟩,
   by decide +kernel, by decide +kernel, by decide +kernel, loc_of (by decide +kernel), by decide +kernel, by decide +kernel,
   by decide +kernel, fun _ h => absurd h List.not_mem_nil, by decide +kernel, by decide +kernel, by decide +kernel⟩

def ml : MxloopOps := ⟨true, r 1, r 1, r 3, 3, 15, 0, true, false⟩
def me : MxeOps := ⟨true, r 1, r 3, 3, 15, 0, false, true⟩
def mg : MxgOps := ⟨true, r 1, r 3, 2, true⟩
def mc : MxaccOps := ⟨true, r 1, r 5, r 2, .bf16, true⟩

theorem wit_matrix_hand_on : (∀ i ∈ ([.mxls (r 1) (r 3), .mxswap, .mxloop ml, .mxloop { ml with l1 := 7 }, .mxloopE me, .mxloopG mg,
    .mxacc mc] : List Instr), Goes i one one) ∧ MxReady one ∧
    BytesAt one (sget one.team 3) 64 (pieceBytes one [(pad 0x200, 64)]) ∧
    MxAllowed one [(sget one.team 3, 64, 8, .rd), (sget one.team 1, 16384, 1, .rd)] ∧
    MxAllowed one ((sget one.team 3, 64, 8, .rd) :: planeAt ml.ks ml.keep (sget one.team 1)) ∧
    MxAllowed one ((sget one.team 3, 64, 8, .rd) :: planeAt me.ks me.keep (sget one.team 1)) ∧
    MxAllowed one [(sget one.team 3, 64, 8, .rd), (sget one.team 1, 32 * mg.g.toNat, 1, .rd)] ∧
    BytesAt one (sget one.team 1) 64 (pieceBytes one [(pad 0, 64)]) ∧ (sget one.team 2).toNat ≤ 256 ∧
    MxAllowed one ((List.range (sget one.team 2).toNat).map fun (k : Nat) =>
      (addrPlus (sget one.team 1).toNat ((k : Int) * (sget one.team 5).toInt), 128 * (Fmt.bf16.bits / 8), 1, .wr)) :=
  ⟨allGo (by decide +kernel), by unfold MxReady; decide +kernel,
   ⟨[(pad 0x200, 64)], ok_of (by decide +kernel), by decide +kernel, rfl⟩,
   ⟨[(pad 0x200, 64), (pad 0, 16384)], pieces_of (by decide +kernel)⟩,
   ⟨[(pad 0x200, 64), (pad 0, 16384)], pieces_of (by decide +kernel)⟩,
   ⟨[(pad 0x200, 64)], pieces_of (by decide +kernel)⟩, ⟨[(pad 0x200, 64), (pad 0, 64)], pieces_of (by decide +kernel)⟩,
   ⟨[(pad 0, 64)], ok_of (by decide +kernel), by decide +kernel, rfl⟩, by decide +kernel,
   ⟨[(pad 0, 256), (pad 8, 256), (pad 16, 256), (pad 24, 256), (pad 32, 256)], pieces_of (by decide +kernel)⟩⟩

def mma (c : Option VSrc) (fa fb : Fmt) : MmaOps := ⟨8, 0, v 2, v 4, c, fa, fb⟩
/-- A core of the hall. -/
def hallT (f : Team → Team) : State := oneT fun t => f { t with place := ⟨8, 0, 0⟩ }

theorem wit_matrix_products : (∀ i ∈ ([.mmaArray (mma none .bf16 .fp16), .mmaLanes (mma (some (v 12)) .i8 .i8),
    .mmaAny (mma none .e4m3 .dm8)] : List Instr), Goes i one one) ∧ ArrayReady one (mma none .bf16 .fp16) ∧ LanesReady one (mma none .bf16 .fp16) ∧
    wordsOn one.team 0 = [0] ∧ wordsOn { one.team with em := 0 } 0 = [] ∧
    Goes (.mmaAny (mma none .bf16 .bf16)) (hallT id) (hallT id) ∧ LanesReady (hallT id) (mma none .bf16 .bf16) :=
  ⟨allGo (by decide +kernel), by unfold ArrayReady; decide +kernel, by unfold LanesReady; decide +kernel, by decide +kernel,
   by decide +kernel, goes_of (by decide +kernel), by unfold LanesReady; decide +kernel⟩

/-- The accumulator and the elements at both ends of their range, and a permutation. -/
theorem wit_integer_sums : (2 ^ 32 - 1 < 2 ^ 32) ∧ [(128, 128), (127, 255)].Perm [(127, 255), (128, 128)] :=
  ⟨by decide, List.Perm.swap _ _ _⟩

/-! ### Rates, annexes and special registers -/

theorem wit_special_registers : (∀ i ∈ ([.annexHintClr (r 7) (r 4), .annexHintPin (r 7) (r 4) 7, .annexHintFloor (r 7) (r 4) 0,
    .annexHintCeil (r 7) (r 4) 3, .rateGetB 10, .rateGetE 63, .rateSet (r 6), .rateClr, .gets 10 0, .gets 10 20, .gets 0 21, .sets 1 (r 6),
    .sets 2 (r 6), .sets 4 (r 6), .sets 7 (r 6), .sets 8 (r 6), .sets 21 (r 6)] : List Instr), Goes i one one) ∧
    sget one.team 4 = 1 ∧ hintTarget one (sget one.team 7) = some 3 :=
  ⟨allGo (by decide +kernel), by decide +kernel, by decide +kernel⟩

/-! ### Stops -/

/-- A partition whose system-call ring of 16 entries lies at 0x1000. -/
def ringed : State :=
  setPart one 0 { partOf one 0 with scEn := true, scBase := 0x20, scAsid := 0, dbgAttach := true }

theorem wit_traps : Issues (.trap 2047) one one ∧ Goes (.bkpt 0) one one ∧ (partOf one 0).dbgAttach = false ∧
    Issues (.bkpt 7) ringed ringed ∧ (partOf ringed 0).dbgAttach = true ∧ Issues (.sysc 5) one one ∧
    ringOpen (partOf one 0) = false ∧ Issues (.sysc 5) ringed ringed ∧ ringOpen (partOf ringed 0) = true ∧
    Settled ringed ∧ Unguarded ringed ∧
    hallSpan ringed 0 (partOf ringed 0).scAsid .wr (ringSlot (partOf ringed 0)) 128 = some [(0x31000, 128)] ∧
    Replied (answeredIn one {}) {} :=
  ⟨issues_of (by decide +kernel), goes_of (by decide +kernel), by decide +kernel, issues_of (by decide +kernel),
   by decide +kernel, issues_of (by decide +kernel), by decide +kernel, issues_of (by decide +kernel), by decide +kernel,
   by unfold Settled; decide +kernel, by unfold Unguarded; decide +kernel, by decide +kernel, replied_of (by decide +kernel)⟩

/-- The stores of a frame are done, fault, or are held. -/
def framedIs (x : Framed) : Nat := match x with
  | .ok _ => 0
  | .fault => 1
  | .hold _ => 2

theorem framed_ok {x : Framed} (h : framedIs x = 0) : ∃ s, x = .ok s := by
  cases x with
  | ok s => exact ⟨s, rfl⟩
  | fault => cases h
  | hold w => cases h

theorem framed_held {x : Framed} (h : framedIs x = 2) : ∃ w, x = .hold w := by
  cases x with
  | ok s => cases h
  | fault => cases h
  | hold w => exact ⟨w, rfl⟩

/-- A continuation at the line's third parcel and a frame in scratchpad, with one set-aside already. -/
def caught : State := oneT fun t => { t with fcont := 8, fframe := win 0x1000, setAsides := [⟨3, [], [], 0, 0, 1⟩] }

theorem wit_redirection : inBody caught.team = false ∧ redirected 1 = true ∧ caught.team.fcont ≠ 0 ∧
    caught.team.setAsides.length < 2 ∧
    (∃ s1, storePieces (drain caught) caught.team.fframe 4 (frameBytes caught.team { cause := 1, pc := 4 }) = .ok s1) ∧
    (∃ w, storePieces { caught with pkstat := { halted := 1 } } caught.team.fframe 4
      (frameBytes caught.team { cause := 1, pc := 4 }) = .hold w) ∧
    framedIs (storePieces one (win 0xFF00) 4 (frameBytes one.team { cause := 1, pc := 4 })) = 1 ∧
    contOk caught caught.team caught.team.fcont = true ∧ one.team.fcont = 0 ∧ one.team.status ≠ .vacant ∧
    redirected 0x50 = false :=
  ⟨by decide +kernel, by decide +kernel, by decide +kernel, by decide +kernel, framed_ok (by decide +kernel), framed_held (by decide +kernel),
   by decide +kernel, by decide +kernel, by decide +kernel, by decide +kernel, by decide +kernel⟩

theorem wit_stop_in_body : (inCap 3).team.status ≠ .vacant ∧ (inCap 3).team.held = some hold1 ∧ (inCap 3).dirty = [] ∧
    (∀ p, ringOpen (partOf (inCap 3) p) = false) ∧ owns (inCap 3) (inCap 3).team hold1.rcd = true :=
  ⟨by decide +kernel, by decide +kernel, by decide +kernel, by decide +kernel, by decide +kernel⟩

/-- A frame whose DONE is set, and one whose DONE is 0, each to the line's first parcel. -/
def framed (done : Nat) : State := withWords one 0x200 [done]

theorem framed_at (done : Nat) (h : piecesAre (framePieces (framed done) (win 0x200))
      [(pad 0x200, 256), (pad 0x300, 256), (pad 0x400, 256), (pad 0x500, 256)] = true ∧
    (pieceBytes (framed done) [(pad 0x200, 256), (pad 0x300, 256), (pad 0x400, 256), (pad 0x500, 256)]).length = 1024 ∧
    natAt (pieceBytes (framed done) [(pad 0x200, 256), (pad 0x300, 256), (pad 0x400, 256), (pad 0x500, 256)]) 16 8 < 2 ^ 63 ∧
    ([(pad 0x200, 256), (pad 0x300, 256), (pad 0x400, 256), (pad 0x500, 256)].any fun x => poisonedIn (framed done) x.1 x.2) = false ∧
    (framed done).service = [] ∧ scalarsDue (framed done).team = [] ∧
    badTarget (framed done) (framed done).team (BitVec.ofNat 64 (natAt (pieceBytes (framed done)
      [(pad 0x200, 256), (pad 0x300, 256), (pad 0x400, 256), (pad 0x500, 256)]) 8 8)) = none) :
    FrameAt (framed done) (win 0x200)
      (pieceBytes (framed done) [(pad 0x200, 256), (pad 0x300, 256), (pad 0x400, 256), (pad 0x500, 256)]) :=
  ⟨_, pieces_of h.1, h.2.2.2.1, rfl, h.2.1, fun _ hx => by simp [h.2.2.2.2.1] at hx, h.2.2.2.2.2.1, .inl h.2.2.1, .inr h.2.2.2.2.2.2⟩

theorem wit_returns : Issues (.rft (r 3)) (framed 0) (framed 0) ∧ Issues (.resume (r 3)) (framed 1) (framed 1) ∧
    Issues (.resume (r 3)) (framed 0) (framed 0) ∧ (∃ bs, FrameAt (framed 0) (win 0x200) bs ∧ natAt bs 0 8 = 0) ∧
    (∃ bs, FrameAt (framed 1) (win 0x200) bs ∧ natAt bs 0 8 ≠ 0) ∧ sget (framed 1).team 3 = win 0x200 :=
  ⟨issues_of (by decide +kernel), issues_of (by decide +kernel), issues_of (by decide +kernel),
   ⟨_, framed_at 0 (by decide +kernel), by decide +kernel⟩, ⟨_, framed_at 1 (by decide +kernel), by decide +kernel⟩,
   by decide +kernel⟩

/-- An instruction that a body may not hold, an illegal use, an empty source that is not waited for, a register that waits for
a broadcast, and a poisoned one. -/
theorem wit_issue_order : bodyBreach (.vlid 1 0 .b) (inCap 0) = true ∧ bodyBreach (.addi 16 (r 1) 0) (inCap 0) = true ∧
    bodyBreach .join one = false ∧ (preUse .join one).isSome = true ∧
    (emptySource (Instr.uses (.addi 1 ⟨11, false⟩ 0)) due.team).isSome = true ∧
    preUse (.addi 1 ⟨11, false⟩ 0) due = none ∧
    awaitAll (oneT fun t => produce t (.scal 10) (.broadcast false) false) (waitsFor (Instr.uses (.addi 1 (r 10) 0))) = none ∧
    (Instr.uses (.addi 1 (r 2) 0)).reads.any (destPoisoned { one.team with sPoison := 4 }) = true ∧
    encode (.addi 1 (r 2) 0) ≠ [] :=
  by decide +kernel

/-! ### System mode -/

/-- A team of the hall beside a team of core 0.0 in context 3, whose target word is 3 in s10; s11 names a core that is not
live; s7 is a page-aligned address. -/
def hall : State :=
  let s := hallT fun t => { t with sregs := t.sregs ++ [] }
  let u : Team := { one.team with place := ⟨0, 0, 3⟩, vregCount := 16, parks := [.sys] }
  { withTeam s fun t => sset (sset t 10 3) 11 0xF0000 with others := [u] }

def parked3 : Team := { one.team with place := ⟨0, 0, 3⟩, vregCount := 16, parks := [.sys] }

theorem wit_system : one.team.place.die ≠ 8 ∧ inBody one.team = false ∧
    (∀ i ∈ ([.tlbinv (r 0) (r 7) (r 7), .tlbinvAll (r 0), .park (r 10), .unpark (r 10), .ctxsv (r 10) (r 7), .ctxld (r 10) (r 7)] :
      List Instr), Goes i hall hall) ∧
    MayName hall (sget hall.team 10) ⟨0, 0, 3⟩ ∧ InContext hall ⟨0, 0, 3⟩ parked3 ∧ stopped parked3 = true ∧
    capPending parked3 = false ∧ parked3.held = none ∧ hall.capWrites = [] ∧
    spanHeld hall hall.team.who .wr [(0x31000, 20480)] = false ∧ spanHeld hall hall.team.who .rd [(0x31000, 4096)] = false ∧
    translationsHeld hall 0 = false ∧ hall.service = [] ∧ (sget hall.team 7).toNat % 4096 = 0 ∧
    locateSpan hall hall.team.who .wr (sget hall.team 7) (16384 + 32 * 16 * 8) = .ok [(0x31000, 20480)] ∧
    locateSpan hall hall.team.who .rd (sget hall.team 7) 4096 = .ok [(0x31000, 4096)] ∧
    heldByHalt hall 0x31000 = false ∧ hall.dirty = [] ∧ savedIn hall (sget hall.team 7) = none ∧
    savedIn { hall with saved := [⟨0, 0, parked3⟩] } (sget hall.team 7) = some ⟨0, 0, parked3⟩ ∧
    Judged (.park (r 11)) (r 11) hall hall ∧
    coreLive hall ((sget hall.team 11).toNat / 2 ^ 16 % 16) ((sget hall.team 11).toNat / 2 ^ 8 % 64) = false ∧
    hall.team.ctl = false :=
  ⟨by decide +kernel, by decide +kernel, allGo (by decide +kernel), by unfold MayName; decide +kernel,
   by unfold InContext; decide +kernel, by decide +kernel, by decide +kernel, rfl, rfl, by decide +kernel, by decide +kernel,
   by decide +kernel, by decide +kernel, by decide +kernel,
   ok_of (by decide +kernel), ok_of (by decide +kernel), by decide +kernel, by decide +kernel, by decide +kernel,
   by decide +kernel, judged_of (by decide +kernel), by decide +kernel, by decide +kernel⟩

/-- A control team whose ASID lies outside its partition's range. -/
def ctlTeam : State :=
  setPart (withTeam hall fun t => { t with ctl := true }) 0 { partOf one 0 with asidBase := 5 }

theorem wit_control_team : Judged (.tlbinvAll (r 0)) (r 0) ctlTeam ctlTeam ∧ ctlTeam.team.ctl = true ∧
    (sget ctlTeam.team 0).toNat % 2 ^ 13 < (partOf ctlTeam 0).asidBase.toNat :=
  ⟨judged_of (by decide +kernel), by decide +kernel, by decide +kernel⟩

/-- What a read tells the caches changes nothing that the premises on the engines' later reads ask for. -/
theorem wit_engines_noted (u : State) (h : NotedRead cpyDesc u) :
    DescriptorAt u (sget cpyDesc.team 3) 64 (pieceBytes cpyDesc [(pad 0x200, 64)]) ∧
    DescriptorAt u (sget cpyDesc.team 3) 112 (pieceBytes cpyDesc [(pad 0x200, 64), (pad 0x240, 48)]) ∧
    heldAccess u cpyDesc.team.who .wr (pad 0) = false := by
  rw [show u = noted cpyDesc u.l1 u.l2 u.annex u.annexCnt from h]
  have hl : heldLinks cpyDesc = [] := by decide +kernel
  have ho : ordered cpyDesc.team = false := by decide +kernel
  exact ⟨⟨_, noted_desc _ _ _ _ _ hl rfl ho _ _ [(pad 0x200, 64)] (pieces_of (by decide +kernel)), by with_unfolding_all rfl,
      (noted_bytes _ _ _ _ _ ho _ (by decide +kernel)).symm⟩,
    ⟨_, noted_desc _ _ _ _ _ hl rfl ho _ _ [(pad 0x200, 64), (pad 0x240, 48)] (pieces_of (by decide +kernel)),
      by with_unfolding_all rfl, (noted_bytes _ _ _ _ _ ho _ (by decide +kernel)).symm⟩, noted_free _ _ _ _ _ hl rfl _ _ _⟩

/-- A group table of one group, all zero but its plane. -/
theorem wit_matrix_noted (u : State) (h : NotedRead one u) :
    BytesAt u (sget one.team 1) (32 * mg.g.toNat) (pieceBytes one [(pad 0, 64)]) ∧
    (∀ gs, parseGroups (pieceBytes one [(pad 0, 64)]) mg.g.toNat = some gs → MxAllowed u (groupPlanes gs)) := by
  rw [show u = noted one u.l1 u.l2 u.annex u.annexCnt from h]
  have hl : heldLinks one = [] := by decide +kernel
  have ho : ordered one.team = false := by decide +kernel
  refine ⟨⟨[(pad 0, 64)], ?_, by with_unfolding_all rfl, (noted_bytes _ _ _ _ _ ho _ (by decide +kernel)).symm⟩, ?_⟩
  · simp only [locateSpan, noted_span]
    exact ok_of (e := locatePieces one one.team.who .rd _ (sget one.team 1) (32 * mg.g.toNat)) (by decide +kernel)
  · intro gs hg
    have all : (parseGroups (pieceBytes one [(pad 0, 64)]) mg.g.toNat).all
      (fun gs => piecesAre (mxChecks one (groupPlanes gs)) []) = true := by decide +kernel
    rw [hg] at all
    exact ⟨_, noted_checks _ _ _ _ _ hl rfl _ [] (pieces_of all)⟩

def trap1 : Stop := { cause := 1, pc := 4 }

/-- The state as the first i stores of the frame leave it. -/
def frameAfter : Nat → State
  | 0 => drain caught
  | i + 1 => storeTeam (frameAfter i) (pad (0x1000 + 256 * i)) (((frameBytes (drain caught).team trap1).drop (256 * i)).take 256)

/-- A frame of four stores to scratchpad, and the ring's next slot in device memory. -/
theorem wit_frame_written : inBody caught.team = false ∧ caught.team.status ≠ .vacant ∧
    FrameStored (drain caught) trap1 (fun i => pad (0x1000 + 256 * i)) (frameAfter 4) ∧
    FrameFree (drain caught) (fun i => pad (0x1000 + 256 * i)) (frameAfter 4) ∧
    contOk (frameAfter 4) (drain caught).team (drain caught).team.fcont = true := by
  refine ⟨by decide +kernel, by decide +kernel, ⟨frameAfter, rfl, rfl, fun i hi => ⟨?_, rfl⟩⟩,
    ⟨by unfold Unguarded; decide +kernel, by decide +kernel, by decide +kernel, fun _ => by decide +kernel, ?_, ?_, ?_⟩, by decide +kernel⟩
  · have all : ∀ i < 4, access (frameAfter i) ((drain caught).team.fframe + BitVec.ofNat 64 (256 * i)) 256 1 .wr =
      .ok (pad (0x1000 + 256 * i)) := by decide +kernel
    exact all i hi
  · simp only [OffPage]; decide +kernel
  · decide +kernel
  · intro ps h
    have all : (hallSpan (flushCore (frameAfter 4) (placeKey (drain caught).team.place)) (drain caught).team.part
      (partOf (drain caught) (drain caught).team.part).scAsid .wr (ringSlot (partOf (drain caught) (drain caught).team.part)) 128).all
      (fun ps => decide (∀ y ∈ ps, ∀ i < 4, (y.1 + y.2 - 1) / 128 < pad (0x1000 + 256 * i) / 128 ∨
        (pad (0x1000 + 256 * i) + 255) / 128 < y.1 / 128)) = true := by decide +kernel
    rw [h] at all
    exact of_decide_eq_true all

/-- A stop in a body whose partition has a ring: its slot in device memory. -/
def inCapRinged : State := setPart (inCap 3) 0 { partOf (inCap 3) 0 with scEn := true, scBase := 0x20, scAsid := 0 }

theorem wit_stop_in_body_ringed : inCapRinged.team.status ≠ .vacant ∧ inCapRinged.team.held = some hold1 ∧
    inCapRinged.dirty = [] ∧ ringOpen (partOf inCapRinged inCapRinged.team.part) = true ∧
    owns inCapRinged inCapRinged.team hold1.rcd = true ∧
    hallSpan (breakRecord inCapRinged hold1.rcd) inCapRinged.team.part (partOf inCapRinged inCapRinged.team.part).scAsid .wr
      (ringSlot (partOf inCapRinged inCapRinged.team.part)) 128 = some [(0x31000, 128)] ∧
    (∀ y ∈ ([(0x31000, 128)] : List (Nat × Nat)), y.1 + y.2 ≤ hold1.rcd ∨ hold1.rcd + 256 ≤ y.1) ∧
    HallOpen inCapRinged ∧ tagHit inCapRinged 0x31000 128 = none ∧ lockHit inCapRinged 0x31000 128 = none :=
  ⟨by decide +kernel, by decide +kernel, by decide +kernel, by decide +kernel, by decide +kernel, by decide +kernel,
   by decide +kernel, by unfold HallOpen AllOpen; decide +kernel, by decide +kernel, by decide +kernel⟩

theorem wit_hall_open : HallOpen ringed ∧ NoRequests hall ∧
    Goes (.tlbinv (r 2) (r 7) (r 7)) ctlTeam ctlTeam ∧ ctlTeam.team.ctl = true ∧
    (sget ctlTeam.team 2).toNat % 2 ^ 13 = 5 ∧ (partOf ctlTeam ctlTeam.team.part).asidBase.toNat = 5 := by
  refine ⟨by unfold HallOpen AllOpen; decide +kernel, ?_, goes_of (by decide +kernel), by decide +kernel, by decide +kernel, by decide +kernel⟩
  intro e h; exact absurd h List.not_mem_nil

/-- 63 operations of each class outstanding, outside ordered mode (mode 0) and in it (mode 0x20). -/
def allOut (mode : BitVec 6) : State :=
  withTeam cpyDesc fun t => { t with mode := mode, cntCpy := 63, cntGth := 63, cntCol := 63 }

theorem wit_engines_full : ∀ m ∈ ([0, 0x20] : List (BitVec 6)),
    (issuesNow (.engCpy (r 3) (r 0)) (allOut m) && issuesNow (.engGath (r 3) (r 1)) (allOut m) &&
      issuesNow (.engSortc (r 3) (r 0)) (allOut m) && issuesNow (.engColl (r 3) (r 7)) (allOut m)) = true ∧
    63 ≤ cntOf (allOut m).team .cpy ∧ 63 ≤ cntOf (allOut m).team .gth ∧ 63 ≤ cntOf (allOut m).team .col ∧
    ordered (allOut m).team = (m == 0x20) := by decide +kernel

end Sys2Proof.Tests
end

