-- ==== Sys2Proof/Tests/WitnessesCommands.lean ====
section
/-! SUPPORT. Witnesses for the statements about commands. -/

namespace Sys2Proof.Tests

set_option Elab.async false

open Sys2Proof Sys2Proof.Machine

/-- A command of partition 0's queue 0 at HEAD 0, with a completion word at 0x1000. -/
def cmd (after : Option Word := none) (part : BitVec 4 := 0) : Cmd := ⟨part, 0, 0, 0, 0x77, 0x1000, after⟩

/-- A queue 1 whose HEAD is 2: handles 0 and 1 of it have been taken; handle 1 has completed as cancelled. -/
def taken : State :=
  setPart one 0 { partOf one 0 with queues := [(1, { head := 2 })], pending := [handleAt 1 0], cancelled := [handleAt 1 1] }

theorem plain_may_begin (p : BitVec 4) (s : State) : MayBegin s (cmd none p) := fun _ h => absurd h (by simp [cmd])

/-- Words written where the page maps an address. -/
def atPage (s : State) (off : Nat) (ws : List Nat) : State :=
  { s with mem := writeCells s.mem (0x30000 + off) (ws.flatMap (bytesOfNat 8)) }

theorem wit_completions : HallWrites one 0 0 0x1000 8 [(0x31000, 8)] ∧ (cmd).compl ≠ 0 ∧ { cmd with compl := 0 }.compl = 0 :=
  ⟨by unfold HallWrites Unguarded HallOpen AllOpen; decide +kernel, by decide, rfl⟩

/-- The caches after the hall has read n bytes for queue 0. -/
def notedAt (s : State) (loc n : Nat) : State := readPiecesL2 s 8 (queueOf s 0 0).asid [(loc, n)]

theorem hallReads_of {s : State} {va : Word} {n loc : Nat} {bs : List Byte} (h : s.dirty = [] ∧
    ((heldLinks s = [] ∧ s.pkstat.halted = 0 ∧ s.pkstat.lost = 0 ∧ s.pkstat.mlost = 0) ∧ s.hallOut = []) ∧
    hallSpan s 0 (queueOf s 0 0).asid .rd va n = some [(loc, n)] ∧ poisonedIn s loc n = false ∧ bs = farBytes s 0 loc n) :
    HallReads s (cmd) va n bs (notedAt s loc n) :=
  ⟨h.1, h.2.1, _, h.2.2.1, by simpa using h.2.2.2.1, by simpa [cmd] using h.2.2.2.2, rfl⟩

/-- Handles that are complete, not complete, complete as cancelled, and not taken. -/
theorem wit_after : MayBegin { taken with parts := [(0, { partOf taken 0 with pending := [], cancelled := [] })] } (cmd (some (handleAt 1 1))) ∧
    MustWait taken (cmd (some (handleAt 1 0))) ∧ MustWait taken (cmd (some (handleAt 1 2))) ∧
    AfterGone taken (cmd (some (handleAt 1 1))) ∧ plainCommand (.nop (cmd (some (handleAt 1 1)))) = some (cmd (some (handleAt 1 1))) := by
  refine ⟨?_, ?_, ?_, ?_, rfl⟩
  · intro h hh
    simp only [cmd, Option.mem_def, Option.some.injEq] at hh
    subst hh
    unfold HandleDone
    decide +kernel
  · exact ⟨handleAt 1 0, rfl, by unfold HandleDone; decide +kernel⟩
  · exact ⟨handleAt 1 2, rfl, by unfold HandleDone; decide +kernel⟩
  · exact ⟨handleAt 1 1, rfl, by unfold HandleDone; decide +kernel, by decide +kernel⟩

/-- A phase that is being cancelled, and a job; a RATE.WRITE that waits, and one held that may begin. -/
def cancelling : State :=
  { setPart taken 0 { partOf taken 0 with openPhase := some 1, openJob := some 2 } with
    levels := [{ kind := .phase, part := 0, handle := 9, serial := 1, cancelPending := true },
               { kind := .job, part := 0, handle := 8, serial := 2, cancelPending := true }] }
def jobCancelling : State := setPart cancelling 0 { partOf cancelling 0 with openPhase := none }

theorem wit_after_cancelled : AfterGone taken (cmd (some (handleAt 1 1))) ∧ (partOf taken 0).openJob = none ∧
    (partOf taken 0).openPhase = none ∧ ¬ParentRuns cancelling (partOf cancelling 0).openPhase ∧
    ¬ParentRuns jobCancelling (partOf jobCancelling 0).openJob ∧ (partOf jobCancelling 0).openPhase = none ∧
    MustWait taken (cmd (some (handleAt 1 0))) ∧ taken.targetOrder ≤ taken.serial + 1 ∧
    (queueOf (setQueue one 0 0 { queueOf one 0 0 with held := some { cmd := .rateWrite (cmd) 0x1000, order := 7 } }) 0 0).held =
      some { cmd := .rateWrite (cmd) 0x1000, order := 7 } :=
  ⟨⟨handleAt 1 1, rfl, by unfold HandleDone; decide +kernel, by decide +kernel⟩, by decide +kernel, by decide +kernel,
   fun h => absurd (h 1 (by decide +kernel) _ rfl) (by decide),
   fun h => absurd (h 2 (by decide +kernel) _ rfl) (by decide), by decide +kernel,
   ⟨handleAt 1 0, rfl, by unfold HandleDone; decide +kernel⟩, by decide +kernel, by decide +kernel⟩

/-- A queue held by a command whose AFTER lets it begin, and by one whose AFTER does not. -/
theorem wit_held_queues : (queueOf (heldBy one (cmd) (.nop (cmd))) 0 0).held = some { cmd := .nop (cmd) } ∧
    (queueOf (heldBy one (cmd) (.wait (cmd) 0x1000 0)) 0 0).held = some { cmd := .wait (cmd) 0x1000 0 } ∧
    HallReads (heldBy one (cmd) (.wait (cmd) 0x1000 0)) (cmd) 0x1000 8 (memBytes one 0x31000 8)
      (notedAt (heldBy one (cmd) (.wait (cmd) 0x1000 0)) 0x31000 8) ∧
    (∃ t, exec (.nop (cmd)) (freeQueue (heldBy one (cmd) (.nop (cmd))) 0 0) = .next t ∧ (queueOf t 0 0).held = none) ∧
    MustWait (heldBy taken (cmd (some (handleAt 1 0))) (.nop (cmd (some (handleAt 1 0))))) (cmd (some (handleAt 1 0))) :=
  ⟨by decide +kernel, by decide +kernel, hallReads_of (by decide +kernel),
   ⟨_, rfl, by decide +kernel⟩, ⟨handleAt 1 0, rfl, by unfold HandleDone; decide +kernel⟩⟩

def sub1 : SubRec := ⟨1, 0, 7, 9, 0x10000, 0x1008⟩
/-- A partition whose subscription quota is spent. -/
def noSubs : State := setPart one 0 { partOf one 0 with quotas := [1024, 8192, 24576, 1024, 12288, 512, 0] }
/-- The team waits for the reply to its system call. -/
def calling : State := oneT fun t => { t with status := .sysc 5 }

theorem wit_word_commands : HallReads one (cmd) 0x1000 8 (memBytes one 0x31000 8) (notedAt one 0x31000 8) ∧
    hallSpan one 0 (queueOf one 0 0).asid .wr 0xFFFFFFFFFFFFFFFF 8 = none ∧
    subOk sub1 = true ∧ ((partOf one 0).subs.filter fun x => x.id != sub1.id).length < quota one 0 6 ∧
    quota noSubs 0 6 ≤ ((partOf noSubs 0).subs.filter fun x => x.id != sub1.id).length ∧
    (partOf one 0).asidBase.toNat ≤ (8191 : BitVec 16).toNat ∧
    (8191 : BitVec 16).toNat < (partOf one 0).asidBase.toNat + (partOf one 0).asidCount.toNat ∧
    ¬(8192 : BitVec 16).toNat < (partOf one 0).asidBase.toNat + (partOf one 0).asidCount.toNat ∧
    teamAt calling ⟨0, 0, 0⟩ = some calling.team ∧ calling.team.part = (cmd).part ∧ calling.team.status = .sysc 5 ∧
    (∀ u ∈ everyTeam one, ¬(u.part = (cmd).part ∧ u.status = .sysc 5)) ∧ (0x1000 : Word).toNat % 4096 = 0 ∧
    HallWrites one 0 (queueOf one 0 0).asid 0x1000 4096 [(0x31000, 4096)] ∧ (0x1008 : Word).toNat % 4096 ≠ 0 :=
  ⟨hallReads_of (by decide +kernel), by unfold HallWrites Unguarded HallOpen AllOpen; decide +kernel⟩

/-- RATE.WRITE at both ends of its range and beyond them. -/
theorem wit_rate_write : ∀ x ∈ ([(0x1000, true), (0x10000000, true), (0xFFF, false), (0x10000001, false)] : List (BitVec 32 × Bool)),
    (0x1000 ≤ x.1.toNat ∧ x.1.toNat ≤ 0x10000000) ↔ x.2 = true := by simp

/-! ### Graphs and copies -/

/-- A launch record: its kernel descriptor lies at 0x800, one block, no dispensers. -/
def rec1 : LaunchRec := ⟨0x800, 1, 0, List.replicate 8 0, List.replicate 8 0, List.replicate 8 0⟩

/-- A graph image of one node at 0x1000; its record's words. -/
def nodeWords : List Nat := [1, 0, 0, 0x800, 1] ++ List.replicate 27 0
def nodeBytes : List Byte := nodeWords.flatMap (bytesOfNat 8)
def imaged : State := atPage (atPage one 0x1000 ([1, 0] ++ nodeWords)) 0x800 [0, 32 + 2 ^ 16 + 16 * 2 ^ 24]
def graph1 : GraphImage := ⟨[rec1], [0], []⟩
/-- The same with the graph in store 3. -/
def stored : State := setPart imaged 0 { partOf imaged 0 with graphs := [(3, some graph1)] }

theorem wit_graphs : HallReads imaged (cmd) 0x1000 16 (memBytes imaged 0x31000 16) (notedAt imaged 0x31000 16) ∧
    natAt (memBytes imaged 0x31000 16) 0 2 = 1 ∧ natAt (memBytes imaged 0x31000 16) 2 2 = 0 ∧
    zeroBytes (memBytes imaged 0x31000 16) 4 16 = true ∧
    HallReads (notedAt imaged 0x31000 16) (cmd) (0x1000 + 16) 256 nodeBytes (notedAt (notedAt imaged 0x31000 16) 0x31010 256) ∧
    parseGraph 1 0 nodeBytes = some graph1 ∧
    HallReads one (cmd) 0x1000 16 (memBytes one 0x31000 16) (notedAt one 0x31000 16) ∧ natAt (memBytes one 0x31000 16) 0 2 = 0 ∧
    graphStore stored 0 3 = some graph1 ∧ (0 : Nat) < graph1.nodes.length ∧
    nodeRecord nodeBytes = some (rec1, 0) ∧ graphStore stored 0 15 = none :=
  ⟨hallReads_of (by decide +kernel), by decide +kernel, by decide +kernel, by decide +kernel,
   hallReads_of (by decide +kernel), by decide +kernel, hallReads_of (by decide +kernel), by decide +kernel,
   by decide +kernel, by decide, by decide +kernel, by decide +kernel⟩

/-- A copy descriptor of one dimension at 0x1000. -/
def copied : State := atPage one 0x1000 [0x100, 4, 0x2000, 0x3000, 0, 0, 0, 0, 2, 8, 8]

theorem wit_copy : HallReads copied (cmd) 0x1000 64 (memBytes copied 0x31000 64) (notedAt copied 0x31000 64) ∧
    natAt (memBytes copied 0x31000 64) 1 1 = 1 ∧ 
    HallReads (notedAt copied 0x31000 64) (cmd) 0x1000 88 (memBytes copied 0x31000 88)
      (notedAt (notedAt copied 0x31000 64) 0x31000 88) ∧
    (∃ w, parseCpy (notedAt (notedAt copied 0x31000 64) 0x31000 88) ⟨0, (queueOf copied 0 0).asid, hallPlace, 0, 0⟩ (memBytes copied 0x31000 88) = some w) ∧
    (0x1000 : Word).toNat % 64 = 0 ∧ (0x1020 : Word).toNat % 64 ≠ 0 :=
  ⟨hallReads_of (by decide +kernel), by decide +kernel, hallReads_of (by decide +kernel),
   Option.isSome_iff_exists.mp (by decide +kernel), by decide, by decide⟩

/-! ### Levels -/

def kd1 : KDesc := {}

/-- A phase and a job, open, with nothing beneath them. -/
def phased : State :=
  let s := setPart imaged 0 { partOf imaged 0 with openPhase := some 1, openJob := some 2 }
  { s with serial := 3, levels := [{ kind := .phase, part := 0, handle := 9, serial := 1, parent := some 2 },
                                   { kind := .job, part := 0, handle := 8, serial := 2, children := 1 }] }

/-- A launch with its record and descriptor. -/
theorem launch_good : LaunchGood stored (cmd) rec1 kd1 (okState (readKDesc stored 0 ((cmd).asid.setWidth 13) rec1.kdesc)) :=
  ⟨by decide +kernel, by decide +kernel, okFirst (by decide +kernel), by decide +kernel, by decide +kernel⟩

theorem wit_levels : (partOf one 0).openPhase = none ∧ (partOf one 0).openJob = none ∧ ParentRuns one none ∧
    (partOf phased 0).openPhase = some 1 ∧ (∃ l, levelAt phased 1 = some l ∧ l.children = 0 ∧ l.handle = 9) ∧
    (partOf phased 0).openJob = some 2 ∧ (∃ l, levelAt phased 2 = some l ∧ l.children ≠ 0) ∧
    ParentRuns phased (some 1) ∧ ringsOf rec1 = 0 ∧ launchFields { rec1 with blocks := 0 } = false ∧
    launchFields rec1 = true ∧ asidUsable one 0 7 = false :=
  ⟨by decide +kernel, by decide +kernel, fun _ h => absurd h (by simp), by decide +kernel, ⟨_, rfl, by decide +kernel, by decide +kernel⟩,
   by decide +kernel, ⟨_, rfl, by decide +kernel⟩, by
     intro k hk l hl
     simp only [Option.mem_def, Option.some.injEq] at hk
     subst hk
     rw [show levelAt phased 1 = some { kind := .phase, part := 0, handle := 9, serial := 1, parent := some 2 } by
       decide +kernel] at hl
     cases hl
     rfl,
   by decide +kernel, by decide +kernel, by decide +kernel, by decide +kernel⟩

theorem wit_graph_run : (3 : BitVec 8).toNat < 16 ∧ graphStore stored 0 3 = some graph1 ∧ graph1.nodes.length = graph1.asids.length ∧
    (∃ n, NodesGood (cmd) stored (graph1.nodes.zip graph1.asids) n) ∧
    (partOf stored 0).openPhase = none ∧ (instances stored 0).length < quota stored 0 0 ∧
    ((instances stored 0).map fun l => l.edges.length).sum + graph1.edges.length ≤ quota stored 0 1 :=
  ⟨by decide, by decide +kernel, rfl, ⟨_, kd1, _, launch_good, rfl⟩,
   by decide +kernel, by decide +kernel, by decide +kernel⟩

theorem wit_control_run : ctrlFields rec1 = true ∧ asidUsable stored 0 (cmd).asid.toNat = true ∧
    (∃ n, readKDesc stored 0 ((cmd).asid.setWidth 13) rec1.kdesc = .ok (kd1, n)) ∧ ctrlDesc kd1 = true ∧ ctrlAlive stored 0 = false ∧
    ctrlCore stored = some 0 ∧
    ctrlAlive { stored with levels := [{ kind := .launch, part := 0, handle := 0, serial := 0, ctl := true }] } 0 = true :=
  ⟨by decide +kernel, by decide +kernel, ⟨_, launch_good.2.2.1⟩, by decide +kernel, by decide +kernel, by decide +kernel,
   by decide +kernel⟩

/-- A JOB.BEGIN that holds its queue. -/
def jobHeld : State := heldBy one (cmd) (.jobBegin (cmd))

/-- A translation of an engine's address is in use. -/
theorem wit_tlbinv : (false = false ∨ (5 : BitVec 64) = 0) ∧ Settled one ∧ translationsHeld one 8191 = false ∧
    translationsHeld (oneT fun t => { t with capBuf := [⟨0x40, [1]⟩] }) one.team.asid.toNat = true := by
  refine ⟨.inl rfl, ?_⟩
  unfold Settled
  decide +kernel

/-- Levels to cancel of each kind; handles that are complete, not taken, and with every pending cancel in use. -/
theorem wit_cancel : (∀ x ∈ ([(2, 9), (3, 8)] : List (BitVec 8 × Word)), x.1.toNat ≤ 3 ∧
      ∃ l ∈ phased.levels, l.part = (cmd).part ∧ l.handle = x.2 ∧ l.kind = cancelKind x.1 ∧ isNode phased l = false) ∧
    (∀ l ∈ one.levels, ¬(l.part = 0 ∧ l.handle = 5 ∧ l.kind = cancelKind 0 ∧ isNode one l = false)) ∧
    heldWith one 0 5 0 = none ∧ ¬(5 : Word).toNat % 2 ^ 58 < (queueOf one 0 ((5 : Word).toNat / 2 ^ 58)).head.toNat ∧
    (handleAt 1 1).toNat % 2 ^ 58 < (queueOf taken 0 ((handleAt 1 1).toNat / 2 ^ 58)).head.toNat ∧
    (partOf one 0).pendCancels.length < 64 ∧
    64 ≤ (partOf (setPart one 0 { partOf one 0 with pendCancels := List.replicate 64 (7, 0) }) 0).pendCancels.length ∧
    3 < (4 : BitVec 8).toNat ∧
    (∃ c1 x, heldWith jobHeld 0 (handleAt 0 0) 3 = some (c1, x)) ∧
    (∀ l ∈ jobHeld.levels, ¬(l.part = 0 ∧ l.handle = handleAt 0 0 ∧ l.kind = cancelKind 3 ∧ isNode jobHeld l = false)) ∧
    (∃ l, phased.levels.find? (fun l => l.part == 0 && l.handle == 9 && decide (l.kind = cancelKind 2) && !isNode phased l) = some l) :=
  ⟨fun x hx => by
     rcases List.mem_cons.mp hx with rfl | hx
     · decide +kernel
     · cases List.mem_singleton.mp hx
       decide +kernel,
   by decide +kernel, by decide +kernel, by decide +kernel, by decide +kernel, by decide +kernel,
   by decide +kernel, by decide, ⟨cmd, _, rfl⟩, by decide +kernel, Option.isSome_iff_exists.mp (by decide +kernel)⟩

end Sys2Proof.Tests
end

