-- ==== Sys2Proof/Tests/WitnessesEvents.lean ====
section
/-! SUPPORT. Witnesses for the statements about what the package does beside its teams' instructions, about register writes,
and about the machine as a whole. -/

namespace Sys2Proof.Tests

set_option Elab.async false

open Sys2Proof Sys2Proof.Machine

def p0 : Place := ⟨0, 0, 0⟩

/-! ### Results, ends, waits and errors -/

/-- A capsule record of the team, marked by a descheduling. -/
def marked (run : Bool) : State := { inCap 3 with capWrites := [⟨p0, run, pad 0x200, ownerWord one.team⟩] }

def sent : State :=
  { one with service := [⟨0, 0, p0, 0, ⟨.add, pad 0, true, false, 5, 0, 0, some (.scal 10)⟩⟩] }

def counts (x : Arrival) : Bool := match x with
  | .counted _ _ _ => true
  | _ => false
theorem counts_of {x : Arrival} (h : counts x = true) : ∃ s1 ph l, x = .counted s1 ph l := by
  cases x <;> first | exact ⟨_, _, _, rfl⟩ | cases h

theorem wit_arriving : teamAt due p0 = some due.team ∧
    (oneT fun t => { t with inflight := [⟨.scal 11, .values [(0, 7)], true⟩] }).team.inflight =
      ⟨.scal 11, .values [(0, 7)], true⟩ :: [] ∧
    (∃ e, sent.service = [e] ∧ e.cluster = (0 : BitVec 6).toNat ∧ serviceHalted sent e.req.loc = false) ∧
    (∃ w, (marked true).capWrites = [w] ∧ serviceHalted (marked true) w.rcd = false ∧ w.run = true ∧
      memNat (marked true) w.rcd 8 % 2 = 1 ∧ memNat (marked true) (w.rcd + 8) 8 = w.owner.toNat) ∧
    (∃ w, (marked false).capWrites = [w] ∧ w.run = false ∧ ∀ x ∈ (marked false).capWait, x.1 ≠ w.rcd) ∧
    (∀ e ∈ ({ sent with pkstat := { halted := 1 } } : State).service,
      serviceHalted { sent with pkstat := { halted := 1 } } e.req.loc = true) ∧
    (∃ s1 ph l, arrive { barred obj2 with bank := [] } (pad 0) false = .counted s1 ph l) ∧
    ∃ s1, countArrival { barred obj2 with bank := [] } (pad 0) false p0 = some s1 :=
  ⟨by decide +kernel, by decide +kernel, ⟨_, rfl, rfl, by decide +kernel⟩,
   ⟨_, rfl, by decide +kernel, rfl, by decide +kernel, by decide +kernel⟩, ⟨_, rfl, rfl, by decide +kernel⟩, by decide +kernel,
   counts_of (by decide +kernel), Option.isSome_iff_exists.mp (by decide +kernel)⟩

/-- The team at an LDFE that waits, and at a BAR.WAIT that waits, in its line. -/
def atLdfe : State :=
  withTeam { one with mem := writeCells one.mem 0x30000 (lineWith (encode (.ldfeK (lo .d 1))) 1 0),
                      bank := [.ldfe (pad 0) 8 false p0] } fun t =>
    { t with status := .waiting .granule, asked := true }
def atWait : State :=
  withTeam { one with mem := writeCells one.mem 0x30000 (lineWith (encode (.barWait (r 1) (.imm 0))) 1 0) } fun t =>
    { t with status := .waiting .barrier }

theorem wit_ends_and_waits :
    (teamAt (oneT fun t => { t with status := .exiting }) p0).any (fun u => decide (u.status = .exiting) && !ordered u &&
      workDone one u && !u.cancelling) = true ∧ one.team.cancelling = false ∧
    (∀ v ∈ one.others, v.place ≠ p0) ∧ readyNow one one.team = true ∧
    ¬one.team.status = .exiting ∧ one.team.status = .ready ∧ one.team.parks = [] ∧
    TheTeam atLdfe p0 atLdfe.team ∧ instrAt atLdfe atLdfe.team = some (.ldfeK (lo .d 1)) ∧ atLdfe.team.asked = true ∧
    atLdfe.team.reply = none ∧ atLdfe.team.request = none ∧ atLdfe.team.parks = [] ∧ atLdfe.diehalt = 0 ∧
    atLdfe.bank.find? (fun r => r.team == some p0) = some (.ldfe (pad 0) 8 false p0) ∧ granuleFull atLdfe (pad 0) = false ∧
    granuleFull (setFull atLdfe (pad 0)) (pad 0) = true ∧ heldLinks atWait = [] ∧
    atWait.team.parks = [] ∧ atWait.diehalt = 0 ∧
    TheTeam atWait p0 atWait.team ∧ instrAt atWait atWait.team = some (.barWait (r 1) (.imm 0)) ∧
    atWait.team.status = .waiting .barrier ∧ atWait.team.waitReported = false ∧ NewSpan atWait 0 3 (targetWord p0) ∧
    (oneT fun t => { t with waitReported := true }).team.waitReported = true :=
  by unfold TheTeam NewSpan; decide +kernel

theorem wit_reports : ({ one with spans := [⟨0, 3, 0, 0, 0, 1⟩] } : State).spans[0]? = some ⟨0, 3, 0, 0, 0, 1⟩ ∧
    ringOpen (partOf one 0) = false ∧ ringOpen (partOf ringed 0) = true ∧
    HallWrites ringed 0 (partOf ringed 0).scAsid (ringSlot (partOf ringed 0)) 128 [(0x31000, 128)] ∧
    (∃ l, fetchLine one one.team one.team.pc = .ok l) ∧
    fetchLine (oneT fun t => { t with pc := 0xFFFFFFFFFFFFFFC0 }) one.team 0xFFFFFFFFFFFFFFC0 = .error (0x11, 0) :=
  ⟨rfl, by decide +kernel, by decide +kernel, by unfold HallWrites Unguarded HallOpen AllOpen; decide +kernel, someOk (by decide +kernel),
   err_of (by decide +kernel)⟩

/-- The Compute Link of die 0 retrains: what its cores wrote to bytes of die 4 is held. -/
def retraining0 : State := setLink one 0 { retraining := true }

theorem wit_lines : writeBackHeld one 0 0x80 = false ∧ writeBackHeld retraining0 0 (locBase 4 + 4 * 2 ^ 26) = true ∧ PlainMemory one ∧ NewSpan one 0 5 0 ∧ teamAt one p0 = some one.team ∧ one.team.status ≠ .vacant :=
  by unfold PlainMemory Unguarded NewSpan; decide +kernel

/-! ### Engines -/

/-- A CPY of two runs of 16 bytes inside the block, at its first run. -/
def op1 : EngOp :=
  { id := 4, cls := .cpy, work := .cpy 16 (localBase) (localBase + 0x100) 0 [(2, 16, 16)], place := p0, launch := 0, blk := 0,
    part := 0, asid := 0, mode := 0, desc := win 0x200, bar := some (pad 0), uncounted := 16 }
def engined (o : EngOp) : State := { one with engines := [o] }

/-- The plan of an operation is one unit, done with these writes. -/
def oneUnit (pl : Plan) (o : EngOp) (ws : List (Nat × List Byte)) : Bool := match pl with
  | [(o', .ok d)] => decide (o' = o) && d.core.isNone && decide (d.writes = ws)
  | _ => false
/-- The plan is one unit that faults. -/
def oneFault (pl : Plan) (o : EngOp) (c : Byte) (va : Word) (wr : Bool) : Bool := match pl with
  | [(o', .error (.fault c' va' wr'))] => decide (o' = o) && decide (c' = c) && decide (va' = va) && decide (wr' = wr)
  | _ => false

theorem unit_of {pl : Plan} {o : EngOp} {ws : List (Nat × List Byte)} (h : oneUnit pl o ws = true) :
    ∃ d, pl = [(o, .ok d)] ∧ d.core = none ∧ d.writes = ws := by
  unfold oneUnit at h
  split at h
  · rename_i o' d
    simp only [Bool.and_eq_true, decide_eq_true_eq, Option.isNone_iff_eq_none] at h
    exact ⟨d, by rw [h.1.1], h.1.2, h.2⟩
  · cases h

theorem fault_of {pl : Plan} {o : EngOp} {c : Byte} {va : Word} {wr : Bool} (h : oneFault pl o c va wr = true) :
    pl = [(o, .error (.fault c va wr))] := by
  unfold oneFault at h
  split at h
  · simp only [Bool.and_eq_true, decide_eq_true_eq] at h
    rw [h.1.1.1, h.1.1.2, h.1.2, h.2]
  · cases h

theorem wit_engine_units : opAt (engined op1) 4 = some op1 ∧ canRun (engined op1) op1 = true ∧ waitsArray (engined op1) op1 = false ∧
    engOrdered (engined op1) op1 = false ∧
    (∃ d, unitPlan (engined op1) op1 = [(op1, .ok d)] ∧ d.core = none ∧ d.writes = [(pad 0x100, List.replicate 16 0)]) ∧
    op1.work ≠ .mxswap ∧ op1.command = none ∧ opCancelled (engined op1) op1 = false ∧ (engined op1).bank = [] ∧
    unitPlan (engined { op1 with work := .cpy 16 0x7F0000010000 localBase 0 [(1, 0, 0)] })
        { op1 with work := .cpy 16 0x7F0000010000 localBase 0 [(1, 0, 0)] } =
      [({ op1 with work := .cpy 16 0x7F0000010000 localBase 0 [(1, 0, 0)] }, .error (.fault 0x12 0x7F0000010000 false))] ∧
    unitPlan { engined op1 with poisonGranules := [(pad 0) / 16] } op1 = [(op1, .error (.fault 0x50 (win 0) false))] ∧
    countHeld { engined op1 with pkstat := { halted := 1 } } op1 (pad 0) = true ∧ countHeld (engined op1) op1 (pad 0) = false :=
  ⟨by decide +kernel, by decide +kernel, by decide +kernel, by decide +kernel, unit_of (by decide +kernel), by decide, rfl,
   by decide +kernel, rfl, fault_of (by decide +kernel), fault_of (by decide +kernel), by decide +kernel, by decide +kernel⟩

/-- Bytes to count, at an object that is ready and at one that is not; an operation to retire, and one that may not; a notice. -/
theorem wit_engine_ends : op1.uncounted ≠ 0 ∧ objReady { barred obj2 with engines := [op1] } (pad 0) = true ∧
    (readObj (barred obj2) (pad 0)).arrived ≠ (readObj (barred obj2) (pad 0)).expa ∧
    (readObj (barred obj2) (pad 0)).landed + op1.uncounted < 2 ^ 64 ∧ objReady (engined op1) (pad 0) = false ∧
    blockOfLoc (engined op1) (pad 0) ≠ none ∧
    (∀ l, levelOfLaunch (engined op1) op1.part op1.launch = some l → l.cancelPending = false) ∧
    oldestOp (engined { op1 with state := .finished, uncounted := 0 }) { op1 with state := .finished, uncounted := 0 } = true ∧
    teamAt (engined op1) op1.place = some (engined op1).team ∧ (engined op1).team.launch = op1.launch ∧ op1.state ≠ .finished ∧
    noticeNext { crossed with notices := [pad 0] } (pad 0) = true ∧ noticeNext crossed (pad 0) = false ∧ crossed.bank = [] ∧
    (barred obj2).bank = [] ∧ op1.counted = true ∧ op1.wroteProgress = false ∧
    (readObj crossed (pad 0)).arrived ≠ (readObj crossed (pad 0)).expa :=
  ⟨by decide, by decide +kernel, by decide +kernel, by decide +kernel, by decide +kernel, by decide +kernel,
   fun l h => absurd h (by rw [show levelOfLaunch (engined op1) op1.part op1.launch = none by decide +kernel]; simp),
   by decide +kernel⟩

/-! ### Ordered launches and pre-emption -/

def ordLevel : Level :=
  { kind := .launch, part := 0, handle := 0, serial := 6, blocks := 1, next := 1, children := 1,
    kd := { ordered := true, quant := 64, wr := [(1, 0, 4096)] }, wbase := [win 0] }

/-- A team of an ordered launch whose quantum is closed with one store buffered, and one that waits with nothing to come. -/
def quantum : State :=
  withTeam { one with levels := [ordLevel] } fun t =>
    { t with mode := 0x20, closed := true, qnt := 64, obuf := [.store ⟨pad 0x80, [1, 2]⟩] }
def stuck : State :=
  withTeam { atWait with levels := [ordLevel] } fun t => { t with mode := 0x20, closed := true, status := .waiting .quantum }

theorem wit_quanta : levelAt quantum 6 = some ordLevel ∧ quantumReady quantum ordLevel = true ∧
    OneStore quantum ordLevel (pad 0x80) [1, 2] ∧
    quantumReady (withTeam quantum fun t => { t with closed := false }) ordLevel = false ∧
    levelAt stuck 6 = some ordLevel ∧ stalled stuck ordLevel = true ∧ ordLevel.stallReported = false :=
  ⟨by decide +kernel, by decide +kernel, by unfold OneStore Unguarded; decide +kernel, by decide +kernel, by decide +kernel,
   by decide +kernel, by decide⟩

def urgent : Level :=
  { kind := .launch, part := 0, handle := 0, serial := 7, launch := 5, prio := 3, kd := { teams := 16 }, blocks := 1 }

/-- One core is live; it hosts sixteen service teams and the team, and a launch of PRIO 3 waits for its sixteen contexts. -/
def crowded : State :=
  setPart { one with dlive := [1, 0, 0, 0, 0, 0, 0, 0], levels := [urgent] } 0 { partOf one 0 with spBase := 1, spSize := 16 }

def saved1 : Preempted := ⟨0, 0, 0, 3, [{ one.team with place := ⟨0, 0, 5⟩ }], [], [], {}, [], [], [], [], [], 0⟩

/-- A capsule request of a team below the waiting launch is under way. -/
def crowdedCap : State := withTeam crowded fun t => { t with asked := true, request := some .capAbort }

theorem wit_preemption : (∀ u ∈ lowerTeams crowded 0 urgent.prio.toNat, capPending u = false) ∧
    preemptor crowdedCap 0 = some (urgent, 0) ∧ (∃ u ∈ lowerTeams crowdedCap 0 urgent.prio.toNat, capPending u = true) ∧
    (∀ u ∈ lowerTeams crowdedCap 0 urgent.prio.toNat, teamAt crowdedCap u.place = some u) ∧ preemptingOf one 0 = none ∧
    preemptor crowded 0 = some (urgent, 0) ∧ preemptor one 0 = none ∧
    preemptedAt { one with preempted := [saved1] } (coreKey 0 0) = some saved1 ∧
    mayRestore { one with preempted := [saved1] } saved1 = true :=
  by decide +kernel

/-! ### Rates, power and heat -/

/-- Die 1 with a wake asked for and current to spare; and with a product's leave asked for. -/
def waking : State := setDie one 1 { cap := 0xFFFF, slew := 450, leave := [(.wake 3 4, 0)], wakes := [(2, 1)] }
def product : State :=
  withTeam (setDie one 1 { cap := 0xFFFF, slew := 450, leave := [(.mma p0 (.vec 4), 0)] }) fun t =>
    { t with inflight := [⟨.vec 4, .array (.vec 4) [(0, 9)], false⟩] }

/-- However high the mean of the rail is, CAP lies above it. -/
theorem low_mean (die time n : Nat) (h : n < 600000000) : (Config.railMean die time).toNat + n ≤ 655350000 := by
  have := (Config.railMean die time).isLt
  omega

theorem wit_broadcast : one.booted = true ∧ ({ one with booted := false } : State).booted = false ∧ (0x10000 : BitVec 32).toNat < (0x20000 : BitVec 32).toNat ∧ one.rate = one.target ∧
    (oneT fun t => { t with inflight := [⟨.scal 10, .broadcast false, false⟩] }).team.inflight =
      ⟨.scal 10, .broadcast false, false⟩ :: [] ∧
    nextLeave waking (dieOf waking (1 : BitVec 3).toNat) = some (.wake 3 4) ∧ waking.diehalt.getLsbD 1 = false ∧
    (Config.railMean 1 waking.time).toNat + grantedAt (dieOf waking 1) waking.time + (costEntry 25).2.2 ≤
      leaveCap (dieOf waking 1) ∧
    grantedAt (dieOf waking 1) waking.time + (costEntry 25).2.2 ≤ (dieOf waking 1).slew.toNat * 10000 ∧
    nextLeave product (dieOf product (1 : BitVec 3).toNat) = some (.mma p0 (.vec 4)) ∧ mayGrant product 1 = true ∧
    (∃ u, teamAt product p0 = some u ∧ u.inflight = [⟨.vec 4, .array (.vec 4) [(0, 9)], false⟩]) ∧
    ({ one with diehalt := 2 } : State).diehalt.getLsbD (1 : BitVec 3).toNat = true :=
  ⟨rfl, rfl, by decide, by decide +kernel, by decide +kernel, by decide +kernel, by decide +kernel, by
     rw [show leaveCap (dieOf waking 1) = 655350000 by decide +kernel, Nat.add_assoc]
     exact low_mean _ _ _ (by decide +kernel),
   by decide +kernel, by decide +kernel, by
     have h1 : product.diehalt.getLsbD 1 = false ∧ leaveCap (dieOf product 1) = 655350000 ∧
         nextLeave product (dieOf product 1) = some (.mma p0 (.vec 4)) ∧ grantedAt (dieOf product 1) product.time = 0 ∧
         leaveCurrent product (.mma p0 (.vec 4)) ≤ (dieOf product 1).slew.toNat * 10000 ∧
         leaveCurrent product (.mma p0 (.vec 4)) < 600000000 := by decide +kernel
     obtain ⟨a, b, c, d, e, f⟩ := h1
     simp only [mayGrant, a, b, c, d, Nat.zero_add, Nat.add_zero, decide_eq_true e, low_mean 1 product.time _ f, decide_true,
       Bool.not_false, Bool.and_self],
   ⟨_, rfl, rfl⟩, by decide⟩

/-- The temperatures at which a die's state changes, one on each side of each. -/
theorem wit_heat : ∀ x ∈ ([(879, false), (880, true), (999, true)] : List (Nat × Bool)),
    decide ((dieOf one 0).ttrip.toNat * 8 ≤ x.1) = x.2 ∧ x.1 < 1000 := by decide +kernel

/-- Two ready teams on a die whose draw is above CAP. -/
def capped : State := setDie { one with others := [{ one.team with place := ⟨0, 0, 1⟩ }] } 0 { iavg := 451 }

theorem wit_power : (dieOf waking 1).wakes.length ≤ 32 ∧ (4 : BitVec 3).toNat < 5 ∧ arrayHeld one 0 = false ∧
    arrayHeld (engined { op1 with cls := .mxa, unit := 1, state := .running, atArray := true, work := .mxloop true 1 0 true false [] [] }) (coreKey (BitVec.setWidth 4 (0 : BitVec 3)) 0) = true ∧
    (one.pkstat.trip.getLsbD 0 = true → (6 : BitVec 3).toNat ≤ 1) ∧ (6 : BitVec 3) ≠ 7 ∧
    (dieOf capped 0).cap.toNat < (dieOf capped 0).iavg.toNat ∧
    0 ∈ liveCores capped 0 ∧ (∀ u ∈ teamsOf capped, ParkReason.cap ∉ u.parks) ∧
    2 ≤ ((teamsOn capped 0).filter fun u => u.status = .ready && u.parks.isEmpty).length := by decide +kernel

/-- Long after the last use of any island; and with a point chosen just now. -/
def later : State := { one with time := 20000 }
def pointed : State := { one with points := [⟨5, 0, 3, 0⟩] }

theorem wit_points_and_windows : coreLive later 0 5 = true ∧ (gateOf later (clusterOf 0 5)).st ≠ 5 ∧
    (gateOf (setGate later (clusterOf 0 5) { st := 5 }) (clusterOf 0 5)).st = 5 ∧
    mapGet 0 (coreAt later 5).lastUse 3 + 2000 ≤ later.time ∧ one.time < mapGet 0 (coreAt one 5).lastUse 3 + 2000 ∧
    pointOf pointed 5 0 = some ⟨5, 0, 3, 0⟩ ∧ pointed.time < 0 + 8000 ∧ pointOf one 5 0 = none ∧
    (∀ z ∈ one.parts, ∀ y ∈ z.2.subs, y.kind ≠ 2 ∧ y.kind ≠ 3) ∧ later.window < later.time / 16384 ∧
    ¬one.window < one.time / 16384 ∧ 0 < ({ reg := 0, writes := 1 } : Region).writes := by decide +kernel

/-- A subscription to B that has seen the value just below its threshold; regions pinned and free; clusters in each state. -/
def watched : State :=
  setPart one 0 { partOf one 0 with subs := [⟨9, 0, 2, 0xFF, 0x10000, 0x1000, 0, [(255, 0xFFFF)]⟩] }

theorem wit_watches : (partOf watched 0).subs.find? (fun y => y.id == 9) = some ⟨9, 0, 2, 0xFF, 0x10000, 0x1000, 0, [(255, 0xFFFF)]⟩ ∧
    (0xFFFF : Nat) < (0x10000 : BitVec 32).toNat ∧ HallWrites watched 0 0 0x1000 8 [(0x31000, 8)] ∧
    (regionOf ({ one with annex := [{ reg := 3, hint := 1 }] } : State).annex (3 : BitVec 36).toNat).hint = 1 ∧
    (regionOf one.annex (3 : BitVec 36).toNat).hint = 0 ∧
    (gateOf (setGate one 5 { st := 1 }) 5).st = 1 ∧ quiesced (setGate one 5 { st := 1 }) 5 = true ∧
    (gateOf (setGate one 5 { st := 3, req := 3 }) 5).req = 3 ∧ (gateOf one 5).st = 0 :=
  by unfold HallWrites Unguarded HallOpen AllOpen; decide +kernel

/-! ### Links, dies and boot -/

theorem wit_links : hasSteps (.twin 1) = true ∧ (linkOf one (linkKey (.twin 1))).retraining = false ∧
    (linkOf one (linkKey (.twin 1))).down = false ∧ ¬(linkOf one (linkKey (.twin 1))).step < 4 ∧
    1 < (linkOf one (linkKey (.twin 1))).step ∧
    (linkOf (setLink one (linkKey (.twin 1)) { step := 1, retraining := true, tries := 6 }) (linkKey (.twin 1))).retraining = true ∧
    6 ≤ (linkOf (setLink one (linkKey (.twin 1)) { step := 1, retraining := true, tries := 6 }) (linkKey (.twin 1))).tries ∧
    (∀ a ∈ (linkOf one (linkKey (.twin 1))).stepped, a + 10000 ≤ one.time) ∧
    (∃ a ∈ (linkOf (setLink one 13 { stepped := some 5 }) (linkKey (.twin 1))).stepped, one.time < a + 10000) ∧
    heldLinks one = [] ∧ heldLinks (setLink one 13 { retraining := true }) ≠ [] ∧
    one.pkstat.lost.getLsbD (0 : BitVec 3).toNat = false ∧ one.diehalt = 0 ∧ ({ one with diehalt := 1 } : State).diehalt ≠ 0 ∧
    (∀ u ∈ teamsOf (oneT fun t => { t with parks := [.dieHalt] }), u.place.die.toNat = 0 →
      u.parks ≠ [] ∧ capPending u = false ∧ parkPending (oneT fun t => { t with parks := [.dieHalt] }) u.place = false) :=
  by decide +kernel

/-- A window of Folros Link 2 of two MiB at 0x200000, open to partition 0. -/
def linked : State := { one with fxBase := [(2, 0x200000)], fxCfg := [(2, 0x8000000000000000)] }

theorem wit_peers : PeerGoes linked ⟨2, 0, .read 0x1FFFF8 8⟩ ∧ PeerGoes linked ⟨2, 0, .write 0x1FFFF8 (bytesOfNat 8 7)⟩ ∧
    PeerGoes linked ⟨2, 0, .atom .add true 0x1FFFF8 1 0⟩ ∧ PeerGoes linked ⟨2, 0, .atom .cas false 0x1FFFF8 1 0⟩ ∧
    0x1FFFF8 % atomBytes true = 0 ∧ atomNew .add true (memNat linked 0x3FFFF8 8) 1 0 = some 1 ∧
    atomNew .cas false (memNat linked 0x3FFFF8 4) 1 5 = none ∧
    peerHeldNow (setLink linked 18 { retraining := true }) ⟨2, 0, .read 0x1FFFF8 8⟩ = true ∧ peerLoc linked (2 : BitVec 4).toNat 0 0x1FFFF8 8 = some 0x3FFFF8 ∧
    peerLoc linked (2 : BitVec 4).toNat 0 0x1FFFF9 8 = none ∧ linked.dirty = [] ∧ Unguarded linked ∧
    poisonedIn linked 0x3FFFF8 8 = false := by
  unfold PeerGoes Unguarded
  decide +kernel

theorem wit_boot : flashStatus none ≠ 0 ∧ flashStatus (some []) ≠ 0 ∧ headerFits (sliceBytes []) = false ∧
    imageStatus (hostImage one 0) ≠ 0 ∧ serviceRoom one = true ∧ serviceRoom (unbooted one.dlive one) = true ∧
    one.rcvr.busy = false ∧ (partOf (setPart one 0 { partOf one 0 with resetting := true }) 0).resetting = true ∧
    (partOf one 0).resetting = false ∧ one.dirty = [] ∧ Unguarded one ∧ (partOf one 0).attBusy = false ∧ serviceRoom State.reset = true ∧ serviceRoom { State.reset with dlive := [7, 0, 0, 0, 0, 0, 0, 0] } = true ∧
    serviceRoom { State.reset with dlive := [3, 0, 0, 0, 0, 0, 0, 0] } = false ∧
    ({ one with rcvr := { busy := true } } : State).rcvr.busy = true ∧ Present one 0 ∧
    (partOf (setPart one 0 { partOf one 0 with attBusy := true }) 0).attBusy = true ∧ Memory.wf one.mem = true :=
  by unfold Present Unguarded; decide +kernel

/-! ### Registers of the host's functions -/

theorem wit_function_registers : Present one 0 ∧ ¬Present one 1 ∧ (queueOf one 0 63).tail.toNat ≤ (1 : Word).toNat ∧
    (1 : Word).toNat ≤ (queueOf one 0 63).head.toNat + 2 ^ (queueOf one 0 63).logn.toNat ∧
    ¬(2 : Word).toNat ≤ (queueOf one 0 63).head.toNat + 2 ^ (queueOf one 0 63).logn.toNat ∧
    (0x8410 : Word).toNat % 2 ^ 5 ≤ 16 ∧ (0x8410 : Word).getLsbD 15 = true ∧ (queueOf one 0 63).en = false ∧
    asidUsable one 0 ((0x8410 : Word).toNat / 2 ^ 16 % 2 ^ 13) = true ∧ 16 < (0x8411 : Word).toNat % 2 ^ 5 ∧
    (partOf one 0).scEn = false ∧ (partOf one 0).scHead.toNat ≤ (0 : Word).toNat ∧
    (0 : Word).toNat ≤ (partOf one 0).scTail.toNat ∧ ¬(1 : Word).toNat ≤ (partOf one 0).scTail.toNat ∧
    (partOf one 0).attBusy = false ∧ partOfCluster one 47 = some 0 ∧ (gateOf one 47).st = 0 ∧
    (∀ st ∈ ([2, 3, 4] : List (BitVec 3)), (gateOf (setGate one 47 { st := st }) 47).st = st) ∧
    (gateOf (setGate one 47 { st := 2, save := 5 }) 47).st ≠ 0 ∧
    (0x10000 : Word).toNat / 2 ^ 16 % 2 ^ 36 ≠ (gateOf (setGate one 47 { st := 2, save := 5 }) 47).save.toNat :=
  by unfold Present; decide +kernel

theorem wit_administrative : one.peerHeld = [] ∧ one.service = [] ∧ one.diehalt.getLsbD (7 : BitVec 3).toNat = false ∧ one.levels = [] ∧ one.cancels = [] ∧
    ({ one with diehalt := 0x80 } : State).diehalt.getLsbD (7 : BitVec 3).toNat = true ∧ one.booted = true ∧
    ({ one with booted := false } : State).booted = false ∧
    (oneT fun t => { t with bkpt := true, status := .halted 2 }).team.status = .halted 2 ∧ one.team.part = 0 ∧ one.team.lstk = [] ∧
    (∀ x ∈ (partOf one 1).queues, x.2.en = false) ∧
    (∃ x ∈ (partOf (setPart one 1 { queues := [(0, { en := true })] }) 1).queues, x.2.en = true) ∧ 16 < (17 : BitVec 5).toNat :=
  by decide +kernel

/-! ### The machine as a whole -/

/-- The state in which the team of a state is the current one, in the teams' turn. -/
def focusedIn (s : State) : State := focus { mapTeams s (countReady s) with ctlTurn := s.ctlTurn + 1 } p0

theorem turn_of {s : State} (h : s.inbox = [] ∧ s.powered = true ∧ s.ctlTurn % 2 = 0 ∧
    (candidates { mapTeams s (countReady s) with ctlTurn := s.ctlTurn + 1 }).head? = some p0) : TeamsTurn s (focusedIn s) p0 :=
  ⟨h.1, h.2.1, h.2.2.1, h.2.2.2, rfl⟩

/-- Nothing is in the way of the team's fetch. -/
def clear (f : State) : Bool :=
  f.team.softErr.isNone && (underWay f f.team).isNone && !f.team.bkpt && !fetchHeld f f.team &&
    decide (f.team.pc.toNat % 4 = 0) && decide (parcelOf f.team.pc ≠ 15)

theorem fetches_of {f : State} {l : Line} (h : clear f = true) (hl : fetchLine f f.team f.team.pc = .ok l) : Fetches f l := by
  simp only [clear, Bool.and_eq_true, decide_eq_true_eq, Option.isNone_iff_eq_none, Bool.not_eq_true'] at h
  exact ⟨h.1.1.1.1.1, h.1.1.1.1.2, h.1.1.1.2, h.1.1.2, hl, h.1.2, h.2⟩

/-- The line at the team's PC holds the instruction there, is paired or not, and holds this instruction after it. -/
def lineIs (f : State) (i : Instr) (n : Nat) (pair : Bool) (second : Option (Instr × Nat)) : Bool :=
  clear f && match fetchLine f f.team f.team.pc with
    | .ok l => decide (l.fillAt (parcelOf f.team.pc) = false) && okIs (decode (l.parcels.drop (parcelOf f.team.pc))) (i, n) &&
        decide (l.pair (parcelOf f.team.pc) = pair) && decide (l.instr (parcelOf f.team.pc + n) = second)
    | .error _ => false

theorem line_of {f : State} {i : Instr} {n : Nat} {pair : Bool} {second : Option (Instr × Nat)}
    (h : lineIs f i n pair second = true) :
    ∃ l, AtPc f l i n ∧ l.pair (parcelOf f.team.pc) = pair ∧ l.instr (parcelOf f.team.pc + n) = second := by
  unfold lineIs at h
  rw [Bool.and_eq_true] at h
  obtain ⟨h1, h4⟩ := h
  split at h4
  · rename_i l hl
    simp only [Bool.and_eq_true, decide_eq_true_eq] at h4
    exact ⟨l, ⟨fetches_of h1 hl, h4.1.1.1, ok_of h4.1.1.2⟩, h4.1.2, h4.2⟩
  · cases h4

/-- The state that an outcome leads to. -/
def nextOf (o : Host.Outcome State Fault Refusal) : State := match o with
  | .next t => t
  | _ => {}
def isNext (o : Host.Outcome State Fault Refusal) : Bool := match o with
  | .next _ => true
  | _ => false
theorem next_of {o : Host.Outcome State Fault Refusal} (h : isNext o = true) : o = .next (nextOf o) := by
  cases o <;> first | rfl | cases h

/-- What the instruction leads to from g, where it does not wait. -/
def ranFrom (i : Instr) (g : State) : State :=
  noteUse (nextOf (exec i g)) (placeKey g.team.place) (laneGroups (lanesBegun i g))
theorem ran_of {i : Instr} {g : State} (h : isNext (exec i g) = true ∧ waitsThere g (nextOf (exec i g)) = false ∧
    needsGroups i g = []) : RunsWith i g (ranFrom i g) := ⟨_, next_of h.1, .inr ⟨h.2.1, h.2.2, rfl⟩⟩

/-- The code of `one`; a pair of an ADDI and a branch; and a pair whose branch awaits s62. -/
def single : State := focusedIn one
def pairWith (j : Instr) : State :=
  { one with mem := writeCells one.mem 0x30000 (lineWith (encode (.addi 1 (r 1) (-1)) ++ encode j ++ someCode) 0xD 1) }
def branchPair : State := pairWith (.bc .al 1)
def first1 : State := ranFrom (.addi 1 (r 1) (-1)) (fetched (focusedIn branchPair) 0)
def second1 : State := ((openPair (fetched (focusedIn branchPair) 0) first1 4).getD {})
def emptyPair : State := withTeam (pairWith (.jr (r 62))) fun t =>
    { t with sEmpty := t.sEmpty ||| BitVec.ofNat 64 (2 ^ 62), inflight := [⟨.scal 62, .broadcast false, false⟩] }
/-- The pair in the body of a capsule. -/
def bodyPair : State := withTeam branchPair fun t => { t with held := some hold1 }
def atFill : State := withTeam one fun t => { t with pc := 0x14 }
def darkLanes : State := { one with cores := [(0, { section64 := 1, powered := 0 })] }

theorem wit_step : TeamsTurn one single p0 ∧ (∃ l, AtPc single l (.addi 1 (r 1) (-1)) 1 ∧ l.pair (parcelOf single.team.pc) = false) ∧
    RunsWith (.addi 1 (r 1) (-1)) (fetched single single.team.pc) (ranFrom (.addi 1 (r 1) (-1)) (fetched single single.team.pc)) ∧
    stillWaits single (ranFrom (.addi 1 (r 1) (-1)) (fetched single single.team.pc)) = false ∧
    needsGroups (.fabs ⟨4, 1, .f32, .vec (v 1)⟩) darkLanes ≠ [] ∧
    (∃ u, exec (.fabs ⟨4, 1, .f32, .vec (v 1)⟩) darkLanes = .next u ∧ waitsThere darkLanes u = false) := by
  refine ⟨turn_of (by decide +kernel), ?_, ran_of (by decide +kernel), by decide +kernel, by decide +kernel,
    ⟨_, next_of (by decide +kernel), by decide +kernel⟩⟩
  obtain ⟨l, h, h1, -⟩ := line_of (f := single) (i := .addi 1 (r 1) (-1)) (n := 1) (pair := false)
    (second := some (.addi 1 (r 1) (-1), 1)) (by decide +kernel)
  exact ⟨l, h, h1⟩

theorem opened_of {o : Option State} (h : o.isSome = true) : o = some (o.getD {}) := by
  cases o with
  | some x => rfl
  | none => cases h

theorem wit_step_pair : TeamsTurn branchPair (focusedIn branchPair) p0 ∧
    (∃ l, AtPc (focusedIn branchPair) l (.addi 1 (r 1) (-1)) 1 ∧ OpensPair (focusedIn branchPair) l 1 (.bc .al 1) 1) ∧
    awaitAll (fetched (focusedIn branchPair) 0) (waitsFor (Instr.bc .al 1).uses) = some (fetched (focusedIn branchPair) 0) ∧
    needsGroups (.bc .al 1) (fetched (focusedIn branchPair) 0) = [] ∧
    RunsWith (.addi 1 (r 1) (-1)) (fetched (focusedIn branchPair) 0) first1 ∧
    openPair (fetched (focusedIn branchPair) 0) first1 4 = some second1 ∧ RunsWith (.bc .al 1) second1 (ranFrom (.bc .al 1) second1) ∧
    stillWaits (focusedIn branchPair) (ranFrom (.bc .al 1) second1) = false := by
  refine ⟨turn_of (by decide +kernel), ?_, rfl, by decide +kernel, ran_of (by decide +kernel), opened_of (by decide +kernel),
    ran_of (by decide +kernel), by decide +kernel⟩
  obtain ⟨l, h, h1, h2⟩ := line_of (f := focusedIn branchPair) (i := .addi 1 (r 1) (-1)) (n := 1) (pair := true)
    (second := some (.bc .al 1, 1)) (by decide +kernel)
  exact ⟨l, h, h1, by decide +kernel, by decide +kernel, by decide +kernel, h2, by decide +kernel⟩

theorem wit_step_body : TeamsTurn bodyPair (focusedIn bodyPair) p0 ∧
    (∃ l, AtPc (focusedIn bodyPair) l (.addi 1 (r 1) (-1)) 1 ∧ l.pair (parcelOf (focusedIn bodyPair).team.pc) = true) ∧
    (focusedIn bodyPair).team.inPair = false ∧ (focusedIn bodyPair).team.asked = false ∧ inBody (focusedIn bodyPair).team = true ∧
    (focusedIn bodyPair).team.status = .ready ∧ (focusedIn bodyPair).team.cancelling = false := by
  refine ⟨turn_of (by decide +kernel), ?_, by decide +kernel⟩
  obtain ⟨l, h, h1, -⟩ := line_of (f := focusedIn bodyPair) (i := .addi 1 (r 1) (-1)) (n := 1) (pair := true)
    (second := some (.bc .al 1, 1)) (by decide +kernel)
  exact ⟨l, h, h1⟩

theorem wit_step_waits : TeamsTurn emptyPair (focusedIn emptyPair) p0 ∧
    (∃ l, AtPc (focusedIn emptyPair) l (.addi 1 (r 1) (-1)) 1 ∧ OpensPair (focusedIn emptyPair) l 1 (.jr (r 62)) 1) ∧
    (awaitAll (fetched (focusedIn emptyPair) 0) (waitsFor (Instr.jr (r 62)).uses)).isNone = true ∧
    (focusedIn emptyPair).team.status = .ready ∧ TeamsTurn atFill (focusedIn atFill) p0 ∧
    (∃ l, Fetches (focusedIn atFill) l ∧ l.fillAt (parcelOf (focusedIn atFill).team.pc) = true) := by
  refine ⟨turn_of (by decide +kernel), ?_, by decide +kernel, by decide +kernel, turn_of (by decide +kernel), ?_⟩
  · obtain ⟨l, h, h1, h2⟩ := line_of (f := focusedIn emptyPair) (i := .addi 1 (r 1) (-1)) (n := 1) (pair := true)
      (second := some (.jr (r 62), 1)) (by decide +kernel)
    exact ⟨l, h, h1, by decide +kernel, by decide +kernel, by decide +kernel, h2, by decide +kernel⟩
  have hc : clear (focusedIn atFill) = true := by decide +kernel
  have hf : ∀ l, fetchLine (focusedIn atFill) (focusedIn atFill).team (focusedIn atFill).team.pc = .ok l →
      Fetches (focusedIn atFill) l := fun l => fetches_of hc
  have h : okIs ((fetchLine (focusedIn atFill) (focusedIn atFill).team (focusedIn atFill).team.pc).map
      fun l => l.fillAt (parcelOf (focusedIn atFill).team.pc)) true = true := by decide +kernel
  generalize fetchLine (focusedIn atFill) (focusedIn atFill).team (focusedIn atFill).team.pc = e at h hf
  cases e with
  | ok l => exact ⟨l, hf l rfl, of_decide_eq_true h⟩
  | error c => cases h

theorem wit_machine : CanonicalMemory one ∧ one.powered = true ∧ ({ one with powered := false } : State).powered = false ∧
    Instr.wf (.addi 1 (r 1) (-1)) = true ∧ encode (.addi 1 (r 1) (-1)) ≠ [] :=
  ⟨by unfold CanonicalMemory; decide +kernel, by decide +kernel, rfl, by decide, by decide +kernel⟩

end Sys2Proof.Tests
end

