-- ==== Sys2Proof/Tests/WitnessesBoot.lean ====
section
/-! SUPPORT. A firmware image that the four checks accept, in the flash and supplied by the host. -/

namespace Sys2Proof.Tests

set_option Elab.async false

open Sys2Proof Sys2Proof.Machine

theorem bytesOfNat_length (n v : Nat) : (bytesOfNat n v).length = n := by
  induction n generalizing v with
  | zero => rfl
  | succ n ih => simp [bytesOfNat, ih]

theorem natOfBytes_bytesOfNat (n v : Nat) (h : v < 256 ^ n) : natOfBytes (bytesOfNat n v) = v := by
  induction n generalizing v with
  | zero => simp [bytesOfNat, natOfBytes]; omega
  | succ n ih =>
    have : v / 256 < 256 ^ n := Nat.div_lt_of_lt_mul (by rw [Nat.pow_succ] at h; omega)
    simp only [bytesOfNat, natOfBytes, ih _ this, BitVec.toNat_ofNat]
    omega

/-- The bytes at an offset of a list that holds them there. -/
theorem slice_mid (pre mid post : List Byte) (off n : Nat) (ho : pre.length = off) (hn : mid.length = n) :
    sliceBytes (pre ++ (mid ++ post)) off n = mid := by
  subst ho hn
  simp [sliceBytes]

theorem slice_end (pre mid : List Byte) (off n : Nat) (ho : pre.length = off) (hn : mid.length = n) :
    sliceBytes (pre ++ mid) off n = mid := by
  subst ho hn
  simp [sliceBytes]

theorem slice_self (bs : List Byte) : sliceBytes bs 0 bs.length = bs := by simp [sliceBytes]

/-- The header of an image with no body: FORMAT, BLEN, VERSION, BDIGEST, zeros, SLEN and zeros (R394). -/
def header (version : Nat) : List Byte :=
  bytesOfNat 8 1 ++ (bytesOfNat 8 0 ++ (bytesOfNat 8 version ++ (bytesOfNat 64 (shake256 []).toNat ++
    (bytesOfNat 3880 0 ++ (bytesOfNat 2 1280 ++ bytesOfNat 126 0)))))

/-- The image digest of such a header, the signature of it that the vendor made, and the image. -/
def imageDigestOf (version : Nat) : BitVec 512 := shake256 ((header version).take 3968)
def accepted : List Byte :=
  header Config.rollbackFloor.toNat ++
    bytesOfNat 1280 (Config.vendorSignature (imageDigestOf Config.rollbackFloor.toNat)).toNat

/-- Where each field of the image lies. -/
theorem accepted_fields : sliceBytes accepted 0 8 = bytesOfNat 8 1 ∧ sliceBytes accepted 8 8 = bytesOfNat 8 0 ∧
    sliceBytes accepted 16 8 = bytesOfNat 8 Config.rollbackFloor.toNat ∧
    sliceBytes accepted 24 64 = bytesOfNat 64 (shake256 []).toNat ∧ sliceBytes accepted 88 3880 = bytesOfNat 3880 0 ∧
    sliceBytes accepted 3968 2 = bytesOfNat 2 1280 ∧ sliceBytes accepted 3970 126 = bytesOfNat 126 0 ∧
    sliceBytes accepted 4096 1280 =
      bytesOfNat 1280 (Config.vendorSignature (imageDigestOf Config.rollbackFloor.toNat)).toNat := by
  refine ⟨?_, ?_, ?_, ?_, ?_, ?_, ?_, ?_⟩ <;> simp only [accepted, header, List.append_assoc]
  · exact slice_mid [] _ _ _ _ rfl (bytesOfNat_length _ _)
  · exact slice_mid _ _ _ _ _ (bytesOfNat_length _ _) (bytesOfNat_length _ _)
  · rw [← List.append_assoc]
    exact slice_mid _ _ _ _ _ (by simp [bytesOfNat_length]) (bytesOfNat_length _ _)
  · rw [← List.append_assoc, ← List.append_assoc]
    exact slice_mid _ _ _ _ _ (by simp [bytesOfNat_length]) (bytesOfNat_length _ _)
  · rw [← List.append_assoc, ← List.append_assoc, ← List.append_assoc]
    exact slice_mid _ _ _ _ _ (by simp [bytesOfNat_length]) (bytesOfNat_length _ _)
  · rw [← List.append_assoc, ← List.append_assoc, ← List.append_assoc, ← List.append_assoc]
    exact slice_mid _ _ _ _ _ (by simp [bytesOfNat_length]) (bytesOfNat_length _ _)
  · rw [← List.append_assoc, ← List.append_assoc, ← List.append_assoc, ← List.append_assoc, ← List.append_assoc]
    exact slice_mid _ _ _ _ _ (by simp [bytesOfNat_length]) (bytesOfNat_length _ _)
  · rw [← List.append_assoc, ← List.append_assoc, ← List.append_assoc, ← List.append_assoc, ← List.append_assoc,
      ← List.append_assoc]
    exact slice_end _ _ _ _ (by simp [bytesOfNat_length]) (bytesOfNat_length _ _)

theorem accepted_length : accepted.length = 5376 := by simp [accepted, header, bytesOfNat_length]

/-- A slice of a slice from 0. -/
theorem slice_slice (bs : List Byte) (m off n : Nat) (h : off + n ≤ m) :
    sliceBytes (sliceBytes bs 0 m) off n = sliceBytes bs off n := by
  simp [sliceBytes, List.drop_take, List.take_take]
  omega

theorem natAt_field {bs : List Byte} {off n v : Nat} (h : sliceBytes bs off n = bytesOfNat n v) (hv : v < 256 ^ n) :
    natAt bs off n = v := by rw [natAt, h, natOfBytes_bytesOfNat n v hv]

theorem field_of {img : Image} {off n v : Nat} (h : img off n = bytesOfNat n v) (hv : v < 256 ^ n) : imageField img off n = v := by
  have hl : sliceBytes (img off n) 0 n = bytesOfNat n v := by
    have := slice_self (bytesOfNat n v)
    rw [bytesOfNat_length] at this
    rw [h, this]
  exact natAt_field hl hv

theorem digest_lt (x : BitVec 512) : x.toNat < 256 ^ 64 := by
  rw [show 256 = 2 ^ 8 from rfl, ← Nat.pow_mul]
  exact x.isLt

theorem accepted_of {img : Image} (h : ∀ off n, off + n ≤ 5376 → img off n = sliceBytes accepted off n) :
    headerFits img = true ∧ imageStatus img = 0 := by
  obtain ⟨f0, f1, f2, f3, f4, f5, f6, f7⟩ := accepted_fields
  have at_ : ∀ off n v, off + n ≤ 4096 → sliceBytes accepted off n = bytesOfNat n v → v < 256 ^ n →
      natAt (img 0 4096) off n = v := fun off n v hn hs hv => by
    rw [h 0 4096 (by omega)]
    exact natAt_field ((slice_slice _ _ _ _ hn).trans hs) hv
  have g0 := at_ 0 8 1 (by omega) f0 (by decide)
  have g1 := at_ 8 8 0 (by omega) f1 (by decide)
  have g4 := at_ 88 3880 0 (by omega) f4 (Nat.pow_pos (by decide))
  have g5 := at_ 3968 2 1280 (by omega) f5 (by decide)
  have g6 := at_ 3970 126 0 (by omega) f6 (Nat.pow_pos (by decide))
  have fits : headerFits img = true := by simp [headerFits, zeroBytes, g0, g1, g4, g5, g6]
  have e1 : imageField img 8 8 = 0 := field_of ((h 8 8 (by omega)).trans f1) (by decide)
  have e2 : imageField img 16 8 = Config.rollbackFloor.toNat :=
    field_of ((h 16 8 (by omega)).trans f2) Config.rollbackFloor.isLt
  have e3 : imageField img 24 64 = (shake256 []).toNat := field_of ((h 24 64 (by omega)).trans f3) (digest_lt _)
  have e5 : imageField img 3968 2 = 1280 := field_of ((h 3968 2 (by omega)).trans f5) (by decide)
  have body : imageBody img = [] := by rw [imageBody, e1, h 4096 0 (by omega)]; simp [sliceBytes]
  have dg : digestOf img = imageDigestOf Config.rollbackFloor.toNat := by
    have hl : (header Config.rollbackFloor.toNat).length = 4096 := by simp [header, bytesOfNat_length]
    rw [digestOf, body, List.append_nil, h 0 3968 (by omega), imageDigestOf, sliceBytes, accepted, List.drop_zero,
      List.take_append_of_le_length (by omega)]
  have sg : imageSignature img = bytesOfNat 1280 (Config.vendorSignature (imageDigestOf Config.rollbackFloor.toNat)).toNat := by
    rw [imageSignature, e1, e5, h _ _ (by omega)]
    exact f7
  exact ⟨fits, by simp [imageStatus, fits, body, e3, dg, sg, vendorSigned, e2]⟩

/-- The flash holds an accepted image. -/
theorem wit_flash : flashStatus (some accepted) = 0 := by
  obtain ⟨h, h1⟩ := accepted_of (img := sliceBytes accepted) fun _ _ _ => rfl
  obtain ⟨-, f1, -, -, -, f5, -, -⟩ := accepted_fields
  have n1 := natAt_field f1 (by decide)
  have n5 := natAt_field f5 (by decide)
  simp [flashStatus, accepted_length, n1, n5, h1]

theorem memBytes_writeCells {s : State} {loc : Nat} {bs : List Byte} (off n : Nat) (h : off + n ≤ bs.length) :
    memBytes { s with mem := writeCells s.mem loc bs } (loc + off) n = sliceBytes bs off n := by
  induction n generalizing off with
  | zero => simp [memBytes, bytesBy, sliceBytes]
  | succ n ih =>
    have hlt : off < bs.length := by omega
    simp only [memBytes, bytesBy, sliceBytes] at ih ⊢
    rw [Nat.add_assoc, ih (off + 1) (by omega), List.drop_eq_getElem_cons hlt, List.take_succ_cons]
    congr 1
    simp only [memByte, mapGet_writeCells]
    rw [if_pos ⟨by omega, by omega⟩, Nat.add_sub_cancel_left, List.getD_eq_getElem?_getD, List.getElem?_eq_getElem hlt, Option.getD_some]

/-- The host supplies a list of bytes at 0x40000, and RCVR.GO has been written. -/
def supplied (bs : List Byte) : State :=
  { one with mem := writeCells one.mem (locHost 0x40000) bs, rcvr := { busy := true, addr := 0x40, run := 0x40 } }

theorem supplied_room (bs : List Byte) : serviceRoom (supplied bs) = true := by
  have room : ∀ (s : State) m r, serviceRoom { s with mem := m, rcvr := r } = serviceRoom s := fun _ _ _ => rfl
  rw [supplied, room]
  decide +kernel

theorem supplied_image (bs : List Byte) (off n : Nat) (h : off + n ≤ bs.length) :
    hostImage (supplied bs) 0x40 off n = sliceBytes bs off n := by
  have := memBytes_writeCells (s := { one with rcvr := { busy := true, addr := 0x40, run := 0x40 } }) (loc := locHost 0x40000) off n h
  simpa only [hostImage, supplied, locHost, Nat.add_assoc, show (64 : BitVec 40).toNat * 4096 = 0x40000 from rfl] using this

theorem wit_recovery : (∀ bs, (supplied bs).rcvr.busy = true ∧ (supplied bs).rcvr.run = 0x40 ∧ serviceRoom (supplied bs) = true) ∧
    imageStatus (hostImage (supplied accepted) 0x40) = 0 ∧ imageStatus (hostImage (supplied []) 0x40) ≠ 0 :=
  ⟨fun bs => ⟨rfl, rfl, supplied_room bs⟩,
   (accepted_of fun off n h => supplied_image accepted off n (by rw [accepted_length]; exact h)).2, by decide +kernel⟩

end Sys2Proof.Tests
end

section
/-! PROOFS. The register files read back what was written (O52), and what reset leaves (O60). -/

namespace Sys2Proof.RegisterState

open Sys2Proof.Machine

/-- Settles O52, by the laws of the register files. -/
theorem registersReadBack : Obligations.RegistersReadBack := by
  unfold Obligations.RegistersReadBack
  refine ⟨fun t d v r => sget_sset t d r v, sget_zero, fun _ _ => rfl, fun t l d v m r => vget_vset t l m d r v,
    fun t d m k => kget_kset t d k m, fun _ _ => rfl, ?_, ?_, ?_⟩
  · exact fun t d v => ⟨sset_vregs t d v, sset_masks t d v, sset_cc t d v⟩
  · exact fun t l d v => ⟨vset_sregs t l d v, vset_masks t l d v, vset_cc t l d v⟩
  · exact fun t d m => ⟨kset_sregs t d m, kset_vregs t d m, kset_cc t d m⟩

/-- Reset configures partition 0 alone (R392). -/
theorem partOf_reset_of_ne {p : BitVec 4} (h : p ≠ 0) : partOf State.reset p = {} := by
  have hp : p.toNat ≠ 0 := fun he => h (BitVec.eq_of_toNat_eq he)
  simp [partOf, State.reset, mapGet, hp]

theorem queueOf_reset (p : BitVec 4) (q : Nat) : queueOf State.reset p q = {} := by
  by_cases h : p = 0
  · subst h; rfl
  · rw [queueOf, partOf_reset_of_ne h]; rfl

/-- Settles O60: each value is the one that reset gives its field, by computation but for the 15 absent partitions. -/
theorem resetLeaves : Obligations.ResetLeaves := by
  unfold Obligations.ResetLeaves
  have absent : ∀ p : BitVec 4, p ≠ 0 → (partOf State.reset p).en = false ∧ (partOf State.reset p).pclus = 0 ∧
      (partOf State.reset p).asidCount = 0 := fun p h => by
    rw [partOf_reset_of_ne h]; exact ⟨rfl, rfl, rfl⟩
  exact ⟨⟨rfl, rfl⟩, rfl, rfl, rfl, rfl, rfl, rfl, rfl, rfl, rfl, rfl, rfl, rfl, rfl, rfl, rfl, rfl, absent, queueOf_reset,
    fun _ => rfl, fun _ => rfl⟩

end Sys2Proof.RegisterState
end

section
/-! PROOFS. The order of the checks at issue (O33). -/

namespace Sys2Proof.RegisterState

open Sys2Proof.Machine

/-- A stop that the checks at issue find is the stop that follows (R410). -/
theorem issue_checked_stop {i : Instr} {s s1 : State} {x : Stop} (body : State → Eff) (ha : s.team.asked = false)
    (hw : awaitAll s (waitsFor i.uses) = some s1) (hc : checkedAt i s1 body = .stop s1 x) :
    issue i s body = .next (stopAt s s1 x) := by
  simp [issue, checked, ha, hw, hc, Eff.cleaned, conclude]

/-- Settles O33: every instruction is the checks of R410 around an effect of its own, and each check answers before the next
is looked at. -/
theorem issueChecksComeInOrder : Obligations.IssueChecksComeInOrder := by
  unfold Obligations.IssueChecksComeInOrder
  intro i s hi ha
  obtain ⟨body, hexec⟩ := exec_is_issue i s hi
  rw [hexec]
  refine ⟨issue_wait body ha, fun s1 hw => ⟨?breach, ?use, ?source, ?poison⟩⟩
  case breach => exact fun hb => issue_checked_stop body ha hw (by simp [checkedAt, hb])
  case use => exact fun x hb hu => issue_use body ha hw hb hu
  case source => exact fun x hb hu he => issue_checked_stop body ha hw (by simp [checkedAt, hb, hu, he])
  case poison =>
    exact fun hb hu he hp => issue_checked_stop body ha hw (by simp only [checkedAt, hb, hu, he, hp]; rfl)

end Sys2Proof.RegisterState
end

section
/-! PROOFS. Results on their way (R54-R57): what a delivery writes, and what it leaves alone (O53). -/

namespace Sys2Proof.RegisterState

open Sys2Proof.Machine

/-! ### Full/empty and poison bits -/

/-- A bit set or cleared in a word of bits. -/
theorem getLsbD_setBit {n i : Nat} (hi : i < n) (x : BitVec n) (b : Bool) (j : Nat) :
    (if b then x ||| BitVec.ofNat n (2 ^ i) else x &&& ~~~(BitVec.ofNat n (2 ^ i))).getLsbD j =
      if j = i then b else x.getLsbD j := by
  by_cases hj : j < n
  · have hbit : (BitVec.ofNat n (2 ^ i)).getLsbD j = decide (i = j) := by
      rw [BitVec.getLsbD_ofNat, Nat.testBit_two_pow, decide_eq_true hj, Bool.true_and]
    cases b with
    | false => rw [if_neg Bool.false_ne_true, BitVec.getLsbD_and, BitVec.getLsbD_not, hbit]; grind
    | true => rw [if_pos rfl, BitVec.getLsbD_or, hbit]; grind
  · rw [BitVec.getLsbD_of_ge _ _ (by omega), BitVec.getLsbD_of_ge _ _ (by omega), if_neg (by omega)]

theorem getLsbD_setBit64 (x : BitVec 64) (r q : SReg) (b : Bool) :
    (setBit64 x r.toNat b).getLsbD q.toNat = if q = r then b else x.getLsbD q.toNat := by
  rw [setBit64, getLsbD_setBit (r.isLt : r.toNat < 64)]
  simp only [BitVec.toNat_inj]

theorem getLsbD_setBit128 (x : BitVec 128) (r q : VReg) (b : Bool) :
    (setBit128 x r.toNat b).getLsbD q.toNat = if q = r then b else x.getLsbD q.toNat := by
  rw [setBit128, getLsbD_setBit (r.isLt : r.toNat < 128)]
  simp only [BitVec.toNat_inj]

theorem markEmpty_scal (t : Team) {r : SReg} (h : r ≠ 0) (e : Bool) :
    markEmpty t (.scal r) e = { t with sEmpty := setBit64 t.sEmpty r.toNat e } := if_neg h

theorem markPoison_scal (t : Team) {r : SReg} (h : r ≠ 0) (b : Bool) :
    markPoison t (.scal r) b = { t with sPoison := setBit64 t.sPoison r.toNat b } := if_neg h

theorem vec_marked {r q : VReg} : q = r ↔ Dest.vec q = .vec r ∧ Dest.vec r ≠ .scal 0 :=
  ⟨fun he => ⟨congrArg _ he, nofun⟩, fun he => Dest.vec.inj he.1⟩

theorem scal_marked {r q : SReg} (h : r ≠ 0) : q = r ↔ Dest.scal q = .scal r ∧ Dest.scal r ≠ .scal 0 :=
  ⟨fun he => ⟨congrArg _ he, fun h0 => h (Dest.scal.inj h0)⟩, fun he => Dest.scal.inj he.1⟩

/-- s0 is never marked (R54). -/
theorem destEmpty_markEmpty (t : Team) (d d' : Dest) (e : Bool) :
    destEmpty (markEmpty t d e) d' = if d' = d ∧ d ≠ .scal 0 then e else destEmpty t d' := by
  match d, d' with
  | .scal r, .scal q =>
    by_cases hr : r = 0
    · subst hr; exact (if_neg fun h => h.2 rfl).symm
    · rw [markEmpty_scal t hr, destEmpty, getLsbD_setBit64]
      exact ite_congr (propext (scal_marked hr)) (fun _ => rfl) (fun _ => rfl)
  | .scal r, .vec q =>
    by_cases hr : r = 0
    · subst hr; exact (if_neg (by simp)).symm
    · rw [markEmpty_scal t hr, if_neg (by simp)]; rfl
  | .vec r, .scal q => exact (if_neg (by simp)).symm
  | .vec r, .vec q =>
    simp only [markEmpty, destEmpty, getLsbD_setBit128]
    exact ite_congr (propext vec_marked) (fun _ => rfl) (fun _ => rfl)

theorem destPoisoned_markPoison (t : Team) (d d' : Dest) (b : Bool) :
    destPoisoned (markPoison t d b) d' = if d' = d ∧ d ≠ .scal 0 then b else destPoisoned t d' := by
  match d, d' with
  | .scal r, .scal q =>
    by_cases hr : r = 0
    · subst hr; exact (if_neg fun h => h.2 rfl).symm
    · rw [markPoison_scal t hr, destPoisoned, getLsbD_setBit64]
      exact ite_congr (propext (scal_marked hr)) (fun _ => rfl) (fun _ => rfl)
  | .scal r, .vec q =>
    by_cases hr : r = 0
    · subst hr; exact (if_neg (by simp)).symm
    · rw [markPoison_scal t hr, if_neg (by simp)]; rfl
  | .vec r, .scal q => exact (if_neg (by simp)).symm
  | .vec r, .vec q =>
    simp only [markPoison, destPoisoned, getLsbD_setBit128]
    exact ite_congr (propext vec_marked) (fun _ => rfl) (fun _ => rfl)

/-! ### What a delivery writes -/

/-- Team t once the values of a result for d have arrived, poisoned or not. -/
def arrived (t : Team) (d : Dest) (vs : List (Nat × Word)) (p : Bool) : Team :=
  { markPoison (markEmpty (writeDest t d vs) d false) d p with inflight := t.inflight.filter fun g => g.dest != d }

theorem writeDest_eq (t : Team) (d : Dest) (vs : List (Nat × Word)) :
    ∃ S V, writeDest t d vs = { t with sregs := S, vregs := V } := by
  cases d with
  | scal r =>
    induction vs generalizing t with
    | nil => exact ⟨_, _, rfl⟩
    | cons x vs ih =>
      obtain ⟨S, V, h⟩ := ih (sset t r x.2)
      refine ⟨S, V, h.trans ?_⟩
      unfold sset; split <;> rfl
  | vec r =>
    induction vs generalizing t with
    | nil => exact ⟨_, _, rfl⟩
    | cons x vs ih => exact ih (vset t x.1 r x.2)

theorem markEmpty_eq (t : Team) (d : Dest) (e : Bool) : ∃ S V, markEmpty t d e = { t with sEmpty := S, vEmpty := V } := by
  cases d with
  | scal r =>
    by_cases hr : r = 0
    · subst hr; exact ⟨_, _, rfl⟩
    · exact ⟨_, _, markEmpty_scal t hr _⟩
  | vec r => exact ⟨_, _, rfl⟩

theorem markPoison_eq (t : Team) (d : Dest) (b : Bool) :
    ∃ S V, markPoison t d b = { t with sPoison := S, vPoison := V } := by
  cases d with
  | scal r =>
    by_cases hr : r = 0
    · subst hr; exact ⟨_, _, rfl⟩
    · exact ⟨_, _, markPoison_scal t hr _⟩
  | vec r => exact ⟨_, _, rfl⟩

theorem destEmpty_writeDest (t : Team) (d d' : Dest) (vs : List (Nat × Word)) :
    destEmpty (writeDest t d vs) d' = destEmpty t d' := by
  obtain ⟨S, V, h⟩ := writeDest_eq t d vs
  rw [h]; rfl

theorem destEmpty_markPoison (t : Team) (d d' : Dest) (b : Bool) : destEmpty (markPoison t d b) d' = destEmpty t d' := by
  obtain ⟨S, V, h⟩ := markPoison_eq t d b
  rw [h]; rfl

theorem destEmpty_arrived (t : Team) (d d' : Dest) (vs : List (Nat × Word)) (p : Bool) :
    destEmpty (arrived t d vs p) d' = if d' = d ∧ d ≠ .scal 0 then false else destEmpty t d' := by
  have hlast : destEmpty (arrived t d vs p) d' = destEmpty (markPoison (markEmpty (writeDest t d vs) d false) d p) d' := by
    cases d' <;> rfl
  rw [hlast, destEmpty_markPoison, destEmpty_markEmpty, destEmpty_writeDest]

theorem destPoisoned_arrived (t : Team) {d : Dest} (h : d ≠ .scal 0) (vs : List (Nat × Word)) (p : Bool) :
    destPoisoned (arrived t d vs p) d = p :=
  (destPoisoned_markPoison (markEmpty (writeDest t d vs) d false) d d p).trans (if_pos ⟨rfl, h⟩)

theorem sget_arrived (t : Team) (d : Dest) (vs : List (Nat × Word)) (p : Bool) (r : SReg) :
    sget (arrived t d vs p) r = sget (writeDest t d vs) r :=
  sget_congr ((markPoison_sregs ..).trans (markEmpty_sregs ..)) r

theorem arrived_vregs (t : Team) (d : Dest) (vs : List (Nat × Word)) (p : Bool) :
    (arrived t d vs p).vregs = (writeDest t d vs).vregs := (markPoison_vregs ..).trans (markEmpty_vregs ..)

theorem vget_arrived (t : Team) (d : Dest) (vs : List (Nat × Word)) (p : Bool) (l : Nat) (r : VReg) :
    vget (arrived t d vs p) l r = vget (writeDest t d vs) l r := by rw [vget, arrived_vregs]; rfl

theorem writeDest_scal_vregs (t : Team) (r : SReg) (vs : List (Nat × Word)) : (writeDest t (.scal r) vs).vregs = t.vregs := by
  induction vs generalizing t with
  | nil => rfl
  | cons x vs ih => exact (ih (sset t r x.2)).trans (sset_vregs ..)

theorem writeDest_vec_sregs (t : Team) (r : VReg) (vs : List (Nat × Word)) : (writeDest t (.vec r) vs).sregs = t.sregs := by
  induction vs generalizing t with
  | nil => rfl
  | cons x vs ih => exact ih (vset t x.1 r x.2)

theorem sget_writeDest_of_ne (t : Team) {d : Dest} {r : SReg} (h : Dest.scal r ≠ d) (vs : List (Nat × Word)) :
    sget (writeDest t d vs) r = sget t r := by
  cases d with
  | vec q => exact sget_congr (writeDest_vec_sregs t q vs) r
  | scal q =>
    have hq : r ≠ q := fun he => h (congrArg _ he)
    induction vs generalizing t with
    | nil => rfl
    | cons x vs ih => exact (ih (sset t q x.2)).trans ((sget_sset ..).trans (if_neg fun he => hq he.1))

theorem vget_writeDest_of_ne (t : Team) {d : Dest} (l : Nat) {r : VReg} (h : Dest.vec r ≠ d) (vs : List (Nat × Word)) :
    vget (writeDest t d vs) l r = vget t l r := by
  cases d with
  | scal q => rw [vget, writeDest_scal_vregs]; rfl
  | vec q =>
    have hq : r ≠ q := fun he => h (congrArg _ he)
    induction vs generalizing t with
    | nil => rfl
    | cons x vs ih => exact (ih (vset t x.1 q x.2)).trans ((vget_vset ..).trans (if_neg fun he => hq he.2))

theorem vget_writeDest_vec (t : Team) (d : VReg) (ls : List Nat) (g : Nat → Word) (l : Nat) (r : VReg) :
    vget (writeDest t (.vec d) (ls.map fun l => (l, g l))) l r = if r = d ∧ l ∈ ls then g l else vget t l r := by
  have hlanes : writeDest t (.vec d) (ls.map fun l => (l, g l)) = vsetLanes t d ls g := List.foldl_map
  rw [hlanes, vget_vsetLanes]
  exact ite_congr (propext and_comm) (fun _ => rfl) (fun _ => rfl)

/-! ### Deliveries -/

/-- A delivery marks a register full that has no result on its way, or writes the values of the one that it has. -/
theorem deliver_cases {t u : Team} {d : Dest} (h : deliver t d = some u) :
    u = markEmpty t d false ∨ ∃ vs p, u = arrived t d vs p := by
  unfold deliver at h
  split at h
  · exact .inl (Option.some.inj h).symm
  · next f _ =>
    simp only at h
    split at h
    · exact .inr ⟨_, f.poison, (Option.some.inj h).symm⟩
    · exact .inr ⟨_, f.poison, (Option.some.inj h).symm⟩
    · cases h

/-- The one result on its way to a register, its values known, is delivered (R54). -/
theorem deliver_values {t : Team} {d : Dest} {vs : List (Nat × Word)} {p : Bool} {before after : List Inflight}
    (h : t.inflight = before ++ ⟨d, .values vs, p⟩ :: after) (hd : ∀ f ∈ before ++ after, f.dest ≠ d) :
    deliver t d = some (arrived t d vs p) := by
  have hbefore : before.find? (fun f => decide (f.dest = d)) = none :=
    List.find?_eq_none.mpr fun f hf => by simpa using hd f (List.mem_append_left _ hf)
  have hfind : t.inflight.find? (fun f => decide (f.dest = d)) = some ⟨d, .values vs, p⟩ := by simp [h, hbefore]
  simp only [deliver, hfind]
  rfl

theorem arrived_inflight {t : Team} {d : Dest} {src : FillSrc} {p : Bool} {before after : List Inflight}
    (h : t.inflight = before ++ ⟨d, src, p⟩ :: after) (hd : ∀ f ∈ before ++ after, f.dest ≠ d) (vs : List (Nat × Word))
    (q : Bool) : (arrived t d vs q).inflight = before ++ after := by
  have hbefore : before.filter (fun f => f.dest != d) = before :=
    List.filter_eq_self.mpr fun f hf => by simpa using hd f (List.mem_append_left _ hf)
  have hafter : after.filter (fun f => f.dest != d) = after :=
    List.filter_eq_self.mpr fun f hf => by simpa using hd f (List.mem_append_right _ hf)
  simp [arrived, h, hbefore, hafter]

/-- A delivery touches the registers of a team, their bits and the results on their way, and nothing else. -/
def RegistersOnly (t u : Team) : Prop :=
  u = { t with sregs := u.sregs, vregs := u.vregs, sEmpty := u.sEmpty, vEmpty := u.vEmpty, sPoison := u.sPoison,
               vPoison := u.vPoison, inflight := u.inflight }

theorem RegistersOnly.refl (t : Team) : RegistersOnly t t := rfl

theorem RegistersOnly.trans {t u v : Team} (h : RegistersOnly t u) (h' : RegistersOnly u v) : RegistersOnly t v := by
  unfold RegistersOnly at *
  rw [h', h]

section
variable {t u : Team} (h : RegistersOnly t u)
include h

theorem RegistersOnly.masks : u.masks = t.masks := by rw [show u = _ from h]

theorem RegistersOnly.place : u.place = t.place := by rw [show u = _ from h]

theorem RegistersOnly.status : u.status = t.status := by rw [show u = _ from h]

theorem RegistersOnly.pc : u.pc = t.pc := by rw [show u = _ from h]

end

theorem registersOnly_markEmpty (t : Team) (d : Dest) (e : Bool) : RegistersOnly t (markEmpty t d e) := by
  obtain ⟨S, V, h⟩ := markEmpty_eq t d e
  rw [h]; rfl

theorem registersOnly_arrived (t : Team) (d : Dest) (vs : List (Nat × Word)) (p : Bool) :
    RegistersOnly t (arrived t d vs p) := by
  obtain ⟨_, _, hw⟩ := writeDest_eq t d vs
  obtain ⟨_, _, he⟩ := markEmpty_eq (writeDest t d vs) d false
  obtain ⟨_, _, hp⟩ := markPoison_eq (markEmpty (writeDest t d vs) d false) d p
  rw [arrived, hp, he, hw]; rfl

theorem registersOnly_deliver {t u : Team} {d : Dest} (h : deliver t d = some u) : RegistersOnly t u := by
  obtain rfl | ⟨vs, p, rfl⟩ := deliver_cases h
  · exact registersOnly_markEmpty t d false
  · exact registersOnly_arrived t d vs p

/-! ### Waiting for registers -/

/-- A register whose result on its way has its values is waited for at once (R56). -/
theorem awaitDest_values {s : State} {d : Dest} {vs : List (Nat × Word)} {p : Bool} {before after : List Inflight}
    (h : s.team.inflight = before ++ ⟨d, .values vs, p⟩ :: after) (hd : ∀ f ∈ before ++ after, f.dest ≠ d)
    (he : destEmpty s.team d = true) : awaitDest s d = some (withTeam s fun _ => arrived s.team d vs p) := by
  rw [awaitDest, if_pos he, deliver_values h hd]; rfl

theorem awaitDest_full {s : State} {d : Dest} (h : destEmpty s.team d = false) : awaitDest s d = some s := by
  simp [awaitDest, h]

/-- With no request at the service teams, they have nothing to perform. -/
theorem drain_idle {s : State} (h : s.service = []) : drain s = s := by
  obtain ⟨⟩ := s
  cases h
  rfl

/-- A register waited for was full, or its result is delivered. -/
theorem awaitDest_cases {s s1 : State} {d : Dest} (hs : s.service = []) (h : awaitDest s d = some s1) :
    s1 = s ∧ destEmpty s.team d = false ∨ ∃ u, deliver s.team d = some u ∧ s1 = { s with team := u } := by
  unfold awaitDest at h
  split at h
  · split at h
    · next u hu => exact .inr ⟨u, hu, (Option.some.inj h).symm⟩
    · next hu => simp [drain_idle hs, hu] at h
  · next he => exact .inl ⟨(Option.some.inj h).symm, by simpa using he⟩

/-- Team u is t with the registers of ds waited for, and all else as it was. -/
structure Awaited (ds : List Dest) (t u : Team) : Prop where
  only : RegistersOnly t u
  scal : ∀ r, Dest.scal r ∉ ds → sget u r = sget t r
  vec : ∀ l r, Dest.vec r ∉ ds → vget u l r = vget t l r
  bits : ∀ d, d ∉ ds → destEmpty u d = destEmpty t d
  full : ∀ d ∈ ds, d ≠ .scal 0 → destEmpty u d = false

theorem awaited_nil (t : Team) : Awaited [] t t := ⟨.refl t, fun _ _ => rfl, fun _ _ _ => rfl, fun _ _ => rfl, nofun⟩

/-- A register that the later waits do not name stays as the first left it. -/
theorem Awaited.cons {d : Dest} {ds : List Dest} {t u v : Team} (h : Awaited [d] t u) (h' : Awaited ds u v) :
    Awaited (d :: ds) t v where
  only := h.only.trans h'.only
  scal r hr := by
    rw [List.mem_cons, not_or] at hr
    rw [h'.scal r hr.2, h.scal r (by simpa using hr.1)]
  vec l r hr := by
    rw [List.mem_cons, not_or] at hr
    rw [h'.vec l r hr.2, h.vec l r (by simpa using hr.1)]
  bits e he := by
    rw [List.mem_cons, not_or] at he
    rw [h'.bits e he.2, h.bits e (by simpa using he.1)]
  full e he hne := by
    by_cases hmem : e ∈ ds
    · exact h'.full e hmem hne
    · have hed : e = d := (List.mem_cons.mp he).resolve_right hmem
      rw [h'.bits e hmem, h.full e (by simp [hed]) hne]

theorem awaited_of_full {t : Team} {d : Dest} (h : destEmpty t d = false) : Awaited [d] t t where
  only := .refl t
  scal _ _ := rfl
  vec _ _ _ := rfl
  bits _ _ := rfl
  full e he _ := by rwa [List.mem_singleton.mp he]

theorem awaited_markEmpty (t : Team) (d : Dest) : Awaited [d] t (markEmpty t d false) where
  only := registersOnly_markEmpty t d false
  scal r _ := sget_congr (markEmpty_sregs ..) r
  vec l r _ := by rw [vget, markEmpty_vregs]; rfl
  bits e he := by rw [destEmpty_markEmpty, if_neg fun h => he (List.mem_singleton.mpr h.1)]
  full e he hne := by
    obtain rfl := List.mem_singleton.mp he
    rw [destEmpty_markEmpty, if_pos ⟨rfl, hne⟩]

theorem awaited_arrived (t : Team) (d : Dest) (vs : List (Nat × Word)) (p : Bool) : Awaited [d] t (arrived t d vs p) where
  only := registersOnly_arrived t d vs p
  scal r hr := by rw [sget_arrived, sget_writeDest_of_ne t fun he => hr (List.mem_singleton.mpr he)]
  vec l r hr := by rw [vget_arrived, vget_writeDest_of_ne t l fun he => hr (List.mem_singleton.mpr he)]
  bits e he := by rw [destEmpty_arrived, if_neg fun h => he (List.mem_singleton.mpr h.1)]
  full e he hne := by
    obtain rfl := List.mem_singleton.mp he
    rw [destEmpty_arrived, if_pos ⟨rfl, hne⟩]

theorem awaited_deliver {t u : Team} {d : Dest} (h : deliver t d = some u) : Awaited [d] t u := by
  obtain rfl | ⟨vs, p, rfl⟩ := deliver_cases h
  · exact awaited_markEmpty t d
  · exact awaited_arrived t d vs p

/-- One wait changes the current team alone. -/
theorem awaited_awaitDest {s s1 : State} {d : Dest} (hs : s.service = []) (h : awaitDest s d = some s1) :
    ∃ u, s1 = { s with team := u } ∧ Awaited [d] s.team u := by
  obtain ⟨rfl, hfull⟩ | ⟨u, hu, rfl⟩ := awaitDest_cases hs h
  · exact ⟨s1.team, rfl, awaited_of_full hfull⟩
  · exact ⟨u, rfl, awaited_deliver hu⟩

theorem awaited_awaitAll {ds : List Dest} {s s1 : State} (hs : s.service = []) (h : awaitAll s ds = some s1) :
    ∃ u, s1 = { s with team := u } ∧ Awaited ds s.team u := by
  induction ds generalizing s with
  | nil =>
    obtain rfl : s = s1 := Option.some.inj h
    exact ⟨s.team, rfl, awaited_nil s.team⟩
  | cons d ds ih =>
    obtain ⟨s2, h2, hrest⟩ := Option.bind_eq_some_iff.mp h
    obtain ⟨u, rfl, hu⟩ := awaited_awaitDest hs h2
    obtain ⟨v, rfl, hv⟩ := ih (s := { s with team := u }) hs hrest
    exact ⟨v, rfl, hu.cons hv⟩

theorem awaitedResultsArrive : AwaitedResultsArrive := by
  unfold AwaitedResultsArrive
  refine ⟨fun s d ls g p before after h hd he => ?vec, fun s d v p before after h0 h hd he => ?scal,
    fun s d he => awaitDest_full he⟩
  case vec =>
    refine ⟨_, awaitDest_values h hd he, ?_, destPoisoned_arrived (d := .vec d) _ nofun _ _, arrived_inflight h hd _ _, ?_, ?_, ?_⟩
    · rw [destEmpty_arrived, if_pos ⟨rfl, nofun⟩]
    · exact (markPoison_sregs ..).trans ((markEmpty_sregs ..).trans (writeDest_vec_sregs ..))
    · exact (registersOnly_arrived ..).masks
    · intro l r
      rw [vget_arrived, vget_writeDest_vec]
  case scal =>
    have hne : Dest.scal d ≠ .scal 0 := fun he => h0 (Dest.scal.inj he)
    refine ⟨_, awaitDest_values h hd he, ?_, destPoisoned_arrived _ hne _ _, arrived_inflight h hd _ _, ?_, ?_, ?_⟩
    · rw [destEmpty_arrived, if_pos ⟨rfl, hne⟩]
    · exact (arrived_vregs ..).trans (writeDest_scal_vregs ..)
    · exact (registersOnly_arrived ..).masks
    · intro r
      rw [sget_arrived]
      exact (sget_sset ..).trans (ite_congr (propext (and_iff_left h0)) (fun _ => rfl) (fun _ => rfl))

theorem waitingKeepsTheRest : WaitingKeepsTheRest := by
  unfold WaitingKeepsTheRest
  intro s ds s1 hs h
  obtain ⟨u, hu, ha⟩ := awaited_awaitAll hs h
  exact ⟨u, hu, ha.only, fun r hr => ⟨ha.scal r hr, ha.bits _ hr⟩, fun l r hr => ⟨ha.vec l r hr, ha.bits _ hr⟩, ha.full⟩

/-- Settles O53, by what one delivery writes and an induction over the registers waited for. -/
theorem resultsArriveWhenWaitedFor : Obligations.ResultsArriveWhenWaitedFor := ⟨awaitedResultsArrive, waitingKeepsTheRest⟩

end Sys2Proof.RegisterState
end

section
/-! PROOFS. What arrives at its place (O41): results, requests at service teams, held arrivals, and STATE of capsule records. -/

namespace Sys2Proof.RegisterState

open Sys2Proof.Machine

/-! ### Results -/

/-- What a change makes of the team in a context, when it leaves every team resident where it is. -/
theorem teamAt_mapTeam (s : State) (p : Place) {f : Team → Team} (hplace : ∀ t, (f t).place = t.place)
    (hstatus : ∀ t, (f t).status = t.status) : teamAt (mapTeam s p f) p = (teamAt s p).map f := by
  by_cases h : (decide (s.team.place = p) && s.team.status != .vacant) = true
  · have hf : (decide ((f s.team).place = p) && (f s.team).status != .vacant) = true := by rwa [hplace, hstatus]
    simp only [mapTeam, teamAt, if_pos h, if_pos hf, Option.map_some]
  · simp only [mapTeam, teamAt, if_neg h, List.find?_map, Function.comp_def]
    have hsame : ∀ t : Team, decide ((if t.place = p then f t else t).place = p) = decide (t.place = p) := fun t => by
      split <;> simp [hplace]
    simp only [hsame]
    cases hu : s.others.find? fun t => decide (t.place = p) with
    | none => rfl
    | some u =>
      have hat : u.place = p := by simpa using List.find?_some hu
      simp [hat]

/-- What REGISTER_FILL makes of a team. -/
def filledFirst (t : Team) : Team := ((firstResult t).bind fun d => deliver t d).getD t

theorem registersOnly_filledFirst (t : Team) : RegistersOnly t (filledFirst t) := by
  unfold filledFirst
  cases h : (firstResult t).bind fun d => deliver t d with
  | none => exact .refl t
  | some u =>
    obtain ⟨d, _, hu⟩ := Option.bind_eq_some_iff.mp h
    exact registersOnly_deliver hu

/-- The first result of a team, when its values are known, is the one that arrives. -/
theorem filledFirst_values {t : Team} {d : Dest} {vs : List (Nat × Word)} {p : Bool} {rest : List Inflight}
    (h : t.inflight = ⟨d, .values vs, p⟩ :: rest) (hd : ∀ f ∈ rest, f.dest ≠ d) : filledFirst t = arrived t d vs p := by
  have hfirst : firstResult t = some d := by simp [firstResult, h]
  simp only [filledFirst, hfirst, Option.bind_some, deliver_values (before := []) h hd, Option.getD_some]

theorem registerFillArrives {s : State} {p : Place} {u : Team} {d : SReg} {v : Word} {b : Bool} {rest : List Inflight}
    (hu : teamAt s p = some u) (h0 : d ≠ 0) (h : u.inflight = ⟨.scal d, .values [(0, v)], b⟩ :: rest)
    (hd : ∀ f ∈ rest, f.dest ≠ .scal d) : ∃ t w, exec (.registerFill p) s = .next t ∧ teamAt t p = some w ∧
      destEmpty w (.scal d) = false ∧ destPoisoned w (.scal d) = b ∧ w.inflight = rest ∧ w.pc = u.pc ∧ w.vregs = u.vregs ∧
      (∀ r, sget w r = if r = d then v else sget u r) ∧ t.mem = s.mem := by
  have hne : Dest.scal d ≠ .scal 0 := fun he => h0 (Dest.scal.inj he)
  have hteam : teamAt (mapTeam s p filledFirst) p = some (arrived u (.scal d) [(0, v)] b) := by
    rw [teamAt_mapTeam s p (fun t => (registersOnly_filledFirst t).place) (fun t => (registersOnly_filledFirst t).status), hu,
      Option.map_some, filledFirst_values h hd]
  refine ⟨_, _, rfl, hteam, ?_, destPoisoned_arrived _ hne _ _, arrived_inflight (before := []) h hd _ _,
    (registersOnly_arrived ..).pc, (arrived_vregs ..).trans (writeDest_scal_vregs ..), fun r => ?_, mapTeam_mem ..⟩
  · rw [destEmpty_arrived, if_pos ⟨rfl, hne⟩]
  · rw [sget_arrived]
    exact (sget_sset ..).trans (ite_congr (propext (and_iff_left h0)) (fun _ => rfl) (fun _ => rfl))

/-! ### Requests at service teams and at banks -/

/-- A request that no halted die holds and that stands first in line is served (R85). -/
theorem serviceTeamRequest_first {s : State} {cl : BitVec 6} {e : SvcEntry} {rest : List SvcEntry} (hs : s.service = e :: rest)
    (hc : e.cluster = cl.toNat) (hh : serviceHalted s e.req.loc = false) :
    exec (.serviceTeamRequest cl) s = .next (serveAtom { s with service := rest } e) := by
  have hfirst : firstRequest s cl.toNat = some e := by simp [firstRequest, hs, hc, hh]
  have hrest : s.service.erase e = rest := by rw [hs, List.erase_cons_head]
  show Host.Outcome.next _ = _
  rw [hfirst, ← hrest]

theorem serviceTeamRequest_held {s : State} (cl : BitVec 6) (h : ∀ e ∈ s.service, serviceHalted s e.req.loc = true) :
    exec (.serviceTeamRequest cl) s = .next s := by
  have hnone : firstRequest s cl.toNat = none := List.find?_eq_none.mpr fun e he => by simp [h e he]
  show Host.Outcome.next _ = _
  rw [hnone]

/-- A bank that holds one request performs it once it can. -/
theorem settleBank_single {s s1 : State} {r : BankReq} (hb : s.bank = [r]) (h : bankTry { s with bank := [] } r = some s1) :
    settleBank s = s1 := by
  simp [settleBank, hb, bankLoop, firstHeld, h]

/-! ### Naturals in memory -/

theorem memNat_lt (s : State) (loc n : Nat) : memNat s loc n < 2 ^ (8 * n) := by
  induction n generalizing loc with
  | zero => exact Nat.one_pos
  | succ n ih =>
    have hrest := ih (loc + 1)
    have hbyte := (memByte s loc).isLt
    rw [memNat, Nat.mul_succ, Nat.pow_add]
    omega

theorem memNat_congr {s t : State} (h : t.mem = s.mem) (loc n : Nat) : memNat t loc n = memNat s loc n := by
  induction n generalizing loc with
  | zero => rfl
  | succ n ih => rw [memNat, memNat, ih, memByte, memByte, h]

/-- The natural of a run of memory is that of the bytes that stand there. -/
theorem memNat_eq_natOfBytes {s : State} {loc : Nat} {bs : List Byte} (h : ∀ j < bs.length, memByte s (loc + j) = bs.getD j 0) :
    memNat s loc bs.length = natOfBytes bs := by
  induction bs generalizing loc with
  | nil => rfl
  | cons b bs ih =>
    have hhead : memByte s loc = b := h 0 (by simp)
    have htail : memNat s (loc + 1) bs.length = natOfBytes bs := ih fun j hj => by
      have := h (j + 1) (by simpa using hj)
      rwa [Nat.add_comm j, ← Nat.add_assoc, Nat.add_comm 1, List.getD_cons_succ] at this
    rw [List.length_cons, memNat, natOfBytes, hhead, htail]

theorem bytesOfNat_length (n v : Nat) : (bytesOfNat n v).length = n := by
  induction n generalizing v with
  | zero => rfl
  | succ n ih => simp [bytesOfNat, ih]

theorem natOfBytes_bytesOfNat (n v : Nat) : natOfBytes (bytesOfNat n v) = v % 2 ^ (8 * n) := by
  induction n generalizing v with
  | zero => simp [bytesOfNat, natOfBytes, Nat.mod_one]
  | succ n ih =>
    rw [bytesOfNat, natOfBytes, ih, BitVec.toNat_ofNat, Nat.mul_succ, Nat.add_comm (8 * n), Nat.pow_add, Nat.mod_mul]

theorem memNat_rawWrite (s : State) (loc n v : Nat) : memNat (rawWrite s loc (bytesOfNat n v)) loc n = v % 2 ^ (8 * n) := by
  have h := memNat_eq_natOfBytes (s := rawWrite s loc (bytesOfNat n v)) (loc := loc) (bs := bytesOfNat n v) fun j hj => by
    rw [memByte_rawWrite, if_pos ⟨by omega, by omega⟩, Nat.add_sub_cancel_left]
  rwa [bytesOfNat_length, natOfBytes_bytesOfNat] at h

/-! ### Capsule records -/

theorem recWord_toNat (s : State) (rcd off : Nat) : (recWord s rcd off).toNat = memNat s (rcd + off) 8 := by
  rw [recWord, BitVec.toNat_ofNat, Nat.mod_eq_of_lt (memNat_lt s (rcd + off) 8)]

/-- HELD is the lowest bit of a record (R291). -/
theorem recWord_held (s : State) (rcd : Nat) : (recWord s rcd 0).getLsbD 0 = true ↔ memNat s rcd 8 % 2 = 1 := by
  rw [BitVec.getLsbD, recWord_toNat, Nat.add_zero, Nat.testBit_zero, decide_eq_true_iff]

/-- The lines that a write drops from caches and annexes. -/
theorem ownLines_eq_noted (s : State) (own : Option Nat) (loc n : Nat) : ∃ a b c d, ownLines s own loc n = noted s a b c d := by
  unfold ownLines dropL1 collapse countWrites
  simp only
  repeat' split
  all_goals exact ⟨_, _, _, _, rfl⟩

/-- A field of a record set: its eight bytes, and lines that leave caches and annexes. -/
theorem recSet_eq (s : State) (rcd off : Nat) (v : Word) :
    ∃ a b c d, recSet s rcd off v = rawWrite (noted s a b c d) (rcd + off) (bytesOfNat 8 v.toNat) := by
  obtain ⟨a, b, c, d, h⟩ := ownLines_eq_noted s none (rcd + off) (bytesOfNat 8 v.toNat).length
  exact ⟨a, b, c, d, by rw [recSet, ownWrite, h]⟩

theorem memNat_recSet (s : State) (rcd off : Nat) (v : Word) : memNat (recSet s rcd off v) (rcd + off) 8 = v.toNat := by
  obtain ⟨a, b, c, d, h⟩ := recSet_eq s rcd off v
  rw [h, memNat_rawWrite, Nat.mod_eq_of_lt v.isLt]

theorem memByte_recSet (s : State) (rcd off : Nat) (v : Word) {a : Nat} (h : ¬(rcd + off ≤ a ∧ a < rcd + off + 8)) :
    memByte (recSet s rcd off v) a = memByte s a := by
  rw [recSet, ownWrite, memByte_rawWrite, bytesOfNat_length, if_neg h, memByte, ownLines_mem]; rfl

/-- STATE is written while the owner still holds the record, and then no team that waits for it is served. -/
theorem performCapWrite_owned {s : State} {w : CapWrite} (hw : w.run = true ∨ ∀ x ∈ s.capWait, x.1 ≠ w.rcd)
    (hheld : memNat s w.rcd 8 % 2 = 1) (howner : memNat s (w.rcd + 8) 8 = w.owner.toNat) :
    performCapWrite s w = recSet s w.rcd 16 (if w.run then 1 else 2) := by
  have hrec : recWord s w.rcd 8 = w.owner := BitVec.eq_of_toNat_eq ((recWord_toNat ..).trans howner)
  rw [performCapWrite, if_pos (by rw [(recWord_held s w.rcd).mpr hheld, hrec]; simp)]
  cases hrun : w.run with
  | true => rfl
  | false =>
    have hwait : ∀ x ∈ s.capWait, x.1 ≠ w.rcd := hw.resolve_left (by simp [hrun])
    obtain ⟨a, b, c, d, h⟩ := recSet_eq s w.rcd 16 2
    have hnone : (recSet s w.rcd 16 2).capWait.filter (fun x => x.1 == w.rcd) = [] := by
      rw [h]
      exact List.filter_eq_nil_iff.mpr fun x hx => by simpa using hwait x hx
    simp only [hnone, Bool.false_eq_true, if_false, List.map_nil, List.foldl_nil]

theorem performCapWrite_lost {s : State} {w : CapWrite}
    (h : ¬(memNat s w.rcd 8 % 2 = 1 ∧ memNat s (w.rcd + 8) 8 = w.owner.toNat)) : performCapWrite s w = s := by
  refine if_neg fun hc => h ?_
  rw [Bool.and_eq_true, beq_iff_eq] at hc
  exact ⟨(recWord_held s w.rcd).mp hc.1, by rw [← hc.2, recWord_toNat]⟩

/-- The oldest write of STATE asked for a team is performed. -/
theorem capWriteNow_head {s : State} {w : CapWrite} {rest : List CapWrite} (hs : s.capWrites = w :: rest)
    (hh : serviceHalted s w.rcd = false) : capWriteNow w.place w.run s = performCapWrite { s with capWrites := rest } w := by
  have hnext : nextCapWrite s w.place w.run = some w := by simp [nextCapWrite, hs, hh]
  have hrest : s.capWrites.erase w = rest := by rw [hs, List.erase_cons_head]
  simp only [capWriteNow, hnext, hrest]

theorem capWriteArrives {s : State} {i : Instr} {w : CapWrite} {rest : List CapWrite} (hs : s.capWrites = w :: rest)
    (hh : serviceHalted s w.rcd = false) (hw : w.run = true ∨ ∀ x ∈ s.capWait, x.1 ≠ w.rcd)
    (hi : i = .capsuleParkedWrite w.place ∧ w.run = false ∨ i = .capsuleRunWrite w.place ∧ w.run = true) :
    ∃ t, exec i s = .next t ∧ t.capWrites = rest ∧ t.team = s.team ∧ t.others = s.others ∧
      (memNat s w.rcd 8 % 2 = 1 → memNat s (w.rcd + 8) 8 = w.owner.toNat →
        memNat t (w.rcd + 16) 8 = (if w.run then 1 else 2) ∧
        ∀ a, ¬(w.rcd + 16 ≤ a ∧ a < w.rcd + 24) → memByte t a = memByte s a) ∧
      (¬(memNat s w.rcd 8 % 2 = 1 ∧ memNat s (w.rcd + 8) 8 = w.owner.toNat) → t.mem = s.mem) := by
  have hexec : exec i s = .next (performCapWrite { s with capWrites := rest } w) := by
    rw [← capWriteNow_head hs hh]
    obtain ⟨rfl, hrun⟩ | ⟨rfl, hrun⟩ := hi <;> rw [hrun] <;> rfl
  have hmem : ∀ loc n, memNat { s with capWrites := rest } loc n = memNat s loc n := memNat_congr rfl
  by_cases hown : memNat s w.rcd 8 % 2 = 1 ∧ memNat s (w.rcd + 8) 8 = w.owner.toNat
  · have hset := performCapWrite_owned (s := { s with capWrites := rest }) hw ((hmem ..).symm ▸ hown.1) ((hmem ..).trans hown.2)
    obtain ⟨a, b, c, d, hraw⟩ := recSet_eq { s with capWrites := rest } w.rcd 16 (if w.run then 1 else 2)
    refine ⟨_, hexec, ?_, ?_, ?_, fun _ _ => ⟨?_, fun a ha => ?_⟩, fun hno => absurd hown hno⟩
    · rw [hset, hraw]; rfl
    · rw [hset, hraw]; rfl
    · rw [hset, hraw]; rfl
    · rw [hset, memNat_recSet]; split <;> rfl
    · rw [hset, memByte_recSet _ _ _ _ ha]; rfl
  · have hlost := performCapWrite_lost (s := { s with capWrites := rest }) (w := w) (by rwa [hmem, hmem])
    refine ⟨_, hexec, ?_, ?_, ?_, fun h1 h2 => absurd ⟨h1, h2⟩ hown, fun _ => ?_⟩
    all_goals rw [hlost]

/-- Settles O41, one lemma for each kind of arrival. -/
theorem resultsAndRequestsArrive : Obligations.ResultsAndRequestsArrive := by
  unfold Obligations.ResultsAndRequestsArrive
  refine ⟨fun s p u d v b rest hu h0 h hd => registerFillArrives hu h0 h hd,
    fun s cl e rest hs hc hh => serviceTeamRequest_first hs hc hh, fun s cl h => serviceTeamRequest_held cl h,
    fun s obj cross p s1 phase last hb h => settleBank_single hb ?_,
    fun s obj cross p s1 hb h => settleBank_single hb h,
    fun s i w rest hs hh hw hi => capWriteArrives hs hh hw hi⟩
  simp only [bankTry, h]
  rfl

end Sys2Proof.RegisterState
end

section
/-! PROOFS. Sub-elements of lane-registers: what packing, broadcasting and mapping leave in each (R51, R175), and which lanes
are active (R24). -/

namespace Sys2Proof.RegisterState

open Sys2Proof.Machine

/-! ### Sub-elements -/

theorem elem_eq_sub (w : Nat) (x : Word) (j : Nat) : elem w x j = sub w x j := by
  rw [elem, sub, Nat.shiftRight_eq_div_pow]

/-- A field that lies below bit n is not changed by what lies from bit n up. -/
theorem mod_two_pow_div_mod {n a b : Nat} (h : a + b ≤ n) (x : Nat) : x % 2 ^ n / 2 ^ a % 2 ^ b = x / 2 ^ a % 2 ^ b := by
  refine Nat.eq_of_testBit_eq fun i => ?_
  simp only [Nat.testBit_mod_two_pow, Nat.testBit_div_two_pow]
  by_cases hi : i < b
  · simp [hi, show i + a < n by omega]
  · simp [hi]

theorem packNat_digit (w : Nat) (es : List Nat) (j : Nat) : packNat w es / 2 ^ (w * j) % 2 ^ w = es.getD j 0 % 2 ^ w := by
  induction es generalizing j with
  | nil => simp [packNat]
  | cons e es ih =>
    cases j with
    | zero => simp [packNat]
    | succ j =>
      have hrest : (e % 2 ^ w + 2 ^ w * packNat w es) / 2 ^ w = packNat w es := by
        rw [Nat.add_mul_div_left _ _ (Nat.two_pow_pos w), Nat.div_eq_of_lt (Nat.mod_lt _ (Nat.two_pow_pos w)), Nat.zero_add]
      rw [packNat, Nat.mul_succ, Nat.add_comm (w * j), Nat.pow_add, ← Nat.div_div_eq_div_mul, hrest, ih, List.getD_cons_succ]

theorem sub_packElems {w j : Nat} (h : w * (j + 1) ≤ 64) (es : List Nat) : sub w (packElems w es) j = es.getD j 0 % 2 ^ w := by
  rw [sub, packElems, BitVec.toNat_ofNat, mod_two_pow_div_mod (by rw [← Nat.mul_succ]; exact h), packNat_digit]

/-- A lane-register packed from a value for each of its sub-elements. -/
theorem sub_packElems_range {w j : Nat} (hw : 0 < w) (h : w * (j + 1) ≤ 64) (f : Nat → Nat) :
    sub w (packElems w ((List.range (64 / w)).map f)) j = f j % 2 ^ w := by
  have hj : j < 64 / w := (Nat.le_div_iff_mul_le hw).mpr (by rw [Nat.mul_comm]; exact h)
  rw [sub_packElems h, List.getD_eq_getElem?_getD]
  simp [hj]

theorem sub_aVal {w j : Nat} (hw : 0 < w) (h : w * (j + 1) ≤ 64) (t : Team) (a : VA) (l : Nat) :
    sub w (aVal t w a l) j = subA t w a l j := by
  cases a with
  | vec r => rfl
  | scal r => simp only [aVal, subA, splat, sub_packElems_range hw h, Nat.mod_mod]

theorem sub_map1 {w j : Nat} (hw : 0 < w) (h : w * (j + 1) ≤ 64) (f : Nat → Nat) (x : Word) :
    sub w (map1 w f x) j = f (sub w x j) % 2 ^ w := by
  simp only [map1, elems, List.map_map, sub_packElems_range hw h, Function.comp_apply, elem_eq_sub]

theorem width_bits_pos (es : Width) : 0 < es.bits := by cases es <;> decide

theorem fWidth_pos (f : FFmt) : 0 < fWidth f := by cases f <;> decide

theorem redWidth_pos (fn : RedFn) : 0 < redWidth fn := by
  cases fn with
  | add es _ | min es | max es | minn es | maxn es | and es | or es | xor es => exact width_bits_pos es
  | fadd f | fmin f | fmax f => exact fWidth_pos f

/-! ### Active lanes -/

theorem activeLanes_eq_lanesOn (t : Team) (k : KReg) : activeLanes t k = lanesOn t k := by
  simp [activeLanes, lanesOf, activeMask, lanesOn]

/-- A mask has 1,024 lanes. -/
theorem lt_of_mem_lanesOn {t : Team} {k : KReg} {l : Nat} (h : l ∈ lanesOn t k) : l < 1024 := by
  simp only [lanesOn, List.mem_filter, Bool.and_eq_true] at h
  exact BitVec.lt_of_getLsbD h.2.1

/-- No more of the numbers from 0 are picked than the bound of those picked. -/
theorem length_filter_range_le {m : Nat} {p : Nat → Bool} (hp : ∀ l, p l = true → l < m) (n : Nat) :
    ((List.range n).filter p).length ≤ m := by
  induction n with
  | zero => exact Nat.zero_le m
  | succ n ih =>
    cases hn : p n with
    | false =>
      rw [List.range_succ, List.filter_append, List.filter_cons_of_neg (ne_true_of_eq_false hn), List.filter_nil,
        List.append_nil]
      exact ih
    | true =>
      have hall := List.length_filter_le p (List.range (n + 1))
      have hlt := hp n hn
      rw [List.length_range] at hall
      omega

theorem lanesOn_length_le (t : Team) (k : KReg) : (lanesOn t k).length ≤ 1024 :=
  length_filter_range_le (fun _ hl => BitVec.lt_of_getLsbD (Bool.and_eq_true_iff.mp hl).1) t.lanes

end Sys2Proof.RegisterState
end

section
/-! PROOFS. Long-latency producers (O11): the special functions, the cross-lane instructions and the integer reductions. -/

namespace Sys2Proof.RegisterState

open Sys2Proof.Machine

/-! ### Producers -/

theorem produce_vec (t : Team) (d : VReg) (src : FillSrc) (p : Bool) :
    produce t (.vec d) src p = { markEmpty t (.vec d) true with inflight := t.inflight ++ [⟨.vec d, src, p⟩] } :=
  if_neg nofun

theorem produce_sPoison (t : Team) (d : Dest) (src : FillSrc) (p : Bool) : (produce t d src p).sPoison = t.sPoison := by
  unfold produce; split
  · rfl
  · exact markEmpty_sPoison t d true

theorem produce_vPoison (t : Team) (d : Dest) (src : FillSrc) (p : Bool) : (produce t d src p).vPoison = t.vPoison := by
  unfold produce; split
  · rfl
  · exact markEmpty_vPoison t d true

theorem produce_lstk (t : Team) (d : Dest) (src : FillSrc) (p : Bool) : (produce t d src p).lstk = t.lstk := by
  unfold produce; split
  · rfl
  · exact markEmpty_lstk t d true

/-- An instruction that goes and whose effect is to send a result on its way. -/
theorem issue_produce {i : Instr} {s s1 : State} {d : Dest} {src : FillSrc} {p : Bool} {body : State → Eff} (h : Goes i s s1)
    (he : body s1 = retireWith s1 fun t => produce t d src p) :
    issue i s body = .next (goesOn (withTeam s1 fun t => produce t d src p) (nextPc i s)) :=
  issue_retire h.toIssues he ((produce_sPoison ..).trans h.cleanS) ((produce_vPoison ..).trans h.cleanV)
    (by rw [show (withTeam s1 fun t => produce t d src p).team.lstk = s1.team.lstk from produce_lstk ..]; exact h.inner)

/-- An instruction whose effect is `produceLanes` over the active lanes is a producer (R54). -/
theorem producerIs_of_produceLanes {i : Instr} {d : VReg} {k : KReg} {w : Nat} {f : Team → Nat → Nat → Nat}
    (g : Team → Nat → Word) (hexec : ∀ s, exec i s = issue i s fun s1 => produceLanes s1 d (activeLanes s1.team k) (g s1.team))
    (hg : ∀ t, ∀ l ∈ lanesOn t k, ∀ j, w * (j + 1) ≤ 64 → sub w (g t l) j = f t l j % 2 ^ w) : ProducerIs i d k w f := by
  refine ⟨fun s s1 h hnone => ?none, fun s s1 h hsome => ⟨g s1.team, ?some, hg s1.team⟩⟩
  case none =>
    rw [hexec]
    exact issue_retire h.toIssues (by simp [produceLanes, activeLanes_eq_lanesOn, hnone]) h.cleanS h.cleanV h.inner
  case some =>
    simp only [← produce_vec]
    rw [hexec]
    exact issue_produce h (by simp [produceLanes, activeLanes_eq_lanesOn, hsome])

theorem sfuIs_of_sfuUn {c : FUn → Instr} {fn : SfuFn} (hexec : ∀ o s, exec (c o) s = sfuUn (c o) o fn s) : SfuIs c fn :=
  fun o => producerIs_of_produceLanes
    (fun t l => map1 (fWidth o.f) (fpSfu (fpOf o.f) (fmode t) fn) (aVal t (fWidth o.f) o.a l)) (hexec o)
    fun t l _ j hj => by rw [sub_map1 (fWidth_pos o.f) hj, sub_aVal (fWidth_pos o.f) hj]

theorem specialFunctionsProduce : SpecialFunctionsProduce := by
  unfold SpecialFunctionsProduce
  refine ⟨?_, ?_, ?_, ?_, ?_, ?_, ?_, ?_⟩
  all_goals exact sfuIs_of_sfuUn fun _ _ => rfl

/-! ### Moves between lanes -/

theorem shflProduces (d : VReg) (k : KReg) (es : Width) (a : VSrc) (b : VA) :
    ProducerIs (.shfl d k es a b) d k es.bits fun t l j =>
      let x := subA t es.bits b l j % (t.lanes * es.nsub)
      sub es.bits (vget t (x / es.nsub) a.r) (x % es.nsub) :=
  producerIs_of_produceLanes
    (fun t l => map1 es.bits (fun x => elem es.bits (vget t (x % (t.lanes * es.nsub) / es.nsub) a.r)
      (x % (t.lanes * es.nsub) % es.nsub)) (aVal t es.bits b l)) (fun _ => rfl)
    fun t l _ j hj => by simp only [sub_map1 (width_bits_pos es) hj, sub_aVal (width_bits_pos es) hj, elem_eq_sub]

/-- A lane-register is its only sub-element of 64 bits. -/
theorem sub_64_zero (x : Word) : sub 64 x 0 = x.toNat := by simp [sub, Nat.mod_eq_of_lt x.isLt]

/-- SHFLI reads the whole lane-register of its source lane, or its own where the team has no such lane. -/
theorem shfliProduces {c : ShfliOps → Instr} {f : Nat → Nat → Nat → Nat → Nat}
    (hexec : ∀ o s, exec (c o) s = shfliWith (c o) o f s) (o : ShfliOps) : ProducerIs (c o) o.d o.k 64 fun t l _ =>
      let src := f l (l % 2 ^ o.g.toNat) (2 ^ o.g.toNat) (shAmount t o.b)
      (vget t (if src < t.lanes then src else l) o.a.r).toNat := by
  refine producerIs_of_produceLanes (fun t l =>
    let src := f l (l % 2 ^ o.g.toNat) (2 ^ o.g.toNat) (shAmount t o.b)
    vget t (if t.lanes ≤ src then l else src) o.a.r) (hexec o) fun t l _ j hj => ?_
  obtain rfl : j = 0 := by omega
  simp only [sub_64_zero, Nat.mod_eq_of_lt (BitVec.isLt _), ← Nat.not_lt, ite_not]

theorem shfliIs_of_shfliWith {c : ShfliOps → Instr} {f : Nat → Nat → Nat → Nat → Nat}
    (hexec : ∀ o s, exec (c o) s = shfliWith (c o) o f s) : ShfliIs c f := shfliProduces hexec

/-! ### Reductions over the lanes -/

/-- Each sub-element of a reduction is the reduction of that sub-element of the lanes (R233). -/
theorem sub_reduceLanes {fn : RedFn} {j : Nat} (hj : redWidth fn * (j + 1) ≤ 64) (t : Team) (a : VA) (ls : List Nat) :
    sub (redWidth fn) (reduceLanes t fn a ls) j =
      reduce (fmode t) fn (ls.map fun l => subA t (redWidth fn) a l j) % 2 ^ redWidth fn := by
  simp only [reduceLanes, List.map_map, sub_packElems_range (redWidth_pos fn) hj, Function.comp_def, elem_eq_sub,
    sub_aVal (redWidth_pos fn) hj]

theorem vredProduces (fn : RedFn) (d : VReg) (k : KReg) (a : VA) :
    ProducerIs (.vred fn d k a false) d k (redWidth fn) fun t _ j =>
      reduce (fmode t) fn ((lanesOn t k).map fun l => subA t (redWidth fn) a l j) :=
  producerIs_of_produceLanes (fun t _ => reduceLanes t fn a (activeLanes t k)) (fun _ => rfl)
    fun t _ _ _ hj => by rw [sub_reduceLanes hj, activeLanes_eq_lanesOn]

/-- The scalar form of VRED sends its reduction to a scalar register; with no active lane it is 0 (R233). -/
theorem vredScalarProduces (fn : RedFn) (d : VReg) (k : KReg) (a : VA) {s s1 : State} (h : Goes (.vred fn d k a true) s s1) :
    ∃ v : Word, exec (.vred fn d k a true) s = .next (goesOn (withTeam s1 fun t =>
        produce t (.scal (d.setWidth 6)) (.values [(0, v)]) false) (nextPc (.vred fn d k a true) s)) ∧
      (lanesOn s1.team k = [] → v = 0) ∧
      (lanesOn s1.team k ≠ [] → ∀ j, redWidth fn * (j + 1) ≤ 64 → sub (redWidth fn) v j =
        reduce (fmode s1.team) fn ((lanesOn s1.team k).map fun l => subA s1.team (redWidth fn) a l j) % 2 ^ redWidth fn) := by
  refine ⟨if (activeLanes s1.team k).isEmpty then 0 else reduceLanes s1.team fn a (activeLanes s1.team k),
    issue_produce h rfl, fun hnone => ?_, fun hsome j hj => ?_⟩
  · simp [activeLanes_eq_lanesOn, hnone]
  · simp [activeLanes_eq_lanesOn, hsome, sub_reduceLanes hj]

theorem scanProduces (fn : RedFn) (d : VReg) (k : KReg) (a : VA) (excl : Bool) :
    ProducerIs (.scan fn d k a excl) d k (redWidth fn) fun t l j =>
      reduce (fmode t) fn (((lanesOn t k).filter fun x => decide (x < l) || (!excl && x == l)).map
        fun x => subA t (redWidth fn) a x j) := by
  have upTo : ∀ l : Nat, (fun x => if excl = true then decide (x < l) else decide (x ≤ l)) =
      fun x => decide (x < l) || (!excl && x == l) := fun l => by
    funext x
    cases excl with
    | true => simp
    | false =>
      rw [Bool.eq_iff_iff]
      simp only [Bool.false_eq_true, if_false, decide_eq_true_iff, Bool.not_false, Bool.true_and, Bool.or_eq_true, beq_iff_eq]
      exact Nat.le_iff_lt_or_eq
  refine producerIs_of_produceLanes
    (fun t l => reduceLanes t fn a ((activeLanes t k).filter fun x => if excl then decide (x < l) else decide (x ≤ l)))
    (fun _ => rfl) fun t l _ j hj => ?_
  rw [sub_reduceLanes hj, activeLanes_eq_lanesOn, upTo]

/-! ### MATCH -/

theorem elemKey_eq_keyOf (t : Team) (o : ElemOps) (l : Nat) : elemKey t o l = keyOf t o l := elem_eq_sub ..

/-- Three numbers below 2^16, laid out in a lane-register as MATCH does (R235). -/
theorem ofNat_three_eq_packElems {a b c : Nat} (ha : a < 2 ^ 16) (hb : b < 2 ^ 16) (hc : c < 2 ^ 16) :
    BitVec.ofNat 64 (a + b * 2 ^ 16 + c * 2 ^ 32) = packElems 16 [a, b, c] := by
  simp only [packElems, packNat, Nat.mod_eq_of_lt ha, Nat.mod_eq_of_lt hb, Nat.mod_eq_of_lt hc]
  congr 1
  omega

theorem mtchProduces (d : VReg) (o : ElemOps) :
    ProducerIs (.mtch d o) d o.k 16 fun t l j =>
      let e := (lanesOn t o.k).filter fun x => keyOf t o x == keyOf t o l
      if j = 0 then e.headD 0 else if j = 1 then e.length
        else if j = 2 then (e.filter fun x => decide (x < l)).length else 0 := by
  refine producerIs_of_produceLanes (fun t l =>
    let e := (activeLanes t o.k).filter fun x => elemKey t o x == elemKey t o l
    BitVec.ofNat 64 (e.headD 0 + e.length * 2 ^ 16 + (e.filter fun x => decide (x < l)).length * 2 ^ 32))
    (fun _ => rfl) fun t l _ j hj => ?_
  simp only [activeLanes_eq_lanesOn, elemKey_eq_keyOf]
  have hsub : ((lanesOn t o.k).filter fun x => keyOf t o x == keyOf t o l) ⊆ lanesOn t o.k := fun _ hx => (List.mem_filter.mp hx).1
  have hlen : ((lanesOn t o.k).filter fun x => keyOf t o x == keyOf t o l).length ≤ 1024 :=
    Nat.le_trans (List.length_filter_le ..) (lanesOn_length_le t o.k)
  generalize ((lanesOn t o.k).filter fun x => keyOf t o x == keyOf t o l) = e at hsub hlen
  have hhead : e.headD 0 < 2 ^ 16 := by
    cases e with
    | nil => decide
    | cons x e => exact Nat.lt_trans (lt_of_mem_lanesOn (hsub List.mem_cons_self)) (by decide)
  have hrank : (e.filter fun x => decide (x < l)).length ≤ e.length := List.length_filter_le ..
  rw [ofNat_three_eq_packElems hhead (by omega) (by omega), sub_packElems hj]
  match j with
  | 0 | 1 | 2 => rfl
  | j + 3 => simp

theorem crossLaneInstructionsProduce : CrossLaneInstructionsProduce := by
  unfold CrossLaneInstructionsProduce
  exact ⟨shflProduces, shfliIs_of_shfliWith fun _ _ => rfl, shfliIs_of_shfliWith fun _ _ => rfl,
    shfliIs_of_shfliWith fun _ _ => rfl, shfliIs_of_shfliWith fun _ _ => rfl, vredProduces,
    fun fn d k a _ _ h => vredScalarProduces fn d k a h, scanProduces, mtchProduces⟩

end Sys2Proof.RegisterState
end

section
/-! PROOFS. What the integer reductions come to (R233). -/

namespace Sys2Proof.RegisterState

open Sys2Proof.Machine

/-- A power of two is the same number among the integers. -/
theorem natCast_two_pow (n : Nat) : ((2 ^ n : Nat) : Int) = 2 ^ n := Int.natCast_pow 2 n

theorem two_pow_eq_two_mul {w : Nat} (hw : 0 < w) : 2 ^ w = 2 * 2 ^ (w - 1) := by
  rw [← Nat.pow_succ', Nat.succ_eq_add_one, Nat.sub_add_cancel hw]

theorem toSigned_eq_sgn {w : Nat} (hw : 0 < w) (x : Nat) : toSigned w x = sgn w x := by
  have hpow := two_pow_eq_two_mul hw
  rw [toSigned, sgn, natCast_two_pow]
  exact ite_congr (propext (by omega)) (fun _ => rfl) (fun _ => rfl)

/-- A number brought between two bounds (R116). -/
theorem clamp_eq {lo hi : Int} (h : lo ≤ hi) (r : Int) : (if r < lo then lo else if hi < r then hi else r) = max lo (min r hi) := by
  split
  · omega
  · split <;> omega

theorem satOf_eq_fit (sat : Bool) (w : Nat) (r : Int) : satOf sat w r = fit sat w r := by
  cases sat with
  | false => rw [satOf, fit, if_neg Bool.false_ne_true, if_neg Bool.false_ne_true, wrapInt, natCast_two_pow]
  | true =>
    have hpos := Nat.two_pow_pos (w - 1)
    rw [satOf, fit, if_pos rfl, if_pos rfl, satS, clamp_eq (by omega), wrapInt, natCast_two_pow, natCast_two_pow]

/-- A fold that keeps the one of two values with the lesser key ends with a value of the least key. -/
theorem foldl_least {f : Nat → Nat → Nat} {key : Nat → Int}
    (hf : ∀ x y, (f x y = x ∨ f x y = y) ∧ key (f x y) ≤ key x ∧ key (f x y) ≤ key y) (x : Nat) (xs : List Nat) :
    xs.foldl f x ∈ x :: xs ∧ ∀ y ∈ x :: xs, key (xs.foldl f x) ≤ key y := by
  induction xs generalizing x with
  | nil => simp
  | cons z zs ih =>
    obtain ⟨hmem, hle⟩ := ih (f x z)
    obtain ⟨hpick, hx, hz⟩ := hf x z
    have hhead : key (zs.foldl f (f x z)) ≤ key (f x z) := hle _ List.mem_cons_self
    refine ⟨?_, fun y hy => ?_⟩
    · rw [List.foldl_cons]
      rcases List.mem_cons.mp hmem with h | h
      · rw [h]
        rcases hpick with hp | hp
        · rw [hp]; exact List.mem_cons_self
        · rw [hp]; exact List.mem_cons_of_mem _ List.mem_cons_self
      · exact List.mem_cons_of_mem _ (List.mem_cons_of_mem _ h)
    · rw [List.foldl_cons]
      simp only [List.mem_cons] at hy
      rcases hy with rfl | rfl | hy
      · exact Int.le_trans hhead hx
      · exact Int.le_trans hhead hz
      · exact hle y (List.mem_cons_of_mem _ hy)

/-- Begun with a bound of the keys, such a fold over some values ends with one of them. -/
theorem foldl_least_of_bound {f : Nat → Nat → Nat} {key : Nat → Int} (hkey : Function.Injective key)
    (hf : ∀ x y, (f x y = x ∨ f x y = y) ∧ key (f x y) ≤ key x ∧ key (f x y) ≤ key y) {b : Nat} {xs : List Nat}
    (hb : ∀ x ∈ xs, key x ≤ key b) :
    (xs ≠ [] → xs.foldl f b ∈ xs) ∧ ∀ x ∈ xs, key (xs.foldl f b) ≤ key x := by
  obtain ⟨hmem, hle⟩ := foldl_least hf b xs
  refine ⟨fun hne => ?_, fun x hx => hle x (List.mem_cons_of_mem _ hx)⟩
  rcases List.mem_cons.mp hmem with h | h
  · obtain ⟨y, hy⟩ := List.exists_mem_of_ne_nil xs hne
    have hyb : y = b := hkey (Int.le_antisymm (hb y hy) (h ▸ hle y (List.mem_cons_of_mem _ hy)))
    rwa [h, ← hyb]
  · exact h

/-- The greatest signed pattern (R233). -/
theorem sgn_greatest (w : Nat) : sgn w (2 ^ (w - 1) - 1) = 2 ^ (w - 1) - 1 := by
  have hpos := Nat.two_pow_pos (w - 1)
  rw [sgn, if_pos (by omega), ← natCast_two_pow]
  omega

section
variable {w : Nat} (hw : 0 < w)
include hw

/-- The least signed pattern (R233). -/
theorem sgn_least : sgn w (2 ^ (w - 1)) = -2 ^ (w - 1) := by
  have hpow := two_pow_eq_two_mul hw
  rw [sgn, if_neg (Nat.lt_irrefl _), ← natCast_two_pow w, ← natCast_two_pow (w - 1)]
  omega

theorem minElem_least (x y : Nat) : (minElem w x y = x ∨ minElem w x y = y) ∧ sgn w (minElem w x y) ≤ sgn w x ∧
    sgn w (minElem w x y) ≤ sgn w y := by
  simp only [minElem, toSigned_eq_sgn hw]
  split
  · next h => exact ⟨.inl rfl, Int.le_refl _, h⟩
  · next h => exact ⟨.inr rfl, Int.le_of_lt (Int.not_le.mp h), Int.le_refl _⟩

theorem maxElem_greatest (x y : Nat) : (maxElem w x y = x ∨ maxElem w x y = y) ∧ -sgn w (maxElem w x y) ≤ -sgn w x ∧
    -sgn w (maxElem w x y) ≤ -sgn w y := by
  simp only [maxElem, toSigned_eq_sgn hw]
  split
  · next h => exact ⟨.inr rfl, Int.neg_le_neg h, Int.le_refl _⟩
  · next h => exact ⟨.inl rfl, Int.le_refl _, Int.neg_le_neg (Int.le_of_lt (Int.not_le.mp h))⟩

end

theorem reduce_add (m : FMode) (es : Width) (sat : Bool) (xs : List Nat) :
    reduce m (.add es sat) xs = fit sat es.bits ((xs.map (sgn es.bits)).sum) := by
  have hsgn : toSigned es.bits = sgn es.bits := funext (toSigned_eq_sgn (width_bits_pos es))
  simp only [reduce, satOf_eq_fit, hsgn, ← List.sum_eq_foldl]

theorem reduce_min (m : FMode) (es : Width) (xs : List Nat) :
    (xs = [] → sgn es.bits (reduce m (.min es) xs) = 2 ^ (es.bits - 1) - 1) ∧
      (xs ≠ [] → reduce m (.min es) xs ∈ xs) ∧ ∀ x ∈ xs, sgn es.bits (reduce m (.min es) xs) ≤ sgn es.bits x := by
  cases xs with
  | nil => exact ⟨fun _ => sgn_greatest es.bits, absurd rfl, nofun⟩
  | cons x xs =>
    obtain ⟨hmem, hle⟩ := foldl_least (minElem_least (width_bits_pos es)) x xs
    exact ⟨nofun, fun _ => hmem, hle⟩

theorem reduce_max (m : FMode) (es : Width) (xs : List Nat) :
    (xs = [] → sgn es.bits (reduce m (.max es) xs) = -2 ^ (es.bits - 1)) ∧
      (xs ≠ [] → reduce m (.max es) xs ∈ xs) ∧ ∀ x ∈ xs, sgn es.bits x ≤ sgn es.bits (reduce m (.max es) xs) := by
  cases xs with
  | nil => exact ⟨fun _ => sgn_least (width_bits_pos es), absurd rfl, nofun⟩
  | cons x xs =>
    obtain ⟨hmem, hle⟩ := foldl_least (key := fun x => -sgn es.bits x) (maxElem_greatest (width_bits_pos es)) x xs
    exact ⟨nofun, fun _ => hmem, fun y hy => Int.le_of_neg_le_neg (hle y hy)⟩

theorem reduce_minn (m : FMode) {es : Width} {xs : List Nat} (hxs : ∀ x ∈ xs, x < 2 ^ es.bits) :
    (xs = [] → reduce m (.minn es) xs = 2 ^ es.bits - 1) ∧
      (xs ≠ [] → reduce m (.minn es) xs ∈ xs) ∧ ∀ x ∈ xs, reduce m (.minn es) xs ≤ x := by
  obtain ⟨hmem, hle⟩ := foldl_least_of_bound (key := fun x => (x : Int)) (f := min) (b := 2 ^ es.bits - 1) (xs := xs)
    (fun _ _ h => Int.ofNat_inj.mp h) (fun x y => by omega) fun x hx => by have := hxs x hx; omega
  exact ⟨fun h => by rw [h]; rfl, hmem, fun x hx => Int.ofNat_le.mp (hle x hx)⟩

theorem reduce_maxn (m : FMode) (es : Width) (xs : List Nat) : (xs = [] → reduce m (.maxn es) xs = 0) ∧
    (xs ≠ [] → reduce m (.maxn es) xs ∈ xs) ∧ ∀ x ∈ xs, x ≤ reduce m (.maxn es) xs := by
  obtain ⟨hmem, hle⟩ := foldl_least_of_bound (key := fun x => -(x : Int)) (f := max) (b := 0) (xs := xs)
    (fun a b (h : -(a : Int) = -(b : Int)) => by omega) (fun x y => by omega) fun x _ => by omega
  exact ⟨fun h => by rw [h]; rfl, hmem, fun x hx => by have := hle x hx; simp only [reduce]; omega⟩

theorem testBit_foldl_and (a : Nat) (xs : List Nat) (b : Nat) :
    (xs.foldl (· &&& ·) a).testBit b = (a.testBit b && xs.all (·.testBit b)) := by
  induction xs generalizing a with
  | nil => simp
  | cons x xs ih => simp [ih, Bool.and_assoc]

theorem testBit_foldl_or (a : Nat) (xs : List Nat) (b : Nat) :
    (xs.foldl (· ||| ·) a).testBit b = (a.testBit b || xs.any (·.testBit b)) := by
  induction xs generalizing a with
  | nil => simp
  | cons x xs ih => simp [ih, Bool.or_assoc]

theorem testBit_foldl_xor (a : Nat) (xs : List Nat) (b : Nat) :
    (xs.foldl (· ^^^ ·) a).testBit b = (a.testBit b ^^ decide (xs.countP (·.testBit b) % 2 = 1)) := by
  induction xs generalizing a with
  | nil => simp
  | cons x xs ih =>
    rw [List.foldl_cons, ih, Nat.testBit_xor, Bool.xor_assoc, List.countP_cons]
    congr 1
    cases hx : x.testBit b with
    | false => simp
    | true =>
      by_cases hodd : xs.countP (·.testBit b) % 2 = 1
      · simp [hodd, show (xs.countP (·.testBit b) + 1) % 2 = 0 by omega]
      · simp [hodd, show (xs.countP (·.testBit b) + 1) % 2 = 1 by omega]

theorem reductionsCombineEveryContribution : ReductionsCombineEveryContribution := by
  unfold ReductionsCombineEveryContribution
  intro m es xs hxs
  refine ⟨fun sat => reduce_add m es sat xs, fun r hr => hr ▸ reduce_min m es xs, fun r hr => hr ▸ reduce_max m es xs,
    fun r hr => hr ▸ reduce_minn m hxs, fun r hr => hr ▸ reduce_maxn m es xs, fun b hb => ⟨?and, ?or, ?xor⟩⟩
  case and => simp [reduce, testBit_foldl_and, hb]
  case or => simp [reduce, testBit_foldl_or]
  case xor => simp [reduce, testBit_foldl_xor]

/-- Settles O11: each instruction is a producer of its table's values, and each integer reduction what its combination says. -/
theorem longLatencyInstructionsProduce : Obligations.LongLatencyInstructionsProduce :=
  ⟨specialFunctionsProduce, crossLaneInstructionsProduce, reductionsCombineEveryContribution⟩

end Sys2Proof.RegisterState
end

section
/-! PROOFS. Write-backs (R76, R91): what the runs of dirty bytes of some lines leave in memory and in the L1s. -/

namespace Sys2Proof.MemoryHierarchy

open Sys2Proof.Machine Sys2Proof.RegisterState

/-! ### Members of a map in canonical form -/

section
variable {β : Type} [DecidableEq β] {d : β}

theorem le_of_mem_mapAbove {m : List (Nat × β)} {lo : Nat} (h : mapAbove d lo m = true) {x : Nat × β} (hx : x ∈ m) :
    lo ≤ x.1 := by
  induction m generalizing lo with
  | nil => cases hx
  | cons y rest ih =>
    simp only [mapAbove, Bool.and_eq_true, decide_eq_true_iff] at h
    obtain ⟨⟨hlo, -⟩, hrest⟩ := h
    obtain rfl | hx := List.mem_cons.mp hx
    · exact hlo
    · exact Nat.le_trans hlo (Nat.le_of_succ_le (ih hrest hx))

theorem mapGet_of_mem_mapAbove {m : List (Nat × β)} {lo : Nat} (h : mapAbove d lo m = true) {k : Nat} {v : β}
    (hx : (k, v) ∈ m) : mapGet d m k = v := by
  induction m generalizing lo with
  | nil => cases hx
  | cons y rest ih =>
    simp only [mapAbove, Bool.and_eq_true] at h
    obtain ⟨-, hrest⟩ := h
    obtain rfl | hx := List.mem_cons.mp hx
    · simp [mapGet]
    · have hk : y.1 < k := le_of_mem_mapAbove hrest hx
      rw [mapGet, if_neg (Nat.ne_of_gt hk), if_neg (Nat.lt_asymm hk)]
      exact ih hrest hx

theorem mapGet_of_mem {m : List (Nat × β)} (h : mapWf d m = true) {k : Nat} {v : β} (hx : (k, v) ∈ m) : mapGet d m k = v :=
  mapGet_of_mem_mapAbove h hx

omit [DecidableEq β] in
theorem mem_of_mapGet_ne {m : List (Nat × β)} {k : Nat} (h : mapGet d m k ≠ d) : (k, mapGet d m k) ∈ m := by
  induction m with
  | nil => exact absurd rfl h
  | cons y rest ih =>
    unfold mapGet at h ⊢
    split at h
    · next hk => simp [hk]
    · next hk =>
      split at h
      · exact absurd rfl h
      · next hlt =>
        rw [if_neg hk, if_neg hlt]
        exact List.mem_cons_of_mem _ (ih h)

/-- A filter keeps the entry of a key, or leaves the default there. -/
theorem mapGet_filter {m : List (Nat × β)} (h : mapWf d m = true) (p : Nat × β → Bool) (k : Nat) :
    mapGet d (m.filter p) k = if p (k, mapGet d m k) then mapGet d m k else d := by
  split
  · next hp =>
    by_cases hd : mapGet d m k = d
    · refine Decidable.byContradiction fun hne => ?_
      have hmem := mem_of_mapGet_ne (d := d) fun he => hne (he.trans hd.symm)
      exact hne (mapGet_of_mem h (List.mem_filter.mp hmem).1).symm
    · exact mapGet_of_mem (mapWf_filter h p) (List.mem_filter.mpr ⟨mem_of_mapGet_ne hd, hp⟩)
  · next hp =>
    refine Decidable.byContradiction fun hne => ?_
    obtain ⟨hmem, hpick⟩ := List.mem_filter.mp (mem_of_mapGet_ne hne)
    rw [← mapGet_of_mem h hmem] at hpick
    exact hp hpick

end

/-! ### Runs of bytes -/

/-- Among bytes that stand from `start` on, b is the one at a. -/
def HeldAt (start : Nat) (bs : List Byte) (a : Nat) (b : Byte) : Prop := ∃ i, a = start + i ∧ bs[i]? = some b

theorem heldAt_cons (start : Nat) (b0 : Byte) (bs : List Byte) (a : Nat) (b : Byte) :
    HeldAt start (b0 :: bs) a b ↔ (a = start ∧ b0 = b) ∨ HeldAt (start + 1) bs a b := by
  constructor
  · rintro ⟨_ | i, ha, hb⟩
    · exact .inl ⟨ha, by simpa using hb⟩
    · exact .inr ⟨i, by omega, by simpa using hb⟩
  · rintro (⟨rfl, rfl⟩ | ⟨i, ha, hb⟩)
    · exact ⟨0, rfl, rfl⟩
    · exact ⟨i + 1, by omega, by simpa using hb⟩

theorem heldAt_nil (start a : Nat) (b : Byte) : ¬HeldAt start [] a b := fun ⟨_, _, h⟩ => by simp at h

/-- Bytes written stand where they were put, and every other byte is as it was. -/
theorem memByte_rawWrite_heldAt (s : State) (loc : Nat) (bs : List Byte) (a : Nat) :
    HeldAt loc bs a (memByte (rawWrite s loc bs) a) ∨
      ((∀ b, ¬HeldAt loc bs a b) ∧ memByte (rawWrite s loc bs) a = memByte s a) := by
  rw [memByte_rawWrite]
  split
  · next h =>
    have hi : a - loc < bs.length := by omega
    exact .inl ⟨a - loc, by omega, by rw [List.getD_eq_getElem?_getD, List.getElem?_eq_getElem hi, Option.getD_some]⟩
  · next h =>
    refine .inr ⟨fun b ⟨i, ha, hb⟩ => h ?_, rfl⟩
    have hi := (List.getElem?_eq_some_iff.mp hb).1
    omega

/-- Runs hold the bytes of the entries they were made of, each at its key, and no other. -/
theorem runsOf_heldAt (xs : List (Nat × Option DirtyByte)) (key : Nat) (b : Byte) :
    (∃ r ∈ runsOf xs, HeldAt r.key r.bytes key b) ↔ ∃ d, (key, some d) ∈ xs ∧ d.b = b := by
  induction xs with
  | nil => simp [runsOf]
  | cons x rest ih =>
    obtain ⟨k, _ | d⟩ := x
    · simpa [runsOf] using ih
    have hcons : (∃ e, (key, some e) ∈ (k, some d) :: rest ∧ e.b = b) ↔
        (key = k ∧ d.b = b) ∨ ∃ e, (key, some e) ∈ rest ∧ e.b = b := by
      simp only [List.mem_cons, Prod.mk.injEq, Option.some.injEq, or_and_right, exists_or]
      refine or_congr_left ⟨?_, fun ⟨hk, hb⟩ => ⟨d, ⟨hk, rfl⟩, hb⟩⟩
      rintro ⟨e, ⟨hk, rfl⟩, hb⟩
      exact ⟨hk, hb⟩
    rw [hcons, ← ih, runsOf]
    split
    · next r more hrest =>
      rw [hrest]
      split
      · next hjoin =>
        have hkey : r.key = k + 1 := by
          simp only [Bool.and_eq_true, decide_eq_true_iff] at hjoin
          exact hjoin.1.1
        simp [heldAt_cons, hkey, or_assoc]
      · simp [heldAt_cons, heldAt_nil]
    · next hrest => simp [hrest, heldAt_cons, heldAt_nil]

/-! ### Performing runs -/

/-- A run of dirty bytes of an L1 is performed. -/
def performRun (s : State) (r : Run) : State := performBy (some (r.key / 2 ^ 56)) s r.part r.place (r.key % 2 ^ 56) r.bytes

/-- Where nothing guards a byte, a write-back puts its bytes in memory, and lines leave caches and annexes. -/
theorem performRun_eq {s : State} (h : Unguarded s) (r : Run) :
    ∃ a b c d, performRun s r = rawWrite (noted s a b c d) (r.key % 2 ^ 56) r.bytes := by
  obtain ⟨htags, hlocks, hlost, hmlost⟩ := h
  obtain ⟨a, b, c, d, hown⟩ := ownLines_eq_noted s (some (r.key / 2 ^ 56)) (r.key % 2 ^ 56) r.bytes.length
  have htag : tagHit s (r.key % 2 ^ 56) r.bytes.length = none := by simp [tagHit, htags]
  have hlock : lockHit s (r.key % 2 ^ 56) r.bytes.length = none := by simp [lockHit, hlocks]
  refine ⟨a, b, c, d, ?_⟩
  simp only [performRun, performBy, htag, hlock, hown, Option.isSome_some, if_true]
  simp [hlost, hmlost]

/-- Every byte of memory is afterwards one that a run holds for it or, where none does, as it was. -/
theorem foldl_performRun (rs : List Run) {s : State} (h : Unguarded s) :
    (rs.foldl performRun s).team = s.team ∧ (rs.foldl performRun s).dirty = s.dirty ∧
      ∀ a, (∃ r ∈ rs, HeldAt (r.key % 2 ^ 56) r.bytes a (memByte (rs.foldl performRun s) a)) ∨
        ((∀ r ∈ rs, ∀ b, ¬HeldAt (r.key % 2 ^ 56) r.bytes a b) ∧ memByte (rs.foldl performRun s) a = memByte s a) := by
  induction rs generalizing s with
  | nil => exact ⟨rfl, rfl, fun a => .inr ⟨nofun, rfl⟩⟩
  | cons r rest ih =>
    obtain ⟨a1, a2, a3, a4, hrun⟩ := performRun_eq h r
    rw [List.foldl_cons, hrun]
    obtain ⟨hteam, hdirty, hmem⟩ := ih (s := rawWrite (noted s a1 a2 a3 a4) (r.key % 2 ^ 56) r.bytes) h
    refine ⟨hteam, hdirty, fun a => ?_⟩
    obtain ⟨r', hr', hheld⟩ | ⟨hnone, hsame⟩ := hmem a
    · exact .inl ⟨r', List.mem_cons_of_mem _ hr', hheld⟩
    rw [hsame]
    obtain hheld | ⟨hnot, hold⟩ := memByte_rawWrite_heldAt (noted s a1 a2 a3 a4) (r.key % 2 ^ 56) r.bytes a
    · exact .inl ⟨r, List.mem_cons_self, hheld⟩
    · exact .inr ⟨List.forall_mem_cons.mpr ⟨hnot, hnone⟩, hold⟩

/-! ### Flushes -/

/-- A test on core and location, at an entry of the dirty bytes. -/
def picks (p : Nat → Nat → Bool) (x : Nat × Option DirtyByte) : Bool := p (x.1 / 2 ^ 56) (x.1 % 2 ^ 56)

theorem picks_dirtyKey (p : Nat → Nat → Bool) {k loc : Nat} (h : loc < 2 ^ 56) (v : Option DirtyByte) :
    picks p (k * 2 ^ 56 + loc, v) = p k loc := by
  have hdiv : (k * 2 ^ 56 + loc) / 2 ^ 56 = k := by omega
  have hmod : (k * 2 ^ 56 + loc) % 2 ^ 56 = loc := by omega
  rw [picks, hdiv, hmod]

/-- The bytes that a flush is to perform have left the L1s, and lines that were taken whole are free of poison. -/
def takenOut (s : State) (p : Nat → Nat → Bool) : State :=
  clearPoison { s with dirty := s.dirty.filter fun x => !picks p x } (wholeDirty (s.dirty.filter (picks p)))

theorem flushWhere_eq (s : State) (p : Nat → Nat → Bool) :
    flushWhere s p = (runsOf (s.dirty.filter (picks p))).foldl performRun (takenOut s p) := rfl

/-- No run of picked bytes goes on from one core's L1 into the next one's. -/
def StaysInCore (p : Nat → Nat → Bool) : Prop := ∀ k, ¬(p k (2 ^ 56 - 1) = true ∧ p (k + 1) 0 = true)

/-- What picks bytes of one line only stays in its core: a line does not hold both the first and the last location. -/
theorem staysInCore_of_line {p : Nat → Nat → Bool} {line : Nat} (h : ∀ k loc, p k loc = true → loc / 128 = line) :
    StaysInCore p := fun _ ⟨hlast, hfirst⟩ => by
  have h1 := h _ _ hlast
  have h2 := h _ _ hfirst
  omega

/-- A byte of a run that stays in one L1 is written to the location that its key names. -/
theorem heldAt_location {xs : List (Nat × Option DirtyByte)} {p : Nat → Nat → Bool} (hp : StaysInCore p) {r : Run}
    (hr : r ∈ runsOf (xs.filter (picks p))) {k loc : Nat} (hloc : loc < 2 ^ 56) {b : Byte}
    (h : HeldAt r.key r.bytes (k * 2 ^ 56 + loc) b) : HeldAt (r.key % 2 ^ 56) r.bytes loc b := by
  obtain ⟨i, hkey, hb⟩ := h
  have hlen := (List.getElem?_eq_some_iff.mp hb).1
  have hpicked : ∀ j < r.bytes.length, picks p (r.key + j, none) = true := fun j hj => by
    obtain ⟨d, hd, -⟩ := (runsOf_heldAt _ _ _).mp ⟨r, hr, j, rfl, List.getElem?_eq_getElem hj⟩
    exact (List.mem_filter.mp hd).2
  refine ⟨i, ?_, hb⟩
  refine Decidable.byContradiction fun hne => ?_
  have hcross : r.key < k * 2 ^ 56 ∧ k * 2 ^ 56 ≤ r.key + i := by omega
  have hfirst := hpicked (k * 2 ^ 56 - r.key) (by omega)
  have hlast := hpicked (k * 2 ^ 56 - r.key - 1) (by omega)
  have hk : k = k - 1 + 1 := by omega
  rw [show r.key + (k * 2 ^ 56 - r.key) = (k - 1 + 1) * 2 ^ 56 + 0 by omega, picks_dirtyKey p (by omega)] at hfirst
  rw [show r.key + (k * 2 ^ 56 - r.key - 1) = (k - 1) * 2 ^ 56 + (2 ^ 56 - 1) by omega, picks_dirtyKey p (by omega)] at hlast
  exact hp (k - 1) ⟨hlast, hfirst⟩

/-- A byte that is written to a location is one that some core holds dirty there. -/
theorem heldAt_key {r : Run} {loc : Nat} {b : Byte} (h : HeldAt (r.key % 2 ^ 56) r.bytes loc b) :
    HeldAt r.key r.bytes (r.key / 2 ^ 56 * 2 ^ 56 + loc) b := by
  obtain ⟨i, hi, hb⟩ := h
  exact ⟨i, by omega, hb⟩

theorem flushWhere_team {s : State} (h : Unguarded s) (p : Nat → Nat → Bool) : (flushWhere s p).team = s.team :=
  (foldl_performRun (runsOf (s.dirty.filter (picks p))) (s := takenOut s p) h).1

/-- A flush takes from the L1s the dirty bytes that it picks, and no other. -/
theorem flushWhere_dirty {s : State} (h : PlainMemory s) (p : Nat → Nat → Bool) (k : Nat) {loc : Nat} (hloc : loc < 2 ^ 56) :
    mapGet none (flushWhere s p).dirty (k * 2 ^ 56 + loc) =
      if p k loc then none else mapGet none s.dirty (k * 2 ^ 56 + loc) := by
  obtain ⟨hfree, -, hwf⟩ := h
  have hdirty : (flushWhere s p).dirty = s.dirty.filter fun x => !picks p x :=
    (foldl_performRun (runsOf (s.dirty.filter (picks p))) (s := takenOut s p) hfree).2.1
  rw [hdirty, mapGet_filter hwf, picks_dirtyKey p hloc]
  cases p k loc <;> rfl

/-- After a flush a byte of memory is one that was picked at its location or, where none was, as it was. -/
theorem flushWhere_memByte {s : State} (h : PlainMemory s) {p : Nat → Nat → Bool} (hp : StaysInCore p) {loc : Nat}
    (hloc : loc < 2 ^ 56) :
    (∃ k d, p k loc = true ∧ mapGet none s.dirty (k * 2 ^ 56 + loc) = some d ∧ memByte (flushWhere s p) loc = d.b) ∨
      ((∀ k, p k loc = true → mapGet none s.dirty (k * 2 ^ 56 + loc) = none) ∧
        memByte (flushWhere s p) loc = memByte s loc) := by
  obtain ⟨hfree, -, hwf⟩ := h
  obtain ⟨-, -, hmem⟩ := foldl_performRun (runsOf (s.dirty.filter (picks p))) (s := takenOut s p) hfree
  obtain ⟨r, hr, hheld⟩ | ⟨hnot, hsame⟩ := hmem loc
  · obtain ⟨d, hd, hdb⟩ := (runsOf_heldAt _ _ _).mp ⟨r, hr, heldAt_key hheld⟩
    obtain ⟨hin, hpick⟩ := List.mem_filter.mp hd
    rw [picks_dirtyKey p hloc] at hpick
    exact .inl ⟨_, d, hpick, mapGet_of_mem hwf hin, hdb.symm⟩
  · refine .inr ⟨fun k hk => ?_, hsame⟩
    refine Decidable.byContradiction fun hne => ?_
    obtain ⟨d, hd⟩ := Option.ne_none_iff_exists'.mp hne
    have hin := mem_of_mapGet_ne hne
    rw [hd] at hin
    obtain ⟨r, hr, hheld⟩ := (runsOf_heldAt _ _ _).mpr
      ⟨d, List.mem_filter.mpr ⟨hin, (picks_dirtyKey p hloc _).trans hk⟩, rfl⟩
    exact hnot r hr d.b (heldAt_location hp hr hloc hheld)

/-- A flush of memory that nothing guards performs what it picks. -/
theorem flushWhere_performs {s : State} (h : PlainMemory s) {p : Nat → Nat → Bool} (hp : StaysInCore p) {P : Nat → Nat → Prop}
    (hP : ∀ k loc, P k loc ↔ p k loc = true) : (flushWhere s p).team = s.team ∧ Performs s (flushWhere s p) P := by
  refine ⟨flushWhere_team h.1 p, fun k loc b hloc hb => ⟨fun hk => ⟨?_, fun hothers => ?_⟩, fun hk => ?_⟩,
    fun loc hloc hnone => ?_⟩
  · rw [flushWhere_dirty h p k hloc, if_pos ((hP ..).mp hk)]
  · obtain ⟨q, d, hq, hd, hdb⟩ | ⟨hnone, -⟩ := flushWhere_memByte h hp hloc
    · obtain rfl : q = k := Decidable.byContradiction fun hne =>
        absurd (hd.symm.trans (hothers q hne ((hP ..).mpr hq))) (Option.some_ne_none d)
      rw [hdb, Option.some.inj (hd.symm.trans hb)]
    · exact absurd (hb.symm.trans (hnone k ((hP ..).mp hk))) (Option.some_ne_none b)
  · rw [flushWhere_dirty h p k hloc, if_neg fun hpk => hk ((hP ..).mpr hpk), hb]
  · obtain ⟨q, d, hq, hd, -⟩ | ⟨-, hsame⟩ := flushWhere_memByte h hp hloc
    · exact absurd (hd.symm.trans (hnone q ((hP ..).mpr hq))) (Option.some_ne_none d)
    · exact hsame

theorem flushLine_performs {s : State} (h : PlainMemory s) (k line : Nat) : (flushLine s k line).team = s.team ∧
    Performs s (flushLine s k line) fun c loc => c = k ∧ loc / 128 = line :=
  flushWhere_performs h (staysInCore_of_line (line := line) fun c loc hc => (by simpa using hc : c = k ∧ loc / 128 = line).2)
    fun c loc => by simp

/-- A write-back that nothing holds performs the line, by either of its events. -/
theorem writeBack_performs {s : State} {i : Instr} {die : BitVec 4} {core : BitVec 6} {line : Nat}
    (hi : i = .backgroundWriteBack die core line ∨ i = .storePerformed die core line) (h : PlainMemory s)
    (hheld : writeBackHeld s (die.toNat * 64 + core.toNat) (line * 128) = false) : ∃ t, exec i s = .next t ∧ t.team = s.team ∧
      Performs s t fun k loc => k = die.toNat * 64 + core.toNat ∧ loc / 128 = line := by
  have hline : performLine s (coreKey die core) line = flushLine s (die.toNat * 64 + core.toNat) line :=
    if_neg (by rw [coreKey, hheld]; exact Bool.false_ne_true)
  obtain ⟨hteam, hperf⟩ := flushLine_performs h (die.toNat * 64 + core.toNat) line
  rw [← hline] at hteam hperf
  obtain rfl | rfl := hi
  · exact ⟨_, rfl, hteam, hperf⟩
  · exact ⟨_, rfl, hteam, hperf⟩

theorem backgroundWriteBack_held {s : State} {die : BitVec 4} {core : BitVec 6} {line : Nat}
    (h : writeBackHeld s (die.toNat * 64 + core.toNat) (line * 128) = true) :
    exec (.backgroundWriteBack die core line) s = .next s := congrArg Host.Outcome.next (if_pos h)

/-- A snoop performs the line of host memory, whichever L1s hold bytes of it. -/
theorem cxlCacheSnoop_performs {s : State} (h : PlainMemory s) (line : Nat) : ∃ t, exec (.cxlCacheSnoop line) s = .next t ∧
    t.team = s.team ∧ Performs s t fun _ loc => loc / 128 = locHost 0 / 128 + line :=
  ⟨_, rfl, flushWhere_performs h (staysInCore_of_line (line := locHost 0 / 128 + line) fun _ _ hc => by simpa using hc)
    fun _ _ => by simp⟩

end Sys2Proof.MemoryHierarchy
end

section
/-! PROOFS. Soft errors (R430, R444): what each counts, poisons and reports; and the statement about lines and errors (O43). -/

namespace Sys2Proof.MemoryHierarchy

open Sys2Proof.Machine

/-! ### Counters -/

theorem partOf_setPart (s : State) (p : BitVec 4) (x : Part) : partOf (setPart s p x) p = x := mapGet_mapSet_self ..

theorem sec_countSec (s : State) (p : BitVec 4) (die : Nat) :
    mapGet 0 (partOf (countSec s p die) p).sec die = mapGet 0 (partOf s p).sec die + 1 := by
  rw [countSec, partOf_setPart, mapGet_mapSet_self]

theorem seu_countSeu (s : State) (p : BitVec 4) (die : Nat) :
    mapGet 0 (partOf (countSeu s p die) p).seu die = mapGet 0 (partOf s p).seu die + 1 := by
  rw [countSeu, partOf_setPart, mapGet_mapSet_self]

/-! ### A poisoned line -/

/-- A report that joins no open span opens one. -/
theorem report_new {s : State} {p : BitVec 4} {rep : Byte} {target : Word} (h : NewSpan s p rep target) (addr : Word) :
    report s p rep target addr = { s with spans := s.spans ++ [⟨p, rep, target, addr, s.time, 1⟩] } := by
  refine if_neg fun hany => ?_
  obtain ⟨x, hx, hsame⟩ := List.any_eq_true.mp hany
  exact h x hx (by simpa [and_assoc] using hsame)

/-- What no longer stands for whole lines are dirty bytes, and nothing else changes. -/
theorem spoilDirty_eq (s : State) (die line : Nat) : ∃ m, spoilDirty s die line = { s with dirty := m } := by
  have hfold : ∀ (cs : List Nat) (s : State),
      ∃ m, cs.foldl (fun s c => markWhole s (die * 64 + c) [line] false) s = { s with dirty := m } := by
    intro cs
    induction cs with
    | nil => exact fun s => ⟨s.dirty, rfl⟩
    | cons c cs ih => exact fun s => ih (markWhole s (die * 64 + c) [line] false)
  exact hfold _ s

theorem mem_poisonLine (s : State) (line : Nat) : line ∈ (poisonLine s line).poisonLines := by
  unfold poisonLine
  split
  · next h => exact List.contains_iff_mem.mp h
  · exact List.mem_append_right _ List.mem_cons_self

/-- Poisoning a line adds to the poisoned lines, and changes nothing else. -/
theorem poisonLine_eq (s : State) (line : Nat) : ∃ ls, poisonLine s line = { s with poisonLines := s.poisonLines ++ ls } := by
  unfold poisonLine
  split
  · exact ⟨[], by rw [List.append_nil]⟩
  · exact ⟨[line], rfl⟩

/-- An uncorrectable error in a line poisons it, is counted and is reported. -/
theorem softErrorLine {s : State} (die : BitVec 4) {p : BitVec 4} (line : Nat) (h : NewSpan s p 5 0) :
    ∃ t, exec (.softError (.line die p line)) s = .next t ∧
      line ∈ t.poisonLines ∧ (∀ x ∈ s.poisonLines, x ∈ t.poisonLines) ∧
      mapGet 0 (partOf t p).seu die.toNat = mapGet 0 (partOf s p).seu die.toNat + 1 ∧
      t.spans = s.spans ++ [⟨p, 5, 0, addrOfLoc s (line * 128), s.time, 1⟩] ∧ t.mem = s.mem := by
  obtain ⟨m, hspoil⟩ := spoilDirty_eq s die.toNat line
  have hin := mem_poisonLine { s with dirty := m } line
  obtain ⟨ls, hpoison⟩ := poisonLine_eq { s with dirty := m } line
  rw [hpoison] at hin
  refine ⟨_, rfl, ?_⟩
  simp only [hspoil, hpoison]
  rw [report_new (by exact h)]
  exact ⟨hin, fun x hx => List.mem_append_left _ hx, seu_countSeu _ p die.toNat, rfl, rfl⟩

/-! ### An error in a team -/

/-- A change to every team, when it leaves them all resident where they are, is seen in each context. -/
theorem teamAt_mapTeams (s : State) (p : Place) {f : Team → Team} (hplace : ∀ t, (f t).place = t.place)
    (hstatus : ∀ t, (f t).status = t.status) : teamAt (mapTeams s f) p = (teamAt s p).map f := by
  simp only [teamAt, mapTeams_team, mapTeams_others, hplace, hstatus, List.find?_map, Function.comp_def]
  split <;> rfl

/-- The team in a context is among the partition's teams. -/
theorem mem_everyTeam_of_teamAt {s : State} {p : Place} {u : Team} (h : teamAt s p = some u) : u ∈ everyTeam s ∧ u.place = p := by
  unfold teamAt at h
  split at h
  · next hcur =>
    simp only [Bool.and_eq_true, decide_eq_true_iff, bne_iff_ne] at hcur
    obtain ⟨hplace, hstatus⟩ := hcur
    cases h
    exact ⟨by simp [everyTeam, teamsOf, hstatus], hplace⟩
  · exact ⟨by simp [everyTeam, teamsOf, List.mem_of_find?_eq_some h], by simpa using List.find?_some h⟩

theorem markSoft_place (p : Place) (code : BitVec 11) (t : Team) : (markSoft p code t).place = t.place := by
  unfold markSoft
  split <;> rfl

theorem markSoft_status (p : Place) (code : BitVec 11) (t : Team) : (markSoft p code t).status = t.status := by
  unfold markSoft
  split <;> rfl

theorem markSoft_resident {p : Place} {t : Team} (hplace : t.place = p) (hstatus : t.status ≠ .vacant) (code : BitVec 11) :
    markSoft p code t = { t with softErr := some code } := if_pos (by simp [hplace, hstatus])

/-- An error in a resident team's state is noted in it, for its next instruction. -/
theorem softErrorTeam {s : State} {p : Place} {u : Team} (code : BitVec 11) (hu : teamAt s p = some u) (hv : u.status ≠ .vacant) :
    ∃ t, exec (.softError (.team p code)) s = .next t ∧
      TeamBecomes s t p (fun u => { u with softErr := some code }) ∧ t.mem = s.mem := by
  obtain ⟨hmem, hplace⟩ := mem_everyTeam_of_teamAt hu
  obtain ⟨w, hw⟩ : ∃ w, (everyTeam s).find? (fun t => t.place == p) = some w :=
    Option.isSome_iff_exists.mp (List.find?_isSome.mpr ⟨u, hmem, by simp [hplace]⟩)
  have hexec : exec (.softError (.team p code)) s =
      .next (mapSaved (mapTeams (countSeu s w.part p.die.toNat) (markSoft p code)) (markSoft p code)) := by
    show Host.Outcome.next _ = _
    simp only [hw]
  refine ⟨_, hexec, fun v hvu => ?_, rfl⟩
  obtain rfl : u = v := Option.some.inj (hu.symm.trans hvu)
  have hat : teamAt (mapTeams (countSeu s w.part p.die.toNat) (markSoft p code)) p = some (markSoft p code u) := by
    rw [teamAt_mapTeams _ p (markSoft_place p code) (markSoft_status p code)]
    exact congrArg (Option.map (markSoft p code)) hu
  exact hat.trans (congrArg some (markSoft_resident hplace hv code))

/-- Settles O43: the write-backs by what a flush performs, the errors by what each counts and marks. -/
theorem linesAndSoftErrors : Obligations.LinesAndSoftErrors := by
  unfold Obligations.LinesAndSoftErrors
  exact ⟨fun _ _ _ _ _ hi h hheld => writeBack_performs hi h hheld, fun _ _ _ _ hheld => backgroundWriteBack_held hheld,
    fun _ line h => cxlCacheSnoop_performs h line, fun s die p => ⟨_, rfl, sec_countSec s p die.toNat, rfl⟩,
    fun _ die _ line h => softErrorLine die line h, fun _ _ _ code hu hv => softErrorTeam code hu hv, fun _ _ => rfl⟩

end Sys2Proof.MemoryHierarchy
end

section
/-! PROOFS. What the reads, the writes and the requests at a bank leave of the engine operations outstanding (R98): all of them
as they were. -/

namespace Sys2Proof.ConsistencyModel

open Sys2Proof.Machine Sys2Proof.RegisterState Sys2Proof.MemoryHierarchy

/-- What every pass of a fold keeps, the fold keeps. -/
theorem foldl_keeps (P : State → Prop) {α : Type} {f : State → α → State} (hf : ∀ s x, P s → P (f s x)) (xs : List α)
    {s : State} (h : P s) : P (xs.foldl f s) := List.foldlRecOn xs f h fun s hs x _ => hf s x hs

/-! ### Reads, and the use of islands -/

theorem choosePoint_eq (s : State) (k i : Nat) : ∃ ps, choosePoint s k i = { s with points := ps } := by
  unfold choosePoint
  split
  · exact ⟨_, rfl⟩
  · split
    · exact ⟨s.points, rfl⟩
    · exact ⟨_, rfl⟩

/-- Work on islands is noted at their deciders and their core, and nowhere else. -/
theorem noteUse_eq (s : State) (k : Nat) (is : List Nat) : ∃ ps cs, noteUse s k is = { s with points := ps, cores := cs } := by
  have hfold : ∃ ps, is.foldl (fun s i => choosePoint s k i) s = { s with points := ps } :=
    foldl_keeps (fun t => ∃ ps, t = { s with points := ps }) (fun t i ⟨_, ht⟩ => by
      obtain ⟨qs, h⟩ := choosePoint_eq t k i
      exact ⟨qs, by rw [h, ht]⟩) is ⟨s.points, rfl⟩
  obtain ⟨ps, hps⟩ := hfold
  unfold noteUse
  split
  · exact ⟨s.points, s.cores, rfl⟩
  · simp only [hps]
    exact ⟨_, _, rfl⟩

theorem readL2_eq (s : State) (die : Nat) (x : BitVec 13) (loc : Nat) :
    ∃ a b c d, readL2 s die x loc = noted s a b c d := by
  unfold readL2 fillL2 dirRead touchL2
  repeat' split
  all_goals exact ⟨_, _, _, _, rfl⟩

/-- Reads past the L1s are noted at the caches and the annexes, and nowhere else (R360, R362). -/
theorem readPiecesL2_eq (s : State) (die : Nat) (x : BitVec 13) (ps : List (Nat × Nat)) :
    ∃ a b c d, readPiecesL2 s die x ps = noted s a b c d := by
  have hread : ∀ (t : State), (∃ a b c d, t = noted s a b c d) → ∀ loc, ∃ a b c d, readL2 t die x loc = noted s a b c d := by
    rintro t ⟨_, _, _, _, rfl⟩ loc
    obtain ⟨a, b, c, d, h⟩ := readL2_eq (noted s _ _ _ _) die x loc
    exact ⟨a, b, c, d, h⟩
  exact foldl_keeps (fun t => ∃ a b c d, t = noted s a b c d)
    (fun _ piece ht => foldl_keeps (fun t => ∃ a b c d, t = noted s a b c d) (fun t l ht => hread t ht (l * 128))
      (linesOf piece.1 piece.2) ht) ps ⟨s.l1, s.l2, s.annex, s.annexCnt, rfl⟩

/-! ### Writes -/

theorem report_engines (s : State) (p : BitVec 4) (rep : Byte) (target addr : Word) :
    (report s p rep target addr).engines = s.engines := by
  unfold report
  simp only
  split <;> rfl

theorem performBy_engines (own : Option Nat) (s : State) (p : BitVec 4) (pl : Place) (loc : Nat) (bs : List Byte) :
    (performBy own s p pl loc bs).engines = s.engines := by
  obtain ⟨a, b, c, d, hown⟩ := ownLines_eq_noted s own loc bs.length
  have hpoison : (if own.isSome then ownLines s own loc bs.length
      else clearPoison (ownLines s own loc bs.length) [(loc, bs.length)]).engines = s.engines := by
    rw [hown]
    split <;> rfl
  unfold performBy
  simp only
  split
  · split <;> exact hpoison
  · split <;> split <;> simp only [report_engines, hpoison]

theorem flushLines_engines (s : State) (loc n : Nat) : (flushLines s loc n).engines = s.engines := by
  rw [flushLines, flushWhere_eq]
  exact foldl_keeps (fun t => t.engines = s.engines) (fun t _ ht => (performBy_engines _ t _ _ _ _).trans ht) _ rfl

/-- The writes of a unit leave every operation as it was. -/
theorem performWrites_engines (s : State) (o : EngOp) (ws : List (Nat × List Byte)) :
    (performWrites s o ws).engines = s.engines :=
  foldl_keeps (fun t => t.engines = s.engines) (fun t w ht =>
    (performBy_engines none (flushLines t w.1 w.2.length) _ _ _ _).trans ((flushLines_engines ..).trans ht)) ws rfl

/-! ### Requests at a bank -/

theorem mapTeam_engines (s : State) (p : Place) (f : Team → Team) : (mapTeam s p f).engines = s.engines := by
  unfold mapTeam
  split <;> rfl

theorem writeObj_engines (s : State) (obj : Nat) (b : BarObj) : (writeObj s obj b).engines = s.engines := by
  rw [writeObj, rawWrite_engines]

theorem completeObj_engines (s : State) (obj : Nat) : (completeObj s obj).engines = s.engines := by
  simp only [completeObj, apply_ite State.engines, putCross_engines, writeObj_engines, ite_self]

theorem bankLdfe_engines {s s1 : State} {loc n : Nat} {clear : Bool} {r : SvcReply} (h : bankLdfe s loc n clear = some (s1, r)) :
    s1.engines = s.engines := by
  simp only [bankLdfe, Option.ite_none_right_eq_some, Option.some.injEq, Prod.mk.injEq] at h
  obtain ⟨-, rfl, -⟩ := h
  simp only [apply_ite State.engines, setEmpty_engines, ite_self]

theorem arrive_engines {s s1 : State} {obj phase : Nat} {cross last : Bool} (h : arrive s obj cross = .counted s1 phase last) :
    s1.engines = s.engines := by
  simp only [arrive] at h
  split at h
  · cases h
  split at h
  · cases h
  split at h
  · cases h
  simp only [Arrival.counted.injEq] at h
  obtain ⟨rfl, -⟩ := h
  rw [completeObj_engines, writeObj_engines]

theorem countArrival_engines {s s1 : State} {obj : Nat} {cross : Bool} {p : Place} (h : countArrival s obj cross p = some s1) :
    s1.engines = s.engines := by
  simp only [countArrival] at h
  split at h
  · cases h
  split at h
  · obtain rfl := Option.some.inj h
    rw [mapTeam_engines]
  split at h
  · cases h
  obtain rfl := Option.some.inj h
  rw [mapTeam_engines, writeObj_engines]

/-- A request performed at its bank leaves every operation as it was. -/
theorem bankTry_engines {s s1 : State} {r : BankReq} (h : bankTry s r = some s1) : s1.engines = s.engines := by
  cases r with
  | bytes obj n p t =>
    simp only [bankTry, Option.ite_none_right_eq_some, Option.some.injEq] at h
    rw [← h.2, landBytes, completeObj_engines, writeObj_engines]
  | notice obj =>
    simp only [bankTry, Option.ite_none_right_eq_some, Option.some.injEq] at h
    rw [← h.2, takeNotice, completeObj_engines, putCross_engines]
  | expb obj n =>
    simp only [bankTry, Option.ite_none_right_eq_some, Option.some.injEq] at h
    rw [← h.2, expectBytes, completeObj_engines, writeObj_engines]
  | ldfe loc n clear t =>
    obtain ⟨⟨s2, rep⟩, hldfe, rfl⟩ := Option.map_eq_some_iff.mp h
    exact (mapTeam_engines ..).trans (bankLdfe_engines hldfe)
  | arrive obj cross t =>
    simp only [bankTry] at h
    split at h
    · cases h
    · rw [← Option.some.inj h, answer, mapTeam_engines]
    · next harr => rw [← Option.some.inj h, answer, mapTeam_engines, arrive_engines harr]
  | await obj phase t =>
    simp only [bankTry, Option.ite_none_right_eq_some, Option.some.injEq] at h
    rw [← h.2, answer, mapTeam_engines]
  | count obj cross t => exact countArrival_engines h

theorem firstHeld_engines {s s1 : State} {rs : List BankReq} (h : firstHeld s rs = some s1) : s1.engines = s.engines := by
  induction rs with
  | nil => cases h
  | cons r rest ih =>
    unfold firstHeld at h
    split at h
    · next htry =>
      have htried := bankTry_engines htry
      rwa [← Option.some.inj h]
    · exact ih h

theorem bankLoop_engines (n : Nat) (s : State) : (bankLoop n s).engines = s.engines := by
  induction n generalizing s with
  | zero => rfl
  | succ n ih =>
    unfold bankLoop
    split
    · next h => exact (ih _).trans (firstHeld_engines h)
    · rfl

theorem settleBank_engines (s : State) : (settleBank s).engines = s.engines := bankLoop_engines ..

/-- A bank that holds no request has none to perform. -/
theorem settleBank_empty {s : State} (h : s.bank = []) : settleBank s = s := by
  rw [settleBank, h]
  rfl

theorem setFull_foldl_eq (gs : List Nat) (s : State) :
    ∃ full, gs.foldl (fun s g => setFull s (g * 16)) s = { s with full := full } :=
  foldl_keeps (fun t => ∃ full, t = { s with full := full }) (by
    rintro _ g ⟨full, rfl⟩
    unfold setFull
    split <;> exact ⟨_, rfl⟩) gs ⟨s.full, rfl⟩

theorem fillGranules_engines (s : State) (gs : List Nat) : (fillGranules s gs).engines = s.engines := by
  obtain ⟨full, h⟩ := setFull_foldl_eq gs s
  rw [fillGranules, settleBank_engines, h]

/-- Granules set full change no byte, where nothing waits for them at a bank. -/
theorem fillGranules_mem {s : State} (h : s.bank = []) (gs : List Nat) : (fillGranules s gs).mem = s.mem := by
  obtain ⟨full, hfull⟩ := setFull_foldl_eq gs s
  rw [fillGranules, hfull, settleBank_empty (by exact h)]

end Sys2Proof.ConsistencyModel
end

section
/-! PROOFS. Barrier objects (R254): an object reads back as it was written, and what a count and a notice make of one whose phase
they leave open (R255, R257). -/

namespace Sys2Proof.ConsistencyModel

open Sys2Proof.Machine Sys2Proof.RegisterState

/-! ### The words of an object -/

/-- A natural written among other bytes stands where it was put. -/
theorem memNat_rawWrite_between (s : State) (loc n v : Nat) (before after : List Byte) :
    memNat (rawWrite s loc (before ++ (bytesOfNat n v ++ after))) (loc + before.length) n = v % 2 ^ (8 * n) := by
  have h := memNat_eq_natOfBytes (s := rawWrite s loc (before ++ (bytesOfNat n v ++ after))) (loc := loc + before.length)
    (bs := bytesOfNat n v) fun j hj => by
      rw [memByte_rawWrite, if_pos ⟨by omega, by simp only [List.length_append]; omega⟩, Nat.add_assoc, Nat.add_sub_cancel_left,
        List.getD_eq_getElem?_getD, List.getElem?_append_right (Nat.le_add_right ..), Nat.add_sub_cancel_left,
        List.getElem?_append_left hj, List.getD_eq_getElem?_getD]
  rwa [bytesOfNat_length, natOfBytes_bytesOfNat] at h

/-- The counts of an object fit the fields that hold them. -/
structure Fits (b : BarObj) : Prop where
  phase : b.phase < 2 ^ 32
  expa : b.expa < 2 ^ 16
  defb : b.defb < 2 ^ 32
  expb : b.expb < 2 ^ 32
  arrived : b.arrived < 2 ^ 16
  landed : b.landed < 2 ^ 64

theorem readObj_fits (s : State) (obj : Nat) : Fits (readObj s obj) where
  phase := Nat.div_lt_of_lt_mul (memNat_lt s _ 8)
  expa := Nat.mod_lt _ (by decide)
  defb := Nat.div_lt_of_lt_mul (memNat_lt s _ 8)
  expb := Nat.mod_lt _ (by decide)
  arrived := Nat.mod_lt _ (by decide)
  landed := memNat_lt s _ 8

theorem readObj_congr {s t : State} (h : t.mem = s.mem) (obj : Nat) : readObj t obj = readObj s obj := by
  simp only [readObj, memNat_congr h]

/-- The four words of an object, as they are written. -/
def objWords (b : BarObj) : List Nat :=
  [b.expa + (if b.x then 2 ^ 16 else 0) + b.phase % 2 ^ 32 * 2 ^ 32, b.expb % 2 ^ 32 + b.defb % 2 ^ 32 * 2 ^ 32,
    b.arrived % 2 ^ 16, b.landed % 2 ^ 64]

theorem writeObj_eq (s : State) (obj : Nat) (b : BarObj) :
    writeObj s obj b = rawWrite s obj ((objWords b).flatMap (bytesOfNat 8)) := by
  simp only [writeObj, objWords, List.flatMap_cons, List.flatMap_nil, List.append_assoc, List.append_nil]

/-- Of words written one after another, each stands at its place. -/
theorem memNat_rawWrite_words (s : State) (loc : Nat) {ws : List Nat} {i v : Nat} (h : ws[i]? = some v) :
    memNat (rawWrite s loc (ws.flatMap (bytesOfNat 8))) (loc + 8 * i) 8 = v % 2 ^ 64 := by
  obtain ⟨hi, rfl⟩ := List.getElem?_eq_some_iff.mp h
  have hsplit : ws.flatMap (bytesOfNat 8) =
      (ws.take i).flatMap (bytesOfNat 8) ++ (bytesOfNat 8 ws[i] ++ (ws.drop (i + 1)).flatMap (bytesOfNat 8)) := by
    rw [← List.flatMap_cons, ← List.drop_eq_getElem_cons hi, ← List.flatMap_append, List.take_append_drop]
  have hlen : ((ws.take i).flatMap (bytesOfNat 8)).length = 8 * i := by
    simp only [List.length_flatMap, bytesOfNat_length, List.map_const', List.sum_replicate_nat, List.length_take,
      Nat.min_eq_left (Nat.le_of_lt hi), Nat.mul_comm]
  rw [hsplit, ← hlen, memNat_rawWrite_between]

/-- PHASE, the mark of a cross object and EXPA, out of the word that holds them. -/
theorem headWord_fields {phase expa : Nat} (hphase : phase < 2 ^ 32) (hexpa : expa < 2 ^ 16) (x : Bool) :
    let w := (expa + (if x then 2 ^ 16 else 0) + phase % 2 ^ 32 * 2 ^ 32) % 2 ^ 64
    w / 2 ^ 32 = phase ∧ (w / 2 ^ 16 % 2 == 1) = x ∧ w % 2 ^ 16 = expa := by
  cases x with
  | false =>
    simp only [Bool.false_eq_true, if_false, beq_eq_false_iff_ne]
    omega
  | true =>
    simp only [if_true, beq_iff_eq]
    omega

theorem readObj_writeObj (s : State) (obj : Nat) {b : BarObj} (h : Fits b) : readObj (writeObj s obj b) obj = b := by
  obtain ⟨phase, x, expa, defb, expb, arrived, landed⟩ := b
  obtain ⟨hphase, hexpa, hdefb, hexpb, harrived, hlanded⟩ := h
  simp only at hphase hexpa hdefb hexpb harrived hlanded
  obtain ⟨hp, hx, he⟩ := headWord_fields hphase hexpa x
  simp only [readObj, writeObj_eq, memNat_rawWrite_words s obj (show (objWords _)[0]? = _ from rfl),
    memNat_rawWrite_words s obj (show (objWords _)[1]? = _ from rfl),
    memNat_rawWrite_words s obj (show (objWords _)[2]? = _ from rfl),
    memNat_rawWrite_words s obj (show (objWords _)[3]? = _ from rfl), BarObj.mk.injEq, hp, hx, he, true_and]
  omega

/-! ### A phase that stays open -/

/-- The object's phase is not complete: an arrival or a byte is still to come. -/
def StaysOpen (b : BarObj) : Prop := b.arrived ≠ b.expa ∨ b.landed < b.expb

theorem completeObj_open {s : State} {obj : Nat} (h : StaysOpen (readObj s obj)) : completeObj s obj = s := by
  have hnot : ((readObj s obj).arrived == (readObj s obj).expa &&
      decide ((readObj s obj).expb ≤ (readObj s obj).landed)) = false := by
    obtain harrived | hlanded := h
    · rw [beq_false_of_ne harrived, Bool.false_and]
    · rw [decide_eq_false (Nat.not_le_of_lt hlanded), Bool.and_false]
  simp only [completeObj, hnot, Bool.false_eq_true, if_false]

/-- An object with n more bytes landed. -/
def withBytes (b : BarObj) (n : Nat) : BarObj := { b with landed := b.landed + n }

theorem withBytes_fits {b : BarObj} {n : Nat} (h : Fits b) (hlanded : b.landed + n < 2 ^ 64) : Fits (withBytes b n) :=
  { h with landed := hlanded }

/-- Bytes counted into an object whose phase they leave open are written to its LANDED. -/
theorem landBytes_open {s : State} {obj n : Nat} (hfit : (readObj s obj).landed + n < 2 ^ 64)
    (hopen : StaysOpen (withBytes (readObj s obj) n)) : landBytes s obj n = writeObj s obj (withBytes (readObj s obj) n) ∧
      readObj (landBytes s obj n) obj = withBytes (readObj s obj) n := by
  have hread := readObj_writeObj s obj (withBytes_fits (readObj_fits s obj) hfit)
  have hstill : StaysOpen (readObj (writeObj s obj (withBytes (readObj s obj) n)) obj) := by rwa [hread]
  have hland : landBytes s obj n = writeObj s obj (withBytes (readObj s obj) n) := by
    rw [← completeObj_open hstill, landBytes, withBytes]
  exact ⟨hland, by rw [hland, hread]⟩

theorem crossOf_obj (s : State) (obj : Nat) : (crossOf s obj).obj = obj := by
  unfold crossOf
  cases h : s.cross.find? fun c => decide (c.obj = obj) with
  | none => rfl
  | some c => simpa using List.find?_some h

theorem crossOf_putCross (s : State) (c : CrossObj) : crossOf (putCross s c) c.obj = c := by
  simp [crossOf, putCross]

/-- A notice of the other half, at an object whose phase stays open, is only noted (R257). -/
theorem takeNotice_open {s : State} {obj : Nat} (h : StaysOpen (readObj s obj)) :
    takeNotice s obj = putCross s { crossOf s obj with noticed := (crossOf s obj).noticed + 1 } := by
  have hnoticed : StaysOpen (readObj (putCross s { crossOf s obj with noticed := (crossOf s obj).noticed + 1 }) obj) := by
    rwa [readObj_congr (putCross_mem ..)]
  rw [← completeObj_open hnoticed, takeNotice]

/-! ### Requests that reach a bank -/

theorem reach_performed {s s1 : State} {r : BankReq} (h : bankTry s r = some s1) : atBank.reach s r = settleBank s1 := by
  rw [atBank.reach, h]

theorem reach_waits {s : State} {r : BankReq} (h : bankTry s r = none) : atBank.reach s r = { s with bank := s.bank ++ [r] } := by
  rw [atBank.reach, h]

/-- Bytes counted at a place in an allocation reach its bank. -/
theorem atBank_bytes {s : State} {obj : Nat} (h : blockOfLoc s obj ≠ none) (n : Nat) (p : BitVec 4) (t : Place) :
    atBank s (.bytes obj n p t) = atBank.reach s (.bytes obj n p t) :=
  if_neg (by simpa using h)

end Sys2Proof.ConsistencyModel
end

section
/-! PROOFS. How engine operations run, pause and retire (O44): a unit performed (R98), a pause (R434), the counting of landed bytes
and notices (R99, R257), and retirement. -/

namespace Sys2Proof.ConsistencyModel

open Sys2Proof.Machine Sys2Proof.RegisterState Sys2Proof.MemoryHierarchy

/-! ### Operations by their numbers -/

theorem opAt_congr {s t : State} (h : t.engines = s.engines) (id : Nat) : opAt t id = opAt s id := by rw [opAt, opAt, h]

theorem opAt_id {s : State} {id : Nat} {o : EngOp} (h : opAt s id = some o) : o.id = id := by
  simpa using List.find?_some h

/-- An operation put in the place of another with its number stands there. -/
theorem opAt_putOp {s : State} {o x : EngOp} (h : opAt s o.id = some x) : opAt (putOp s o) o.id = some o := by
  have hsame : ∀ e : EngOp, ((if e.id = o.id then o else e).id == o.id) = (e.id == o.id) := fun e => by
    split
    · next he => simp [he]
    · rfl
  simp only [opAt, putOp, List.find?_map, Function.comp_def, hsame]
  rw [opAt] at h
  simp [h, opAt_id h]

/-! ### A unit that is performed (R98) -/

/-- The operation once a unit of it that acts on no core has been performed, in a launch that is not ordered. -/
def advanced (o : EngOp) (d : UnitDone) : EngOp :=
  { o.onArray with
    unit := o.unit + 1
    uncounted := if o.bar.isSome then o.uncounted + (d.writes.map fun w => w.2.length).foldl (· + ·) 0 else 0
    touched := o.touched ++ (granulesOf d.writes).filter fun g => !o.touched.contains g
    pending := []
    buckets := d.buckets.getD o.buckets
    begun := o.begun || !d.writes.isEmpty
    state := if unitCount o ≤ o.unit + 1 then .finished else .running }

/-- What the reads of a unit, and its use of the array, make of the state. -/
def unitRead (s : State) (o : EngOp) (d : UnitDone) : State :=
  readPiecesL2 (if needsArray o then noteUse s (placeKey o.place) [4] else s) o.place.die.toNat o.asid d.reads

/-- The state once the unit's writes have landed and its operation has moved on. -/
def unitLanded (s : State) (o : EngOp) (d : UnitDone) : State :=
  putOp (performWrites (unitRead s o d) o d.writes) (advanced o d)

/-- A unit that acts on no core lands; the last one fills the granules that the operation has touched (R81). -/
theorem applyUnit_eq {s : State} {o : EngOp} {d : UnitDone} (hord : engOrdered s o = false) (hcore : d.core = none)
    (hswap : o.work ≠ .mxswap) : applyUnit s o d = if unitCount o ≤ o.unit + 1
      then fillGranules (unitLanded s o d) (advanced o d).touched else unitLanded s o d := by
  simp only [applyUnit, hord, hcore, beq_iff_eq, hswap, decide_eq_true_iff, Bool.and_eq_true, and_false, Bool.not_false,
    Bool.and_true, Bool.or_false, Option.isSome_none, Bool.false_eq_true, if_false]
  rfl

theorem unitRead_eq (s : State) (o : EngOp) (d : UnitDone) :
    ∃ ps cs l1 l2 an cnt, unitRead s o d = noted { s with points := ps, cores := cs } l1 l2 an cnt := by
  obtain ⟨ps, cs, huse⟩ := noteUse_eq s (placeKey o.place) [4]
  obtain ⟨l1, l2, an, cnt, hread⟩ := readPiecesL2_eq (if needsArray o then noteUse s (placeKey o.place) [4] else s)
    o.place.die.toNat o.asid d.reads
  rw [unitRead, hread]
  split
  · exact ⟨ps, cs, l1, l2, an, cnt, by rw [huse]⟩
  · exact ⟨s.points, s.cores, l1, l2, an, cnt, rfl⟩

theorem opAt_applyUnit {s : State} {o : EngOp} {d : UnitDone} (h : opAt s o.id = some o) (hord : engOrdered s o = false)
    (hcore : d.core = none) (hswap : o.work ≠ .mxswap) : opAt (applyUnit s o d) o.id = some (advanced o d) := by
  obtain ⟨ps, cs, l1, l2, an, cnt, hread⟩ := unitRead_eq s o d
  have hengines : (performWrites (unitRead s o d) o d.writes).engines = s.engines := by rw [performWrites_engines, hread]; rfl
  have hlanded : opAt (unitLanded s o d) o.id = some (advanced o d) :=
    opAt_putOp (o := advanced o d) ((opAt_congr hengines o.id).trans h)
  rw [applyUnit_eq hord hcore hswap]
  split
  · rw [opAt_congr (fillGranules_engines ..), hlanded]
  · exact hlanded

/-- Where nothing guards a byte, a write puts its bytes in memory; lines leave caches and annexes, and poison goes. -/
theorem performBy_unguarded {s : State} (h : Unguarded s) (own : Option Nat) (p : BitVec 4) (pl : Place) (loc : Nat)
    (bs : List Byte) : ∃ a b c d ls gs, performBy own s p pl loc bs =
      rawWrite { noted s a b c d with poisonLines := ls, poisonGranules := gs } loc bs := by
  obtain ⟨htags, hlocks, hlost, hmlost⟩ := h
  obtain ⟨a, b, c, d, hown⟩ := ownLines_eq_noted s own loc bs.length
  have htag : tagHit s loc bs.length = none := by simp [tagHit, htags]
  have hlock : lockHit s loc bs.length = none := by simp [lockHit, hlocks]
  simp only [performBy, htag, hlock, hown, hlost, hmlost, decide_true, Bool.and_self, if_true]
  split
  · exact ⟨a, b, c, d, s.poisonLines, s.poisonGranules, rfl⟩
  · exact ⟨a, b, c, d, _, _, rfl⟩

/-- With no dirty byte in any L1, a flush performs nothing. -/
theorem flushLines_clean {s : State} (h : s.dirty = []) (loc n : Nat) :
    ∃ dirty ls gs, flushLines s loc n = { s with dirty := dirty, poisonLines := ls, poisonGranules := gs } := by
  rw [flushLines, flushWhere_eq, takenOut, h]
  exact ⟨[], _, _, rfl⟩

/-- An engine's write at one place is its bytes in memory, where nothing is dirty and nothing guards a byte. -/
theorem performWrites_single {s : State} (hdirty : s.dirty = []) (h : Unguarded s) (o : EngOp) (loc : Nat) (bs : List Byte) :
    (performWrites s o [(loc, bs)]).mem = writeCells s.mem loc bs ∧ (performWrites s o [(loc, bs)]).bank = s.bank := by
  obtain ⟨dirty, ls, gs, hflush⟩ := flushLines_clean hdirty loc bs.length
  obtain ⟨a, b, c, d, ls', gs', hperform⟩ :=
    performBy_unguarded (s := { s with dirty := dirty, poisonLines := ls, poisonGranules := gs }) h none o.part o.place loc bs
  have hwrite : performWrites s o [(loc, bs)] = performBy none (flushLines s loc bs.length) o.part o.place loc bs := rfl
  rw [hwrite, hflush, hperform]
  exact ⟨rfl, rfl⟩

/-- A run of bytes is the list that it holds place by place. -/
theorem bytesBy_eq {f : Nat → Byte} {loc : Nat} {bs : List Byte} (h : ∀ j < bs.length, f (loc + j) = bs.getD j 0) :
    bytesBy f loc bs.length = bs := by
  induction bs generalizing loc with
  | nil => rfl
  | cons b bs ih =>
    have hhead : f loc = b := h 0 (by simp)
    have htail : bytesBy f (loc + 1) bs.length = bs := ih fun j hj => by
      have := h (j + 1) (by simpa using hj)
      rwa [Nat.add_comm j, ← Nat.add_assoc, Nat.add_comm 1, List.getD_cons_succ] at this
    rw [List.length_cons, bytesBy, hhead, htail]

/-- Bytes written at one place stand there, and every other byte is as it was. -/
theorem writtenAt_writeCells {s t : State} {loc : Nat} {bs : List Byte} (h : t.mem = writeCells s.mem loc bs) :
    WrittenAt s t [(loc, bs.length)] bs := by
  have hbyte : ∀ a, memByte t a = if loc ≤ a ∧ a < loc + bs.length then bs.getD (a - loc) 0 else memByte s a := fun a => by
    rw [memByte, h, mapGet_writeCells, memByte]
  refine ⟨?_, fun a ha => by rw [hbyte, if_neg (ha _ List.mem_cons_self)]⟩
  rw [List.flatMap_cons, List.flatMap_nil, List.append_nil]
  exact bytesBy_eq fun j hj => by rw [hbyte, if_pos ⟨by omega, by omega⟩, Nat.add_sub_cancel_left]

/-- The only write of a unit stands in memory once the unit has landed. -/
theorem applyUnit_written {s : State} {o : EngOp} {d : UnitDone} (hord : engOrdered s o = false) (hcore : d.core = none)
    (hswap : o.work ≠ .mxswap) {loc : Nat} {bs : List Byte} (hwrites : d.writes = [(loc, bs)]) (hdirty : s.dirty = [])
    (hbank : s.bank = []) (h : Unguarded s) : WrittenAt s (applyUnit s o d) [(loc, bs.length)] bs := by
  obtain ⟨ps, cs, l1, l2, an, cnt, hread⟩ := unitRead_eq s o d
  obtain ⟨hmem, hkept⟩ := performWrites_single (s := noted { s with points := ps, cores := cs } l1 l2 an cnt) hdirty h o loc bs
  rw [← hread, ← hwrites] at hmem hkept
  have hread_mem : (unitRead s o d).mem = s.mem := by rw [hread]; rfl
  rw [hread_mem] at hmem
  refine writtenAt_writeCells ?_
  rw [applyUnit_eq hord hcore hswap]
  split
  · rw [fillGranules_mem]
    · exact hmem
    · exact hkept.trans (by rw [hread]; exact hbank)
  · exact hmem

theorem carryOut_ok (s : State) (o : EngOp) (d : UnitDone) :
    carryOut s [(o, .ok d)] = applyUnit { s with fresh := s.fresh + 1 } o d := rfl

theorem carryOut_error (s : State) (o : EngOp) (x : UnitStop) : carryOut s [(o, .error x)] = stopOp s o x := rfl

/-- An operation that may run, and whose array is powered, carries out what its next unit comes to. -/
theorem engineWriteLanded_runs {s : State} {id : Nat} {o : EngOp} (h : opAt s id = some o) (hrun : canRun s o = true)
    (harray : waitsArray s o = false) : exec (.engineWriteLanded id) s = .next (carryOut s (unitPlan s o)) := by
  show Host.Outcome.next _ = _
  simp only [h, runUnit, hrun, harray, Bool.not_true, Bool.false_eq_true, if_false]

/-- A unit of an operation lands. -/
theorem engineWriteLanded_lands {s : State} {id : Nat} {o : EngOp} {d : UnitDone} (h : opAt s id = some o)
    (hrun : canRun s o = true) (harray : waitsArray s o = false) (hord : engOrdered s o = false)
    (hplan : unitPlan s o = [(o, .ok d)]) (hcore : d.core = none) (hswap : o.work ≠ .mxswap) :
    ∃ t o', exec (.engineWriteLanded id) s = .next t ∧ opAt t id = some o' ∧ o'.unit = o.unit + 1 ∧ o'.work = o.work ∧
      (o'.state = .finished ↔ unitCount o ≤ o.unit + 1) ∧
      (∀ loc bs, d.writes = [(loc, bs)] → s.dirty = [] → s.bank = [] → Unguarded s → WrittenAt s t [(loc, bs.length)] bs) := by
  obtain rfl := opAt_id h
  have hexec : exec (.engineWriteLanded o.id) s = .next (applyUnit { s with fresh := s.fresh + 1 } o d) := by
    rw [engineWriteLanded_runs h hrun harray, hplan, carryOut_ok]
  refine ⟨_, _, hexec, opAt_applyUnit (s := { s with fresh := s.fresh + 1 }) h hord hcore hswap, rfl, rfl, ?_,
    fun loc bs hwrites hdirty hbank hfree =>
      applyUnit_written (s := { s with fresh := s.fresh + 1 }) hord hcore hswap hwrites hdirty hbank hfree⟩
  simp only [advanced]
  split
  · next hlast => simp [hlast]
  · next hmore => simp [hmore]

/-! ### The unit of a copy (R280) -/

theorem unitPlan_cpy {s : State} {o : EngOp} {run src dst path : Nat} {dims : List (Nat × Int × Int)}
    (h : o.work = .cpy run src dst path dims) : unitPlan s o = [(o, copyUnit s o
      (BitVec.ofInt 64 (src + (runOffsets dims o.unit).1)) (BitVec.ofInt 64 (dst + (runOffsets dims o.unit).2)) run)] := by
  simp only [unitPlan, unitAlone, h]
  rfl

/-- A contiguous copy writes the bytes that it has read. -/
theorem copyUnit_ok {s : State} {o : EngOp} {src dst : Word} {n : Nat} {d : UnitDone} (h : copyUnit s o src dst n = .ok d) :
    ∃ bs ps, engRead s o src n = .ok (bs, ps) ∧ d.reads = ps ∧ engWrite s o dst bs = .ok d.writes := by
  unfold copyUnit at h
  cases hread : engRead s o src n with
  | error x => rw [hread] at h; cases h
  | ok r =>
    obtain ⟨bs, ps⟩ := r
    simp only [hread, bind, Except.bind] at h
    cases hwrite : engWrite s o dst bs with
    | error x => rw [hwrite] at h; cases h
    | ok ws =>
      rw [hwrite] at h
      cases h
      exact ⟨bs, ps, rfl, rfl, hwrite⟩

/-! ### A pause (R434) -/

/-- The operation paused at a fault. -/
def pausedAt (o : EngOp) (c : Byte) (va : Word) (wr : Bool) : EngOp := { o.onArray with state := .paused c va wr false }

/-- The operation's progress written to its descriptor changes only what the operation records of that. -/
theorem opAt_writeProgress {s : State} {o : EngOp} (h : opAt s o.id = some o) (v : Nat) :
    ∃ b ps, opAt (writeProgress s o v) o.id = some { o with wroteProgress := b, pending := ps } := by
  have hput : ∀ b ps, opAt (putOp s { o with wroteProgress := b, pending := ps }) o.id =
      some { o with wroteProgress := b, pending := ps } :=
    fun b ps => opAt_putOp (o := { o with wroteProgress := b, pending := ps }) h
  unfold writeProgress
  split
  · exact ⟨o.wroteProgress, o.pending, h⟩
  · split
    · exact ⟨o.wroteProgress, o.pending, h⟩
    · simp only
      split
      · exact ⟨true, _, opAt_putOp (o := { o with wroteProgress := true, pending := _ }) (hput true o.pending)⟩
      · exact ⟨true, o.pending, (opAt_congr (performWrites_engines ..) o.id).trans (hput true o.pending)⟩

theorem stopOp_fault {s : State} {o : EngOp} {c : Byte} (hcommand : o.command = none) (hcancel : opCancelled s o = false)
    (hc : c ≠ 0x50) (va : Word) (wr : Bool) : stopOp s o (.fault c va wr) =
      writeProgress (putOp s (pausedAt o c va wr)) (pausedAt o c va wr) (progressWord (pausedAt o c va wr)) := by
  simp only [stopOp, hcommand, hcancel, hc, Bool.false_eq_true, if_false]
  rfl

theorem stopOp_poison {s : State} {o : EngOp} (hcommand : o.command = none) (hcancel : opCancelled s o = false) (va : Word)
    (wr : Bool) : stopOp s o (.fault 0x50 va wr) = putOp s { o with state := .poisoned wr } := by
  simp only [stopOp, hcommand, hcancel, Bool.false_eq_true, if_false, if_true]

/-- An operation that may run and whose next unit cannot be performed meets it by either event. -/
theorem unit_error_met {s : State} {id : Nat} {o : EngOp} {x : UnitStop} (h : opAt s id = some o) (hrun : canRun s o = true)
    (harray : waitsArray s o = false) (hplan : unitPlan s o = [(o, .error x)]) :
    exec (.enginePause id) s = .next (stopOp s o x) ∧ exec (.engineWriteLanded id) s = .next (stopOp s o x) := by
  have hland := engineWriteLanded_runs h hrun harray
  rw [hplan, carryOut_error] at hland
  refine ⟨?_, hland⟩
  show Host.Outcome.next _ = _
  simp only [h, hplan, hrun, harray]
  rfl

/-- A fault other than poison pauses the operation. -/
theorem unit_fault_pauses {s : State} {id : Nat} {o : EngOp} {c : Byte} {va : Word} {wr : Bool} (h : opAt s id = some o)
    (hrun : canRun s o = true) (harray : waitsArray s o = false) (hcommand : o.command = none) (hcancel : opCancelled s o = false)
    (hplan : unitPlan s o = [(o, .error (.fault c va wr))]) (hc : c ≠ 0x50) :
    ∃ t o', exec (.enginePause id) s = .next t ∧ exec (.engineWriteLanded id) s = .next t ∧ opAt t id = some o' ∧
      o'.state = .paused c va wr false ∧ o'.unit = o.unit ∧ o'.work = o.work ∧ (progressOff o = none → t.mem = s.mem) := by
  obtain rfl := opAt_id h
  obtain ⟨hpause, hland⟩ := unit_error_met h hrun harray hplan
  rw [stopOp_fault hcommand hcancel hc] at hpause hland
  have hput : opAt (putOp s (pausedAt o c va wr)) o.id = some (pausedAt o c va wr) :=
    opAt_putOp (o := pausedAt o c va wr) h
  obtain ⟨b, ps, hat⟩ := opAt_writeProgress (o := pausedAt o c va wr) hput (progressWord (pausedAt o c va wr))
  refine ⟨_, _, hpause, hland, hat, rfl, rfl, rfl, fun hnone => ?_⟩
  have hnone' : progressOff (pausedAt o c va wr) = none := hnone
  rw [writeProgress, hnone']
  rfl

theorem unit_poison_abandons {s : State} {id : Nat} {o : EngOp} {va : Word} {wr : Bool} (h : opAt s id = some o)
    (hrun : canRun s o = true) (harray : waitsArray s o = false) (hcommand : o.command = none) (hcancel : opCancelled s o = false)
    (hplan : unitPlan s o = [(o, .error (.fault 0x50 va wr))]) :
    exec (.enginePause id) s = .next (putOp s { o with state := .poisoned wr }) ∧
      exec (.engineWriteLanded id) s = .next (putOp s { o with state := .poisoned wr }) := by
  rw [← stopOp_poison hcommand hcancel va wr]
  exact unit_error_met h hrun harray hplan

/-! ### Bytes and notices that reach a bank (R99, R257) -/

theorem engineByteCount_held {s : State} {id : Nat} {o : EngOp} {obj : Nat} (h : opAt s id = some o) (hbar : o.bar = some obj)
    (hheld : countHeld s o obj = true) : exec (.engineByteCount id) s = .next s := by
  show Host.Outcome.next _ = _
  simp [h, hbar, hheld]

/-- The bytes that an operation has not counted go to its object's bank. -/
theorem engineByteCount_reaches {s : State} {id : Nat} {o : EngOp} {obj : Nat} (h : opAt s id = some o) (hbar : o.bar = some obj)
    (hbytes : o.uncounted ≠ 0) (hord : engOrdered s o = false) (hheld : countHeld s o obj = false)
    (hblock : blockOfLoc s obj ≠ none) : exec (.engineByteCount id) s =
      .next (atBank.reach (putOp s { o with uncounted := 0 }) (.bytes obj o.uncounted o.part o.place)) := by
  rw [← atBank_bytes (s := putOp s { o with uncounted := 0 }) hblock]
  show Host.Outcome.next _ = _
  simp [h, hbar, hbytes, hord, hheld]

theorem opAt_counted {s : State} {o : EngOp} (h : opAt s o.id = some o) :
    opAt (putOp s { o with uncounted := 0 }) o.id = some { o with uncounted := 0 } :=
  opAt_putOp (o := { o with uncounted := 0 }) h

/-- Bytes that leave the phase of a ready object open are counted into it. -/
theorem engineByteCount_counts {s : State} {id : Nat} {o : EngOp} {obj : Nat} (h : opAt s id = some o) (hbar : o.bar = some obj)
    (hbytes : o.uncounted ≠ 0) (hord : engOrdered s o = false) (hheld : countHeld s o obj = false)
    (hready : objReady s obj = true) (hblock : blockOfLoc s obj ≠ none) (hbank : s.bank = [])
    (hopen : StaysOpen (withBytes (readObj s obj) o.uncounted)) (hfit : (readObj s obj).landed + o.uncounted < 2 ^ 64) :
    ∃ t, exec (.engineByteCount id) s = .next t ∧ opAt t id = some { o with uncounted := 0 } ∧
      readObj t obj = withBytes (readObj s obj) o.uncounted := by
  obtain rfl := opAt_id h
  obtain ⟨hland, hread⟩ := landBytes_open (s := putOp s { o with uncounted := 0 }) hfit hopen
  have htry : bankTry (putOp s { o with uncounted := 0 }) (.bytes obj o.uncounted o.part o.place) =
      some (landBytes (putOp s { o with uncounted := 0 }) obj o.uncounted) := if_pos hready
  have hempty : (landBytes (putOp s { o with uncounted := 0 }) obj o.uncounted).bank = [] := by
    rw [hland, writeObj, rawWrite_bank]
    exact hbank
  refine ⟨_, engineByteCount_reaches h hbar hbytes hord hheld hblock, ?_, ?_⟩
  · rw [reach_performed htry, settleBank_empty hempty, opAt_congr (bankTry_engines htry), opAt_counted h]
  · rw [reach_performed htry, settleBank_empty hempty, hread]
    rfl

/-- Bytes for an object that is not ready wait at its bank. -/
theorem engineByteCount_waits {s : State} {id : Nat} {o : EngOp} {obj : Nat} (h : opAt s id = some o) (hbar : o.bar = some obj)
    (hbytes : o.uncounted ≠ 0) (hord : engOrdered s o = false) (hheld : countHeld s o obj = false)
    (hready : objReady s obj = false) (hblock : blockOfLoc s obj ≠ none) :
    ∃ t, exec (.engineByteCount id) s = .next t ∧ opAt t id = some { o with uncounted := 0 } ∧
      t.bank = s.bank ++ [.bytes obj o.uncounted o.part o.place] ∧ t.mem = s.mem := by
  obtain rfl := opAt_id h
  have htry : bankTry (putOp s { o with uncounted := 0 }) (.bytes obj o.uncounted o.part o.place) = none :=
    if_neg (by rw [show objReady (putOp s { o with uncounted := 0 }) obj = false from hready]; decide)
  refine ⟨_, engineByteCount_reaches h hbar hbytes hord hheld hblock, ?_, ?_, ?_⟩
  all_goals rw [reach_waits htry]
  · exact opAt_counted h
  · rfl
  · rfl

theorem crossNotice_held {s : State} {obj : Nat} (h : noticeNext s obj = false) : exec (.crossNotice obj) s = .next s := by
  show Host.Outcome.next _ = _
  simp [h]

theorem crossNotice_reaches {s : State} {obj : Nat} (h : noticeNext s obj = true) :
    exec (.crossNotice obj) s = .next (atBank.reach { s with notices := s.notices.erase obj } (.notice obj)) := by
  show Host.Outcome.next _ = _
  simp only [h, if_true]
  rfl

theorem crossNotice_waits {s : State} {obj : Nat} (h : noticeNext s obj = true) (hready : objReady s obj = false) :
    exec (.crossNotice obj) s = .next { s with notices := s.notices.erase obj, bank := s.bank ++ [.notice obj] } := by
  have htry : bankTry { s with notices := s.notices.erase obj } (.notice obj) = none :=
    if_neg (by rw [show objReady { s with notices := s.notices.erase obj } obj = false from hready]; decide)
  rw [crossNotice_reaches h, reach_waits htry]

theorem crossNotice_noted {s : State} {obj : Nat} (h : noticeNext s obj = true) (hready : objReady s obj = true)
    (hbank : s.bank = []) (hopen : StaysOpen (readObj s obj)) :
    ∃ t, exec (.crossNotice obj) s = .next t ∧ t.notices = s.notices.erase obj ∧ readObj t obj = readObj s obj ∧
      crossOf t obj = { crossOf s obj with noticed := (crossOf s obj).noticed + 1 } := by
  have htry : bankTry { s with notices := s.notices.erase obj } (.notice obj) =
      some (takeNotice { s with notices := s.notices.erase obj } obj) := if_pos hready
  have htake := takeNotice_open (s := { s with notices := s.notices.erase obj }) hopen
  have hexec := crossNotice_reaches h
  rw [reach_performed htry, htake, settleBank_empty (by exact hbank)] at hexec
  have hcross := crossOf_putCross { s with notices := s.notices.erase obj }
    { crossOf s obj with noticed := (crossOf s obj).noticed + 1 }
  refine ⟨_, hexec, rfl, readObj_congr rfl obj, ?_⟩
  rwa [crossOf_obj] at hcross

/-! ### Retirement (R98) -/

theorem cntOf_lt (t : Team) (c : EClass) : cntOf t c < 64 := by
  cases c <;> exact BitVec.isLt _

theorem cntOf_setCnt (t : Team) (c c' : EClass) (v : Nat) : cntOf (setCnt t c v) c' = if c' = c then v % 64 else cntOf t c' := by
  cases c <;> cases c' <;> simp [cntOf, setCnt]

/-- A team once an operation has left its count: the operation's own team alone is changed. -/
def uncount (o : EngOp) (t : Team) : Team :=
  if t.place = o.place && t.launch = o.launch && t.part = o.part then setCnt t o.cls (cntOf t o.cls - 1) else t

theorem uncount_place (o : EngOp) (t : Team) : (uncount o t).place = t.place := by
  unfold uncount
  split
  · exact setCnt_place ..
  · rfl

theorem uncount_status (o : EngOp) (t : Team) : (uncount o t).status = t.status := by
  unfold uncount
  split
  · exact setCnt_status ..
  · rfl

theorem uncount_own {o : EngOp} {t : Team} (hplace : t.place = o.place) (hlaunch : t.launch = o.launch) (hpart : t.part = o.part) :
    uncount o t = setCnt t o.cls (cntOf t o.cls - 1) := if_pos (by simp [hplace, hlaunch, hpart])

theorem retireOp_counted {o : EngOp} (h : o.counted = true) (s : State) : retireOp s o =
    mapSaved (mapTeam { s with engines := s.engines.filter fun e => e.id != o.id } o.place (uncount o)) (uncount o) := if_pos h

theorem mapTeam_levels (s : State) (p : Place) (f : Team → Team) : (mapTeam s p f).levels = s.levels := by
  unfold mapTeam
  split <;> rfl

theorem teamAt_place {s : State} {p : Place} {u : Team} (h : teamAt s p = some u) : u.place = p :=
  (mem_everyTeam_of_teamAt h).2

/-- An operation of a launch that is not being cancelled leaves no more to do as it retires. -/
theorem afterDrain_running {s : State} {o : EngOp}
    (h : ∀ l, levelOfLaunch s o.part o.launch = some l → l.cancelPending = false) : afterDrain s o = s := by
  unfold afterDrain
  split
  · next l hl => rw [if_neg (by rw [h l hl]; exact Bool.false_ne_true)]
  · rfl

theorem engineRetire_retires {s : State} {id : Nat} {o : EngOp} {u : Team} (h : opAt s id = some o) (hstate : o.state = .finished)
    (hbytes : o.uncounted = 0) (hord : engOrdered s o = false) (hold : oldestOp s o = true) (hcounted : o.counted = true)
    (hcommand : o.command = none) (hprogress : o.wroteProgress = false)
    (hlive : ∀ l, levelOfLaunch s o.part o.launch = some l → l.cancelPending = false) (hu : teamAt s o.place = some u)
    (hlaunch : u.launch = o.launch) (hpart : u.part = o.part) :
    ∃ t w, exec (.engineRetire id) s = .next t ∧ t.engines = s.engines.filter (fun e => e.id != o.id) ∧
      teamAt t o.place = some w ∧ (∀ c, cntOf w c = if c = o.cls then cntOf u c - 1 else cntOf u c) ∧
      w.sregs = u.sregs ∧ w.pc = u.pc ∧ t.mem = s.mem := by
  have hmay : mayRetire s o = true := by simp [mayRetire, hstate, hbytes, hord, hold]
  have hlevels : levelOfLaunch (retireOp s o) o.part o.launch = levelOfLaunch s o.part o.launch := by
    rw [levelOfLaunch, retireOp_counted hcounted, mapSaved_levels, mapTeam_levels]
    rfl
  have hdrain : afterDrain (retireOp s o) o = retireOp s o := afterDrain_running (by rwa [hlevels])
  have hexec : exec (.engineRetire id) s = .next (retireOp s o) := by
    show Host.Outcome.next _ = _
    simp only [h, hmay, if_true, retireNow, hprogress, hcommand, hdrain, Bool.false_eq_true, if_false]
  have hteam : teamAt (retireOp s o) o.place = some (setCnt u o.cls (cntOf u o.cls - 1)) := by
    rw [← uncount_own (teamAt_place hu) hlaunch hpart, retireOp_counted hcounted]
    refine (teamAt_mapTeam { s with engines := s.engines.filter fun e => e.id != o.id } o.place (uncount_place o)
      (uncount_status o)).trans ?_
    exact congrArg (Option.map (uncount o)) hu
  refine ⟨_, _, hexec, ?_, hteam, fun c => ?_, setCnt_sregs .., setCnt_pc .., ?_⟩
  · rw [retireOp_counted hcounted, mapSaved_engines, mapTeam_engines]
  · rw [cntOf_setCnt]
    split
    · next hc => rw [hc, Nat.mod_eq_of_lt (Nat.lt_of_le_of_lt (Nat.sub_le ..) (cntOf_lt u o.cls))]
    · rfl
  · rw [retireOp_counted hcounted, mapSaved_mem, mapTeam_mem]

theorem engineRetire_waits {s : State} {id : Nat} {o : EngOp} (h : opAt s id = some o)
    (hnot : o.state ≠ .finished ∨ o.uncounted ≠ 0 ∨ oldestOp s o = false) : exec (.engineRetire id) s = .next s := by
  have hmay : mayRetire s o = false := by
    obtain hstate | hbytes | hold := hnot
    · simp [mayRetire, hstate]
    · simp [mayRetire, hbytes]
    · simp [mayRetire, hold]
  show Host.Outcome.next _ = _
  simp [h, hmay]

/-! ### The statement -/

/-- Settles O44: a unit lands or stops its operation, bytes and notices reach their bank, and the oldest operation retires. -/
theorem enginesRunPauseAndRetire : Obligations.EnginesRunPauseAndRetire := by
  unfold Obligations.EnginesRunPauseAndRetire
  exact ⟨fun _ _ _ _ => engineWriteLanded_lands, fun _ _ _ _ _ _ _ h => ⟨unitPlan_cpy h, fun _ => copyUnit_ok⟩,
    fun _ _ _ _ _ _ => unit_fault_pauses, fun _ _ _ _ _ => unit_poison_abandons, fun _ _ _ _ => engineByteCount_held,
    fun _ _ _ _ h hbar hbytes hord hheld => ⟨fun hready hblock hbank hopen hfit =>
        engineByteCount_counts h hbar hbytes hord hheld hready hblock hbank hopen hfit,
      engineByteCount_waits h hbar hbytes hord hheld⟩,
    fun _ _ _ _ => engineRetire_retires, fun _ _ _ => engineRetire_waits, fun _ _ => crossNotice_held,
    fun _ _ h => ⟨crossNotice_waits h, crossNotice_noted h⟩⟩

end Sys2Proof.ConsistencyModel
end

section
/-! PROOFS. The integer matrix sums (O27): what R138 adds to an accumulator is a sum of products, wrapped once. -/

namespace Sys2Proof.NumberFormats

open Sys2Proof.Machine Sys2Proof.RegisterState

/-- The products of two lists of INT8 patterns, as the statement pairs them. -/
def int8Products (ps : List (Nat × Nat)) : List Int := ps.map fun p => sgn 8 p.1 * sgn 8 p.2

theorem matInt_eq_wrapped_sum (acc : Nat) (xs ys : List Nat) :
    matInt acc xs ys = ((sgn 32 acc + (int8Products (xs.zip ys)).sum) % 2 ^ 32).toNat := by
  have hproducts : List.zipWith (fun a b => toSigned 8 a * toSigned 8 b) xs ys = int8Products (xs.zip ys) := by
    simp only [int8Products, List.map_zip_eq_zipWith, toSigned_eq_sgn (show 0 < 8 by decide)]
    rfl
  simp only [matInt, wrapInt, hproducts, ← List.sum_eq_foldl, toSigned_eq_sgn (show 0 < 32 by decide), natCast_two_pow]

/-- Settles O27: the output is the wrapped sum of the products, and a sum does not depend on the order of its terms. -/
theorem integerMatrixSumsWrap : Obligations.IntegerMatrixSumsWrap := by
  unfold Obligations.IntegerMatrixSumsWrap
  refine ⟨fun acc xs ys _ => matInt_eq_wrapped_sum acc xs ys, fun acc ps qs h => ?_⟩
  have hsum : (int8Products ps).sum = (int8Products qs).sum :=
    (h.map _).foldr_eq' (fun x _ y _ z => Int.add_left_comm y x z) 0
  simp only [matInt_eq_wrapped_sum, List.zip_map', Prod.eta, List.map_id', hsum]

end Sys2Proof.NumberFormats
end

section
/-! PROOFS. Work handed to the matrix sequencer (O26, R266-R275): the checks and the reads of a matrix instruction at issue, and
what the operation that joins the engines leaves as it was. -/

namespace Sys2Proof.NumberFormats

open Sys2Proof.Machine Sys2Proof.RegisterState Sys2Proof.ConsistencyModel

/-! ### Reads at issue -/

theorem noteRead_eq (s : State) (w : Who) (loc : Nat) : ∃ a b c d, noteRead s w loc = noted s a b c d := by
  have hfilled : ∃ a b c d, (if l1Has s (placeKey w.place) (loc / 128) then s else readL2 s w.place.die.toNat w.asid loc) =
      noted s a b c d := by
    split
    · exact ⟨s.l1, s.l2, s.annex, s.annexCnt, rfl⟩
    · exact readL2_eq ..
  obtain ⟨a, b, c, d, h⟩ := hfilled
  unfold noteRead
  split
  · exact ⟨s.l1, s.l2, s.annex, s.annexCnt, rfl⟩
  · simp only [h]
    exact ⟨_, b, c, d, rfl⟩

theorem loadNoted_eq (s : State) (loc : Nat) : ∃ a b c d, loadNoted s loc = noted s a b c d := by
  unfold loadNoted loadNoted.homeRead dirRead
  split
  · repeat' split
    all_goals exact ⟨_, _, _, _, rfl⟩
  · exact noteRead_eq ..

theorem notedRead_refl (s : State) : NotedRead s s := rfl

theorem notedRead_loadNoted (s : State) (loc : Nat) : NotedRead s (loadNoted s loc) := by
  obtain ⟨a, b, c, d, h⟩ := loadNoted_eq s loc
  rw [h]
  rfl

theorem notedRead_trans {s t u : State} (h : NotedRead s t) (h' : NotedRead t u) : NotedRead s u := by
  rw [show u = _ from h', show t = _ from h]
  rfl

section
variable {s t : State} (h : NotedRead s t)
include h

theorem notedRead_team : t.team = s.team := by rw [show t = _ from h]
theorem notedRead_service : t.service = s.service := by rw [show t = _ from h]
theorem notedRead_engines : t.engines = s.engines := by rw [show t = _ from h]
theorem notedRead_memByte (a : Nat) : memByte t a = memByte s a := by rw [show t = _ from h]; rfl

end

/-- Reads are noted at the caches and the annexes, and nowhere else (R80, R362). -/
theorem notedRead_notePieces (s : State) (ps : List (Nat × Nat)) : NotedRead s (notePieces s ps) :=
  foldl_keeps (NotedRead s) (fun t l ht => notedRead_trans ht (notedRead_loadNoted t (l * 128))) (linesOfAll ps)
    (notedRead_refl s)

theorem settle_idle {s : State} (h : s.service = []) (locs : List (Nat × Nat)) : settle s locs = s := by simp [settle, h]

/-- Bytes that a matrix instruction may read are read, and the reads are noted. -/
theorem issueBytes_read {s : State} {va : Word} {n : Nat} {bs : List Byte} (hs : s.service = []) (h : BytesAt s va n bs)
    (k : State → List Byte → Eff) : ∃ u, NotedRead s u ∧ issueBytes s va n k = k u bs := by
  obtain ⟨ps, hspan, hpoison, rfl⟩ := h
  exact ⟨notePieces s ps, notedRead_notePieces s ps, by simp [issueBytes, hspan, settle_idle hs, hpoison]⟩

theorem withChecks_allowed {s : State} {xs : List (Word × Nat × Nat × Access)} (h : MxAllowed s xs) (k : State → Eff) :
    withChecks s xs k = k s := by
  obtain ⟨ps, hchecks⟩ := h
  simp only [withChecks, hchecks]

theorem mxRoom_free {s : State} (h : cntOf s.team .mxa < 63) (k : Eff) : mxRoom s k = k := if_neg (Nat.not_le.mpr h)

theorem firstPlane_eq_planeAt (ks : BitVec 16) (keep : Bool) (base : Word) : firstPlane ks keep base = planeAt ks keep base := by
  simp [firstPlane, planeAt, planeBytes]

/-! ### An operation joins the engines -/

/-- A team whose count of an operation's class takes it in, where it is counted. -/
def countIn (o : EngOp) (t : Team) : Team := if o.counted then setCnt t o.cls (cntOf t o.cls + 1) else t

theorem setCnt_eq (t : Team) (c : EClass) (v : Nat) :
    ∃ a b d e, setCnt t c v = { t with cntCpy := a, cntMxa := b, cntGth := d, cntCol := e } := by
  cases c <;> exact ⟨_, _, _, _, rfl⟩

theorem countIn_eq (o : EngOp) (t : Team) :
    ∃ a b d e, countIn o t = { t with cntCpy := a, cntMxa := b, cntGth := d, cntCol := e } := by
  unfold countIn
  split
  · exact setCnt_eq ..
  · exact ⟨t.cntCpy, t.cntMxa, t.cntGth, t.cntCol, rfl⟩

theorem sameRegisters_countIn (o : EngOp) (t : Team) : SameRegisters (countIn o t) t := by
  obtain ⟨a, b, d, e, h⟩ := countIn_eq o t
  rw [h]
  exact ⟨rfl, rfl, rfl, rfl, rfl⟩

theorem cntOf_countIn {o : EngOp} {t : Team} (h : o.counted = true → cntOf t o.cls < 63) (c : EClass) :
    cntOf (countIn o t) c = if o.counted ∧ c = o.cls then cntOf t c + 1 else cntOf t c := by
  unfold countIn
  by_cases hcounted : o.counted = true
  · have hfits : (cntOf t o.cls + 1) % 64 = cntOf t o.cls + 1 := Nat.mod_eq_of_lt (by have := h hcounted; omega)
    rw [if_pos hcounted, cntOf_setCnt, hfits]
    by_cases hc : c = o.cls
    · rw [if_pos hc, if_pos ⟨hcounted, hc⟩, hc]
    · rw [if_neg hc, if_neg fun hand => hc hand.2]
  · rw [if_neg hcounted, if_neg fun hand => hcounted hand.1]

theorem askLeave_eq (s : State) (die : Nat) (r : LeaveReq) : ∃ ds, askLeave s die r = { s with dies := ds } := by
  unfold askLeave
  simp only
  split
  · exact ⟨s.dies, rfl⟩
  · exact ⟨_, rfl⟩

/-- The state once an operation stands behind the others: ds are the dies, which it may ask leave of, and ob what its team has
noted for the quantum end. -/
def joined (s : State) (o : EngOp) (ds : List (Nat × DieState)) (ob : List OrdReq) : State :=
  { bumpSerial s with engines := s.engines ++ [o], dies := ds, team := { countIn o s.team with obuf := ob } }

theorem addOp_eq (s : State) (o : EngOp) : ∃ ds ob, addOp s o = joined s o ds ob := by
  have hnoted : ∃ ob, (if !o.started && !(o.state == .badDesc)
      then { countIn o s.team with obuf := (countIn o s.team).obuf ++ [.eng o.id] } else countIn o s.team) =
      { countIn o s.team with obuf := ob } := by
    split
    · exact ⟨_, rfl⟩
    · exact ⟨(countIn o s.team).obuf, rfl⟩
  obtain ⟨ob, hob⟩ := hnoted
  have hasked : ∃ ds, (if o.state == .leave then askLeave (joined s o s.dies ob) o.place.die.toNat (.op o.id)
      else joined s o s.dies ob) = joined s o ds ob := by
    split
    · exact askLeave_eq ..
    · exact ⟨s.dies, rfl⟩
  obtain ⟨ds, hds⟩ := hasked
  refine ⟨ds, ob, ?_⟩
  rw [← hds, joined, ← hob]
  rfl

theorem cntOf_joined (s : State) (o : EngOp) (ds : List (Nat × DieState)) (ob : List OrdReq) (tgt : Word) (c : EClass) :
    cntOf (goesOn (joined s o ds ob) tgt).team c = cntOf (countIn o s.team) c := by
  cases c <;> rfl

theorem newOp_fields (s : State) (cls : EClass) (counted : Bool) (desc : Word) (bar : Option Nat) (work : Option EngWork) :
    ∃ st, newOp s cls counted desc bar work =
      { id := s.serial, cls := cls, counted := counted, work := work.getD noWork, place := s.team.place,
        launch := s.team.launch, blk := s.team.blk, part := s.team.part, asid := s.team.asid, mode := modeSeen s.team,
        desc := desc, bar := bar, started := !ordered s.team, state := st } := by
  cases work with
  | none => exact ⟨.badDesc, rfl⟩
  | some w => exact ⟨_, rfl⟩

theorem runState_cases (o : EngOp) : runState o = .finished ∨ runState o = .running := by
  unfold runState
  split
  · exact .inl rfl
  · exact .inr rfl

theorem newOp_some_state (s : State) (cls : EClass) (counted : Bool) (desc : Word) (bar : Option Nat) (w : EngWork) :
    (newOp s cls counted desc bar (some w)).state = .running ∨ (newOp s cls counted desc bar (some w)).state = .leave ∨
      (newOp s cls counted desc bar (some w)).state = .finished := by
  simp only [newOp]
  split
  · exact .inl rfl
  · split
    · exact .inr (.inl rfl)
    · exact (runState_cases _).elim (fun h => .inr (.inr h)) .inl

/-- An instruction that goes and whose effect is to add an operation, after reads that are noted, hands it to the engines. -/
theorem hands_of_addOp {i : Instr} {s s1 u : State} {cls : EClass} {counted : Bool} {desc : Word} {bar : Option Nat}
    {work : Option EngWork} {body : State → Eff} (h : Goes i s s1) (hexec : exec i s = issue i s body) (hu : NotedRead s1 u)
    (hroom : counted = true → cntOf s1.team cls < 63)
    (he : body s1 = .retire (addOp u (newOp u cls counted desc bar work))) : Hands i s s1 cls counted desc bar work := by
  have hteam := notedRead_team hu
  have hmem := notedRead_memByte hu
  obtain ⟨st, hop⟩ := newOp_fields u cls counted desc bar work
  obtain ⟨ds, ob, hadd⟩ := addOp_eq u (newOp u cls counted desc bar work)
  obtain ⟨a, b, d, e, hcount⟩ := countIn_eq (newOp u cls counted desc bar work) u.team
  rw [hadd] at he
  have hgo := issue_retire h.toIssues he (by rw [joined, hcount, hteam]; exact h.cleanS)
    (by rw [joined, hcount, hteam]; exact h.cleanV) (by rw [joined, hcount, hteam]; exact h.inner)
  refine ⟨_, newOp u cls counted desc bar work, hexec.trans hgo, congrArg (· ++ [_]) (notedRead_engines hu), ?cls, ?counted,
    ?desc, ?bar, ?place, ?launch, ?unit, ?mode, ?work, ?bad, fun c => ?cnt, ?same, rfl, hmem⟩
  case work =>
    rintro w rfl
    exact ⟨rfl, newOp_some_state ..⟩
  case bad =>
    rintro rfl
    rfl
  case cnt =>
    have hcnt := cntOf_countIn (o := newOp u cls counted desc bar work) (t := u.team) (by rw [hop, hteam]; exact hroom) c
    rw [cntOf_joined, hcnt, hop, hteam]
  case same =>
    rw [← hteam]
    exact sameRegisters_countIn ..
  all_goals simp only [hop, hteam]

/-! ### The matrix instructions -/

theorem issueMx_idle {s : State} (h : s.service = []) (desc : Word) (work : Option EngWork) :
    issueMx s desc work = .retire (addOp s (newOp s .mxa true desc none work)) := by
  rw [issueMx, release, drain_idle h]

/-- A matrix instruction that is counted: with room for it, its effect is to hand its work on after reads that are noted. -/
theorem hands_mxa {i : Instr} {s s1 u : State} {desc : Word} {work : Option EngWork} {body : State → Eff} (h : Goes i s s1)
    (hexec : exec i s = issue i s fun s => mxRoom s (body s)) (hready : MxReady s1) (hu : NotedRead s1 u)
    (he : body s1 = issueMx u desc work) : Hands i s s1 .mxa true desc none work := by
  obtain ⟨hidle, hroom⟩ := hready
  refine hands_of_addOp h hexec hu (fun _ => hroom) ?_
  rw [mxRoom_free hroom, he, issueMx_idle ((notedRead_service hu).trans hidle)]

/-- A matrix instruction that reads a format block, and hands on what its work is for the block that it has read. -/
theorem hands_formatBlock {i : Instr} {s s1 : State} {fb : Word} {xs : List (Word × Nat × Nat × Access)} {bs : List Byte}
    {work : List Byte → Option EngWork} {body : State → Eff} (h : Goes i s s1)
    (hexec : exec i s = issue i s fun s => mxRoom s (body s)) (hready : MxReady s1)
    (hallowed : MxAllowed s1 ((fb, 64, 8, .rd) :: xs)) (hbytes : BytesAt s1 fb 64 bs)
    (he : body s1 = withChecks s1 ((fb, 64, 8, .rd) :: xs) fun s => issueBytes s fb 64 fun s bs => issueMx s fb (work bs)) :
    Hands i s s1 .mxa true fb none (work bs) := by
  obtain ⟨u, hu, hread⟩ := issueBytes_read hready.1 hbytes fun s bs => issueMx s fb (work bs)
  exact hands_mxa h hexec hready hu (by rw [he, withChecks_allowed hallowed, hread])

/-- The work of an MXLOOP.G: its groups, or none where the format block or the group table breaks a constraint (R274). -/
def groupWork (o : MxgOps) (bs tb : List Byte) : Option EngWork :=
  match parseFmtBlock bs, parseGroups tb o.g.toNat with
  | some _, some gs => some (.mxloop o.tile 1 0 o.z false gs bs)
  | _, _ => none

/-- What an MXLOOP.G does with its format block and its group table. -/
def handGroups (o : MxgOps) (fb : Word) (bs tb : List Byte) (s : State) : Eff :=
  match parseFmtBlock bs, parseGroups tb o.g.toNat with
  | some _, some gs => withChecks s (groupPlanes gs) fun s => issueMx s fb (some (.mxloop o.tile 1 0 o.z false gs bs))
  | _, _ => issueMx s fb none

theorem handGroups_allowed {o : MxgOps} {bs tb : List Byte} {s : State} (fb : Word)
    (h : parseFmtBlock bs ≠ none → ∀ gs, parseGroups tb o.g.toNat = some gs → MxAllowed s (groupPlanes gs)) :
    handGroups o fb bs tb s = issueMx s fb (groupWork o bs tb) := by
  unfold handGroups groupWork
  cases hblock : parseFmtBlock bs with
  | none => rfl
  | some f =>
    cases hgroups : parseGroups tb o.g.toNat with
    | none => rfl
    | some gs => exact withChecks_allowed (h (by simp [hblock]) gs hgroups) _

theorem mxloopG_hands (o : MxgOps) {s s1 : State} {bs tb : List Byte} (h : Goes (.mxloopG o) s s1) (hready : MxReady s1)
    (hallowed : MxAllowed s1 [(sget s1.team o.c.r, 64, 8, .rd), (sget s1.team o.a.r, 32 * o.g.toNat, 1, .rd)])
    (hbytes : BytesAt s1 (sget s1.team o.c.r) 64 bs)
    (htable : ∀ u, NotedRead s1 u → BytesAt u (sget s1.team o.a.r) (32 * o.g.toNat) tb ∧
      (parseFmtBlock bs ≠ none → ∀ gs, parseGroups tb o.g.toNat = some gs → MxAllowed u (groupPlanes gs))) :
    Hands (.mxloopG o) s s1 .mxa true (sget s1.team o.c.r) none (groupWork o bs tb) := by
  obtain ⟨u, hu, hread⟩ := issueBytes_read hready.1 hbytes fun s bs =>
    issueBytes s (sget s1.team o.a.r) (32 * o.g.toNat) fun s tb => handGroups o (sget s1.team o.c.r) bs tb s
  obtain ⟨v, hv, hreadTable⟩ := issueBytes_read ((notedRead_service hu).trans hready.1) (htable u hu).1 fun s tb =>
    handGroups o (sget s1.team o.c.r) bs tb s
  have hnoted := notedRead_trans hu hv
  refine hands_mxa h rfl hready hnoted ?_
  rw [← handGroups_allowed _ (htable v hnoted).2, ← hreadTable, ← hread]
  exact withChecks_allowed hallowed _

theorem mxacc_hands (o : MxaccOps) {s s1 : State} (h : Goes (.mxacc o) s s1) (hready : MxReady s1)
    (hrows : (sget s1.team o.c.r).toNat ≤ 256)
    (hallowed : MxAllowed s1 ((List.range (sget s1.team o.c.r).toNat).map fun (r : Nat) =>
      (addrPlus (sget s1.team o.a.r).toNat ((r : Int) * (sget s1.team o.b.r).toInt), 128 * (o.fmt.bits / 8), 1, .wr))) :
    Hands (.mxacc o) s s1 .mxa true (sget s1.team o.a.r) none (some (.mxacc o.tile (sget s1.team o.a.r).toNat
      (sget s1.team o.b.r).toInt (sget s1.team o.c.r).toNat o.fmt o.clr)) := by
  obtain ⟨hidle, hroom⟩ := hready
  refine hands_of_addOp h rfl (notedRead_refl s1) (fun _ => hroom) ?_
  rw [← issueMx_idle hidle]
  show (if 256 < (sget s1.team o.c.r).toNat then _ else mxRoom s1 _) = _
  rw [if_neg (Nat.not_lt.mpr hrows), mxRoom_free hroom]
  exact withChecks_allowed hallowed _

theorem matrixInstructionsHandWorkOn : MatrixInstructionsHandWorkOn := by
  unfold MatrixInstructionsHandWorkOn
  refine ⟨fun a c s s1 bs h hready hallowed hbytes => hands_formatBlock h rfl hready hallowed hbytes rfl,
    fun s s1 h => hands_of_addOp h rfl (notedRead_refl s1) nofun rfl, fun o s s1 bs h hready hallowed hbytes => ?loop,
    fun o s s1 bs h hready hallowed hbytes => ?follower, fun o _ _ _ _ => mxloopG_hands o, fun o _ _ => mxacc_hands o⟩
  all_goals
    rw [← firstPlane_eq_planeAt] at hallowed
    exact hands_formatBlock h rfl hready hallowed hbytes rfl

end Sys2Proof.NumberFormats
end

section
/-! PROOFS. The products of MMA (O26, R276-R278): which lane-words take part, what each output is, and that the array and the
lanes deliver the same. -/

namespace Sys2Proof.NumberFormats

open Sys2Proof.Machine Sys2Proof.RegisterState Sys2Proof.ConsistencyModel

/-! ### Lane-words and outputs -/

theorem startWord_le_iff (t : Team) (q : Nat) :
    startWord t ≤ q ↔ (!t.pix.getLsbD 63 || decide (t.pix.toNat % 2 ^ 32 ≤ q)) = true := by
  unfold startWord
  cases t.pix.getLsbD 63 <;> simp [fld, bitsNat]

/-- A lane-word of the team has an active lane when one of its 32 lanes is active. -/
theorem exists_active_iff {t : Team} {q : Nat} (hq : q < t.lanes / 32) (k : KReg) : (∃ l ∈ activeLanes t k, l / 32 = q) ↔
    ∃ p < 32, (t.em.getLsbD (32 * q + p) && (kget t k).getLsbD (32 * q + p)) = true := by
  simp only [activeLanes_eq_lanesOn, lanesOn, List.mem_filter, List.mem_range]
  constructor
  · rintro ⟨l, ⟨_, hon⟩, rfl⟩
    exact ⟨l % 32, Nat.mod_lt _ (by decide), by rwa [Nat.div_add_mod]⟩
  · rintro ⟨p, hp, hon⟩
    exact ⟨32 * q + p, ⟨by omega, hon⟩, by omega⟩

theorem mmaWords_eq_wordsOn (t : Team) (k : KReg) : mmaWords t k = wordsOn t k := by
  refine List.filter_congr fun q hq => ?_
  have hactive := exists_active_iff (List.mem_range.mp hq) k
  rw [Bool.eq_iff_iff, Bool.and_eq_true, Bool.and_eq_true, decide_eq_true_iff, startWord_le_iff, List.any_eq_true,
    List.any_eq_true]
  simpa only [beq_iff_eq, List.mem_range] using and_congr_right fun _ => hactive

theorem fragElem_eq_fragment (t : Team) (q : Nat) (r : VReg) (f : Fmt) (i k : Nat) :
    fragElem t q r f i k = fragment t q r f i k := by
  simp only [fragElem, fragment, elem_eq_sub, Nat.add_assoc]
  rfl

theorem mmaOut_eq_product (t : Team) (o : MmaOps) (q i n : Nat) : mmaOut t o (fmode t) q i n = product t o q i n := by
  simp only [mmaOut, product, fragElem_eq_fragment, elem_eq_sub, Nat.add_assoc]
  rfl

/-- Sub-element j of register d + r in lane p is the output of row p / 2 and column 8 (p mod 2) + 2r + j (R277). -/
theorem sub_mmaWord (t : Team) (o : MmaOps) (q p r : Nat) {j : Nat} (hj : j < 2) :
    sub 32 (mmaWord t o (fmode t) q p r) j = product t o q (p / 2) (8 * (p % 2) + 2 * r + j) % 2 ^ 32 := by
  simp only [mmaWord, mmaOut_eq_product, sub_packElems (show 32 * (j + 1) ≤ 64 by omega)]
  match j, hj with
  | 0, _ => rfl
  | 1, _ => rfl

/-! ### Four registers on their way -/

/-- Vector registers whose results are sent on their way one after another: each is empty, and each result waits to arrive. -/
theorem foldl_produce_vec (dest : Nat → VReg) (src : Nat → FillSrc) (rs : List Nat) (t : Team) :
    ∃ V, rs.foldl (fun t r => produce t (.vec (dest r)) (src r) false) t =
        { t with vEmpty := V, inflight := t.inflight ++ rs.map fun r => ⟨.vec (dest r), src r, false⟩ } ∧
      (∀ d : VReg, t.vEmpty.getLsbD d.toNat = true → V.getLsbD d.toNat = true) ∧
      ∀ r ∈ rs, V.getLsbD (dest r).toNat = true := by
  induction rs generalizing t with
  | nil => exact ⟨t.vEmpty, by simp, fun _ => id, nofun⟩
  | cons r rs ih =>
    obtain ⟨V, hfold, hkept, hempty⟩ := ih (produce t (.vec (dest r)) (src r) false)
    have hmark : ∀ d : VReg, (produce t (.vec (dest r)) (src r) false).vEmpty.getLsbD d.toNat =
        if d = dest r then true else t.vEmpty.getLsbD d.toNat := fun d => getLsbD_setBit128 t.vEmpty (dest r) d true
    refine ⟨V, ?_, fun d hd => hkept d (by rw [hmark, hd, ite_self]), fun r' hr' => ?_⟩
    · rw [List.foldl_cons, hfold, produce_vec]
      simp [markEmpty]
    · rcases List.mem_cons.mp hr' with rfl | hr'
      · exact hkept _ (by rw [hmark, if_pos rfl])
      · exact hempty r' hr'

/-- The lanes of the participating lane-words with their words of register d + r. -/
def laneResults (t : Team) (o : MmaOps) (r : Nat) : List (Nat × Word) :=
  (mmaWords t o.k).flatMap fun q => (List.range 32).map fun p => (32 * q + p, mmaWord t o (fmode t) q p r)

/-- A team with the four registers of its product on their way, or as it is where no lane-word takes part. -/
def delivered (o : MmaOps) (src : List (Nat × Word) → FillSrc) (t : Team) : Team :=
  if (mmaWords t o.k).isEmpty then t
  else (List.range 4).foldl
    (fun t1 r => produce t1 (.vec (o.d + BitVec.ofNat 7 r)) (src (laneResults t o r)) false) t

theorem mmaProduce_eq (s : State) (o : MmaOps) (src : List (Nat × Word) → FillSrc) :
    mmaProduce s o src = .retire (withTeam s (delivered o src)) := by
  unfold mmaProduce delivered withTeam
  simp only
  split <;> rfl

theorem delivered_of_none {o : MmaOps} {t : Team} (src : List (Nat × Word) → FillSrc) (h : wordsOn t o.k = []) :
    delivered o src t = t := if_pos (by rw [mmaWords_eq_wordsOn, h]; rfl)

theorem delivered_of_some {o : MmaOps} {t : Team} (src : List (Nat × Word) → FillSrc) (h : wordsOn t o.k ≠ []) :
    ∃ V, delivered o src t = { t with vEmpty := V, inflight := t.inflight ++ (List.range 4).map fun r =>
        ⟨.vec (o.d + BitVec.ofNat 7 r), src (laneResults t o r), false⟩ } ∧
      ∀ r < 4, V.getLsbD (o.d + BitVec.ofNat 7 r).toNat = true := by
  obtain ⟨V, hfold, _, hempty⟩ := foldl_produce_vec (fun r => o.d + BitVec.ofNat 7 r) (fun r => src (laneResults t o r))
    (List.range 4) t
  exact ⟨V, (if_neg (by rwa [mmaWords_eq_wordsOn, List.isEmpty_iff])).trans hfold,
    fun r hr => hempty r (List.mem_range.mpr hr)⟩

/-- A product changes nothing of its team but which registers are empty and what is on its way. -/
theorem delivered_eq (o : MmaOps) (src : List (Nat × Word) → FillSrc) (t : Team) :
    ∃ V fs, delivered o src t = { t with vEmpty := V, inflight := fs } := by
  by_cases h : wordsOn t o.k = []
  · exact ⟨t.vEmpty, t.inflight, delivered_of_none src h⟩
  · obtain ⟨V, hsome, _⟩ := delivered_of_some src h
    exact ⟨V, _, hsome⟩

/-! ### The array and the lanes -/

/-- u is t but for what its deciders between the engines remember (R341, R342, R354). -/
def SameButDeciders (t u : Team) : Prop := u = { t with mma8 := u.mma8, mma16 := u.mma16, chosen := u.chosen }

/-- An effect in s is to send the product on its way, by results of the kind `src`; beside its team it changes no memory. -/
def Delivers (s : State) (o : MmaOps) (src : List (Nat × Word) → FillSrc) (e : Eff) : Prop :=
  ∃ u, e = .retire (withTeam u (delivered o src)) ∧ u.mem = s.mem ∧ SameButDeciders s.team u.team

theorem mmaOnLanes_delivers {s : State} {o : MmaOps} (h : LanesReady s o) : Delivers s o .values (mmaOnLanes s o) := by
  have hgroups : groupsDown s s.team (activeMask s.team o.k) = [] := h
  obtain ⟨ps, cs, hnote⟩ := noteUse_eq s (placeKey s.team.place) (laneGroups (activeMask s.team o.k))
  refine ⟨{ s with points := ps, cores := cs }, ?_, rfl, rfl⟩
  simp only [mmaOnLanes, hgroups, mmaProduce_eq, hnote]

theorem mmaOnArray_delivers {s : State} {o : MmaOps} (h : ArrayReady s o) :
    Delivers s o (.array (.vec o.d)) (mmaOnArray s o) := by
  have hup : islandUp s (placeKey s.team.place) 4 = true := h
  by_cases hwords : (mmaWords s.team o.k).isEmpty
  · refine ⟨s, ?_, rfl, rfl⟩
    simp only [mmaOnArray, hwords, if_true, withTeam, delivered]
  · obtain ⟨ps, cs, hnote⟩ := noteUse_eq s (placeKey s.team.place) [4]
    obtain ⟨ds, hleave⟩ := askLeave_eq (noteUse s (placeKey s.team.place) [4]) s.team.place.die.toNat
      (.mma s.team.place (.vec o.d))
    refine ⟨{ s with points := ps, cores := cs, dies := ds }, ?_, rfl, rfl⟩
    simp only [mmaOnArray, hwords, hup, hleave, mmaProduce_eq]
    rw [hnote]
    rfl

/-- Choosing an engine changes nothing but what the team's deciders remember. -/
theorem chooseMma_keeps (s : State) (o : MmaOps) :
    ∃ a b c, (chooseMma s o).2 = withTeam s fun t => { t with mma8 := a, mma16 := b, chosen := c } := by
  unfold chooseMma decideMma
  simp only
  split
  · exact ⟨s.team.mma8, s.team.mma16, s.team.chosen, rfl⟩
  · split
    · exact ⟨s.team.mma8, s.team.mma16, s.team.chosen, rfl⟩
    · by_cases hwidth : o.fa.bits = 8
      · simp only [hwidth, if_true]
        exact ⟨_, s.team.mma16, _, rfl⟩
      · simp only [hwidth, if_false]
        exact ⟨s.team.mma8, _, _, rfl⟩

/-- MMA.ANY sends its product on its way by the engine it takes, where that one is ready. -/
theorem mmaAny_delivers {s : State} {o : MmaOps} (hlanes : LanesReady s o)
    (harray : (chooseMma s o).1 = false → ArrayReady s o) :
    Delivers s o (if (chooseMma s o).1 then .values else .array (.vec o.d))
      (if (chooseMma s o).1 then mmaOnLanes (chooseMma s o).2 o else mmaOnArray (chooseMma s o).2 o) := by
  obtain ⟨a, b, c, hkept⟩ := chooseMma_keeps s o
  rw [hkept]
  cases hchosen : (chooseMma s o).1 with
  | true => exact mmaOnLanes_delivers (s := withTeam s _) hlanes
  | false => exact mmaOnArray_delivers (s := withTeam s _) (harray hchosen)

/-! ### The statement -/

/-- An MMA whose effect is to send its product on its way by the lanes or the array is one of R276. -/
theorem mmaIs_of_delivers {c : MmaOps → Instr} {ready : State → MmaOps → Prop} {onLanes onArray : Bool}
    (body : MmaOps → State → Eff) (hexec : ∀ o s, exec (c o) s = issue (c o) s (body o))
    (hdelivers : ∀ o s, ready s o → ∃ src, Delivers s o src (body o s) ∧
      (onLanes = true ∧ src = .values ∨ onArray = true ∧ src = .array (.vec o.d))) : MmaIs c ready onLanes onArray := by
  intro o s s1 h hready
  obtain ⟨src, ⟨u, he, hmem, hteam⟩, hsrc⟩ := hdelivers o s1 hready
  obtain ⟨V, fs, hframe⟩ := delivered_eq o src u.team
  have hclean : (withTeam u (delivered o src)).team.sPoison = 0 ∧ (withTeam u (delivered o src)).team.vPoison = 0 ∧
      ∀ e ∈ (withTeam u (delivered o src)).team.lstk.head?, e.stop ≠ s.team.pc := by
    rw [withTeam, hframe, hteam]
    exact ⟨h.cleanS, h.cleanV, h.inner⟩
  have hgo := (hexec o s).trans (issue_retire h.toIssues he hclean.1 hclean.2.1 hclean.2.2)
  have hwords : wordsOn u.team o.k = wordsOn s1.team o.k := by rw [hteam]; rfl
  refine ⟨_, hgo, ?same, rfl, fun a => congrArg (mapGet 0 · a) hmem, fun hnone => ?none, fun hsome => ?some⟩
  case same =>
    show SameRegisters (delivered o src u.team) s1.team
    rw [hframe, hteam]
    exact ⟨rfl, rfl, rfl, rfl, rfl⟩
  case none =>
    show (delivered o src u.team).inflight = _ ∧ (delivered o src u.team).vEmpty = _
    rw [delivered_of_none src (hwords.trans hnone), hteam]
    exact ⟨rfl, rfl⟩
  case some =>
    obtain ⟨W, hdelivered, hempty⟩ := delivered_of_some src (hwords.symm ▸ hsome)
    refine ⟨fun q p r => mmaWord u.team o (fmode u.team) q p r, src, hsrc, ?_, fun r hr => ?_, fun q _ p _ r _ j hj => ?_⟩
    · show (delivered o src u.team).inflight = _
      rw [hdelivered, ← hwords, ← mmaWords_eq_wordsOn, hteam]
      rfl
    · show (delivered o src u.team).vEmpty.getLsbD _ = true
      rw [hdelivered]
      exact hempty r hr
    · rw [sub_mmaWord u.team o q p r hj, hteam]
      rfl

theorem mmaAnyIs {ready : State → MmaOps → Prop} {onArray : Bool} (hlanes : ∀ s o, ready s o → LanesReady s o)
    (harray : ∀ s o, ready s o → (chooseMma s o).1 = false → onArray = true ∧ ArrayReady s o) :
    MmaIs .mmaAny ready true onArray :=
  mmaIs_of_delivers
    (fun o s => if (chooseMma s o).1 then mmaOnLanes (chooseMma s o).2 o else mmaOnArray (chooseMma s o).2 o) (fun _ _ => rfl)
    fun o s h => ⟨_, mmaAny_delivers (hlanes s o h) fun hchosen => (harray s o h hchosen).2, by
      cases hchosen : (chooseMma s o).1 with
      | true => exact .inl ⟨rfl, rfl⟩
      | false => exact .inr ⟨(harray s o h hchosen).1, rfl⟩⟩

theorem chooseMma_lanes {s : State} (o : MmaOps) (h : s.team.place.die = 8 ∨ arrayHeld s (placeKey s.team.place) = true) :
    (chooseMma s o).1 = true := congrArg Prod.fst (if_pos (by simpa using h))

theorem matrixProductsPerLaneWord : MatrixProductsPerLaneWord := by
  unfold MatrixProductsPerLaneWord
  refine ⟨?array, ?lanes, ?either, ?onlyLanes⟩
  case array =>
    exact mmaIs_of_delivers (fun o s => mmaOnArray s o) (fun _ _ => rfl) fun o s h =>
      ⟨_, mmaOnArray_delivers h, .inr ⟨rfl, rfl⟩⟩
  case lanes =>
    exact mmaIs_of_delivers (fun o s => mmaOnLanes s o) (fun _ _ => rfl) fun o s h =>
      ⟨_, mmaOnLanes_delivers h, .inl ⟨rfl, rfl⟩⟩
  case either => exact mmaAnyIs (fun _ _ h => h.2) fun _ _ h _ => ⟨rfl, h.1⟩
  case onlyLanes =>
    exact mmaAnyIs (fun _ _ h => h.2) fun s o h hchosen => absurd (chooseMma_lanes o h.1) (by simp [hchosen])

/-- Settles O26: every matrix instruction hands its one operation on, and every MMA delivers the products of its lane-words,
whichever engine forms them. -/
theorem matrixInstructionsMultiply : Obligations.MatrixInstructionsMultiply :=
  ⟨matrixInstructionsHandWorkOn, matrixProductsPerLaneWord⟩

end Sys2Proof.NumberFormats
end

section
/-! PROOFS. A step of the teams' turn (O57, R158, R164-R180, R346): what fetching, decoding and pairing come to for the team asked
first, and that what it runs is the step. -/

namespace Sys2Proof.AssemblyLanguage

open Sys2Proof.Machine Sys2Proof.ConsistencyModel Sys2Proof.NumberFormats

/-! ### What the fetch and the note of use leave alone -/

theorem fetched_eq (s : State) (a : Word) : ∃ l1 l2 annex cnt, fetched s a = noted s l1 l2 annex cnt := by
  unfold fetched
  split
  · exact noteRead_eq ..
  · exact ⟨s.l1, s.l2, s.annex, s.annexCnt, rfl⟩

theorem fetched_frame (s : State) (a : Word) :
    (fetched s a).team = s.team ∧ (fetched s a).others = s.others ∧ (fetched s a).mem = s.mem := by
  obtain ⟨l1, l2, annex, cnt, h⟩ := fetched_eq s a
  rw [h]
  exact ⟨rfl, rfl, rfl⟩

@[simp] theorem fetched_team (s : State) (a : Word) : (fetched s a).team = s.team := (fetched_frame s a).1

theorem noteUse_frame (s : State) (k : Nat) (islands : List Nat) : (noteUse s k islands).team = s.team ∧
    (noteUse s k islands).others = s.others ∧ (noteUse s k islands).mem = s.mem := by
  obtain ⟨ps, cs, h⟩ := noteUse_eq s k islands
  rw [h]
  exact ⟨rfl, rfl, rfl⟩

/-! ### The turn -/

/-- TIME is read at odd turns only (log 7), so no turn of the teams is one of them. -/
theorem timeTurn_of_even {s : State} (h : s.ctlTurn % 2 = 0) : timeTurn s = false := by
  simp only [timeTurn, decide_eq_false_iff_not]
  omega

theorem tryTeams_first {s t : State} {ps : List Place} {p : Place} (hp : ps.head? = some p)
    (hrun : runTeam exec (focus s p) = .next t) (hwaits : stillWaits (focus s p) t = false) :
    tryTeams exec s ps = some (.next t) := by
  cases ps with
  | nil => cases hp
  | cons q rest =>
    obtain rfl : q = p := Option.some.inj hp
    simp only [tryTeams, hrun, hwaits, Bool.false_eq_true, if_false]

/-- In the teams' turn an even count of turns and an empty inbox leave the step to the first team that issues (log 2). -/
theorem step_of_tryTeams {s : State} {o : Host.Outcome State Fault Refusal} (hinbox : s.inbox = []) (hpowered : s.powered = true)
    (heven : s.ctlTurn % 2 = 0)
    (htry : tryTeams exec { mapTeams s (countReady s) with ctlTurn := s.ctlTurn + 1 }
      (candidates { mapTeams s (countReady s) with ctlTurn := s.ctlTurn + 1 }) = some o) : step s = o := by
  have hinside : step s = stepInside s := by simp only [step, hinbox, hpowered, if_true]
  rw [hinside, stepInside, timeTurn_of_even heven, Bool.false_and, if_neg Bool.false_ne_true, if_pos heven, htry]
  rfl

/-- What the team asked first runs is the step, unless the team goes on waiting. -/
theorem step_of_runTeam {s f t : State} {p : Place} (h : TeamsTurn s f p) (hrun : runTeam exec f = .next t)
    (hwaits : stillWaits f t = false) : step s = .next t := by
  obtain ⟨hinbox, hpowered, heven, hp, rfl⟩ := h
  exact step_of_tryTeams hinbox hpowered heven (tryTeams_first hp hrun hwaits)

/-- A team that was ready has issued, whatever became of it. -/
theorem stillWaits_of_ready {f : State} (h : f.team.status = .ready) (t : State) : stillWaits f t = false := by
  simp [stillWaits, h]

/-! ### Fetch and decode -/

/-- At fill the team goes on at the next line (R167). -/
theorem runTeam_of_fill {f : State} {l : Line} (h : Fetches f l) (hfill : l.fillAt (parcelOf f.team.pc) = true) :
    runTeam exec f = .next { fetched f f.team.pc with team := { f.team with pc := lineBase f.team.pc + 64 } } := by
  obtain ⟨hsoft, hunder, hbkpt, hheld, hline, halign, hword⟩ := h
  simp [runTeam, hsoft, hunder, hbkpt, hheld, hline, halign, hword, hfill]

/-- A decoded instruction is a breach where it opens a pair in a capsule body, opens a pair where one may stand, and otherwise
runs alone (R158, R178, R368). -/
theorem runTeam_of_atPc {f : State} {l : Line} {i : Instr} {n : Nat} (h : AtPc f l i n) :
    runTeam exec f =
      if l.pair (parcelOf f.team.pc) && !f.team.inPair && !f.team.asked && inBody f.team then
        .next (stopAt f f { cause := 0x40, pc := f.team.pc })
      else
        (if l.pair (parcelOf f.team.pc) && !f.team.inPair && pairRoom f then l.instr (parcelOf f.team.pc + n) else none).elim
          (runDecoded exec i (fetched f f.team.pc)) fun second =>
            if f.team.lstk.any fun e => e.stop == f.team.pc then .next (stopAt f f { cause := 0x23, pc := f.team.pc, code := 7 })
            else runPair exec i second.1 (f.team.pc + BitVec.ofNat 64 (4 * n)) (fetched f f.team.pc) := by
  obtain ⟨⟨hsoft, hunder, hbkpt, hheld, hline, halign, hword⟩, hfill, hdecode⟩ := h
  simp only [runTeam, hsoft, ite_self, hunder, hbkpt, hheld, hline, halign, hword, hfill, hdecode, bne_self_eq_false,
    Bool.false_or, decide_false, Bool.false_eq_true, if_false]
  congr 1
  cases if l.pair (parcelOf f.team.pc) && !f.team.inPair && pairRoom f then l.instr (parcelOf f.team.pc + n) else none <;> rfl

section
variable {f : State} {l : Line} {i j : Instr} {n m : Nat} (h : AtPc f l i n)
include h

theorem runTeam_single (halone : l.pair (parcelOf f.team.pc) = false ∨ f.team.inPair = true ∨
      inBody f.team = false ∧ pairRoom f = false) :
    runTeam exec f = runDecoded exec i (fetched f f.team.pc) := by
  rw [runTeam_of_atPc h]
  obtain hpair | hsecond | ⟨hbody, hroom⟩ := halone
  · simp [hpair]
  · simp [hsecond]
  · simp [hbody, hroom]

theorem runTeam_pair (hopens : OpensPair f l n j m) :
    runTeam exec f = runPair exec i j (f.team.pc + BitVec.ofNat 64 (4 * n)) (fetched f f.team.pc) := by
  obtain ⟨hpair, hsecond, hbody, hroom, hinstr, hloop⟩ := hopens
  have hnoEnd : (f.team.lstk.any fun e => e.stop == f.team.pc) = false := by simpa using hloop
  simp [runTeam_of_atPc h, hpair, hsecond, hbody, hroom, hinstr, hnoEnd]

/-- In a capsule body the pair is the stop that breaks the capsule (R158, R295; log 72). -/
theorem runTeam_bodyPair (hpair : l.pair (parcelOf f.team.pc) = true) (hsecond : f.team.inPair = false)
    (hasked : f.team.asked = false) (hbody : inBody f.team = true) (hcancel : f.team.cancelling = false) :
    runTeam exec f = .next (capsuleFault f f.team.pc) := by
  simp [runTeam_of_atPc h, hpair, hsecond, hasked, hbody, stopAt, hcancel, tryRaise]

end

/-! ### Running, alone or in a pair -/

theorem runDecoded_of_runsWith {i : Instr} {g t : State} (h : RunsWith i g t) : runDecoded exec i g = .next t := by
  obtain ⟨u, hexec, ⟨hwaits, rfl⟩ | ⟨hwaits, hpowered, rfl⟩⟩ := h
  · simp [runDecoded, hexec, hwaits]
  · simp [runDecoded, hexec, hwaits, hpowered]

theorem runsWith_frame {i : Instr} {g t : State} (h : RunsWith i g t) :
    ∃ u, exec i g = .next u ∧ t.team = u.team ∧ t.others = u.others ∧ t.mem = u.mem := by
  obtain ⟨u, hexec, ⟨-, rfl⟩ | ⟨-, -, rfl⟩⟩ := h
  · exact ⟨t, hexec, rfl, rfl, rfl⟩
  · exact ⟨u, hexec, noteUse_frame ..⟩

/-- An instruction that would issue on a lane group that is powered down waits for it (R346). -/
theorem runDecoded_waits_for_groups {i : Instr} {f u : State} {g : Nat} {gs : List Nat} (hexec : exec i f = .next u)
    (hissues : waitsThere f u = false) (hdown : needsGroups i f = g :: gs) :
    runDecoded exec i f = .next (waitsAt (wakeGroups f (placeKey f.team.place) (g :: gs)) .resource) := by
  simp only [runDecoded, hexec, hissues, hdown]
  rfl

/-- Both ready, the second runs after the first (R180; log 59). -/
theorem runPair_of_ready {i j : Instr} {next : Word} {g s1 s2 s3 t : State}
    (hready : awaitAll g (waitsFor j.uses) = some s1) (hpowered : needsGroups j g = []) (hfirst : RunsWith i s1 s2)
    (hopen : openPair s1 s2 next = some s3) (hsecond : RunsWith j s3 t) : runPair exec i j next g = .next t := by
  simp [runPair, hready, hpowered, runDecoded_of_runsWith hfirst, hopen, runDecoded_of_runsWith hsecond]

/-- The first of a pair waits until the second is ready (R180). -/
theorem runPair_of_empty {i j : Instr} {next : Word} {g : State} (hempty : awaitAll g (waitsFor j.uses) = none) :
    runPair exec i j next g = .next (waitsAt g (stallKind g.team (waitsFor j.uses))) := by
  simp only [runPair, hempty]
  rfl

/-- The second of a pair sees the special registers as they stood before the first (R179). -/
theorem openPair_of_retired {f t : State} {next : Word} (hplace : t.team.place = f.team.place) (hpc : t.team.pc = next)
    (hready : t.team.status = .ready) (hshadow : f.team.pairShadow = none) :
    openPair f t next = some (withTeam t fun u =>
      { u with pairShadow := some ⟨f.team.mode, f.team.rateo, f.team.fcont, f.team.fframe, cntWord f.team, f.team.qnt⟩,
               inPair := true }) := by
  simp only [openPair, hplace, hpc, hready, decide_true, Bool.and_self, if_true, shadowOf, hshadow]
  rfl

/-- Settles O57: in the teams' turn the step is what the team asked first runs, and that is its instruction alone, its pair, the
breach of a pair in a capsule body, or the move past fill. -/
theorem stepRunsTheDecodedInstruction : Obligations.StepRunsTheDecodedInstruction := by
  unfold Obligations.StepRunsTheDecodedInstruction
  refine ⟨?single, ?pair, ?pairWaits, ?bodyPair, fun _ _ _ => runsWith_frame, fetched_frame, ?fill,
    fun _ _ _ => openPair_of_retired, fun _ _ _ _ _ => runDecoded_waits_for_groups⟩
  case single =>
    intro s f p l i n t hturn hat halone hruns hwaits
    exact step_of_runTeam hturn ((runTeam_single hat halone).trans (runDecoded_of_runsWith hruns)) hwaits
  case pair =>
    intro s f p l i n j m s1 s2 s3 t hturn hat hopens hready hpowered hfirst hopen hsecond hwaits
    exact step_of_runTeam hturn
      ((runTeam_pair hat hopens).trans (runPair_of_ready hready hpowered hfirst hopen hsecond)) hwaits
  case pairWaits =>
    intro s f p l i n j m hturn hat hopens hempty hstatus
    have hpair := (runTeam_pair hat hopens).trans (runPair_of_empty hempty)
    rw [fetched_team] at hpair
    exact step_of_runTeam hturn hpair (stillWaits_of_ready hstatus _)
  case bodyPair =>
    intro s f p l i n hturn hat hpair hsecond hasked hbody hstatus hcancel
    exact step_of_runTeam hturn (runTeam_bodyPair hat hpair hsecond hasked hbody hcancel) (stillWaits_of_ready hstatus _)
  case fill =>
    intro s f p l hturn hfetches hfill hstatus
    exact step_of_runTeam hturn (runTeam_of_fill hfetches hfill) (stillWaits_of_ready hstatus _)

end Sys2Proof.AssemblyLanguage
end

section
/-! PROOFS. What the operations of memory and the arrival of results leave of the current team: all of it, or all but its
registers, their bits and the results on their way (R54-R57, R85, R91). -/

namespace Sys2Proof.ScalarControl

open Sys2Proof.Machine Sys2Proof.RegisterState Sys2Proof.ConsistencyModel

/-! ### Operations of memory -/

theorem collapse_team (s : State) (loc n : Nat) : (collapse s loc n).team = s.team := by
  simp only [collapse]; split <;> rfl

theorem countWrites_team (s : State) (loc n : Nat) : (countWrites s loc n).team = s.team := by
  unfold countWrites; split <;> rfl

theorem ownLines_team (s : State) (own : Option Nat) (loc n : Nat) : (ownLines s own loc n).team = s.team := by
  simp only [ownLines]
  split
  · exact collapse_team s loc n
  · exact (countWrites_team ..).trans (collapse_team s loc n)

theorem report_team (s : State) (p : BitVec 4) (rep : Byte) (target addr : Word) :
    (report s p rep target addr).team = s.team := by
  simp only [report]; split <;> rfl

theorem performBy_team (own : Option Nat) (s : State) (p : BitVec 4) (pl : Place) (loc : Nat) (bs : List Byte) :
    (performBy own s p pl loc bs).team = s.team := by
  have hlines : (if own.isSome then ownLines s own loc bs.length
      else clearPoison (ownLines s own loc bs.length) [(loc, bs.length)]).team = s.team := by
    split <;> exact ownLines_team ..
  simp only [performBy]
  split
  · split <;> exact hlines
  · split <;> split <;> simp only [report_team] <;> exact hlines

theorem flushWhere_team (s : State) (p : Nat → Nat → Bool) : (flushWhere s p).team = s.team :=
  foldl_keeps (fun u => u.team = s.team) (fun _ _ h => (performBy_team ..).trans h) _ rfl

theorem readL2_team (s : State) (die : Nat) (a : BitVec 13) (loc : Nat) : (readL2 s die a loc).team = s.team := by
  unfold readL2 fillL2 dirRead touchL2
  split
  · rfl
  · split
    · split <;> rfl
    · rfl

theorem noteRead_team (s : State) (w : Who) (loc : Nat) : (noteRead s w loc).team = s.team := by
  simp only [noteRead, touchL1]
  split
  · rfl
  · split
    · rfl
    · exact readL2_team ..

theorem storeOut_team (s : State) (w : Who) (loc : Nat) (bs : List Byte) : (storeOut s w loc bs).team = s.team := by
  unfold storeOut
  split
  · exact countWrites_team ..
  · exact performBy_team ..

theorem markWhole_team (s : State) (k : Nat) (ls : List Nat) (w : Bool) : (markWhole s k ls w).team = s.team := by
  unfold markWhole; split <;> rfl

theorem storesOut_team (s : State) (w : Who) (xs : List BufStore) : (storesOut s w xs).team = s.team := by
  simp only [storesOut, markWhole_team]
  refine foldl_keeps (fun u => u.team = s.team) (fun u x h => (storeOut_team ..).trans h) _
    (foldl_keeps (fun u => u.team = s.team) (fun u l h => ?_) _ rfl)
  split
  · exact h
  · exact (noteRead_team ..).trans h

/-! ### Writes and notices of the hall -/

theorem hallStore_team (s : State) (p : BitVec 4) (ps : List (Nat × Nat)) (bs : List Byte) :
    (hallStore s p ps bs).team = s.team := by
  induction ps generalizing s bs with
  | nil => rfl
  | cons x ps ih =>
    simp only [hallStore, ih]
    split
    · exact (performBy_team ..).trans (flushWhere_team ..)
    · rfl

theorem postEntry_team {s s1 : State} {p : BitVec 4} {bs : List Byte} (h : postEntry s p bs = some s1) :
    s1.team = s.team := by
  simp only [postEntry, hallWrite, Option.map_eq_some_iff] at h
  obtain ⟨_, ⟨ps, -, rfl⟩, rfl⟩ := h
  exact hallStore_team ..

theorem postNotice_team (s : State) (p : BitVec 4) (bs : List Byte) : (postNotice s p bs).team = s.team := by
  unfold postNotice
  split
  · cases h : postEntry s p bs with
    | none => rfl
    | some s1 => exact postEntry_team h
  · rfl

/-! ### Results that arrive -/

/-- What service teams and deliveries change of a team: its registers, their bits, the results on their way to them, and the
poison that a request has met. -/
def ResultsOnly (t u : Team) : Prop :=
  u = { t with sregs := u.sregs, vregs := u.vregs, sEmpty := u.sEmpty, vEmpty := u.vEmpty, sPoison := u.sPoison,
               vPoison := u.vPoison, inflight := u.inflight, softErr := u.softErr }

theorem ResultsOnly.refl (t : Team) : ResultsOnly t t := rfl

theorem ResultsOnly.trans {t u v : Team} (h : ResultsOnly t u) (h' : ResultsOnly u v) : ResultsOnly t v := by
  unfold ResultsOnly at *
  rw [h', h]

theorem resultsOnly_of_eq {t u : Team} (h : u = t) : ResultsOnly t u := by
  subst h; rfl

theorem resultsOnly_of_registersOnly {t u : Team} (h : RegistersOnly t u) : ResultsOnly t u := by
  rw [show u = _ from h]; rfl

theorem ResultsOnly.cc {t u : Team} (h : ResultsOnly t u) : u.cc = t.cc := by rw [show u = _ from h]

theorem ResultsOnly.pc {t u : Team} (h : ResultsOnly t u) : u.pc = t.pc := by rw [show u = _ from h]

/-- A change of the team in a context is a change of the current team, or leaves it alone. -/
theorem mapTeam_team (s : State) (p : Place) (f : Team → Team) :
    (mapTeam s p f).team = f s.team ∨ (mapTeam s p f).team = s.team := by
  unfold mapTeam
  split
  · exact .inl rfl
  · exact .inr rfl

theorem resultsOnly_serveAtom (s : State) (e : SvcEntry) : ResultsOnly s.team (serveAtom s e).team := by
  have mapped (u : State) (hu : u.team = s.team) (f : Team → Team) (hf : ∀ t, ResultsOnly t (f t)) :
      ResultsOnly s.team (mapTeam u e.place f).team := by
    rcases mapTeam_team u e.place f with h | h <;> rw [h, hu]
    · exact hf _
    · exact .refl _
  simp only [serveAtom]
  split
  · exact .refl _
  · split
    · exact mapped _ (flushWhere_team ..) _ fun _ => rfl
    · split
      · refine mapped _ ?_ _ fun _ => rfl
        split
        · exact (performBy_team ..).trans (flushWhere_team ..)
        · exact (countWrites_team ..).trans (flushWhere_team ..)
      · refine resultsOnly_of_eq ?_
        split
        · exact (performBy_team ..).trans (flushWhere_team ..)
        · exact (countWrites_team ..).trans (flushWhere_team ..)

theorem resultsOnly_drain (s : State) : ResultsOnly s.team (drain s).team :=
  foldl_keeps (fun u => ResultsOnly s.team u.team) (fun u e h => h.trans (resultsOnly_serveAtom u e)) _ (.refl _)

theorem resultsOnly_awaitDest {s s1 : State} {d : Dest} (h : awaitDest s d = some s1) : ResultsOnly s.team s1.team := by
  unfold awaitDest at h
  split at h
  · split at h
    · next t ht => cases h; exact resultsOnly_of_registersOnly (registersOnly_deliver ht)
    · simp only [Option.map_eq_some_iff] at h
      obtain ⟨t, ht, rfl⟩ := h
      exact (resultsOnly_drain s).trans (resultsOnly_of_registersOnly (registersOnly_deliver ht))
  · cases h; exact .refl _

/-- Waiting for registers leaves the flags, the PC and the stacks of a team alone (R56). -/
theorem resultsOnly_awaitAll {ds : List Dest} {s s1 : State} (h : awaitAll s ds = some s1) : ResultsOnly s.team s1.team := by
  induction ds generalizing s with
  | nil => cases h; exact .refl _
  | cons d ds ih =>
    simp only [awaitAll, Option.bind_eq_some_iff] at h
    obtain ⟨s2, h2, h3⟩ := h
    exact (resultsOnly_awaitDest h2).trans (ih h3)

end Sys2Proof.ScalarControl
end

section
/-! PROOFS. The flags of the current team through a stop, a wait and a retirement (R185, R400, R401, R403): whatever an instruction
comes to, CC is what its own effect leaves. -/

namespace Sys2Proof.ScalarControl

open Sys2Proof.Machine Sys2Proof.RegisterState

/-! ### Stops -/

theorem storeAll_cc (s : State) (xs : List BufStore) : (storeAll s xs).team.cc = s.team.cc := by
  unfold storeAll
  split
  · rfl
  · split
    · rfl
    · exact congrArg Team.cc (storesOut_team ..)

theorem storePieces_cc {n : Nat} {s s1 : State} {va : Word} {bs : List Byte} (h : storePieces s va n bs = .ok s1) :
    s1.team.cc = s.team.cc := by
  induction n generalizing s va bs with
  | zero => cases h; rfl
  | succ n ih =>
    unfold storePieces at h
    split at h
    · exact (ih h).trans (storeAll_cc ..)
    · cases h
    · cases h

theorem descheduleCap_team (s : State) (t : Team) (run : Bool) : (descheduleCap s t run).team = s.team := by
  unfold descheduleCap askState
  split
  · rfl
  · split <;> rfl

theorem noteHalt_team (s : State) (t : Team) (c : Byte) : (noteHalt s t c).team = s.team := rfl

theorem withdraw_team (s : State) (p : Place) : (withdraw s p).team = s.team := rfl

theorem haltTeam_cc (s : State) (p : Place) (x : Stop) : (haltTeam s p x).team.cc = s.team.cc := by
  simp only [haltTeam]
  split
  · rfl
  · rw [postNotice_team, flushCore, flushWhere_team, descheduleCap_team, noteHalt_team, bumpSerial_team, withdraw_team]
    have hmapped (f : Team → Team) (hf : ∀ t, (f t).cc = t.cc) : (mapTeam s p f).team.cc = s.team.cc := by
      rcases mapTeam_team s p f with h | h <;> rw [h]
      exact hf _
    exact hmapped _ fun _ => rfl

theorem redirect_cc (s : State) (x : Stop) : (redirect s x).team.cc = s.team.cc := by
  simp only [redirect, postNotice_team, flushCore, flushWhere_team]
  rfl

theorem capsuleFault_cc (s : State) (pc : Word) : (capsuleFault s pc).team.cc = s.team.cc := haltTeam_cc ..

theorem tryRaise_cc {s s1 : State} {x : Stop} (h : tryRaise s x = some s1) : s1.team.cc = s.team.cc := by
  have hdrain : (drain s).team.cc = s.team.cc := (resultsOnly_drain s).cc
  simp only [tryRaise] at h
  split at h
  · cases h; exact capsuleFault_cc ..
  · split at h
    · split at h
      · cases h
      · cases h; exact (haltTeam_cc ..).trans hdrain
      · next s2 hframe =>
        cases h
        have hwritten := (storePieces_cc hframe).trans hdrain
        split
        · exact (redirect_cc ..).trans hwritten
        · exact (haltTeam_cc ..).trans hwritten
    · cases h; exact haltTeam_cc ..

/-- A stop, or the wait for its frame, leaves the flags (R401). -/
theorem stopAt_cc {s0 s : State} (h : s.team.cc = s0.team.cc) (x : Stop) : (stopAt s0 s x).team.cc = s0.team.cc := by
  unfold stopAt
  split
  · exact h
  · split
    · cases hraise : tryRaise s x with
      | none => exact h
      | some s1 => exact (tryRaise_cc hraise).trans h
    · split
      · next s1 hs1 =>
        have hawaited := (resultsOnly_awaitAll hs1).cc.trans h
        split
        · next s2 hraise => exact (tryRaise_cc hraise).trans hawaited
        · rfl
      · rfl

/-! ### The end of an instruction -/

/-- The state that an effect carries. -/
def effState : Eff → State
  | .retire s | .goto s _ | .land s _ | .hold s _ | .stop s _ | .done s => s

theorem unpoison_cc (i : Instr) (s : State) : (unpoison i s).team.cc = s.team.cc := by
  have hmark (t : Team) (d : Dest) (b : Bool) : (markPoison t d b).cc = t.cc := by
    obtain ⟨_, _, h⟩ := markPoison_eq t d b
    rw [h]
  simp only [unpoison]
  split
  · rfl
  · refine List.foldlRecOn (motive := fun t : Team => t.cc = s.team.cc) _ _ rfl fun t h d _ => ?_
    cases d with
    | scal r => exact (hmark ..).trans h
    | vec r =>
      show (if _ then markPoison t (.vec r) false else t).cc = _
      split
      · exact (hmark ..).trans h
      · exact h

theorem cleaned_cc (i : Instr) (e : Eff) : (effState (e.cleaned i)).team.cc = (effState e).team.cc := by
  cases e with
  | retire s | goto s _ | land s _ => exact unpoison_cc i s
  | hold | stop | done => rfl

theorem retireChecked_cc {s0 s : State} (h : s.team.cc = s0.team.cc) (tgt : Word) :
    (retireChecked s0 s tgt).team.cc = s0.team.cc := by
  unfold retireChecked
  split
  · split
    · exact stopAt_cc rfl _
    · exact h
  · exact h

theorem conclude_cc {s0 : State} {e : Eff} (h : (effState e).team.cc = s0.team.cc) (i : Instr) :
    (conclude i s0 e).team.cc = s0.team.cc := by
  cases e with
  | retire s | land s tgt => exact retireChecked_cc h _
  | goto s tgt =>
    simp only [conclude]
    split
    · exact stopAt_cc rfl _
    · split <;> exact h
  | hold s w =>
    simp only [conclude, keepOp]
    split <;> exact h
  | stop s x => exact stopAt_cc h x
  | done s => exact h

theorem checked_cc {i : Instr} {body : State → Eff} (hbody : ∀ u, (effState (body u)).team.cc = u.team.cc) (s : State) :
    (effState (checked i s body)).team.cc = s.team.cc := by
  unfold checked
  split
  · exact hbody s
  · split
    · rfl
    · next s1 hawaited =>
      refine Eq.trans ?_ (resultsOnly_awaitAll hawaited).cc
      unfold checkedAt
      split
      · rfl
      · split
        · rfl
        · split
          · rfl
          · split
            · exact rfl
            · exact hbody s1

/-- An instruction whose own effect leaves the flags leaves them, whatever comes of it. -/
theorem issue_cc {i : Instr} {s t : State} {body : State → Eff} (hbody : ∀ u, (effState (body u)).team.cc = u.team.cc)
    (h : issue i s body = .next t) : t.team.cc = s.team.cc := by
  cases h
  exact conclude_cc ((cleaned_cc ..).trans (checked_cc hbody s)) i

end Sys2Proof.ScalarControl
end

section
/-! PROOFS. The instructions that write one scalar register: what each comes to when it goes, at the end of a loop too, and what it
leaves alone (O4). -/

namespace Sys2Proof.ScalarControl

open Sys2Proof.Machine

/-- An effect that changes a clean team alone, and not its loop stack or its poison, is that change and the next PC. -/
theorem issue_retireWith {i : Instr} {s s1 : State} {f : Team → Team} {body : State → Eff} (h : Goes i s s1)
    (hbody : body s1 = retireWith s1 f) (hs : (f s1.team).sPoison = s1.team.sPoison)
    (hv : (f s1.team).vPoison = s1.team.vPoison) (hl : ∀ e ∈ (f s1.team).lstk.head?, e.stop ≠ s.team.pc) :
    issue i s body = .next (goesOn (withTeam s1 f) (nextPc i s)) :=
  issue_retire h.toIssues hbody (hs.trans h.cleanS) (hv.trans h.cleanV) hl

theorem scalarIs_of_issue {i : Instr} {d : SReg} {v : State → Word}
    (hexec : ∀ s, exec i s = issue i s fun u => retireScalar u d (v u)) : ScalarIs i d v := by
  intro s s1 h
  rw [hexec]
  exact issue_retireWith h rfl (sset_sPoison ..) (sset_vPoison ..) (by rw [sset_lstk]; exact h.inner)

theorem scalar2Is_of_scalar2 {c : SReg → SSrc → SSrc → Instr} {f g : Word → Word → Word}
    (hexec : ∀ d a b s, exec (c d a b) s = scalar2 (c d a b) d a b g s) (hfun : ∀ x y, g x y = f x y) : Scalar2Is c f := by
  obtain rfl : g = f := funext fun x => funext (hfun x)
  exact fun d a b => scalarIs_of_issue (hexec d a b)

theorem scalar1Is_of_scalar1 {c : SReg → SSrc → Instr} {f g : Word → Word}
    (hexec : ∀ d a s, exec (c d a) s = scalar1 (c d a) d a g s) (hfun : ∀ x, g x = f x) : Scalar1Is c f := by
  obtain rfl : g = f := funext hfun
  exact fun d a => scalarIs_of_issue (hexec d a)

/-- Every one of them is the checks at issue around one scalar write. -/
theorem exec_of_scalarDest {i : Instr} {d : SReg} (h : scalarDest i = some d) :
    ∃ v : State → Word, ∀ s, exec i s = issue i s fun u => retireScalar u d (v u) := by
  cases i <;> cases h <;> exact ⟨_, fun _ => rfl⟩

/-- Settles O4: the write of the register and the step of the PC reach nothing else. -/
theorem scalarWritersKeepTheRest : Obligations.ScalarWritersKeepTheRest := by
  unfold Obligations.ScalarWritersKeepTheRest
  intro i d s s1 t hdest hgoes hexec
  obtain ⟨v, hissue⟩ := exec_of_scalarDest hdest
  cases (scalarIs_of_issue hissue s s1 hgoes).symm.trans hexec
  refine ⟨fun r hr => ?_, fun l r => ?_, fun k => ?_, sset_em .., sset_cc .., sset_mode .., sset_rateo .., sset_fcont ..,
    sset_fframe .., sset_dstk .., sset_lstk .., sset_setAsides .., rfl, rfl, rfl, fun _ => rfl⟩
  · exact (sget_sset s1.team d r (v s1)).trans (if_neg fun h => hr h.1)
  · exact congrArg (mapGet 0 · (vkey l r)) (sset_vregs s1.team d (v s1))
  · show kget (sset s1.team d (v s1)) k = _
    simp only [kget, sset_lanes, sset_masks]

end Sys2Proof.ScalarControl
end

section
/-! PROOFS. Loops (O6): what LOOP and LOOPI push or pass over, and how the loops that end at an instruction count down. -/

namespace Sys2Proof.ScalarControl

open Sys2Proof.Machine

/-- The results that an instruction waits for leave the PC (R56). -/
theorem pc_of_issues {i : Instr} {s s1 : State} (h : Issues i s s1) : s1.team.pc = s.team.pc :=
  (resultsOnly_awaitAll h.waits).pc

theorem nextPc_of_issues {i : Instr} {s s1 : State} (h : Issues i s s1) : nextPc i s1 = nextPc i s := by
  rw [nextPc, nextPc, pc_of_issues h]

/-! ### The begin of a loop -/

/-- A distance of some parcels leads elsewhere. -/
theorem add_parcels_ne {e : BitVec 15} (he : e ≠ 0) (pc : Word) : pc + BitVec.ofNat 64 (4 * e.toNat) ≠ pc := by
  have hpos : e.toNat ≠ 0 := fun h => he (BitVec.eq_of_toNat_eq h)
  bv_omega

theorem loopIs_of_loopEffect {i : Instr} {e : BitVec 15} {n : State → Nat}
    (hexec : ∀ s, exec i s = issue i s fun u => loopEffect i e (n u) u) : LoopIs i e n := by
  refine ⟨fun s s1 h hn => ?none, fun s s1 h hn hroom he => ?push, fun s s1 h hn hfull => ?full⟩ <;>
    have hpc := pc_of_issues h.toIssues <;> rw [hexec]
  case none =>
    refine issue_land h.toIssues ?_ h.cleanS h.cleanV h.inner
    rw [loopEffect, if_pos hn, hpc]
  case push =>
    refine issue_retireWith h ?_ rfl rfl ?_
    · rw [loopEffect, if_neg hn, if_neg (Nat.not_le.mpr hroom), hpc, nextPc_of_issues h.toIssues]
    · rintro _ ⟨⟩
      exact add_parcels_ne he _
  case full =>
    refine issue_stop h.toIssues ?_
    rw [loopEffect, if_neg hn, if_pos hfull, hpc]

theorem loopsPushTheirEntry : LoopsPushTheirEntry :=
  ⟨fun _ _ => loopIs_of_loopEffect fun _ => rfl, fun _ _ => loopIs_of_loopEffect fun _ => rfl⟩

/-! ### The end of a loop -/

theorem loopEnd_back {here : Word} {e : LoopEntry} {rest : List LoopEntry} (hstop : e.stop = here) (hcount : 1 < e.count) :
    loopEnd here (e :: rest) = ({ e with count := e.count - 1 } :: rest, some e.start) := by
  rw [loopEnd, if_pos hstop, if_pos hcount]

theorem loopEnd_last {here : Word} {e : LoopEntry} {rest : List LoopEntry} (hstop : e.stop = here) (hcount : e.count ≤ 1) :
    loopEnd here (e :: rest) = loopEnd here rest := by
  rw [loopEnd, if_pos hstop, if_neg (Nat.not_lt.mpr hcount)]

theorem walk_withTeam (s : State) (f : Team → Team) (p : BitVec 4) (va : Nat) (acc : Access) (base : Nat)
    (levels : List (Nat × Nat)) (ok : Bool) : walk (withTeam s f) p va acc base levels ok = walk s p va acc base levels ok := by
  induction levels generalizing base ok with
  | nil => rfl
  | cons l rest ih =>
    simp only [walk, ih]
    rfl

theorem translate_withTeam (s : State) (f : Team → Team) : Machine.translate (withTeam s f) = Machine.translate s := by
  funext p asid va acc
  simp only [Machine.translate, walk_withTeam]
  rfl

theorem fetchLine_withTeam (s : State) {t u : Team} (f : Team → Team) (hwho : u.who = t.who) (hobuf : u.obuf = t.obuf) :
    fetchLine (withTeam s f) u = fetchLine s t := by
  have hplace : u.part = t.part ∧ u.place = t.place := by injection hwho with hp _ hl; exact ⟨hp, hl⟩
  have hbyte : fetchByte (withTeam s f) u = fetchByte s t := by
    funext loc
    simp only [fetchByte, hobuf, hplace]
    rfl
  funext a
  simp only [fetchLine, fetchLoc, translate_withTeam, hbyte, hwho]
  rfl

/-- Whether an address may be landed on depends on the code that the team fetches and on nothing else of the team. -/
theorem badTarget_withTeam (s : State) {t u : Team} (f : Team → Team) (hwho : u.who = t.who) (hobuf : u.obuf = t.obuf) :
    badTarget (withTeam s f) u = badTarget s t := by
  funext a
  rw [badTarget, badTarget, tgtBit, tgtBit, fetchLine_withTeam s f hwho hobuf]

theorem badTarget_sset (s : State) (d : SReg) (v : Word) :
    badTarget { s with team := sset s.team d v } (sset s.team d v) = badTarget s s.team :=
  badTarget_withTeam s (fun t => sset t d v) (by simp [Team.who]) (sset_obuf ..)

theorem retireAt_of_loopEnd {s : State} {here tgt : Word} {ls : List LoopEntry} {back : Option Word}
    (h : loopEnd here s.team.lstk = (ls, back)) :
    retireAt s here tgt = goesOn (withTeam s fun t => { t with lstk := ls }) (back.getD tgt) := by
  simp only [retireAt, h]
  rfl

/-- The end of a loop is reached: the stack of loops takes what `loopEnd` leaves, and the PC its way back, if it may be landed
on (R171, R203). -/
theorem scalarWriter_ends {i : Instr} {d : SReg} {v : State → Word} {s s1 : State} {ls : List LoopEntry} {back : Option Word}
    (hexec : ∀ s, exec i s = issue i s fun u => retireScalar u d (v u)) (h : Runs i s s1)
    (hend : loopEnd s.team.pc s1.team.lstk = (ls, back)) (hback : ∀ a ∈ back, badTarget s1 s1.team a = none) :
    exec i s = .next (goesOn (withTeam s1 fun t => { sset t d (v s1) with lstk := ls }) (back.getD (nextPc i s))) := by
  have hwritten : loopEnd s.team.pc (sset s1.team d (v s1)).lstk = (ls, back) := by rw [sset_lstk, hend]
  rw [hexec, issue, checked_of_issues h.toIssues, retireScalar, retireWith, Eff.cleaned,
    unpoison_clean i ((sset_sPoison ..).trans h.cleanS) ((sset_vPoison ..).trans h.cleanV), conclude]
  simp only [retireChecked, hwritten]
  cases back with
  | none => exact congrArg Host.Outcome.next (retireAt_of_loopEnd hwritten)
  | some a =>
    simp only [badTarget_sset, hback a rfl]
    exact congrArg Host.Outcome.next (retireAt_of_loopEnd hwritten)

theorem loopEndsCountDown : LoopEndsCountDown := by
  intro i d s s1 hdest hruns
  obtain ⟨v, hissue⟩ := exec_of_scalarDest hdest
  refine ⟨v s1, fun e rest hstack hstop hcount hback => ?back, fun e rest hstack hstop hcount hnext => ?last,
    fun e x rest hstack hstop hcount hnext hrounds hback => ?outer⟩
  case back =>
    exact scalarWriter_ends hissue hruns (by rw [hstack, loopEnd_back hstop hcount]) fun a ha => by cases ha; exact hback
  case last =>
    exact scalarWriter_ends (back := none) hissue hruns (by rw [hstack, loopEnd_last hstop hcount, loopEnd_inner hnext]) nofun
  case outer =>
    exact scalarWriter_ends hissue hruns (by rw [hstack, loopEnd_last hstop hcount, loopEnd_back hnext hrounds])
      fun a ha => by cases ha; exact hback

/-- Settles O6, by the effect of LOOP and LOOPI in its three cases, and by what retiring makes of the innermost entries that
end at the instruction. -/
theorem loopsPushAndCountDown : Obligations.LoopsPushAndCountDown := ⟨loopsPushTheirEntry, loopEndsCountDown⟩

end Sys2Proof.ScalarControl
end

section
/-! PROOFS. Divergence (O7): MARK and ELSE change EM and the stack, and branch where the path to come is empty; JOIN. -/

namespace Sys2Proof.ScalarControl

open Sys2Proof.Machine

/-- MARK and ELSE with lanes on their path: EM and the stack change, and the PC moves on. -/
theorem issue_diverges {i : Instr} {s s1 : State} {em : Mask} {stk : List DivEntry} {tgt : Word} {body : State → Eff}
    (h : Goes i s s1) (hbody : body s1 = divergeTo s1 em stk tgt) (hem : em ≠ 0) :
    issue i s body = .next (goesOn (withTeam s1 fun t => { t with em := em, dstk := stk }) (nextPc i s)) := by
  refine issue_retireWith h ?_ rfl rfl h.inner
  rw [hbody, divergeTo, if_neg hem]
  rfl

/-- With none they pass over the path, if its end may be landed on. -/
theorem issue_passes {i : Instr} {s s1 : State} {em : Mask} {stk : List DivEntry} {tgt : Word} {body : State → Eff}
    (h : Goes i s s1) (hbody : body s1 = divergeTo s1 em stk tgt) (hem : em = 0) (hbranch : i.isBranch = false)
    (htgt : badTarget s s.team tgt = none) :
    issue i s body = .next (goesOn (withTeam s1 fun t => { t with em := 0, dstk := stk }) tgt) := by
  rw [divergeTo, if_pos hem, hem] at hbody
  exact issue_goto h.toIssues hbody h.cleanS h.cleanV h.inner hbranch htgt

theorem dispTarget_of_issues {i : Instr} {s s1 : State} {n : Nat} (h : Issues i s s1) (disp : BitVec n) :
    dispTarget s1 disp = s.team.pc + 4 * disp.signExtend 64 := by
  rw [dispTarget, pc_of_issues h]; rfl

/-- Settles O7: each of the three is one change of EM and the stack, and a path is passed over when no lane of EM takes it. -/
theorem divergenceMovesTheExecutionMask : Obligations.DivergenceMovesTheExecutionMask := by
  unfold Obligations.DivergenceMovesTheExecutionMask
  refine ⟨fun k disp s s1 h => ?mark, fun disp s s1 e rest h hstack => ?otherwise, fun s s1 e rest h hstack => ?join⟩
  case mark =>
    have htgt := dispTarget_of_issues h.toIssues disp
    exact ⟨fun hem => issue_diverges h (by rw [htgt]) hem, fun hem hland => issue_passes h (by rw [htgt]) hem rfl hland⟩
  case otherwise =>
    have htgt := dispTarget_of_issues h.toIssues disp
    exact ⟨fun hp => issue_diverges (tgt := s.team.pc + 4 * disp.signExtend 64) h (by simp only [hstack, htgt]) hp,
      fun hp hland => issue_passes h (by simp only [hstack, htgt]) hp rfl hland⟩
  case join =>
    exact issue_retireWith h (by simp only [hstack]) rfl rfl h.inner

end Sys2Proof.ScalarControl
end

section
/-! PROOFS. Which instructions of spec/09 write CC (O3, R185). -/

namespace Sys2Proof.ScalarControl

open Sys2Proof.Machine

/-- An instruction that is the checks at issue around an effect that leaves the flags. -/
def FlagsKept (i : Instr) : Prop :=
  ∃ body : State → Eff, (∀ s, exec i s = issue i s body) ∧ ∀ u, (effState (body u)).team.cc = u.team.cc

theorem flagsKept_of_scalarDest {i : Instr} {d : SReg} (h : scalarDest i = some d) : FlagsKept i := by
  obtain ⟨v, hexec⟩ := exec_of_scalarDest h
  exact ⟨_, hexec, fun u => sset_cc ..⟩

theorem loopEffect_cc (i : Instr) (e : BitVec 15) (n : Nat) (s : State) :
    (effState (loopEffect i e n s)).team.cc = s.team.cc := by
  simp only [loopEffect]
  split
  · rfl
  · split <;> rfl

theorem divergeTo_cc (s : State) (em : Mask) (stk : List DivEntry) (r : Word) :
    (effState (divergeTo s em stk r)).team.cc = s.team.cc := by
  simp only [divergeTo]
  split <;> rfl

/-- A branch, taken or not, carries its state unchanged. -/
theorem branch_cc (taken : State → Bool) (s : State) (tgt : Word) :
    (effState (if taken s then .goto s tgt else .retire s)).team.cc = s.team.cc := by
  split <;> rfl

theorem flagsKept_of_leavesFlags {i : Instr} (h : leavesFlags i = true) : FlagsKept i := by
  cases hdest : scalarDest i with
  | some d => exact flagsKept_of_scalarDest hdest
  | none =>
    have hcontrol : (leavesFlags i && (scalarDest i).isNone) = true := by rw [h, hdest]; rfl
    cases i
    case bc c disp => exact ⟨_, fun _ => rfl, fun u => branch_cc (fun s => condHolds c s.team) u _⟩
    case bmz k disp => exact ⟨_, fun _ => rfl, fun u => branch_cc (fun s => maskZero s.team k) u _⟩
    case bmnz k disp => exact ⟨_, fun _ => rfl, fun u => by split <;> rfl⟩
    case call | callr => exact ⟨_, fun _ => rfl, fun u => sset_cc ..⟩
    case jr | ret => exact ⟨_, fun _ => rfl, fun u => rfl⟩
    case loop | loopi => exact ⟨_, fun _ => rfl, fun u => loopEffect_cc ..⟩
    case mark => exact ⟨_, fun _ => rfl, fun u => divergeTo_cc ..⟩
    case divElse => exact ⟨_, fun _ => rfl, fun u => by
      split
      · exact divergeTo_cc ..
      · rfl⟩
    case join => exact ⟨_, fun _ => rfl, fun u => by split <;> rfl⟩
    case exit | yield => exact ⟨_, fun _ => rfl, fun u => rfl⟩
    all_goals cases hcontrol

/-! ### The three that write CC -/

/-- A team of 32 lanes at a line of code on which it may land, in ordered mode, where no SPAWN creates a child (R209). -/
def orderedTeam : State := withTeam (State.reset.withFetchWord 32 0x01041FFF) fun t => { t with mode := 0x20 }

/-- CC after an instruction of the current team. -/
def ccAfter (i : Instr) (s : State) : Option (BitVec 7) := match exec i s with
  | .next t => some t.team.cc
  | _ => none

theorem exists_of_ccAfter {i : Instr} {s : State} {c : BitVec 7} (h : ccAfter i s = some c) (hne : c ≠ s.team.cc) :
    ∃ s t, exec i s = .next t ∧ t.team.cc ≠ s.team.cc := by
  unfold ccAfter at h
  split at h
  · next t ht => cases h; exact ⟨s, t, ht, hne⟩
  · cases h

theorem cmp_writes_cc : ccAfter (.cmp ⟨0, true⟩ ⟨0, true⟩) orderedTeam = some 0x5 := by decide +kernel

theorem cmpi_writes_cc : ccAfter (.cmpi ⟨0, true⟩ 1) orderedTeam = some 0x2 := by decide +kernel

theorem spawn_writes_cc : ccAfter (.spawn 10 ⟨1, true⟩ 0) orderedTeam = some 0x41 := by decide +kernel

/-- Settles O3: the flags pass unchanged through every wait, stop and retirement, and the effects of the others leave them. -/
theorem onlyComparisonsAndSpawnWriteFlags : Obligations.OnlyComparisonsAndSpawnWriteFlags := by
  unfold Obligations.OnlyComparisonsAndSpawnWriteFlags
  refine ⟨fun i s t hleaves h => ?_, ⟨_, _, exists_of_ccAfter cmp_writes_cc (by decide)⟩,
    ⟨_, _, exists_of_ccAfter cmpi_writes_cc (by decide)⟩, ⟨_, _, _, exists_of_ccAfter spawn_writes_cc (by decide)⟩⟩
  obtain ⟨body, hexec, hbody⟩ := flagsKept_of_leavesFlags hleaves
  exact issue_cc hbody ((hexec s).symm.trans h)

end Sys2Proof.ScalarControl
end

section
/-! PROOFS. Scalar arithmetic (O1): the values of SALU as integers, and the flags of a comparison. -/

namespace Sys2Proof.ScalarControl

open Sys2Proof.Machine Sys2Proof.RegisterState

/-! ### The functions of SALU -/

theorem shiftLeft_eq_ofNat (x : Word) (n : Nat) : x <<< n = BitVec.ofNat 64 (x.toNat * 2 ^ n) :=
  BitVec.eq_of_toNat_eq (by rw [BitVec.toNat_shiftLeft, BitVec.toNat_ofNat, Nat.shiftLeft_eq])

theorem ushiftRight_eq_ofNat (x : Word) (n : Nat) : x >>> n = BitVec.ofNat 64 (x.toNat / 2 ^ n) := by
  rw [← Nat.shiftRight_eq_div_pow, ← BitVec.toNat_ushiftRight, BitVec.ofNat_toNat, BitVec.setWidth_eq]

theorem sshiftRight_eq_ofInt (x : Word) (n : Nat) : x.sshiftRight n = BitVec.ofInt 64 (x.toInt / 2 ^ n) := by
  rw [BitVec.sshiftRight, Int.shiftRight_eq_div_pow, natCast_two_pow]

/-- The words that the machine computes are the integers of R187, wrapped to 64 bits. -/
theorem saluOp_eq_saluValue (fn : SaluFn) (x y : Word) : saluOp fn x y = saluValue fn x y := by
  cases fn with
  | add => simp only [saluOp, saluValue, BitVec.ofInt_add, BitVec.ofInt_toInt]
  | sub =>
    simp only [saluOp, saluValue, Int.sub_eq_add_neg, BitVec.sub_eq_add_neg, BitVec.ofInt_add, BitVec.ofInt_neg,
      BitVec.ofInt_toInt]
  | mul => simp only [saluOp, saluValue, BitVec.ofInt_mul, BitVec.ofInt_toInt]
  | and | or | xor | andn | mulh | mulhn => rfl
  | shl => exact shiftLeft_eq_ofNat ..
  | shrl => exact ushiftRight_eq_ofNat ..
  | shra => exact sshiftRight_eq_ofInt ..
  | min => simp only [saluOp, saluValue, Int.min_def, apply_ite (BitVec.ofInt 64), BitVec.ofInt_toInt]
  | max => simp only [saluOp, saluValue, Int.max_def, apply_ite (BitVec.ofInt 64), BitVec.ofInt_toInt]
  | minn => simp only [saluOp, saluValue, Nat.min_def, apply_ite (BitVec.ofNat 64), BitVec.ofNat_toNat, BitVec.setWidth_eq]
  | maxn => simp only [saluOp, saluValue, Nat.max_def, apply_ite (BitVec.ofNat 64), BitVec.ofNat_toNat, BitVec.setWidth_eq]

theorem saluWritesItsFunction : SaluWritesItsFunction := by
  have salu {c : SReg → SSrc → SSrc → Instr} {fn : SaluFn}
      (hexec : ∀ d a b s, exec (c d a b) s = scalar2 (c d a b) d a b (saluOp fn) s) : Scalar2Is c (saluValue fn) :=
    scalar2Is_of_scalar2 hexec (saluOp_eq_saluValue fn)
  exact ⟨salu fun _ _ _ _ => rfl, salu fun _ _ _ _ => rfl, salu fun _ _ _ _ => rfl, salu fun _ _ _ _ => rfl,
    salu fun _ _ _ _ => rfl, salu fun _ _ _ _ => rfl, salu fun _ _ _ _ => rfl, salu fun _ _ _ _ => rfl,
    salu fun _ _ _ _ => rfl, salu fun _ _ _ _ => rfl, salu fun _ _ _ _ => rfl, salu fun _ _ _ _ => rfl,
    salu fun _ _ _ _ => rfl, salu fun _ _ _ _ => rfl, salu fun _ _ _ _ => rfl, salu fun _ _ _ _ => rfl⟩

theorem immediateFormsWriteTheirFunction : ImmediateFormsWriteTheirFunction :=
  ⟨fun fn l => scalar1Is_of_scalar1 (g := fun x => saluOp fn x (sext64 l)) (fun _ _ _ => rfl)
      fun x => saluOp_eq_saluValue fn x (l.signExtend 64),
    fun imm => scalar1Is_of_scalar1 (g := (· + sext64 imm)) (fun _ _ _ => rfl)
      fun x => saluOp_eq_saluValue .add x (imm.signExtend 64),
    fun imm => scalar1Is_of_scalar1 (g := (· &&& sext64 imm)) (fun _ _ _ => rfl) fun _ => rfl,
    fun imm => scalar1Is_of_scalar1 (g := (· ||| sext64 imm)) (fun _ _ _ => rfl) fun _ => rfl,
    fun imm => scalar1Is_of_scalar1 (g := (· ^^^ sext64 imm)) (fun _ _ _ => rfl) fun _ => rfl,
    fun n => scalar1Is_of_scalar1 (g := (· <<< n.toNat)) (fun _ _ _ => rfl) fun x => shiftLeft_eq_ofNat x n.toNat,
    fun n => scalar1Is_of_scalar1 (g := (· >>> n.toNat)) (fun _ _ _ => rfl) fun x => ushiftRight_eq_ofNat x n.toNat,
    fun n => scalar1Is_of_scalar1 (g := (·.sshiftRight n.toNat)) (fun _ _ _ => rfl)
      fun x => sshiftRight_eq_ofInt x n.toNat⟩

/-! ### Comparison -/

/-- The four flags that a comparison writes, from four conditions. -/
theorem cmpBits_eq (z n c v : Bool) : BitVec.ofNat 7 (bitIf z ccZ + bitIf n ccN + bitIf c ccC + bitIf v ccV) &&&
      BitVec.ofNat 7 (ccZ + ccN + ccC + ccV) =
    ((if z then 1 else 0) ||| (if n then 2 else 0) ||| (if c then 4 else 0) ||| (if v then 8 else 0) : BitVec 7) := by
  revert z n c v
  decide

theorem setCmp_eq (t : Team) (x y : Word) : setCmp t x y = { t with cc := comparedFlags x y t.cc } := by
  have hkept : ~~~BitVec.ofNat 7 (ccZ + ccN + ccC + ccV) = 0x70 := rfl
  simp only [setCmp, setCC, cmpFlags, hkept, cmpBits_eq, comparedFlags, beq_iff_eq, decide_eq_true_eq, Bool.or_eq_true,
    BitVec.or_assoc]

theorem teamIs_of_setCmp {i : Instr} {x y : Team → Word}
    (hexec : ∀ s, exec i s = issue i s fun u => retireWith u fun t => setCmp t (x t) (y t)) :
    TeamIs i fun s t => { t with cc := comparedFlags (x s.team) (y s.team) t.cc } := by
  intro s s1 h
  rw [hexec]
  refine issue_retireWith h ?_ rfl rfl h.inner
  simp only [retireWith, setCmp_eq]

theorem comparisonsSetFourFlags : ComparisonsSetFourFlags :=
  ⟨fun a b => teamIs_of_setCmp (x := (sget · a.r)) (y := (sget · b.r)) fun _ => rfl,
    fun a imm => teamIs_of_setCmp (x := (sget · a.r)) (y := fun _ => sext64 imm) fun _ => rfl⟩

/-- Settles O1: each function of SALU is its integer wrapped to 64 bits, and a comparison writes four flags one by one. -/
theorem scalarArithmeticWritesItsResult : Obligations.ScalarArithmeticWritesItsResult :=
  ⟨saluWritesItsFunction, immediateFormsWriteTheirFunction, comparisonsSetFourFlags⟩

end Sys2Proof.ScalarControl
end

section
/-! PROOFS. Bit functions, fields, literals and LEA (O2): what each writes (R192-R195). -/

namespace Sys2Proof.ScalarControl

open Sys2Proof.Machine

/-! ### Counts and positions of set bits -/

theorem popNat_eq_countP (n x : Nat) : popNat n x = (List.range n).countP x.testBit := by
  induction n generalizing x with
  | zero => rfl
  | succ n ih =>
    have hrest : x.testBit ∘ Nat.succ = (x / 2).testBit := funext fun i => Nat.testBit_succ x i
    rw [popNat, ih, List.range_succ_eq_map, List.countP_cons, List.countP_map, hrest, Nat.add_comm]
    rcases Nat.mod_two_eq_zero_or_one x with h | h <;> simp [h, Nat.testBit_zero]

theorem lowBit_eq_find (n i x : Nat) : lowBit n i x = ((List.range n).find? x.testBit).map (· + i) := by
  induction n generalizing i x with
  | zero => rfl
  | succ n ih =>
    have hrest : x.testBit ∘ Nat.succ = (x / 2).testBit := funext fun i => Nat.testBit_succ x i
    rw [lowBit, ih, List.range_succ_eq_map, List.find?_cons, List.find?_map, hrest, Nat.testBit_zero]
    rcases Nat.mod_two_eq_zero_or_one x with h | h
    · simp [h, Function.comp_def, Nat.add_comm 1, Nat.add_assoc]
    · simp [h]

/-- The highest set bit is the first from above. -/
theorem clzNat_eq_find (x : Word) :
    clzNat 64 x.toNat = ((List.range 64).find? fun i => x.getLsbD (63 - i)).getD 64 := by
  by_cases hx : x.toNat = 0
  · have hnone : ((List.range 64).find? fun i => x.getLsbD (63 - i)) = none :=
      List.find?_range_eq_none.mpr fun i _ => by simp [← BitVec.testBit_toNat, hx]
    rw [clzNat, if_pos hx, hnone]; rfl
  · have hlog : x.toNat.log2 < 64 := (Nat.log2_lt hx).mpr x.isLt
    have hfirst : ((List.range 64).find? fun i => x.getLsbD (63 - i)) = some (63 - x.toNat.log2) := by
      refine List.find?_range_eq_some.mpr ⟨?_, List.mem_range.mpr (by omega), fun j hj => ?_⟩
      · rw [← BitVec.testBit_toNat, show 63 - (63 - x.toNat.log2) = x.toNat.log2 by omega]
        exact Nat.testBit_log2 hx
      · rw [← BitVec.testBit_toNat, Nat.testBit_lt_two_pow]
        · rfl
        · exact (Nat.log2_lt hx).mp (by omega)
    rw [clzNat, if_neg hx, hfirst]; rfl

/-! ### Reversal and extensions -/

theorem brevNat_lt (n x : Nat) : brevNat n x < 2 ^ n := by
  induction n generalizing x with
  | zero => exact Nat.one_pos
  | succ n ih =>
    have hlow := Nat.mod_lt x Nat.two_pos
    have hrest := ih (x / 2)
    rw [brevNat, Nat.pow_succ]
    have : x % 2 * 2 ^ n ≤ 1 * 2 ^ n := Nat.mul_le_mul_right _ (by omega)
    omega

theorem testBit_brevNat {n j : Nat} (hj : j < n) (x : Nat) : (brevNat n x).testBit j = x.testBit (n - 1 - j) := by
  induction n generalizing x with
  | zero => exact absurd hj (Nat.not_lt_zero j)
  | succ n ih =>
    rw [brevNat, Nat.mul_comm, Nat.testBit_two_pow_mul_add _ (brevNat_lt n _)]
    split
    · next h => rw [ih h, ← Nat.testBit_succ]; congr 1; omega
    · next h =>
      obtain rfl : j = n := by omega
      simp [Nat.testBit_zero]

theorem brev_eq_reverse (x : Word) : BitVec.ofNat 64 (brevNat 64 x.toNat) = x.reverse := by
  refine BitVec.eq_of_getLsbD_eq fun j hj => ?_
  rw [BitVec.getLsbD_ofNat, decide_eq_true hj, Bool.true_and, testBit_brevNat hj, BitVec.getLsbD_reverse,
    BitVec.getMsbD, decide_eq_true hj, Bool.true_and, BitVec.testBit_toNat]

/-- An extension with zeros is a mask. -/
theorem setWidth_setWidth_eq_and (x : Word) {w : Nat} (hw : w ≤ 64) :
    (x.setWidth w).setWidth 64 = x &&& BitVec.ofNat 64 (2 ^ w - 1) := by
  refine BitVec.eq_of_toNat_eq ?_
  have hmask : 2 ^ w - 1 < 2 ^ 64 := by
    have := Nat.pow_le_pow_right Nat.two_pos hw
    have := Nat.two_pow_pos w
    omega
  rw [BitVec.toNat_and, BitVec.toNat_ofNat, Nat.mod_eq_of_lt hmask, Nat.and_two_pow_sub_one_eq_mod, BitVec.toNat_setWidth,
    BitVec.toNat_setWidth]
  exact Nat.mod_eq_of_lt (Nat.lt_of_le_of_lt (Nat.mod_le ..) x.isLt)

theorem ctz_eq_find (x : Word) : (lowBit 64 0 x.toNat).getD 64 = ((List.range 64).find? fun i => x.getLsbD i).getD 64 := by
  rw [lowBit_eq_find]
  simp only [Nat.add_zero, Option.map_id']
  rfl

theorem bitFunctionsWriteTheirValue : BitFunctionsWriteTheirValue :=
  ⟨scalar1Is_of_scalar1 (g := fun x => BitVec.ofNat 64 (popNat 64 x.toNat)) (fun _ _ _ => rfl)
      fun x => congrArg (BitVec.ofNat 64) (popNat_eq_countP 64 x.toNat),
    scalar1Is_of_scalar1 (g := fun x => BitVec.ofNat 64 (clzNat 64 x.toNat)) (fun _ _ _ => rfl)
      fun x => congrArg (BitVec.ofNat 64) (clzNat_eq_find x),
    scalar1Is_of_scalar1 (g := fun x => BitVec.ofNat 64 ((lowBit 64 0 x.toNat).getD 64)) (fun _ _ _ => rfl)
      fun x => congrArg (BitVec.ofNat 64) (ctz_eq_find x),
    scalar1Is_of_scalar1 (g := fun x => BitVec.ofNat 64 (brevNat 64 x.toNat)) (fun _ _ _ => rfl) brev_eq_reverse,
    scalar1Is_of_scalar1 (g := fun x => (x.setWidth 8).signExtend 64) (fun _ _ _ => rfl) fun _ => rfl,
    scalar1Is_of_scalar1 (g := fun x => (x.setWidth 16).signExtend 64) (fun _ _ _ => rfl) fun _ => rfl,
    scalar1Is_of_scalar1 (g := fun x => (x.setWidth 32).signExtend 64) (fun _ _ _ => rfl) fun _ => rfl,
    scalar1Is_of_scalar1 (g := fun x => (x.setWidth 8).setWidth 64) (fun _ _ _ => rfl)
      fun x => setWidth_setWidth_eq_and x (w := 8) (by decide),
    scalar1Is_of_scalar1 (g := fun x => (x.setWidth 16).setWidth 64) (fun _ _ _ => rfl)
      fun x => setWidth_setWidth_eq_and x (w := 16) (by decide),
    scalar1Is_of_scalar1 (g := fun x => (x.setWidth 32).setWidth 64) (fun _ _ _ => rfl)
      fun x => setWidth_setWidth_eq_and x (w := 32) (by decide)⟩

/-! ### Fields -/

/-- The signed reading of a field of n bits is its sign extension. -/
theorem ofInt_toSigned {n f : Nat} (hf : f < 2 ^ n) :
    BitVec.ofInt 64 (toSigned n f) = (BitVec.ofNat n f).signExtend 64 := by
  rw [BitVec.signExtend, BitVec.toInt_eq_toNat_cond, BitVec.toNat_ofNat, Nat.mod_eq_of_lt hf, toSigned]

theorem testBit_field (x lo n j : Nat) : (x / 2 ^ lo % 2 ^ n).testBit j = (decide (j < n) && x.testBit (lo + j)) := by
  rw [Nat.testBit_mod_two_pow, Nat.testBit_div_two_pow, Nat.add_comm]

theorem getLsbD_bfxOp (sx : Bool) (x : Word) (lo : Nat) {m j : Nat} (hj : j < 64) :
    (bfxOp sx x lo (m + 1)).getLsbD j = if j ≤ m then x.getLsbD (lo + j) else sx && x.getLsbD (lo + m) := by
  have hfield := Nat.mod_lt (x.toNat / 2 ^ lo) (Nat.two_pow_pos (m + 1))
  cases sx with
  | false =>
    simp only [bfxOp, Bool.false_eq_true, if_false, BitVec.getLsbD_ofNat, testBit_field, hj, decide_true, Bool.true_and,
      BitVec.testBit_toNat, Bool.false_and, Nat.lt_succ_iff]
    split <;> simp [*]
  | true =>
    simp only [bfxOp, if_true, ofInt_toSigned hfield, BitVec.getLsbD_signExtend, BitVec.msb_eq_getLsbD_last,
      BitVec.getLsbD_ofNat, testBit_field, hj, decide_true, Bool.true_and, BitVec.testBit_toNat, Nat.lt_succ_iff,
      Nat.add_sub_cancel, Nat.le_refl]
    split <;> simp [*]

/-- The bits of a word put together from three fields. -/
theorem testBit_fields {lo n b c : Nat} (hc : c < 2 ^ lo) (hb : b < 2 ^ n) (a j : Nat) :
    (c + b * 2 ^ lo + a * 2 ^ (lo + n)).testBit j =
      if j < lo then c.testBit j else if j < lo + n then b.testBit (j - lo) else a.testBit (j - (lo + n)) := by
  have hlow : 2 ^ lo * b + c < 2 ^ (lo + n) := by
    rw [Nat.pow_add]
    have := Nat.mul_le_mul_left (2 ^ lo) (Nat.succ_le_of_lt hb)
    rw [Nat.mul_succ] at this
    omega
  rw [Nat.add_comm c, Nat.mul_comm b, Nat.mul_comm a, Nat.add_comm, Nat.testBit_two_pow_mul_add a hlow,
    Nat.testBit_two_pow_mul_add b hc]
  by_cases hbelow : j < lo
  · have hin : j < lo + n := by omega
    simp only [hbelow, hin, if_true]
  · simp only [hbelow, if_false]

theorem getLsbD_bfiOp (x y : Word) {lo m j : Nat} (hj : j < 64) :
    (bfiOp x y lo (m + 1)).getLsbD j = if lo ≤ j ∧ j ≤ lo + m then x.getLsbD (j - lo) else y.getLsbD j := by
  have hlow := Nat.mod_lt y.toNat (Nat.two_pow_pos lo)
  have hfield := Nat.mod_lt x.toNat (Nat.two_pow_pos (m + 1))
  have hwidth : lo + (m + 1) - lo = m + 1 := Nat.add_sub_cancel_left ..
  have htop : lo + (m + 1) - 1 + 1 = lo + (m + 1) := by omega
  simp only [bfiOp, setFld, hwidth, htop, Nat.mod_mod, BitVec.getLsbD_ofNat, hj, decide_true, Bool.true_and,
    testBit_fields hlow hfield, Nat.testBit_mod_two_pow, Nat.testBit_shiftRight, BitVec.testBit_toNat]
  by_cases hbelow : j < lo
  · simp [hbelow, Nat.not_le.mpr hbelow]
  · by_cases hin : j < lo + (m + 1)
    · have hfield : j - lo < m + 1 ∧ lo ≤ j ∧ j ≤ lo + m := by omega
      simp [hbelow, hin, hfield]
    · have habove : ¬(lo ≤ j ∧ j ≤ lo + m) ∧ lo + (m + 1) + (j - (lo + (m + 1))) = j := by omega
      simp only [hbelow, hin, habove, if_false]

theorem append_eq_ofNat (v : BitVec 32) (x : Word) :
    v ++ x.setWidth 32 = BitVec.ofNat 64 (v.toNat * 2 ^ 32 + x.toNat % 2 ^ 32) := by
  have hlow := Nat.mod_lt x.toNat (Nat.two_pow_pos 32)
  refine BitVec.eq_of_toNat_eq ?_
  rw [BitVec.toNat_append, BitVec.toNat_setWidth, ← Nat.shiftLeft_add_eq_or_of_lt hlow, Nat.shiftLeft_eq, BitVec.toNat_ofNat,
    Nat.mod_eq_of_lt (a := v.toNat * 2 ^ 32 + x.toNat % 2 ^ 32) (by omega)]

theorem fieldsAndLiteralsWriteTheirValue : FieldsAndLiteralsWriteTheirValue :=
  ⟨fun sx d a lo nm1 _ s s1 h =>
      ⟨_, scalarIs_of_issue (v := fun u => bfxOp sx (sget u.team a.r) lo.toNat (nm1.toNat + 1)) (fun _ => rfl) s s1 h,
        fun j hj => getLsbD_bfxOp sx _ _ hj⟩,
    fun d a b lo nm1 _ s s1 h =>
      ⟨_, scalarIs_of_issue (v := fun u => bfiOp (sget u.team a.r) (sget u.team b.r) lo.toNat (nm1.toNat + 1))
          (fun _ => rfl) s s1 h, fun j hj => getLsbD_bfiOp _ _ hj⟩,
    fun _ v => scalarIs_of_issue (v := fun _ => sext64 v) fun _ => rfl,
    fun _ v => scalarIs_of_issue (v := fun _ => zext64 v) fun _ => rfl,
    fun d v => by
      simp only [← append_eq_ofNat]
      exact scalarIs_of_issue fun _ => rfl⟩

/-! ### LEA -/

/-- In the local window LEA looks its address up as an access to the byte would (R69, R194). -/
theorem leaOp_of_inWindow {s : State} {w : Word} (hlow : localBase ≤ w.toNat) (hhigh : w.toNat < localBase + 2 ^ 21) :
    leaOp s w = match decodeWindow s s.team.who w.toNat 1 .rd with
      | some (.ok loc) => BitVec.ofNat 64 (apertureBase + (loc - locBase 4))
      | _ => w := by
  have hplace : s.team.who.place = s.team.place := rfl
  simp only [leaOp, decodeWindow, hlow, hhigh, decide_true, Bool.and_true, Bool.and_self, if_true, hplace]
  by_cases hdie : s.team.place.die = 8
  · simp only [hdie]; rfl
  · simp only [bne_iff_ne, ne_eq, hdie, not_false_eq_true, if_true, if_false]
    cases localBlock s s.team.who (w.toNat - localBase) with
    | none => rfl
    | some x =>
      obtain ⟨b, off⟩ := x
      by_cases hin : off < b.size
      · have hin' : off + 1 ≤ b.size := hin
        simp only [hin, hin', if_true, locScratch]
        refine congrArg (BitVec.ofNat 64) ?_
        omega
      · have hin' : ¬off + 1 ≤ b.size := hin
        simp only [hin, hin', if_false]

theorem leaOp_of_outside {s : State} {w : Word} (h : ¬(localBase ≤ w.toNat ∧ w.toNat < localBase + 2 ^ 21)) :
    leaOp s w = w := by
  refine if_neg fun hin => h ?_
  simp only [Bool.and_eq_true, decide_eq_true_eq] at hin
  exact ⟨hin.1.2, hin.2⟩

theorem leaNamesTheSameByte : LeaNamesTheSameByte := by
  have hlea {d : SReg} {a b : SSrc} {s s1 : State} (h : Goes (.lea d a b) s s1) :
      exec (.lea d a b) s = .next (goesOn (withTeam s1 fun t => sset t d (leaOp s1 (sget s1.team a.r + sget s1.team b.r)))
        (nextPc (.lea d a b) s)) :=
    scalarIs_of_issue (v := fun u => leaOp u (sget u.team a.r + sget u.team b.r)) (fun _ => rfl) s s1 h
  refine ⟨fun d a b s s1 loc h hlow hhigh hdecoded => ?_, fun d a b s s1 h hundecoded => ?_⟩ <;> rw [hlea h]
  · rw [leaOp_of_inWindow hlow hhigh, hdecoded]
  · by_cases hwindow : localBase ≤ (sget s1.team a.r + sget s1.team b.r).toNat ∧
        (sget s1.team a.r + sget s1.team b.r).toNat < localBase + 2 ^ 21
    · rw [leaOp_of_inWindow hwindow.1 hwindow.2, hundecoded hwindow.1 hwindow.2]
    · rw [leaOp_of_outside hwindow]

/-- Settles O2: counts, reversals and fields are compared bit by bit, and LEA with the decoding of the local window. -/
theorem bitsFieldsAndAddressesWriteTheirValue : Obligations.BitsFieldsAndAddressesWriteTheirValue :=
  ⟨bitFunctionsWriteTheirValue, fieldsAndLiteralsWriteTheirValue, leaNamesTheSameByte⟩

end Sys2Proof.ScalarControl
end

section
/-! PROOFS. The vector datapath over the lanes (R24, R175, R176, R215, R216): which lanes an instruction does, what stands in
each sub-element of its operands, and that its effect on the lanes is all that it does. -/

namespace Sys2Proof.VectorInstructions

open Sys2Proof.Machine Sys2Proof.RegisterState Sys2Proof.NumberFormats Sys2Proof.ScalarControl

/-! ### Lanes -/

theorem mem_lanesToDo_iff (t : Team) (k : KReg) (l : Nat) : l ∈ lanesToDo t k ↔ ToDo t k l := by
  simp only [lanesToDo, activeLanes_eq_lanesOn, lanesOn, List.mem_filter, List.mem_range, Bool.and_eq_true, decide_eq_true_iff,
    startWord_le_iff, Bool.or_eq_true, Bool.not_eq_true', ToDo, and_assoc]
  cases t.pix.getLsbD 63 <;> simp

/-- A write to some lanes reaches the vector registers alone. -/
theorem vsetLanes_eq (t : Team) (d : VReg) (ls : List Nat) (g : Nat → Word) :
    vsetLanes t d ls g = { t with vregs := (vsetLanes t d ls g).vregs } := by
  induction ls generalizing t with
  | nil => rfl
  | cons l ls ih => exact ih (vset t l d (g l))

/-- An instruction that writes a lane-register in every lane to do is one of the datapath. -/
theorem lanesIs_of_mapLanes {i : Instr} {d : VReg} {k : KReg} {w : Nat} {f : Team → Nat → Nat → Nat} (g : Team → Nat → Word)
    (hexec : ∀ s, exec i s = mapLanes i d k g s)
    (hg : ∀ t l j, w * (j + 1) ≤ 64 → sub w (g t l) j = f t l j % 2 ^ w) : LanesIs i d k w f := by
  intro s s1 h
  refine ⟨(vsetLanes s1.team d (lanesToDo s1.team k) (g s1.team)).vregs, ?_, fun l r hout => ?_, fun l hl j hj => ?_⟩
  · rw [hexec]
    exact issue_retireWith h (congrArg (fun t => Eff.retire { s1 with team := t }) (vsetLanes_eq ..)) rfl rfl h.inner
  · refine (vget_vsetLanes s1.team d r _ (g s1.team) l).trans (if_neg fun hin => hout ⟨hin.2, ?_⟩)
    exact (mem_lanesToDo_iff ..).mp hin.1
  · have hin := (mem_lanesToDo_iff ..).mpr hl
    exact (congrArg (sub w · j) ((vget_vsetLanes s1.team d d _ (g s1.team) l).trans (if_pos ⟨hin, rfl⟩))).trans
      (hg s1.team l j hj)

/-! ### Operands -/

theorem sub_lt (w : Nat) (x : Word) (j : Nat) : sub w x j < 2 ^ w := Nat.mod_lt _ (Nat.two_pow_pos w)

theorem subA_lt (t : Team) (w : Nat) (a : VA) (l j : Nat) : subA t w a l j < 2 ^ w := by
  cases a with
  | vec r => exact sub_lt w _ j
  | scal r => exact Nat.mod_lt _ (Nat.two_pow_pos w)

theorem subB_lt (t : Team) (w : Nat) (wide : BitVec 32 → Word) (b : VB) (l j : Nat) : subB t w wide b l j < 2 ^ w := by
  cases b with
  | vec r => exact sub_lt w _ j
  | scal r => exact Nat.mod_lt _ (Nat.two_pow_pos w)
  | lit v =>
    simp only [subB]
    split
    · next h => subst h; exact (wide v).isLt
    · exact Nat.mod_lt _ (Nat.two_pow_pos w)

section
variable {w j : Nat} (hw : 0 < w) (h : w * (j + 1) ≤ 64)
include hw h

theorem sub_splat (v : Nat) : sub w (splat w v) j = v % 2 ^ w := by
  simp only [splat, sub_packElems_range hw h, Nat.mod_mod]

theorem sub_bVal (t : Team) (wide : BitVec 32 → Word) (b : VB) (l : Nat) :
    sub w (bVal t w wide b l) j = subB t w wide b l j := by
  cases b with
  | vec r => rfl
  | scal r => exact sub_splat hw h _
  | lit v =>
    by_cases h64 : w = 64
    · subst h64
      obtain rfl : j = 0 := by omega
      simp only [bVal, subB, if_true, sub_64_zero]
    · simp only [bVal, subB, if_neg h64, sub_splat hw h]

theorem sub_map2 (f : Nat → Nat → Nat) (x y : Word) : sub w (map2 w f x y) j = f (sub w x j) (sub w y j) % 2 ^ w := by
  simp only [map2, elems, List.zipWith_map, List.zipWith_self, sub_packElems_range hw h, elem_eq_sub]

theorem sub_map3 (f : Nat → Nat → Nat → Nat) (x y z : Word) :
    sub w (map3 w f x y z) j = f (sub w x j) (sub w y j) (sub w z j) % 2 ^ w := by
  simp only [map3, elems, List.zipWith_map, List.zipWith_self, sub_packElems_range hw h, elem_eq_sub]

end

/-! ### Shapes -/

theorem vec1Is_of_vecUn {c : VUn → Instr} {f g : Nat → Nat → Nat} (hexec : ∀ o s, exec (c o) s = vecUn (c o) o g s)
    (hfun : ∀ {w}, 0 < w → ∀ x < 2 ^ w, g w x = f w x) : Vec1Is c f :=
  fun o => lanesIs_of_mapLanes (fun t l => map1 o.es.bits (g o.es.bits) (aVal t o.es.bits o.a l)) (hexec o) fun t l j hj => by
    have hw := width_bits_pos o.es
    rw [sub_map1 hw hj, sub_aVal hw hj, hfun hw _ (subA_lt ..)]

theorem vec2Is_of_vecBin {c : VBin → Instr} {f g : Nat → Nat → Nat → Nat} (hexec : ∀ o s, exec (c o) s = vecBin (c o) o g s)
    (hfun : ∀ {w}, 0 < w → ∀ x < 2 ^ w, ∀ y < 2 ^ w, g w x y = f w x y) : Vec2Is c f :=
  fun o => lanesIs_of_mapLanes
    (fun t l => map2 o.es.bits (g o.es.bits) (aVal t o.es.bits o.a l) (bVal t o.es.bits intLit o.b l)) (hexec o)
    fun t l j hj => by
      have hw := width_bits_pos o.es
      rw [sub_map2 hw hj, sub_aVal hw hj, sub_bVal hw hj, hfun hw _ (subA_lt ..) _ (subB_lt ..)]
      rfl

theorem vec3Is_of_vecTri {c : VTri → Instr} {f g : Nat → Nat → Nat → Nat → Nat}
    (hexec : ∀ o s, exec (c o) s = vecTri (c o) o g s) (hfun : ∀ {w}, 0 < w → ∀ x y z, g w x y z = f w x y z) :
    Vec3Is c f :=
  fun o => lanesIs_of_mapLanes
    (fun t l => map3 o.es.bits (g o.es.bits) (aVal t o.es.bits o.a l) (bVal t o.es.bits intLit o.b l) (vget t l o.c.r))
    (hexec o) fun t l j hj => by
      have hw := width_bits_pos o.es
      rw [sub_map3 hw hj, sub_aVal hw hj, sub_bVal hw hj, hfun hw]
      rfl

end Sys2Proof.VectorInstructions
end

section
/-! PROOFS. The integer vector instructions (O9): the functions of one sub-element as exact integers brought to the width (R116,
R219-R222). -/

namespace Sys2Proof.VectorInstructions

open Sys2Proof.Machine Sys2Proof.RegisterState

/-! ### Functions of one sub-element -/

theorem wrapInt_eq_fit (w : Nat) (r : Int) : wrapInt w r = fit false w r := satOf_eq_fit false w r

theorem satS_eq_fit (w : Nat) (r : Int) : satS w r = fit true w r := satOf_eq_fit true w r

/-- A naturally saturated number is below 2^w already. -/
theorem satN_eq (w : Nat) (r : Int) : satN w r = (max 0 (min r (2 ^ w - 1))).toNat := by
  have hpos := Nat.two_pow_pos w
  rw [satN, wrapInt, clamp_eq (by omega), natCast_two_pow, Int.emod_eq_of_lt (by omega) (by rw [← natCast_two_pow]; omega)]

section
variable {w : Nat} (hw : 0 < w)
include hw

theorem addElem_eq_fitN (sat : Sat) (x y : Nat) : addElem sat w x y = fitN sat w (sgn w x + sgn w y) ((x : Int) + y) := by
  cases sat <;> simp only [addElem, fitN, toSigned_eq_sgn hw, wrapInt_eq_fit, satS_eq_fit, satN_eq]

theorem subElem_eq_fitN (sat : Sat) (x y : Nat) : subElem sat w x y = fitN sat w (sgn w x - sgn w y) ((x : Int) - y) := by
  cases sat <;> simp only [subElem, fitN, toSigned_eq_sgn hw, wrapInt_eq_fit, satS_eq_fit, satN_eq]

theorem shlElem_eq_fit (sat : Bool) (x y : Nat) : shlElem sat w x y = fit sat w (sgn w x * 2 ^ (y % w)) := by
  rw [shlElem, satOf_eq_fit, toSigned_eq_sgn hw, natCast_two_pow]

theorem shraElem_eq_fit (x y : Nat) : shraElem w x y = fit false w (sgn w x / 2 ^ (y % w)) := by
  rw [shraElem, wrapInt_eq_fit, toSigned_eq_sgn hw, natCast_two_pow]

theorem eq_of_sgn_eq {x y : Nat} (hx : x < 2 ^ w) (hy : y < 2 ^ w) (h : sgn w x = sgn w y) : x = y := by
  have hpow := two_pow_eq_two_mul hw
  simp only [sgn, ← natCast_two_pow] at h
  split at h <;> split at h <;> omega

/-- Of two sub-elements with one value, which are one pattern, it does not matter which is taken. -/
theorem ite_sgn_le_eq_ite_lt {x y : Nat} (hx : x < 2 ^ w) (hy : y < 2 ^ w) {f : Nat → Nat → Nat} (hf : ∀ z, f z z = z) :
    (if sgn w x ≤ sgn w y then f x y else f y x) = if sgn w x < sgn w y then f x y else f y x := by
  rcases Int.lt_trichotomy (sgn w x) (sgn w y) with h | h | h
  · rw [if_pos h, if_pos (Int.le_of_lt h)]
  · rw [eq_of_sgn_eq hw hx hy h, hf, ite_self, ite_self]
  · rw [if_neg (Int.not_le.mpr h), if_neg (Int.lt_asymm h)]

theorem minElem_eq {x y : Nat} (hx : x < 2 ^ w) (hy : y < 2 ^ w) : minElem w x y = if sgn w x < sgn w y then x else y := by
  rw [minElem, toSigned_eq_sgn hw, toSigned_eq_sgn hw]
  exact ite_sgn_le_eq_ite_lt hw hx hy (f := fun a _ => a) fun _ => rfl

theorem maxElem_eq {x y : Nat} (hx : x < 2 ^ w) (hy : y < 2 ^ w) : maxElem w x y = if sgn w x < sgn w y then y else x := by
  rw [maxElem, toSigned_eq_sgn hw, toSigned_eq_sgn hw]
  exact ite_sgn_le_eq_ite_lt hw hx hy (f := fun _ b => b) fun _ => rfl

theorem absElem_eq_fit (sat : Bool) (x : Nat) :
    absElem sat w x = fit sat w (if sgn w x < 0 then -sgn w x else sgn w x) := by
  rw [absElem, satOf_eq_fit, toSigned_eq_sgn hw]
  congr 1
  omega

theorem negElem_eq_fit (sat : Bool) (x : Nat) : negElem sat w x = fit sat w (-sgn w x) := by
  rw [negElem, satOf_eq_fit, toSigned_eq_sgn hw]

theorem mulElem_eq_fit (sat : Bool) (x y : Nat) : mulElem sat w x y = fit sat w (sgn w x * sgn w y) := by
  rw [mulElem, satOf_eq_fit, toSigned_eq_sgn hw, toSigned_eq_sgn hw]

theorem mulhElem_eq_fit (x y : Nat) : mulhElem w x y = fit false w (sgn w x * sgn w y / 2 ^ w) := by
  rw [mulhElem, wrapInt_eq_fit, toSigned_eq_sgn hw, toSigned_eq_sgn hw, natCast_two_pow]

theorem madElem_eq_fit (sat : Bool) (x y z : Nat) :
    madElem sat w x y z = fit sat w (sgn w x * sgn w y + sgn w z) := by
  rw [madElem, satOf_eq_fit, toSigned_eq_sgn hw, toSigned_eq_sgn hw, toSigned_eq_sgn hw]

theorem cmpElem_eq_vcmpTest (fn : CmpFn) (x y : Nat) : cmpElem fn w x y = vcmpTest fn w x y := by
  simp only [cmpElem, toSigned_eq_sgn hw]
  cases fn with
  | eq => exact Bool.eq_iff_iff.mpr (beq_iff_eq.trans decide_eq_true_iff.symm)
  | ne => exact Bool.eq_iff_iff.mpr (bne_iff_ne.trans decide_eq_true_iff.symm)
  | lt | le | gt | ge | ltn | len | gtn | gen => rfl

end

/-! ### The tables -/

theorem valuMovIs (d : VReg) (k : KReg) (es : Width) (b : VB) :
    LanesIs (.valuMov d k es b) d k es.bits fun t l j => subB t es.bits wideInt b l j :=
  lanesIs_of_mapLanes (fun t l => bVal t es.bits intLit b l) (fun _ => rfl) fun t l j hj => by
    rw [sub_bVal (width_bits_pos es) hj, Nat.mod_eq_of_lt (subB_lt ..)]
    rfl

theorem vectorArithmeticFollowsItsTable : VectorArithmeticFollowsItsTable :=
  ⟨fun sat => vec2Is_of_vecBin (g := addElem sat) (fun _ _ => rfl) fun hw x _ y _ => addElem_eq_fitN hw sat x y,
    fun sat => vec2Is_of_vecBin (g := subElem sat) (fun _ _ => rfl) fun hw x _ y _ => subElem_eq_fitN hw sat x y,
    vec2Is_of_vecBin (g := fun _ x y => x &&& y) (fun _ _ => rfl) fun _ _ _ _ _ => rfl,
    vec2Is_of_vecBin (g := fun _ x y => x ||| y) (fun _ _ => rfl) fun _ _ _ _ _ => rfl,
    vec2Is_of_vecBin (g := fun _ x y => x ^^^ y) (fun _ _ => rfl) fun _ _ _ _ _ => rfl,
    vec2Is_of_vecBin (g := andnElem) (fun _ _ => rfl) fun _ _ _ _ _ => rfl,
    fun sat => vec2Is_of_vecBin (g := shlElem sat) (fun _ _ => rfl) fun hw x _ y _ => shlElem_eq_fit hw sat x y,
    vec2Is_of_vecBin (g := shrlElem) (fun _ _ => rfl) fun _ _ _ _ _ => rfl,
    vec2Is_of_vecBin (g := shraElem) (fun _ _ => rfl) fun hw x _ y _ => shraElem_eq_fit hw x y,
    vec2Is_of_vecBin (g := minElem) (fun _ _ => rfl) fun hw _ hx _ hy => minElem_eq hw hx hy,
    vec2Is_of_vecBin (g := maxElem) (fun _ _ => rfl) fun hw _ hx _ hy => maxElem_eq hw hx hy,
    vec2Is_of_vecBin (g := fun _ x y => min x y) (fun _ _ => rfl) fun _ _ _ _ _ => rfl,
    vec2Is_of_vecBin (g := fun _ x y => max x y) (fun _ _ => rfl) fun _ _ _ _ _ => rfl,
    fun sat => vec1Is_of_vecUn (g := absElem sat) (fun _ _ => rfl) fun hw x _ => absElem_eq_fit hw sat x,
    fun sat => vec1Is_of_vecUn (g := negElem sat) (fun _ _ => rfl) fun hw x _ => negElem_eq_fit hw sat x,
    valuMovIs⟩

theorem vbcastIs (o : VUn) (idx : BitVec 3) : LanesIs (.vbcast o idx) o.d o.k o.es.bits fun t l _ =>
    match o.a with
    | .vec r => sub o.es.bits (vget t l r.r) idx.toNat
    | .scal r => (sget t r.r).toNat := by
  refine lanesIs_of_mapLanes (fun t l => match o.a with
    | .vec r => splat o.es.bits (elem o.es.bits (vget t l r.r) idx.toNat)
    | .scal r => splat o.es.bits (sget t r.r).toNat) (fun _ => rfl) fun t l j hj => ?_
  cases o.a with
  | vec r => simp only [sub_splat (width_bits_pos o.es) hj, elem_eq_sub]
  | scal r => exact sub_splat (width_bits_pos o.es) hj _

theorem nsub_eq_div (es : Width) : es.nsub = 64 / es.bits := by cases es <;> rfl

theorem vlidIs (d : VReg) (k : KReg) (es : Width) : LanesIs (.vlid d k es) d k es.bits fun _ l j => l * es.nsub + j :=
  lanesIs_of_mapLanes (fun _ l => packElems es.bits ((List.range es.nsub).map fun i => l * es.nsub + i)) (fun _ => rfl)
    fun _ l j hj => by rw [nsub_eq_div, sub_packElems_range (width_bits_pos es) hj]

theorem productsTestsAndPicks : ProductsTestsAndPicks :=
  ⟨fun sat => vec2Is_of_vecBin (g := mulElem sat) (fun _ _ => rfl) fun hw x _ y _ => mulElem_eq_fit hw sat x y,
    vec2Is_of_vecBin (g := mulhElem) (fun _ _ => rfl) fun hw x _ y _ => mulhElem_eq_fit hw x y,
    vec2Is_of_vecBin (g := mulhnElem) (fun _ _ => rfl) fun _ _ _ _ _ => rfl,
    fun sat => vec3Is_of_vecTri (g := madElem sat) (fun _ _ => rfl) fun hw x y z => madElem_eq_fit hw sat x y z,
    fun fn => vec2Is_of_vecBin (g := fun w x y => ones w (cmpElem fn w x y)) (fun _ _ => rfl) fun hw x _ y _ =>
      congrArg (ones _) (cmpElem_eq_vcmpTest hw fn x y),
    vec3Is_of_vecTri (g := fun _ x y c => if c = 0 then y else x) (fun _ _ => rfl) fun _ x y z => (ite_not (z = 0) x y).symm,
    vbcastIs, vlidIs⟩

/-- Settles O9: every function of a sub-element is the exact integer of its table brought to the width. -/
theorem vectorLanesFollowTheirTables : Obligations.VectorLanesFollowTheirTables :=
  ⟨vectorArithmeticFollowsItsTable, productsTestsAndPicks⟩

end Sys2Proof.VectorInstructions
end

section
/-! PROOFS. The mask instructions (O12): the bits of masks put together from lanes and lane-words (R22, R23), and what each
instruction writes (R236-R238). -/

namespace Sys2Proof.VectorInstructions

open Sys2Proof.Machine Sys2Proof.RegisterState Sys2Proof.ScalarControl

/-! ### Bits of masks -/

theorem getLsbD_laneMask (n : Nat) {l : Nat} (hl : l < 1024) : (laneMask n).getLsbD l = decide (l < n) := by
  rw [laneMask, BitVec.getLsbD_ofNat, decide_eq_true hl, Bool.true_and, Nat.testBit_two_pow_sub_one]

theorem getLsbD_maskOf (ls : List Nat) {l : Nat} (hl : l < 1024) : (maskOf ls).getLsbD l = decide (l ∈ ls) := by
  have hfold : ∀ m : Mask, (ls.foldl (fun m l => m ||| BitVec.ofNat 1024 (2 ^ l)) m).getLsbD l =
      (m.getLsbD l || decide (l ∈ ls)) := by
    induction ls with
    | nil => simp
    | cons x ls ih =>
      intro m
      rw [List.foldl_cons, ih, BitVec.getLsbD_or, BitVec.getLsbD_ofNat, decide_eq_true hl, Bool.true_and, Nat.testBit_two_pow]
      simp [Bool.or_assoc, eq_comm]
  rw [maskOf, hfold]
  simp

/-- A sum of distinct powers of two has its bits where it has its powers. -/
theorem testBit_foldl_two_pow (p : Nat → Prop) [DecidablePred p] (n : Nat) :
    (List.range n).foldl (fun acc q => if p q then acc else acc + 2 ^ q) 0 < 2 ^ n ∧
    ∀ i, ((List.range n).foldl (fun acc q => if p q then acc else acc + 2 ^ q) 0).testBit i =
      (decide (i < n) && !decide (p i)) := by
  induction n with
  | zero => simp
  | succ n ih =>
    obtain ⟨hlt, hbits⟩ := ih
    rw [List.range_succ, List.foldl_append, List.foldl_cons, List.foldl_nil]
    generalize (List.range n).foldl (fun acc q => if p q then acc else acc + 2 ^ q) 0 = acc at hlt hbits
    by_cases hp : p n
    · rw [if_pos hp]
      refine ⟨by rw [Nat.pow_succ]; omega, fun i => ?_⟩
      rw [hbits]
      by_cases hi : i = n
      · simp [hi, hp]
      · rw [show decide (i < n) = decide (i < n + 1) from decide_eq_decide.mpr (by omega)]
    · rw [if_neg hp]
      refine ⟨by rw [Nat.pow_succ]; omega, fun i => ?_⟩
      have hsum := Nat.testBit_two_pow_mul_add 1 hlt i
      rw [Nat.mul_one, Nat.add_comm] at hsum
      rw [hsum, hbits]
      rcases Nat.lt_trichotomy i n with hi | rfl | hi
      · simp [hi, Nat.lt_succ_of_lt hi]
      · simp [hp]
      · have habove : ¬i < n ∧ ¬i < n + 1 := by omega
        simp [habove, Nat.testBit_lt_two_pow (Nat.one_lt_two_pow (Nat.sub_ne_zero_of_lt hi))]

theorem testBit_summary (m : Mask) (q : Nat) : (summary m).testBit q = (decide (q < 32) && !decide (laneWord m q = 0)) :=
  (testBit_foldl_two_pow (laneWord m · = 0) 32).2 q

/-- A number is put together from its fields below, at and above a place. -/
theorem fields_eq (x lo n : Nat) : x % 2 ^ lo + x / 2 ^ lo % 2 ^ n * 2 ^ lo + x / 2 ^ (lo + n) * 2 ^ (lo + n) = x := by
  have hlow := Nat.div_add_mod x (2 ^ lo)
  have hhigh := Nat.div_add_mod (x / 2 ^ lo) (2 ^ n)
  rw [Nat.div_div_eq_div_mul, ← Nat.pow_add] at hhigh
  rw [← hhigh, Nat.mul_add, ← Nat.mul_assoc, ← Nat.pow_add] at hlow
  rw [Nat.mul_comm _ (2 ^ lo), Nat.mul_comm _ (2 ^ (lo + n))]
  omega

theorem getLsbD_setLaneWord (m : Mask) (q v : Nat) {l : Nat} (hl : l < 1024) :
    (setLaneWord m q v).getLsbD l = if l / 32 = q then v.testBit (l % 32) else m.getLsbD l := by
  have hsplit := fields_eq m.toNat (32 * q) 32
  have hput : m.toNat - laneWord m q * 2 ^ (32 * q) + v % 2 ^ 32 * 2 ^ (32 * q) = m.toNat % 2 ^ (32 * q) +
      v % 2 ^ 32 * 2 ^ (32 * q) + m.toNat / 2 ^ (32 * q + 32) * 2 ^ (32 * q + 32) := by
    rw [laneWord]
    omega
  rw [setLaneWord, BitVec.getLsbD_ofNat, decide_eq_true hl, Bool.true_and, hput,
    testBit_fields (Nat.mod_lt _ (Nat.two_pow_pos _)) (Nat.mod_lt _ (Nat.two_pow_pos _))]
  by_cases hbelow : l < 32 * q
  · rw [if_pos hbelow, if_neg (by omega), Nat.testBit_mod_two_pow, decide_eq_true hbelow, Bool.true_and, BitVec.testBit_toNat]
  · by_cases hin : l < 32 * q + 32
    · rw [if_neg hbelow, if_pos hin, if_pos (by omega), Nat.testBit_mod_two_pow, show l - 32 * q = l % 32 by omega,
        decide_eq_true (Nat.mod_lt l (by decide)), Bool.true_and]
    · rw [if_neg hbelow, if_neg hin, if_neg (by omega), Nat.testBit_div_two_pow, Nat.sub_add_cancel (Nat.not_lt.mp hin),
        BitVec.testBit_toNat]

/-! ### Writers of a mask -/

/-- An instruction that goes and whose effect is the write of one mask register. -/
theorem issue_kset {i : Instr} {s s1 : State} {d : KReg} {m : Mask} {body : State → Eff} (h : Goes i s s1)
    (hbody : body s1 = retireWith s1 fun t => kset t d m) :
    issue i s body = .next (goesOn (withTeam s1 fun t => kset t d m) (nextPc i s)) :=
  issue_retireWith h hbody (kset_sPoison ..) (kset_vPoison ..) (by rw [kset_lstk]; exact h.inner)

theorem maskIs_of_issue {i : Instr} {d : KReg} {f : Team → Nat → Bool} (m : Team → Mask)
    (hexec : ∀ s, exec i s = issue i s fun u => retireWith u fun t => kset t d (m t))
    (hm : ∀ t, ∀ l < 1024, l < t.lanes → (m t).getLsbD l = f t l) : MaskIs i d f := by
  intro s s1 h
  refine ⟨m s1.team, ?_, fun l hlane hl => hm s1.team l hl hlane⟩
  rw [hexec]
  exact issue_kset h rfl

theorem kmovSumWrites (d : SReg) (a : KReg) {s s1 : State} (h : Goes (.kmovSum d a) s s1) : ∃ v : Word,
    exec (.kmovSum d a) s = .next (goesOn (withTeam s1 fun t => sset t d v) (nextPc (.kmovSum d a) s)) ∧
    ∀ q < 64, v.getLsbD q = (decide (q < 32) && decide ((kget s1.team a).toNat / 2 ^ (32 * q) % 2 ^ 32 ≠ 0)) := by
  refine ⟨_, scalarIs_of_issue (v := fun u => BitVec.ofNat 64 (summary (kget u.team a))) (fun _ => rfl) s s1 h,
    fun q hq => ?_⟩
  rw [BitVec.getLsbD_ofNat, decide_eq_true hq, Bool.true_and, testBit_summary, decide_not]
  rfl

/-! ### BALLOT, VANY and VALL -/

theorem ballot_of_none {d : KReg} {o : ElemOps} {s s1 : State} (h : Goes (.ballot d o) s s1)
    (hnone : lanesOn s1.team o.k = []) : exec (.ballot d o) s = .next (goesOn s1 (nextPc (.ballot d o) s)) :=
  issue_retire h.toIssues (by simp [retireWith, activeLanes_eq_lanesOn, hnone]) h.cleanS h.cleanV h.inner

theorem ballot_of_some {d : KReg} {o : ElemOps} {s s1 : State} (h : Goes (.ballot d o) s s1)
    (hsome : lanesOn s1.team o.k ≠ []) :
    ∃ m : Mask, exec (.ballot d o) s = .next (goesOn (withTeam s1 fun t => kset t d m) (nextPc (.ballot d o) s)) ∧
    ∀ l < 1024, m.getLsbD l = decide (l ∈ lanesOn s1.team o.k ∧ keyOf s1.team o l ≠ 0) := by
  refine ⟨maskOf ((lanesOn s1.team o.k).filter fun l => keyOf s1.team o l != 0), issue_kset h ?_, fun l hl => ?_⟩
  · simp [retireWith, activeLanes_eq_lanesOn, hsome, elemKey_eq_keyOf]
  · simp [getLsbD_maskOf _ hl]

theorem setZ_eq (t : Team) (b : Bool) : setZ t (!b) = { t with cc := (t.cc &&& 0x7E) ||| (if b then 0 else 1) } := by
  cases b <;> rfl

/-- A test of the active lanes writes 1 or 0 and Z from it (R236). -/
theorem teamIs_of_writeTest {i : Instr} {d : SReg} {b : Team → Bool}
    (hexec : ∀ s, exec i s = issue i s fun u => writeTest u d (b u.team)) :
    TeamIs i fun s t =>
      { sset t d (if b s.team then 1 else 0) with cc := (t.cc &&& 0x7E) ||| (if b s.team then 0 else 1) } := by
  intro s s1 h
  rw [hexec]
  refine issue_retireWith h ?_ (sset_sPoison ..) (sset_vPoison ..) (by rw [sset_lstk]; exact h.inner)
  simp only [writeTest, retireWith, setZ_eq, sset_cc]

/-- Settles O12: each mask is compared lane by lane, the summary word bit by bit. -/
theorem maskInstructionsWriteTheirLanes : Obligations.MaskInstructionsWriteTheirLanes := by
  unfold Obligations.MaskInstructionsWriteTheirLanes
  refine ⟨fun d a => maskIs_of_issue (kget · a) (fun _ => rfl) fun _ _ _ _ => rfl,
    fun d a q => scalarIs_of_issue fun _ => rfl,
    fun d a _ _ h => kmovSumWrites d a h,
    fun d a q => maskIs_of_issue (fun t => setLaneWord (kget t d) q.toNat (sget t a.r).toNat) (fun _ => rfl)
      fun t l hl _ => getLsbD_setLaneWord _ _ _ hl,
    fun d a b => maskIs_of_issue (fun t => kget t a &&& kget t b) (fun _ => rfl) fun _ _ _ _ => BitVec.getLsbD_and,
    fun d a b => maskIs_of_issue (fun t => kget t a ||| kget t b) (fun _ => rfl) fun _ _ _ _ => BitVec.getLsbD_or,
    fun d a b => maskIs_of_issue (fun t => kget t a ^^^ kget t b) (fun _ => rfl) fun _ _ _ _ => BitVec.getLsbD_xor,
    fun d a b => maskIs_of_issue (fun t => kget t a &&& ~~~kget t b) (fun _ => rfl) fun t l hl _ => ?andn,
    fun d a => maskIs_of_issue (fun t => ~~~kget t a) (fun _ => rfl) fun t l hl _ => ?not,
    fun d a => maskIs_of_issue (fun t => laneMask (min (sget t a.r).toNat t.lanes)) (fun _ => rfl) fun t l hl hlane => ?set,
    fun d a => ?pop,
    fun _ _ _ _ => ballot_of_none, fun _ _ _ _ => ballot_of_some, fun d o => ?any, fun d o => ?all⟩
  case andn => rw [BitVec.getLsbD_and, BitVec.getLsbD_not, decide_eq_true hl, Bool.true_and]
  case not => rw [BitVec.getLsbD_not, decide_eq_true hl, Bool.true_and]
  case set => rw [getLsbD_laneMask _ hl]; exact decide_eq_decide.mpr (by omega)
  case pop =>
    have hcount : ∀ t : Team, popNat t.lanes (kget t a).toNat = (List.range t.lanes).countP fun l => (kget t a).getLsbD l :=
      fun t => popNat_eq_countP ..
    simp only [← hcount]
    exact scalarIs_of_issue fun _ => rfl
  case any =>
    simp only [← activeLanes_eq_lanesOn, ← elemKey_eq_keyOf]
    exact teamIs_of_writeTest (b := fun t => (activeLanes t o.k).any fun l => elemKey t o l != 0) fun _ => rfl
  case all =>
    simp only [← activeLanes_eq_lanesOn, ← elemKey_eq_keyOf]
    exact teamIs_of_writeTest (b := fun t => (activeLanes t o.k).all fun l => elemKey t o l != 0) fun _ => rfl

end Sys2Proof.VectorInstructions
end

section
/-! PROOFS. PACK, UNPACK, PERM and CVT (R228, R230): where each sub-element comes from. -/

namespace Sys2Proof.VectorInstructions

open Sys2Proof.Machine Sys2Proof.RegisterState Sys2Proof.ScalarControl

/-! ### Sub-elements of two registers -/

theorem half_bits_pos (es : Width) : 0 < es.bits / 2 := by cases es <;> decide

/-- The sub-elements of a lane-register fit in it. -/
theorem bits_mul_succ_le {es : Width} {j : Nat} (hj : j < es.nsub) : es.bits * (j + 1) ≤ 64 := by
  rw [nsub_eq_div] at hj
  exact Nat.le_trans (Nat.mul_le_mul_left _ hj) (Nat.mul_div_le ..)

theorem lt_two_mul_nsub {es : Width} {j : Nat} (hj : es.bits / 2 * (j + 1) ≤ 64) : j < 2 * es.nsub := by
  cases es <;> simp only [Width.bits, Width.nsub, Nat.reduceDiv] at hj ⊢ <;> omega

theorem getElem?_elems (es : Width) (x : Word) {j : Nat} (hj : j < es.nsub) :
    (elems es.bits x)[j]? = some (sub es.bits x j) := by
  rw [elems, ← nsub_eq_div, List.getElem?_map, List.getElem?_range hj, Option.map_some, elem_eq_sub]

theorem length_elems (es : Width) (x : Word) : (elems es.bits x).length = es.nsub := by
  rw [elems, List.length_map, List.length_range, nsub_eq_div]

/-- The sub-elements of operand a, then those of operand b (R230). -/
theorem getElem?_operands (t : Team) (es : Width) (a : VA) (b : VB) (l : Nat) {j : Nat} (hj : j < 2 * es.nsub) :
    (elems es.bits (aVal t es.bits a l) ++ elems es.bits (bVal t es.bits intLit b l))[j]? =
      some (if j < es.nsub then subA t es.bits a l j else subB t es.bits wideInt b l (j - es.nsub)) := by
  by_cases hfirst : j < es.nsub
  · rw [List.getElem?_append_left (by rwa [length_elems]), getElem?_elems es _ hfirst, if_pos hfirst,
      sub_aVal (width_bits_pos es) (bits_mul_succ_le hfirst)]
  · have hsecond : j - es.nsub < es.nsub := by omega
    rw [List.getElem?_append_right (by rw [length_elems]; omega), length_elems, getElem?_elems es _ hsecond, if_neg hfirst,
      sub_bVal (width_bits_pos es) (bits_mul_succ_le hsecond)]
    rfl

/-! ### PACK -/

/-- The signed and the natural reading of a pattern differ by a multiple of what a narrower width keeps. -/
theorem sgn_emod {v w : Nat} (hvw : v ≤ w) (x : Nat) : sgn w x % 2 ^ v = ((x % 2 ^ v : Nat) : Int) := by
  have hpow : (2 : Int) ^ w = 2 ^ v * 2 ^ (w - v) := by rw [← Int.pow_add, Nat.add_sub_cancel' hvw]
  rw [Int.natCast_emod, natCast_two_pow, sgn]
  split
  · rfl
  · rw [hpow, Int.sub_mul_emod_self_left]

theorem narrowElem_eq_fitN {w : Nat} (hw : 0 < w) (sat : Sat) (x : Nat) :
    narrowElem sat w x = fitN sat (w / 2) (sgn w x) x := by
  cases sat with
  | wrap => simp only [narrowElem, fitN, fit, sgn_emod (Nat.div_le_self w 2), Int.toNat_natCast, Bool.false_eq_true, if_false]
  | s => simp only [narrowElem, fitN, satS_eq_fit, toSigned_eq_sgn hw]
  | sn => exact satN_eq ..

theorem packIs (o : VBin) (sat : Sat) : LanesIs (.pack o sat) o.d o.k (o.es.bits / 2) fun t l j =>
    let x := if j < o.es.nsub then subA t o.es.bits o.a l j else subB t o.es.bits wideInt o.b l (j - o.es.nsub)
    fitN sat (o.es.bits / 2) (sgn o.es.bits x) x := by
  refine lanesIs_of_mapLanes (fun t l => packElems (o.es.bits / 2)
    ((elems o.es.bits (aVal t o.es.bits o.a l) ++ elems o.es.bits (bVal t o.es.bits intLit o.b l)).map
      (narrowElem sat o.es.bits))) (fun _ => rfl) fun t l j hj => ?_
  rw [sub_packElems hj, List.getD_eq_getElem?_getD, List.getElem?_map, getElem?_operands t o.es o.a o.b l (lt_two_mul_nsub hj),
    Option.map_some, Option.getD_some, narrowElem_eq_fitN (width_bits_pos o.es)]

/-! ### UNPACK -/

theorem packNat_append (w : Nat) (xs : List Nat) (y : Nat) :
    packNat w (xs ++ [y]) = packNat w xs + y % 2 ^ w * 2 ^ (w * xs.length) := by
  induction xs with
  | nil => simp [packNat]
  | cons x xs ih =>
    rw [List.cons_append, packNat, ih, packNat, List.length_cons, Nat.mul_succ, Nat.pow_add, Nat.mul_add, Nat.add_assoc,
      Nat.mul_left_comm, Nat.mul_comm (2 ^ w) (2 ^ _)]

/-- A scalar broadcast, as a sum over the sub-elements. -/
theorem splat_eq_foldl (es : Width) (v : Nat) : splat es.bits v = BitVec.ofNat 64
    ((List.range es.nsub).foldl (fun acc i => acc + v % 2 ^ es.bits * 2 ^ (es.bits * i)) 0) := by
  have hsum : ∀ n, packNat es.bits ((List.range n).map fun _ => v % 2 ^ es.bits) =
      (List.range n).foldl (fun acc i => acc + v % 2 ^ es.bits * 2 ^ (es.bits * i)) 0 := fun n => by
    induction n with
    | zero => rfl
    | succ n ih =>
      rw [List.range_succ, List.map_append, List.map_singleton, packNat_append, ih, List.foldl_append, List.foldl_cons,
        List.foldl_nil, List.length_map, List.length_range, Nat.mod_mod]
  rw [splat, packElems, ← nsub_eq_div, hsum]

theorem unpackIs (o : VUn) (sx half : Bool) : LanesIs (.unpack o sx half) o.d o.k o.es.bits fun t l j =>
    let e := sub (o.es.bits / 2) (match o.a with
      | .vec r => vget t l r.r
      | .scal r => BitVec.ofNat 64 ((List.range o.es.nsub).foldl (fun acc i =>
          acc + (sget t r.r).toNat % 2 ^ o.es.bits * 2 ^ (o.es.bits * i)) 0)) ((if half then o.es.nsub else 0) + j)
    if sx then fit false o.es.bits (sgn (o.es.bits / 2) e) else e := by
  refine lanesIs_of_mapLanes (fun t l => packElems o.es.bits ((List.range o.es.nsub).map fun j =>
    let e := elem (o.es.bits / 2) (aVal t o.es.bits o.a l) ((if half then o.es.nsub else 0) + j)
    if sx then wrapInt o.es.bits (toSigned (o.es.bits / 2) e) else e)) (fun _ => rfl) fun t l j hj => ?_
  simp only [nsub_eq_div, sub_packElems_range (width_bits_pos o.es) hj, elem_eq_sub, toSigned_eq_sgn (half_bits_pos o.es),
    wrapInt_eq_fit]
  cases o.a with
  | vec r => rfl
  | scal r => simp only [aVal, splat_eq_foldl, nsub_eq_div]

/-! ### PERM -/

theorem permIs (o : VTri) : LanesIs (.perm o) o.d o.k o.es.bits fun t l j =>
    let x := sub o.es.bits (vget t l o.c.r) j
    let n := o.es.nsub
    if 2 ^ (o.es.bits - 1) ≤ x then 0
    else if x % (2 * n) < n then subA t o.es.bits o.a l (x % (2 * n))
    else subB t o.es.bits wideInt o.b l (x % (2 * n) - n) := by
  refine lanesIs_of_mapLanes (fun t l =>
    let tab := elems o.es.bits (aVal t o.es.bits o.a l) ++ elems o.es.bits (bVal t o.es.bits intLit o.b l)
    map1 o.es.bits (fun x => if 2 ^ (o.es.bits - 1) ≤ x then 0 else tab.getD (x % (2 * o.es.nsub)) 0) (vget t l o.c.r))
    (fun _ => rfl) fun t l j hj => ?_
  have hn : 0 < 2 * o.es.nsub := by cases o.es <;> decide
  simp only [sub_map1 (width_bits_pos o.es) hj, List.getD_eq_getElem?_getD,
    getElem?_operands t o.es o.a o.b l (Nat.mod_lt _ hn), Option.getD_some]

/-! ### CVT -/

theorem sub_setElem {w i j : Nat} (hw : 0 < w) (hi : w * (i + 1) ≤ 64) (hj : w * (j + 1) ≤ 64) (x : Word) (v : Nat) :
    sub w (setElem w x i v) j = if j = i then v % 2 ^ w else sub w x j := by
  have htop : w * i + w - 1 + 1 = w * i + w := by omega
  rw [Nat.mul_succ] at hi hj
  have hword : sub w (setElem w x i v) j =
      (x.toNat % 2 ^ (w * i) + v % 2 ^ w * 2 ^ (w * i) + x.toNat / 2 ^ (w * i + w) * 2 ^ (w * i + w)) / 2 ^ (w * j) %
        2 ^ w := by
    rw [sub, setElem, setFld, htop, Nat.add_sub_cancel_left, BitVec.toNat_ofNat, mod_two_pow_div_mod hj,
      Nat.shiftRight_eq_div_pow]
  rw [hword]
  refine Nat.eq_of_testBit_eq fun b => ?_
  rw [testBit_field, testBit_fields (Nat.mod_lt _ (Nat.two_pow_pos _)) (Nat.mod_lt _ (Nat.two_pow_pos _))]
  by_cases hb : b < w
  · rcases Nat.lt_trichotomy j i with hji | rfl | hij
    · have hbelow : w * j + w ≤ w * i := Nat.mul_succ w j ▸ Nat.mul_le_mul_left w hji
      have hbit : w * j + b < w * i := by omega
      rw [if_neg (Nat.ne_of_lt hji), if_pos hbit, Nat.testBit_mod_two_pow, sub, testBit_field, decide_eq_true hbit,
        Bool.true_and]
    · have hbit : ¬w * j + b < w * j ∧ w * j + b < w * j + w := by omega
      rw [if_pos rfl, if_neg hbit.1, if_pos hbit.2, Nat.add_sub_cancel_left, decide_eq_true hb, Bool.true_and]
    · have habove : w * i + w ≤ w * j := Nat.mul_succ w i ▸ Nat.mul_le_mul_left w hij
      have hbit : ¬w * j + b < w * i ∧ ¬w * j + b < w * i + w ∧ w * j + b - (w * i + w) + (w * i + w) = w * j + b := by
        omega
      rw [if_neg (Nat.ne_of_gt hij), if_neg hbit.1, if_neg hbit.2.1, Nat.testBit_div_two_pow, hbit.2.2, sub, testBit_field]
  · rw [decide_eq_false hb, Bool.false_and, Nat.testBit_lt_two_pow]
    refine Nat.lt_of_lt_of_le ?_ (Nat.pow_le_pow_right Nat.two_pos (Nat.not_lt.mp hb))
    split
    · exact Nat.mod_lt _ (Nat.two_pow_pos w)
    · exact sub_lt w x j

/-- Sub-elements p to p + n − 1 replaced one after another; the others stand. -/
theorem sub_foldl_setElem {w p n j : Nat} (hw : 0 < w) (hn : w * (p + n) ≤ 64) (hj : w * (j + 1) ≤ 64) (g : Nat → Nat)
    (x : Word) : sub w ((List.range n).foldl (fun r q => setElem w r (p + q) (g q)) x) j =
      if p ≤ j ∧ j < p + n then g (j - p) % 2 ^ w else sub w x j := by
  induction n with
  | zero => rw [if_neg (by omega)]; rfl
  | succ n ih =>
    have hless : w * (p + n) ≤ 64 := Nat.le_trans (Nat.mul_le_mul_left w (by omega)) hn
    rw [List.range_succ, List.foldl_append, List.foldl_cons, List.foldl_nil, sub_setElem (i := p + n) hw hn hj, ih hless]
    by_cases hlast : j = p + n
    · rw [if_pos hlast, if_pos (by omega), hlast, Nat.add_sub_cancel_left]
    · rw [if_neg hlast]
      exact ite_congr (propext (by omega)) (fun _ => rfl) fun _ => rfl

theorem fmt_bits_pos (f : Fmt) : 0 < f.bits := by cases f <;> decide

/-- The part of a narrowing CVT lies in its destination (R228). -/
theorem part_fits {dst src : Fmt} {part : Nat} (hpart : part < cvtRatio dst src) (hnarrow : ¬src.bits ≤ dst.bits) :
    dst.bits * (part * (64 / src.bits) + 64 / src.bits) ≤ 64 := by
  have hratio : cvtRatio dst src = src.bits / dst.bits := by
    rw [cvtRatio, Nat.max_eq_right (by omega), Nat.min_eq_left (by omega)]
  rw [hratio, Nat.lt_iff_add_one_le, Nat.le_div_iff_mul_le (fmt_bits_pos dst)] at hpart
  have hgroup : dst.bits * (part * (64 / src.bits) + 64 / src.bits) = (part + 1) * dst.bits * (64 / src.bits) := by
    rw [← Nat.succ_mul, ← Nat.mul_assoc, Nat.mul_comm dst.bits]
  rw [hgroup]
  exact Nat.le_trans (Nat.mul_le_mul_right _ hpart) (Nat.mul_div_le ..)

theorem cvtIs {d : VReg} {k : KReg} {a : VSrc} {dst src : Fmt} {part : BitVec 3}
    (hwf : (Instr.cvt d k a dst src part).wf = true) : LanesIs (.cvt d k a dst src part) d k dst.bits fun t l j =>
      if src.bits ≤ dst.bits then
        cvtElem dst src (fmode t) (sub src.bits (vget t l a.r) (part.toNat * (64 / dst.bits) + j))
      else if part.toNat * (64 / src.bits) ≤ j ∧ j < (part.toNat + 1) * (64 / src.bits) then
        cvtElem dst src (fmode t) (sub src.bits (vget t l a.r) (j - part.toNat * (64 / src.bits)))
      else sub dst.bits (vget t l d) j := by
  refine lanesIs_of_mapLanes (fun t l => cvtLane dst src (fmode t) part.toNat (vget t l a.r) (vget t l d)) (fun _ => rfl)
    fun t l j hj => ?_
  have hpart : part.toNat < cvtRatio dst src := of_decide_eq_true hwf
  have hw := fmt_bits_pos dst
  by_cases hwide : src.bits ≤ dst.bits
  · simp only [cvtLane, if_pos hwide, sub_packElems_range hw hj, elem_eq_sub]
  · simp only [cvtLane, if_neg hwide, elem_eq_sub, Nat.succ_mul]
    rw [sub_foldl_setElem hw (part_fits hpart hwide) hj]
    split
    · rfl
    · rw [Nat.mod_eq_of_lt (sub_lt ..)]

theorem packingAndConversion : PackingAndConversion :=
  ⟨fun o sat _ => packIs o sat, fun o sx half _ => unpackIs o sx half, permIs, fun _ _ _ _ _ _ => cvtIs⟩

end Sys2Proof.VectorInstructions
end

section
/-! PROOFS. The floating datapath (R223-R225) and the order in which NaNs propagate (R133). -/

namespace Sys2Proof.VectorInstructions

open Sys2Proof.Machine Sys2Proof.RegisterState

/-! ### Shapes -/

theorem fp1Is_of_fpUn {c : FUn → Instr} {f : FpFmt → Nat → Nat} {g : FpFmt → FMode → Nat → Nat}
    (hexec : ∀ o s, exec (c o) s = fpUn (c o) o g s) (hfun : ∀ fmt m, ∀ x < 2 ^ fmt.width, g fmt m x = f fmt x) : Fp1Is c f :=
  fun o => lanesIs_of_mapLanes (fun t l => map1 (fWidth o.f) (g (fpOf o.f) (fmode t)) (aVal t (fWidth o.f) o.a l)) (hexec o)
    fun t l j hj => by
      have hw := fWidth_pos o.f
      rw [sub_map1 hw hj, sub_aVal hw hj]
      exact congrArg (· % 2 ^ fWidth o.f) (hfun (fpOf o.f) (fmode t) _ (subA_lt ..))

theorem fp2Is_of_fpBin {c : FBin → Instr} {f g : FpFmt → FMode → Nat → Nat → Nat}
    (hexec : ∀ o s, exec (c o) s = fpBin (c o) o g s)
    (hfun : ∀ fmt m, ∀ x < 2 ^ fmt.width, ∀ y < 2 ^ fmt.width, g fmt m x y = f fmt m x y) : Fp2Is c f :=
  fun o => lanesIs_of_mapLanes (fun t l => map2 (fWidth o.f) (g (fpOf o.f) (fmode t)) (aVal t (fWidth o.f) o.a l)
    (bVal t (fWidth o.f) fpLit o.b l)) (hexec o) fun t l j hj => by
      have hw := fWidth_pos o.f
      rw [sub_map2 hw hj, sub_aVal hw hj, sub_bVal hw hj]
      exact congrArg (· % 2 ^ fWidth o.f) (hfun (fpOf o.f) (fmode t) _ (subA_lt ..) _ (subB_lt ..))

theorem fp3Is_of_fpTri {c : FTri → Instr} {f : FpFmt → FMode → Nat → Nat → Nat → Nat}
    (hexec : ∀ o s, exec (c o) s = fpTri (c o) o f s) : Fp3Is c f :=
  fun o => lanesIs_of_mapLanes (fun t l => map3 (fWidth o.f) (f (fpOf o.f) (fmode t)) (aVal t (fWidth o.f) o.a l)
    (bVal t (fWidth o.f) fpLit o.b l) (vget t l o.c.r)) (hexec o) fun t l j hj => by
      have hw := fWidth_pos o.f
      rw [sub_map3 hw hj, sub_aVal hw hj, sub_bVal hw hj]
      rfl

/-! ### Sign and magnitude -/

theorem width_sub_one (f : FpFmt) : f.width - 1 = f.ebits + f.tbits := by rw [FpFmt.width]; omega

theorem two_pow_width (f : FpFmt) : 2 ^ f.width = 2 * 2 ^ (f.ebits + f.tbits) := by
  rw [FpFmt.width, Nat.add_assoc, Nat.pow_add]

/-- A pattern is its magnitude, with the sign bit clear or set. -/
theorem sign_cases {f : FpFmt} {x : Nat} (hx : x < 2 ^ f.width) : (fpNeg f x = false ∧ fpMag f x = x) ∨
    (fpNeg f x = true ∧ x = fpMag f x + 2 ^ (f.ebits + f.tbits)) := by
  rw [two_pow_width] at hx
  have hsplit := Nat.div_add_mod x (2 ^ (f.ebits + f.tbits))
  by_cases hlow : x < 2 ^ (f.ebits + f.tbits)
  · exact .inl ⟨by rw [fpNeg, Nat.div_eq_of_lt hlow]; rfl, Nat.mod_eq_of_lt hlow⟩
  · have hone : x / 2 ^ (f.ebits + f.tbits) = 1 := Nat.div_eq_of_lt_le (by omega) (by omega)
    rw [hone] at hsplit
    exact .inr ⟨by rw [fpNeg, hone]; rfl, by rw [fpMag]; omega⟩

theorem signBit_add_fpMag {f : FpFmt} {x : Nat} (hx : x < 2 ^ f.width) : signBit f (fpNeg f x) + fpMag f x = x := by
  rcases sign_cases hx with ⟨hneg, hmag⟩ | ⟨hneg, hmag⟩
  · rw [hneg, hmag, signBit, if_neg Bool.false_ne_true, Nat.zero_add]
  · rw [hneg, signBit, if_pos rfl, Nat.add_comm, ← hmag]

theorem fpMag_lt (f : FpFmt) (x : Nat) : fpMag f x < 2 ^ (f.ebits + f.tbits) := Nat.mod_lt _ (Nat.two_pow_pos _)

theorem negPat_eq {f : FpFmt} {x : Nat} (hx : x < 2 ^ f.width) :
    negPat f x = (x + 2 ^ (f.width - 1)) % 2 ^ f.width := by
  have hlt := fpMag_lt f x
  rw [negPat, width_sub_one, two_pow_width, signBit]
  rcases sign_cases hx with ⟨hneg, hmag⟩ | ⟨hneg, hmag⟩
  · rw [hmag] at hlt
    rw [hneg, hmag, Bool.not_false, if_pos rfl, Nat.add_comm, Nat.mod_eq_of_lt (by omega)]
  · have hwrap : x + 2 ^ (f.ebits + f.tbits) = fpMag f x + 2 * 2 ^ (f.ebits + f.tbits) := by omega
    rw [hneg, Bool.not_true, if_neg Bool.false_ne_true, Nat.zero_add, hwrap, Nat.add_mod_right, Nat.mod_eq_of_lt (by omega)]

theorem csgnPat_eq {f : FpFmt} (x : Nat) {y : Nat} (hy : y < 2 ^ f.width) :
    csgnPat f x y = x % 2 ^ (f.width - 1) + y / 2 ^ (f.width - 1) * 2 ^ (f.width - 1) := by
  have hsign := signBit_add_fpMag hy
  have hsplit := Nat.div_add_mod y (2 ^ (f.ebits + f.tbits))
  rw [fpMag] at hsign
  rw [csgnPat, width_sub_one, fpMag, Nat.mul_comm]
  omega

theorem floatingDatapath : FloatingDatapath :=
  ⟨fp2Is_of_fpBin (g := fpAdd) (fun _ _ => rfl) fun _ _ _ _ _ _ => rfl,
    fp2Is_of_fpBin (g := fpSub) (fun _ _ => rfl) fun _ _ _ _ _ _ => rfl,
    fp2Is_of_fpBin (g := fpMul) (fun _ _ => rfl) fun _ _ _ _ _ _ => rfl,
    fp2Is_of_fpBin (g := fun f m => fpMinMax f m false) (fun _ _ => rfl) fun _ _ _ _ _ _ => rfl,
    fp2Is_of_fpBin (g := fun f m => fpMinMax f m true) (fun _ _ => rfl) fun _ _ _ _ _ _ => rfl,
    fp1Is_of_fpUn (g := fun f _ x => absPat f x) (fun _ _ => rfl) fun f _ x _ => by rw [width_sub_one]; rfl,
    fp1Is_of_fpUn (g := fun f _ x => negPat f x) (fun _ _ => rfl) fun _ _ _ hx => negPat_eq hx,
    fp2Is_of_fpBin (g := fun f _ x y => csgnPat f x y) (fun _ _ => rfl) fun _ _ x _ _ hy => csgnPat_eq x hy,
    fp3Is_of_fpTri fun _ _ => rfl, fp3Is_of_fpTri fun _ _ => rfl, fp3Is_of_fpTri fun _ _ => rfl,
    fun fn => fp2Is_of_fpBin (g := fun f m x y => ones f.width (fpCmp f m.daz fn x y)) (fun _ _ => rfl)
      fun _ _ _ _ _ _ => rfl⟩

/-! ### NaNs -/

theorem firstNan_cons_of_nan {f : FpFmt} {x : Nat} (hx : isNan f x = true) (rest : List Nat) :
    firstNan f (x :: rest) = some (quiet f x) := if_pos hx

theorem firstNan_cons_of_not_nan {f : FpFmt} {x : Nat} (hx : isNan f x = false) (rest : List Nat) :
    firstNan f (x :: rest) = firstNan f rest := if_neg (ne_true_of_eq_false hx)

/-- A binary operation answers the first NaN of its operands (R133). -/
theorem binary_of_firstNan {f : FpFmt} {x y q : Nat} (m : FMode) (h : firstNan f [x, y] = some q) :
    fpAdd f m x y = q ∧ fpSub f m x y = q ∧ fpMul f m x y = q ∧ fpMinMax f m false x y = q ∧ fpMinMax f m true x y = q := by
  simp only [fpAdd, fpSub, fpMul, fpMinMax, h, and_self]

theorem fpFma_of_firstNan {f : FpFmt} {x y z q : Nat} (m : FMode) (n p : Bool) (h : firstNan f [x, y, z] = some q) :
    fpFma f m n p x y z = q := by
  simp only [fpFma, h]

theorem fpValue_infPat {f : FpFmt} (hf : f.hasInf = true) (daz : Bool) : isNan f f.infPat = false ∧
    isNan f (f.infPat + 2 ^ (f.width - 1)) = false ∧ fpValue f daz f.infPat = .inf false ∧
    fpValue f daz (f.infPat + 2 ^ (f.width - 1)) = .inf true := by
  cases f with
  | e4m3 => exact absurd hf Bool.false_ne_true
  | f64 | f32 | f16 | bf16 | e5m2 => exact ⟨by decide, by decide, rfl, rfl⟩

theorem fpValue_zero (f : FpFmt) (daz : Bool) : isNan f 0 = false ∧ ∃ den, fpValue f daz 0 = .fin false 0 den := by
  cases f <;> cases daz <;> exact ⟨by decide, _, rfl⟩

/-- Opposed infinities have no sum, and an infinity and a zero no product (R133). -/
theorem invalid_gives_defaultNan {f : FpFmt} (m : FMode) (hf : f.hasInf = true) :
    fpAdd f m f.infPat (f.infPat + 2 ^ (f.width - 1)) = f.defaultNan ∧ fpSub f m f.infPat f.infPat = f.defaultNan ∧
    fpMul f m f.infPat 0 = f.defaultNan ∧ fpMul f m 0 f.infPat = f.defaultNan := by
  obtain ⟨hpos, hneg, hposVal, hnegVal⟩ := fpValue_infPat hf m.daz
  obtain ⟨hzero, den, hzeroVal⟩ := fpValue_zero f m.daz
  simp [fpAdd, fpSub, fpMul, firstNan, hpos, hneg, hzero, hposVal, hnegVal, hzeroVal, addVal, negVal, mulVal]

theorem nansPropagateInOrder : NansPropagateInOrder := by
  refine ⟨fun f m x y hx => ?first, fun f m x y hx hy => ?second, fun f m hf => invalid_gives_defaultNan m hf⟩
  case first =>
    obtain ⟨hadd, hsub, hmul, hmin, hmax⟩ := binary_of_firstNan m (firstNan_cons_of_nan hx [y])
    exact ⟨hadd, hsub, hmul, hmin, hmax, fun n p z => fpFma_of_firstNan m n p (firstNan_cons_of_nan hx [y, z])⟩
  case second =>
    have hfirst (rest : List Nat) : firstNan f (x :: y :: rest) = some (quiet f y) :=
      (firstNan_cons_of_not_nan hx _).trans (firstNan_cons_of_nan hy rest)
    obtain ⟨hadd, hsub, hmul, hmin, hmax⟩ := binary_of_firstNan m (hfirst [])
    exact ⟨hadd, hsub, hmul, hmin, hmax, fun n p z => fpFma_of_firstNan m n p (hfirst [z])⟩

end Sys2Proof.VectorInstructions
end

section
/-! PROOFS. Rounding keeps what the format holds (R126): a finite pattern is a significand times a power of two, and rounding
that number finds the significand again, exactly and in range. -/

namespace Sys2Proof.VectorInstructions

open Sys2Proof.Machine

/-! ### A significand times a power of two -/

/-- The numerator of sig × 2^q, in the form in which a pattern's value gives it (R119). -/
def scaledNum (sig : Nat) (q : Int) : Nat := sig * 2 ^ q.toNat

/-- Its denominator. -/
def scaledDen (q : Int) : Nat := 2 ^ (-q).toNat

theorem log2_mul_two_pow {n : Nat} (hn : n ≠ 0) (k : Nat) : Nat.log2 (n * 2 ^ k) = Nat.log2 n + k := by
  have hpow := Nat.two_pow_pos k
  rw [Nat.log2_eq_iff (Nat.mul_ne_zero hn (Nat.ne_of_gt hpow)), Nat.add_right_comm, Nat.pow_add, Nat.pow_add]
  exact ⟨Nat.mul_le_mul_right _ (Nat.log2_self_le hn), Nat.mul_lt_mul_of_pos_right Nat.lt_log2_self hpow⟩

theorem floorLog2_scaled {sig : Nat} (hsig : sig ≠ 0) (q : Int) :
    floorLog2 (scaledNum sig q) (scaledDen q) = Nat.log2 sig + q := by
  have hexp : ((Nat.log2 (scaledNum sig q) : Int) - Nat.log2 (scaledDen q)) = Nat.log2 sig + q := by
    rw [scaledNum, scaledDen, log2_mul_two_pow hsig, Nat.log2_two_pow]
    omega
  have hpow : 2 ^ (Nat.log2 sig + q.toNat) ≤ scaledNum sig q := by
    rw [Nat.pow_add]
    exact Nat.mul_le_mul_right _ (Nat.log2_self_le hsig)
  rw [floorLog2, hexp]
  refine if_pos ?_
  split
  · rw [scaledDen, ← Nat.pow_add, show (-q).toNat + (Nat.log2 sig + q).toNat = Nat.log2 sig + q.toNat by omega]
    exact hpow
  · rw [scaledDen, show (-q).toNat = Nat.log2 sig + q.toNat + (-(Nat.log2 sig + q)).toNat by omega, Nat.pow_add]
    exact Nat.mul_le_mul_right _ hpow

/-- Divided by its own power of two, the number is its significand. -/
theorem scaleBy_self (sig : Nat) (q : Int) :
    scaleBy (scaledNum sig q) (scaledDen q) q = (sig * 2 ^ q.natAbs, 2 ^ q.natAbs) := by
  rw [scaleBy, scaledNum, scaledDen]
  split
  · have habs : (-q).toNat = 0 ∧ q.toNat = q.natAbs := by omega
    rw [habs.1, habs.2, Nat.pow_zero, Nat.one_mul]
  · have habs : q.toNat = 0 ∧ (-q).toNat = q.natAbs := by omega
    rw [habs.1, habs.2, Nat.pow_zero, Nat.mul_one]

/-- Divided by a greater power of two, it is that much less. -/
theorem scaleBy_scaled {sig x y : Nat} {q r : Int} (hqr : q ≤ r) (h : scaleBy (scaledNum sig q) (scaledDen q) r = (x, y)) :
    x * 2 ^ (r - q).toNat = sig * y ∧ 0 < y := by
  rw [scaleBy, scaledNum, scaledDen] at h
  split at h
  · obtain ⟨rfl, rfl⟩ := Prod.mk.inj h
    have hexp : q.toNat + (r - q).toNat = (-q).toNat + r.toNat := by omega
    exact ⟨by rw [Nat.mul_assoc, ← Nat.pow_add, ← Nat.pow_add, hexp], Nat.mul_pos (Nat.two_pow_pos _) (Nat.two_pow_pos _)⟩
  · obtain ⟨rfl, rfl⟩ := Prod.mk.inj h
    have hexp : q.toNat + (-r).toNat + (r - q).toNat = (-q).toNat := by omega
    exact ⟨by rw [Nat.mul_assoc, Nat.mul_assoc, ← Nat.pow_add, ← Nat.pow_add, ← Nat.add_assoc, hexp], Nat.two_pow_pos _⟩

theorem roundsUp_exact (rnd : Nat) (neg : Bool) (m : Nat) {d : Nat} (hd : 0 < d) : roundsUp rnd neg m 0 d = false := by
  match rnd with
  | 0 => simp [roundsUp, Nat.ne_of_lt hd]
  | 1 => rfl
  | 2 => simp [roundsUp]
  | _ + 3 => simp [roundsUp]

/-! ### Rounding a number of the format -/

/-- The significand of the greatest number (R118). -/
def maxSig (f : FpFmt) : Nat := if f.hasInf then 2 ^ (f.tbits + 1) - 1 else 2 ^ (f.tbits + 1) - 2

/-- The scale of the greatest number. -/
def maxScale (f : FpFmt) : Int := (f.bias : Int) - (f.tbits : Int) + (if f.hasInf then 0 else 1)

/-- The scale of a subnormal number. -/
def minScale (f : FpFmt) : Int := 1 - (f.bias : Int) - f.tbits

/-- The format holds sig × 2^q: the significand is normalised or the scale the least, and the number is not past the
greatest. -/
structure Representable (f : FpFmt) (sig : Nat) (q : Int) : Prop where
  ne_zero : sig ≠ 0
  lt : sig < 2 ^ (f.tbits + 1)
  minScale_le : minScale f ≤ q
  subnormal : sig < 2 ^ f.tbits → q = minScale f
  le_maxScale : q ≤ maxScale f
  le_max : sig ≤ maxSig f * 2 ^ (maxScale f - q).toNat

/-- The scale that rounding chooses is the one of the pattern. -/
theorem Representable.scale {f : FpFmt} {sig : Nat} {q : Int} (h : Representable f sig q) :
    (if floorLog2 (scaledNum sig q) (scaledDen q) < 1 - (f.bias : Int) then 1 - (f.bias : Int)
      else floorLog2 (scaledNum sig q) (scaledDen q)) = q + f.tbits := by
  rw [floorLog2_scaled h.ne_zero]
  have hmin := h.minScale_le
  have hlt := (Nat.log2_lt h.ne_zero).mpr h.lt
  unfold minScale at hmin
  by_cases hsub : sig < 2 ^ f.tbits
  · have hq := h.subnormal hsub
    have hlog := (Nat.log2_lt h.ne_zero).mpr hsub
    unfold minScale at hq
    split <;> omega
  · have hlog := (Nat.le_log2 h.ne_zero).mpr (Nat.not_lt.mp hsub)
    rw [if_neg (by omega)]
    omega

theorem Representable.not_overflow {f : FpFmt} {sig x y : Nat} {q : Int} (h : Representable f sig q)
    (hxy : scaleBy (scaledNum sig q) (scaledDen q) (maxScale f) = (x, y)) : ¬maxSig f * y < x := by
  obtain ⟨hcross, hy⟩ := scaleBy_scaled h.le_maxScale hxy
  intro hover
  have hpow := Nat.two_pow_pos (maxScale f - q).toNat
  have hsig : maxSig f * 2 ^ (maxScale f - q).toNat * y < sig * y := by
    rw [← hcross, Nat.mul_right_comm]
    exact Nat.mul_lt_mul_of_pos_right hover hpow
  exact Nat.not_le.mpr hsig (Nat.mul_le_mul_right y h.le_max)

theorem Representable.roundFp_eq {f : FpFmt} {sig : Nat} {q : Int} (h : Representable f sig q) (rnd : Nat) (sat neg : Bool) :
    roundFp f rnd sat neg (scaledNum sig q) (scaledDen q) = signBit f neg +
      if sig < 2 ^ f.tbits then sig else (q - minScale f).toNat * 2 ^ f.tbits + sig := by
  have hnum : scaledNum sig q ≠ 0 := Nat.mul_ne_zero h.ne_zero (Nat.ne_of_gt (Nat.two_pow_pos _))
  have hpow := Nat.two_pow_pos q.natAbs
  have hmin : q + f.tbits - (1 - (f.bias : Int)) = q - minScale f := by rw [minScale]; omega
  rcases hxy : scaleBy (scaledNum sig q) (scaledDen q) (maxScale f) with ⟨x, y⟩
  have hfit := h.not_overflow hxy
  rw [maxScale] at hxy
  rw [maxSig] at hfit
  simp only [roundFp, if_neg hnum, h.scale, Int.add_sub_cancel, scaleBy_self, Nat.mul_div_cancel _ hpow, Nat.mul_mod_left,
    roundsUp_exact _ _ _ hpow, Bool.false_eq_true, if_false, hmin, hxy, gt_iff_lt, hfit]

/-! ### The numbers that patterns stand for -/

/-- The exponent field E of a pattern (R119). -/
def expField (f : FpFmt) (x : Nat) : Nat := fpMag f x / 2 ^ f.tbits

/-- Its fraction field T. -/
def fracField (f : FpFmt) (x : Nat) : Nat := fpMag f x % 2 ^ f.tbits

/-- The significand of a finite pattern: T, with the implicit bit where the number is normal. -/
def sigOf (f : FpFmt) (x : Nat) : Nat := if expField f x = 0 then fracField f x else 2 ^ f.tbits + fracField f x

/-- The scale of a finite pattern. -/
def scaleOf (f : FpFmt) (x : Nat) : Int := (max 1 (expField f x) : Nat) - (f.bias : Int) - f.tbits

theorem fracField_lt (f : FpFmt) (x : Nat) : fracField f x < 2 ^ f.tbits := Nat.mod_lt _ (Nat.two_pow_pos _)

theorem fpMag_eq_fields (f : FpFmt) (x : Nat) : fpMag f x = expField f x * 2 ^ f.tbits + fracField f x := by
  rw [Nat.mul_comm]
  exact (Nat.div_add_mod ..).symm

theorem bias_pos (f : FpFmt) : 0 < f.bias := by cases f <;> decide

/-- The pattern of a finite value is no NaN and no infinity. -/
theorem finite_of_fpValue {f : FpFmt} {x : Nat} {neg : Bool} {num den : Nat} (h : fpValue f false x = .fin neg num den) :
    isNan f x = false ∧ (f.hasInf && fpMag f x == f.infPat) = false := by
  simp only [fpValue] at h
  split at h
  · cases h
  · next hnan =>
    split at h
    · cases h
    · next hinf => exact ⟨eq_false_of_ne_true hnan, eq_false_of_ne_true hinf⟩

/-- The value of a finite pattern is its significand at its scale, with its sign. -/
theorem fpValue_of_finite {f : FpFmt} {x : Nat} (hnan : isNan f x = false)
    (hinf : (f.hasInf && fpMag f x == f.infPat) = false) :
    fpValue f false x = .fin (fpNeg f x) (scaledNum (sigOf f x) (scaleOf f x)) (scaledDen (scaleOf f x)) := by
  have hbias := bias_pos f
  have hfin : fpValue f false x =
      if (expField f x == 0) = true then .fin (fpNeg f x) (fracField f x) (2 ^ (f.bias + f.tbits - 1))
      else if f.bias + f.tbits ≤ expField f x then
        .fin (fpNeg f x) ((2 ^ f.tbits + fracField f x) * 2 ^ (expField f x - f.bias - f.tbits)) 1
      else .fin (fpNeg f x) (2 ^ f.tbits + fracField f x) (2 ^ (f.bias + f.tbits - expField f x)) := by
    simp only [fpValue, hnan, hinf, Bool.false_eq_true, if_false]
    rfl
  rw [hfin, scaledNum, scaledDen, sigOf, scaleOf]
  by_cases hexp : expField f x = 0
  · have hscale : ((max 1 0 : Nat) - (f.bias : Int) - f.tbits).toNat = 0 ∧
        (-((max 1 0 : Nat) - (f.bias : Int) - f.tbits)).toNat = f.bias + f.tbits - 1 := by omega
    rw [hexp, if_pos (beq_self_eq_true 0), if_pos rfl, hscale.1, hscale.2, Nat.pow_zero, Nat.mul_one]
  · rw [if_neg (mt eq_of_beq hexp), if_neg hexp, Nat.max_eq_right (Nat.pos_of_ne_zero hexp)]
    by_cases hwhole : f.bias + f.tbits ≤ expField f x
    · have hscale : ((expField f x : Int) - f.bias - f.tbits).toNat = expField f x - f.bias - f.tbits ∧
          (-((expField f x : Int) - f.bias - f.tbits)).toNat = 0 := by omega
      rw [if_pos hwhole, hscale.1, hscale.2, Nat.pow_zero]
    · have hscale : ((expField f x : Int) - f.bias - f.tbits).toNat = 0 ∧
          (-((expField f x : Int) - f.bias - f.tbits)).toNat = f.bias + f.tbits - expField f x := by omega
      rw [if_neg hwhole, hscale.1, hscale.2, Nat.pow_zero, Nat.mul_one]

/-- A finite pattern is not past the greatest. -/
theorem fpMag_le_maxPat {f : FpFmt} {x : Nat} (hnan : isNan f x = false) (hinf : (f.hasInf && fpMag f x == f.infPat) = false) :
    fpMag f x ≤ f.maxPat := by
  cases f with
  | e4m3 =>
    have hlt : fpMag .e4m3 x < 0x80 := fpMag_lt .e4m3 x
    have hne : fpMag .e4m3 x ≠ 0x7F := ne_of_beq_false hnan
    show fpMag .e4m3 x ≤ 0x7E
    omega
  | f64 | f32 | f16 | bf16 | e5m2 =>
    have hle := Nat.not_lt.mp (of_decide_eq_false hnan)
    exact Nat.le_sub_one_of_lt (Nat.lt_of_le_of_ne hle (ne_of_beq_false hinf))

/-- With infinities, the exponent field of a finite pattern is not all ones. -/
theorem expField_le_of_hasInf {f : FpFmt} (hf : f.hasInf = true) {x : Nat} (hx : fpMag f x ≤ f.maxPat) :
    expField f x ≤ 2 * f.bias := by
  have hmax : f.maxPat < (2 * f.bias + 1) * 2 ^ f.tbits := by
    cases f with
    | e4m3 => exact absurd hf Bool.false_ne_true
    | f64 | f32 | f16 | bf16 | e5m2 => decide
  exact Nat.le_of_lt_succ ((Nat.div_lt_iff_lt_mul (Nat.two_pow_pos _)).mpr (Nat.lt_of_le_of_lt hx hmax))

theorem sigOf_lt (f : FpFmt) (x : Nat) : sigOf f x < 2 ^ (f.tbits + 1) := by
  have hfrac := fracField_lt f x
  rw [sigOf, Nat.pow_succ]
  split <;> omega

/-- Without infinities, the greatest exponent field has the NaN as its greatest significand. -/
theorem sigOf_le_max_e4m3 {x : Nat} (hx : fpMag .e4m3 x ≤ 0x7E) :
    scaleOf .e4m3 x ≤ 5 ∧ sigOf .e4m3 x ≤ 14 * 2 ^ (5 - scaleOf .e4m3 x).toNat := by
  have hlt : sigOf .e4m3 x < 16 := sigOf_lt .e4m3 x
  have hmag : fpMag .e4m3 x = expField .e4m3 x * 8 + fracField .e4m3 x := fpMag_eq_fields .e4m3 x
  have hscale : scaleOf .e4m3 x = (max 1 (expField .e4m3 x) : Nat) - (7 : Int) - 3 := rfl
  refine ⟨by omega, ?_⟩
  by_cases htop : expField .e4m3 x = 15
  · have hsig : sigOf .e4m3 x = 8 + fracField .e4m3 x := if_neg (by omega)
    exact Nat.le_trans (by omega) (Nat.le_mul_of_pos_right _ (Nat.two_pow_pos _))
  · have htwo : 2 ^ 1 ≤ 2 ^ (5 - scaleOf .e4m3 x).toNat := Nat.pow_le_pow_right Nat.two_pos (by omega)
    omega

/-- A finite pattern is at most the greatest significand at the greatest scale. -/
theorem sigOf_le_max {f : FpFmt} {x : Nat} (hx : fpMag f x ≤ f.maxPat) :
    scaleOf f x ≤ maxScale f ∧ sigOf f x ≤ maxSig f * 2 ^ (maxScale f - scaleOf f x).toNat := by
  have hlt := sigOf_lt f x
  have hbias := bias_pos f
  cases hf : f.hasInf with
  | true =>
    have hexp := expField_le_of_hasInf hf hx
    rw [maxSig, maxScale, scaleOf, if_pos hf, if_pos hf]
    exact ⟨by omega, Nat.le_trans (by omega) (Nat.le_mul_of_pos_right _ (Nat.two_pow_pos _))⟩
  | false =>
    obtain rfl : f = .e4m3 := by
      cases f with
      | e4m3 => rfl
      | f64 | f32 | f16 | bf16 | e5m2 => cases hf
    exact sigOf_le_max_e4m3 hx

theorem representable_of_fpMag_le {f : FpFmt} {x : Nat} (hx : fpMag f x ≤ f.maxPat) (hsig : sigOf f x ≠ 0) :
    Representable f (sigOf f x) (scaleOf f x) where
  ne_zero := hsig
  lt := sigOf_lt f x
  minScale_le := by rw [scaleOf, minScale]; omega
  subnormal hsub := by
    have hexp : expField f x = 0 := by
      refine Decidable.byContradiction fun hne => ?_
      rw [sigOf, if_neg hne] at hsub
      omega
    rw [scaleOf, minScale, hexp]
    rfl
  le_maxScale := (sigOf_le_max hx).1
  le_max := (sigOf_le_max hx).2

theorem fpMag_of_sigOf (f : FpFmt) (x : Nat) : fpMag f x = if sigOf f x < 2 ^ f.tbits then sigOf f x
    else (scaleOf f x - minScale f).toNat * 2 ^ f.tbits + sigOf f x := by
  have hfrac := fracField_lt f x
  rw [fpMag_eq_fields, sigOf, scaleOf, minScale]
  cases hexp : expField f x with
  | zero => simp [hfrac]
  | succ e =>
    have hscale : (((max 1 (e + 1) : Nat) : Int) - (f.bias : Int) - f.tbits - (1 - (f.bias : Int) - f.tbits)).toNat = e := by
      omega
    rw [if_neg (Nat.succ_ne_zero e), if_neg (by omega), hscale, Nat.succ_mul, Nat.add_assoc]

theorem roundFp_zero (f : FpFmt) (rnd : Nat) (sat neg : Bool) (den : Nat) : roundFp f rnd sat neg 0 den = signBit f neg :=
  if_pos rfl

theorem roundingKeepsExactValues : RoundingKeepsExactValues := by
  intro f rnd sat x neg num den _ hx hvalue
  obtain ⟨hnan, hinf⟩ := finite_of_fpValue hvalue
  obtain ⟨rfl, rfl, rfl⟩ := FVal.fin.inj ((fpValue_of_finite hnan hinf).symm.trans hvalue)
  have hmag := fpMag_of_sigOf f x
  by_cases hsig : sigOf f x = 0
  · rw [hsig, if_pos (Nat.two_pow_pos _)] at hmag
    rw [hsig, scaledNum, Nat.zero_mul, roundFp_zero, ← Nat.add_zero (signBit ..), ← hmag, signBit_add_fpMag hx]
  · rw [(representable_of_fpMag_le (fpMag_le_maxPat hnan hinf) hsig).roundFp_eq, ← hmag, signBit_add_fpMag hx]

/-- Settles O10: each sub-element is followed to where it comes from, and a finite pattern is a significand that rounding finds
again. -/
theorem floatingPointFollowsItsRules : Obligations.FloatingPointFollowsItsRules :=
  ⟨packingAndConversion, floatingDatapath, roundingKeepsExactValues, nansPropagateInOrder⟩

end Sys2Proof.VectorInstructions
end

open Sys2Proof Sys2Proof.Machine
section
/-! PROOFS. The dispensers (O21): TQFILL does not touch the full/empty bit of its destination when it takes its reply. -/

namespace Sys2Proof.MemorySync

open Sys2Proof.Machine

/-- A team whose TQFILL into s1 has its reply, while the empty bit of s1 is set; dispenser 0 of its launch has a header. -/
def emptyAtReply : State :=
  { levels := [{ kind := .launch, part := 0, handle := 0, serial := 0, tqhdr := [64] }],
    team := { asked := true, reply := some {}, sEmpty := 2 } }

theorem replied_emptyAtReply : Replied emptyAtReply {} where
  asked := rfl
  reply := rfl
  good := rfl
  clean := ⟨rfl, rfl⟩
  inner := nofun

/-- Refutes O21: when a TQFILL takes its reply (R264) the empty bit of d stays as it is, since its request never set it; the
statement says that d is then full. In `emptyAtReply` it was set. -/
theorem not_queuesAndDispensersMoveRecords : ¬ Obligations.QueuesAndDispensersMoveRecords := by
  unfold Obligations.QueuesAndDispensersMoveRecords DispensersMoveRecords
  rintro ⟨-, ⟨-, -, -, -, htakes, -⟩, -⟩
  have hexec := htakes 1 0 ⟨0, false⟩ ⟨0, false⟩ ⟨0, false⟩ emptyAtReply {} (by decide) replied_emptyAtReply
  have hbits := congrArg (fun t => t.team.sEmpty) (Host.Outcome.next.inj hexec)
  exact absurd hbits (by decide)

end Sys2Proof.MemorySync
end

section
/-! PROOFS. Writes (R79, R85, R91): what performing a write, a write-back and the stores of a party can change of the package,
and the bytes of memory afterwards. -/

namespace Sys2Proof.MemorySync

open Sys2Proof.Machine Sys2Proof.RegisterState Sys2Proof.MemoryHierarchy Sys2Proof.ConsistencyModel Sys2Proof.NumberFormats

/-! ### What a write can change -/

/-- The writes of one party change memory, the dirty bytes, the caches, the annexes, the marks of poison and the reports. -/
def WritesOnly (s t : State) : Prop :=
  t = { s with mem := t.mem, dirty := t.dirty, l1 := t.l1, l2 := t.l2, annex := t.annex, annexCnt := t.annexCnt,
               poisonLines := t.poisonLines, poisonGranules := t.poisonGranules, spans := t.spans }

theorem WritesOnly.refl (s : State) : WritesOnly s s := rfl

theorem WritesOnly.trans {s t u : State} (h : WritesOnly s t) (h' : WritesOnly t u) : WritesOnly s u := by
  rw [show u = _ from h', show t = _ from h]
  rfl

section
variable {s t : State} (h : WritesOnly s t)
include h

theorem WritesOnly.team : t.team = s.team := by rw [show t = _ from h]
theorem WritesOnly.others : t.others = s.others := by rw [show t = _ from h]
theorem WritesOnly.service : t.service = s.service := by rw [show t = _ from h]
theorem WritesOnly.pkstat : t.pkstat = s.pkstat := by rw [show t = _ from h]
theorem WritesOnly.tags : t.tags = s.tags := by rw [show t = _ from h]
theorem WritesOnly.locks : t.locks = s.locks := by rw [show t = _ from h]
theorem WritesOnly.cores : t.cores = s.cores := by rw [show t = _ from h]
theorem WritesOnly.full : t.full = s.full := by rw [show t = _ from h]

theorem WritesOnly.unguarded (hs : Unguarded s) : Unguarded t := by
  unfold Unguarded
  rwa [h.tags, h.locks, h.pkstat]

end

theorem writesOnly_of_noted {s t : State} (h : ∃ a b c d, t = noted s a b c d) : WritesOnly s t := by
  obtain ⟨a, b, c, d, rfl⟩ := h
  rfl

theorem writesOnly_of_notedRead {s t : State} (h : NotedRead s t) : WritesOnly s t := by
  rw [show t = _ from h]
  rfl

theorem writesOnly_clearPoison (s : State) (ps : List (Nat × Nat)) : WritesOnly s (clearPoison s ps) := rfl

theorem writesOnly_rawWrite (s : State) (loc : Nat) (bs : List Byte) : WritesOnly s (rawWrite s loc bs) := rfl

theorem writesOnly_collapse (s : State) (loc n : Nat) : WritesOnly s (collapse s loc n) := by
  simp only [collapse]
  split <;> rfl

theorem writesOnly_countWrites (s : State) (loc n : Nat) : WritesOnly s (countWrites s loc n) := by
  unfold countWrites
  split <;> rfl

theorem writesOnly_markWhole (s : State) (k : Nat) (ls : List Nat) (w : Bool) : WritesOnly s (markWhole s k ls w) := by
  unfold markWhole
  split <;> rfl

theorem writesOnly_ownLines (s : State) (own : Option Nat) (loc n : Nat) : WritesOnly s (ownLines s own loc n) :=
  writesOnly_of_noted (ownLines_eq_noted s own loc n)

theorem writesOnly_ownWrite (s : State) (loc : Nat) (bs : List Byte) : WritesOnly s (ownWrite s loc bs) :=
  (writesOnly_ownLines s none loc bs.length).trans (writesOnly_rawWrite ..)

/-- The annexes and the copies in other L1s are gone, and a write that is not a write-back clears poison, before a write takes
effect. -/
def readied (own : Option Nat) (s : State) (loc n : Nat) : State :=
  if own.isSome then ownLines s own loc n else clearPoison (ownLines s own loc n) [(loc, n)]

theorem writesOnly_readied (own : Option Nat) (s : State) (loc n : Nat) : WritesOnly s (readied own s loc n) := by
  unfold readied
  split
  · exact writesOnly_ownLines ..
  · exact (writesOnly_ownLines s own loc n).trans (writesOnly_clearPoison ..)

theorem readied_dirty (own : Option Nat) (s : State) (loc n : Nat) : (readied own s loc n).dirty = s.dirty := by
  obtain ⟨a, b, c, d, h⟩ := ownLines_eq_noted s own loc n
  unfold readied
  rw [h]
  split <;> rfl

theorem report_spans (s : State) (p : BitVec 4) (rep : Byte) (target addr : Word) :
    ∃ sp, report s p rep target addr = { s with spans := sp } := by
  simp only [report]
  split <;> exact ⟨_, rfl⟩

theorem readied_mem (own : Option Nat) (s : State) (loc n : Nat) : (readied own s loc n).mem = s.mem := by
  unfold readied
  split <;> exact ownLines_mem ..

/-- A write is performed in three steps: lines are readied, the bytes that nothing guards are written, and what was hit is
reported. -/
theorem performBy_eq (own : Option Nat) (s : State) (p : BitVec 4) (pl : Place) (loc : Nat) (bs : List Byte) :
    ∃ m sp, performBy own s p pl loc bs = { readied own s loc bs.length with mem := m, spans := sp } ∧
      (m = writeFree s loc bs ∨
        m = writeCells s.mem loc bs ∧ tagHit s loc bs.length = none ∧ lockHit s loc bs.length = none ∧
          s.pkstat.lost = 0 ∧ s.pkstat.mlost = 0) := by
  have hreports := report_spans { readied own s loc bs.length with mem := writeFree s loc bs } p
  cases htag : tagHit s loc bs.length with
  | none =>
    cases hlock : lockHit s loc bs.length with
    | none =>
      have hfree : performBy own s p pl loc bs = if s.pkstat.lost = 0 && s.pkstat.mlost = 0
          then rawWrite (readied own s loc bs.length) loc bs
          else { readied own s loc bs.length with mem := writeFree s loc bs } := by
        simp only [performBy, htag, hlock]
        rfl
      rw [hfree]
      split
      · next hlost =>
        simp only [Bool.and_eq_true, decide_eq_true_iff] at hlost
        exact ⟨_, _, rfl, .inr ⟨congrArg (writeCells · loc bs) (readied_mem ..), rfl, rfl, hlost.1, hlost.2⟩⟩
      · exact ⟨_, _, rfl, .inl rfl⟩
    | some l =>
      have hrecord : performBy own s p pl loc bs =
          report { readied own s loc bs.length with mem := writeFree s loc bs } p 1 (targetWord pl) (addrOfLoc s l) := by
        simp only [performBy, htag, hlock]
        rfl
      obtain ⟨sp, h⟩ := hreports 1 (targetWord pl) (addrOfLoc s l)
      exact ⟨_, sp, hrecord.trans h, .inl rfl⟩
  | some o =>
    obtain ⟨sp, h⟩ := hreports 2 (targetWord pl) (addrOfLoc s loc)
    cases hlock : lockHit s loc bs.length with
    | none =>
      have hobject : performBy own s p pl loc bs =
          report { readied own s loc bs.length with mem := writeFree s loc bs } p 2 (targetWord pl) (addrOfLoc s loc) := by
        simp only [performBy, htag, hlock]
        rfl
      exact ⟨_, sp, hobject.trans h, .inl rfl⟩
    | some l =>
      have hboth : performBy own s p pl loc bs =
          report (report { readied own s loc bs.length with mem := writeFree s loc bs } p 2 (targetWord pl)
            (addrOfLoc s loc)) p 1 (targetWord pl) (addrOfLoc s l) := by
        simp only [performBy, htag, hlock]
        rfl
      rw [h] at hboth
      obtain ⟨sq, h'⟩ := report_spans { readied own s loc bs.length with mem := writeFree s loc bs, spans := sp } p 1
        (targetWord pl) (addrOfLoc s l)
      exact ⟨_, sq, hboth.trans h', .inl rfl⟩

theorem writesOnly_performBy (own : Option Nat) (s : State) (p : BitVec 4) (pl : Place) (loc : Nat) (bs : List Byte) :
    WritesOnly s (performBy own s p pl loc bs) := by
  obtain ⟨m, sp, h, -⟩ := performBy_eq own s p pl loc bs
  refine (writesOnly_readied own s loc bs.length).trans ?_
  rw [h]
  rfl

theorem performBy_dirty (own : Option Nat) (s : State) (p : BitVec 4) (pl : Place) (loc : Nat) (bs : List Byte) :
    (performBy own s p pl loc bs).dirty = s.dirty := by
  obtain ⟨m, sp, h, -⟩ := performBy_eq own s p pl loc bs
  rw [h]
  exact readied_dirty ..

theorem writesOnly_performStore (s : State) (p : BitVec 4) (pl : Place) (loc : Nat) (bs : List Byte) :
    WritesOnly s (performStore s p pl loc bs) := writesOnly_performBy ..

theorem writesOnly_flushWhere (s : State) (p : Nat → Nat → Bool) : WritesOnly s (flushWhere s p) :=
  foldl_keeps (WritesOnly s) (fun _ _ h => h.trans (writesOnly_performBy ..)) _ (show WritesOnly s (takenOut s p) from rfl)

theorem writesOnly_noteRead (s : State) (w : Who) (loc : Nat) : WritesOnly s (noteRead s w loc) :=
  writesOnly_of_noted (noteRead_eq s w loc)

theorem writesOnly_storeOut (s : State) (w : Who) (loc : Nat) (bs : List Byte) : WritesOnly s (storeOut s w loc bs) := by
  unfold storeOut
  split
  · exact (show WritesOnly s { s with dirty := writeDirty s.dirty (placeKey w.place) w.part w.place loc bs } from rfl).trans
      ((writesOnly_countWrites ..).trans rfl)
  · exact writesOnly_performStore ..

/-! ### Bytes of memory -/

/-- Of the bytes written, those that are not discarded stand where they were put. -/
theorem mapGet_writeFree (s : State) (loc : Nat) (bs : List Byte) (a : Nat) :
    mapGet 0 (writeFree s loc bs) a =
      if (loc ≤ a ∧ a < loc + bs.length) ∧ blockedByte s a = false then bs.getD (a - loc) 0 else memByte s a := by
  induction bs generalizing loc with
  | nil => exact (if_neg fun h => by simp at h; omega).symm
  | cons b bs ih =>
    have hat : ¬ a = loc → mapGet 0 (writeFree s (loc + 1) bs) a =
        if (loc ≤ a ∧ a < loc + (b :: bs).length) ∧ blockedByte s a = false then (b :: bs).getD (a - loc) 0
        else memByte s a := fun hne => by
      rw [ih]
      have hrange : (loc + 1 ≤ a ∧ a < loc + 1 + bs.length) ↔ (loc ≤ a ∧ a < loc + (b :: bs).length) := by
        simp only [List.length_cons]; omega
      refine ite_congr (propext (and_congr_left' hrange)) (fun h => ?_) fun _ => rfl
      rw [show a - loc = a - (loc + 1) + 1 by omega, List.getD_cons_succ]
    simp only [writeFree]
    by_cases hne : a = loc
    · subst hne
      split
      · next hblocked => rw [ih, if_neg (by omega), if_neg (by simp [hblocked])]
      · next hblocked => simp [hblocked]
    · split
      · exact hat hne
      · rw [mapGet_mapSet_ne _ _ _ hne, hat hne]

/-- What no barrier object, no held record and no lost die lies under is written. -/
theorem blockedByte_of_unhit {s : State} {loc n a : Nat} (htag : tagHit s loc n = none) (hlock : lockHit s loc n = none)
    (hlost : s.pkstat.lost = 0) (hmlost : s.pkstat.mlost = 0) (ha : loc ≤ a ∧ a < loc + n) : blockedByte s a = false := by
  simp only [tagHit, lockHit, List.find?_eq_none, overlaps, Bool.and_eq_true, decide_eq_true_iff] at htag hlock
  have htag1 : tagHit s a 1 = none := List.find?_eq_none.mpr fun x hx => by
    have := htag x hx
    simp only [overlaps, Bool.and_eq_true, decide_eq_true_iff]
    omega
  have hlock1 : lockHit s a 1 = none := List.find?_eq_none.mpr fun x hx => by
    have := hlock x hx
    simp only [overlaps, Bool.and_eq_true, decide_eq_true_iff]
    omega
  simp [blockedByte, htag1, hlock1, homeLost, memoryLost, hlost, hmlost]

/-- A write performed puts its bytes in memory, but for those that are discarded (R292, R439, R449). -/
theorem memByte_performBy (own : Option Nat) (s : State) (p : BitVec 4) (pl : Place) (loc : Nat) (bs : List Byte) (a : Nat) :
    memByte (performBy own s p pl loc bs) a =
      if (loc ≤ a ∧ a < loc + bs.length) ∧ blockedByte s a = false then bs.getD (a - loc) 0 else memByte s a := by
  obtain ⟨m, sp, h, rfl | ⟨rfl, htag, hlock, hlost, hmlost⟩⟩ := performBy_eq own s p pl loc bs
  · rw [h]
    exact mapGet_writeFree ..
  · rw [h]
    refine (mapGet_writeCells s.mem loc bs a).trans (ite_congr (propext ?_) (fun _ => rfl) fun _ => rfl)
    exact ⟨fun ha => ⟨ha, blockedByte_of_unhit htag hlock hlost hmlost ha⟩, fun ha => ha.1⟩

theorem memByte_performBy_off (own : Option Nat) (s : State) (p : BitVec 4) (pl : Place) {loc : Nat} {bs : List Byte} {a : Nat}
    (h : ¬(loc ≤ a ∧ a < loc + bs.length)) : memByte (performBy own s p pl loc bs) a = memByte s a := by
  rw [memByte_performBy, if_neg fun hand => h hand.1]

/-- Where nothing guards memory, every byte of a store is performed. -/
theorem blockedByte_unguarded {s : State} (h : Unguarded s) (a : Nat) : blockedByte s a = false := by
  obtain ⟨htags, hlocks, hlost, hmlost⟩ := h
  simp [blockedByte, tagHit, lockHit, htags, hlocks, homeLost, memoryLost, hlost, hmlost]

/-! ### Write-backs -/

/-- With no dirty byte there is nothing to write back. -/
theorem flushWhere_clean {s : State} (h : s.dirty = []) (p : Nat → Nat → Bool) : flushWhere s p = s := by
  have hpoison : clearPoison s [] = s := by
    have hwhole : ∀ base size : Nat, 0 < size → ((List.range size).all fun i =>
        (([] : List (Nat × Nat)).any fun x => x.1 ≤ base + i && base + i < x.1 + x.2) && !blockedByte s (base + i)) = false :=
      fun base size hsize => List.all_eq_false.mpr ⟨0, List.mem_range.mpr hsize, by simp⟩
    simp only [clearPoison, hwhole _ _ (show 0 < 128 by decide), hwhole _ _ (show 0 < 16 by decide), Bool.not_false,
      List.filter_true]
  have htaken : takenOut s p = s := by
    have hdirty : { s with dirty := [] } = s := by rw [← h]
    simp only [takenOut, h, List.filter_nil, wholeDirty, List.map_nil, hdirty, hpoison]
  rw [flushWhere_eq, htaken, h]
  rfl

theorem flushLines_clean {s : State} (h : s.dirty = []) (loc n : Nat) : flushLines s loc n = s := flushWhere_clean h _

theorem flushCore_clean {s : State} (h : s.dirty = []) (k : Nat) : flushCore s k = s := flushWhere_clean h _

/-- What a test picks has left the L1s after a flush. -/
theorem flushWhere_none (s : State) (p : Nat → Nat → Bool) {k loc : Nat} (hloc : loc < 2 ^ 56) (hp : p k loc = true) :
    mapGet none (flushWhere s p).dirty (dirtyKey k loc) = none := by
  have hdirty : (flushWhere s p).dirty = s.dirty.filter fun x => !picks p x :=
    foldl_keeps (fun t => t.dirty = s.dirty.filter fun x => !picks p x) (fun t r h => (performBy_dirty ..).trans h) _ rfl
  refine Decidable.byContradiction fun hne => ?_
  rw [hdirty] at hne
  have hmem := (List.mem_filter.mp (mem_of_mapGet_ne hne)).2
  rw [dirtyKey, picks_dirtyKey p hloc, hp] at hmem
  exact Bool.noConfusion hmem

end Sys2Proof.MemorySync
end

section
/-! PROOFS. Service teams (R85, R250) and releases (R93): what requests performed at them change of the package, and which
requests are left. -/

namespace Sys2Proof.MemorySync

open Sys2Proof.Machine Sys2Proof.RegisterState Sys2Proof.MemoryHierarchy Sys2Proof.ConsistencyModel Sys2Proof.ScalarControl

/-! ### Replies -/

/-- What a reply changes of a team: the results on their way, and the poison that its request has met. -/
def RepliesOnly (t u : Team) : Prop := u = { t with inflight := u.inflight, softErr := u.softErr }

theorem RepliesOnly.refl (t : Team) : RepliesOnly t t := rfl

theorem repliesOnly_of_eq {t u : Team} (h : u = t) : RepliesOnly t u := by
  subst h
  rfl

theorem RepliesOnly.trans {t u v : Team} (h : RepliesOnly t u) (h' : RepliesOnly u v) : RepliesOnly t v := by
  rw [show v = _ from h', show u = _ from h]
  rfl

section
variable {t u : Team} (h : RepliesOnly t u)
include h

theorem RepliesOnly.sPoison : u.sPoison = t.sPoison := by rw [show u = _ from h]
theorem RepliesOnly.vPoison : u.vPoison = t.vPoison := by rw [show u = _ from h]
theorem RepliesOnly.lstk : u.lstk = t.lstk := by rw [show u = _ from h]
theorem RepliesOnly.mode : u.mode = t.mode := by rw [show u = _ from h]
theorem RepliesOnly.place : u.place = t.place := by rw [show u = _ from h]
theorem RepliesOnly.asked : u.asked = t.asked := by rw [show u = _ from h]

end

/-! ### One request -/

/-- What the service teams change of the package beside the teams that wait for them is what writes change. -/
structure ServesOnly (s t : State) : Prop where
  team : RepliesOnly s.team t.team
  rest : WritesOnly { s with team := t.team, others := t.others } t

theorem servesOnly_of_writes {s t : State} (h : WritesOnly s t) : ServesOnly s t := by
  refine ⟨repliesOnly_of_eq h.team, ?_⟩
  rw [h.team, h.others]
  exact h

theorem ServesOnly.refl (s : State) : ServesOnly s s := servesOnly_of_writes (.refl s)

theorem ServesOnly.trans {s t u : State} (h : ServesOnly s t) (h' : ServesOnly t u) : ServesOnly s u where
  team := h.team.trans h'.team
  rest := by
    rw [WritesOnly, show u = _ from h'.rest, show t = _ from h.rest]

section
variable {s t : State} (h : ServesOnly s t)
include h

theorem ServesOnly.service : t.service = s.service := h.rest.service
theorem ServesOnly.pkstat : t.pkstat = s.pkstat := h.rest.pkstat
theorem ServesOnly.unguarded (hs : Unguarded s) : Unguarded t := h.rest.unguarded hs

end

theorem mapTeam_id (s : State) (p : Place) : mapTeam s p id = s := by
  unfold mapTeam
  split
  · rfl
  · simp

theorem servesOnly_mapTeam (s : State) (p : Place) {f : Team → Team} (hf : ∀ t, RepliesOnly t (f t)) :
    ServesOnly s (mapTeam s p f) := by
  unfold mapTeam
  split
  · exact ⟨hf s.team, rfl⟩
  · exact ⟨.refl _, rfl⟩

/-- The package as a request leaves it before its reply: it is not performed, or its lines are flushed and its word is
written or not. -/
inductive RequestDone (s : State) (e : SvcEntry) : State → Prop where
  | unanswered : RequestDone s e s
  | flushed : RequestDone s e (flushLines s e.req.loc (atomBytes e.req.dw))
  | written (v : Nat) : RequestDone s e
      (performStore (flushLines s e.req.loc (atomBytes e.req.dw)) e.part e.place e.req.loc (bytesOfNat (atomBytes e.req.dw) v))
  | counted : RequestDone s e (countWrites (flushLines s e.req.loc (atomBytes e.req.dw)) e.req.loc (atomBytes e.req.dw))

theorem serveAtom_cases (s : State) (e : SvcEntry) :
    ∃ u f, serveAtom s e = mapTeam u e.place f ∧ RequestDone s e u ∧ ∀ t, RepliesOnly t (f t) := by
  have hid : ∀ t : Team, RepliesOnly t (id t) := fun t => .refl t
  simp only [serveAtom]
  split
  · exact ⟨s, id, (mapTeam_id ..).symm, .unanswered, hid⟩
  split
  · exact ⟨_, _, rfl, .flushed, fun _ => rfl⟩
  split <;> split
  · exact ⟨_, _, rfl, .written _, fun _ => rfl⟩
  · exact ⟨_, _, rfl, .counted, fun _ => rfl⟩
  · exact ⟨_, id, (mapTeam_id ..).symm, .written _, hid⟩
  · exact ⟨_, id, (mapTeam_id ..).symm, .counted, hid⟩

theorem RequestDone.writesOnly {s u : State} {e : SvcEntry} (h : RequestDone s e u) : WritesOnly s u := by
  cases h with
  | unanswered => exact .refl s
  | flushed => exact writesOnly_flushWhere ..
  | written v => exact (writesOnly_flushWhere ..).trans (writesOnly_performStore ..)
  | counted => exact (writesOnly_flushWhere ..).trans (writesOnly_countWrites ..)

theorem servesOnly_serveAtom (s : State) (e : SvcEntry) : ServesOnly s (serveAtom s e) := by
  obtain ⟨u, f, heq, hdone, hf⟩ := serveAtom_cases s e
  rw [heq]
  exact (servesOnly_of_writes hdone.writesOnly).trans (servesOnly_mapTeam u e.place hf)

/-! ### Requests in turn, and releases -/

theorem servesOnly_foldl (es : List SvcEntry) (s : State) : ServesOnly s (es.foldl serveAtom s) :=
  foldl_keeps (ServesOnly s) (fun t e h => h.trans (servesOnly_serveAtom t e)) es (.refl s)

theorem servesOnly_drain (s : State) :
    ServesOnly { s with service := s.service.filter fun e => serviceHalted s e.req.loc } (drain s) := servesOnly_foldl ..

/-- Only requests that a halted die holds are left (R452). -/
theorem drain_service (s : State) : (drain s).service = s.service.filter fun e => serviceHalted s e.req.loc :=
  (servesOnly_drain s).service

theorem repliesOnly_drain (s : State) : RepliesOnly s.team (drain s).team := (servesOnly_drain s).team

/-- A release performs the requests, and may flush a core. -/
theorem release_cases (s : State) (sc : Scope) :
    release s sc = s ∨ release s sc = drain s ∨ release s sc = flushCore (drain s) (placeKey s.team.place) := by
  cases sc with
  | team => exact .inl rfl
  | core => exact .inr (.inl rfl)
  | block =>
    rw [release]
    split
    · exact .inr (.inr rfl)
    · exact .inr (.inl rfl)
  | die | dev | sys => exact .inr (.inr rfl)

theorem repliesOnly_release (s : State) (sc : Scope) : RepliesOnly s.team (release s sc).team := by
  obtain h | h | h := release_cases s sc
  · rw [h]; exact .refl _
  · rw [h]; exact repliesOnly_drain s
  · rw [h]
    exact (repliesOnly_drain s).trans (repliesOnly_of_eq (writesOnly_flushWhere ..).team)

/-- Beyond the team, the requests that are left are those that a halted die holds. -/
theorem release_service (s : State) {sc : Scope} (h : sc ≠ .team) :
    (release s sc).service = s.service.filter fun e => serviceHalted s e.req.loc := by
  have hflush : (flushCore (drain s) (placeKey s.team.place)).service = s.service.filter fun e => serviceHalted s e.req.loc :=
    (writesOnly_flushWhere ..).service.trans (drain_service s)
  cases sc with
  | team => exact absurd rfl h
  | core => exact drain_service s
  | block =>
    rw [release]
    split
    · exact hflush
    · exact drain_service s
  | die | dev | sys => exact hflush

/-- With nothing on its way to memory a release has nothing to do. -/
theorem release_settled {s : State} (h : Settled s) (sc : Scope) : release s sc = s := by
  obtain ⟨hservice, hdirty, -⟩ := h
  have hflush : flushCore (drain s) (placeKey s.team.place) = s := by rw [drain_idle hservice, flushCore_clean hdirty]
  obtain h | h | h := release_cases s sc
  · exact h
  · rw [h, drain_idle hservice]
  · rw [h, hflush]

theorem releaseWaits_settled {s : State} (h : Settled s) (sc : Scope) : releaseWaits s sc = false := by
  obtain ⟨hservice, hdirty, -⟩ := h
  cases sc <;> simp [releaseWaits, releaseWaits.sent, releaseWaits.waits, hservice, hdirty]

/-- An effect behind a release, with nothing on its way to memory. -/
theorem relThen_settled {s : State} (h : Settled s) (sc : Scope) (k : State → Eff) : relThen s sc k = k s := by
  rw [relThen_go (releaseWaits_settled h sc), release_settled h]

/-! ### Instructions behind a release -/

theorem issue_retire_release {i : Instr} {s s1 u : State} {body : State → Eff} (h : Goes i s s1) (sc : Scope)
    (hu : WritesOnly (release s1 sc) u) (he : body s1 = .retire u) :
    issue i s body = .next (goesOn u (nextPc i s)) := by
  have hteam := (repliesOnly_release s1 sc).trans (repliesOnly_of_eq hu.team)
  exact issue_retire h.toIssues he (hteam.sPoison.trans h.cleanS) (hteam.vPoison.trans h.cleanV) (hteam.lstk ▸ h.inner)

end Sys2Proof.MemorySync
end

section
/-! PROOFS. Fences and cache hints (O18, R252, R265): what a core reads is the same before and after the write-backs that they
ask for. -/

namespace Sys2Proof.MemorySync

open Sys2Proof.Machine Sys2Proof.RegisterState Sys2Proof.MemoryHierarchy Sys2Proof.ConsistencyModel Sys2Proof.NumberFormats
  Sys2Proof.ScalarControl

/-! ### What a core reads -/

theorem coreByte_eq {s : State} (p : BitVec 4) (k : Nat) {a : Nat} (ha : targetOf a ≠ .page) :
    coreByte s p k a = ((mapGet none s.dirty (dirtyKey k a)).map (·.b)).getD (memByte s a) := by
  simp only [coreByte, if_neg ha]
  cases mapGet none s.dirty (dirtyKey k a) <;> rfl

/-- Nothing guards memory, the dirty bytes are in canonical form, and no core but k holds one at a. -/
structure OwnByte (k a : Nat) (s : State) : Prop where
  free : Unguarded s
  wf : mapWf none s.dirty = true
  alone : ∀ c, c ≠ k → mapGet none s.dirty (dirtyKey c a) = none

theorem flushWhere_dirtyList (s : State) (p : Nat → Nat → Bool) :
    (flushWhere s p).dirty = s.dirty.filter fun x => !picks p x :=
  foldl_keeps (fun t => t.dirty = s.dirty.filter fun x => !picks p x) (fun _ _ h => (performBy_dirty ..).trans h) _ rfl

theorem dirty_flushWhere {s : State} (hwf : mapWf none s.dirty = true) (p : Nat → Nat → Bool) (c : Nat) {a : Nat}
    (ha : a < 2 ^ 56) : mapGet none (flushWhere s p).dirty (dirtyKey c a) =
      if p c a then none else mapGet none s.dirty (dirtyKey c a) := by
  rw [flushWhere_dirtyList, mapGet_filter hwf, dirtyKey, picks_dirtyKey p ha]
  cases p c a <;> rfl

/-- A flush that finds a byte in no other L1 moves the core's own to memory, where the core reads it as before. -/
theorem coreByte_flushWhere {s : State} (hfree : Unguarded s) (hwf : mapWf none s.dirty = true) {p : Nat → Nat → Bool}
    (hp : StaysInCore p) {k a : Nat} (ha : a < 2 ^ 56) (hpage : targetOf a ≠ .page)
    (halone : ∀ c, c ≠ k → p c a = true → mapGet none s.dirty (dirtyKey c a) = none) (q : BitVec 4) :
    coreByte (flushWhere s p) q k a = coreByte s q k a := by
  rw [coreByte_eq q k hpage, coreByte_eq q k hpage, dirty_flushWhere hwf p k ha]
  obtain ⟨-, -, hmem⟩ := foldl_performRun (runsOf (s.dirty.filter (picks p))) (s := takenOut s p) hfree
  obtain ⟨r, hr, hheld⟩ | ⟨hnot, hsame⟩ := hmem a
  · obtain ⟨d, hd, hdb⟩ := (runsOf_heldAt _ _ _).mp ⟨r, hr, heldAt_key hheld⟩
    obtain ⟨hin, hpick⟩ := List.mem_filter.mp hd
    have hget := mapGet_of_mem hwf hin
    rw [picks_dirtyKey p ha] at hpick
    obtain rfl : r.key / 2 ^ 56 = k := Decidable.byContradiction fun hne =>
      absurd (hget.symm.trans (halone _ hne hpick)) (Option.some_ne_none d)
    rw [if_pos hpick, dirtyKey, hget]
    exact hdb.symm
  · rw [← show memByte (flushWhere s p) a = memByte s a from hsame]
    split
    · next hpk =>
      cases hget : mapGet none s.dirty (dirtyKey k a) with
      | none => rfl
      | some d =>
        have hin := mem_of_mapGet_ne (d := none) (m := s.dirty) (k := dirtyKey k a) (by simp [hget])
        rw [hget] at hin
        obtain ⟨r, hr, hheld⟩ := (runsOf_heldAt _ _ _).mpr ⟨d, List.mem_filter.mpr ⟨hin, (picks_dirtyKey p ha _).trans hpk⟩, rfl⟩
        exact absurd (heldAt_location hp hr ha hheld) (hnot r hr d.b)
    · rfl

theorem OwnByte.flushWhere {s : State} {k a : Nat} (h : OwnByte k a s) (ha : a < 2 ^ 56) (p : Nat → Nat → Bool) :
    OwnByte k a (flushWhere s p) where
  free := (writesOnly_flushWhere s p).unguarded h.free
  wf := by
    rw [flushWhere_dirtyList]
    exact mapWf_filter h.wf _
  alone c hc := by rw [dirty_flushWhere h.wf p c ha, h.alone c hc, ite_self]

theorem OwnByte.coreByte_flushWhere {s : State} {k a : Nat} (h : OwnByte k a s) (ha : a < 2 ^ 56) {p : Nat → Nat → Bool}
    (hp : StaysInCore p) (hpage : targetOf a ≠ .page) (q : BitVec 4) :
    coreByte (Machine.flushWhere s p) q k a = coreByte s q k a :=
  MemorySync.coreByte_flushWhere h.free h.wf hp ha hpage (fun c hc _ => h.alone c hc) q

/-- A write elsewhere. -/
theorem OwnByte.of_writes {s t : State} {k a : Nat} (h : OwnByte k a s) (hw : WritesOnly s t) (hd : t.dirty = s.dirty) :
    OwnByte k a t where
  free := hw.unguarded h.free
  wf := by rw [hd]; exact h.wf
  alone := by rw [hd]; exact h.alone

theorem coreByte_congr {s t : State} {a : Nat} (hd : t.dirty = s.dirty) (hm : memByte t a = memByte s a)
    (hpage : targetOf a ≠ .page) (p : BitVec 4) (k : Nat) : coreByte t p k a = coreByte s p k a := by
  rw [coreByte_eq p k hpage, coreByte_eq p k hpage, hd, hm]

/-- The test that picks the lines of [loc, loc + n) in every core. -/
def inLines (loc n : Nat) (_ l : Nat) : Bool := loc / 128 ≤ l / 128 && l / 128 ≤ (loc + n - 1) / 128

theorem flushLines_eq (s : State) (loc n : Nat) : flushLines s loc n = flushWhere s (inLines loc n) := rfl

/-- A flush of the lines of a word stays in each core: the lines are two at most. -/
theorem staysInCore_inLines (loc : Nat) {n : Nat} (hn : n ≤ 8) : StaysInCore (inLines loc n) := by
  intro k ⟨hlast, hfirst⟩
  simp only [inLines, Bool.and_eq_true, decide_eq_true_iff] at hlast hfirst
  omega

theorem atomBytes_le (dw : Bool) : atomBytes dw ≤ 8 := by cases dw <;> decide

/-- What a request does before its reply leaves every byte that the core reads, but for those of its word. -/
theorem RequestDone.ownByte {s u : State} {e : SvcEntry} (hdone : RequestDone s e u) {k a : Nat} (h : OwnByte k a s)
    (ha : a < 2 ^ 56) (hpage : targetOf a ≠ .page) (hoff : ¬(e.req.loc ≤ a ∧ a < e.req.loc + atomBytes e.req.dw)) (q : BitVec 4) :
    OwnByte k a u ∧ coreByte u q k a = coreByte s q k a := by
  have hflush := h.flushWhere ha (inLines e.req.loc (atomBytes e.req.dw))
  have hsame := h.coreByte_flushWhere ha (staysInCore_inLines e.req.loc (atomBytes_le e.req.dw)) hpage q
  rw [← flushLines_eq] at hflush hsame
  cases hdone with
  | unanswered => exact ⟨h, rfl⟩
  | flushed => exact ⟨hflush, hsame⟩
  | written v =>
    refine ⟨hflush.of_writes (writesOnly_performStore ..) (performBy_dirty ..), ?_⟩
    rw [← hsame]
    exact coreByte_congr (performBy_dirty ..) (memByte_performBy_off _ _ _ _ (by rwa [bytesOfNat_length])) hpage q k
  | counted =>
    have hcounted : ∀ t : State, (countWrites t e.req.loc (atomBytes e.req.dw)).dirty = t.dirty := fun t => by
      unfold countWrites
      split <;> rfl
    refine ⟨hflush.of_writes (writesOnly_countWrites ..) (hcounted _), ?_⟩
    rw [← hsame]
    exact coreByte_congr (hcounted _) (by rw [memByte, countWrites_mem]; rfl) hpage q k

theorem mapTeam_dirty (s : State) (p : Place) (f : Team → Team) : (mapTeam s p f).dirty = s.dirty := by
  unfold mapTeam
  split <;> rfl

theorem serveAtom_ownByte {s : State} {e : SvcEntry} {k a : Nat} (h : OwnByte k a s) (ha : a < 2 ^ 56) (hpage : targetOf a ≠ .page)
    (hoff : ¬(e.req.loc ≤ a ∧ a < e.req.loc + atomBytes e.req.dw)) (q : BitVec 4) :
    OwnByte k a (serveAtom s e) ∧ coreByte (serveAtom s e) q k a = coreByte s q k a := by
  obtain ⟨u, f, heq, hdone, hf⟩ := serveAtom_cases s e
  obtain ⟨hu, hsame⟩ := hdone.ownByte h ha hpage hoff q
  have hdirty := mapTeam_dirty u e.place f
  rw [heq, ← hsame]
  refine ⟨⟨(servesOnly_mapTeam u e.place hf).unguarded hu.free, by rw [hdirty]; exact hu.wf, by rw [hdirty]; exact hu.alone⟩, ?_⟩
  exact coreByte_congr hdirty (by rw [memByte, mapTeam_mem]; rfl) hpage q k

theorem foldl_serveAtom_ownByte {es : List SvcEntry} {s : State} {k a : Nat} (h : OwnByte k a s) (ha : a < 2 ^ 56)
    (hpage : targetOf a ≠ .page) (hoff : ∀ e ∈ es, ¬(e.req.loc ≤ a ∧ a < e.req.loc + atomBytes e.req.dw)) (q : BitVec 4) :
    OwnByte k a (es.foldl serveAtom s) ∧ coreByte (es.foldl serveAtom s) q k a = coreByte s q k a := by
  induction es generalizing s with
  | nil => exact ⟨h, rfl⟩
  | cons e es ih =>
    rw [List.forall_mem_cons] at hoff
    obtain ⟨hs, hsame⟩ := serveAtom_ownByte h ha hpage hoff.1 q
    rw [List.foldl_cons, ← hsame]
    exact ih hs hoff.2

/-- A flush of one core stays in it. -/
theorem staysInCore_core (k : Nat) : StaysInCore fun c _ => c == k := fun c ⟨h, h'⟩ => by
  have := beq_iff_eq.mp h
  have := beq_iff_eq.mp h'
  omega

/-- A release changes no byte that the core reads but the words of the requests that it performs (R93). -/
theorem release_coreByte {s : State} {k a : Nat} (h : OwnByte k a s) (ha : a < 2 ^ 56) (hpage : targetOf a ≠ .page)
    (hoff : ∀ e ∈ s.service, ¬(e.req.loc ≤ a ∧ a < e.req.loc + atomBytes e.req.dw)) (sc : Scope) (q : BitVec 4) :
    coreByte (release s sc) q k a = coreByte s q k a := by
  obtain ⟨hdrain, hsame⟩ := foldl_serveAtom_ownByte (es := s.service.filter fun e => !serviceHalted s e.req.loc)
    (s := { s with service := s.service.filter fun e => serviceHalted s e.req.loc }) ⟨h.free, h.wf, h.alone⟩ ha hpage
    (fun e he => hoff e (List.mem_filter.mp he).1) q
  obtain hr | hr | hr := release_cases s sc
  · rw [hr]
  · rw [hr]; exact hsame
  · rw [hr]
    exact (OwnByte.coreByte_flushWhere (s := drain s) hdrain ha (staysInCore_core _) hpage q).trans hsame

/-- Beyond the block, the core's dirty bytes are performed by a release. -/
theorem release_dirty (s : State) {sc : Scope} (h : sc = .die ∨ sc = .dev ∨ sc = .sys) {a : Nat} (ha : a < 2 ^ 56) :
    mapGet none (release s sc).dirty (dirtyKey (placeKey s.team.place) a) = none := by
  have hflush : release s sc = flushCore (drain s) (placeKey s.team.place) := by
    obtain rfl | rfl | rfl := h <;> rfl
  rw [hflush]
  exact flushWhere_none _ _ ha (by simp)

theorem releaseWaits_open {s : State} (hlinks : heldLinks s = []) (hhalted : s.pkstat.halted = 0) (sc : Scope) :
    releaseWaits s sc = false := by
  cases sc <;> simp [releaseWaits, releaseWaits.sent, releaseWaits.waits, serviceHalted, writeBackHeld, writeHalted, heldOnWay,
    hlinks, hhalted]

/-! ### Fences (R252) -/

/-- An instruction that is a release and nothing else. -/
theorem exec_of_release {i : Instr} {sv : Scope} (hexec : ∀ s, exec i s = issue i s fun s => relThen s sv fun s1 => .retire s1)
    {s s1 : State} (h : Goes i s s1) : exec i s =
      .next (if releaseWaits s1 sv then waitsAt s1 .resource else goesOn (release s1 sv) (nextPc i s)) := by
  rw [hexec]
  split
  · next hwaits =>
    rw [issue_hold h.toIssues (w := .resource) (s2 := s1) (by simp only [relThen, hwaits, if_true]), keepOp_fresh h.idle.1]
  · next hgo => exact issue_retire_release h sv (.refl _) (relThen_go (by simpa using hgo) _)

theorem fencesReleaseTheirScope : FencesReleaseTheirScope := by
  unfold FencesReleaseTheirScope
  refine ⟨fun sv s s1 h => issue_retire h.toIssues rfl h.cleanS h.cleanV h.inner,
    fun sv s s1 h => exec_of_release (fun _ => rfl) h, fun sv s s1 h => exec_of_release (fun _ => rfl) h,
    fun s sv hlinks hhalted => releaseWaits_open hlinks hhalted sv, fun s => rfl, fun s sc hsc a ha => release_dirty s hsc ha,
    fun s sc hsc e he => ?held, fun s sc => ⟨_, _, repliesOnly_release s sc⟩,
    fun s sc p a hfree hwf ha hpage hoff halone => release_coreByte ⟨hfree, hwf, halone⟩ ha hpage hoff sc p⟩
  case held =>
    rw [release_service s hsc] at he
    exact (List.mem_filter.mp he).2

/-! ### Cache hints (R265) -/

theorem effAddr_eq_addressOf (t : Team) (a : SSrc) (off : Option (BitVec 32)) : effAddr t a off = addressOf t a off := by
  cases off with
  | none => exact (BitVec.add_zero _).symm
  | some l => rfl

/-- A hint that notes a read, or does nothing where its access would fault. -/
theorem hintAt_notes {i : Instr} {a : SSrc} {off : Option (BitVec 32)} {acc : Access} {f : State → Nat → State}
    (hexec : ∀ s, exec i s = hintAt i a off acc f s) (hf : ∀ s loc, NotedRead s (f s loc)) {s s1 : State} (h : Goes i s s1) :
    ∃ s2, NotedRead s1 s2 ∧ exec i s = .next (goesOn s2 (nextPc i s)) := by
  rw [hexec]
  cases hloc : hintLoc s1 a off acc with
  | none =>
    refine ⟨s1, notedRead_refl s1, issue_retire h.toIssues ?_ h.cleanS h.cleanV h.inner⟩
    simp only [hloc]
  | some loc =>
    have hteam := notedRead_team (hf s1 loc)
    refine ⟨f s1 loc, hf s1 loc, issue_retire h.toIssues (s2 := f s1 loc) ?_ (by rw [hteam]; exact h.cleanS)
      (by rw [hteam]; exact h.cleanV) (by rw [hteam]; exact h.inner)⟩
    simp only [hloc]

theorem notedRead_noteRead (s : State) (w : Who) (loc : Nat) : NotedRead s (noteRead s w loc) := by
  obtain ⟨a, b, c, d, h⟩ := noteRead_eq s w loc
  rw [h]
  rfl

theorem notedRead_readL2 (s : State) (die : Nat) (x : BitVec 13) (loc : Nat) : NotedRead s (readL2 s die x loc) := by
  obtain ⟨a, b, c, d, h⟩ := readL2_eq s die x loc
  rw [h]
  rfl

section
variable {i : Instr} {a : SSrc} {off : Option (BitVec 32)} {acc : Access} {f : State → Nat → State}
  (hexec : ∀ s, exec i s = hintAt i a off acc f s) {s s1 : State} (h : Goes i s s1)
include hexec h

/-- A hint whose access would fault does nothing. -/
theorem hintAt_fault {c : Byte} (hc : locate s1 s1.team.who (addressOf s1.team a off) 1 1 acc = .error c) :
    exec i s = .next (goesOn s1 (nextPc i s)) := by
  rw [hexec]
  refine issue_retire h.toIssues ?_ h.cleanS h.cleanV h.inner
  simp only [hintLoc, effAddr_eq_addressOf, hc]

/-- A hint at the location that it names. -/
theorem hintAt_ok {loc : Nat} (hloc : locate s1 s1.team.who (addressOf s1.team a off) 1 1 acc = .ok loc)
    (hteam : (f s1 loc).team = s1.team) : exec i s = .next (goesOn (f s1 loc) (nextPc i s)) := by
  rw [hexec]
  refine issue_retire h.toIssues (s2 := f s1 loc) ?_ (by rw [hteam]; exact h.cleanS) (by rw [hteam]; exact h.cleanV)
    (by rw [hteam]; exact h.inner)
  simp only [hintLoc, effAddr_eq_addressOf, hloc]

end

theorem writeBack_team (s : State) (loc : Nat) : (writeBack s loc).team = s.team := by
  unfold writeBack
  split
  · rfl
  · exact (writesOnly_flushWhere ..).team

theorem leaveL1_team (s : State) (k line : Nat) : (leaveL1 s k line).team = s.team := by
  unfold leaveL1
  split <;> rfl

theorem cacheHintsKeepEveryValue : CacheHintsKeepEveryValue := by
  unfold CacheHintsKeepEveryValue
  refine ⟨fun a off s s1 h => hintAt_notes (fun _ => rfl) (fun s loc => notedRead_noteRead s s.team.who loc) h,
    fun a off s s1 h => hintAt_notes (fun _ => rfl) (fun s loc => notedRead_readL2 s _ _ loc) h,
    fun a off s s1 c h hc => hintAt_fault (fun _ => rfl) h hc,
    fun a off s s1 loc h hloc => hintAt_ok (f := writeBack) (fun _ => rfl) h hloc (writeBack_team ..),
    fun a off s s1 c h hc => hintAt_fault (fun _ => rfl) h hc, fun a off s s1 loc h hloc => ?cinv,
    fun s k line => ⟨fun a ha hline => flushWhere_none s _ ha (by simp [hline]), fun hfree hwf _ p a ha hpage => ?same⟩⟩
  case cinv =>
    exact hintAt_ok (i := .cinv a off) (f := fun s loc => leaveL1 (writeBack s loc) (placeKey s.team.place) (loc / 128))
      (fun _ => rfl) h hloc ((leaveL1_team ..).trans (writeBack_team ..))
  case same =>
    refine coreByte_flushWhere hfree hwf (staysInCore_of_line (line := line) fun c loc hc => ?_) ha hpage (fun c hc hpick => ?_) p
    · exact (by simpa using hc : c = k ∧ loc / 128 = line).2
    · exact absurd (by simpa using hpick : c = k ∧ a / 128 = line).1 hc

/-- Settles O18: a fence is a release, whose write-backs and requests leave what the core reads, and a hint is a read that is
noted or a write-back of one line. -/
theorem fencesAndHintsKeepEveryValue : Obligations.FencesAndHintsKeepEveryValue :=
  ⟨fencesReleaseTheirScope, cacheHintsKeepEveryValue⟩


end Sys2Proof.MemorySync
end

section
/-! PROOFS. Bytes as numbers (R1): the bits of a number put together from bytes, and its extension to 64 bits (R241). -/

namespace Sys2Proof.MemorySync

open Sys2Proof.Machine Sys2Proof.RegisterState Sys2Proof.ScalarControl

theorem natOfBytes_lt (bs : List Byte) : natOfBytes bs < 2 ^ (8 * bs.length) := by
  induction bs with
  | nil => exact Nat.one_pos
  | cons b bs ih =>
    have hb := b.isLt
    rw [natOfBytes, List.length_cons, Nat.mul_succ, Nat.add_comm (8 * bs.length), Nat.pow_add]
    omega

theorem natOfBytes_append (bs cs : List Byte) : natOfBytes (bs ++ cs) = natOfBytes bs + 2 ^ (8 * bs.length) * natOfBytes cs := by
  induction bs with
  | nil => simp [natOfBytes]
  | cons b bs ih =>
    rw [List.cons_append, natOfBytes, natOfBytes, ih, List.length_cons, Nat.mul_succ, Nat.add_comm (8 * bs.length), Nat.pow_add]
    ring

theorem testBit_natOfBytes (bs : List Byte) (b : Nat) : (natOfBytes bs).testBit b = (bs.getD (b / 8) 0).getLsbD (b % 8) := by
  induction bs generalizing b with
  | nil => simp [natOfBytes]
  | cons x bs ih =>
    rw [natOfBytes, Nat.add_comm, show (256 : Nat) = 2 ^ 8 from rfl, Nat.testBit_two_pow_mul_add _ x.isLt]
    split
    · next hb => rw [Nat.div_eq_of_lt hb, Nat.mod_eq_of_lt hb, List.getD_cons_zero, BitVec.testBit_toNat]
    · next hb =>
      rw [ih, show b / 8 = (b - 8) / 8 + 1 by omega, List.getD_cons_succ, show b % 8 = (b - 8) % 8 by omega]

theorem bytesBy_length (f : Nat → Byte) (loc n : Nat) : (bytesBy f loc n).length = n := by
  induction n generalizing loc with
  | zero => rfl
  | succ n ih => rw [bytesBy, List.length_cons, ih]

theorem bytesBy_getD (f : Nat → Byte) (loc : Nat) {n j : Nat} (h : j < n) : (bytesBy f loc n).getD j 0 = f (loc + j) := by
  induction n generalizing loc j with
  | zero => exact absurd h (Nat.not_lt_zero j)
  | succ n ih =>
    cases j with
    | zero => rfl
    | succ j => rw [bytesBy, List.getD_cons_succ, ih _ (Nat.lt_of_succ_lt_succ h), Nat.add_assoc, Nat.add_comm 1]

theorem bytesBy_congr {f g : Nat → Byte} {loc n : Nat} (h : ∀ j < n, f (loc + j) = g (loc + j)) :
    bytesBy f loc n = bytesBy g loc n := by
  induction n generalizing loc with
  | zero => rfl
  | succ n ih =>
    have hhead : f loc = g loc := h 0 (Nat.succ_pos n)
    rw [bytesBy, bytesBy, hhead, ih fun j hj => ?_]
    have := h (j + 1) (Nat.succ_lt_succ hj)
    rwa [Nat.add_comm j, ← Nat.add_assoc] at this

theorem bytesBy_add (f : Nat → Byte) (loc m n : Nat) : bytesBy f loc (m + n) = bytesBy f loc m ++ bytesBy f (loc + m) n := by
  induction m generalizing loc with
  | zero => simp [bytesBy]
  | succ m ih => rw [Nat.succ_add, bytesBy, ih, bytesBy, List.cons_append, Nat.add_assoc, Nat.add_comm 1]

theorem memNat_eq_bytesBy (s : State) (loc n : Nat) : memNat s loc n = natOfBytes (bytesBy (memByte s) loc n) := by
  induction n generalizing loc with
  | zero => rfl
  | succ n ih => rw [memNat, ih]; rfl

theorem bytesOfNat_getD {n j : Nat} (h : j < n) (v : Nat) : (bytesOfNat n v).getD j 0 = BitVec.ofNat 8 (v / 256 ^ j) := by
  induction n generalizing v j with
  | zero => exact absurd h (Nat.not_lt_zero j)
  | succ n ih =>
    cases j with
    | zero => simp [bytesOfNat]
    | succ j =>
      rw [bytesOfNat, List.getD_cons_succ, ih (Nat.lt_of_succ_lt_succ h), Nat.div_div_eq_div_mul, Nat.pow_succ, Nat.mul_comm]

theorem bytesOfNat_add (m n v : Nat) : bytesOfNat (m + n) v = bytesOfNat m v ++ bytesOfNat n (v / 2 ^ (8 * m)) := by
  induction m generalizing v with
  | zero => simp [bytesOfNat]
  | succ m ih =>
    rw [Nat.succ_add, bytesOfNat, ih, bytesOfNat, List.cons_append, Nat.div_div_eq_div_mul, Nat.mul_succ, Nat.add_comm (8 * m),
      Nat.pow_add]

/-- The bits of an extension: those of the number, and above them its highest where it is an extension by sign. -/
theorem getLsbD_extBytes {n v b : Nat} (hn : 0 < n) (h : n ≤ 8) (sx : Bool) (hv : v < 2 ^ (8 * n)) (hb : b < 64) :
    (extBytes n sx v).getLsbD b = if b < 8 * n then v.testBit b else sx && v.testBit (8 * n - 1) := by
  have htop : ¬ b < 8 * n → v.testBit b = false := fun hlt =>
    Nat.testBit_lt_two_pow (Nat.lt_of_lt_of_le hv (Nat.pow_le_pow_right Nat.two_pos (Nat.le_of_not_lt hlt)))
  rw [extBytes, Nat.mod_eq_of_lt hv]
  cases sx with
  | false =>
    rw [if_neg Bool.false_ne_true, BitVec.getLsbD_ofNat, decide_eq_true hb, Bool.true_and, Bool.false_and]
    split
    · rfl
    · next hlt => exact htop hlt
  | true =>
    rw [if_pos rfl, ofInt_toSigned hv, BitVec.getLsbD_signExtend, decide_eq_true hb, Bool.true_and, Bool.true_and,
      BitVec.msb_eq_getLsbD_last]
    split
    · next hlt => rw [BitVec.getLsbD_ofNat, decide_eq_true hlt, Bool.true_and]
    · rw [BitVec.getLsbD_ofNat, decide_eq_true (by omega), Bool.true_and]

/-- The extension of n bytes at a location, bit by bit. -/
theorem getLsbD_extBytes_bytesBy {n b : Nat} (hn : 0 < n) (h : n ≤ 8) (f : Nat → Byte) (loc : Nat) (sx : Bool) (hb : b < 64) :
    (extBytes n sx (natOfBytes (bytesBy f loc n))).getLsbD b =
      if b < 8 * n then (f (loc + b / 8)).getLsbD (b % 8) else sx && (f (loc + n - 1)).getLsbD 7 := by
  have hv := natOfBytes_lt (bytesBy f loc n)
  rw [bytesBy_length] at hv
  rw [getLsbD_extBytes hn h sx hv hb]
  split
  · rw [testBit_natOfBytes, bytesBy_getD f loc (by omega)]
  · rw [testBit_natOfBytes, show (8 * n - 1) / 8 = n - 1 by omega, show (8 * n - 1) % 8 = 7 by omega,
      bytesBy_getD f loc (by omega), ← Nat.add_sub_assoc hn]

theorem extBytes_eight (v : Nat) : extBytes 8 false v = BitVec.ofNat 64 v := by
  rw [extBytes, if_neg Bool.false_ne_true]
  exact BitVec.eq_of_toNat_eq (by simp)

theorem msizeBytes_pos (z : MSize) : 0 < msizeBytes z := by cases z <;> decide

theorem msizeBytes_le {z : MSize} (hz : z ≠ .p) : msizeBytes z ≤ 8 := by
  cases z with
  | p => exact absurd rfl hz
  | b | h | w | d => decide

theorem widthBytes_pos (e : Width) : 0 < widthBytes e := by cases e <;> decide

theorem widthBytes_le (e : Width) : widthBytes e ≤ 8 := by cases e <;> decide

end Sys2Proof.MemorySync
end

section
/-! PROOFS. Lane accesses (R245-R247, R397): the lanes that an access does, their places, and the order of lane-words. -/

namespace Sys2Proof.MemorySync

open Sys2Proof.Machine Sys2Proof.RegisterState Sys2Proof.ConsistencyModel Sys2Proof.NumberFormats Sys2Proof.ScalarControl

/-! ### Addresses -/

theorem width_bits_div (e : Width) : e.bits / 8 = widthBytes e := rfl

theorem planStr_pieces (t : Team) (o : StrOps) (l : Nat) : planStr t o l = { pieces := [(strAddress t o l, widthBytes o.es)] } := by
  simp only [planStr, strAddress, effAddr_eq_addressOf, BitVec.ofInt_mul, BitVec.ofInt_toInt, BitVec.ofInt_natCast]

theorem planIx_pieces (t : Team) (o : IxOps) (l : Nat) : planIx t o l = { pieces := [(ixAddress t o l, widthBytes o.es)] } := by
  simp only [planIx, ixAddress, effAddr_eq_addressOf]

theorem privWord_eq_prvWord (t : Team) (o : PrvOps) (l : Nat) : privWord t o l = prvWord t o l := rfl

theorem privAddr_eq_prvAddress (t : Team) (l : Nat) (e : Int) : privAddr t l e = prvAddress t l e := by
  simp only [privAddr, prvAddress, Int.add_assoc, BitVec.ofInt_add, BitVec.ofInt_natCast, BitVec.ofNat_toNat, BitVec.setWidth_eq]

theorem planPrv_word (t : Team) {o : PrvOps} (h : o.es = .w) (l : Nat) : planPrv t o l =
    { past := decide (prvWord t o l < 0) || decide ((t.stklim : Int) ≤ prvWord t o l),
      pieces := [(prvAddress t l (prvWord t o l), 4)] } := by
  simp only [planPrv, h, privWord_eq_prvWord, privAddr_eq_prvAddress, reduceCtorEq, if_false]
  rfl

theorem planPrv_double (t : Team) {o : PrvOps} (h : o.es = .d) (l : Nat) : planPrv t o l =
    { past := decide (prvWord t o l < 0) || decide ((t.stklim : Int) ≤ prvWord t o l + 1),
      pieces := [(prvAddress t l (prvWord t o l), 4), (prvAddress t l (prvWord t o l + 1), 4)] } := by
  simp only [planPrv, h, privWord_eq_prvWord, privAddr_eq_prvAddress, if_true]
  rfl

theorem checkLane_one {f : Word → Nat → Acc} {va : Word} {n loc : Nat} (h : f va n = .ok loc) :
    checkLane f { pieces := [(va, n)] } = .ok [(loc, n)] := by
  simp only [checkLane, Bool.false_eq_true, if_false, checkPieces, h]

theorem checkLane_two {f : Word → Nat → Acc} {p : LanePlan} {va va' : Word} {n n' loc loc' : Nat} (hpast : p.past = false)
    (hp : p.pieces = [(va, n), (va', n')]) (h : f va n = .ok loc) (h' : f va' n' = .ok loc') :
    checkLane f p = .ok [(loc, n), (loc', n')] := by
  simp only [checkLane, hpast, Bool.false_eq_true, if_false, hp, checkPieces, h, h']

/-! ### The lanes that an access does -/

/-- In an increasing list the numbers of a bucket come behind those of the buckets below. -/
theorem filter_le_bucket {ls : List Nat} (h : ls.Pairwise (· < ·)) (m : Nat) :
    (ls.filter fun l => l / 32 < m + 1) = (ls.filter fun l => l / 32 < m) ++ ls.filter fun l => l / 32 == m := by
  induction ls with
  | nil => rfl
  | cons x xs ih =>
    obtain ⟨hx, hxs⟩ := List.pairwise_cons.mp h
    by_cases hlt : x / 32 < m
    · rw [List.filter_cons_of_pos (by simp; omega), List.filter_cons_of_pos (by simp; omega),
        List.filter_cons_of_neg (by simp; omega), ih hxs, List.cons_append]
    · have hnone : (xs.filter fun l => l / 32 < m) = [] := List.filter_eq_nil_iff.mpr fun y hy => by
        have := Nat.div_le_div_right (c := 32) (Nat.le_of_lt (hx y hy))
        simp only [decide_eq_true_eq]
        omega
      have ih := ih hxs
      rw [hnone, List.nil_append] at ih
      rw [List.filter_cons_of_neg (p := fun l => decide (l / 32 < m)) (by simpa using hlt), hnone, List.nil_append,
        List.filter_cons, List.filter_cons, ih]
      exact ite_congr (by simp only [decide_eq_true_eq, beq_iff_eq, eq_iff_iff]; omega) (fun _ => rfl) fun _ => rfl

/-- The lane-words one after the other are the lanes below their number. -/
theorem flatMap_buckets {ls : List Nat} (h : ls.Pairwise (· < ·)) (m : Nat) :
    ((List.range m).flatMap fun q => ls.filter fun l => l / 32 == q) = ls.filter fun l => l / 32 < m := by
  induction m with
  | zero => simp
  | succ m ih => rw [List.range_succ, List.flatMap_append, ih, filter_le_bucket h, List.flatMap_singleton]

theorem filter_range_lt {m n : Nat} (h : m ≤ n) (p : Nat → Bool) :
    ((List.range n).filter fun l => p l && decide (l < m)) = (List.range m).filter p := by
  obtain ⟨j, rfl⟩ := Nat.exists_eq_add_of_le h
  have hbeyond : (((List.range j).map (m + ·)).filter fun l => p l && decide (l < m)) = [] := by simp
  rw [List.range_add, List.filter_append, hbeyond, List.append_nil]
  exact List.filter_congr fun l hl => by simp [List.mem_range.mp hl]

theorem lanesLeft_pairwise (t : Team) (k : KReg) : (lanesLeft t k).Pairwise (· < ·) :=
  (List.pairwise_lt_range.filter _).filter _

/-- Of the lanes left, those of the team's lane-words are the lanes that the access does. -/
theorem lanesLeft_workLanes (t : Team) (k : KReg) : ((lanesLeft t k).filter fun l => l / 32 < t.lanes / 32) = workLanes t k := by
  rw [lanesLeft, activeLanes_eq_lanesOn, lanesOn, List.filter_filter, List.filter_filter, workLanes,
    ← filter_range_lt (Nat.div_mul_le_self t.lanes 32)]
  refine List.filter_congr fun l _ => ?_
  have hstart := startWord_le_iff t (l / 32)
  have hword : l / 32 < t.lanes / 32 ↔ l < t.lanes / 32 * 32 := by omega
  rw [Bool.eq_iff_iff]
  simp only [Bool.and_eq_true, decide_eq_true_eq, hstart, hword]
  tauto

theorem lanesLeft_ne_nil {t : Team} {k : KReg} (h : workLanes t k ≠ []) : lanesLeft t k ≠ [] := fun hnil => by
  rw [← lanesLeft_workLanes, hnil] at h
  exact h rfl

theorem lanesLeft_of_none {t : Team} {k : KReg} (h : lanesOn t k = []) : lanesLeft t k = [] := by
  rw [lanesLeft, activeLanes_eq_lanesOn, h]
  rfl

/-! ### Checks that find nothing -/

section
variable {f : Word → Nat → Acc} {plan : Nat → LanePlan} {g : Nat → List (Nat × Nat)}

theorem scanWord_ok (q : Nat) {ls : List Nat} (h : ∀ l ∈ ls, checkLane f (plan l) = .ok (g l)) :
    scanWord f plan q ls = { done := ls.map fun l => (l, g l) } := by
  induction ls with
  | nil => rfl
  | cons l ls ih =>
    rw [List.forall_mem_cons] at h
    simp only [scanWord, h.1, ih h.2, List.map_cons]

theorem scanWords_ok {lanes : List Nat} (qs : List Nat)
    (h : ∀ q ∈ qs, ∀ l ∈ lanes.filter (fun l => l / 32 == q), checkLane f (plan l) = .ok (g l)) :
    scanWords f plan lanes qs =
      { done := (qs.flatMap fun q => lanes.filter fun l => l / 32 == q).map fun l => (l, g l) } := by
  induction qs with
  | nil => rfl
  | cons q qs ih =>
    rw [List.forall_mem_cons] at h
    simp only [scanWords, scanWord_ok q h.1, ih h.2, Option.isSome_none, Bool.or_self, Bool.false_eq_true, if_false,
      List.flatMap_cons, List.map_append]

/-- Every lane may be accessed: the lanes are done in turn, and nothing stops the access. -/
theorem scanLanes_ok {t : Team} {k : KReg} (h : ∀ l ∈ workLanes t k, checkLane f (plan l) = .ok (g l)) :
    scanLanes f plan t (lanesLeft t k) = { done := (workLanes t k).map fun l => (l, g l) } := by
  have hbuckets := flatMap_buckets (lanesLeft_pairwise t k) (t.lanes / 32)
  rw [lanesLeft_workLanes] at hbuckets
  rw [scanLanes, scanWords_ok _ fun q hq l hl => h l ?_, hbuckets]
  rw [← hbuckets]
  exact List.mem_flatMap.mpr ⟨q, hq, hl⟩

theorem scanLanes_nil (t : Team) : scanLanes f plan t [] = {} := by
  have h := scanWords_ok (f := f) (plan := plan) (g := fun _ => []) (lanes := []) (List.range (t.lanes / 32)) (by simp)
  rw [scanLanes, h]
  simp

end

end Sys2Proof.MemorySync
end

section
/-! PROOFS. Loads (O13, R244-R246): what LD and VLD read at their issue. -/

namespace Sys2Proof.MemorySync

open Sys2Proof.Machine Sys2Proof.RegisterState Sys2Proof.ConsistencyModel Sys2Proof.NumberFormats Sys2Proof.ScalarControl

/-! ### One scalar access -/

theorem settle_others {s : State} (h : NoRequests s) (locs : List (Nat × Nat)) : settle s locs = s := by
  refine if_neg ?_
  rw [Bool.not_eq_true]
  exact List.any_eq_false.mpr fun e he => by simp [h e he]

theorem settle_nil (s : State) : settle s [] = s := if_neg (by simp)

theorem scalarAccess_ok {s : State} {va : Word} {n loc : Nat} {acc : Access} (h : access s va n n acc = .ok loc)
    (hrange : bodyRange s.team loc n = true) (hreq : NoRequests s) (k : State → Nat → Eff) :
    scalarAccess s va n acc k = k s loc := by
  simp only [scalarAccess, h, hrange, if_true, settle_others hreq]

theorem scalarAccess_fault {s : State} {va : Word} {n : Nat} {acc : Access} {c : Byte} (h : access s va n n acc = .fault c)
    (k : State → Nat → Eff) : scalarAccess s va n acc k =
      .stop s { cause := c, pc := s.team.pc, kind := acc.kind, faddr := va } := by
  simp only [scalarAccess, h]
  rfl

/-! ### Results of a read -/

/-- An effect that notes reads and then changes the team, and not its loop stack or its poison. -/
theorem issue_read {i : Instr} {s s1 s2 : State} {f : Team → Team} {body : State → Eff} (h : Goes i s s1)
    (hread : NotedRead s1 s2) (hbody : body s1 = retireWith s2 f) (hs : ∀ t, (f t).sPoison = t.sPoison)
    (hv : ∀ t, (f t).vPoison = t.vPoison) (hl : ∀ t, (f t).lstk = t.lstk) :
    issue i s body = .next (goesOn (withTeam s2 f) (nextPc i s)) := by
  have hteam := notedRead_team hread
  refine issue_retire h.toIssues hbody ?_ ?_ ?_
  · exact (hs s2.team).trans (by rw [hteam, h.cleanS])
  · exact (hv s2.team).trans (by rw [hteam, h.cleanV])
  · rw [show (withTeam s2 f).team.lstk = s1.team.lstk from (hl s2.team).trans (by rw [hteam])]
    exact h.inner

theorem notedRead_noteLines (s : State) (done : List (Nat × List (Nat × Nat))) : NotedRead s (noteLines s done) :=
  foldl_keeps (NotedRead s) (fun t l ht => notedRead_trans ht (notedRead_loadNoted t (l * 128))) _ (notedRead_refl s)

/-! ### LD -/

theorem loaded_extBytes {n : Nat} (hn : 0 < n) (h : n ≤ 8) (s : State) (loc : Nat) (sx : Bool) :
    Loaded s loc n sx (extBytes n sx (natOfBytes (teamBytes s s.team loc n))) :=
  fun _ hb => getLsbD_extBytes_bytesBy hn h _ loc sx hb

theorem loadVals_single {o : MemOps} (h : o.size ≠ .p) (s : State) (loc : Nat) : loadVals s o loc =
    [(.scal o.d, extBytes (msizeBytes o.size) o.sx (natOfBytes (teamBytes s s.team loc (msizeBytes o.size))))] := by
  cases hz : o.size with
  | p => exact absurd hz h
  | b | h | w | d => simp only [loadVals, hz]

theorem loadVals_pair {o : MemOps} (h : o.size = .p) (s : State) (loc : Nat) : loadVals s o loc =
    [(.scal o.d, BitVec.ofNat 64 (natOfBytes (teamBytes s s.team loc 8))),
     (.scal (BitVec.ofNat 6 (o.d.toNat + 1)), BitVec.ofNat 64 (natOfBytes (teamBytes s s.team (loc + 8) 8)))] := by
  simp only [loadVals, h]
  rfl

theorem produceAll_keeps {α : Type} (f : Team → α) (hf : ∀ t d src p, f (produce t d src p) = f t) (t : Team)
    (vs : List (Dest × Word)) (p : Bool) : f (produceAll t vs p) = f t := by
  induction vs generalizing t with
  | nil => rfl
  | cons v vs ih => exact (ih (produce t v.1 (.values [(0, v.2)]) p)).trans (hf ..)

/-- A load whose bytes may be read sends its results to its registers. -/
theorem exec_ld {o : MemOps} {s s1 : State} {loc : Nat} (h : Goes (.ld o) s s1) (hreq : NoRequests s1)
    (hacc : access s1 (addressOf s1.team o.a o.off) (msizeBytes o.size) (msizeBytes o.size) .rd = .ok loc)
    (hrange : bodyRange s1.team loc (msizeBytes o.size) = true) :
    exec (.ld o) s = .next (goesOn (withTeam (loadNoted s1 loc) fun t =>
      produceAll t (loadVals s1 o loc) (loadPoison s1 loc (msizeBytes o.size))) (nextPc (.ld o) s)) := by
  rw [show exec (.ld o) s = execLd o s from rfl, execLd]
  refine issue_read h (notedRead_loadNoted s1 loc) ?_ (fun t => produceAll_keeps Team.sPoison produce_sPoison t ..)
    (fun t => produceAll_keeps Team.vPoison produce_vPoison t ..) (fun t => produceAll_keeps Team.lstk produce_lstk t ..)
  simp only [effAddr_eq_addressOf]
  exact scalarAccess_ok hacc hrange hreq _

theorem loadsReturnTheirBytes : LoadsReturnTheirBytes := by
  unfold LoadsReturnTheirBytes
  refine ⟨fun o n s s1 loc hz hn h hreq hacc hrange => ?single, fun o s s1 loc hz h hreq hacc hrange => ?pair,
    fun o s s1 c h hacc => ?fault⟩
  case single =>
    subst hn
    refine ⟨loadNoted s1 loc, _, ?_, notedRead_loadNoted s1 loc, loaded_extBytes (msizeBytes_pos _) (msizeBytes_le hz) s1 loc o.sx⟩
    rw [exec_ld h hreq hacc hrange, loadVals_single hz]
    rfl
  case pair =>
    have hsixteen : msizeBytes o.size = 16 := by rw [hz]; rfl
    refine ⟨loadNoted s1 loc, _, _, ?_, notedRead_loadNoted s1 loc, 
      loaded_extBytes (n := 8) (by decide) (by decide) s1 loc false,
      loaded_extBytes (n := 8) (by decide) (by decide) s1 (loc + 8) false⟩
    rw [exec_ld h hreq (by rwa [hsixteen]) (by rwa [hsixteen]), loadVals_pair hz, hsixteen, extBytes_eight, extBytes_eight]
    rfl
  case fault =>
    rw [show exec (.ld o) s = execLd o s from rfl, execLd]
    refine issue_stop h ?_
    simp only [effAddr_eq_addressOf]
    exact scalarAccess_fault hacc _

/-! ### VLD -/

/-- With no lane active a vector load does nothing. -/
theorem vectorLoad_none {i : Instr} {k : KReg} {s s1 : State} (h : Goes i s s1) (hnone : lanesOn s1.team k = []) (d : VReg)
    (n : Nat) (sx : Bool) (acc : State → Word → Nat → Acc) (plan : Team → Nat → LanePlan) :
    vectorLoad i d k n sx acc plan s = .next (goesOn s1 (nextPc i s)) := by
  refine issue_retire h.toIssues ?_ h.cleanS h.cleanV h.inner
  simp only [lanesLeft_of_none hnone, scanLanes_nil, List.flatMap_nil, settle_nil, List.isEmpty_nil, if_true]

/-- A vector load whose lanes may all be read: g gives the places of each. -/
theorem vectorLoad_all {i : Instr} {k : KReg} {s s1 : State} (h : Goes i s s1) (hreq : NoRequests s1)
    (hsome : workLanes s1.team k ≠ []) (d : VReg) (n : Nat) (sx : Bool) {acc : State → Word → Nat → Acc}
    {plan : Team → Nat → LanePlan} {g : Nat → List (Nat × Nat)}
    (hg : ∀ l ∈ workLanes s1.team k, checkLane (acc s1) (plan s1.team l) = .ok (g l)) : ∃ s2, NotedRead s1 s2 ∧
    vectorLoad i d k n sx acc plan s = .next (goesOn (loadSent s2 d (workLanes s1.team k)
      (fun l => extBytes n sx (natOfBytes (pieceBytes s1 (g l))))
      ((workLanes s1.team k).any fun l => (g l).any fun y => loadPoison s1 y.1 y.2)) (nextPc i s)) := by
  have hleft := lanesLeft_ne_nil hsome
  refine ⟨_, notedRead_noteLines s1 ((workLanes s1.team k).map fun l => (l, g l)), ?_⟩
  simp only [loadSent, ← produce_vec]
  refine issue_read h (notedRead_noteLines s1 _) ?_ (fun t => produce_sPoison ..) (fun t => produce_vPoison ..)
    (fun t => produce_lstk ..)
  simp only [scanLanes_ok hg, settle_others hreq, List.isEmpty_eq_false_iff.mpr hleft, Bool.false_eq_true, if_false,
    List.map_map, List.any_map]
  rfl

/-- A vector load whose lanes each read at one place. -/
theorem vldIs_of_single {i : Instr} {d : VReg} {k : KReg} {n : Nat} (hn : 0 < n) (hle : n ≤ 8) {sx : Bool}
    {acc : State → Word → Nat → Acc} {plan : Team → Nat → LanePlan} {at_ : State → Nat → Acc}
    (hexec : ∀ s, exec i s = vectorLoad i d k n sx acc plan s)
    (hplan : ∀ s l loc, at_ s l = .ok loc → checkLane (acc s) (plan s.team l) = .ok [(loc, n)]) : VldIs i d k n sx at_ := by
  refine ⟨fun s s1 h hnone => (hexec s).trans (vectorLoad_none h hnone ..), fun s s1 loc h hreq hsome hat => ?_⟩
  obtain ⟨s2, hread, hload⟩ := vectorLoad_all (acc := acc) (plan := plan) h hreq hsome d n sx
    (g := fun l => [(loc l, n)]) fun l hl => hplan s1 l (loc l) (hat l hl)
  simp only [List.any_cons, List.any_nil, Bool.or_false] at hload
  refine ⟨s2, _, (hexec s).trans hload, hread, fun l _ => ?_⟩
  rw [pieceBytes, List.flatMap_singleton]
  exact loaded_extBytes hn hle s1 (loc l) sx

/-- The places of a private word that lies below the stack limit (R83, R246). -/
theorem checkLane_word {o : PrvOps} (ho : o.es = .w) {s : State} {acc : Access} {l loc : Nat}
    (h : (if 0 ≤ prvWord s.team o l ∧ prvWord s.team o l < s.team.stklim then
      privAcc s acc (prvAddress s.team l (prvWord s.team o l)) 4 else .fault 0x14) = .ok loc) :
    checkLane (privAcc s acc) (planPrv s.team o l) = .ok [(loc, 4)] := by
  split at h
  · next hin =>
    have hpast : (decide (prvWord s.team o l < 0) || decide ((s.team.stklim : Int) ≤ prvWord s.team o l)) = false := by
      simp only [Bool.or_eq_false_iff, decide_eq_false_iff_not]
      omega
    rw [planPrv_word _ ho, hpast]
    exact checkLane_one h
  · exact nomatch h

/-- The places of a private double word. -/
theorem checkLane_double {o : PrvOps} (ho : o.es = .d) {s : State} {acc : Access} {l loc hi : Nat}
    (h : 0 ≤ prvWord s.team o l ∧ prvWord s.team o l + 1 < s.team.stklim ∧
      privAcc s acc (prvAddress s.team l (prvWord s.team o l)) 4 = .ok loc ∧
      privAcc s acc (prvAddress s.team l (prvWord s.team o l + 1)) 4 = .ok hi) :
    checkLane (privAcc s acc) (planPrv s.team o l) = .ok [(loc, 4), (hi, 4)] := by
  obtain ⟨hlow, hhigh, hloc, hhi⟩ := h
  rw [planPrv_double _ ho]
  refine checkLane_two ?_ rfl hloc hhi
  simp only [Bool.or_eq_false_iff, decide_eq_false_iff_not]
  omega

theorem natOfBytes_two_words (f : Nat → Byte) (loc hi : Nat) {b : Nat} (hb : b < 64) :
    (natOfBytes (bytesBy f loc 4 ++ bytesBy f hi 4)).testBit b =
      (f (if b < 32 then loc + b / 8 else hi + (b - 32) / 8)).getLsbD (b % 8) := by
  rw [testBit_natOfBytes]
  congr 1
  split
  · next hlow =>
    rw [List.getD_append _ _ _ _ (by rw [bytesBy_length]; omega), bytesBy_getD f loc (by omega)]
  · next hhigh =>
    rw [List.getD_append_right _ _ _ _ (by rw [bytesBy_length]; omega), bytesBy_length, bytesBy_getD f hi (by omega),
      show b / 8 - 4 = (b - 32) / 8 by omega]

theorem vectorLoadsReadEveryLane : VectorLoadsReadEveryLane := by
  unfold VectorLoadsReadEveryLane
  refine ⟨fun o => ?str, fun o => ?ix, fun o ho => ?word, fun o ho s s1 loc hi h hreq hsome hat => ?double⟩
  case str =>
    refine vldIs_of_single (widthBytes_pos o.es) (widthBytes_le o.es) (acc := fun s => plainAcc s .rd)
      (plan := fun t => planStr t o) (fun s => show execVldStr o s = _ from rfl) fun s l loc hat => ?_
    · rw [planStr_pieces]
      exact checkLane_one hat
  case ix =>
    refine vldIs_of_single (widthBytes_pos o.es) (widthBytes_le o.es) (acc := fun s => plainAcc s .rd)
      (plan := fun t => planIx t o) (fun s => show execVldIx o s = _ from rfl) fun s l loc hat => ?_
    · rw [planIx_pieces]
      exact checkLane_one hat
  case word =>
    refine vldIs_of_single (by decide) (by decide) (acc := fun s => privAcc s .rd) (plan := fun t => planPrv t o) (fun s => ?_)
      fun s l loc hat => checkLane_word ho hat
    rw [show exec (.vldPrv o) s = execVldPrv o s from rfl, execVldPrv, ho]
    rfl
  case double =>
    obtain ⟨s2, hread, hload⟩ := vectorLoad_all (acc := fun s => privAcc s .rd) (plan := fun t => planPrv t o) h hreq hsome o.d
      8 o.sx (g := fun l => [(loc l, 4), (hi l, 4)]) fun l hl => checkLane_double ho (hat l hl)
    simp only [List.any_cons, List.any_nil, Bool.or_false] at hload
    have hexec : exec (.vldPrv o) s = vectorLoad (.vldPrv o) o.d o.k 8 o.sx (fun s => privAcc s .rd) (fun t => planPrv t o) s := by
      rw [show exec (.vldPrv o) s = execVldPrv o s from rfl, execVldPrv, ho]
      rfl
    refine ⟨s2, _, hexec.trans hload, hread, fun l _ b hb => ?_⟩
    have hlt := natOfBytes_lt (bytesBy (teamByte s1 s1.team) (loc l) 4 ++ bytesBy (teamByte s1 s1.team) (hi l) 4)
    rw [List.length_append, bytesBy_length, bytesBy_length] at hlt
    rw [pieceBytes, List.flatMap_cons, List.flatMap_singleton, teamBytes, teamBytes,
      getLsbD_extBytes (by decide) (by decide) o.sx hlt hb, if_pos hb, natOfBytes_two_words _ _ _ hb]

/-- Settles O13: a load that may be performed reads the team's view of memory at its issue, in every lane, and notes the lines
that it has read. -/
theorem loadsReadTheirBytes : Obligations.LoadsReadTheirBytes := ⟨loadsReturnTheirBytes, vectorLoadsReadEveryLane⟩

end Sys2Proof.MemorySync
end

section
/-! PROOFS. Stores (O14, O15, R244-R247): what ST and VST send behind their release, and what their stores leave alone. -/

namespace Sys2Proof.MemorySync

open Sys2Proof.Machine Sys2Proof.RegisterState Sys2Proof.ConsistencyModel Sys2Proof.NumberFormats Sys2Proof.ScalarControl

/-! ### Stores behind a release -/

/-- The stores of an instruction change the buffers of its team and nothing else of it. -/
theorem storeAll_keeps {α : Type} {f : Team → α} (hcap : ∀ t xs, f { t with capBuf := xs } = f t)
    (hord : ∀ t xs, f { t with obuf := xs } = f t) (s : State) (xs : List BufStore) :
    f (storeAll s xs).team = f s.team := by
  unfold storeAll
  split
  · exact hcap ..
  split
  · exact hord ..
  · exact congrArg f (storesOut_team ..)

/-- An instruction that stores behind the release that its order asks for. -/
theorem issue_store {i : Instr} {s s1 : State} {body : State → Eff} (h : Goes i s s1) {sc : Scope} {xs : State → List BufStore}
    (hbody : body s1 = relThen s1 sc fun s0 => .retire (storeAll s0 (xs s0))) :
    (releaseWaits s1 sc = true → issue i s body = .next (waitsAt s1 .resource)) ∧
    (releaseWaits s1 sc = false → issue i s body =
      .next (goesOn (storeAll (release s1 sc) (xs (release s1 sc))) (nextPc i s))) := by
  refine ⟨fun hwait => ?_, fun hgo => ?_⟩
  · rw [issue_hold h.toIssues (w := .resource) (s2 := s1) (by rw [hbody, relThen, if_pos hwait]), keepOp_fresh h.idle.1]
  · have hrel := repliesOnly_release s1 sc
    refine issue_retire h.toIssues (hbody.trans (relThen_go hgo _)) ?_ ?_ ?_
    · exact (storeAll_keeps (f := Team.sPoison) (fun _ _ => rfl) (fun _ _ => rfl) ..).trans (hrel.sPoison.trans h.cleanS)
    · exact (storeAll_keeps (f := Team.vPoison) (fun _ _ => rfl) (fun _ _ => rfl) ..).trans (hrel.vPoison.trans h.cleanV)
    · rw [storeAll_keeps (f := Team.lstk) (fun _ _ => rfl) (fun _ _ => rfl), hrel.lstk]
      exact h.inner

/-! ### ST -/

theorem storeBytes_length (t : Team) (o : MemOps) : (storeBytes t o).length = msizeBytes o.size := by
  unfold storeBytes
  split
  · next hz => rw [List.length_append, bytesOfNat_length, bytesOfNat_length, hz]; rfl
  · exact bytesOfNat_length ..

theorem storeBytes_getD (t : Team) (o : MemOps) {j : Nat} (hj : j < msizeBytes o.size) : (storeBytes t o).getD j 0 =
    BitVec.ofNat 8 (if j < 8 then (sget t o.d).toNat / 256 ^ j
      else (sget t (BitVec.ofNat 6 (o.d.toNat + 1))).toNat / 256 ^ (j - 8)) := by
  unfold storeBytes
  split
  · next hz =>
    rw [hz, show msizeBytes .p = 16 from rfl] at hj
    split
    · next hlow => rw [List.getD_append _ _ _ _ (by rwa [bytesOfNat_length]), bytesOfNat_getD hlow]
    · next hhigh =>
      rw [List.getD_append_right _ _ _ _ (by rw [bytesOfNat_length]; omega), bytesOfNat_length, bytesOfNat_getD (by omega)]
  · next z hz =>
    rw [bytesOfNat_getD hj, if_pos (Nat.lt_of_lt_of_le hj (msizeBytes_le hz))]

theorem exec_st {o : MemOps} {s s1 : State} {loc : Nat} (h : Goes (.st o) s s1) (hreq : NoRequests s1)
    (hacc : access s1 (addressOf s1.team o.a o.off) (msizeBytes o.size) (msizeBytes o.size) .wr = .ok loc)
    (hrange : bodyRange s1.team loc (msizeBytes o.size) = true) :
    (releaseWaits s1 (MOrder.relScope o.ord) = true → exec (.st o) s = .next (waitsAt s1 .resource)) ∧
    (releaseWaits s1 (MOrder.relScope o.ord) = false → exec (.st o) s = .next (goesOn
      (storeTeam (release s1 (MOrder.relScope o.ord)) loc (storeBytes s1.team o)) (nextPc (.st o) s))) := by
  rw [show exec (.st o) s = execSt o s from rfl, execSt]
  refine issue_store h (xs := fun _ => [⟨loc, storeBytes s1.team o⟩]) ?_
  simp only [effAddr_eq_addressOf]
  exact scalarAccess_ok hacc hrange hreq _

theorem storesSendTheirBytes : StoresSendTheirBytes := by
  unfold StoresSendTheirBytes
  refine ⟨fun o n s s1 loc hn h hreq hacc hrange => ?_, fun o s s1 c h hacc => ?fault⟩
  · subst hn
    obtain ⟨hwait, hgo⟩ := exec_st h hreq hacc hrange
    exact ⟨hwait, fun hrel => ⟨_, hgo hrel, storeBytes_length .., fun j hj => storeBytes_getD s1.team o hj⟩⟩
  case fault =>
    rw [show exec (.st o) s = execSt o s from rfl, execSt]
    refine issue_stop h ?_
    simp only [effAddr_eq_addressOf]
    exact scalarAccess_fault hacc _

/-! ### VST -/

theorem lanePieces_one (loc n v : Nat) : lanePieces [(loc, n)] (bytesOfNat n v) = [⟨loc, bytesOfNat n v⟩] := by
  rw [lanePieces, lanePieces, List.take_of_length_le (by rw [bytesOfNat_length])]

theorem lanePieces_two (loc hi v : Nat) : lanePieces [(loc, 4), (hi, 4)] (bytesOfNat 8 v) =
    [⟨loc, bytesOfNat 4 v⟩, ⟨hi, bytesOfNat 4 (v / 2 ^ 32)⟩] := by
  have hlow : (bytesOfNat 8 v).take 4 = bytesOfNat 4 v := by
    rw [bytesOfNat_add 4 4, List.take_left' (bytesOfNat_length ..)]
  have hhigh : (bytesOfNat 8 v).drop 4 = bytesOfNat 4 (v / 2 ^ 32) := by
    rw [bytesOfNat_add 4 4, List.drop_left' (bytesOfNat_length ..)]
  rw [lanePieces, lanePieces, lanePieces, hlow, hhigh, List.take_of_length_le (by rw [bytesOfNat_length])]

/-- A vector store whose lanes may all be written: g gives the places of each. -/
theorem vectorStore_all {i : Instr} {k : KReg} {s s1 : State} (h : Goes i s s1) (hreq : NoRequests s1) (d : VReg) (n : Nat)
    (ord : MOrder) {acc : State → Word → Nat → Acc} {plan : Team → Nat → LanePlan} {g : Nat → List (Nat × Nat)}
    (hg : ∀ l ∈ workLanes s1.team k, checkLane (acc s1) (plan s1.team l) = .ok (g l)) :
    let s0 := release s1 (MOrder.relScope ord)
    (releaseWaits s1 (MOrder.relScope ord) = true → vectorStore i d k n ord acc plan s = .next (waitsAt s1 .resource)) ∧
    (releaseWaits s1 (MOrder.relScope ord) = false → vectorStore i d k n ord acc plan s =
      .next (goesOn (storeAll s0 ((workLanes s1.team k).flatMap fun l => lanePieces (g l)
        (bytesOfNat n (vget s0.team l d).toNat))) (nextPc i s))) := by
  refine issue_store h (xs := fun s0 => (workLanes s1.team k).flatMap fun l => lanePieces (g l)
    (bytesOfNat n (vget s0.team l d).toNat)) ?_
  simp only [scanLanes_ok hg, settle_others hreq, storeLanes, List.flatMap_map]

/-- A vector store whose lanes each write at one place. -/
theorem vstIs_of_single {i : Instr} {d : VReg} {k : KReg} {n : Nat} {ord : MOrder} {acc : State → Word → Nat → Acc}
    {plan : Team → Nat → LanePlan} {at_ : State → Nat → Acc} (hexec : ∀ s, exec i s = vectorStore i d k n ord acc plan s)
    (hplan : ∀ s l loc, at_ s l = .ok loc → checkLane (acc s) (plan s.team l) = .ok [(loc, n)]) : VstIs i d k n ord at_ := by
  intro s s1 loc h hreq hat
  obtain ⟨hwait, hgo⟩ := vectorStore_all (acc := acc) (plan := plan) h hreq d n ord (g := fun l => [(loc l, n)])
    fun l hl => hplan s1 l (loc l) (hat l hl)
  simp only [lanePieces_one, ← List.map_eq_flatMap] at hgo
  rw [hexec]
  exact ⟨hgo, hwait⟩

theorem vstIs_str (o : StrOps) : VstIs (.vstStr o) o.d o.k (o.es.bits / 8) o.ord fun s l =>
    access s (strAddress s.team o l) (o.es.bits / 8) (o.es.bits / 8) .wr := by
  refine vstIs_of_single (acc := fun s => plainAcc s .wr) (plan := fun t => planStr t o)
    (fun s => show execVstStr o s = _ from rfl) fun s l loc hat => ?_
  rw [planStr_pieces]
  exact checkLane_one hat

theorem vstIs_ix (o : IxOps) : VstIs (.vstIx o) o.d o.k (o.es.bits / 8) o.ord fun s l =>
    access s (ixAddress s.team o l) (o.es.bits / 8) (o.es.bits / 8) .wr := by
  refine vstIs_of_single (acc := fun s => plainAcc s .wr) (plan := fun t => planIx t o)
    (fun s => show execVstIx o s = _ from rfl) fun s l loc hat => ?_
  rw [planIx_pieces]
  exact checkLane_one hat

theorem exec_vstPrv (o : PrvOps) (s : State) : exec (.vstPrv o) s =
    vectorStore (.vstPrv o) o.d o.k (widthBytes o.es) .plain (fun s => privAcc s .wr) (fun t => planPrv t o) s := rfl

theorem vstIs_word (o : PrvOps) (ho : o.es = .w) : VstIs (.vstPrv o) o.d o.k 4 .plain fun s l =>
    if 0 ≤ prvWord s.team o l ∧ prvWord s.team o l < s.team.stklim then
      privAcc s .wr (prvAddress s.team l (prvWord s.team o l)) 4 else .fault 0x14 := by
  refine vstIs_of_single (acc := fun s => privAcc s .wr) (plan := fun t => planPrv t o) (fun s => ?_)
    fun s l loc hat => checkLane_word ho hat
  rw [exec_vstPrv, ho]
  rfl

/-- Two words of the private region in each lane. -/
theorem vstIs_double {o : PrvOps} (ho : o.es = .d) {s s1 : State} {loc hi : Nat → Nat} (h : Goes (.vstPrv o) s s1)
    (hreq : NoRequests s1)
    (hat : ∀ l ∈ workLanes s1.team o.k, 0 ≤ prvWord s1.team o l ∧ prvWord s1.team o l + 1 < s1.team.stklim ∧
      privAcc s1 .wr (prvAddress s1.team l (prvWord s1.team o l)) 4 = .ok (loc l) ∧
      privAcc s1 .wr (prvAddress s1.team l (prvWord s1.team o l + 1)) 4 = .ok (hi l)) :
    exec (.vstPrv o) s = .next (goesOn (storeAll s1 ((workLanes s1.team o.k).flatMap fun l =>
      [⟨loc l, bytesOfNat 4 (vget s1.team l o.d).toNat⟩, ⟨hi l, bytesOfNat 4 ((vget s1.team l o.d).toNat / 2 ^ 32)⟩]))
      (nextPc (.vstPrv o) s)) := by
  obtain ⟨-, hgo⟩ := vectorStore_all (acc := fun s => privAcc s .wr) (plan := fun t => planPrv t o) h hreq o.d 8 .plain
    (g := fun l => [(loc l, 4), (hi l, 4)]) fun l hl => checkLane_double ho (hat l hl)
  simp only [lanePieces_two] at hgo
  rw [exec_vstPrv, ho]
  exact hgo rfl

theorem vectorStoresWriteEveryLane : VectorStoresWriteEveryLane :=
  ⟨vstIs_str, vstIs_ix, vstIs_word, fun _ ho _ _ _ _ h hreq hat => vstIs_double ho h hreq hat⟩

/-- Settles O14: a store that may be performed waits for its release or sends the low bytes of its source behind it, lane by
lane. -/
theorem storeInstructionsSendTheirBytes : Obligations.StoreInstructionsSendTheirBytes :=
  ⟨storesSendTheirBytes, vectorStoresWriteEveryLane⟩

end Sys2Proof.MemorySync
end

section
/-! PROOFS. The frame of the storing instructions (O15, R243-R247): a byte that no store of an instruction names reads as before. -/

namespace Sys2Proof.MemorySync

open Sys2Proof.Machine Sys2Proof.RegisterState Sys2Proof.ConsistencyModel Sys2Proof.NumberFormats

/-! ### One byte -/

/-- A byte stands in memory, and where core k holds it in its L1, as before. -/
structure SameByte (k a : Nat) (s t : State) : Prop where
  mem : memByte t a = memByte s a
  held : (mapGet none t.dirty (dirtyKey k a)).map (·.b) = (mapGet none s.dirty (dirtyKey k a)).map (·.b)

theorem SameByte.refl (k a : Nat) (s : State) : SameByte k a s s := ⟨rfl, rfl⟩

theorem SameByte.trans {k a : Nat} {s t u : State} (h : SameByte k a s t) (h' : SameByte k a t u) : SameByte k a s u :=
  ⟨h'.mem.trans h.mem, h'.held.trans h.held⟩

/-- A write into an L1 keeps the bytes that it does not name. -/
theorem mapGet_writeDirty_off (m : List (Nat × Option DirtyByte)) (k : Nat) (p : BitVec 4) (pl : Place) {loc a : Nat}
    {bs : List Byte} (h : ¬(loc ≤ a ∧ a < loc + bs.length)) :
    mapGet none (writeDirty m k p pl loc bs) (dirtyKey k a) = mapGet none m (dirtyKey k a) := by
  induction bs generalizing loc with
  | nil => rfl
  | cons b bs ih =>
    rw [List.length_cons] at h
    rw [writeDirty, mapGet_mapSet_ne _ _ _ (by simp only [dirtyKey]; omega), ih (by omega)]

/-- A change of every entry that keeps its key and its byte. -/
theorem mapGet_map_b {f : Nat × Option DirtyByte → Nat × Option DirtyByte} (hkey : ∀ x, (f x).1 = x.1)
    (hb : ∀ x, (f x).2.map (·.b) = x.2.map (·.b)) (m : List (Nat × Option DirtyByte)) (j : Nat) :
    (mapGet none (m.map f) j).map (·.b) = (mapGet none m j).map (·.b) := by
  induction m with
  | nil => rfl
  | cons x m ih =>
    have hx : f x = (x.1, (f x).2) := Prod.ext (hkey x) rfl
    rw [List.map_cons, hx, mapGet, mapGet]
    split
    · exact hb x
    split
    · rfl
    · exact ih

theorem sameByte_markWhole (k a : Nat) (s : State) (c : Nat) (ls : List Nat) (w : Bool) :
    SameByte k a s (markWhole s c ls w) := by
  refine ⟨by rw [memByte, markWhole_mem]; rfl, ?_⟩
  unfold markWhole
  split
  · rfl
  · refine mapGet_map_b (fun x => ?_) (fun x => ?_) s.dirty _
    · split <;> rfl
    · split
      · cases x.2 <;> rfl
      · rfl

theorem sameByte_noteRead (k a : Nat) (s : State) (w : Who) (loc : Nat) : SameByte k a s (noteRead s w loc) := by
  obtain ⟨l1, l2, an, cnt, h⟩ := noteRead_eq s w loc
  rw [h]
  exact ⟨rfl, rfl⟩

theorem sameByte_storeOut {s : State} {w : Who} {loc a : Nat} {bs : List Byte} (h : ¬(loc ≤ a ∧ a < loc + bs.length)) :
    SameByte (placeKey w.place) a s (storeOut s w loc bs) := by
  unfold storeOut
  split
  · have hcounted : ∀ t : State, SameByte (placeKey w.place) a t (countWrites t loc bs.length) := fun t => by
      unfold countWrites
      split <;> exact ⟨rfl, rfl⟩
    refine SameByte.trans (t := { s with dirty := writeDirty s.dirty (placeKey w.place) w.part w.place loc bs })
      ⟨rfl, congrArg (Option.map (·.b)) (mapGet_writeDirty_off _ _ _ _ h)⟩ ?_
    exact (hcounted _).trans ⟨rfl, rfl⟩
  · exact ⟨memByte_performBy_off _ _ _ _ h, by rw [performStore, performBy_dirty]⟩

/-! ### The stores of one instruction -/

theorem writesOnly_storesOut (s : State) (w : Who) (xs : List BufStore) : WritesOnly s (storesOut s w xs) := by
  refine (foldl_keeps (WritesOnly s) (fun t b h => h.trans (writesOnly_storeOut t w b.loc b.data)) xs ?_).trans
    (writesOnly_markWhole ..)
  refine foldl_keeps (WritesOnly s) (fun t l h => ?_) _ (.refl s)
  split
  · exact h
  · exact h.trans (writesOnly_noteRead ..)

theorem sameByte_stores {s : State} {w : Who} {a : Nat} {xs : List BufStore} (h : ∀ x ∈ xs, ¬At x a) :
    SameByte (placeKey w.place) a s (xs.foldl (fun s b => storeOut s w b.loc b.data) s) := by
  induction xs generalizing s with
  | nil => exact .refl ..
  | cons x xs ih =>
    rw [List.forall_mem_cons] at h
    exact (sameByte_storeOut h.1).trans (ih h.2)

theorem sameByte_storesOut {s : State} {w : Who} {a : Nat} {xs : List BufStore} (h : ∀ x ∈ xs, ¬At x a) :
    SameByte (placeKey w.place) a s (storesOut s w xs) := by
  refine SameByte.trans ?_ (sameByte_markWhole ..)
  refine SameByte.trans ?_ (sameByte_stores h)
  refine foldl_keeps (SameByte (placeKey w.place) a s) (fun t l ht => ?_) _ (.refl ..)
  split
  · exact ht
  · exact ht.trans (sameByte_noteRead ..)

/-- Outside capsules and ordered mode the stores leave the core, and every byte that they do not name stands as before. -/
theorem storeAll_outside {s : State} (hbody : inBody s.team = false) (hord : ordered s.team = false) (xs : List BufStore) :
    WritesOnly s (storeAll s xs) ∧
      ∀ a, (∀ x ∈ xs, ¬At x a) → SameByte (placeKey s.team.place) a s (storeAll s xs) := by
  rw [storeAll, if_neg (ne_true_of_eq_false hbody), if_neg (ne_true_of_eq_false hord)]
  exact ⟨(writesOnly_storesOut ..).trans (writesOnly_clearPoison ..), fun a ha =>
    (sameByte_storesOut (w := s.team.who) ha).trans ⟨rfl, rfl⟩⟩

/-! ### The frame -/

/-- Every byte that is not hit reads as before, and no register, mask or flag, no other team and no core changes. -/
def KeepsBut (s t : State) (hit : Nat → Prop) : Prop :=
  (∀ a, targetOf a ≠ .page → ¬hit a → teamByte t t.team a = teamByte s s.team a) ∧ (∀ a, ¬hit a → memByte t a = memByte s a) ∧
  t.team.sregs = s.team.sregs ∧ t.team.vregs = s.team.vregs ∧ t.team.masks = s.team.masks ∧ t.team.em = s.team.em ∧
  t.team.cc = s.team.cc ∧ t.team.mode = s.team.mode ∧ t.team.fcont = s.team.fcont ∧ t.others = s.others ∧
  t.cores = s.cores ∧ t.full = s.full

/-- Nothing is buffered, and the team reads memory through its core. -/
structure Unbuffered (t : Team) : Prop where
  outside : inBody t = false
  plain : ordered t = false
  capBuf : t.capBuf = []
  obuf : t.obuf = []

/-- Outside capsules no range binds an access. -/
theorem bodyRange_outside {t : Team} (h : inBody t = false) (loc n : Nat) : bodyRange t loc n = true := by
  obtain ⟨hheld, hdisplaced⟩ := Bool.or_eq_false_iff.mp h
  rw [bodyRange, bodyHold, Option.not_isSome_iff_eq_none.mp (ne_true_of_eq_false hheld),
    Option.not_isSome_iff_eq_none.mp (ne_true_of_eq_false hdisplaced)]
  rfl

theorem teamByte_unbuffered {t : Team} (h : Unbuffered t) (s : State) (a : Nat) :
    teamByte s t a = coreByte s t.part (placeKey t.place) a := by
  simp only [teamByte, h.capBuf, h.obuf, ordStores, List.filterMap_nil, bufByte, h.outside, h.plain, Bool.false_eq_true,
    if_false]

/-- What an instruction that stores leaves alone as its team goes on. -/
theorem keepsBut_storeAll {s : State} (h : Unbuffered s.team) {xs : List BufStore} {hit : Nat → Prop}
    (hhit : ∀ x ∈ xs, ∀ a, At x a → hit a) (tgt : Word) : KeepsBut s (goesOn (storeAll s xs) tgt) hit := by
  obtain ⟨hwrites, hsame⟩ := storeAll_outside h.outside h.plain xs
  have hbyte : ∀ a, ¬hit a → SameByte (placeKey s.team.place) a s (storeAll s xs) :=
    fun a ha => hsame a fun x hx hat => ha (hhit x hx a hat)
  have hteam : ∀ {α : Type} (f : Team → α), f (storeAll s xs).team = f s.team := fun f => congrArg f hwrites.team
  have hview : Unbuffered (goesOn (storeAll s xs) tgt).team :=
    ⟨(hteam inBody).trans h.outside, (hteam ordered).trans h.plain, (hteam Team.capBuf).trans h.capBuf,
      (hteam Team.obuf).trans h.obuf⟩
  refine ⟨fun a hpage ha => ?_, fun a ha => (hbyte a ha).mem, hteam Team.sregs, hteam Team.vregs, hteam Team.masks,
    hteam Team.em, hteam Team.cc, hteam Team.mode, hteam Team.fcont, hwrites.others, hwrites.cores, hwrites.full⟩
  rw [teamByte_unbuffered hview, teamByte_unbuffered h, coreByte_eq _ _ hpage, coreByte_eq _ _ hpage]
  rw [show (goesOn (storeAll s xs) tgt).team.place = s.team.place from hteam Team.place,
    show memByte (goesOn (storeAll s xs) tgt) a = memByte s a from (hbyte a ha).mem]
  exact congrArg (Option.getD · _) (hbyte a ha).held

theorem at_bytesOfNat {loc n v a : Nat} (h : At ⟨loc, bytesOfNat n v⟩ a) : loc ≤ a ∧ a < loc + n := by
  obtain ⟨hlow, hhigh⟩ := h
  exact ⟨hlow, by rwa [bytesOfNat_length] at hhigh⟩

/-- A vector store in plain order: what no lane's place covers is left alone. -/
theorem keepsBut_vst {i : Instr} {d : VReg} {k : KReg} {n : Nat} {ord : MOrder} {at_ : State → Nat → Acc}
    (hvst : VstIs i d k n ord at_) (hplain : ord = .plain) {s s1 : State} {loc : Nat → Nat} (h : Goes i s s1)
    (hreq : NoRequests s1) (hview : Unbuffered s1.team) (hat : ∀ l ∈ workLanes s1.team k, at_ s1 l = .ok (loc l)) :
    ∃ t, exec i s = .next t ∧ KeepsBut s1 t fun a => ∃ l ∈ workLanes s1.team k, loc l ≤ a ∧ a < loc l + n := by
  subst hplain
  obtain ⟨hgo, -⟩ := hvst s s1 loc h hreq hat
  refine ⟨_, hgo rfl, keepsBut_storeAll hview (fun x hx a ha => ?_) _⟩
  obtain ⟨l, hl, rfl⟩ := List.mem_map.mp hx
  exact ⟨l, hl, at_bytesOfNat ha⟩

/-- Settles O15: a store in plain order has no release to perform, and its writes reach the bytes that it names. -/
theorem storingInstructionsKeepTheRest : Obligations.StoringInstructionsKeepTheRest := by
  unfold Obligations.StoringInstructionsKeepTheRest
  intro keeps free clean
  have hunbuffered : ∀ s : State, free s → Unbuffered s.team := fun s ⟨_, _, hbody, hord, hcap, hobuf⟩ =>
    ⟨hbody, hord, hcap, hobuf⟩
  refine ⟨fun o n s s1 loc hn hplain h hfree hacc _ => ?st, fun o n s s1 loc hn hplain h hfree hat => ?str,
    fun o n s s1 loc hn hplain h hfree hat => ?ix, fun o s s1 loc ho h hfree hat => ?word,
    fun o s s1 loc hi ho h hfree hat => ?double⟩
  case st =>
    subst hn
    have hview := hunbuffered s1 hfree
    obtain ⟨-, hgo⟩ := exec_st h hfree.2.1 hacc (bodyRange_outside hview.outside ..)
    rw [hplain] at hgo
    refine ⟨_, hgo rfl, keepsBut_storeAll hview (fun x hx a ha => ?_) _⟩
    rw [List.mem_singleton] at hx
    subst hx
    exact ⟨ha.1, by have := ha.2; rwa [storeBytes_length] at this⟩
  case str =>
    subst hn
    exact keepsBut_vst (vstIs_str o) hplain h hfree.2.1 (hunbuffered s1 hfree) fun l hl => (hat l hl).1
  case ix =>
    subst hn
    exact keepsBut_vst (vstIs_ix o) hplain h hfree.2.1 (hunbuffered s1 hfree) fun l hl => (hat l hl).1
  case word =>
    refine keepsBut_vst (vstIs_word o ho) rfl h hfree.2.1 (hunbuffered s1 hfree) fun l hl => ?_
    obtain ⟨hlow, hhigh, hacc, -⟩ := hat l hl
    exact (if_pos ⟨hlow, hhigh⟩).trans hacc
  case double =>
    refine ⟨_, vstIs_double (loc := loc) (hi := hi) ho h hfree.2.1 fun l hl => ?_,
      keepsBut_storeAll (hunbuffered s1 hfree) (fun x hx a ha => ?_) _⟩
    · obtain ⟨hlow, hhigh, hacc, -, hacc', -⟩ := hat l hl
      exact ⟨hlow, hhigh, hacc, hacc'⟩
    · obtain ⟨l, hl, hx⟩ := List.mem_flatMap.mp hx
      refine ⟨l, hl, ?_⟩
      rw [List.mem_pair] at hx
      obtain rfl | rfl := hx
      · exact .inl (at_bytesOfNat ha)
      · exact .inr (at_bytesOfNat ha)

end Sys2Proof.MemorySync
end

section
/-! PROOFS. Instructions that ask for something (R54, R370): one whose reply has come takes it, and one that has not asked yet
begins. -/

namespace Sys2Proof.MemorySync

open Sys2Proof.Machine Sys2Proof.RegisterState Sys2Proof.ConsistencyModel

/-! ### A reply is taken -/

/-- What an answer takes away from its team: the wait, the request and the reply. -/
def unasked (t : Team) : Team := { t with asked := false, request := none, reply := none }

/-- A team that goes on has nothing asked. -/
theorem goesOn_unasked (s : State) (tgt : Word) : goesOn (s.upd unasked) tgt = goesOn s tgt := rfl

theorem checked_of_asked {i : Instr} {s : State} (h : s.team.asked = true) (body : State → Eff) : checked i s body = body s :=
  if_pos h

/-- An instruction that has asked goes on with its effect. -/
theorem issue_asked_retire {i : Instr} {s s2 : State} {body : State → Eff} (h : s.team.asked = true) (he : body s = .retire s2)
    (hclean : unpoison i s2 = s2) (hl : ∀ e ∈ s2.team.lstk.head?, e.stop ≠ s.team.pc) :
    issue i s body = .next (goesOn s2 (nextPc i s)) := by
  simp only [issue, checked_of_asked h, he, Eff.cleaned, hclean, conclude, retireChecked_eq hl]

theorem issue_asked_land {i : Instr} {s s2 : State} {tgt : Word} {body : State → Eff} (h : s.team.asked = true)
    (he : body s = .land s2 tgt) (hclean : unpoison i s2 = s2) (hl : ∀ e ∈ s2.team.lstk.head?, e.stop ≠ s.team.pc) :
    issue i s body = .next (goesOn s2 tgt) := by
  simp only [issue, checked_of_asked h, he, Eff.cleaned, hclean, conclude, retireChecked_eq hl]

theorem unpoison_lands {i : Instr} (h : landsPoison i = true) (s : State) : unpoison i s = s := by
  unfold unpoison
  rw [h]
  exact if_pos (Bool.or_true _)

theorem marked_eq_markAll (ds : List SReg) (e : Bool) (t : Team) : marked ds e t = markAll t ds e := rfl

/-- The registers that a reply fills are marked, and nothing else of the team changes. -/
theorem markAll_eq (t : Team) (ds : List SReg) (e : Bool) : ∃ S V, markAll t ds e = { t with sEmpty := S, vEmpty := V } := by
  induction ds generalizing t with
  | nil => exact ⟨_, _, rfl⟩
  | cons d ds ih =>
    obtain ⟨S, V, h⟩ := markEmpty_eq t (.scal d) e
    obtain ⟨S', V', h'⟩ := ih (markEmpty t (.scal d) e)
    exact ⟨S', V', h'.trans (by rw [h])⟩

theorem answered_good {s : State} {hva : Word} {ds : List SReg} {rep : SvcReply} (h : rep.err = none)
    (k : State → SvcReply → Eff) : answered s hva ds rep k = k (s.upd fun t => unasked (marked ds false t)) rep := by
  simp only [answered, h]
  rfl

theorem withReply_reply {s : State} {w : WaitOn} {hva : Word} {ds : List SReg} {rep : SvcReply} (h : s.team.reply = some rep)
    (k : State → SvcReply → Eff) (first : State → Eff) : withReply s w hva ds k first = answered s hva ds rep k := by
  simp only [withReply, h]

/-- An instruction that has not asked yet begins. -/
theorem withReply_first {s : State} (h : s.team.asked = false ∧ s.team.reply = none) (w : WaitOn) (hva : Word) (ds : List SReg)
    (k : State → SvcReply → Eff) (first : State → Eff) : withReply s w hva ds k first = first s := by
  simp only [withReply, h.1, h.2, Bool.not_false, if_true]

/-- The effect of a reply, given what it does to its team: it fills the registers `ds` and leaves what the team had asked. -/
structure TakesFrom (i : Instr) (f : SvcReply → Team → Team) : Prop where
  unasked : ∀ r t, f r (unasked t) = unasked (f r t)
  lstk : ∀ r t, (f r t).lstk = t.lstk
  clean : landsPoison i = true ∨ ∀ r t, (f r t).sPoison = t.sPoison ∧ (f r t).vPoison = t.vPoison

theorem takesReply_of_body {ok : State → Prop} {i : Instr} {ds : List SReg} {f : SvcReply → Team → Team} {body : State → Eff}
    (hexec : ∀ s, exec i s = issue i s body) (hf : TakesFrom i f)
    (hbody : ∀ s r, Replied s r → body s = retireWith (s.upd fun t => unasked (marked ds false t)) (f r)) :
    TakesReply ok i ds f := by
  intro s r _ h
  obtain ⟨S, V, hmarked⟩ := markAll_eq s.team ds false
  rw [← marked_eq_markAll] at hmarked
  have hback : retireWith (s.upd fun t => unasked (marked ds false t)) (f r) =
      .retire ((withTeam s fun t => f r (marked ds false t)).upd MemorySync.unasked) :=
    congrArg (fun t => Eff.retire { s with team := t }) (hf.unasked r (marked ds false s.team))
  rw [hexec, ← goesOn_unasked]
  refine issue_asked_retire h.asked ((hbody s r h).trans hback) ?_ ?_
  · obtain hlands | hkeeps := hf.clean
    · exact unpoison_lands hlands _
    · obtain ⟨hs, hv⟩ := hkeeps r (marked ds false s.team)
      refine unpoison_clean i (hs.trans ?_) (hv.trans ?_) <;> rw [hmarked]
      · exact h.clean.1
      · exact h.clean.2
  · have hlstk : (f r (marked ds false s.team)).lstk = s.team.lstk := by rw [hf.lstk, hmarked]
    exact fun e he => h.inner e (hlstk ▸ he)

/-- The instruction goes on with its reply as the effect that it gives for it. -/
theorem takesReply_of_withReply {ok : State → Prop} {i : Instr} {ds : List SReg} {f : SvcReply → Team → Team} {w : WaitOn}
    {hva : State → Word} {k : State → SvcReply → Eff} {first : State → State → Eff}
    (hexec : ∀ s, exec i s = issue i s fun s => withReply s w (hva s) ds k (first s)) (hf : TakesFrom i f)
    (hk : ∀ s r, k s r = retireWith s (f r)) : TakesReply ok i ds f :=
  takesReply_of_body hexec hf fun s r h => by rw [withReply_reply h.reply, answered_good h.good, hk]

end Sys2Proof.MemorySync
end

section
/-! PROOFS. Atomics (O16, R249-R251): what ATOM and VATOM send to the service teams, and a request performed there. -/

namespace Sys2Proof.MemorySync

open Sys2Proof.Machine Sys2Proof.RegisterState Sys2Proof.MemoryHierarchy Sys2Proof.ConsistencyModel Sys2Proof.NumberFormats
  Sys2Proof.ScalarControl

/-! ### What a request sent changes of its team -/

/-- A request in a quantum's buffer, a reply on its way, or poison met by one. -/
def SendsOnly (t u : Team) : Prop := u = { t with inflight := u.inflight, softErr := u.softErr, obuf := u.obuf }

theorem SendsOnly.refl (t : Team) : SendsOnly t t := rfl

theorem SendsOnly.trans {t u v : Team} (h : SendsOnly t u) (h' : SendsOnly u v) : SendsOnly t v := by
  rw [show v = _ from h', show u = _ from h]
  rfl

theorem sendsOnly_of_replies {t u : Team} (h : RepliesOnly t u) : SendsOnly t u := by
  rw [show u = _ from h]
  rfl

section
variable {t u : Team} (h : SendsOnly t u)
include h

theorem SendsOnly.sPoison : u.sPoison = t.sPoison := by rw [show u = _ from h]
theorem SendsOnly.vPoison : u.vPoison = t.vPoison := by rw [show u = _ from h]
theorem SendsOnly.lstk : u.lstk = t.lstk := by rw [show u = _ from h]
theorem SendsOnly.ordered_eq : ordered u = ordered t := by rw [show u = _ from h]; rfl

end

theorem servesOnly_serveCluster (s : State) (cl : Nat) : RepliesOnly s.team (serveCluster s cl).team :=
  (servesOnly_foldl (s.service.filter fun e => e.cluster == cl) { s with service := _ }).team

theorem sendAtom_ordered {s : State} {r : AtomReq} (hord : ordered s.team = true) :
    sendAtom s r = withTeam s fun t => { t with obuf := t.obuf ++ [.atom r] } := if_pos hord

/-- An unordered request joins its service team's queue, which is served first where no entry of the quota is left. -/
theorem sendAtom_unordered {s : State} {r : AtomReq} (hord : ordered s.team = false) : ∃ s1,
    s1 = (if quota s s.team.part 3 ≤ askService.entriesAt s (ownerCluster r.loc) s.team.part then
      serveCluster (throttle s s.team.part 3) (ownerCluster r.loc) else s) ∧
    sendAtom s r =
      { s1 with service := s1.service ++ [⟨ownerCluster r.loc, s.team.part, s.team.place, s.team.launch, r⟩] } :=
  ⟨_, rfl, if_neg (ne_true_of_eq_false hord)⟩

theorem sendsOnly_sendAtom (s : State) (r : AtomReq) : SendsOnly s.team (sendAtom s r).team := by
  cases hord : ordered s.team with
  | true =>
    rw [sendAtom_ordered hord]
    rfl
  | false =>
    obtain ⟨s1, hs1, hsend⟩ := sendAtom_unordered (r := r) hord
    rw [hsend, hs1]
    dsimp only
    split
    · exact sendsOnly_of_replies (servesOnly_serveCluster (throttle s s.team.part 3) (ownerCluster r.loc))
    · exact .refl _

theorem sendAtom_entry {s : State} {r : AtomReq} (hord : ordered s.team = false)
    (hleft : askService.entriesAt s (ownerCluster r.loc) s.team.part < quota s s.team.part 3) : sendAtom s r =
      { s with service := s.service ++ [⟨ownerCluster r.loc, s.team.part, s.team.place, s.team.launch, r⟩] } := by
  obtain ⟨s1, hs1, hsend⟩ := sendAtom_unordered (r := r) hord
  rw [if_neg (Nat.not_le_of_lt hleft)] at hs1
  rw [hsend, hs1]

theorem farAtom_eq (loc : Nat) : farAtom loc = decide (targetOf loc = .host ∨ targetOf loc = .peer) := by
  rw [farAtom, Bool.decide_or]
  cases targetOf loc <;> rfl

/-- An unordered team waits behind its atomics where their order or their way asks for it. -/
theorem afterSend_served {s : State} (h : ordered s.team = false) (ord : MOrder) (far : Bool) :
    afterSend s ord far = served ord far s := by
  refine (if_neg (ne_true_of_eq_false h)).trans ?_
  cases far with
  | true => cases ord <;> rfl
  | false => cases ord <;> rfl

theorem afterSend_ordered {s : State} (h : ordered s.team = true) (ord : MOrder) (far : Bool) : afterSend s ord far = s :=
  if_pos h

theorem sendsOnly_served (ord : MOrder) (far : Bool) (s : State) : SendsOnly s.team (served ord far s).team := by
  have hdrain := sendsOnly_of_replies (repliesOnly_drain s)
  unfold served
  split
  · exact hdrain
  · split
    · exact hdrain
    · exact hdrain
    · exact .refl _

/-- A producer marks its register and has a result on its way. -/
theorem produce_eq (t : Team) (d : Dest) (src : FillSrc) (p : Bool) :
    ∃ I S V, produce t d src p = { t with inflight := I, sEmpty := S, vEmpty := V } := by
  unfold produce
  split
  · exact ⟨_, _, _, rfl⟩
  · obtain ⟨S, V, h⟩ := markEmpty_eq t d true
    rw [h]
    exact ⟨_, _, _, rfl⟩

/-! ### ATOM -/

/-- The package as the sending of an ATOM at loc finds it: the register marked, and the host asked. -/
def atomReady (s : State) (o : AtomOps) (loc : Nat) : State :=
  { withTeam s fun t => produce t (.scal o.d) (.requests 1 []) false with
    fresh := if targetOf loc = .host then s.fresh + 1 else s.fresh }

/-- The request of an ATOM of team t at loc. -/
def atomReq (t : Team) (op : AtomOp) (o : AtomOps) (c : Word) (loc : Nat) : AtomReq :=
  ⟨op, loc, o.dw, o.sx, sget t o.b.r, c, 0, if o.d = 0 then none else some (.scal o.d)⟩

theorem atomReady_team (s : State) (o : AtomOps) (loc : Nat) :
    ∃ I S V, (atomReady s o loc).team = { s.team with inflight := I, sEmpty := S, vEmpty := V } := produce_eq ..

theorem atomReady_ordered (s : State) (o : AtomOps) (loc : Nat) : ordered (atomReady s o loc).team = ordered s.team := by
  obtain ⟨I, S, V, h⟩ := atomReady_team s o loc
  rw [h]
  rfl

/-- An unordered ATOM with an entry left in its quota joins its service team's queue. -/
theorem sendAtom_atomReady {s : State} {o : AtomOps} {loc : Nat} {r : AtomReq} (hord : ordered s.team = false)
    (hloc : r.loc = loc)
    (hleft : askService.entriesAt s (ownerCluster loc) s.team.part < quota s s.team.part 3) : sendAtom (atomReady s o loc) r =
      { atomReady s o loc with
        service := s.service ++ [⟨ownerCluster loc, s.team.part, s.team.place, s.team.launch, r⟩] } := by
  obtain ⟨I, S, V, h⟩ := atomReady_team s o loc
  have hpart : (atomReady s o loc).team.part = s.team.part := by rw [h]
  have hplace : (atomReady s o loc).team.place = s.team.place := by rw [h]
  have hlaunch : (atomReady s o loc).team.launch = s.team.launch := by rw [h]
  rw [sendAtom_entry ((atomReady_ordered s o loc).trans hord) (by rw [hpart, hloc]; exact hleft), hpart, hplace, hlaunch, hloc]
  rfl

section
variable {i : Instr} {op : AtomOp} {o : AtomOps} {cmp : Team → Word} (hexec : ∀ s, exec i s = atomWith i op o cmp s)
include hexec

theorem atomWith_takesReply : TakesReply anyState i [] fun _ t => t :=
  takesReply_of_withReply hexec ⟨fun _ _ => rfl, fun _ _ => rfl, .inr fun _ _ => ⟨rfl, rfl⟩⟩ fun _ _ => rfl

/-- Poison at the service team stops the team at the instruction (R445). -/
theorem atomWith_poisoned {s s1 : State} {loc : Nat} (h : Issues i s s1)
    (hserves : hostRefuses s1 op o.dw false (addressOf s1.team o.a o.off) = false)
    (hacc : access s1 (addressOf s1.team o.a o.off) (atomBytes o.dw) (atomBytes o.dw) .atomic = .ok loc)
    (hpoison : poisonedIn (flushLines s1 loc (atomBytes o.dw)) loc (atomBytes o.dw) = true) : exec i s = .next (stopAt s s1
      { cause := 0x50, pc := s1.team.pc, kind := 2, faddr := addressOf s1.team o.a o.off }) := by
  have hfault : atomAcc s1 op o.dw false (addressOf s1.team o.a o.off) (atomBytes o.dw) = .fault 0x50 := by
    simp only [atomAcc, hserves, hacc, hpoison, Bool.false_eq_true, if_false, if_true]
  rw [hexec]
  refine issue_stop h ?_
  simp only [withReply_first h.idle, effAddr_eq_addressOf, hfault]
  rfl

/-- What an ATOM does behind its release: it sends its request, and then it goes on, or waits for the quantum end that sends a
far one. -/
theorem atomWith_sends {s s1 : State} {loc : Nat} (h : Goes i s s1)
    (hrel : releaseWaits s1 (MOrder.relScope o.ord) = false)
    (hacc : atomAcc s1 op o.dw false (addressOf s1.team o.a o.off) (atomBytes o.dw) = .ok loc)
    (hquota : quota s1 s1.team.part 3 ≠ 0) :
    let s2 := release s1 (MOrder.relScope o.ord)
    let u := sendAtom (atomReady s2 o loc) (atomReq s1.team op o (cmp s1.team) loc)
    ((ordered s1.team && farAtom loc) = true → exec i s =
      .next (waitsAt (withTeam u fun t => { t with asked := true, op := some i }) .quantum)) ∧
    ((ordered s1.team && farAtom loc) = false → exec i s = .next (goesOn (afterSend u o.ord (farAtom loc)) (nextPc i s))) := by
  intro s2 u
  have hentries : noEntries s1 = false := by simp [noEntries, hquota]
  have hsent : u.team.sPoison = 0 ∧ u.team.vPoison = 0 ∧ u.team.lstk = s1.team.lstk ∧ ordered u.team = ordered s1.team := by
    obtain ⟨I, S, V, hready⟩ := atomReady_team s2 o loc
    have hrelease := repliesOnly_release s1 (MOrder.relScope o.ord)
    have hsends : SendsOnly (atomReady s2 o loc).team u.team := sendsOnly_sendAtom ..
    rw [hready] at hsends
    exact ⟨hsends.sPoison.trans (hrelease.sPoison.trans h.cleanS), hsends.vPoison.trans (hrelease.vPoison.trans h.cleanV),
      hsends.lstk.trans hrelease.lstk, hsends.ordered_eq.trans (congrArg (·.getLsbD 5) hrelease.mode)⟩
  obtain ⟨hs, hv, hl, hord⟩ := hsent
  have hafter : SendsOnly u.team (afterSend u o.ord (farAtom loc)).team := by
    cases hu : ordered u.team with
    | true => rw [afterSend_ordered hu]; exact .refl _
    | false => rw [afterSend_served hu]; exact sendsOnly_served ..
  rw [hexec]
  refine ⟨fun hfar => ?_, fun hgo => ?_⟩
  · refine (issue_hold h.toIssues (w := .quantum) (s2 := u.upd fun t => { t with asked := true }) ?_).trans rfl
    simp only [withReply_first h.idle, effAddr_eq_addressOf, hacc, hentries, Bool.false_eq_true, if_false, relThen_go hrel,
      hfar, if_true]
    rfl
  · refine issue_retire h.toIssues ?_ (hafter.sPoison.trans hs) (hafter.vPoison.trans hv)
      (by rw [hafter.lstk, hl]; exact h.inner)
    simp only [withReply_first h.idle, effAddr_eq_addressOf, hacc, hentries, Bool.false_eq_true, if_false, relThen_go hrel,
      hgo]
    rfl

end

/-- The instruction is an ATOM of the function op. -/
theorem atomIs_of_atomWith {c : AtomOps → Instr} {op : AtomOp} {cmp : Team → Word}
    (hexec : ∀ o s, exec (c o) s = atomWith (c o) op o cmp s) : AtomIs c op cmp := by
  refine ⟨fun o => atomWith_takesReply (hexec o), fun o s s1 n loc h hn hserves hacc hpoison => ?poisoned,
    fun o s s1 s2 loc h hrel hs2 hacc hquota => ?sends⟩
  case poisoned =>
    subst hn
    exact atomWith_poisoned (hexec o) h hserves hacc hpoison
  case sends =>
    subst hs2
    obtain ⟨hfar, hgo⟩ := atomWith_sends (hexec o) h hrel hacc hquota
    rw [farAtom_eq] at hfar hgo
    have hmode : ordered (release s1 (MOrder.relScope o.ord)).team = ordered s1.team :=
      congrArg (·.getLsbD 5) (repliesOnly_release s1 (MOrder.relScope o.ord)).mode
    have hready := (atomReady_ordered (release s1 (MOrder.relScope o.ord)) o loc).trans hmode
    have hobuf : (atomReady (release s1 (MOrder.relScope o.ord)) o loc).team.obuf =
        (release s1 (MOrder.relScope o.ord)).team.obuf := by
      obtain ⟨I, S, V, hteam⟩ := atomReady_team (release s1 (MOrder.relScope o.ord)) o loc
      rw [hteam]
    refine ⟨fun hord hleft => ?_, fun hord hnear => ?_, fun hord hisfar => ?_⟩
    · have hgo := hgo (by rw [hord]; rfl)
      rw [afterSend_served ((sendsOnly_sendAtom ..).ordered_eq.trans (hready.trans hord)),
        sendAtom_atomReady (loc := loc) (hmode.trans hord) rfl hleft] at hgo
      exact hgo
    · have hgo := hgo (by rw [hord, hnear]; rfl)
      rw [afterSend_ordered ((sendsOnly_sendAtom ..).ordered_eq.trans (hready.trans hord)),
        sendAtom_ordered (hready.trans hord), withTeam, hobuf] at hgo
      exact hgo
    · have hfar := hfar (by rw [hord, hisfar]; rfl)
      rw [sendAtom_ordered (hready.trans hord), withTeam, withTeam, hobuf] at hfar
      exact hfar

theorem atomicsSendTheirRequest : AtomicsSendTheirRequest :=
  ⟨atomIs_of_atomWith fun _ _ => rfl, atomIs_of_atomWith fun _ _ => rfl, atomIs_of_atomWith fun _ _ => rfl,
    atomIs_of_atomWith fun _ _ => rfl, atomIs_of_atomWith fun _ _ => rfl, atomIs_of_atomWith fun _ _ => rfl,
    atomIs_of_atomWith fun _ _ => rfl, atomIs_of_atomWith fun _ _ => rfl, atomIs_of_atomWith fun _ _ => rfl,
    fun _ => atomIs_of_atomWith fun _ _ => rfl, atomIs_of_atomWith fun _ _ => rfl⟩

/-! ### VATOM -/

/-- A vector atomic's requests, one for each lane, each at one place. -/
theorem sendLanes_singles (s : State) (t : Team) (o : VatomOps) (n : Nat) (loc : Nat → Nat) (ls : List Nat) :
    sendLanes s t o (ls.map fun l => (l, [(loc l, n)])) = ls.foldl (fun u l => sendAtom u (vatomReq t o l (loc l))) s := by
  rw [sendLanes, List.foldl_map]
  rfl

theorem vectorAtomicsSendOnePerLane : VectorAtomicsSendOnePerLane := by
  intro o s s1 loc h hquota hat hrel s2 s3 s4 far
  have hscan := scanLanes_ok (f := atomAcc s1 o.op o.dw true) (plan := planVatom s1.team o) (t := s1.team) (k := o.k)
    (g := fun l => [(loc l, atomBytes o.dw)]) fun l hl => checkLane_one (hat l hl)
  have hentries : (noEntries s1 && !(workLanes s1.team o.k).isEmpty) = false := by
    obtain hne | hnil := hquota
    · simp [noEntries, hne]
    · simp [hnil]
  have hrelease : SendsOnly s1.team s2.team := sendsOnly_of_replies (repliesOnly_release s1 (MOrder.relScope o.ord))
  have hmarked : ∃ I S V, s3.team = { s2.team with inflight := I, sEmpty := S, vEmpty := V } := by
    by_cases hmark : (o.nr || (workLanes s1.team o.k).isEmpty) = true
    · exact ⟨_, _, _, by rw [show s3 = s2 from if_pos hmark]⟩
    · obtain ⟨I, S, V, hproduce⟩ := produce_eq s2.team (.vec o.d) (.requests (workLanes s1.team o.k).length []) false
      exact ⟨I, S, V, by rw [show s3 = _ from if_neg hmark]; exact hproduce⟩
  have hsent : SendsOnly s3.team s4.team :=
    foldl_keeps (fun u => SendsOnly s3.team u.team) (fun u l hu => hu.trans (sendsOnly_sendAtom ..)) _ (.refl _)
  obtain ⟨I, S, V, hmarked⟩ := hmarked
  rw [hmarked] at hsent
  have hafter : SendsOnly s4.team (afterSend s4 o.ord far).team ∧
      afterSend s4 o.ord far = if ordered s1.team then s4 else served o.ord far s4 := by
    have hord : ordered s4.team = ordered s1.team := hsent.ordered_eq.trans hrelease.ordered_eq
    cases hu : ordered s4.team with
    | true => rw [afterSend_ordered hu, if_pos (hord.symm.trans hu)]; exact ⟨.refl _, rfl⟩
    | false =>
      rw [afterSend_served hu, if_neg (ne_true_of_eq_false (hord.symm.trans hu))]
      exact ⟨sendsOnly_served .., rfl⟩
  obtain ⟨hafter, hresult⟩ := hafter
  rw [← hresult, show exec (.vatom o) s = execVatom o s from rfl, execVatom]
  refine issue_retire h.toIssues ?_ (hafter.sPoison.trans (hsent.sPoison.trans (hrelease.sPoison.trans h.cleanS)))
    (hafter.vPoison.trans (hsent.vPoison.trans (hrelease.vPoison.trans h.cleanV)))
    (by rw [hafter.lstk, hsent.lstk]; exact hrelease.lstk ▸ h.inner)
  simp only [hscan, List.isEmpty_map, List.length_map, hentries, Bool.false_eq_true, if_false, relThen_go hrel,
    sendLanes_singles, List.any_map, Function.comp_def, List.any_cons, List.any_nil, Bool.or_false, farAtom_eq]
  rfl

end Sys2Proof.MemorySync
end

section
/-! PROOFS. A request at its service team (O16, R250, R445): the word read, the function written over it, and the reply. -/

namespace Sys2Proof.MemorySync

open Sys2Proof.Machine Sys2Proof.RegisterState Sys2Proof.MemoryHierarchy Sys2Proof.ConsistencyModel Sys2Proof.ScalarControl

/-- The width of a request's word in bits. -/
def atomWidth (dw : Bool) : Nat := if dw then 64 else 32

theorem atomWidth_eq (dw : Bool) : atomWidth dw = 8 * atomBytes dw := by cases dw <;> rfl

theorem atomWidth_pos (dw : Bool) : 0 < atomWidth dw := by cases dw <;> decide

/-- The model's function of an atomic is that of R249. -/
theorem atomNew_eq_atomicValue (op : AtomOp) (dw : Bool) {old x c : Nat} (hold : old < 2 ^ atomWidth dw)
    (hx : x < 2 ^ atomWidth dw) : atomNew op dw old x c = atomicValue op (atomWidth dw) old x c := by
  have hsigned : ∀ v < 2 ^ atomWidth dw, toSigned (atomWidth dw) (v % 2 ^ atomWidth dw) = sgn (atomWidth dw) v :=
    fun v hv => by rw [Nat.mod_eq_of_lt hv, toSigned_eq_sgn (atomWidth_pos dw)]
  have hwidth : (if dw then 64 else 32 : Nat) = atomWidth dw := rfl
  cases op with
  | min | max => simp only [atomNew, atomicValue, hwidth, hsigned old hold, hsigned x hx]
  | fadd => cases dw <;> rfl
  | add | and | or | xor | minn | maxn | swap | cas => rfl

/-- What a request replies is the word as R249 extends it. -/
theorem extBytes_atom (dw sx : Bool) {old : Nat} (hold : old < 2 ^ atomWidth dw) : extBytes (atomBytes dw) sx old =
    if sx then BitVec.ofInt 64 (sgn (atomWidth dw) old) else BitVec.ofNat 64 old := by
  rw [extBytes, ← atomWidth_eq, Nat.mod_eq_of_lt hold, toSigned_eq_sgn (atomWidth_pos dw)]

/-- The package as a request has read its word, which is clean: the function's value written, or nothing. -/
def atomWritten (s : State) (e : SvcEntry) : State :=
  let n := atomBytes e.req.dw
  match atomNew e.req.op e.req.dw (memNat s e.req.loc n) (e.req.x.toNat % 2 ^ (8 * n)) (e.req.cmp.toNat % 2 ^ (8 * n)) with
  | some v => performStore s e.part e.place e.req.loc (bytesOfNat n v)
  | none => countWrites s e.req.loc n

/-- With no dirty byte in an L1 and no die lost, a request is served at once. -/
theorem serveAtom_clean {s : State} (hdirty : s.dirty = []) (hlost : s.pkstat.lost = 0) (e : SvcEntry) : serveAtom s e =
    if poisonedIn s e.req.loc (atomBytes e.req.dw) then mapTeam s e.place fun t => { t with softErr := some 4 }
    else match e.req.dest with
      | some d => mapTeam (atomWritten s e) e.place fun t => reply t d e.req.lane
          (extBytes (atomBytes e.req.dw) e.req.sx (memNat s e.req.loc (atomBytes e.req.dw)))
      | none => atomWritten s e := by
  simp only [serveAtom, flushLines_clean hdirty, hlost, bne_self_eq_false, Bool.false_and, Bool.false_eq_true, if_false]
  rfl

theorem writesOnly_atomWritten (s : State) (e : SvcEntry) : WritesOnly s (atomWritten s e) := by
  simp only [atomWritten]
  split
  · exact writesOnly_performStore ..
  · exact writesOnly_countWrites ..

/-- The bytes after a request, where nothing guards memory: its word is the function's value, and every other byte is kept. -/
theorem memByte_atomWritten {s : State} (hfree : Unguarded s) (e : SvcEntry) (a : Nat) : memByte (atomWritten s e) a =
    if e.req.loc ≤ a ∧ a < e.req.loc + atomBytes e.req.dw then
      match atomicValue e.req.op (atomWidth e.req.dw) (memNat s e.req.loc (atomBytes e.req.dw))
        (e.req.x.toNat % 2 ^ atomWidth e.req.dw) (e.req.cmp.toNat % 2 ^ atomWidth e.req.dw) with
      | some v => BitVec.ofNat 8 (v / 256 ^ (a - e.req.loc))
      | none => memByte s a
    else memByte s a := by
  have hold : memNat s e.req.loc (atomBytes e.req.dw) < 2 ^ atomWidth e.req.dw := by
    rw [atomWidth_eq]
    exact memNat_lt ..
  simp only [atomWritten, ← atomWidth_eq]
  rw [atomNew_eq_atomicValue _ _ hold (Nat.mod_lt _ (Nat.two_pow_pos _))]
  cases atomicValue e.req.op (atomWidth e.req.dw) (memNat s e.req.loc (atomBytes e.req.dw))
    (e.req.x.toNat % 2 ^ atomWidth e.req.dw) (e.req.cmp.toNat % 2 ^ atomWidth e.req.dw) with
  | none =>
    rw [show memByte (countWrites s e.req.loc (atomBytes e.req.dw)) a = memByte s a from
      congrArg (mapGet 0 · a) (countWrites_mem ..), ite_self]
  | some v =>
    refine (memByte_performBy none s e.part e.place e.req.loc _ a).trans ?_
    rw [bytesOfNat_length]
    split
    · next hin => rw [if_pos hin.1, bytesOfNat_getD (by omega)]
    · next hout => rw [if_neg fun hin => hout ⟨hin, blockedByte_unguarded hfree a⟩]

theorem atomicsReadAndWriteAsOneAct : AtomicsReadAndWriteAsOneAct := by
  unfold AtomicsReadAndWriteAsOneAct
  refine ⟨fun s e w old hdirty hfree hw hclean hold => ?performed, fun s e hdirty hlost hpoison => ?poisoned⟩
  case performed =>
    obtain rfl : w = atomWidth e.req.dw := hw
    have hbytes : atomWidth e.req.dw / 8 = atomBytes e.req.dw := by rw [atomWidth_eq]; omega
    rw [hbytes] at hclean hold
    have hlt : old < 2 ^ atomWidth e.req.dw := by
      rw [hold, atomWidth_eq]
      exact memNat_lt ..
    have hwrites := writesOnly_atomWritten s e
    refine ⟨atomWritten s e, _, fun a => ?_, hwrites.team, hwrites.others, rfl, ?_⟩
    · rw [hbytes, hold]
      exact memByte_atomWritten hfree e a
    · have hserve := serveAtom_clean hdirty hfree.2.2.1 e
      rw [if_neg (ne_true_of_eq_false hclean), ← hold, extBytes_atom _ _ hlt] at hserve
      exact hserve
  case poisoned =>
    refine ⟨s, rfl, rfl, rfl, ?_⟩
    exact (serveAtom_clean hdirty hlost e).trans (if_pos hpoison)

/-- Settles O16: an atomic sends its request, one for each lane, behind its release, and a service team performs each as one
act. -/
theorem atomicsAreOneAct : Obligations.AtomicsAreOneAct :=
  ⟨atomicsSendTheirRequest, vectorAtomicsSendOnePerLane, atomicsReadAndWriteAsOneAct⟩

end Sys2Proof.MemorySync
end

section
/-! PROOFS. LDFE and WAITC (O19, R248, R253): a full granule read at its bank, an empty one waited for, and a count waited for. -/

namespace Sys2Proof.MemorySync

open Sys2Proof.Machine Sys2Proof.RegisterState Sys2Proof.MemoryHierarchy Sys2Proof.ConsistencyModel Sys2Proof.NumberFormats
  Sys2Proof.ScalarControl

/-! ### Registers that a reply fills -/

/-- The registers of a list but s0 are full. -/
def AllFull (ds : List SReg) (t : Team) : Prop := ∀ d ∈ ds, d ≠ 0 → destEmpty t (.scal d) = false

theorem destEmpty_marked (ds : List SReg) (e : Bool) (t : Team) (r : SReg) :
    destEmpty (marked ds e t) (.scal r) = if r ∈ ds ∧ r ≠ 0 then e else destEmpty t (.scal r) := by
  induction ds generalizing t with
  | nil => rw [if_neg (by simp)]; rfl
  | cons d ds ih =>
    rw [show marked (d :: ds) e t = marked ds e (markEmpty t (.scal d) e) from rfl, ih, destEmpty_markEmpty]
    simp only [List.mem_cons, Dest.scal.injEq, ne_eq]
    by_cases hd : r = d
    · subst hd
      by_cases hr : r = 0
      · simp only [hr, not_true, and_false, if_false]
      · simp only [hr, not_false_eq_true, and_true, true_or, if_true, ite_self]
    · simp only [hd, false_and, false_or, if_false]

/-- Registers marked empty and then full again are as they were, if they were full. -/
theorem marked_back {ds : List SReg} {t : Team} (h : AllFull ds t) : marked ds false (marked ds true t) = t := by
  have hmarked : ∀ e t, ∃ S, marked ds e t = { t with sEmpty := S } := fun e t =>
    List.foldlRecOn ds _ (motive := fun u : Team => ∃ S, u = { t with sEmpty := S }) ⟨t.sEmpty, rfl⟩ (by
      rintro _ ⟨S, rfl⟩ d -
      by_cases hd : d = 0
      · subst hd; exact ⟨S, rfl⟩
      · exact ⟨_, markEmpty_scal _ hd e⟩)
  obtain ⟨S, hS⟩ := hmarked true t
  obtain ⟨S', hS'⟩ := hmarked false (marked ds true t)
  have hbits : S' = t.sEmpty := by
    refine BitVec.eq_of_getLsbD_eq fun j hj => ?_
    have hbit := destEmpty_marked ds false (marked ds true t) (BitVec.ofNat 6 j)
    rw [destEmpty_marked ds true t] at hbit
    have hfull := h (BitVec.ofNat 6 j)
    rw [hS'] at hbit
    have hnum : (BitVec.ofNat 6 j).toNat = j := Nat.mod_eq_of_lt hj
    simp only [destEmpty, hnum] at hbit hfull
    rw [hbit]
    split
    · next hin => exact (hfull hin.1 hin.2).symm
    · rfl
  rw [hS', hbits, hS]

/-- A register that is full stays full while others are waited for. -/
def FullStays (t u : Team) : Prop := ∀ d, destEmpty t d = false → destEmpty u d = false

theorem fullStays_replies {t u : Team} (h : RepliesOnly t u) (d : Dest) : destEmpty u d = destEmpty t d := by
  rw [show u = _ from h]
  cases d <;> rfl

theorem deliver_full {t u : Team} {d : Dest} (h : deliver t d = some u) :
    FullStays t u ∧ (d ≠ .scal 0 → destEmpty u d = false) := by
  have hawaited := awaited_deliver h
  refine ⟨fun e he => ?_, fun hne => hawaited.full d (List.mem_singleton_self d) hne⟩
  by_cases hed : e = d
  · subst hed
    by_cases hne : e = .scal 0
    · subst hne
      obtain rfl | ⟨vs, p, rfl⟩ := deliver_cases h
      · exact he
      · rwa [destEmpty_arrived, if_neg fun hx => hx.2 rfl]
    · exact hawaited.full e (List.mem_singleton_self e) hne
  · rw [hawaited.bits e (by simpa using hed), he]

theorem awaitDest_fullStays {s s1 : State} {d : Dest} (h : awaitDest s d = some s1) :
    FullStays s.team s1.team ∧ (d ≠ .scal 0 → destEmpty s1.team d = false) := by
  unfold awaitDest at h
  split at h
  · split at h
    · next u hu =>
      obtain rfl := Option.some.inj h
      exact deliver_full hu
    · obtain ⟨u, hu, rfl⟩ := Option.map_eq_some_iff.mp h
      obtain ⟨hstays, hfull⟩ := deliver_full hu
      exact ⟨fun e he => hstays e ((fullStays_replies (repliesOnly_drain s) e).trans he), hfull⟩
  · next hfull =>
    obtain rfl := Option.some.inj h
    exact ⟨fun _ he => he, fun _ => by simpa using hfull⟩

/-- Every register that an instruction waits for is full when it issues. -/
theorem awaitAll_full {ds : List Dest} {s s1 : State} (h : awaitAll s ds = some s1) :
    FullStays s.team s1.team ∧ ∀ d ∈ ds, d ≠ .scal 0 → destEmpty s1.team d = false := by
  induction ds generalizing s with
  | nil =>
    obtain rfl := Option.some.inj h
    exact ⟨fun _ he => he, nofun⟩
  | cons d ds ih =>
    obtain ⟨s2, h2, hrest⟩ := Option.bind_eq_some_iff.mp h
    obtain ⟨hfirst, hd⟩ := awaitDest_fullStays h2
    obtain ⟨hlater, hds⟩ := ih hrest
    refine ⟨fun e he => hlater e (hfirst e he), fun e he hne => ?_⟩
    obtain rfl | hmem := List.mem_cons.mp he
    · exact hlater e (hd hne)
    · exact hds e hmem hne

/-! ### Requests at a bank -/

/-- The reply of a bank reaches the current team. -/
theorem answer_here {s : State} (h : s.team.status ≠ .vacant) (r : SvcReply) :
    answer s s.team.place r = withTeam s fun t => { t with reply := some r } := by
  refine if_pos ?_
  rw [Bool.and_eq_true, decide_eq_true_iff, bne_iff_ne]
  exact ⟨rfl, h⟩

theorem asking_team (s : State) (ds : List SReg) (r : Option SvcReq) :
    (asking s ds r).team = { marked ds true s.team with asked := true, request := r } := rfl

/-- An answered team stands as it did before it asked, if the registers of its reply were full. -/
theorem answered_back {ds : List SReg} {t : Team} (h : AllFull ds t) (a : Bool) (q : Option SvcReq) (p : Option SvcReply) :
    unasked (marked ds false { marked ds true t with asked := a, request := q, reply := p }) = unasked t := by
  have hcomm : ∀ u, marked ds false { u with asked := a, request := q, reply := p } =
      { marked ds false u with asked := a, request := q, reply := p } := fun u => by
    induction ds generalizing u with
    | nil => rfl
    | cons d ds ih =>
      have hd : markEmpty { u with asked := a, request := q, reply := p } (.scal d) false =
          { markEmpty u (.scal d) false with asked := a, request := q, reply := p } := by
        by_cases hd : d = 0
        · subst hd
          rfl
        · rw [markEmpty_scal _ hd, markEmpty_scal _ hd]
      rw [show ∀ v, marked (d :: ds) false v = marked ds false (markEmpty v (.scal d) false) from fun _ => rfl, hd]
      exact ih (fun e he => h e (List.mem_cons_of_mem d he)) _
  rw [hcomm, marked_back h]
  rfl

/-- The bank performs a request at once, and answers its team. -/
theorem askBank_answered {s s1 : State} {w : WaitOn} {hva : Word} {ds : List SReg} {r : BankReq} {rep : SvcReply}
    (hat : atBank (asking s ds none) r = atBank.reach (asking s ds none) r)
    (htry : bankTry (asking s ds none) r = some (answer s1 s.team.place rep)) (hs1 : s1.team = (asking s ds none).team)
    (hbank : s1.bank = []) (hpresent : s.team.status ≠ .vacant) (k : State → SvcReply → Eff) :
    askBank s w hva ds r k = answered (withTeam s1 fun t => { t with reply := some rep }) hva ds rep k := by
  obtain ⟨S, V, hmark⟩ := markAll_eq s.team ds true
  have hteam : s1.team.place = s.team.place ∧ s1.team.status = s.team.status := by
    rw [hs1, asking_team, marked_eq_markAll, hmark]
    exact ⟨rfl, rfl⟩
  have hanswer := answer_here (s := s1) (by rw [hteam.2]; exact hpresent) rep
  rw [hteam.1] at hanswer
  have hreach : atBank (asking s ds none) r = withTeam s1 fun t => { t with reply := some rep } := by
    rw [hat, reach_performed htry, hanswer, settleBank_empty]
    exact hbank
  simp only [askBank, hreach]
  rfl

/-- What follows the answer finds the team as it was before it asked. -/
theorem askBank_performed {s s1 : State} {w : WaitOn} {hva : Word} {ds : List SReg} {r : BankReq} {rep : SvcReply}
    (hat : atBank (asking s ds none) r = atBank.reach (asking s ds none) r)
    (htry : bankTry (asking s ds none) r = some (answer s1 s.team.place rep)) (hs1 : s1.team = (asking s ds none).team)
    (hbank : s1.bank = []) (hpresent : s.team.status ≠ .vacant) (hgood : rep.err = none) (hfull : AllFull ds s.team)
    (k : State → SvcReply → Eff) : askBank s w hva ds r k = k { s1 with team := unasked s.team } rep := by
  have hback := answered_back hfull true none (some rep)
  rw [askBank_answered hat htry hs1 hbank hpresent, answered_good hgood]
  refine congrArg (fun t => k { s1 with team := t } rep) (.trans ?_ hback)
  rw [withTeam, hs1]
  rfl

/-- The bank keeps the request, and its team waits. -/
theorem askBank_waits {s : State} {w : WaitOn} {hva : Word} {ds : List SReg} {r : BankReq}
    (hat : atBank (asking s ds none) r = atBank.reach (asking s ds none) r) (htry : bankTry (asking s ds none) r = none)
    (hreply : s.team.reply = none) (k : State → SvcReply → Eff) :
    askBank s w hva ds r k = .hold { asking s ds none with bank := s.bank ++ [r] } w := by
  obtain ⟨S, V, hmark⟩ := markAll_eq s.team ds true
  have hnone : (asking s ds none).team.reply = none := by
    rw [show (asking s ds none).team = { markAll s.team ds true with asked := true, request := none } from rfl, hmark]
    exact hreply
  have hreach : atBank (asking s ds none) r = { asking s ds none with bank := s.bank ++ [r] } := by
    rw [hat, reach_waits htry]
    rfl
  simp only [askBank, hreach]
  rw [hnone]

/-- A team that has asked waits at its instruction. -/
theorem issue_awaits {i : Instr} {s s1 u : State} {ds : List SReg} {req : Option SvcReq} {w : WaitOn} {body : State → Eff}
    (h : Issues i s s1) (he : body s1 = .hold (withTeam u fun t => { marked ds true t with asked := true, request := req }) w) :
    issue i s body = .next (awaits u i ds req w) := (issue_hold h he).trans rfl

/-- An effect that is done, where no poison is taken away. -/
theorem issue_retire_kept {i : Instr} {s s1 s2 : State} {body : State → Eff} (h : Issues i s s1) (he : body s1 = .retire s2)
    (hclean : unpoison i s2 = s2) (hl : ∀ e ∈ s2.team.lstk.head?, e.stop ≠ s.team.pc) :
    issue i s body = .next (goesOn s2 (nextPc i s)) := by
  simp only [issue, checked_of_issues h, he, Eff.cleaned, hclean, conclude, retireChecked_eq hl]

/-! ### LDFE -/

theorem landed_keeps {α : Type} {f : Team → α} (hset : ∀ t d v, f (sset t d v) = f t)
    (hpoison : ∀ t d b, f (markPoison t d b) = f t) (vs : List (SReg × Word)) (p : Bool) (t : Team) :
    f (landed vs p t) = f t :=
  List.foldlRecOn vs _ (motive := fun u : Team => f u = f t) rfl fun _ hu _ _ => (hpoison ..).trans ((hset ..).trans hu)

theorem markPoison_unasked (t : Team) (d : Dest) (b : Bool) : markPoison (unasked t) d b = unasked (markPoison t d b) := by
  cases d with
  | scal r =>
    by_cases hr : r = 0
    · subst hr
      rfl
    · rw [markPoison_scal _ hr, markPoison_scal _ hr]
      rfl
  | vec r => rfl

theorem sset_unasked (t : Team) (d : SReg) (v : Word) : sset (unasked t) d v = unasked (sset t d v) := by
  unfold sset
  split <;> rfl

theorem landed_unasked (vs : List (SReg × Word)) (p : Bool) (t : Team) :
    landed vs p (unasked t) = unasked (landed vs p t) := by
  induction vs generalizing t with
  | nil => rfl
  | cons v vs ih =>
    rw [landed, List.foldl_cons, sset_unasked, markPoison_unasked]
    exact ih (markPoison (sset t v.1 v.2) (.scal v.1) p)

/-- The registers of an LDFE. -/
def ldfeRegs (o : LdfeOps) : List SReg := if o.size = .p then [o.d, BitVec.ofNat 6 (o.d.toNat + 1)] else [o.d]

theorem ldfeVals_regs (o : LdfeOps) (rep : SvcReply) : (ldfeVals o rep).map (·.1) = ldfeRegs o := by
  unfold ldfeVals ldfeRegs
  split
  · next hz => rw [if_pos hz]; rfl
  · next hz => rw [if_neg hz]; rfl

theorem sizeRegs_ldfe (o : LdfeOps) : sizeRegs o.size o.d = (ldfeRegs o).map .scal := by
  cases hz : o.size with
  | p => rw [ldfeRegs, if_pos hz]; rfl
  | b | h | w | d => rw [ldfeRegs, if_neg (by rw [hz]; nofun)]; rfl

/-- What an LDFE reads at its bank: the low words of its bytes. -/
def ldfeReply (s : State) (loc n : Nat) : SvcReply :=
  { vals := [BitVec.ofNat 64 (natAt (memBytes s loc n) 0 8), BitVec.ofNat 64 (natAt (memBytes s loc n) 8 8)],
    poison := poisonedIn s loc n }

/-- The package as an LDFE leaves the granules. -/
def ldfeLeft (s : State) (loc : Nat) (clear : Bool) : State :=
  if clear && !taggedGranule s loc then { s with full := s.full.filter (· != loc / 16) } else s

theorem ldfeLeft_eq (s : State) (loc : Nat) (clear : Bool) : ∃ full, ldfeLeft s loc clear = { s with full := full } := by
  unfold ldfeLeft
  split <;> exact ⟨_, rfl⟩

theorem ldfeLeft_asking (s : State) (ds : List SReg) (r : Option SvcReq) (loc : Nat) (clear : Bool) (t : Team) :
    { ldfeLeft (asking s ds r) loc clear with team := t } = { ldfeLeft s loc clear with team := t } := by
  unfold ldfeLeft
  rw [show taggedGranule (asking s ds r) loc = taggedGranule s loc from rfl]
  split <;> rfl

theorem bankTry_ldfe_full {s : State} {loc : Nat} (h : loc / 16 ∈ s.full) (n : Nat) (clear : Bool) (p : Place) :
    bankTry s (.ldfe loc n clear p) = some (answer (ldfeLeft s loc clear) p (ldfeReply s loc n)) := by
  have hfull : granuleFull s loc = true := List.contains_iff_mem.mpr h
  simp only [bankTry, bankLdfe, hfull, if_true]
  rfl

theorem bankTry_ldfe_empty {s : State} {loc : Nat} (h : loc / 16 ∉ s.full) (n : Nat) (clear : Bool) (p : Place) :
    bankTry s (.ldfe loc n clear p) = none := by
  have hempty : granuleFull s loc = false := Bool.eq_false_iff.mpr fun hc => h (List.contains_iff_mem.mp hc)
  simp only [bankTry, bankLdfe, hempty, Bool.false_eq_true, if_false]
  rfl

theorem fetched_extBytes {n : Nat} (hn : 0 < n) (h : n ≤ 8) (s : State) (loc : Nat) (sx : Bool) :
    Fetched s loc n sx (extBytes n sx (natOfBytes (memBytes s loc n))) :=
  fun _ hb => getLsbD_extBytes_bytesBy hn h _ loc sx hb

theorem natAt_memBytes_low (s : State) (loc : Nat) {n : Nat} (h : n ≤ 8) : natAt (memBytes s loc n) 0 8 =
    natOfBytes (memBytes s loc n) := by
  rw [natAt, sliceBytes, List.drop_zero, List.take_of_length_le]
  rwa [memBytes, bytesBy_length]

theorem natAt_memBytes_pair (s : State) (loc : Nat) : natAt (memBytes s loc 16) 0 8 = natOfBytes (memBytes s loc 8) ∧
    natAt (memBytes s loc 16) 8 8 = natOfBytes (memBytes s (loc + 8) 8) := by
  have hsplit : memBytes s loc 16 = memBytes s loc 8 ++ memBytes s (loc + 8) 8 := bytesBy_add (memByte s) loc 8 8
  have hlen : ∀ l, (memBytes s l 8).length = 8 := fun l => bytesBy_length ..
  constructor
  · rw [hsplit, natAt, sliceBytes, List.drop_zero, List.take_left' (hlen loc)]
  · rw [hsplit, natAt, sliceBytes, List.drop_left' (hlen loc), List.take_of_length_le (Nat.le_of_eq (hlen _))]

/-- The value of an LDFE of one register, and of a pair. -/
theorem ldfeVals_single {o : LdfeOps} (h : o.size ≠ .p) (s : State) (loc : Nat) :
    ldfeVals o (ldfeReply s loc (msizeBytes o.size)) =
      [(o.d, extBytes (msizeBytes o.size) o.sx (natOfBytes (memBytes s loc (msizeBytes o.size))))] := by
  have hlt := natOfBytes_lt (memBytes s loc (msizeBytes o.size))
  rw [show (memBytes s loc (msizeBytes o.size)).length = msizeBytes o.size from bytesBy_length ..] at hlt
  have hpow : 2 ^ (8 * msizeBytes o.size) ≤ 2 ^ 64 := Nat.pow_le_pow_right Nat.two_pos (by have := msizeBytes_le h; omega)
  have hvals : ldfeVals o (ldfeReply s loc (msizeBytes o.size)) = [(o.d, extBytes (msizeBytes o.size) o.sx
      (BitVec.ofNat 64 (natAt (memBytes s loc (msizeBytes o.size)) 0 8)).toNat)] := by
    unfold ldfeVals
    split
    · next hz => exact absurd hz h
    · rfl
  rw [hvals, natAt_memBytes_low s loc (msizeBytes_le h), BitVec.toNat_ofNat, Nat.mod_eq_of_lt (Nat.lt_of_lt_of_le hlt hpow)]

theorem ldfeVals_pair {o : LdfeOps} (h : o.size = .p) (s : State) (loc : Nat) : ldfeVals o (ldfeReply s loc 16) =
    [(o.d, extBytes 8 false (natOfBytes (memBytes s loc 8))),
     (BitVec.ofNat 6 (o.d.toNat + 1), extBytes 8 false (natOfBytes (memBytes s (loc + 8) 8)))] := by
  obtain ⟨hlow, hhigh⟩ := natAt_memBytes_pair s loc
  rw [extBytes_eight, extBytes_eight, ← hlow, ← hhigh]
  unfold ldfeVals
  rw [h]
  rfl

section
variable {i : Instr} {o : LdfeOps} {clear : Bool} (hexec : ∀ s, exec i s = ldfeWith i o clear s)
  (hlands : landsPoison i = true) (hdsts : i.uses.dsts = sizeRegs o.size o.d)
include hexec hlands

theorem ldfeWith_takesReply {ds : List SReg} {f : SvcReply → Team → Team} (hds : ds = ldfeRegs o)
    (hf : ∀ r, f r = landed (ldfeVals o r) r.poison) : TakesReply anyState i ds f := by
  subst hds
  obtain rfl : f = fun r => landed (ldfeVals o r) r.poison := funext hf
  refine takesReply_of_body hexec ⟨fun r t => landed_unasked .., fun r t => landed_keeps (f := Team.lstk) sset_lstk ?_ .., .inl hlands⟩
    fun s r h => ?_
  · exact markPoison_lstk
  · simp only [ldfeVals_regs]
    rw [withReply_reply h.reply, answered_good h.good]
    rfl

include hdsts

omit hexec hlands in
theorem ldfe_allFull {s s1 : State} (h : Issues i s s1) : AllFull (ldfeRegs o) s1.team := by
  intro d hd hne
  refine (awaitAll_full h.waits).2 (.scal d) ?_ (by simpa using hne)
  rw [waitsFor, hdsts, sizeRegs_ldfe]
  exact List.mem_append_right _ (List.mem_map_of_mem hd)

theorem ldfe_full {s s1 : State} {loc : Nat} (h : Goes i s s1) (hservice : s1.service = []) (hpresent : s1.team.status ≠ .vacant)
    (hacc : access s1 (sget s1.team o.a.r) (msizeBytes o.size) (msizeBytes o.size) .rd = .ok loc)
    (hord : ordered s1.team = false) (hfull : loc / 16 ∈ s1.full) (hbank : s1.bank = []) : exec i s =
      .next (goesOn (withTeam (ldfeLeft s1 loc clear) (landed (ldfeVals o (ldfeReply s1 loc (msizeBytes o.size)))
        (poisonedIn s1 loc (msizeBytes o.size)))) (nextPc i s)) := by
  have hregs := ldfe_allFull hdsts h.toIssues
  obtain ⟨full, hleft⟩ := ldfeLeft_eq (asking s1 (ldfeRegs o) none) loc clear
  have htry := bankTry_ldfe_full (s := asking s1 (ldfeRegs o) none) hfull (msizeBytes o.size) clear s1.team.place
  have hteam : (ldfeLeft s1 loc clear).team = s1.team := by
    obtain ⟨full, hleft⟩ := ldfeLeft_eq s1 loc clear
    rw [hleft]
  have hlanded := landed_unasked (ldfeVals o (ldfeReply s1 loc (msizeBytes o.size))) (poisonedIn s1 loc (msizeBytes o.size))
    s1.team
  have hask : askBank s1 .granule (sget s1.team o.a.r) (ldfeRegs o) (.ldfe loc (msizeBytes o.size) clear s1.team.place)
      (fun s rep => retireWith s fun t => landVals t (ldfeVals o rep) rep.poison) =
      .retire ((withTeam (ldfeLeft s1 loc clear) (landed (ldfeVals o (ldfeReply s1 loc (msizeBytes o.size)))
        (poisonedIn s1 loc (msizeBytes o.size)))).upd unasked) := by
    rw [askBank_performed (r := .ldfe loc (msizeBytes o.size) clear s1.team.place) rfl htry (by rw [hleft])
      (by rw [hleft]; exact hbank) hpresent rfl hregs, ldfeLeft_asking, withTeam, hteam]
    exact congrArg (fun t => Eff.retire { ldfeLeft s1 loc clear with team := t }) hlanded
  rw [hexec, ← goesOn_unasked]
  refine issue_retire_kept h.toIssues (.trans ?_ hask) (unpoison_lands hlands _) fun e he => h.inner e ?_
  · simp only [ldfeVals_regs, withReply_first h.idle, hacc, hord, Bool.false_eq_true, if_false, settle_idle hservice]
  · rwa [show ((withTeam (ldfeLeft s1 loc clear) (landed _ _)).upd unasked).team.lstk = s1.team.lstk from
      (landed_keeps (f := Team.lstk) sset_lstk markPoison_lstk ..).trans (congrArg Team.lstk hteam)] at he

omit hlands hdsts

/-- An LDFE that waits: at its bank, or in an ordered launch for the quantum end. -/
theorem ldfe_empty {s s1 : State} {loc : Nat} (h : Goes i s s1) (hservice : s1.service = [])
    (hacc : access s1 (sget s1.team o.a.r) (msizeBytes o.size) (msizeBytes o.size) .rd = .ok loc)
    (hord : ordered s1.team = false) (hempty : loc / 16 ∉ s1.full) : exec i s =
      .next (awaits { s1 with bank := s1.bank ++ [.ldfe loc (msizeBytes o.size) clear s1.team.place] } i (ldfeRegs o) none
        .granule) := by
  have htry := bankTry_ldfe_empty (s := asking s1 (ldfeRegs o) none) hempty (msizeBytes o.size) clear s1.team.place
  rw [hexec]
  refine issue_awaits h.toIssues ?_
  simp only [ldfeVals_regs, withReply_first h.idle, hacc, hord, Bool.false_eq_true, if_false, settle_idle hservice]
  exact askBank_waits rfl htry h.idle.2 _

theorem ldfe_ordered {s s1 : State} {loc : Nat} (h : Goes i s s1)
    (hacc : access s1 (sget s1.team o.a.r) (msizeBytes o.size) (msizeBytes o.size) .rd = .ok loc)
    (hord : ordered s1.team = true) : exec i s =
      .next (awaits s1 i (ldfeRegs o) (some (.ldfe loc (msizeBytes o.size) clear)) .quantum) := by
  rw [hexec]
  refine issue_awaits h.toIssues ?_
  simp only [ldfeVals_regs, withReply_first h.idle, hacc, hord, if_true, askFor]
  rfl

end

/-- An address outside the scratchpad windows is an illegal use (R423). -/
theorem preUse_ldfe {i : Instr} {o : LdfeOps} (hi : i = .ldfeK o ∨ i = .ldfeC o) {s : State} (huse : issueUse i s = none)
    (hvalue : destEmpty s.team (.scal o.a.r) = false) (hout : inScratchWindow (sget s.team o.a.r).toNat = false) :
    preUse i s = some { cause := 0x23, pc := s.team.pc, code := 0x20, faddr := sget s.team o.a.r } := by
  obtain rfl | rfl := hi
  · simp [preUse, huse, valueUse, useOf, hvalue, hout]
  · simp [preUse, huse, valueUse, useOf, hvalue, hout]

/-- Outside a capsule no instruction breaks its body's rules. -/
theorem bodyBreach_outside {s : State} (h : inBody s.team = false) (i : Instr) : bodyBreach i s = false := by
  unfold bodyBreach
  rw [h, Bool.false_and]

theorem ldfeIs_of_ldfeWith {c : LdfeOps → Instr} {clear : Bool} (hc : ∀ o, c o = .ldfeK o ∨ c o = .ldfeC o)
    (hexec : ∀ o s, exec (c o) s = ldfeWith (c o) o clear s) : LdfeIs c clear := by
  have hlands : ∀ o, landsPoison (c o) = true := fun o => by obtain h | h := hc o <;> rw [h] <;> rfl
  have hdsts : ∀ o, (c o).uses.dsts = sizeRegs o.size o.d := fun o => by obtain h | h := hc o <;> rw [h] <;> rfl
  refine ⟨fun o n s s1 loc ds hn hds h hservice hpresent _ hacc => ?asks, fun o hz => ?pair, fun o hz => ?single,
    fun o s s1 h hout => ?illegal⟩
  case asks =>
    obtain rfl : ds = ldfeRegs o := hds
    subst hn
    refine ⟨fun hord hfull hbank hz => ⟨_, fetched_extBytes (msizeBytes_pos _) (msizeBytes_le hz) s1 loc o.sx, ?_⟩,
      fun hord hfull hbank hz => ⟨_, _, fetched_extBytes (n := 8) (by decide) (by decide) s1 loc false,
        fetched_extBytes (n := 8) (by decide) (by decide) s1 (loc + 8) false, ?_⟩,
      fun hord hempty => ldfe_empty (hexec o) h hservice hacc hord hempty, fun hord => ldfe_ordered (hexec o) h hacc hord⟩
    · rw [ldfe_full (hexec o) (hlands o) (hdsts o) h hservice hpresent hacc hord hfull hbank, ldfeVals_single hz]
      rfl
    · have hsixteen : msizeBytes o.size = 16 := by rw [hz]; rfl
      rw [ldfe_full (hexec o) (hlands o) (hdsts o) h hservice hpresent hacc hord hfull hbank, hsixteen, ldfeVals_pair hz]
      rfl
  case pair =>
    refine ldfeWith_takesReply (hexec o) (hlands o) (by rw [ldfeRegs, if_pos hz]) fun r => ?_
    rw [show ldfeVals o r = [(o.d, r.vals.getD 0 0), (BitVec.ofNat 6 (o.d.toNat + 1), r.vals.getD 1 0)] by
      rw [ldfeVals, hz]]
  case single =>
    refine ldfeWith_takesReply (hexec o) (hlands o) (by rw [ldfeRegs, if_neg hz]) fun r => ?_
    rw [show ldfeVals o r = [(o.d, extBytes (msizeBytes o.size) o.sx (r.vals.getD 0 0).toNat)] by
      unfold ldfeVals
      split
      · next h => exact absurd h hz
      · rfl]
  case illegal =>
    rw [hexec]
    exact issue_use _ h.fresh h.waits (bodyBreach_outside h.outside _) (preUse_ldfe (hc o) h.use h.value hout)

theorem fullEmptyLoads : FullEmptyLoads :=
  ⟨ldfeIs_of_ldfeWith (fun _ => .inl rfl) fun _ _ => rfl, ldfeIs_of_ldfeWith (fun _ => .inr rfl) fun _ _ => rfl⟩

/-! ### WAITC -/

/-- No operation of the class stands paused or has failed. -/
def Sound (t : Team) (c : EClass) (es : List EngOp) : Prop :=
  ∀ e ∈ es, e.counted = true → e.place = t.place → e.launch = t.launch → e.cls = c →
    e.state = .running ∨ e.state = .leave ∨ e.state = .finished

theorem restartOps_sound {s : State} {c : EClass} (h : Sound s.team c s.engines) : restartOps s c = s := by
  have hid : s.engines.map (fun e =>
      if e.counted && e.place == s.team.place && e.launch == s.team.launch && decide (e.cls = c) then
        match e.state with
        | .paused _ _ _ true => { e with state := .running }
        | _ => e
      else e) = s.engines := by
    refine (List.map_congr_left fun e he => ?_).trans (List.map_id s.engines)
    split
    · next hown =>
      simp only [Bool.and_eq_true, beq_iff_eq, decide_eq_true_eq] at hown
      obtain ⟨⟨⟨hcounted, hplace⟩, hlaunch⟩, hcls⟩ := hown
      obtain hst | hst | hst := h e he hcounted hplace hlaunch hcls <;> rw [hst] <;> rfl
    · rfl
  exact congrArg (fun es => { s with engines := es }) hid

theorem reportOp_sound (s : State) {es : List EngOp}
    (h : ∀ e ∈ es, e.state = .running ∨ e.state = .leave ∨ e.state = .finished) : reportOp s es = none := by
  induction es with
  | nil => rfl
  | cons e es ih =>
    rw [List.forall_mem_cons] at h
    have hskip : reportOp s (e :: es) = reportOp s es := by
      obtain ⟨⟩ := e
      obtain rfl | rfl | rfl := h.1 <;> rfl
    exact hskip.trans (ih h.2)

/-- A sound team's operations give a WAITC nothing to report. -/
theorem reportOp_opsOf {s : State} {c : EClass} (h : Sound s.team c s.engines) : reportOp s (opsOf s s.team c) = none := by
  refine reportOp_sound s fun e he => ?_
  rw [opsOf, List.mem_filter] at he
  obtain ⟨hin, hown⟩ := he
  simp only [Bool.and_eq_true, beq_iff_eq, decide_eq_true_eq] at hown
  obtain ⟨⟨⟨hcounted, hplace⟩, hlaunch⟩, hcls⟩ := hown
  exact h e hin hcounted hplace hlaunch hcls

theorem waitcWaitsForItsCount : WaitcWaitsForItsCount := by
  intro c n s s1 h hsound cnt
  have hcnt : cntOf s1.team c = cnt.toNat := by cases c <;> rfl
  rw [show exec (.waitc c n) s = execWaitc c n s from rfl, execWaitc]
  refine ⟨fun hle => issue_retire h.toIssues ?_ h.cleanS h.cleanV h.inner, fun hlt => ?_⟩
  · simp only [restartOps_sound hsound, reportOp_opsOf hsound, hcnt, hle, if_true]
  · rw [issue_hold h.toIssues (s2 := s1) (w := waitKind s1.team .counter), keepOp_fresh h.idle.1]
    · rfl
    · simp only [restartOps_sound hsound, reportOp_opsOf hsound, hcnt, Nat.not_le_of_lt hlt, if_false]

/-- Settles O19: an LDFE takes the bytes of a full granule, or waits for one in the bank's order, and a WAITC waits for its
count. -/
theorem fullEmptyLoadsAndCounterWaits : Obligations.FullEmptyLoadsAndCounterWaits := ⟨fullEmptyLoads, waitcWaitsForItsCount⟩

end Sys2Proof.MemorySync
end

section
/-! PROOFS. Barrier objects (O20, R254-R257): set up, arrived at, and their completion step. -/

namespace Sys2Proof.MemorySync

open Sys2Proof.Machine Sys2Proof.RegisterState Sys2Proof.MemoryHierarchy Sys2Proof.ConsistencyModel

/-! ### What the completion step changes -/

/-- The completion step and a write to an object change memory, the halves of cross objects and the notices. -/
def ObjectsOnly (s t : State) : Prop := ∃ m c n, t = { s with mem := m, cross := c, notices := n }

theorem ObjectsOnly.refl (s : State) : ObjectsOnly s s := ⟨s.mem, s.cross, s.notices, rfl⟩

theorem ObjectsOnly.trans {s t u : State} (h : ObjectsOnly s t) (h' : ObjectsOnly t u) : ObjectsOnly s u := by
  obtain ⟨m, c, n, rfl⟩ := h
  obtain ⟨m, c, n, rfl⟩ := h'
  exact ⟨m, c, n, rfl⟩

section
variable {s t : State} (h : ObjectsOnly s t)
include h

theorem ObjectsOnly.team : t.team = s.team := by
  obtain ⟨m, c, n, rfl⟩ := h
  rfl

theorem ObjectsOnly.bank : t.bank = s.bank := by
  obtain ⟨m, c, n, rfl⟩ := h
  rfl

end

theorem objectsOnly_writeObj (s : State) (obj : Nat) (b : BarObj) : ObjectsOnly s (writeObj s obj b) :=
  ⟨_, _, _, writeObj_eq ..⟩

theorem writeObj_notices (s : State) (obj : Nat) (b : BarObj) : (writeObj s obj b).notices = s.notices := by
  rw [writeObj_eq, rawWrite_notices]

theorem writeObj_cross (s : State) (obj : Nat) (b : BarObj) : (writeObj s obj b).cross = s.cross := by
  rw [writeObj_eq, rawWrite_cross]

theorem objectsOnly_putCross (s : State) (c : CrossObj) : ObjectsOnly s (putCross s c) := ⟨s.mem, _, s.notices, rfl⟩

theorem objectsOnly_notices (s : State) (n : List Nat) : ObjectsOnly s { s with notices := n } := ⟨s.mem, s.cross, n, rfl⟩

/-! ### The completion step -/

/-- An object with one more arrival. -/
def withArrival (b : BarObj) : BarObj := { b with arrived := b.arrived + 1 }

/-- An object at its next phase. -/
def nextPhase (b : BarObj) : BarObj :=
  { b with phase := (b.phase + 1) % 2 ^ 32, arrived := 0, landed := b.landed - b.expb, expb := b.defb }

theorem withArrival_fits {b : BarObj} (h : Fits b) (hlt : b.arrived < b.expa) : Fits (withArrival b) :=
  { h with arrived := Nat.lt_of_le_of_lt hlt h.expa }

theorem nextPhase_fits {b : BarObj} (h : Fits b) : Fits (nextPhase b) where
  phase := Nat.mod_lt _ (Nat.two_pow_pos 32)
  expa := h.expa
  defb := h.defb
  expb := h.defb
  arrived := Nat.two_pow_pos 16
  landed := Nat.lt_of_le_of_lt (Nat.sub_le ..) h.landed

/-- Every arrival and byte of an object's phase has come. -/
structure PhaseOver (b : BarObj) : Prop where
  arrived : b.arrived = b.expa
  landed : b.expb ≤ b.landed

/-- The twin of a cross object is sent a notice. -/
def notified (s : State) (obj : Nat) : State := { s with notices := s.notices ++ (twinObj s obj).toList }

/-- A cross object completes its own half, with a notice to its twin, and starts its next phase once it has the twin's. -/
def completeCross (s : State) (obj : Nat) (b : BarObj) (c : CrossObj) : State :=
  let s1 := if c.localDone then s else notified s obj
  if 0 < c.noticed then putCross (writeObj s1 obj (nextPhase b)) { c with localDone := false, noticed := c.noticed - 1 }
  else putCross s1 { c with localDone := true }

/-- Every case of the completion step. -/
theorem completeObj_cases (s : State) (obj : Nat) :
    (¬PhaseOver (readObj s obj) ∧ completeObj s obj = s) ∨
    (PhaseOver (readObj s obj) ∧ (readObj s obj).x = false ∧ completeObj s obj = writeObj s obj (nextPhase (readObj s obj))) ∨
    (PhaseOver (readObj s obj) ∧ (readObj s obj).x = true ∧
      completeObj s obj = completeCross s obj (readObj s obj) (crossOf s obj)) := by
  by_cases hover : ((readObj s obj).arrived == (readObj s obj).expa &&
      decide ((readObj s obj).expb ≤ (readObj s obj).landed)) = true
  · have hboth := hover
    rw [Bool.and_eq_true, beq_iff_eq, decide_eq_true_iff] at hboth
    cases hx : (readObj s obj).x with
    | false =>
      refine .inr (.inl ⟨⟨hboth.1, hboth.2⟩, rfl, ?_⟩)
      simp only [completeObj, nextPhase, hover, hx, Bool.not_false, if_true]
    | true =>
      refine .inr (.inr ⟨⟨hboth.1, hboth.2⟩, rfl, ?_⟩)
      simp only [completeObj, completeCross, notified, nextPhase, hover, hx, Bool.not_true, Bool.false_eq_true, if_false, if_true]
  · refine .inl ⟨fun h => hover ?_, ?_⟩
    · rw [h.arrived, beq_self_eq_true, decide_eq_true h.landed, Bool.and_self]
    · simp only [completeObj, hover, Bool.false_eq_true, if_false]

section
variable {s : State} {obj : Nat} (hover : PhaseOver (readObj s obj))
include hover

/-- An ordinary object starts its next phase. -/
theorem completeObj_plain (hx : (readObj s obj).x = false) : completeObj s obj = writeObj s obj (nextPhase (readObj s obj)) := by
  obtain ⟨hnot, -⟩ | ⟨-, -, h⟩ | ⟨-, hcross, -⟩ := completeObj_cases s obj
  · exact absurd hover hnot
  · exact h
  · exact absurd (hx.symm.trans hcross) nofun

theorem completeObj_cross (hx : (readObj s obj).x = true) :
    completeObj s obj = completeCross s obj (readObj s obj) (crossOf s obj) := by
  obtain ⟨hnot, -⟩ | ⟨-, hplain, -⟩ | ⟨-, -, h⟩ := completeObj_cases s obj
  · exact absurd hover hnot
  · exact absurd (hx.symm.trans hplain) nofun
  · exact h

end

/-- A cross object has completed its own half and told its twin. -/
def halfDone (s : State) (obj : Nat) : State := putCross (notified s obj) ⟨obj, true, 0⟩

theorem halfDone_mem (s : State) (obj : Nat) : (halfDone s obj).mem = s.mem := rfl

theorem halfDone_notices (s : State) (obj : Nat) : (halfDone s obj).notices = s.notices ++ (twinObj s obj).toList := rfl

theorem crossOf_halfDone (s : State) (obj : Nat) : crossOf (halfDone s obj) obj = ⟨obj, true, 0⟩ :=
  crossOf_putCross _ ⟨obj, true, 0⟩

theorem completeCross_half (s : State) (obj : Nat) (b : BarObj) : completeCross s obj b ⟨obj, false, 0⟩ = halfDone s obj := by
  simp only [completeCross, halfDone, Bool.false_eq_true, Nat.lt_irrefl, if_false]

theorem completeCross_noticed (s : State) (obj : Nat) (b : BarObj) (n : Nat) : completeCross s obj b ⟨obj, true, n + 1⟩ =
    putCross (writeObj s obj (nextPhase b)) ⟨obj, false, n⟩ := by
  simp only [completeCross, Nat.succ_pos, Nat.add_sub_cancel, if_true]

theorem objectsOnly_completeCross (s : State) (obj : Nat) (b : BarObj) (c : CrossObj) :
    ObjectsOnly s (completeCross s obj b c) := by
  have hnotified : ObjectsOnly s (if c.localDone then s else notified s obj) := by
    split
    · exact .refl s
    · exact objectsOnly_notices ..
  simp only [completeCross]
  split
  · exact hnotified.trans ((objectsOnly_writeObj ..).trans (objectsOnly_putCross ..))
  · exact hnotified.trans (objectsOnly_putCross ..)

theorem objectsOnly_completeObj (s : State) (obj : Nat) : ObjectsOnly s (completeObj s obj) := by
  obtain ⟨-, h⟩ | ⟨-, -, h⟩ | ⟨-, -, h⟩ := completeObj_cases s obj
  · rw [h]; exact .refl s
  · rw [h]; exact objectsOnly_writeObj ..
  · rw [h]
    exact objectsOnly_completeCross ..

/-- The twin's notice at a cross object whose own half is complete starts the next phase (R257). -/
theorem readObj_takeNotice {s : State} {obj : Nat} (hover : PhaseOver (readObj s obj)) (hx : (readObj s obj).x = true)
    (hcross : crossOf s obj = ⟨obj, true, 0⟩) : readObj (takeNotice s obj) obj = nextPhase (readObj s obj) := by
  have hsame : readObj (putCross s ⟨obj, true, 1⟩) obj = readObj s obj := readObj_congr (putCross_mem ..) obj
  have hcomplete := completeObj_cross (s := putCross s ⟨obj, true, 1⟩) (obj := obj) (by rwa [hsame]) (by rwa [hsame])
  rw [hsame, crossOf_putCross s ⟨obj, true, 1⟩, completeCross_noticed] at hcomplete
  rw [takeNotice, hcross]
  refine (congrArg (readObj · obj) hcomplete).trans ?_
  rw [readObj_congr (putCross_mem ..) obj]
  exact readObj_writeObj _ obj (nextPhase_fits (readObj_fits s obj))

theorem twinObj_writeObj (s : State) (obj : Nat) (b : BarObj) : twinObj (writeObj s obj b) obj = twinObj s obj := by
  have hblocks : (writeObj s obj b).blocks = s.blocks := by rw [writeObj_eq, rawWrite_blocks]
  simp only [twinObj, blockOfLoc, hblocks]

/-! ### Arrivals -/

section
variable {s : State} {obj : Nat} (hready : objReady s obj = true)
include hready

theorem arrive_wrongKind {cross : Bool} (hx : (readObj s obj).x ≠ cross) : arrive s obj cross = .wrongKind := by
  simp only [arrive, hready, Bool.not_true, Bool.false_eq_true, if_false, bne_iff_ne, ne_eq, hx, not_false_eq_true, if_true]

theorem countArrival_wrongKind {cross : Bool} (hx : (readObj s obj).x ≠ cross) (p : Place) : countArrival s obj cross p =
    some (mapTeam s p fun t => { t with reply := some (svcFault 0x23 0x23 5 none), arrival := none }) := by
  simp only [countArrival, hready, Bool.not_true, Bool.false_eq_true, if_false, bne_iff_ne, ne_eq, hx, not_false_eq_true,
    if_true]

/-- An arrival that its phase still expects is counted. -/
theorem arrive_counted (hlt : (readObj s obj).arrived < (readObj s obj).expa) : arrive s obj (readObj s obj).x =
    .counted (completeObj (writeObj s obj (withArrival (readObj s obj))) obj) (readObj s obj).phase
      (decide ((readObj s obj).arrived + 1 = (readObj s obj).expa)) := by
  simp only [arrive, hready, Bool.not_true, Bool.false_eq_true, if_false, bne_self_eq_false, beq_eq_false_iff_ne.mpr
    (Nat.ne_of_lt hlt)]
  rfl

end

theorem readObj_arrival {s : State} {obj : Nat} (hlt : (readObj s obj).arrived < (readObj s obj).expa) :
    readObj (writeObj s obj (withArrival (readObj s obj))) obj = withArrival (readObj s obj) :=
  readObj_writeObj s obj (withArrival_fits (readObj_fits s obj) hlt)

theorem arrivalsCompletePhases : ArrivalsCompletePhases := by
  intro s obj b hready hb hlt counted next
  subst hb
  have harrive := arrive_counted hready hlt
  have hread := readObj_arrival hlt
  have hfits := withArrival_fits (readObj_fits s obj) hlt
  refine ⟨fun cross hx => ⟨arrive_wrongKind hready hx, countArrival_wrongKind hready hx⟩, fun hlast hlanded hx => ?ends,
    fun hopen => ?counts, fun hlast hlanded hx hcross => ?cross⟩
  case ends =>
    have hover : PhaseOver (readObj (writeObj s obj (withArrival (readObj s obj))) obj) := by
      rw [hread]
      exact ⟨hlast, hlanded⟩
    refine ⟨_, by rw [harrive, decide_eq_true hlast], ?_⟩
    rw [completeObj_plain hover (by rw [hread]; exact hx), hread, readObj_writeObj _ _ (nextPhase_fits hfits)]
    rfl
  case counts =>
    have hstays : StaysOpen (readObj (writeObj s obj (withArrival (readObj s obj))) obj) := by
      rw [hread]
      exact hopen
    refine ⟨_, harrive, ?_⟩
    rw [completeObj_open hstays]
    exact ⟨hread, writeObj_notices ..⟩
  case cross =>
    have hover : PhaseOver (readObj (writeObj s obj (withArrival (readObj s obj))) obj) := by
      rw [hread]
      exact ⟨hlast, hlanded⟩
    have hcrossed : crossOf (writeObj s obj (withArrival (readObj s obj))) obj = ⟨obj, false, 0⟩ := by
      rw [crossOf, writeObj_cross]
      exact hcross
    have hhalf := completeObj_cross hover (by rw [hread]; exact hx)
    rw [hcrossed, completeCross_half] at hhalf
    have hhere : readObj (halfDone (writeObj s obj (withArrival (readObj s obj))) obj) obj = withArrival (readObj s obj) :=
      (readObj_congr (halfDone_mem ..) obj).trans hread
    rw [hhalf] at harrive
    refine ⟨_, by rw [harrive, decide_eq_true hlast], hhere, ?_, ?_⟩
    · rw [halfDone_notices, writeObj_notices, twinObj_writeObj]
    · rw [readObj_takeNotice (by rw [hhere, ← hread]; exact hover) (by rw [hhere]; exact hx) (crossOf_halfDone ..), hhere]
      rfl

/-! ### Setting an object up -/

theorem setFull_eq (s : State) (l : Nat) :
    ∃ full, setFull s l = { s with full := full } ∧ l / 16 ∈ full ∧ ∀ g ∈ s.full, g ∈ full := by
  unfold setFull
  split
  · next h => exact ⟨s.full, rfl, List.contains_iff_mem.mp h, fun _ hg => hg⟩
  · exact ⟨_, rfl, by simp, fun g hg => List.mem_append_left _ hg⟩

/-- The words of an object that has just been set up. -/
def freshObj (expa defb : Nat) (x : Bool) : BarObj := ⟨0, x, expa, defb, defb, 0, 0⟩

/-- An object is written, its granules are full and it is tagged; then the bank goes on. -/
theorem initObj_eq (s : State) (obj expa defb : Nat) (x : Bool) : ∃ u, initObj s obj expa defb x = settleBank u ∧
    u.mem = (writeObj s obj (freshObj expa defb x)).mem ∧ u.team = s.team ∧ u.bank = s.bank ∧
    obj / 16 ∈ u.full ∧ (obj + 16) / 16 ∈ u.full ∧ obj ∈ u.tags := by
  have htags : ∀ tags : List Nat, obj ∈ if tags.contains obj then tags else tags ++ [obj] := fun tags => by
    split
    · next h => exact List.contains_iff_mem.mp h
    · exact List.mem_append_right _ (List.mem_singleton_self obj)
  have hwritten := objectsOnly_writeObj s obj (freshObj expa defb x)
  rw [initObj, show BarObj.mk 0 x expa defb defb 0 0 = freshObj expa defb x from rfl, ← hwritten.team, ← hwritten.bank]
  generalize writeObj s obj (freshObj expa defb x) = u
  obtain ⟨full, hfirst, hin, -⟩ := setFull_eq u obj
  obtain ⟨full', hsecond, hin', hkept⟩ := setFull_eq { u with full := full } (obj + 16)
  rw [hfirst, hsecond]
  exact ⟨_, rfl, rfl, rfl, rfl, hkept _ hin, hin', htags _⟩

theorem objReady_of_full {s : State} {obj : Nat} (h : obj / 16 ∈ s.full) (h' : (obj + 16) / 16 ∈ s.full) :
    objReady s obj = true := by
  rw [objReady, granuleFull, granuleFull, List.contains_iff_mem.mpr h, List.contains_iff_mem.mpr h']
  rfl

theorem memByte_writeObj_off (s : State) (b : BarObj) {obj a : Nat} (h : ¬(obj ≤ a ∧ a < obj + 32)) :
    memByte (writeObj s obj b) a = memByte s a := by
  rw [writeObj_eq, memByte_rawWrite, if_neg]
  simpa [List.length_flatMap, bytesOfNat_length, objWords] using h

/-- An object that has been set up, where the bank holds no request. -/
theorem initObj_idle {s : State} (h : s.bank = []) {obj expa defb : Nat} (x : Bool) (hexpa : expa < 2 ^ 16) (hdefb : defb < 2 ^ 32) :
    readObj (initObj s obj expa defb x) obj = freshObj expa defb x ∧ objReady (initObj s obj expa defb x) obj = true ∧
      obj ∈ (initObj s obj expa defb x).tags ∧ (initObj s obj expa defb x).team = s.team ∧
      ∀ y, ¬(obj ≤ y ∧ y < obj + 32) → memByte (initObj s obj expa defb x) y = memByte s y := by
  obtain ⟨u, heq, hmem, hteam, hbank, hfull, hfull', htag⟩ := initObj_eq s obj expa defb x
  rw [settleBank_empty (hbank.trans h)] at heq
  have hfits : Fits (freshObj expa defb x) :=
    ⟨Nat.two_pow_pos 32, hexpa, hdefb, hdefb, Nat.two_pow_pos 16, Nat.two_pow_pos 64⟩
  have hread := readObj_writeObj s obj hfits
  have hoff : ∀ y, ¬(obj ≤ y ∧ y < obj + 32) → memByte u y = memByte s y := fun y hy => by
    rw [← memByte_writeObj_off s (freshObj expa defb x) hy, memByte, memByte, hmem]
  rw [← readObj_congr (s := writeObj s obj (freshObj expa defb x)) hmem] at hread
  rw [heq]
  exact ⟨hread, objReady_of_full hfull hfull', htag, hteam, hoff⟩

/-! ### What a bank changes of the current team -/

/-- A bank answers a team, or counts its arrival. -/
def AnswersOnly (t u : Team) : Prop := u = { t with reply := u.reply, arrival := u.arrival }

theorem AnswersOnly.refl (t : Team) : AnswersOnly t t := rfl

theorem AnswersOnly.trans {t u v : Team} (h : AnswersOnly t u) (h' : AnswersOnly u v) : AnswersOnly t v := by
  rw [show v = _ from h', show u = _ from h]
  rfl

theorem answersOnly_mapTeam (s : State) (p : Place) {f : Team → Team} (hf : ∀ t, AnswersOnly t (f t)) :
    AnswersOnly s.team (mapTeam s p f).team := by
  unfold mapTeam
  split
  · exact hf s.team
  · exact .refl _

theorem answersOnly_answer {s t : State} (h : t.team = s.team) (p : Place) (r : SvcReply) :
    AnswersOnly s.team (answer t p r).team := h ▸ answersOnly_mapTeam t p fun _ => rfl

theorem arrive_objectsOnly {s s1 : State} {obj phase : Nat} {cross last : Bool} (h : arrive s obj cross = .counted s1 phase last) :
    ObjectsOnly s s1 := by
  simp only [arrive] at h
  split at h
  · cases h
  split at h
  · cases h
  split at h
  · cases h
  simp only [Arrival.counted.injEq] at h
  obtain ⟨rfl, -⟩ := h
  exact (objectsOnly_writeObj ..).trans (objectsOnly_completeObj ..)

theorem objectsOnly_landBytes (s : State) (obj n : Nat) : ObjectsOnly s (landBytes s obj n) := by
  rw [landBytes]
  exact (objectsOnly_writeObj ..).trans (objectsOnly_completeObj ..)

theorem objectsOnly_expectBytes (s : State) (obj n : Nat) : ObjectsOnly s (expectBytes s obj n) := by
  rw [expectBytes]
  exact (objectsOnly_writeObj ..).trans (objectsOnly_completeObj ..)

theorem objectsOnly_takeNotice (s : State) (obj : Nat) : ObjectsOnly s (takeNotice s obj) := by
  rw [takeNotice]
  exact (objectsOnly_putCross ..).trans (objectsOnly_completeObj ..)

theorem answersOnly_bankTry {s s1 : State} {r : BankReq} (h : bankTry s r = some s1) : AnswersOnly s.team s1.team := by
  have hobjects : ∀ {t : State}, ObjectsOnly s t → AnswersOnly s.team t.team := fun ht => by
    rw [ht.team]
    exact .refl _
  cases r with
  | bytes obj n p t =>
    simp only [bankTry, Option.ite_none_right_eq_some, Option.some.injEq] at h
    rw [← h.2]
    exact hobjects (objectsOnly_landBytes ..)
  | notice obj =>
    simp only [bankTry, Option.ite_none_right_eq_some, Option.some.injEq] at h
    rw [← h.2]
    exact hobjects (objectsOnly_takeNotice ..)
  | expb obj n =>
    simp only [bankTry, Option.ite_none_right_eq_some, Option.some.injEq] at h
    rw [← h.2]
    exact hobjects (objectsOnly_expectBytes ..)
  | ldfe loc n clear t =>
    obtain ⟨⟨s2, rep⟩, hldfe, rfl⟩ := Option.map_eq_some_iff.mp h
    refine answersOnly_answer ?_ t rep
    simp only [bankLdfe, Option.ite_none_right_eq_some, Option.some.injEq, Prod.mk.injEq] at hldfe
    obtain ⟨-, rfl, -⟩ := hldfe
    split <;> rfl
  | arrive obj cross t =>
    simp only [bankTry] at h
    split at h
    · cases h
    · rw [← Option.some.inj h]
      exact answersOnly_answer rfl ..
    · next harr =>
      rw [← Option.some.inj h]
      exact answersOnly_answer (arrive_objectsOnly harr).team ..
  | await obj phase t =>
    simp only [bankTry, Option.ite_none_right_eq_some, Option.some.injEq] at h
    rw [← h.2]
    exact answersOnly_answer rfl ..
  | count obj cross t =>
    simp only [bankTry, countArrival] at h
    split at h
    · cases h
    split at h
    · rw [← Option.some.inj h]
      exact answersOnly_mapTeam s t fun _ => rfl
    split at h
    · cases h
    · rw [← Option.some.inj h]
      have hwritten := (objectsOnly_writeObj s obj { readObj s obj with arrived := (readObj s obj).arrived + 1 }).team
      exact hwritten ▸ answersOnly_mapTeam _ t fun _ => rfl

theorem answersOnly_firstHeld {s s1 : State} {rs : List BankReq} (h : firstHeld s rs = some s1) :
    AnswersOnly s.team s1.team := by
  induction rs with
  | nil => cases h
  | cons r rest ih =>
    unfold firstHeld at h
    split at h
    · next htry =>
      rw [← Option.some.inj h]
      exact answersOnly_bankTry (s := { s with bank := s.bank.erase r }) htry
    · exact ih h

theorem answersOnly_settleBank (s : State) : AnswersOnly s.team (settleBank s).team := by
  have hloop : ∀ n (s : State), AnswersOnly s.team (bankLoop n s).team := fun n => by
    induction n with
    | zero => exact fun s => .refl _
    | succ n ih =>
      intro s
      unfold bankLoop
      split
      · next h => exact (answersOnly_firstHeld h).trans (ih _)
      · exact .refl _
  exact hloop _ s

end Sys2Proof.MemorySync
end

section
/-! PROOFS. The BAR instructions (O20, R256): what each does at its object, at once, kept by the bank, or left for the quantum
end. -/

namespace Sys2Proof.MemorySync

open Sys2Proof.Machine Sys2Proof.RegisterState Sys2Proof.MemoryHierarchy Sys2Proof.ConsistencyModel Sys2Proof.ScalarControl

/-! ### Objects and operands -/

theorem barObject_at {s : State} {acc : Access} {va : Word} {obj : Nat} (h : AtObject s acc va obj) (k : Nat → Eff) :
    barObject s va acc k = k obj := by
  obtain ⟨hwindow, hfirst, hlast, halign, hfree⟩ := h
  have hobj : objectAt s va = some obj := by simp only [objectAt, hwindow, hfirst, hlast, Bool.and_self, if_true]
  simp only [barObject, hobj, halign, hfree, bne_self_eq_false, Bool.false_eq_true, if_false]

/-- A team whose loop stack is the instruction's own is away from a loop end with it. -/
theorem inner_of_lstk {i : Instr} {s s1 : State} (h : Goes i s s1) {t : Team} (ht : t.lstk = s1.team.lstk) :
    ∀ e ∈ t.lstk.head?, e.stop ≠ s.team.pc := by
  rw [ht]
  exact h.inner

theorem fld_low16 (v : Word) : fld v 15 0 = v.toNat % 2 ^ 16 := rfl

theorem fld_low32 (v : Word) : fld v 31 0 = v.toNat % 2 ^ 32 := rfl

theorem initObj_answersOnly (s : State) (obj expa defb : Nat) (x : Bool) :
    AnswersOnly s.team (initObj s obj expa defb x).team := by
  obtain ⟨u, heq, -, hteam, -⟩ := initObj_eq s obj expa defb x
  rw [heq, ← hteam]
  exact answersOnly_settleBank u

section
variable {t u : Team} (h : AnswersOnly t u)
include h

theorem AnswersOnly.sPoison : u.sPoison = t.sPoison := by rw [show u = _ from h]
theorem AnswersOnly.vPoison : u.vPoison = t.vPoison := by rw [show u = _ from h]
theorem AnswersOnly.lstk : u.lstk = t.lstk := by rw [show u = _ from h]

end

theorem barInit_goes {x : Bool} {a b c : SSrc} {s s1 : State} {obj : Nat} (h : Goes (.barInit x a b c) s s1) (hsettled : Settled s1)
    (hobj : AtObject s1 .wr (sget s1.team a.r) obj) (hexpa : (sget s1.team b.r).toNat % 2 ^ 16 ≠ 0) :
    let expa := (sget s1.team b.r).toNat % 2 ^ 16
    let defb := (sget s1.team c.r).toNat % 2 ^ 32
    exec (.barInit x a b c) s = .next (goesOn (if ordered s1.team then withTeam s1 fun t =>
      { t with obuf := t.obuf ++ [.barInit obj expa defb x] } else initObj s1 obj expa defb x) (nextPc (.barInit x a b c) s)) := by
  intro expa defb
  rw [show exec (.barInit x a b c) s = execBarInit x a b c s from rfl, execBarInit]
  cases hord : ordered s1.team with
  | true =>
    refine issue_retire h.toIssues ?_ h.cleanS h.cleanV h.inner
    simp only [barObject_at hobj, fld_low16, fld_low32, hexpa, hord, if_true, if_false]
    rfl
  | false =>
    have hteam := initObj_answersOnly s1 obj expa defb x
    refine issue_retire h.toIssues ?_ (hteam.sPoison.trans h.cleanS) (hteam.vPoison.trans h.cleanV)
      (inner_of_lstk h hteam.lstk)
    simp only [barObject_at hobj, fld_low16, fld_low32, hexpa, hord, relThen_settled hsettled, Bool.false_eq_true, if_false]
    rfl

/-! ### Arrivals -/

theorem writeObj_withTeam (s : State) (f : Team → Team) (obj : Nat) (b : BarObj) :
    writeObj (withTeam s f) obj b = withTeam (writeObj s obj b) f := by
  rw [writeObj_eq, writeObj_eq]
  generalize (objWords b).flatMap (bytesOfNat 8) = bs
  rfl

theorem notified_withTeam (s : State) (f : Team → Team) (obj : Nat) :
    notified (withTeam s f) obj = withTeam (notified s obj) f := rfl

theorem putCross_withTeam (s : State) (f : Team → Team) (c : CrossObj) :
    putCross (withTeam s f) c = withTeam (putCross s c) f := rfl

theorem completeCross_withTeam (s : State) (f : Team → Team) (obj : Nat) (b : BarObj) (c : CrossObj) :
    completeCross (withTeam s f) obj b c = withTeam (completeCross s obj b c) f := by
  have hnotified : (if c.localDone then withTeam s f else notified (withTeam s f) obj) =
      withTeam (if c.localDone then s else notified s obj) f := by
    split
    · rfl
    · exact notified_withTeam s f obj
  simp only [completeCross, hnotified, writeObj_withTeam, putCross_withTeam]
  exact (apply_ite (withTeam · f) ..).symm

/-- The completion step does not look at the teams. -/
theorem completeObj_withTeam (s : State) (f : Team → Team) (obj : Nat) :
    completeObj (withTeam s f) obj = withTeam (completeObj s obj) f := by
  have hread : readObj (withTeam s f) obj = readObj s obj := rfl
  obtain ⟨hopen, h⟩ | ⟨hover, hx, h⟩ | ⟨hover, hx, h⟩ := completeObj_cases s obj
  · obtain ⟨-, h'⟩ | ⟨hover, -⟩ | ⟨hover, -⟩ := completeObj_cases (withTeam s f) obj
    · rw [h, h']
    · exact absurd hover hopen
    · exact absurd hover hopen
  · rw [h, completeObj_plain (s := withTeam s f) hover hx, writeObj_withTeam, hread]
  · rw [h, completeObj_cross (s := withTeam s f) hover hx, ← completeCross_withTeam, hread]
    rfl

/-- What an arrival finds does not depend on the teams. -/
theorem arrive_withTeam (s : State) (f : Team → Team) (obj : Nat) (cross : Bool) :
    (∀ u phase last, arrive s obj cross = .counted u phase last →
      arrive (withTeam s f) obj cross = .counted (withTeam u f) phase last) ∧
    (arrive s obj cross = .wait → arrive (withTeam s f) obj cross = .wait) ∧
    (arrive s obj cross = .wrongKind → arrive (withTeam s f) obj cross = .wrongKind) := by
  have hready : objReady (withTeam s f) obj = objReady s obj := rfl
  have hread : readObj (withTeam s f) obj = readObj s obj := rfl
  simp only [arrive, hready, hread, writeObj_withTeam, completeObj_withTeam]
  by_cases hempty : (!objReady s obj) = true
  · simp only [hempty, if_true, reduceCtorEq, false_implies, implies_true, and_self]
  by_cases hkind : ((readObj s obj).x != cross) = true
  · simp only [hempty, hkind, if_true, Bool.false_eq_true, if_false, reduceCtorEq, false_implies, implies_true, and_self]
  by_cases hlate : ((readObj s obj).arrived == (readObj s obj).expa) = true
  · simp only [hempty, hkind, hlate, if_true, Bool.false_eq_true, if_false, reduceCtorEq, false_implies, implies_true, and_self]
  · simp only [hempty, hkind, hlate, Bool.false_eq_true, if_false, reduceCtorEq, false_implies, and_true]
    intro u phase last h
    obtain ⟨rfl, rfl, rfl⟩ := Arrival.counted.inj h
    rfl

/-- The flag L of an arrival. -/
theorem setL_eq (t : Team) (l : Bool) : setL t l = { t with cc := if l then t.cc ||| 0x10 else t.cc &&& 0x6F } := by
  have hflag : ∀ c : BitVec 7, (c &&& ~~~(BitVec.ofNat 7 ccL)) ||| (BitVec.ofNat 7 (bitIf l ccL) &&& BitVec.ofNat 7 ccL) =
      if l then c ||| 0x10 else c &&& 0x6F := by
    cases l <;> decide
  rw [setL, setCC, hflag]

theorem asking_eq (s : State) : asking s [] none = withTeam s fun t => { t with asked := true, request := none } := rfl

theorem asking_withTeam (s : State) (f : Team → Team) : { asking s [] none with team := f s.team } = withTeam s f := rfl

theorem unasked_fresh {t : Team} (hasked : t.asked = false) (hreply : t.reply = none) : unasked t = { t with request := none } := by
  obtain ⟨⟩ := t
  cases hasked
  cases hreply
  rfl

/-- What an arrival does with its team: the phase is written, and L. -/
def arrivedAt (d : SReg) (r : SvcReply) (t : Team) : Team :=
  { sset t d (r.vals.getD 0 0) with cc := if r.full then t.cc ||| 0x10 else t.cc &&& 0x6F }

theorem setL_sset (t : Team) (d : SReg) (r : SvcReply) : setL (sset t d (r.vals.getD 0 0)) r.full = arrivedAt d r t := by
  rw [setL_eq, sset_cc]
  rfl

theorem arrivedAt_unasked (d : SReg) (r : SvcReply) (t : Team) : arrivedAt d r (unasked t) = unasked (arrivedAt d r t) := by
  rw [arrivedAt, sset_unasked]
  rfl

theorem arrivedAt_sPoison (d : SReg) (r : SvcReply) (t : Team) : (arrivedAt d r t).sPoison = t.sPoison := sset_sPoison ..
theorem arrivedAt_vPoison (d : SReg) (r : SvcReply) (t : Team) : (arrivedAt d r t).vPoison = t.vPoison := sset_vPoison ..
theorem arrivedAt_lstk (d : SReg) (r : SvcReply) (t : Team) : (arrivedAt d r t).lstk = t.lstk := sset_lstk ..

/-- A failure found at a bank or a service team stops its team (R426). -/
theorem answered_failed {s : State} {hva : Word} {ds : List SReg} {rep : SvcReply} {c : Byte} {code kind : Nat}
    (h : rep.err = some (c, code, kind, none)) (k : State → SvcReply → Eff) : answered s hva ds rep k =
      .stop (s.upd fun t => unasked (marked ds false t)) { cause := c, pc := s.team.pc, kind := kind, code := code, faddr := hva } := by
  simp only [answered, h]
  rfl

/-- A failure found at the bank stops the team as it was before it asked. -/
theorem askBank_failed {s s1 : State} {w : WaitOn} {hva : Word} {ds : List SReg} {r : BankReq} {rep : SvcReply} {c : Byte}
    {code kind : Nat} (hat : atBank (asking s ds none) r = atBank.reach (asking s ds none) r)
    (htry : bankTry (asking s ds none) r = some (answer s1 s.team.place rep)) (hs1 : s1.team = (asking s ds none).team)
    (hbank : s1.bank = []) (hpresent : s.team.status ≠ .vacant) (hbad : rep.err = some (c, code, kind, none))
    (hfull : AllFull ds s.team) (k : State → SvcReply → Eff) : askBank s w hva ds r k =
      .stop { s1 with team := unasked s.team } { cause := c, pc := s.team.pc, kind := kind, code := code, faddr := hva } := by
  obtain ⟨S, V, hmark⟩ := markAll_eq s.team ds true
  have hpc : s1.team.pc = s.team.pc := by
    rw [hs1, asking_team, marked_eq_markAll, hmark]
  have hback := answered_back hfull true none (some rep)
  rw [askBank_answered hat htry hs1 hbank hpresent, answered_failed hbad]
  refine congrArg₂ (fun t pc => Eff.stop { s1 with team := t } { cause := c, pc := pc, kind := kind, code := code, faddr := hva })
    (.trans ?_ hback) hpc
  rw [withTeam, hs1]
  rfl

section
variable {i : Instr} {cross : Bool} {d : SReg} {a : SSrc} (hexec : ∀ s, exec i s = arriveWith i cross d a s)
include hexec

theorem arriveWith_takesReply : TakesReply anyState i [] (arrivedAt d) :=
  takesReply_of_withReply (f := arrivedAt d) hexec ⟨arrivedAt_unasked d, arrivedAt_lstk d,
    .inr fun r t => ⟨arrivedAt_sPoison d r t, arrivedAt_vPoison d r t⟩⟩ fun s r => by simp only [setL_sset]

variable {s s1 : State} {obj : Nat} (h : Goes i s s1)
include h

theorem arriveWith_ordered (hobj : AtObject s1 .wr (sget s1.team a.r) obj) (hord : ordered s1.team = true) : exec i s =
    .next (awaits (withTeam s1 fun t => { t with arrival := some ⟨obj, cross, none⟩ }) i [] none .quantum) := by
  rw [hexec]
  refine issue_awaits h.toIssues ?_
  simp only [withReply_first h.idle, barObject_at hobj, hord, if_true]
  rfl

variable (hobj : AtObject s1 .wr (sget s1.team a.r) obj) (hsettled : Settled s1) (hord : ordered s1.team = false)
include hobj hsettled hord

theorem arriveWith_waits (hfinds : arrive s1 obj cross = .wait) : exec i s =
    .next (awaits { s1 with bank := s1.bank ++ [.arrive obj cross s1.team.place] } i [] none .arrival) := by
  have htry : bankTry (asking s1 [] none) (.arrive obj cross s1.team.place) = none := by
    rw [asking_eq]
    simp only [bankTry, (arrive_withTeam s1 _ obj cross).2.1 hfinds]
  rw [hexec]
  refine issue_awaits h.toIssues ?_
  simp only [withReply_first h.idle, barObject_at hobj, hord, relThen_settled hsettled, Bool.false_eq_true, if_false]
  exact askBank_waits rfl htry h.idle.2 _

variable (hpresent : s1.team.status ≠ .vacant) (hbank : s1.bank = [])
include hpresent hbank

theorem arriveWith_counted {s2 : State} {phase : Nat} {last : Bool} (hfinds : arrive s1 obj cross = .counted s2 phase last) :
    exec i s = .next (goesOn (withTeam s2 (arrivedAt d { full := last, vals := [BitVec.ofNat 64 phase] })) (nextPc i s)) := by
  have hobjects := arrive_objectsOnly hfinds
  have htry : bankTry (asking s1 [] none) (.arrive obj cross s1.team.place) =
      some (answer (asking s2 [] none) s1.team.place { full := last, vals := [BitVec.ofNat 64 phase] }) := by
    rw [asking_eq, asking_eq]
    simp only [bankTry, (arrive_withTeam s1 _ obj cross).1 _ _ _ hfinds]
  have hteam : ∀ {α : Type} (f : Team → α), (∀ r t, f (arrivedAt d r t) = f t) →
      f (arrivedAt d { full := last, vals := [BitVec.ofNat 64 phase] } s2.team) = f s1.team :=
    fun f hf => (hf _ s2.team).trans (congrArg f hobjects.team)
  rw [hexec, ← goesOn_unasked]
  refine issue_retire h.toIssues
    (s2 := (withTeam s2 (arrivedAt d { full := last, vals := [BitVec.ofNat 64 phase] })).upd unasked) ?_
    ((hteam Team.sPoison (arrivedAt_sPoison d)).trans h.cleanS) ((hteam Team.vPoison (arrivedAt_vPoison d)).trans h.cleanV)
    (inner_of_lstk h (hteam Team.lstk (arrivedAt_lstk d)))
  simp only [withReply_first h.idle, barObject_at hobj, hord, relThen_settled hsettled, Bool.false_eq_true, if_false,
    setL_sset]
  rw [askBank_performed (r := .arrive obj cross s1.team.place) rfl htry (by rw [asking_team, asking_team, hobjects.team])
    (hobjects.bank.trans hbank) hpresent rfl nofun, ← hobjects.team, asking_withTeam s2 unasked]
  exact congrArg (fun t => Eff.retire (withTeam s2 fun _ => t)) (arrivedAt_unasked d _ s2.team)

theorem arriveWith_wrongKind (hfinds : arrive s1 obj cross = .wrongKind) : exec i s =
    .next (stopAt s (withTeam s1 fun t => { t with request := none })
      { cause := 0x23, pc := s1.team.pc, code := 0x23, faddr := sget s1.team a.r }) := by
  have htry : bankTry (asking s1 [] none) (.arrive obj cross s1.team.place) =
      some (answer (asking s1 [] none) s1.team.place (svcFault 0x23 0x23 5 none)) := by
    rw [asking_eq]
    simp only [bankTry, (arrive_withTeam s1 _ obj cross).2.2 hfinds]
  have hback : withTeam s1 (fun t => { t with request := none }) = withTeam s1 unasked :=
    congrArg (fun t => { s1 with team := t }) (unasked_fresh h.idle.1 h.idle.2).symm
  rw [hexec, hback]
  refine issue_stop h.toIssues ?_
  simp only [withReply_first h.idle, barObject_at hobj, hord, relThen_settled hsettled, Bool.false_eq_true, if_false]
  exact askBank_failed (s1 := asking s1 [] none) (r := .arrive obj cross s1.team.place) rfl htry rfl hbank hpresent rfl nofun _

end

theorem arriveIs_of_arriveWith {c : SReg → SSrc → Instr} {cross : Bool}
    (hexec : ∀ d a s, exec (c d a) s = arriveWith (c d a) cross d a s) : ArriveIs c cross := by
  refine ⟨fun d a s s1 obj h hsettled hpresent hobj => ?_, fun d a => arriveWith_takesReply (hexec d a)⟩
  exact ⟨fun s2 phase last hord hbank hfinds => arriveWith_counted (hexec d a) h hobj hsettled hord hpresent hbank hfinds,
    fun hord hfinds => arriveWith_waits (hexec d a) h hobj hsettled hord hfinds,
    fun hord hbank hfinds => arriveWith_wrongKind (hexec d a) h hobj hsettled hord hpresent hbank hfinds,
    fun hord => arriveWith_ordered (hexec d a) h hobj hord⟩

end Sys2Proof.MemorySync
end

section
/-! PROOFS. BAR.WAIT and BAR.EXPB, and the barrier instructions together (R256). -/
namespace Sys2Proof.MemorySync
open Sys2Proof.Machine Sys2Proof.RegisterState Sys2Proof.MemoryHierarchy Sys2Proof.ConsistencyModel

/-! ### BAR.WAIT -/

theorem barPhase_lt (t : Team) (p : BarPhase) : barPhase t p < 2 ^ 32 := by
  cases p with
  | reg b => exact Nat.mod_lt _ (by decide)
  | imm n =>
    have hn := n.isLt
    simp only [barPhase]
    omega

theorem phaseDone_iff (s : State) (obj : Nat) {want : Nat} (hwant : want < 2 ^ 32) : phaseDone s obj want = true ↔
    objReady s obj = true ∧ 1 ≤ ((readObj s obj).phase + (2 ^ 32 - want)) % 2 ^ 32 ∧
      ((readObj s obj).phase + (2 ^ 32 - want)) % 2 ^ 32 ≤ 2 ^ 31 := by
  have hgone : (readObj s obj).phase + 2 ^ 32 - want = (readObj s obj).phase + (2 ^ 32 - want) :=
    Nat.add_sub_assoc (Nat.le_of_lt hwant) _
  simp only [phaseDone, Nat.mod_eq_of_lt hwant, hgone, Bool.and_eq_true, decide_eq_true_iff]

theorem phaseDone_withTeam (s : State) (f : Team → Team) (obj want : Nat) :
    phaseDone (withTeam s f) obj want = phaseDone s obj want := rfl

section
variable {a : SSrc} {p : BarPhase} {s s1 : State} {obj : Nat} (h : Goes (.barWait a p) s s1)
  (hobj : AtObject s1 .rd (sget s1.team a.r) obj)
include h hobj

theorem barWait_goesOn (hpresent : s1.team.status ≠ .vacant) (hdone : phaseDone s1 obj (barPhase s1.team p) = true)
    (hbank : ordered s1.team = false → s1.bank = []) :
    exec (.barWait a p) s = .next (goesOn s1 (nextPc (.barWait a p) s)) := by
  rw [show exec (.barWait a p) s = execBarWait a p s from rfl, execBarWait]
  cases hord : ordered s1.team with
  | true =>
    refine issue_retire h.toIssues ?_ h.cleanS h.cleanV h.inner
    simp only [withReply_first h.idle, barObject_at hobj, hord, hdone, if_true]
  | false =>
    have htry : bankTry (asking s1 [] none) (.await obj (barPhase s1.team p) s1.team.place) =
        some (answer (asking s1 [] none) s1.team.place {}) := by
      simp only [bankTry, asking_eq, phaseDone_withTeam, hdone, if_true]
    rw [← goesOn_unasked]
    refine issue_retire h.toIssues (s2 := s1.upd unasked) ?_ h.cleanS h.cleanV h.inner
    simp only [withReply_first h.idle, barObject_at hobj, hord, Bool.false_eq_true, if_false]
    exact askBank_performed rfl htry rfl (hbank hord) hpresent rfl nofun _

theorem barWait_waits (hnot : phaseDone s1 obj (barPhase s1.team p) = false) : exec (.barWait a p) s =
    .next (if ordered s1.team then waitsAt s1 .quantum
      else awaits { s1 with bank := s1.bank ++ [.await obj (barPhase s1.team p) s1.team.place] } (.barWait a p) [] none .barrier) := by
  rw [show exec (.barWait a p) s = execBarWait a p s from rfl, execBarWait]
  cases hord : ordered s1.team with
  | true =>
    rw [issue_hold h.toIssues (s2 := s1) (w := .quantum), keepOp_fresh h.idle.1]
    · rfl
    · simp only [withReply_first h.idle, barObject_at hobj, hord, hnot, Bool.false_eq_true, if_true, if_false]
  | false =>
    have htry : bankTry (asking s1 [] none) (.await obj (barPhase s1.team p) s1.team.place) = none := by
      simp only [bankTry, asking_eq, phaseDone_withTeam, hnot, Bool.false_eq_true, if_false]
    refine issue_awaits h.toIssues ?_
    simp only [withReply_first h.idle, barObject_at hobj, hord, Bool.false_eq_true, if_false]
    exact askBank_waits rfl htry h.idle.2 _

end

theorem barWait_takesReply (a : SSrc) (p : BarPhase) : TakesReply anyState (.barWait a p) [] fun _ t => t :=
  takesReply_of_withReply (fun _ => rfl) ⟨fun _ _ => rfl, fun _ _ => rfl, .inr fun _ _ => ⟨rfl, rfl⟩⟩ fun _ _ => rfl

/-! ### BAR.EXPB -/

/-- An object that expects more bytes. -/
def expecting (b : BarObj) (n : Nat) : BarObj := { b with expb := min (b.expb + n) (2 ^ 32 - 1) }

theorem expecting_fits {b : BarObj} (h : Fits b) (n : Nat) : Fits (expecting b n) :=
  { h with expb := Nat.lt_of_le_of_lt (Nat.min_le_right ..) (by decide) }

section
variable {a b : SSrc} {s s1 : State} {obj : Nat} (h : Goes (.barExpb a b) s s1) (hobj : AtObject s1 .wr (sget s1.team a.r) obj)
include h hobj

theorem barExpb_ordered (hord : ordered s1.team = true) : exec (.barExpb a b) s = .next (goesOn (withTeam s1 fun t =>
    { t with obuf := t.obuf ++ [.barExpb obj ((sget s1.team b.r).toNat % 2 ^ 32)] }) (nextPc (.barExpb a b) s)) := by
  rw [show exec (.barExpb a b) s = execBarExpb a b s from rfl, execBarExpb]
  refine issue_retire h.toIssues ?_ h.cleanS h.cleanV h.inner
  simp only [barObject_at hobj, hord, fld_low32, if_true]
  rfl

theorem barExpb_waits (hord : ordered s1.team = false) (hempty : objReady s1 obj = false) : exec (.barExpb a b) s =
    .next (goesOn { s1 with bank := s1.bank ++ [.expb obj ((sget s1.team b.r).toNat % 2 ^ 32)] } (nextPc (.barExpb a b) s)) := by
  have htry : bankTry s1 (.expb obj ((sget s1.team b.r).toNat % 2 ^ 32)) = none := by
    simp only [bankTry, hempty, Bool.false_eq_true, if_false]
  rw [show exec (.barExpb a b) s = execBarExpb a b s from rfl, execBarExpb]
  refine issue_retire h.toIssues ?_ h.cleanS h.cleanV h.inner
  simp only [barObject_at hobj, hord, fld_low32, Bool.false_eq_true, if_false]
  exact congrArg Eff.retire (reach_waits htry)

theorem barExpb_performed (hord : ordered s1.team = false) (hready : objReady s1 obj = true) (hbank : s1.bank = [])
    (hopen : StaysOpen (expecting (readObj s1 obj) ((sget s1.team b.r).toNat % 2 ^ 32))) :
    exec (.barExpb a b) s = .next (goesOn (writeObj s1 obj (expecting (readObj s1 obj) ((sget s1.team b.r).toNat % 2 ^ 32)))
      (nextPc (.barExpb a b) s)) := by
  generalize hn : (sget s1.team b.r).toNat % 2 ^ 32 = n at hopen
  have hread := readObj_writeObj s1 obj (expecting_fits (readObj_fits s1 obj) n)
  have hstill : StaysOpen (readObj (writeObj s1 obj (expecting (readObj s1 obj) n)) obj) := by rwa [hread]
  have hexpects : expectBytes s1 obj n = writeObj s1 obj (expecting (readObj s1 obj) n) := by
    rw [← completeObj_open hstill, expectBytes, expecting]
  have htry : bankTry s1 (.expb obj n) = some (writeObj s1 obj (expecting (readObj s1 obj) n)) := by
    simp only [bankTry, hready, if_true, hexpects]
  have hteam := (objectsOnly_writeObj s1 obj (expecting (readObj s1 obj) n)).team
  rw [show exec (.barExpb a b) s = execBarExpb a b s from rfl, execBarExpb]
  refine issue_retire h.toIssues ?_ ((congrArg Team.sPoison hteam).trans h.cleanS) ((congrArg Team.vPoison hteam).trans h.cleanV)
    (inner_of_lstk h (congrArg Team.lstk hteam))
  simp only [barObject_at hobj, hord, fld_low32, hn, Bool.false_eq_true, if_false]
  refine congrArg Eff.retire ((reach_performed htry).trans (settleBank_empty ?_))
  exact (objectsOnly_writeObj s1 obj _).bank.trans hbank

end

theorem sameRegisters_goesOn {s t : State} (h : t.team = s.team) (tgt : Word) : SameRegisters (goesOn t tgt).team s.team := by
  rw [← h]
  exact ⟨rfl, rfl, rfl, rfl, rfl⟩

theorem readObj_goesOn (s : State) (tgt : Word) (obj : Nat) : readObj (goesOn s tgt) obj = readObj s obj := rfl

/-! ### The instructions -/

theorem barrierInstructions : BarrierInstructions := by
  unfold BarrierInstructions
  refine ⟨fun x a b c s s1 obj h hsettled hobj _ hexpa => barInit_goes h hsettled hobj hexpa,
    fun s obj expa defb x hbank hexpa hdefb => initObj_idle hbank x hexpa hdefb,
    arriveIs_of_arriveWith fun _ _ _ => rfl, arriveIs_of_arriveWith fun _ _ _ => rfl, ?wait, barWait_takesReply, ?expb⟩
  case wait =>
    intro a p s s1 obj h hpresent hobj want
    have hwant : want = barPhase s1.team p := by cases p <;> rfl
    have hdone := phaseDone_iff s1 obj (barPhase_lt s1.team p)
    rw [hwant]
    refine ⟨fun hgone hbank => barWait_goesOn h hobj hpresent (hdone.2 hgone) hbank, fun hgone => ?_⟩
    exact barWait_waits h hobj (Bool.eq_false_iff.2 fun hyes => hgone (hdone.1 hyes))
  case expb =>
    intro a b s s1 obj h hobj n
    refine ⟨barExpb_ordered h hobj, barExpb_waits h hobj, fun hord hready hbank hopen => ?_⟩
    refine ⟨_, barExpb_performed h hobj hord hready hbank hopen, sameRegisters_goesOn (objectsOnly_writeObj ..).team _, ?_⟩
    rw [readObj_goesOn]
    exact readObj_writeObj _ _ (expecting_fits (readObj_fits s1 obj) n)

/-- Settles O20: each BAR instruction does its act at its object or is kept by the bank, and an arrival that ends a phase starts
the next one, on a cross object when the twin's notice has come. -/
theorem barriersCountPhases : Obligations.BarriersCountPhases := ⟨barrierInstructions, arrivalsCompletePhases⟩

end Sys2Proof.MemorySync
end

section
/-! PROOFS. Lock records (R291): the words that a service team writes in them, a step's stores with its checkpoint (R298), and
what ends a capsule. -/

namespace Sys2Proof.MemorySync

open Sys2Proof.Machine Sys2Proof.RegisterState Sys2Proof.MemoryHierarchy Sys2Proof.ConsistencyModel

theorem WritesOnly.bodies {s t : State} (h : WritesOnly s t) : t.bodies = s.bodies := by rw [show t = _ from h]

/-! ### Words that a service team writes -/

theorem wordAt_ext {s t : State} {loc : Nat} (h : ∀ a, loc ≤ a → a < loc + 8 → memByte t a = memByte s a) :
    wordAt_ t loc = wordAt_ s loc := by
  rw [wordAt_, wordAt_, memNat_eq_bytesBy, memNat_eq_bytesBy,
    bytesBy_congr fun j hj => h (loc + j) (Nat.le_add_right ..) (Nat.add_lt_add_left hj loc)]

theorem memByte_ownWrite_off (s : State) {loc a : Nat} {bs : List Byte} (h : ¬(loc ≤ a ∧ a < loc + bs.length)) :
    memByte (ownWrite s loc bs) a = memByte s a := by
  rw [ownWrite, memByte_rawWrite, if_neg h, memByte, ownLines_mem]
  rfl

/-- Words as the bytes that hold them. -/
def wordBytes (ws : List Nat) : List Byte := ws.flatMap (bytesOfNat 8)

theorem wordBytes_length (ws : List Nat) : (wordBytes ws).length = 8 * ws.length := by
  simp only [wordBytes, List.length_flatMap, bytesOfNat_length, List.map_const', List.sum_replicate_nat, Nat.mul_comm]

theorem wordAt_ownWrite (s : State) (loc : Nat) {ws : List Nat} {i v : Nat} (h : ws[i]? = some v) :
    wordAt_ (ownWrite s loc (wordBytes ws)) (loc + 8 * i) = v % 2 ^ 64 := memNat_rawWrite_words _ loc h

theorem wordAt_recSet (s : State) (rcd off : Nat) (v : Word) : wordAt_ (recSet s rcd off v) (rcd + off) = v.toNat :=
  memNat_recSet ..

theorem wordAt_recSet_off (s : State) (rcd : Nat) {off loc : Nat} (v : Word) (h : loc + 8 ≤ rcd + off ∨ rcd + off + 8 ≤ loc) :
    wordAt_ (recSet s rcd off v) loc = wordAt_ s loc :=
  wordAt_ext fun a ha ha' => memByte_recSet s rcd off v (by omega)

theorem writesOnly_recSet (s : State) (rcd off : Nat) (v : Word) : WritesOnly s (recSet s rcd off v) := writesOnly_ownWrite ..

theorem recWord_zero (s : State) (loc : Nat) : (recWord s loc 0).toNat = wordAt_ s loc := recWord_toNat s loc 0

/-- s1 to s15 as the words of a checkpoint. -/
def regWords (t : Team) : List Nat := (List.range 15).map fun i => (sget t (BitVec.ofNat 6 (i + 1))).toNat

theorem checkpoint_eq (t : Team) : checkpoint t = wordBytes (regWords t) := by
  rw [checkpoint, wordBytes, regWords, List.flatMap_map]

theorem regWords_get (t : Team) {j : Nat} (h : j < 15) : (regWords t)[j]? = some (sget t (BitVec.ofNat 6 (j + 1))).toNat := by
  rw [regWords, List.getElem?_map, List.getElem?_range h]
  rfl

/-! ### A record shown over -/

section
variable (s : State) (rcd out : Nat)

/-- The record with OUT and SINST written. -/
def outcomeSet : State := recSet s rcd 192 (BitVec.ofNat 64 (out + fld (recWord s rcd 0) 63 32 * 2 ^ 32))

theorem endInstance_mem : (endInstance s rcd out).mem = (recSet (outcomeSet s rcd out) rcd 0 (setFld (recWord s rcd 0) 0 0 0)).mem :=
  rfl

theorem memByte_endInstance_off {a : Nat} (h : ¬(rcd ≤ a ∧ a < rcd + 8)) (h' : ¬(rcd + 192 ≤ a ∧ a < rcd + 200)) :
    memByte (endInstance s rcd out) a = memByte s a :=
  (congrArg (mapGet 0 · a) (endInstance_mem s rcd out)).trans
    ((memByte_recSet (outcomeSet s rcd out) rcd 0 _ (by omega)).trans (memByte_recSet s rcd 192 _ (by omega)))

theorem endInstance_team : (endInstance s rcd out).team = s.team :=
  (show (endInstance s rcd out).team = (recSet (outcomeSet s rcd out) rcd 0 (setFld (recWord s rcd 0) 0 0 0)).team from rfl).trans
    ((writesOnly_recSet _ rcd 0 _).team.trans (writesOnly_recSet s rcd 192 _).team)

theorem released_word (w : Word) : (setFld w 0 0 0).toNat % 2 = 0 ∧ (setFld w 0 0 0).toNat / 2 ^ 32 = w.toNat / 2 ^ 32 := by
  have hw := w.isLt
  simp only [setFld, BitVec.toNat_ofNat, Nat.shiftRight_eq_div_pow]
  omega

theorem endInstance_ended (h : out < 2 ^ 32) : Ended (endInstance s rcd out) rcd (wordAt_ s rcd / 2 ^ 32) out := by
  obtain ⟨hfree, hinst⟩ := released_word (recWord s rcd 0)
  have hw := (recWord s rcd 0).isLt
  have hhead : wordAt_ (endInstance s rcd out) rcd = (setFld (recWord s rcd 0) 0 0 0).toNat :=
    (memNat_congr (endInstance_mem s rcd out) rcd 8).trans (wordAt_recSet (outcomeSet s rcd out) rcd 0 _)
  have hout : wordAt_ (endInstance s rcd out) (rcd + 192) =
      (BitVec.ofNat 64 (out + fld (recWord s rcd 0) 63 32 * 2 ^ 32)).toNat :=
    (memNat_congr (endInstance_mem s rcd out) (rcd + 192) 8).trans
      ((wordAt_recSet_off (outcomeSet s rcd out) rcd (off := 0) _ (.inr (by omega))).trans (wordAt_recSet s rcd 192 _))
  unfold Ended
  rw [hhead, hout, ← recWord_zero]
  refine ⟨hfree, hinst, ?_, ?_⟩
  · rw [BitVec.toNat_ofNat, fld, bitsNat, Nat.shiftRight_eq_div_pow]
    omega
  · rw [endInstance, List.mem_filter]
    simp

end

/-! ### The stores of a step -/

/-- The one lock held is the record's, and nothing else keeps a store from its bytes. -/
structure OneRecord (s : State) (rcd : Nat) : Prop where
  tags : s.tags = []
  locks : s.locks = [rcd]
  lost : s.pkstat.lost = 0
  mlost : s.pkstat.mlost = 0

theorem OneRecord.after {s t : State} {rcd : Nat} (h : OneRecord s rcd) (hw : WritesOnly s t) : OneRecord t rcd where
  tags := hw.tags.trans h.tags
  locks := hw.locks.trans h.locks
  lost := hw.pkstat ▸ h.lost
  mlost := hw.pkstat ▸ h.mlost

/-- The bytes of a held record are those that a store does not reach (R292). -/
theorem blockedByte_oneRecord {s : State} {rcd : Nat} (h : OneRecord s rcd) (a : Nat) :
    blockedByte s a = decide (rcd ≤ a ∧ a < rcd + 256) := by
  obtain ⟨htags, hlocks, hlost, hmlost⟩ := h
  have hlock : (lockHit s a 1).isSome = decide (rcd ≤ a ∧ a < rcd + 256) := by
    by_cases hin : rcd ≤ a ∧ a < rcd + 256
    · have hmeet : overlaps a 1 rcd 256 = true := by
        rw [overlaps, Bool.and_eq_true, decide_eq_true_iff, decide_eq_true_iff]
        omega
      simp only [lockHit, hlocks, List.find?_cons, hmeet, Option.isSome_some, hin, and_self, decide_true]
    · have hmiss : overlaps a 1 rcd 256 = false := by
        rw [← Bool.not_eq_true, overlaps, Bool.and_eq_true, decide_eq_true_iff, decide_eq_true_iff]
        omega
      simp only [lockHit, hlocks, List.find?_cons, hmiss, List.find?_nil, Option.isSome_none, hin, decide_false]
  simp [blockedByte, tagHit, htags, hlock, homeLost, memoryLost, hlost, hmlost]

/-- The stores of a step are performed in their order (R298). -/
def storesDone (s : State) (p : BitVec 4) (pl : Place) (bs : List BufStore) : State :=
  bs.foldl (fun s b => performStore s p pl b.loc b.data) s

theorem writesOnly_storesDone (s : State) (p : BitVec 4) (pl : Place) (bs : List BufStore) : WritesOnly s (storesDone s p pl bs) :=
  foldl_keeps (WritesOnly s) (fun _ _ h => h.trans (writesOnly_performStore ..)) _ (.refl s)

/-- Every byte outside the record takes the last store to it, and the record keeps its own. -/
theorem memByte_storesDone {s : State} {rcd : Nat} (h : OneRecord s rcd) (p : BitVec 4) (pl : Place) (bs : List BufStore) (a : Nat) :
    memByte (storesDone s p pl bs) a =
      if rcd ≤ a ∧ a < rcd + 256 then memByte s a else (bufByte bs a).getD (memByte s a) := by
  induction bs generalizing s with
  | nil => simp only [storesDone, List.foldl_nil, bufByte, Option.getD_none, ite_self]
  | cons b bs ih =>
    have hfirst := memByte_performBy none s p pl b.loc b.data a
    rw [storesDone, List.foldl_cons, ← storesDone, ih (h.after (writesOnly_performStore ..)), performStore, hfirst,
      blockedByte_oneRecord h]
    by_cases hin : rcd ≤ a ∧ a < rcd + 256
    · simp only [hin, and_self, decide_true, Bool.true_eq_false, and_false, if_true, if_false]
    · simp only [hin, decide_false, and_true, if_false, bufByte]
      cases bufByte bs a with
      | some x => rfl
      | none =>
        by_cases hto : b.loc ≤ a ∧ a < b.loc + b.data.length
        · have hlt : a - b.loc < b.data.length := by omega
          simp only [hto, and_self, decide_true, Bool.and_self, if_true, Option.getD_none, List.getElem?_eq_getElem hlt,
            Option.getD_some, List.getD_eq_getElem?_getD]
        · have hoff : (decide (b.loc ≤ a) && decide (a < b.loc + b.data.length)) = false := by
            rw [← Bool.not_eq_true, Bool.and_eq_true, decide_eq_true_iff, decide_eq_true_iff]
            exact hto
          simp only [hto, hoff, Bool.false_eq_true, if_false, Option.getD_none]

section
variable (s : State) (t : Team) (rcd : Nat) (next : Word)

/-- The state between a step's stores and its checkpoint. -/
def stepStored : State :=
  clearPoison (storesDone (collapse s (rcd / 4096 * 4096) 4096) t.part t.place t.capBuf)
    (t.capBuf.map fun b => (b.loc, b.data.length))

theorem commitStep_eq : commitStep s t rcd next = ownWrite (stepStored s t rcd) (rcd + 24)
    (wordBytes ([fld (recWord s rcd 24) 4 0 + 1, next.toNat] ++ regWords t)) := by
  rw [commitStep, checkpoint_eq]
  rfl

theorem writesOnly_stepStored : WritesOnly s (stepStored s t rcd) :=
  ((writesOnly_collapse ..).trans (writesOnly_storesDone ..)).trans (writesOnly_clearPoison ..)

theorem writesOnly_commitStep : WritesOnly s (commitStep s t rcd next) := by
  rw [commitStep_eq]
  exact (writesOnly_stepStored s t rcd).trans (writesOnly_ownWrite ..)

theorem commitStep_checkpointed : wordAt_ (commitStep s t rcd next) (rcd + 24) = wordAt_ s (rcd + 24) % 32 + 1 ∧
    wordAt_ (commitStep s t rcd next) (rcd + 32) = next.toNat ∧
    ∀ j < 15, wordAt_ (commitStep s t rcd next) (rcd + 40 + 8 * j) = (sget t (BitVec.ofNat 6 (j + 1))).toNat := by
  have hword := fun i v => wordAt_ownWrite (stepStored s t rcd) (rcd + 24)
    (ws := [fld (recWord s rcd 24) 4 0 + 1, next.toNat] ++ regWords t) (i := i) (v := v)
  have hstep : fld (recWord s rcd 24) 4 0 = wordAt_ s (rcd + 24) % 32 := by
    rw [fld, recWord_toNat]
    rfl
  rw [commitStep_eq]
  refine ⟨(hword 0 _ rfl).trans ?_, (hword 1 _ rfl).trans (Nat.mod_eq_of_lt next.isLt), fun j hj => ?_⟩
  · rw [hstep]
    omega
  · rw [show rcd + 40 + 8 * j = rcd + 24 + 8 * (j + 2) by omega]
    exact (hword (j + 2) _ (regWords_get t hj)).trans (Nat.mod_eq_of_lt (BitVec.isLt _))

variable {s rcd} (h : OneRecord s rcd)
include h

theorem memByte_commitStep {a : Nat} (hoff : ¬(rcd + 24 ≤ a ∧ a < rcd + 160)) : memByte (commitStep s t rcd next) a =
    if rcd ≤ a ∧ a < rcd + 256 then memByte s a else (bufByte t.capBuf a).getD (memByte s a) := by
  have hcollapsed : memByte (collapse s (rcd / 4096 * 4096) 4096) a = memByte s a := by
    simp only [collapse]
    split <;> rfl
  rw [commitStep_eq, memByte_ownWrite_off _ (by rw [wordBytes_length]; simpa [regWords] using hoff), ← hcollapsed]
  exact memByte_storesDone (h.after (writesOnly_collapse ..)) t.part t.place t.capBuf a

theorem wordAt_commitStep_record {loc : Nat} (hoff : loc + 8 ≤ rcd + 24 ∨ rcd + 160 ≤ loc)
    (hin : rcd ≤ loc ∧ loc + 8 ≤ rcd + 256) : wordAt_ (commitStep s t rcd next) loc = wordAt_ s loc :=
  wordAt_ext fun a ha ha' => by rw [memByte_commitStep t next h (by omega), if_pos (by omega)]

end

end Sys2Proof.MemorySync
end

section
/-! PROOFS. Requests for a capsule (R259): how a service team serves one at once, and where its team goes on (O23). -/

namespace Sys2Proof.MemorySync

open Sys2Proof.Machine Sys2Proof.RegisterState Sys2Proof.MemoryHierarchy Sys2Proof.ConsistencyModel

/-! ### A request served at once -/

theorem requestHeld_open {s : State} (h : AllOpen s) (t : Team) (r : SvcReq) : requestHeld s t r = false := by
  obtain ⟨hlinks, hhalted, -, -⟩ := h
  have hservice : ∀ loc, serviceHalted s loc = false := fun loc => by simp [serviceHalted, hhalted]
  have hway : ∀ d b loc, heldOnWay s d b loc = false := fun d b loc => by simp [heldOnWay, hlinks]
  have hhall : ∀ path : List Nat, path.any ([] : List Nat).contains = false := fun path => List.any_eq_false.2 fun x _ => by simp
  simp [requestHeld, hservice, hway, hlinks, hhall]

theorem mapTeam_here {s : State} (h : s.team.status ≠ .vacant) (f : Team → Team) : mapTeam s s.team.place f = withTeam s f := by
  refine if_pos ?_
  rw [Bool.and_eq_true, decide_eq_true_iff, bne_iff_ne]
  exact ⟨rfl, h⟩

theorem teamAt_here {s : State} (h : s.team.status ≠ .vacant) : teamAt s s.team.place = some s.team := by
  refine if_pos ?_
  rw [Bool.and_eq_true, decide_eq_true_iff, bne_iff_ne]
  exact ⟨rfl, h⟩

theorem settleCaps_idle {s : State} (h : s.capWrites = []) : settleCaps s = s := by
  have hsame : { s with capWrites := [] } = s := by rw [← h]
  rw [settleCaps, h, List.foldl_nil, hsame]

/-- A service team that performs a request at once answers its team, which goes on with the reply. -/
theorem askService_served {s u : State} {w : WaitOn} {hva : Word} {loc : Nat} {r : SvcReq} {rep : SvcReply} (h : Asks s)
    (hserved : performRequest (asking s [] (some r)) (asking s [] (some r)).team r = .reply u rep) (hgood : rep.err = none)
    (k : State → SvcReply → Eff) : askService s w hva [] loc r k = k (u.upd unasked) rep := by
  obtain ⟨⟨hservice, -, -⟩, -, hord, -, hquota⟩ := h
  have hentries : askService.entriesAt s (ownerCluster loc) s.team.part = 0 := by simp [askService.entriesAt, hservice]
  have hroom : ¬quota s s.team.part 3 ≤ 0 := fun hle => hquota (Nat.le_zero.mp hle)
  have hdrain : drain (asking s [] (some r)) = asking s [] (some r) := drain_idle hservice
  simp only [askService, hquota, hentries, hroom, hord, decide_false, Bool.and_false, Bool.false_eq_true, if_false, askFor, perform,
    hdrain, hserved]
  exact answered_good hgood k

/-- A team has gone on as `v` at an address, with the memory and the locks of `x`. -/
structure LandsAs (x : State) (v : Team) (t : State) (pc : Word) : Prop where
  mem : t.mem = x.mem
  locks : t.locks = x.locks
  held : t.team.held = v.held
  mystep : t.team.mystep = v.mystep
  capBuf : t.team.capBuf = v.capBuf
  atPc : t.team.pc = pc
  registers : SameRegisters t.team v

section
variable {x t : State} {v : Team} {pc : Word} (h : LandsAs x v t pc)
include h

theorem LandsAs.word (loc : Nat) : wordAt_ t loc = wordAt_ x loc := memNat_congr h.mem loc 8

theorem LandsAs.byte (a : Nat) : memByte t a = memByte x a := congrArg (mapGet 0 · a) h.mem

theorem LandsAs.sget (r : SReg) : sget t.team r = sget v r := by rw [Machine.sget, Machine.sget, h.registers.1]

end

theorem descheduleCap_asked (s : State) (t : Team) (run : Bool) : ∃ cw, descheduleCap s t run = { s with capWrites := cw } := by
  unfold descheduleCap askState
  split
  · exact ⟨_, rfl⟩
  · split <;> exact ⟨_, rfl⟩

/-- The team goes on at the address that the service team answers, whether or not it is asked to park (R299). -/
theorem capGo_lands (u : State) {rep : SvcReply} {pc : Word} (hvals : rep.vals = [pc]) :
    ∃ cw, capGo u rep = .land { u with capWrites := cw } pc := by
  obtain ⟨cw, hparks⟩ := descheduleCap_asked u u.team false
  simp only [capGo, hvals, hparks]
  split
  · exact ⟨u.capWrites, rfl⟩
  · exact ⟨cw, rfl⟩

theorem capsule_served {i : Instr} {s s1 u x : State} {v : Team} {va : Word} {loc : Nat} {r : SvcReq} {rep : SvcReply} {pc : Word}
    {body : State → Eff} (h : Goes i s s1) (hasks : Asks s1) (hbody : body s1 = askService s1 .capsule va [] loc r capGo)
    (hserved : performRequest (asking s1 [] (some r)) (asking s1 [] (some r)).team r =
      .reply (svcNoted u (ownerCluster loc) s1.team.asid loc 256) rep)
    (hgood : rep.err = none) (hvals : rep.vals = [pc]) (hmem : u.mem = x.mem) (hlocks : u.locks = x.locks) (hteam : u.team = v)
    (hs : v.sPoison = s1.team.sPoison) (hv : v.vPoison = s1.team.vPoison) (hl : v.lstk = s1.team.lstk) :
    ∃ t, issue i s body = .next t ∧ LandsAs x v t pc := by
  subst hteam
  obtain ⟨l1, l2, an, cnt, hnoted⟩ := readPiecesL2_eq u (ownerCluster loc / 6) s1.team.asid [(loc, 256)]
  rw [svcNoted, hnoted] at hserved
  obtain ⟨cw, hland⟩ := capGo_lands ((noted u l1 l2 an cnt).upd unasked) hvals
  have hgo := (hbody.trans (askService_served hasks hserved hgood capGo)).trans hland
  refine ⟨_, issue_land h.toIssues hgo (hs.trans h.cleanS) (hv.trans h.cleanV) (inner_of_lstk h hl), ?_⟩
  exact ⟨hmem, hlocks, rfl, rfl, rfl, rfl, ⟨rfl, rfl, rfl, rfl, rfl⟩⟩

/-- An instruction of capsules whose reply has come goes on at the address that it names. -/
theorem capsule_replied {i : Instr} {s : State} {r : SvcReply} {w : WaitOn} {hva : Word} {body first : State → Eff}
    (hexec : exec i s = issue i s body) (hbody : body s = withReply s w hva [] capGo first) (h : Replied s r)
    (hparks : s.team.parks = []) :
    exec i s = .next (goesOn s (r.vals.getD 0 s.team.pc)) := by
  have hclean : unpoison i (s.upd unasked) = s.upd unasked := unpoison_clean i h.clean.1 h.clean.2
  rw [hexec, ← goesOn_unasked]
  refine issue_asked_land h.asked ?_ hclean h.inner
  have hnone : (s.upd unasked).team.parks.isEmpty = true := by
    rw [List.isEmpty_iff]
    exact hparks
  rw [hbody, withReply_reply h.reply, answered_good h.good]
  show capGo (s.upd unasked) r = _
  rw [capGo, if_pos hnone]
  rfl

/-! ### Steps of the owner -/

/-- The team of a state is inside a capsule whose record names it, and nothing stands between it and the record. -/
structure Owner (s : State) (h : CapHold) : Prop where
  held : s.team.held = some h
  present : s.team.status ≠ .vacant
  unpoisoned : poisonedIn s h.rcd 256 = false
  owned : owns s s.team h.rcd = true
  one : OneRecord s h.rcd
  dirty : s.dirty = []
  idle : s.capWrites = []
  way : AllOpen s

theorem owns_iff (s : State) (t : Team) (rcd : Nat) : owns s t rcd = true ↔
    wordAt_ s rcd % 2 = 1 ∧ wordAt_ s (rcd + 8) = (ownerWord t).toNat := by
  rw [owns, Bool.and_eq_true, recWord_held, beq_iff_eq, ← BitVec.toNat_inj, recWord_toNat]
  rfl

theorem owner_of_inCapsule {s : State} {h : CapHold} (hin : InCapsule s h) (r : SvcReq) : Owner (asking s [] (some r)) h := by
  obtain ⟨⟨⟨-, hdirty, hidle⟩, hway, -, hpresent, -⟩, hheld, hpoison, htags, hlocks, hlost, hmlost, hrecord, howner⟩ := hin
  exact ⟨hheld, hpresent, hpoison, (owns_iff ..).2 ⟨hrecord, howner⟩, ⟨htags, hlocks, hlost, hmlost⟩, hdirty, hidle, hway⟩

theorem recWord_step (s : State) (rcd : Nat) : fld (recWord s rcd 24) 4 0 = wordAt_ s (rcd + 24) % 32 := by
  rw [fld, recWord_toNat]
  rfl

/-- The state in which an EXIT has published s1 to s4, before the record is shown over. -/
def published (s : State) (rcd : Nat) (next : Word) : State :=
  ownWrite (commitStep s s.team rcd next) (rcd + 160) ((checkpoint s.team).take 32)

/-- The request is a step's. -/
def IsStep : SvcReq → Prop
  | .capCommit _ | .capExit _ | .capAbort => True
  | _ => False

section
variable {s : State} {h : CapHold} (ho : Owner s h)
include ho

theorem step_performed {r : SvcReq} {u : State} {rep : SvcReply} (hr : IsStep r)
    (hreq : capStepReq s s.team r = some (.ok (u, rep))) :
    performRequest s s.team r = .reply (svcNoted u (ownerCluster h.rcd) s.team.asid h.rcd 256) rep := by
  cases r with
  | capCommit next | capExit next | capAbort =>
    simp only [performRequest, requestHeld_open ho.way, settleCaps_idle ho.idle, hreq, reqLoc, ho.held, Bool.false_eq_true, if_false]
    rfl
  | _ => exact hr.elim

theorem Owner.keeps_place {u : State} (hteam : u.team = s.team) (f : Team → Team) : mapTeam u s.team.place f = withTeam u f := by
  rw [← hteam]
  exact mapTeam_here (hteam ▸ ho.present) f

theorem commit_performed {next : Word} (hstep : wordAt_ s (h.rcd + 24) % 32 = s.team.mystep)
    (hlt : wordAt_ s (h.rcd + 24) % 32 < 16) : capStepReq s s.team (.capCommit next) =
      some (.ok (withTeam (commitStep s s.team h.rcd next) fun t => { t with mystep := t.mystep + 1, capBuf := [] },
        { vals := [next] })) := by
  rw [← ho.keeps_place (writesOnly_commitStep ..).team]
  simp only [capStepReq, ho.held, flushLines_clean ho.dirty, ho.unpoisoned, ho.owned, recWord_step, hstep, bne_self_eq_false,
    Bool.not_true, Bool.false_eq_true, if_false, Nat.not_le_of_lt (hstep ▸ hlt)]

theorem exit_performed {next : Word} (hstep : wordAt_ s (h.rcd + 24) % 32 = s.team.mystep) : capStepReq s s.team (.capExit next) =
      some (.ok (withTeam (endInstance (published s h.rcd next) h.rcd 1) fun t =>
        setZ { t with held := none, capBuf := [] } (!flag t ccA), { vals := [h.cont] })) := by
  have hteam : (endInstance (published s h.rcd next) h.rcd 1).team = s.team :=
    (endInstance_team ..).trans ((writesOnly_ownWrite ..).team.trans (writesOnly_commitStep ..).team)
  rw [← ho.keeps_place hteam]
  simp only [capStepReq, ho.held, flushLines_clean ho.dirty, ho.unpoisoned, ho.owned, recWord_step, hstep, bne_self_eq_false,
    Bool.not_true, Bool.false_eq_true, if_false, published]

theorem abort_performed (hstep : wordAt_ s (h.rcd + 24) % 32 = 0) : capStepReq s s.team .capAbort =
      some (.ok (withTeam (endInstance s h.rcd 2) fun t => setCC { t with held := none, capBuf := [] } ccZ 0,
        { vals := [h.cont] })) := by
  rw [← ho.keeps_place (endInstance_team ..)]
  simp only [capStepReq, ho.held, flushLines_clean ho.dirty, ho.unpoisoned, ho.owned, recWord_step, hstep, bne_self_eq_false,
    Bool.not_true, Bool.false_eq_true, if_false]

end

end Sys2Proof.MemorySync
end

section
/-! PROOFS. The steps of a capsule by its owner, and what each leaves of the record, the data and the team (O23, R259, R298). -/

namespace Sys2Proof.MemorySync

open Sys2Proof.Machine Sys2Proof.RegisterState Sys2Proof.MemoryHierarchy Sys2Proof.ConsistencyModel Sys2Proof.ScalarControl

theorem wordAt_withTeam (s : State) (f : Team → Team) (loc : Nat) : wordAt_ (withTeam s f) loc = wordAt_ s loc := rfl

/-! ### The flags of a step -/

theorem setCC_keeps (t : Team) (which v : Nat) : setCC t which v =
    { t with cc := (t.cc &&& ~~~(BitVec.ofNat 7 which)) ||| (BitVec.ofNat 7 v &&& BitVec.ofNat 7 which) } := rfl

theorem setCC_Z_zero (t : Team) : setCC t ccZ 0 = { t with cc := t.cc &&& 0x7E } := by
  have hcc : ∀ c : BitVec 7, (c &&& ~~~(BitVec.ofNat 7 ccZ)) ||| (BitVec.ofNat 7 0 &&& BitVec.ofNat 7 ccZ) = c &&& 0x7E := by decide
  rw [setCC_keeps, hcc]

/-- A team that has left its capsule. -/
def leftCapsule (t : Team) : Team := { t with held := none, capBuf := [] }

/-- EXIT sets Z but for a capsule that was adopted (A). -/
theorem setZ_leftCapsule (t : Team) : setZ (leftCapsule t) (!flag t ccA) =
    { leftCapsule t with cc := if t.cc.getLsbD 5 then t.cc &&& 0x7E else t.cc ||| 1 } := by
  have hcc : ∀ c : BitVec 7, (c &&& ~~~(BitVec.ofNat 7 ccZ)) ||| (BitVec.ofNat 7 (bitIf (!((c &&& BitVec.ofNat 7 ccA) != 0)) ccZ) &&&
      BitVec.ofNat 7 ccZ) = if c.getLsbD 5 then c &&& 0x7E else c ||| 1 := by decide
  rw [setZ, setCC_keeps, flag, show (leftCapsule t).cc = t.cc from rfl, hcc]

/-! ### A step lands -/

section
variable {i : Instr} {s s1 : State} {h : CapHold} {r : SvcReq} (hgoes : Goes i s s1) (hin : InCapsule s1 h)

/-- The team that has asked for a step. -/
def askedFor (s : State) (r : SvcReq) : State := asking s [] (some r)

theorem askedFor_word (s : State) (r : SvcReq) (loc : Nat) : wordAt_ (askedFor s r) loc = wordAt_ s loc := rfl

theorem askedFor_sget (s : State) (r : SvcReq) (d : SReg) : sget (askedFor s r).team d = sget s.team d := rfl

include hin

theorem capRecord_inCapsule : capRecord s1.team = h.rcd := by
  obtain ⟨-, hheld, -⟩ := hin
  rw [capRecord, bodyHold, hheld]
  rfl

include hgoes

/-- A step that its service team performs at once: the state `x` that it leaves of memory, and `f` of its team. -/
theorem step_lands {x : State} {f : Team → Team} {pc : Word} {body : State → Eff} (hr : IsStep r)
    (hbody : body s1 = askService s1 .capsule 0 [] h.rcd r capGo)
    (hreq : capStepReq (askedFor s1 r) (askedFor s1 r).team r = some (.ok (withTeam x f, { vals := [pc] })))
    (hteam : x.team = (askedFor s1 r).team) (hs : ∀ t, (f t).sPoison = t.sPoison) (hv : ∀ t, (f t).vPoison = t.vPoison)
    (hl : ∀ t, (f t).lstk = t.lstk) : ∃ t, issue i s body = .next t ∧ LandsAs x (f (askedFor s1 r).team) t pc :=
  capsule_served hgoes hin.1 hbody (step_performed (owner_of_inCapsule hin r) hr hreq) rfl rfl rfl rfl (congrArg f hteam) (hs _)
    (hv _) (hl _)

end

/-! ### CAP.COMMIT, CAP.EXIT and CAP.ABORT -/

section
variable {s s1 : State} {h : CapHold} (hin : InCapsule s1 h)
include hin

theorem exec_commit (hgoes : Goes .capCommit s s1) (hstep : wordAt_ s1 (h.rcd + 24) % 32 = s1.team.mystep)
    (hlt : wordAt_ s1 (h.rcd + 24) % 32 < 16) : ∃ t, exec .capCommit s = .next t ∧
      LandsAs (commitStep (askedFor s1 (.capCommit (nextPc .capCommit s))) (askedFor s1 (.capCommit (nextPc .capCommit s))).team
          h.rcd (nextPc .capCommit s))
        { (askedFor s1 (.capCommit (nextPc .capCommit s))).team with mystep := s1.team.mystep + 1, capBuf := [] } t
        (nextPc .capCommit s) := by
  have hbody : (withReply s1 .capsule 0 [] capGo fun s => askService s .capsule 0 [] (capRecord s.team)
      (.capCommit (nextPc .capCommit s)) capGo) =
      askService s1 .capsule 0 [] h.rcd (.capCommit (nextPc .capCommit s)) capGo := by
    rw [withReply_first hgoes.idle, capRecord_inCapsule hin, nextPc_of_issues hgoes.toIssues]
  exact step_lands (r := .capCommit (nextPc .capCommit s)) hgoes hin trivial hbody
    (commit_performed (owner_of_inCapsule hin _) hstep hlt) (writesOnly_commitStep ..).team
    (fun _ => rfl) (fun _ => rfl) fun _ => rfl

theorem exec_exit (hgoes : Goes .capExit s s1) (hstep : wordAt_ s1 (h.rcd + 24) % 32 = s1.team.mystep) :
    ∃ t, exec .capExit s = .next t ∧
      LandsAs (endInstance (published (askedFor s1 (.capExit (nextPc .capExit s))) h.rcd (nextPc .capExit s)) h.rcd 1)
        (setZ (leftCapsule (askedFor s1 (.capExit (nextPc .capExit s))).team)
          (!flag (askedFor s1 (.capExit (nextPc .capExit s))).team ccA)) t h.cont := by
  have hbody : (withReply s1 .capsule 0 [] capGo fun s => relThen s .dev fun s1 =>
      askService s1 .capsule 0 [] (capRecord s.team) (.capExit (nextPc .capExit s)) capGo) =
      askService s1 .capsule 0 [] h.rcd (.capExit (nextPc .capExit s)) capGo := by
    rw [withReply_first hgoes.idle, capRecord_inCapsule hin, nextPc_of_issues hgoes.toIssues, relThen_settled hin.1.1]
  exact step_lands (r := .capExit (nextPc .capExit s)) hgoes hin trivial hbody (exit_performed (owner_of_inCapsule hin _) hstep)
    ((endInstance_team ..).trans ((writesOnly_ownWrite ..).team.trans (writesOnly_commitStep ..).team))
    (fun _ => rfl) (fun _ => rfl) fun _ => rfl

theorem exec_abort (hgoes : Goes .capAbort s s1) (hstep : wordAt_ s1 (h.rcd + 24) % 32 = 0) :
    ∃ t, exec .capAbort s = .next t ∧ LandsAs (endInstance (askedFor s1 .capAbort) h.rcd 2)
      (setCC (leftCapsule (askedFor s1 .capAbort).team) ccZ 0) t h.cont := by
  have hbody : (withReply s1 .capsule 0 [] capGo fun s => askService s .capsule 0 [] (capRecord s.team) .capAbort capGo) =
      askService s1 .capsule 0 [] h.rcd .capAbort capGo := by
    rw [withReply_first hgoes.idle, capRecord_inCapsule hin]
  exact step_lands (r := .capAbort) hgoes hin trivial hbody (abort_performed (owner_of_inCapsule hin _) hstep) (endInstance_team ..)
    (fun _ => rfl) (fun _ => rfl) fun _ => rfl

end

/-! ### What they leave -/

theorem LandsAs.ended {x t : State} {v : Team} {pc : Word} (h : LandsAs x v t pc) {rcd inst out : Nat} (he : Ended x rcd inst out) :
    Ended t rcd inst out := by
  unfold Ended
  rw [h.word, h.word, h.locks]
  exact he

section
variable {s : State} {rcd : Nat}

theorem wordAt_endInstance_between (s : State) (rcd out : Nat) {loc : Nat} (h : rcd + 8 ≤ loc ∧ loc + 8 ≤ rcd + 192) :
    wordAt_ (endInstance s rcd out) loc = wordAt_ s loc :=
  wordAt_ext fun a ha ha' => memByte_endInstance_off s rcd out (by omega) (by omega)

/-- The bytes of s1 to s4, of those of a checkpoint. -/
theorem checkpoint_take (t : Team) : (checkpoint t).take 32 = wordBytes ((regWords t).take 4) := by
  have hsplit : wordBytes (regWords t) = wordBytes ((regWords t).take 4) ++ wordBytes ((regWords t).drop 4) := by
    rw [wordBytes, wordBytes, wordBytes, ← List.flatMap_append, List.take_append_drop]
  have hlen : (wordBytes ((regWords t).take 4)).length = 32 := by simp [wordBytes_length, regWords]
  rw [checkpoint_eq, hsplit, List.take_left' hlen]

theorem published_eq (next : Word) : published s rcd next =
    ownWrite (commitStep s s.team rcd next) (rcd + 160) (wordBytes ((regWords s.team).take 4)) := by
  rw [published, checkpoint_take]

theorem memByte_published_off (next : Word) {a : Nat} (h : ¬(rcd + 160 ≤ a ∧ a < rcd + 192)) :
    memByte (published s rcd next) a = memByte (commitStep s s.team rcd next) a := by
  rw [published_eq, memByte_ownWrite_off _ (by rw [wordBytes_length]; simpa [regWords] using h)]

theorem wordAt_published (next : Word) {j : Nat} (h : j < 4) : wordAt_ (published s rcd next) (rcd + 160 + 8 * j) =
    (sget s.team (BitVec.ofNat 6 (j + 1))).toNat := by
  have hword : ((regWords s.team).take 4)[j]? = some (sget s.team (BitVec.ofNat 6 (j + 1))).toNat := by
    rw [List.getElem?_take_of_lt h]
    exact regWords_get s.team (by omega)
  rw [published_eq, wordAt_ownWrite _ _ hword]
  exact Nat.mod_eq_of_lt (BitVec.isLt _)

theorem wordAt_published_head (h : OneRecord s rcd) (next : Word) : wordAt_ (published s rcd next) rcd = wordAt_ s rcd :=
  (wordAt_ext fun a ha ha' => memByte_published_off next (by omega)).trans
    (wordAt_commitStep_record s.team next h (.inl (by omega)) ⟨Nat.le_refl _, by omega⟩)

end

section
variable {s s1 : State} {h : CapHold} (hin : InCapsule s1 h)
include hin

theorem heldIn : s1.team.held = some h := by
  obtain ⟨-, hheld, -⟩ := hin
  exact hheld

theorem commit_step {step : Nat} (hgoes : Goes .capCommit s s1) (hstep : step = wordAt_ s1 (h.rcd + 24) % 32)
    (hmine : step = s1.team.mystep) (hlt : step < 16) : ∃ t, exec .capCommit s = .next t ∧ StepApplied s1 t h.rcd ∧
      Checkpointed s1 t h.rcd (step + 1) (nextPc .capCommit s) ∧ t.team.held = some h ∧ t.team.mystep = step + 1 ∧
      t.team.capBuf = [] ∧ t.team.pc = nextPc .capCommit s ∧ SameRegisters t.team s1.team := by
  obtain ⟨t, hexec, hl⟩ := exec_commit hin hgoes (hstep.symm.trans hmine) (lt_of_eq_of_lt hstep.symm hlt)
  have hone := (owner_of_inCapsule hin (.capCommit (nextPc .capCommit s))).one
  obtain ⟨hcount, hentry, hregs⟩ := commitStep_checkpointed (askedFor s1 (.capCommit (nextPc .capCommit s)))
    (askedFor s1 (.capCommit (nextPc .capCommit s))).team h.rcd (nextPc .capCommit s)
  refine ⟨t, hexec, fun a ha => ?_, ⟨(hl.word _).trans (hcount.trans (congrArg (· + 1) hstep.symm)), (hl.word _).trans hentry,
    fun j hj => (hl.word _).trans (hregs j hj)⟩, hl.held.trans (heldIn hin), hl.mystep.trans (congrArg (· + 1) hmine.symm),
    hl.capBuf, hl.atPc, hl.registers⟩
  exact (hl.byte a).trans ((memByte_commitStep _ _ hone (by omega)).trans (if_neg ha))

theorem exit_step (hgoes : Goes .capExit s s1) (hstep : wordAt_ s1 (h.rcd + 24) % 32 = s1.team.mystep) :
    ∃ t, exec .capExit s = .next t ∧ StepApplied s1 t h.rcd ∧ Ended t h.rcd (wordAt_ s1 h.rcd / 2 ^ 32) 1 ∧
      (∀ j < 4, wordAt_ t (h.rcd + 160 + 8 * j) = (sget s1.team (BitVec.ofNat 6 (j + 1))).toNat) ∧
      t.team.held = none ∧ t.team.capBuf = [] ∧ t.team.pc = h.cont ∧ t.team.sregs = s1.team.sregs ∧
      t.team.cc = if s1.team.cc.getLsbD 5 then s1.team.cc &&& 0x7E else s1.team.cc ||| 1 := by
  obtain ⟨t, hexec, hl⟩ := exec_exit hin hgoes hstep
  have hone := (owner_of_inCapsule hin (.capExit (nextPc .capExit s))).one
  rw [setZ_leftCapsule] at hl
  generalize hasked : askedFor s1 (.capExit (nextPc .capExit s)) = a at hl
  have hended := hl.ended (endInstance_ended (published a h.rcd (nextPc .capExit s)) h.rcd 1 (by decide))
  rw [wordAt_published_head (hasked ▸ hone)] at hended
  obtain ⟨hsregs, -, -, -, hcc⟩ := hl.registers
  subst hasked
  refine ⟨t, hexec, fun b hb => ?_, hended, fun j hj => ?_, hl.held, hl.capBuf, hl.atPc, hsregs, hcc⟩
  · have hpublished := memByte_published_off (s := askedFor s1 (.capExit (nextPc .capExit s))) (rcd := h.rcd) (nextPc .capExit s)
      (a := b) (by omega)
    exact (hl.byte b).trans ((memByte_endInstance_off _ _ _ (by omega) (by omega)).trans
      (hpublished.trans ((memByte_commitStep _ _ hone (by omega)).trans (if_neg hb))))
  · exact (hl.word _).trans ((wordAt_endInstance_between _ _ _ (by omega)).trans (wordAt_published _ hj))

theorem abort_step (hgoes : Goes .capAbort s s1) (hstep : wordAt_ s1 (h.rcd + 24) % 32 = 0) :
    ∃ t, exec .capAbort s = .next t ∧ Ended t h.rcd (wordAt_ s1 h.rcd / 2 ^ 32) 2 ∧
      (∀ a, ¬(h.rcd ≤ a ∧ a < h.rcd + 256) → memByte t a = memByte s1 a) ∧ t.team.held = none ∧ t.team.capBuf = [] ∧
      t.team.pc = h.cont ∧ t.team.sregs = s1.team.sregs ∧ t.team.cc = s1.team.cc &&& 0x7E := by
  obtain ⟨t, hexec, hl⟩ := exec_abort hin hgoes hstep
  rw [setCC_Z_zero] at hl
  obtain ⟨hsregs, -, -, -, hcc⟩ := hl.registers
  exact ⟨t, hexec, hl.ended (endInstance_ended (askedFor s1 .capAbort) h.rcd 2 (by decide)),
    fun a ha => (hl.byte a).trans (memByte_endInstance_off _ _ _ (by omega) (by omega)), hl.held, hl.capBuf, hl.atPc, hsregs, hcc⟩

end

theorem capsuleInstructions_replied {i : Instr} {s : State} {r : SvcReply}
    (hi : i = .capCommit ∨ i = .capExit ∨ i = .capAbort ∨ ∃ a sz e, i = .capEnter a sz e) (h : Replied s r)
    (hparks : s.team.parks = []) : exec i s = .next (goesOn s (r.vals.getD 0 s.team.pc)) := by
  obtain rfl | rfl | rfl | ⟨a, sz, e, rfl⟩ := hi
  · exact capsule_replied rfl rfl h hparks
  · exact capsule_replied rfl rfl h hparks
  · exact capsule_replied rfl rfl h hparks
  · exact capsule_replied rfl rfl h hparks

/-- Settles O23: a step of the owner leaves the record and the data as one act, and a team whose reply has come goes on at the
address that it names. -/
theorem capsuleStepsAreOneAct : Obligations.CapsuleStepsAreOneAct := by
  unfold Obligations.CapsuleStepsAreOneAct
  exact ⟨fun s s1 h step hgoes hin hstep hmine hlt => commit_step hin hgoes hstep hmine hlt,
    fun s s1 h step hgoes hin hstep hmine => exit_step hin hgoes (hstep.symm.trans hmine),
    fun s s1 h hgoes hin hstep => abort_step hin hgoes hstep,
    fun i s r hi h hparks => capsuleInstructions_replied hi h hparks⟩

end Sys2Proof.MemorySync
end

section
/-! PROOFS. CAP.ENTER (O22, R259, R291): a free lock is taken and a parked one adopted, what the record then says, and what the
team then holds. -/

namespace Sys2Proof.MemorySync

open Sys2Proof.Machine Sys2Proof.RegisterState Sys2Proof.MemoryHierarchy Sys2Proof.ConsistencyModel Sys2Proof.ScalarControl

/-! ### The flag A -/

theorem setA_eq (t : Team) (a : Bool) : setA t a = { t with cc := if a then t.cc ||| 0x20 else t.cc &&& 0x5F } := by
  have hcc : ∀ c : BitVec 7, (c &&& ~~~(BitVec.ofNat 7 ccA)) ||| (BitVec.ofNat 7 (bitIf a ccA) &&& BitVec.ofNat 7 ccA) =
      if a then c ||| 0x20 else c &&& 0x5F := by
    cases a <;> decide
  rw [setA, setCC_keeps, hcc]

/-! ### Fields of a record -/

section
variable (s : State) (rcd : Nat)

theorem recWord_inst : fld (recWord s rcd 0) 63 32 = wordAt_ s rcd / 2 ^ 32 := by
  have hw := (recWord s rcd 0).isLt
  rw [← recWord_zero, fld, bitsNat, Nat.shiftRight_eq_div_pow]
  omega

theorem recWord_state : fld (recWord s rcd 16) 1 0 = wordAt_ s (rcd + 16) % 4 := by
  rw [fld, recWord_toNat]
  rfl

theorem recWord_part : fld (recWord s rcd 8) 63 60 = wordAt_ s (rcd + 8) / 2 ^ 60 := by
  have hw := (recWord s rcd 8).isLt
  rw [wordAt_, ← recWord_toNat, fld, bitsNat, Nat.shiftRight_eq_div_pow]
  omega

theorem recWord_free (h : wordAt_ s rcd % 2 = 0) : (recWord s rcd 0).getLsbD 0 = false := by
  rw [← Bool.not_eq_true, recWord_held, ← wordAt_, h]
  exact Nat.zero_ne_one

theorem recWord_taken (h : wordAt_ s rcd % 2 = 1) : (recWord s rcd 0).getLsbD 0 = true := (recWord_held s rcd).2 h

end

/-! ### A lock is taken -/

section
variable (s : State) (t : Team) (rcd : Nat) (next cont : Word)

/-- The first words of a record taken: HELD and INST, the owner, STATE, the step, the entry PC and s1 to s15. -/
def lockWords : List Nat :=
  [(wordAt_ s rcd / 2 ^ 32 + 1) % 2 ^ 32 * 2 ^ 32 + 1, (ownerWord t).toNat, 1, 0, next.toNat] ++ regWords t

theorem lockWords_length : (lockWords s t rcd next).length = 20 := by simp [lockWords, regWords]

theorem takeLock_bytes : ∃ bs : List Byte, bs.length = 64 ∧
    (takeLock s t rcd next cont).mem = (ownWrite (ownWrite s rcd (wordBytes (lockWords s t rcd next))) (rcd + 192) bs).mem ∧
    (takeLock s t rcd next cont).team = s.team := by
  have hwords : bytesOfNat 8 ((fld (recWord s rcd 0) 63 32 + 1) % 2 ^ 32 * 2 ^ 32 + 1) ++ bytesOfNat 8 (ownerWord t).toNat ++
      bytesOfNat 8 1 ++ bytesOfNat 8 0 ++ bytesOfNat 8 next.toNat ++ checkpoint t = wordBytes (lockWords s t rcd next) := by
    rw [checkpoint_eq, recWord_inst]
    simp only [lockWords, wordBytes, List.flatMap_append, List.flatMap_cons, List.flatMap_nil, List.append_assoc, List.nil_append]
  have hlen : ∀ w : Nat, (bytesOfNat 8 w ++ bytesOfNat 56 0).length = 64 := fun w => by
    rw [List.length_append, bytesOfNat_length, bytesOfNat_length]
  simp only [takeLock, hwords]
  exact ⟨_, hlen _, rfl, (writesOnly_ownWrite ..).team.trans (writesOnly_ownWrite ..).team⟩

theorem takeLock_team : (takeLock s t rcd next cont).team = s.team := by
  obtain ⟨_, -, -, hteam⟩ := takeLock_bytes s t rcd next cont
  exact hteam

theorem memByte_takeLock_off {a : Nat} (h : ¬(rcd ≤ a ∧ a < rcd + 256)) :
    memByte (takeLock s t rcd next cont) a = memByte s a := by
  obtain ⟨bs, hlen, hmem, -⟩ := takeLock_bytes s t rcd next cont
  refine (congrArg (mapGet 0 · a) hmem).trans ((memByte_ownWrite_off _ (by omega)).trans (memByte_ownWrite_off _ ?_))
  rw [wordBytes_length, lockWords_length]
  omega

theorem wordAt_takeLock {i v : Nat} (h : (lockWords s t rcd next)[i]? = some v) :
    wordAt_ (takeLock s t rcd next cont) (rcd + 8 * i) = v % 2 ^ 64 := by
  obtain ⟨bs, hlen, hmem, -⟩ := takeLock_bytes s t rcd next cont
  obtain ⟨hi, -⟩ := List.getElem?_eq_some_iff.1 h
  rw [lockWords_length] at hi
  refine (memNat_congr hmem _ 8).trans ((wordAt_ext fun a ha ha' => memByte_ownWrite_off _ ?_).trans (wordAt_ownWrite s rcd h))
  omega

theorem wordAt_takeLock_head : wordAt_ (takeLock s t rcd next cont) rcd = (wordAt_ s rcd / 2 ^ 32 + 1) % 2 ^ 32 * 2 ^ 32 + 1 := by
  have hword := wordAt_takeLock s t rcd next cont (i := 0) rfl
  rw [Nat.mul_zero, Nat.add_zero] at hword
  rw [hword]
  omega

theorem takeLock_checkpointed : wordAt_ (takeLock s t rcd next cont) (rcd + 24) = 0 ∧
    wordAt_ (takeLock s t rcd next cont) (rcd + 32) = next.toNat ∧
    ∀ j < 15, wordAt_ (takeLock s t rcd next cont) (rcd + 40 + 8 * j) = (sget t (BitVec.ofNat 6 (j + 1))).toNat := by
  refine ⟨wordAt_takeLock s t rcd next cont (i := 3) rfl,
    (wordAt_takeLock s t rcd next cont (i := 4) rfl).trans (Nat.mod_eq_of_lt next.isLt), fun j hj => ?_⟩
  rw [show rcd + 40 + 8 * j = rcd + 8 * (j + 5) by omega]
  exact (wordAt_takeLock s t rcd next cont (regWords_get t hj)).trans (Nat.mod_eq_of_lt (BitVec.isLt _))

theorem mem_takeLock_locks : rcd ∈ (takeLock s t rcd next cont).locks := by
  simp only [takeLock]
  split
  · next h => exact List.contains_iff_mem.1 h
  · exact List.mem_append_right _ (List.mem_singleton_self rcd)

end

/-! ### A lock is adopted -/

/-- A parked record that has its new owner and runs. -/
def adopted (s : State) (rcd : Nat) : State := recSet (recSet s rcd 8 (ownerWord s.team)) rcd 16 1

section
variable (s : State) (rcd : Nat)

theorem writesOnly_adopted : WritesOnly s (adopted s rcd) := (writesOnly_recSet ..).trans (writesOnly_recSet ..)

theorem memByte_adopted_off {a : Nat} (h : ¬(rcd + 8 ≤ a ∧ a < rcd + 24)) : memByte (adopted s rcd) a = memByte s a :=
  (memByte_recSet _ _ _ _ (by omega)).trans (memByte_recSet _ _ _ _ (by omega))

theorem wordAt_adopted_off {loc : Nat} (h : loc + 8 ≤ rcd + 8 ∨ rcd + 24 ≤ loc) : wordAt_ (adopted s rcd) loc = wordAt_ s loc :=
  wordAt_ext fun a ha ha' => memByte_adopted_off s rcd (by omega)

theorem wordAt_adopted : wordAt_ (adopted s rcd) (rcd + 8) = (ownerWord s.team).toNat ∧ wordAt_ (adopted s rcd) (rcd + 16) = 1 :=
  ⟨(wordAt_recSet_off _ rcd _ (.inl (by omega))).trans (wordAt_recSet ..), wordAt_recSet _ rcd 16 1⟩

theorem loadRegs_succ (t : Team) (n : Nat) : loadRegs s t rcd (n + 1) =
    sset (loadRegs s t rcd n) (BitVec.ofNat 6 (n + 1)) (recWord s (rcd + 8 * n) 0) := by
  simp only [loadRegs, List.range_succ, List.foldl_append, List.foldl_cons, List.foldl_nil]

/-- Registers taken from a record leave the rest of the team. -/
theorem loadRegs_eq (t : Team) (n : Nat) : ∃ g, loadRegs s t rcd n = { t with sregs := g } := by
  induction n with
  | zero => exact ⟨t.sregs, rfl⟩
  | succ n ih =>
    obtain ⟨g, hg⟩ := ih
    rw [loadRegs_succ, hg, sset]
    split <;> exact ⟨_, rfl⟩

theorem loadRegs_keeps {α : Type} (g : Team → α) (hg : ∀ (u : Team) (m : List (Nat × Word)), g { u with sregs := m } = g u)
    (t : Team) (n : Nat) : g (loadRegs s t rcd n) = g t := by
  obtain ⟨m, hm⟩ := loadRegs_eq s rcd t n
  rw [hm, hg]

/-- s1 to s_n hold the words of the record, and the registers behind them what they held. -/
theorem sget_loadRegs (t : Team) {n : Nat} (hn : n < 64) (r : SReg) : sget (loadRegs s t rcd n) r =
    if 1 ≤ r.toNat ∧ r.toNat ≤ n then BitVec.ofNat 64 (wordAt_ s (rcd + 8 * (r.toNat - 1))) else sget t r := by
  induction n with
  | zero => exact (if_neg (by omega)).symm
  | succ n ih =>
    have hreg : (BitVec.ofNat 6 (n + 1)).toNat = n + 1 := by
      rw [BitVec.toNat_ofNat]
      omega
    have hzero : BitVec.ofNat 6 (n + 1) ≠ 0 := fun h => by
      have := congrArg BitVec.toNat h
      rw [hreg] at this
      exact absurd this (Nat.succ_ne_zero n)
    rw [loadRegs_succ, sget_sset, ih (by omega)]
    by_cases hr : r = BitVec.ofNat 6 (n + 1)
    · rw [if_pos ⟨hr, hzero⟩, hr, hreg, if_pos ⟨by omega, Nat.le_refl _⟩]
      rfl
    · have hne : r.toNat ≠ n + 1 := fun h => hr (BitVec.eq_of_toNat_eq (h.trans hreg.symm))
      rw [if_neg fun h => hr h.1]
      exact if_congr (by omega) rfl rfl

end

/-! ### CAP.ENTER at its service team -/

/-- A team inside the capsule that it has entered. -/
def entered (t : Team) (hold : CapHold) (step : Nat) (a : Bool) : Team :=
  setA { t with held := some hold, mystep := step, capBuf := [], capCount := 0 } a

theorem entered_cc (t : Team) (hold : CapHold) (step : Nat) (a : Bool) :
    (entered t hold step a).cc = if a then t.cc ||| 0x20 else t.cc &&& 0x5F := by rw [entered, setA_eq]

theorem entered_sPoison (t : Team) (hold : CapHold) (step : Nat) (a : Bool) : (entered t hold step a).sPoison = t.sPoison := rfl

theorem entered_vPoison (t : Team) (hold : CapHold) (step : Nat) (a : Bool) : (entered t hold step a).vPoison = t.vPoison := rfl

theorem entered_lstk (t : Team) (hold : CapHold) (step : Nat) (a : Bool) : (entered t hold step a).lstk = t.lstk := rfl

theorem sget_entered (t : Team) (hold : CapHold) (step : Nat) (a : Bool) (r : SReg) :
    sget (entered t hold step a) r = sget t r := rfl

/-- A service team is asked for a record that has room for its team, with nothing else waiting. -/
structure Enters (s : State) (rcd : Nat) : Prop where
  present : s.team.status ≠ .vacant
  unpoisoned : poisonedIn s rcd 256 = false
  room : capEntries s s.team.part < quota s s.team.part 2
  waiting : s.capWait = []
  dirty : s.dirty = []
  idle : s.capWrites = []
  way : AllOpen s
  unanswered : s.team.reply = none

section
variable {s : State} {rcd size : Nat} {next cont : Word} (he : Enters s rcd)
include he

theorem capFirst_alone (ok : Team → Bool) : capFirst s s.team.place rcd ok = true := by
  rw [capFirst, he.waiting]
  rfl

theorem enter_performed {u : State} {rep : SvcReply}
    (hreq : capEnterReq s s.team rcd size next cont = .ok (.ok (u, rep))) : performRequest s s.team (.capEnter rcd size next cont) =
      .reply (svcNoted u (ownerCluster rcd) s.team.asid rcd 256) rep := by
  have hreply : (teamAt s s.team.place).bind (·.reply) = none := by rw [teamAt_here he.present, Option.bind_some, he.unanswered]
  simp only [performRequest, requestHeld_open he.way, settleCaps_idle he.idle, hreply, hreq, Bool.false_eq_true, if_false]
  rfl

theorem capEnterReq_free (hfree : wordAt_ s rcd % 2 = 0) (hstate : wordAt_ s (rcd + 16) % 4 ≠ 3) :
    ∃ y, capEnterReq s s.team rcd size next cont = .ok (.ok ({ withTeam (takeLock s s.team rcd next cont) fun t =>
      entered t ⟨rcd, size, BitVec.ofNat 32 (fld (recWord (takeLock s s.team rcd next cont) rcd 0) 63 32), cont, cont⟩ 0 false with
        capWait := y }, { vals := [next] })) := by
  have hteam := takeLock_team s s.team rcd next cont
  have hhere : ∀ f, mapTeam (takeLock s s.team rcd next cont) s.team.place f = withTeam (takeLock s s.team rcd next cont) f :=
    fun f => by rw [← mapTeam_here (hteam.symm ▸ he.present) f, hteam]
  simp only [capEnterReq, flushLines_clean he.dirty, he.unpoisoned, recWord_free s rcd hfree, recWord_state, hstate, Bool.false_and,
    Bool.or_false, decide_false, Nat.not_le_of_lt he.room, capFirst_alone he, hhere, Bool.not_false, Bool.false_eq_true, if_true,
    if_false]
  exact ⟨_, rfl⟩

theorem capEnterReq_parked (htaken : wordAt_ s rcd % 2 = 1) (hstate : wordAt_ s (rcd + 16) % 4 = 2)
    (hpart : wordAt_ s (rcd + 8) / 2 ^ 60 = s.team.part.toNat) :
    ∃ y, capEnterReq s s.team rcd size next cont = .ok (.ok ({ withTeam (adopted s rcd) fun t =>
      entered (loadRegs (adopted s rcd) t (rcd + 40) 15) ⟨rcd, size, BitVec.ofNat 32 (fld (recWord (adopted s rcd) rcd 0) 63 32), cont,
        bodyEnd (adopted s rcd) rcd cont⟩ (fld (recWord (adopted s rcd) rcd 24) 4 0) true with capWait := y },
        { vals := [recWord (adopted s rcd) rcd 32] })) := by
  have hteam := (writesOnly_adopted s rcd).team
  have hhere : ∀ f, mapTeam (adopted s rcd) s.team.place f = withTeam (adopted s rcd) f :=
    fun f => by rw [← mapTeam_here (hteam.symm ▸ he.present) f, hteam]
  have hadopted : recSet (recSet s rcd 8 (ownerWord s.team)) rcd 16 1 = adopted s rcd := rfl
  have hlives : (decide (2 = 3) || true && decide (2 = 0)) = false := rfl
  simp only [capEnterReq, flushLines_clean he.dirty, he.unpoisoned, recWord_taken s rcd htaken, recWord_state, hstate, recWord_part,
    hpart, Nat.not_le_of_lt he.room, capFirst_alone he, hlives, hadopted, hhere, Bool.not_true, Bool.and_self, decide_true,
    Bool.false_eq_true, if_true, if_false]
  exact ⟨_, rfl⟩

end

/-! ### The instruction -/

theorem capEntries_askedFor (s : State) (r : SvcReq) (p : BitVec 4) : capEntries (askedFor s r) p = capEntries s p := by
  have hteams : teamsOf (askedFor s r) = (if s.team.status = .vacant then [] else [(askedFor s r).team]) ++ s.others := rfl
  rw [capEntries, capEntries, hteams, teamsOf]
  split
  · rfl
  · simp only [List.map_append, List.map_cons]
    rfl

theorem capCont_of_issues {i : Instr} {s s1 : State} (h : Issues i s s1) (e : BitVec 11) : capCont s1 e = capCont s e := by
  rw [capCont, capCont, pc_of_issues h]

section
variable {a : SSrc} {sz : BitVec 4} {e : BitVec 11} {s s1 : State} {rcd : Nat} (h : Goes (.capEnter a sz e) s s1) (hasks : Asks s1)
  (hwait : s1.capWait = []) (hroom : capEntries s1 s1.team.part < quota s1 s1.team.part 2)
  (hclean : poisonedIn s1 rcd 256 = false)

/-- What a CAP.ENTER asks of the service team of a record. -/
def enterReq (s : State) (a : SSrc) (sz : BitVec 4) (e : BitVec 11) (rcd : Nat) : SvcReq :=
  .capEnter rcd (256 * (sz.toNat + 1)) (nextPc (.capEnter a sz e) s) (capCont s e)

include h hasks hwait hroom hclean

theorem enters_askedFor (r : SvcReq) : Enters (askedFor s1 r) rcd := by
  obtain ⟨⟨-, hdirty, hidle⟩, hway, -, hpresent, -⟩ := hasks
  exact ⟨hpresent, hclean, (capEntries_askedFor s1 r s1.team.part).symm ▸ hroom, hwait, hdirty, hidle, hway, h.idle.2⟩

/-- An entry that its service team performs at once: the state `x` that it leaves of memory, and `f` of its team. -/
theorem entry_lands {x : State} {f : Team → Team} {pc : Word}
    (haccess : access s1 (sget s1.team a.r) 256 256 .atomic = .ok rcd)
    (hreq : ∃ y, capEnterReq (askedFor s1 (enterReq s a sz e rcd)) (askedFor s1 (enterReq s a sz e rcd)).team rcd
      (256 * (sz.toNat + 1)) (nextPc (.capEnter a sz e) s) (capCont s e) =
        .ok (.ok ({ withTeam x f with capWait := y }, { vals := [pc] })))
    (hteam : x.team = (askedFor s1 (enterReq s a sz e rcd)).team) (hs : ∀ t, (f t).sPoison = t.sPoison)
    (hv : ∀ t, (f t).vPoison = t.vPoison) (hl : ∀ t, (f t).lstk = t.lstk) : ∃ t, exec (.capEnter a sz e) s = .next t ∧
      LandsAs x (f (askedFor s1 (enterReq s a sz e rcd)).team) t pc := by
  obtain ⟨y, hreq⟩ := hreq
  have hserved := enter_performed (enters_askedFor h hasks hwait hroom hclean _) hreq
  rw [show exec (.capEnter a sz e) s = execCapEnter a sz e s from rfl, execCapEnter]
  refine capsule_served h hasks (va := sget s1.team a.r) ?_ hserved rfl rfl rfl rfl (congrArg f hteam) (hs _) (hv _) (hl _)
  simp only [withReply_first h.idle, haccess, nextPc_of_issues h.toIssues, capCont_of_issues h.toIssues]
  rfl

theorem enter_free (haccess : access s1 (sget s1.team a.r) 256 256 .atomic = .ok rcd) (hfree : wordAt_ s1 rcd % 2 = 0)
    (hstate : wordAt_ s1 (rcd + 16) % 4 ≠ 3) : ∃ t, exec (.capEnter a sz e) s = .next t ∧
      t.team.held = some ⟨rcd, 256 * (sz.toNat + 1), BitVec.ofNat 32 (wordAt_ s1 rcd / 2 ^ 32 + 1), capCont s e, capCont s e⟩ ∧
      t.team.mystep = 0 ∧ t.team.pc = nextPc (.capEnter a sz e) s ∧ t.team.sregs = s1.team.sregs ∧
      t.team.cc = s1.team.cc &&& 0x5F ∧ wordAt_ t rcd = (wordAt_ s1 rcd / 2 ^ 32 + 1) % 2 ^ 32 * 2 ^ 32 + 1 ∧
      wordAt_ t (rcd + 8) = (ownerWord s1.team).toNat ∧ wordAt_ t (rcd + 16) = 1 ∧
      Checkpointed s1 t rcd 0 (nextPc (.capEnter a sz e) s) ∧ rcd ∈ t.locks ∧
      ∀ y, ¬(rcd ≤ y ∧ y < rcd + 256) → memByte t y = memByte s1 y := by
  have henters := enters_askedFor h hasks hwait hroom hclean (enterReq s a sz e rcd)
  obtain ⟨t, hexec, hl⟩ := entry_lands h hasks hwait hroom hclean haccess (capEnterReq_free henters hfree hstate)
    (takeLock_team ..) (fun _ => rfl) (fun _ => rfl) fun _ => rfl
  have hhead := wordAt_takeLock_head (askedFor s1 (enterReq s a sz e rcd)) (askedFor s1 (enterReq s a sz e rcd)).team rcd
    (nextPc (.capEnter a sz e) s) (capCont s e)
  have hword := fun i v => wordAt_takeLock (askedFor s1 (enterReq s a sz e rcd)) (askedFor s1 (enterReq s a sz e rcd)).team rcd
    (nextPc (.capEnter a sz e) s) (capCont s e) (i := i) (v := v)
  obtain ⟨hstep, hentry, hregs⟩ := takeLock_checkpointed (askedFor s1 (enterReq s a sz e rcd))
    (askedFor s1 (enterReq s a sz e rcd)).team rcd (nextPc (.capEnter a sz e) s) (capCont s e)
  have hinst : BitVec.ofNat 32 (fld (recWord (takeLock (askedFor s1 (enterReq s a sz e rcd))
      (askedFor s1 (enterReq s a sz e rcd)).team rcd (nextPc (.capEnter a sz e) s) (capCont s e)) rcd 0) 63 32) =
      BitVec.ofNat 32 (wordAt_ s1 rcd / 2 ^ 32 + 1) := by
    rw [recWord_inst, hhead, askedFor_word]
    apply BitVec.eq_of_toNat_eq
    rw [BitVec.toNat_ofNat, BitVec.toNat_ofNat]
    omega
  rw [hinst] at hl
  obtain ⟨hsregs, -, -, -, hcc⟩ := hl.registers
  exact ⟨t, hexec, hl.held, hl.mystep, hl.atPc, hsregs, hcc.trans (entered_cc ..), (hl.word _).trans hhead,
    (hl.word _).trans ((hword 1 _ rfl).trans (Nat.mod_eq_of_lt (BitVec.isLt _))), (hl.word _).trans (hword 2 _ rfl),
    ⟨(hl.word _).trans hstep, (hl.word _).trans hentry, fun j hj => (hl.word _).trans (hregs j hj)⟩,
    hl.locks ▸ mem_takeLock_locks .., fun y hy => (hl.byte y).trans (memByte_takeLock_off _ _ _ _ _ hy)⟩

theorem enter_parked (haccess : access s1 (sget s1.team a.r) 256 256 .atomic = .ok rcd) (htaken : wordAt_ s1 rcd % 2 = 1)
    (hstate : wordAt_ s1 (rcd + 16) % 4 = 2) (hpart : wordAt_ s1 (rcd + 8) / 2 ^ 60 = s1.team.part.toNat) :
    ∃ t, exec (.capEnter a sz e) s = .next t ∧
      t.team.held = some ⟨rcd, 256 * (sz.toNat + 1), BitVec.ofNat 32 (wordAt_ s1 rcd / 2 ^ 32), capCont s e,
        ((s1.bodies.find? fun b => b.1 == rcd).map (·.2)).getD (capCont s e)⟩ ∧
      t.team.mystep = wordAt_ s1 (rcd + 24) % 32 ∧ t.team.pc = BitVec.ofNat 64 (wordAt_ s1 (rcd + 32)) ∧
      t.team.cc = s1.team.cc ||| 0x20 ∧
      (∀ j < 15, sget t.team (BitVec.ofNat 6 (j + 1)) = BitVec.ofNat 64 (wordAt_ s1 (rcd + 40 + 8 * j))) ∧
      (∀ r : SReg, 16 ≤ r.toNat → sget t.team r = sget s1.team r) ∧
      wordAt_ t (rcd + 8) = (ownerWord s1.team).toNat ∧ wordAt_ t (rcd + 16) = 1 ∧
      ∀ y, ¬(rcd + 8 ≤ y ∧ y < rcd + 24) → memByte t y = memByte s1 y := by
  have henters := enters_askedFor h hasks hwait hroom hclean (enterReq s a sz e rcd)
  obtain ⟨t, hexec, hl⟩ := entry_lands h hasks hwait hroom hclean haccess (capEnterReq_parked henters htaken hstate hpart)
    (writesOnly_adopted ..).team (fun _ => (entered_sPoison ..).trans (loadRegs_keeps _ _ Team.sPoison (fun _ _ => rfl) ..))
    (fun _ => (entered_vPoison ..).trans (loadRegs_keeps _ _ Team.vPoison (fun _ _ => rfl) ..))
    fun _ => (entered_lstk ..).trans (loadRegs_keeps _ _ Team.lstk (fun _ _ => rfl) ..)
  have hbodies := (writesOnly_adopted (askedFor s1 (enterReq s a sz e rcd)) rcd).bodies
  have hoff := fun loc => wordAt_adopted_off (askedFor s1 (enterReq s a sz e rcd)) rcd (loc := loc)
  obtain ⟨howner, hruns⟩ := wordAt_adopted (askedFor s1 (enterReq s a sz e rcd)) rcd
  rw [recWord_inst, recWord_step, bodyEnd, hbodies, hoff rcd (.inl (by omega)), hoff (rcd + 24) (.inr (by omega))] at hl
  have hregs := fun r => (hl.sget r).trans ((sget_entered ..).trans (sget_loadRegs
    (adopted (askedFor s1 (enterReq s a sz e rcd)) rcd) (rcd + 40) (askedFor s1 (enterReq s a sz e rcd)).team
    (by decide : 15 < 64) r))
  obtain ⟨-, -, -, -, hcc⟩ := hl.registers
  simp only [entered_cc, if_true, loadRegs_keeps _ _ Team.cc fun _ _ => rfl] at hcc
  refine ⟨t, hexec, hl.held, hl.mystep, hl.atPc.trans (congrArg (BitVec.ofNat 64) (hoff (rcd + 32) (.inr (by omega)))),
    hcc, fun j hj => ?_, fun r hr => ?_,
    (hl.word _).trans howner, (hl.word _).trans hruns, fun y hy => (hl.byte y).trans (memByte_adopted_off _ _ hy)⟩
  · have hreg : (BitVec.ofNat 6 (j + 1)).toNat = j + 1 := by
      rw [BitVec.toNat_ofNat]
      omega
    rw [hregs, hreg, if_pos (by omega), Nat.add_sub_cancel, hoff _ (.inr (by omega)), askedFor_word]
  · rw [hregs, if_neg (by omega), askedFor_sget]

end

/-- Settles O22: a CAP.ENTER takes a free lock, or adopts a parked one and goes on at its checkpoint. -/
theorem capsuleEntryTakesTheLock : Obligations.CapsuleEntryTakesTheLock := by
  unfold Obligations.CapsuleEntryTakesTheLock
  intro a sz e s s1 rcd h hasks hwait _ haccess _ _ hclean hroom
  exact ⟨enter_free h hasks hwait hroom hclean haccess, enter_parked h hasks hwait hroom hclean haccess⟩

end Sys2Proof.MemorySync
end
